-- ==== Sys2Proof/Word.lean ====
section
/-! DEFINITION. The word types of the Izlaevo and their plainest arithmetic: 64-bit registers, bytes, the 96-bit
instruction word (R12), the 512-bit fetch line (R19), and the extension helpers SX and ZX of chapter 4. -/

namespace Sys2Proof

/-- A 64-bit register value (R37). -/
abbrev Word := BitVec 64

/-- A byte of memory. -/
abbrev Byte := BitVec 8

/-- A 96-bit instruction word (R12). -/
abbrev IWord := BitVec 96

/-- A 64-byte fetch line (R19), bit 0 the lowest bit of byte 0. -/
abbrev Line := BitVec 512

/-- A 2,048-bit vector register (R37). -/
abbrev VReg := BitVec 2048

/-- SX(x, n) of R57: the low `n` bits of `x`, sign-extended to 64 bits. -/
def sx (n : Nat) (x : Word) : Word := (x.setWidth n).signExtend 64

/-- ZX(x, n) of R57: the low `n` bits of `x`, zero-extended to 64 bits. -/
def zx (n : Nat) (x : Word) : Word := (x.setWidth n).setWidth 64

end Sys2Proof
end

