-- ==== Sys2Proof/Syntax.lean ====
section
/-! DEFINITION. The instructions of the Izlaevo and the machine's own steps, one constructor per row of the opcode
table. Rows 0x01-0xFF are the instructions of R31 with their operand forms; the other rows are the indivisible steps
the part makes by itself or at the request of an outside party (what each step holds: 95_what_each_step_holds.md).
A step's arguments are the data that reaches the part from outside the modelled quad, or name the pending item it acts
on. -/

namespace Sys2Proof

/-! ## Operand forms (R17) -/

/-- The eleven specials, codes 0x30-0x3A (R44). -/
inductive Special where
  | zero | core | quad | cluster | device | home | frame | sp | clk | firing | tl
deriving DecidableEq, Repr

/-- "src": a queue, named or special specifier, 0x00-0x3A (R56). `q k` is q(k+1). -/
inductive Src where
  | q (k : Fin 16)
  | n (r : Fin 32)
  | special (x : Special)
deriving DecidableEq, Repr

/-- A queue or named specifier only (BC, JMPI, SPAWN). -/
inductive QN where
  | q (k : Fin 16)
  | n (r : Fin 32)
deriving DecidableEq, Repr

/-- A src, or 0x7F with the operand in IMM. -/
inductive SrcImm where
  | reg (r : Src)
  | imm (v : BitVec 48)
deriving DecidableEq, Repr

/-- D of a scalar result: a named register, or none (0x7F). -/
abbrev NDst := Option (Fin 32)

/-- D of MOV and MOVI (R50): a named or a mask register. -/
inductive NM where
  | n (r : Fin 32)
  | m (k : Fin 8)
deriving DecidableEq, Repr

/-- A of MOV (R50). -/
inductive MovSrc where
  | scalar (r : Src)
  | m (k : Fin 8)
  | lc (k : Fin 8)
deriving DecidableEq, Repr

/-- Integer and scalar-memory widths, FM 0-3 (R14). -/
inductive Width where
  | w64 | w32 | w16 | w8
deriving DecidableEq, Repr

/-- The element formats of R14 and R75, FM 0x0-0xD. -/
inductive Fmt where
  | fp32 | bf16 | fp16 | f8a | f8b | e2m1 | e8m0 | mxf8a | mxf8b | mxf4 | int8 | int16 | int32 | int64
deriving DecidableEq, Repr

/-- FM of scalar floating point: FP32 or BF16 (R97). -/
inductive SFmt where
  | fp32 | bf16
deriving DecidableEq, Repr

/-- The element formats of most vector instructions (R295). -/
inductive VFmt where
  | fp32 | bf16 | int8 | int16 | int32
deriving DecidableEq, Repr

/-- The integer element formats of vector logic and shifts (R295). -/
inductive IFmt where
  | int8 | int16 | int32
deriving DecidableEq, Repr

/-- The formats of VPERM, VBCAST, VEXT and VINS (R295). -/
inductive PFmt where
  | fp32 | bf16 | f8a | f8b | int8 | int16 | int32
deriving DecidableEq, Repr

/-- The MX block formats of VMXQ and VMXD (R295). -/
inductive MxFmt where
  | mxf8a | mxf8b | mxf4
deriving DecidableEq, Repr

/-- The matrix operand formats of WLD and MMA (R261). -/
inductive MFmt where
  | bf16 | f8a | f8b | mxf8a | mxf8b | mxf4
deriving DecidableEq, Repr

/-- The destination formats of AST (R279). -/
inductive AFmt where
  | fp32 | bf16 | f8a | f8b
deriving DecidableEq, Repr

/-- The source formats of PULLR (R252). -/
inductive RFmt where
  | fp32 | bf16 | int32
deriving DecidableEq, Repr

/-- FN of ADD and SUB (R61). -/
inductive AddFn where
  | wrap | sat | satu | carry
deriving DecidableEq, Repr

/-- FN[3:0] of VADD and VSUB (R297). -/
inductive VAddFn where
  | wrap | sat | satu
deriving DecidableEq, Repr

/-- FN of MULH (R62). -/
inductive MulhFn where
  | ss | uu | su
deriving DecidableEq, Repr

/-- The integer conditions of R69. -/
inductive ICond where
  | eq | ne | lt | ge | ltu | geu | gt | le | gtu | leu
deriving DecidableEq, Repr

/-- The floating-point conditions of R104. -/
inductive FCond where
  | eq | ne | lt | ge | gt | le | un | ord
deriving DecidableEq, Repr

/-- The three forms of EXT (R67): width from FM, from a register, or from IMM. -/
inductive ExtForm where
  | fixed (w : Width)
  | operand (b : SrcImm)
deriving DecidableEq, Repr

/-- The three forms of BITF (R68). -/
inductive BitfForm where
  | x | xs
  | ins (b : Src)
deriving DecidableEq, Repr

/-- FN of HOMEOF (R74). -/
inductive HomeSel where
  | home | off | dev | cl | isLocal
deriving DecidableEq, Repr

/-- FN of AMO (R182). -/
inductive AmoFn where
  | add | and | or | xor | min | max | minu | maxu | xchg
deriving DecidableEq, Repr

/-- B of LDX and STX (R180): a stride, or the first register of an index group. -/
inductive XIdx where
  | stride (b : Src)
  | index (v : Fin 32)
deriving DecidableEq, Repr

/-- FN of PREF (R181). -/
inductive PrefFn where
  | touch | na | wb
deriving DecidableEq, Repr

/-- The scope of FENCE (R195). -/
inductive Scope where
  | f | c | p
deriving DecidableEq, Repr

/-- A mask from a register or from IMM[15:0] (WSLEEP). -/
inductive MaskSrc where
  | reg (a : Src)
  | imm (m : BitVec 16)
deriving DecidableEq, Repr

/-- PULLG's count: a loop-count register or IMM[47:24]. -/
inductive CountSrc where
  | lc (k : Fin 8)
  | imm (c : BitVec 24)
deriving DecidableEq, Repr

/-- AGSET's count: a register or IMM[5:0]. -/
inductive AgCount where
  | reg (b : Src)
  | imm (c : BitVec 6)
deriving DecidableEq, Repr

/-- LCSET's value: a register or IMM[31:0]. -/
inductive LcVal where
  | reg (a : Src)
  | imm (v : BitVec 32)
deriving DecidableEq, Repr

/-- EQUERY's select (R259); `.faultClr` is .FAULT.CLR. -/
inductive EqSel where
  | done | nextId | fault | faultClr | stat
deriving DecidableEq, Repr

/-- WLD's source (R264): scratch registers, or a vector group with, for an MX format, a scale register. -/
inductive WldSrc where
  | scratch (a b : Src)
  | vec (v : Fin 32) (g : BitVec 2) (scales : Option (Fin 32))
deriving DecidableEq, Repr

/-- MMA's activations (R279): scratch registers with an optional tile count, or a tensor map with a start index. -/
inductive MmaSrc where
  | scratch (a b : Src) (tiles : Option (Fin 8))
  | map (t : Fin 8) (b : Src)
deriving DecidableEq, Repr

/-- "bop" of R295: a vector register, a src, or an immediate. -/
inductive VB where
  | v (r : Fin 32)
  | reg (r : Src)
  | imm (x : BitVec 48)
deriving DecidableEq, Repr

/-- D of VCMP: a vector or a mask register (R303). -/
inductive VMDst where
  | v (r : Fin 32)
  | m (k : Fin 8)
deriving DecidableEq, Repr

/-- FN[3:0] of VCMP: an integer or a floating-point condition, as the format is. -/
inductive VCond where
  | i (c : ICond)
  | f (c : FCond)
deriving DecidableEq, Repr

/-- FN[3:0] of VRED (R307). -/
inductive RedOp where
  | add | min | max | minu | maxu | and | or | xor
deriving DecidableEq, Repr

/-- The value of VBCAST (R309). -/
inductive BcSrc where
  | reg (a : Src)
  | imm (v : BitVec 48)
  | lane (v : Fin 32) (l : BitVec 9)
deriving DecidableEq, Repr

/-- The lane of VEXT and VINS. -/
inductive LaneSrc where
  | reg (b : Src)
  | imm (l : BitVec 9)
deriving DecidableEq, Repr

/-- The source of VCVT (R301): a format code or a packed form (R302). -/
inductive CvtSrc where
  | fmt (f : Fmt)
  | e3m2 | e2m3 | int4
deriving DecidableEq, Repr

/-- The mask operand of a vector instruction (R287). -/
abbrev VMask := Option (Fin 8)

/-! ## Data of the machine's own steps -/

/-- The grain of a page (R144): 32, 128 or 512 bytes. -/
inductive Grain where
  | g32 | g128 | g512
deriving DecidableEq, Repr

/-- What a home answers a far read with: the sectors of the grain, lowest first, each with its poison bit, and the
home's GEN (R205, R207); or a fault status; or a residency ticket (R152); or nothing, the home being lost. -/
inductive Reply where
  | data (gen : BitVec 48) (grain : Grain) (sectors : List (BitVec 256 × Bool))
  | fault (cause : Byte)
  | notResident (word thr : Word)
  | lost
deriving DecidableEq, Repr

/-- What one 64-byte line request ends in (pull lines, code lines). -/
inductive LineReply where
  | data (gen : BitVec 48) (bits : Line) (poison : Bool)
  | fault (cause : Byte)
  | notResident (word thr : Word)
  | lost
deriving DecidableEq, Repr

/-- Who registered a watch (R189). -/
inductive Requester where
  | slot (home : BitVec 17) (quad : BitVec 3) (core : BitVec 2) (k : Fin 16) (tag : BitVec 4)
  | sched (home : BitVec 17) (id : Nat)
  | tlb (home : BitVec 17) (space : BitVec 16)
deriving DecidableEq, Repr

/-- What reaches a watch slot or a scheduler watch (R190-R192). -/
inductive WatchEnd where
  | armed
  | answer (value : Word) (gen : BitVec 48)
  | full
  | fault (cause : Byte)
  | lost
deriving DecidableEq, Repr

/-- What a scheduler's read of an edge list or actor descriptor ends in (R123). -/
inductive ListRead where
  | words (gen : BitVec 48) (ws : List Word)
  | fail (cause : Byte)
deriving DecidableEq, Repr

/-- A record that a source cluster's lane holds for this scheduler (R129). -/
structure LaneRec where
  code : Word
  frame : Word
  join : BitVec 7
  prio : BitVec 2
  wide : Bool
  actor : Bool
  graph : BitVec 32
  space : BitVec 16
  key : Word
deriving DecidableEq, Repr

/-- Where a soft error strikes (R174): an offset of the near window, a vector register, an accumulator row or a spill offset
of a core's pool, or a near-cache line of a space. -/
inductive ErrAt where
  | pool (off : Nat)
  | register (core : BitVec 2) (r : Fin 32)
  | accumulator (core : BitVec 2) (row : Nat)
  | spill (core : BitVec 2) (off : Nat)
  | nearCache (space : BitVec 16) (line : Word)
deriving DecidableEq, Repr

/-- A read request that reaches this home (R139 check 5): space, offset, bytes, and the reader's tag; or a lane read, by the home
that reads its lane (R129, R341). -/
structure ReadReq where
  space : BitVec 16
  off : BitVec 40
  bytes : Nat
  tag : Nat
  lane : Option (BitVec 17) := none
deriving DecidableEq, Repr

/-- A page request's answer (R327). -/
inductive PageReply where
  | ticket (word thr : Word)
  | fault (cause : Byte)
  | lost
deriving DecidableEq, Repr

/-- A register the stokers write through a status block and that has no behaviour of its own (R121, R136, R190, R294,
R345, R388, R389). -/
inductive StokerReg where
  | aging (k : Fin 4)
  | sessionTimeout
  | queuePrio (q : Fin 4)
  | ptpDomain
  | sluicePeakClear
  | vecHeadWaitMaxClear
  | launchEntry (i : Fin 256) (period phase template : Word) (flags : BitVec 32)
  | ethPath (dev : BitVec 10)
deriving DecidableEq, Repr

/-- One change the stokers make to a space's entries on this device (R153): an 8-byte entry at a physical address, a
frame released, or a space descriptor. -/
inductive TableChange where
  | entry (space : BitVec 16) (pa : Nat) (pte : Word)
  | freeFrame (space : BitVec 16) (frame : Nat)
  | descriptor (space : BitVec 16) (w0 w1 w2 w3 : Word)
deriving DecidableEq, Repr

/-- The passes of a migration (R156). -/
inductive MigStep where
  | copy
  | recopy
  | final
deriving DecidableEq, Repr

/-- How a page-in ends (R158, R397): the data arrives with a valid tag, or it fails. -/
inductive PageData where
  | good (bytes : List Byte)
  | failed
deriving DecidableEq, Repr

/-- Who quenches a hearth (R384). -/
inductive QuenchBy where
  | interface | host | stokers
deriving DecidableEq, Repr

/-- The phases of a Nysil key rotation (R375, R376): a rotation is asked of the stokers; the next key is installed, as it is or as
the secret that the two devices have agreed (R374); the peer has acknowledged. -/
inductive RotStep where
  | wanted
  | install (key : BitVec 512)
  | agreed (secret : List Byte)
  | acknowledged
deriving DecidableEq, Repr

/-- Where a command of Gorsoica's sequencer comes from (R377). -/
inductive CmdSrc where
  | pf0 | stokers | spdm | vf
deriving DecidableEq, Repr

/-- The IDE_KM messages of a stream's key set (R373): its key is programmed, it is switched to, it is stopped. -/
inductive IdeKm where
  | program | go | stop
deriving DecidableEq, Repr

/-- A firmware image (R379): its bytes, its SM2 signature and its security version. -/
structure FwImage where
  bytes : List Byte
  sig : List Byte
  version : Nat
deriving DecidableEq, Repr

/-- What the two dies of a link have exchanged at a training (R371): the nonces of the lower-numbered and of the other die, and the
HMAC that each has received. -/
structure LinkProof where
  nonceLow : List Byte
  nonceHigh : List Byte
  macLow : List Byte
  macHigh : List Byte
deriving DecidableEq, Repr

/-- A word of a firing's state that the debug agent names (R378): registers, a 64-bit word of a vector register or of an accumulator
row, a queue entry of a bank, a spill word, and the firing's own words. -/
inductive DebugReg where
  | n (r : Fin 32)
  | v (r : Fin 32) (w : Fin 32)
  | m (k : Fin 8)
  | lc (k : Fin 8)
  | q (bank : Fin 3) (k : Fin 16)
  | acc (row : Fin 512) (w : Fin 32)
  | spill (off : BitVec 20)
  | pc | sp | spbase | splim | fstat
deriving DecidableEq, Repr

/-- The debug agent reads or writes a word of a firing, by its number, on the core of a quad that it runs on or was saved from
(R378). -/
inductive DebugAccess where
  | read (firing : BitVec 32) (core : BitVec 2) (r : DebugReg)
  | write (firing : BitVec 32) (core : BitVec 2) (r : DebugReg) (v : Word)
deriving DecidableEq, Repr

/-- PCIe completion kinds (R348). -/
inductive PcieEnd where
  | data (bits : Line)
  | abort
  | poisoned
deriving DecidableEq, Repr

/-- What a kill request carries (R333, R421). -/
structure KillReq where
  graph : BitVec 32
  cause : Byte
  origin : Byte
  undelivered : Byte
  firing : BitVec 32
  loc : BitVec 32
  tval : Word
  tval1 : Word
  tval2 : Word
  ret : Word
deriving DecidableEq, Repr

/-- The header of a Nysil message (R340, R341): its fields; whether its switch plane marked it congested (R344); and `wire`, its
payload's ciphertext and its tag. Of a message that arrives without them, `tagOk` tells whether its tag verifies. -/
structure NysilHdr where
  src : BitVec 10
  dst : BitVec 10
  slot : BitVec 6
  phase : Bool
  type : BitVec 7
  entropy : Byte
  echo : Bool
  again : Bool
  zeros : Bool
  seqNo : Word
  tagOk : Bool
  congested : Bool
  wire : Option (List Byte × BitVec 128) := none
deriving DecidableEq, Repr

/-! ## The instructions -/

/-- One constructor per row of the opcode table. -/
inductive Instr where
  -- control (R106, R130)
  | nop
  | hint (op : BitVec 4) (rest : BitVec 88)
  | br (t : BitVec 48)
  | bc (w : Width) (c : ICond) (a : QN) (t : BitVec 48)
  | call (t : BitVec 48)
  | ret
  | jmpi (a : QN)
  | endFiring
  | spawn (code frame : QN) (home : Option QN) (actor wide : Bool) (prio : BitVec 2) (join : BitVec 7)
  | yield
  -- integer and address (R56)
  | add (f : AddFn) (w : Width) (d : NDst) (a : Src) (b : SrcImm)
  | sub (f : AddFn) (w : Width) (d : NDst) (a : Src) (b : SrcImm)
  | mul (w : Width) (d : NDst) (a : Src) (b : SrcImm)
  | mulh (f : MulhFn) (w : Width) (d : NDst) (a : Src) (b : SrcImm)
  | div (w : Width) (d : NDst) (a : Src) (b : SrcImm)
  | divu (w : Width) (d : NDst) (a : Src) (b : SrcImm)
  | rem (w : Width) (d : NDst) (a : Src) (b : SrcImm)
  | remu (w : Width) (d : NDst) (a : Src) (b : SrcImm)
  | and (w : Width) (d : NDst) (a : Src) (b : SrcImm)
  | or (w : Width) (d : NDst) (a : Src) (b : SrcImm)
  | xor (w : Width) (d : NDst) (a : Src) (b : SrcImm)
  | andn (w : Width) (d : NDst) (a : Src) (b : SrcImm)
  | shl (w : Width) (d : NDst) (a : Src) (b : SrcImm)
  | shr (w : Width) (d : NDst) (a : Src) (b : SrcImm)
  | sar (w : Width) (d : NDst) (a : Src) (b : SrcImm)
  | rot (w : Width) (d : NDst) (a : Src) (b : SrcImm)
  | min (w : Width) (d : NDst) (a : Src) (b : SrcImm)
  | max (w : Width) (d : NDst) (a : Src) (b : SrcImm)
  | minu (w : Width) (d : NDst) (a : Src) (b : SrcImm)
  | maxu (w : Width) (d : NDst) (a : Src) (b : SrcImm)
  | clz (w : Width) (d : NDst) (a : Src)
  | popc (w : Width) (d : NDst) (a : Src)
  | ext (z : Bool) (form : ExtForm) (d : NDst) (a : Src)
  | bitf (form : BitfForm) (d : NDst) (a : Src) (pos : BitVec 6) (len : BitVec 7)
  | cmp (c : ICond) (w : Width) (d : NDst) (a : Src) (b : SrcImm)
  | sel (d : NDst) (a b : Src) (c : SrcImm)
  | lea (keep : Bool) (sh : BitVec 4) (d : NDst) (a : Src) (b : Option Src) (disp : BitVec 48)
  | far (d : NDst) (a : Src) (b : SrcImm)
  | homeof (sel : HomeSel) (d : NDst) (a : Src)
  -- register management (R50)
  | mov (d : Option NM) (a : MovSrc)
  | movi (d : Option NM) (v : Word)
  | pushm (first last : Fin 32)
  | popm (first last : Fin 32)
  | spadj (adj : BitVec 48)
  -- scalar floating point (R97)
  | fadd (f : SFmt) (d : NDst) (a : Src) (b : SrcImm)
  | fsub (f : SFmt) (d : NDst) (a : Src) (b : SrcImm)
  | fmul (f : SFmt) (d : NDst) (a : Src) (b : SrcImm)
  | ffma (f : SFmt) (d : NDst) (a b : Src) (c : SrcImm)
  | fdiv (f : SFmt) (d : NDst) (a : Src) (b : SrcImm)
  | fsqrt (f : SFmt) (d : NDst) (a : Src)
  | fminmax (f : SFmt) (max num : Bool) (d : NDst) (a : Src) (b : SrcImm)
  | fcmp (f : SFmt) (c : FCond) (d : NDst) (a : Src) (b : SrcImm)
  | fcvt (dst src : Fmt) (dstU srcU : Bool) (d : NDst) (a : Src)
  -- local memory and atomics (R175)
  | ld (w : Width) (sext : Bool) (d : NDst) (a : Src) (disp : BitVec 48)
  | st (w : Width) (a b : Src) (disp : BitVec 48)
  | ldv (g : BitVec 2) (d : Fin 32) (a : Src) (disp : BitVec 48)
  | stv (g : BitVec 2) (a : Src) (b : Fin 32) (disp : BitVec 48)
  | ldx (w : Width) (x : XIdx) (m : VMask) (d : Fin 32) (a : Src) (disp : BitVec 48)
  | stx (w : Width) (x : XIdx) (m : VMask) (a : Src) (c : Fin 32) (disp : BitVec 48)
  | pref (f : PrefFn) (a : Src) (disp : BitVec 48)
  | amo (f : AmoFn) (word32 : Bool) (d : NDst) (a b : Src) (disp : BitVec 48)
  | acas (word32 : Bool) (d : NDst) (a b c : Src) (disp : BitVec 48)
  -- far reads (R216)
  | ldf (w : Width) (sext : Bool) (d : NDst) (a : Src) (disp : BitVec 48)
  | ldfa (w : Width) (sext : Bool) (d : NDst) (a : Src) (disp : BitVec 48)
  | ldfp (w : Width) (sext : Bool) (d : NDst) (a : Src) (disp : BitVec 48)
  | pchk (d : NDst) (t : BitVec 48)
  | pdrop (a : Option Src)
  -- sequences, watches, fences (R196)
  | sqadv (now : Bool) (d : NDst) (a : Src) (b : SrcImm)
  | sqwait (d : NDst) (a : Src) (b : SrcImm)
  | watch (k : Fin 16) (a : Src) (b : SrcImm)
  | wunwatch (m : BitVec 16)
  | wsleep (d : NDst) (m : MaskSrc)
  | wpoll (st : Bool) (k : Fin 16) (d : NDst)
  | fence (sc : Scope) (d : NDst)
  -- pull engine (R252)
  | pull (cls : BitVec 2) (ch : Fin 16) (d : NDst) (a b : Src) (rows : Option (Fin 8)) (len pitch : BitVec 24)
  | pullg (cls : BitVec 2) (ch : Fin 16) (d : NDst) (a b : Src) (count : CountSrc) (len : BitVec 24)
  | pullr (f : RFmt) (obf16 : Bool) (cls : BitVec 2) (ch : Fin 16) (d : NDst) (a b : Src) (n : BitVec 24) (g : Fin 4)
  | agset (g : Fin 4) (a : Src) (count : AgCount)
  | waitp (s : Bool) (ch : Fin 16) (d : NDst) (a b : Src)
  | lcset (d : Fin 8) (v : LcVal)
  | equery (s : EqSel) (ch : Fin 16) (d : NDst)
  -- matrix (R279)
  | wld (f : MFmt) (src : WldSrc) (c0 : BitVec 6) (count : BitVec 7)
  | mma (f : MFmt) (src : MmaSrc) (gran : BitVec 2) (row0 rows : BitVec 12)
  | azero (row0 rows : BitVec 12)
  | ard (g : BitVec 2) (d : Fin 32) (row0 : BitVec 12)
  | awr (g : BitVec 2) (b : Fin 32) (row0 : BitVec 12)
  | ast (f : AFmt) (a : Src) (row0 rows : BitVec 12) (pitch : BitVec 24)
  | mwait (row0 rows : BitVec 12)
  | tmapset (d : Fin 8) (a : Src) (disp : BitVec 48)
  -- vector (R295)
  | vadd (f : VFmt) (fn : VAddFn) (m : VMask) (d a : Fin 32) (b : VB)
  | vsub (f : VFmt) (fn : VAddFn) (m : VMask) (d a : Fin 32) (b : VB)
  | vmul (f : VFmt) (m : VMask) (d a : Fin 32) (b : VB)
  | vfma (f : VFmt) (m : VMask) (d a b : Fin 32) (c : VB)
  | vmin (f : VFmt) (alt : Bool) (m : VMask) (d a : Fin 32) (b : VB)
  | vmax (f : VFmt) (alt : Bool) (m : VMask) (d a : Fin 32) (b : VB)
  | vabs (f : VFmt) (sat : Bool) (m : VMask) (d a : Fin 32)
  | vneg (f : VFmt) (sat : Bool) (m : VMask) (d a : Fin 32)
  | vexp2 (f : SFmt) (m : VMask) (d a : Fin 32)
  | vlog2 (f : SFmt) (m : VMask) (d a : Fin 32)
  | vrcp (f : SFmt) (m : VMask) (d a : Fin 32)
  | vrsq (f : SFmt) (m : VMask) (d a : Fin 32)
  | vcvt (dst : Fmt) (src : CvtSrc) (dstU srcU : Bool) (part : BitVec 4) (m : VMask) (d a : Fin 32)
  | vcmp (f : VFmt) (c : VCond) (m : VMask) (d : VMDst) (a : Fin 32) (b : VB)
  | vsel (d a b : Fin 32) (c : Fin 8)
  | vand (f : IFmt) (m : VMask) (d a : Fin 32) (b : VB)
  | vor (f : IFmt) (m : VMask) (d a : Fin 32) (b : VB)
  | vxor (f : IFmt) (m : VMask) (d a : Fin 32) (b : VB)
  | vshl (f : IFmt) (m : VMask) (d a : Fin 32) (b : VB)
  | vshr (f : IFmt) (arith : Bool) (m : VMask) (d a : Fin 32) (b : VB)
  | vred (f : VFmt) (op : RedOp) (wide : Bool) (m : VMask) (d : NDst) (a : Fin 32)
  | vperm (f : PFmt) (m : VMask) (d a b : Fin 32)
  | vbcast (f : PFmt) (m : VMask) (d : Fin 32) (x : BcSrc)
  | viota (f : IFmt) (m : VMask) (d : Fin 32) (a : SrcImm)
  | vext (f : PFmt) (sext : Bool) (d : NDst) (a : Fin 32) (l : LaneSrc)
  | vins (f : PFmt) (d : Fin 32) (a : Src) (l : LaneSrc)
  | vmxq (f : MxFmt) (bf : Bool) (d a c : Fin 32) (b0 : BitVec 5) (s0 : Byte)
  | vmxd (f : MxFmt) (bf : Bool) (d a c : Fin 32) (b0 : BitVec 5) (s0 : Byte)
  -- system (R323)
  | trap (cause : Byte) (a : Option Src)
  | tret
  | tretV (a : Src)
  | sysrd (d : NDst) (num : BitVec 12)
  | syswr (a : Src) (num : BitVec 12)
  | pgreq (k : Fin 16) (d : NDst) (a : Src)
  | basinclr (a : Option Src)
  | brkpt (tag : BitVec 16)
  | testinj (a : Src) (disp : BitVec 48)
  -- the machine's own steps; `hdr` is the header that a message of another device comes under, none for one from within
  | registerWrite (r : StokerReg) (v : Word)
  | lineFetch (addr : Word) (r : LineReply) (hdr : Option NysilHdr := none)
  | divisionResult
  | floatDivideResult
  | localAccessPerformed (k : Nat)
  | translation (k : Nat)
  | sealedFill (space : BitVec 16) (line : Word)
  | sealedWriteBack (space : BitVec 16) (line : Word)
  | softError (place : ErrAt) (double : Bool)
  | commit
  | edgeListRead (rec : Nat) (r : ListRead) (hdr : Option NysilHdr := none)
  | schedulerWatchAnswer (id : Nat) (e : WatchEnd) (recs : List LaneRec) (hdr : Option NysilHdr := none)
  | watchRetry (id : Nat)
  | schedulerAssignment
  | aging
  | quadReservation
  | preemptionRequest (stokers : Bool) (core : BitVec 2 := 0)
  | contextSave
  | resume (image : Nat)
  | debugResume (access : Option DebugAccess := none)
  | vectorGrant
  | matrixCommandCompletion
  | powerGovernor (slots : Nat)
  | pullLineResponse (ch : Fin 16) (id : Nat) (line member : Nat) (r : LineReply) (hdr : Option NysilHdr := none)
  | lineRerequest (ch : Fin 16) (id : Nat) (line member : Nat)
  | waitpPromiseExpiry
  | readRequest (hdr : Option NysilHdr) (r : ReadReq)
  | readResponse (hdr : Option NysilHdr) (id : Nat) (r : Reply)
  | watchRegistration (space : BitVec 16) (off : BitVec 40) (thr : Word) (who : Requester) (hdr : Option NysilHdr := none)
  | watchAnswer (core : BitVec 2) (k : Fin 16) (tag : BitVec 4) (e : WatchEnd) (hdr : Option NysilHdr := none)
  | watchCancel (who : Requester) (hdr : Option NysilHdr := none)
  | tlbGenerationAnswer (space : BitVec 16) (e : WatchEnd)
  | validationRequest (space : BitVec 16) (off : BitVec 40) (fill : BitVec 48) (tag : Nat) (hdr : Option NysilHdr := none)
  | validationAnswer (hdr : Option NysilHdr) (id : Nat) (struck : Bool)
  | pageRequest (space : BitVec 16) (addr : Word) (tag : Nat) (hdr : Option NysilHdr := none)
  | pageRequestReply (core : BitVec 2) (k : Fin 16) (tag : BitVec 4) (r : PageReply) (hdr : Option NysilHdr := none)
  | pageIn (space : BitVec 16) (addr : Word) (frame : Nat) (d : PageData)
  | migration (space : BitVec 16) (addr : Word) (step : MigStep) (tier : BitVec 2) (handle : BitVec 44)
  | migrationBlockEnd
  | retry (hdr : NysilHdr) (req : Nat)
  | repeatAfterRetry (req : Nat)
  | requestRepeat (req : Nat)
  | probe (hdr : NysilHdr)
  | probeAnswer (hdr : NysilHdr)
  | probeTimer (dev : BitVec 10)
  | peerLoss (dev : BitVec 10)
  | peerReadmit (dev : BitVec 10) (epoch : BitVec 4)
  | memberRemoval (dev : BitVec 10)
  | ualinkRequest
  | pcieCompletion (req : Nat) (e : PcieEnd)
  | keyRotation (dev : BitVec 10) (slot : BitVec 6) (s : RotStep)
  | oldPhaseErase (dev : BitVec 10) (slot : BitVec 6)
  | kindle (test : Bool) (clusters : BitVec 72) (src : CmdSrc := .pf0)
  | quench (slot : BitVec 6) (who : QuenchBy)
  | quenchRelease (slot : BitVec 6)
  | debugUnlock (sigOk : Bool) (names : Option (BitVec 10 × Word) := none) (src : CmdSrc := .pf0)
  | nysilInstall (dev : BitVec 10) (slot : BitVec 6) (phase : Bool) (key : BitVec 512) (src : CmdSrc := .stokers)
  | nysilErase (dev : BitVec 10) (slot : BitVec 6) (phase : Bool) (src : CmdSrc := .stokers)
  | ideKey (stream : Fin 64) (set1 : Bool) (key : BitVec 256) (km : IdeKm := .program) (src : CmdSrc := .spdm)
  | certWrite (slot : Fin 8) (cert : List Byte) (src : CmdSrc := .spdm)
  | challenge (slot : Fin 8) (answer : Bool := false)
  | getMeasurements (idx : Byte)
  | lockInterfaceRequest (slot : BitVec 6)
  | startInterfaceRequest (slot : BitVec 6)
  | stopInterfaceRequest (slot : BitVec 6)
  | deviceInterfaceReport (slot : BitVec 6)
  | linkTraining (dieA dieB : Fin 9) (authOk atBoot : Bool) (proof : Option LinkProof := none)
  | boot (imagesOk linksOk : Bool) (deviceId : BitVec 10) (capbase : Word)
      (members : List (BitVec 10 × Bool × BitVec 4 × BitVec 16)) (images : List FwImage := [])
      (failed : Option (Fin 9 × Fin 9) := none)
  | notify (fn : Fin 63) (v : Word)
  | ringBase (fn : Fin 63) (v : Word)
  | ringEntries (fn : Fin 63) (v : Word)
  | cancel (fn : Fin 63) (seqNo : Word)
  | launchSelection (elsewhere : List (BitVec 10) := []) (sources : List (BitVec 17) := [])
  | launchSlot (i : Fin 256)
  | launchCompletion (graph : BitVec 32)
  | kill (r : KillReq)
  | killRecord (graph : BitVec 32)
  | ptpCorrection (offset : Int)
  | lockLoss
  | logExport (graph : BitVec 32) (key : BitVec 256) (addr : Word) (vf : Option (Fin 63) := none)
  | driveFailure (drive : Nat)
  | pldmFirmwareUpdate (image : List Byte)
  | pldmPlatformMonitoring
  | ill (w : IWord)
  | resultArrival (id : Nat)
  | splitGranuleBoundary
  | pageTableChange (c : TableChange)
  | completionTimeout (req : Nat)
  | challengeTimeout (slot : Fin 8)
  | sessionContextFetch (dev : BitVec 10) (slot : BitVec 6)
deriving DecidableEq, Repr

end Sys2Proof
end

