-- ==== Sys2Proof/WellFormed.lean ====
section
/-! DEFINITION. Which terms of `Instr` stand for an instruction word: the limits that chapter entries put on subfields
beyond what the operand types already say. A machine step (no instruction word) carries no such limit. -/

namespace Sys2Proof

/-! ## Shapes of the formats -/

/-- Bits of one element of a format (R14, R75); an MX format is counted by its element. -/
def Fmt.bits : Fmt → Nat
  | .fp32 => 32 | .bf16 => 16 | .fp16 => 16 | .f8a => 8 | .f8b => 8 | .e2m1 => 4 | .e8m0 => 8
  | .mxf8a => 8 | .mxf8b => 8 | .mxf4 => 4 | .int8 => 8 | .int16 => 16 | .int32 => 32 | .int64 => 64

/-- An integer format. -/
def Fmt.isInt : Fmt → Bool
  | .int8 | .int16 | .int32 | .int64 => true
  | .fp32 | .bf16 | .fp16 | .f8a | .f8b | .e2m1 | .e8m0 | .mxf8a | .mxf8b | .mxf4 => false

/-- An MX block format. -/
def Fmt.isMx : Fmt → Bool
  | .mxf8a | .mxf8b | .mxf4 => true
  | .fp32 | .bf16 | .fp16 | .f8a | .f8b | .e2m1 | .e8m0 | .int8 | .int16 | .int32 | .int64 => false

/-- A scalar floating-point format as a format. -/
def SFmt.fmt : SFmt → Fmt
  | .fp32 => .fp32 | .bf16 => .bf16

/-- A vector format as a format. -/
def VFmt.fmt : VFmt → Fmt
  | .fp32 => .fp32 | .bf16 => .bf16 | .int8 => .int8 | .int16 => .int16 | .int32 => .int32

/-- An integer vector format as a format. -/
def IFmt.fmt : IFmt → Fmt
  | .int8 => .int8 | .int16 => .int16 | .int32 => .int32

/-- A permutation format as a format. -/
def PFmt.fmt : PFmt → Fmt
  | .fp32 => .fp32 | .bf16 => .bf16 | .f8a => .f8a | .f8b => .f8b | .int8 => .int8 | .int16 => .int16
  | .int32 => .int32

/-- An MX format as a format. -/
def MxFmt.fmt : MxFmt → Fmt
  | .mxf8a => .mxf8a | .mxf8b => .mxf8b | .mxf4 => .mxf4

/-- A matrix operand format as a format. -/
def MFmt.fmt : MFmt → Fmt
  | .bf16 => .bf16 | .f8a => .f8a | .f8b => .f8b | .mxf8a => .mxf8a | .mxf8b => .mxf8b | .mxf4 => .mxf4

/-- Elements of a format in a vector register (R286, R302). -/
def CvtSrc.count : CvtSrc → Nat
  | .fmt f => 2048 / f.bits
  | .e3m2 => 256 | .e2m3 => 256 | .int4 => 512

/-! ## The limits -/

/-- A floating-point immediate holds no bit above its format (R98, R296). -/
def fpImmOk (f : Fmt) (v : BitVec 48) : Bool :=
  f.isInt || v.toNat < 2 ^ f.bits

/-- The immediate of a scalar operand under a format. -/
def SrcImm.fpOk (f : Fmt) : SrcImm → Bool
  | .reg _ => true
  | .imm v => fpImmOk f v

/-- The immediate of a vector operand under a format. -/
def VB.fpOk (f : Fmt) : VB → Bool
  | .v _ => true
  | .reg _ => true
  | .imm x => fpImmOk f x

/-- An immediate threshold or increment has IMM[47] = 0 (R196). -/
def SrcImm.nonneg : SrcImm → Bool
  | .reg _ => true
  | .imm v => !v.msb

/-- The format codes FCVT accepts (R105). -/
def fcvtFmtOk (f : Fmt) : Bool := !f.isMx

/-- The format codes VCVT accepts (R301): 0x0-0x6 and 0xA-0xC. -/
def vcvtFmtOk (f : Fmt) : Bool := !f.isMx && f != .int64

/-- VCVT's fields (R301). -/
def vcvtOk (dst : Fmt) (src : CvtSrc) (dstU srcU : Bool) (part : BitVec 4) : Bool :=
  let ns := src.count
  let nd := 2048 / dst.bits
  vcvtFmtOk dst && (!dstU || dst.isInt) && decide (part.toNat < max ns nd / min ns nd) &&
    match src with
    | .fmt f => vcvtFmtOk f && (!srcU || f.isInt)
    | .e3m2 | .e2m3 | .int4 => !srcU && (dst == .f8a || dst == .f8b)

/-- VMXQ's and VMXD's limits on b0 and s0 (R313). -/
def vmxOk (f : MxFmt) (bf : Bool) (b0 : BitVec 5) (s0 : Byte) : Bool :=
  let nb := if bf then 4 else 2
  decide (b0.toNat % nb = 0) && decide (b0.toNat + nb ≤ (if f = .mxf4 then 16 else 8)) && decide (s0.toNat + nb ≤ 256)

/-- The system register numbers of R321. -/
def sysNumOk (n : BitVec 12) : Bool :=
  decide (n.toNat ≤ 0x15) || (decide (0x100 ≤ n.toNat) && decide (n.toNat ≤ 0x12F))

/-- The row count of a matrix command (R279). -/
def rowsOk (rows : BitVec 12) : Bool := decide (1 ≤ rows.toNat) && decide (rows.toNat ≤ 3072)

/-- The format of AST. -/
def AFmt.fmt : AFmt → Fmt
  | .fp32 => .fp32 | .bf16 => .bf16 | .f8a => .f8a | .f8b => .f8b

/-- Bytes of a row that AST stores (R283). -/
def AFmt.rowBytes (f : AFmt) : Nat := 8 * f.fmt.bits

/-- A pull's row length (R252). -/
def lenOk (len : BitVec 24) : Bool := decide (len.toNat % 64 = 0) && decide (len.toNat ≠ 0)

/-- The opcodes of R31 that are neither assigned nor hints. -/
def opIll (op : Byte) : Bool :=
  let n := op.toNat
  let lo := n % 16
  match n / 16 with
  | 0x0 => lo = 0 || 0xA ≤ lo
  | 0x1 => false
  | 0x2 => 0xD ≤ lo
  | 0x3 => 5 ≤ lo && lo ≤ 7
  | 0x4 => (1 ≤ lo && lo ≤ 3) || 0xD ≤ lo
  | 0x5 => (5 ≤ lo && lo ≤ 7) || lo = 0xF
  | 0x6 => 7 ≤ lo
  | 0x7 => 8 ≤ lo
  | 0x8 => false
  | 0x9 => 0xC ≤ lo
  | 0xC => 8 ≤ lo
  | 0xE => false
  | _ => true

/-- The limits of each instruction's entry. -/
def Instr.wellFormed : Instr → Bool
  | .nop | .hint _ _ | .br _ | .bc _ _ _ _ | .call _ | .ret | .jmpi _ | .endFiring | .yield => true
  | .spawn _ _ _ actor _ _ join => decide (join.toNat ≤ 64) && (!actor || join == 0)
  | .add _ _ _ _ _ | .sub _ _ _ _ _ | .mul _ _ _ _ | .mulh _ _ _ _ _ | .div _ _ _ _ | .divu _ _ _ _
  | .rem _ _ _ _ | .remu _ _ _ _ | .and _ _ _ _ | .or _ _ _ _ | .xor _ _ _ _ | .andn _ _ _ _ | .shl _ _ _ _
  | .shr _ _ _ _ | .sar _ _ _ _ | .rot _ _ _ _ | .min _ _ _ _ | .max _ _ _ _ | .minu _ _ _ _ | .maxu _ _ _ _
  | .clz _ _ _ | .popc _ _ _ | .ext _ _ _ _ | .cmp _ _ _ _ _ | .sel _ _ _ _ | .far _ _ _ | .homeof _ _ _ => true
  | .bitf _ _ _ pos len => decide (1 ≤ len.toNat) && decide (pos.toNat + len.toNat ≤ 64)
  | .lea _ sh _ _ _ _ => decide (sh.toNat ≤ 8)
  | .mov _ _ | .movi _ _ | .spadj _ => true
  | .pushm first last => decide (first ≤ last)
  | .popm first last => decide (first ≤ last)
  | .fadd f _ _ b | .fsub f _ _ b | .fmul f _ _ b | .fdiv f _ _ b | .fminmax f _ _ _ _ b | .fcmp f _ _ _ b =>
    b.fpOk f.fmt
  | .ffma f _ _ _ c => c.fpOk f.fmt
  | .fsqrt _ _ _ => true
  | .fcvt dst src dstU srcU _ _ =>
    fcvtFmtOk dst && fcvtFmtOk src && !(dst.isInt && src.isInt) && (!dstU || dst.isInt) && (!srcU || src.isInt)
  | .ld _ _ _ _ _ | .st _ _ _ _ | .ldv _ _ _ _ | .stv _ _ _ _ | .ldx _ _ _ _ _ _ | .stx _ _ _ _ _ _ | .pref _ _ _
  | .amo _ _ _ _ _ _ | .acas _ _ _ _ _ _ | .ldf _ _ _ _ _ | .ldfa _ _ _ _ _ | .ldfp _ _ _ _ _ | .pchk _ _
  | .pdrop _ => true
  | .sqadv now d _ b => (now || d.isNone) && b.nonneg
  | .sqwait _ _ b => b.nonneg
  | .watch _ _ b => b.nonneg
  | .wunwatch _ | .wsleep _ _ | .wpoll _ _ _ => true
  | .fence sc d => sc == .p || d.isNone
  | .pull cls _ _ _ _ _ len pitch => cls != 0 && lenOk len && decide (pitch.toNat % 64 = 0)
  | .pullg cls _ _ _ _ count len =>
    cls != 0 && lenOk len &&
      match count with
      | .lc _ => true
      | .imm c => c != 0
  | .pullr _ _ cls _ _ _ _ n _ => cls != 0 && decide (n.toNat % 32 = 0) && n != 0
  | .agset _ _ count =>
    match count with
    | .reg _ => true
    | .imm c => decide (1 ≤ c.toNat) && decide (c.toNat ≤ 32)
  | .waitp _ _ _ _ _ | .lcset _ _ | .equery _ _ _ => true
  | .wld f src c0 count =>
    decide (1 ≤ count.toNat) && decide (c0.toNat + count.toNat ≤ 64) &&
      match src with
      | .scratch _ _ => true
      | .vec _ g scales => decide (count.toNat = 2 ^ g.toNat) && (scales.isSome == f.fmt.isMx)
  | .mma _ _ _ _ rows => rowsOk rows
  | .azero _ rows => rowsOk rows
  | .ard _ _ _ | .awr _ _ _ => true
  | .ast t _ _ rows pitch =>
    rowsOk rows && decide (pitch.toNat % 32 = 0) && (pitch == 0 || decide (rows.toNat ≤ 1) || decide (t.rowBytes ≤ pitch.toNat))
  | .mwait row0 rows => decide (rows.toNat ≤ 3072) && (rows != 0 || row0 == 0)
  | .tmapset _ _ _ => true
  | .vadd f fn _ _ _ b | .vsub f fn _ _ _ b => (f.fmt.isInt || fn == .wrap) && b.fpOk f.fmt
  | .vmul f _ _ _ b | .vmin f _ _ _ _ b | .vmax f _ _ _ _ b => b.fpOk f.fmt
  | .vfma f _ _ _ _ c => c.fpOk f.fmt
  | .vabs f sat _ _ _ | .vneg f sat _ _ _ => !sat || f.fmt.isInt
  | .vexp2 _ _ _ _ | .vlog2 _ _ _ _ | .vrcp _ _ _ _ | .vrsq _ _ _ _ => true
  | .vcvt dst src dstU srcU part _ _ _ => vcvtOk dst src dstU srcU part
  | .vcmp f c _ d _ b =>
    b.fpOk f.fmt &&
      (match c with
        | .i _ => f.fmt.isInt
        | .f _ => !f.fmt.isInt) &&
      match d with
      | .v _ => true
      | .m _ => f == .fp32 || f == .int32
  | .vsel _ _ _ _ => true
  | .vand _ _ _ _ _ | .vor _ _ _ _ _ | .vxor _ _ _ _ _ | .vshl _ _ _ _ _ | .vshr _ _ _ _ _ _ => true
  | .vred f op wide _ _ _ =>
    (f.fmt.isInt || op == .add || op == .min || op == .max) && !(wide && (f == .fp32 || f == .int32))
  | .vperm _ _ _ _ _ => true
  | .vbcast f _ _ x =>
    match x with
    | .reg _ => true
    | .imm v => fpImmOk f.fmt v
    | .lane _ _ => true
  | .viota _ _ _ _ => true
  | .vext f sext _ _ _ => !sext || f.fmt.isInt
  | .vins _ _ _ _ => true
  | .vmxq f bf _ _ _ b0 s0 | .vmxd f bf _ _ _ b0 s0 => vmxOk f bf b0 s0
  | .trap cause _ => decide (0x80 ≤ cause.toNat)
  | .tret | .tretV _ => true
  | .sysrd _ num => sysNumOk num
  | .syswr _ num => sysNumOk num
  | .pgreq _ _ _ | .basinclr _ | .brkpt _ | .testinj _ _ => true
  | .ill w => opIll (w.extractLsb' 88 8)
  | .registerWrite _ _ | .lineFetch _ _ _ | .divisionResult | .floatDivideResult | .localAccessPerformed _
  | .translation _ | .sealedFill _ _ | .sealedWriteBack _ _ | .softError _ _ | .commit | .edgeListRead _ _ _
  | .schedulerWatchAnswer _ _ _ _ | .watchRetry _ | .schedulerAssignment | .aging | .quadReservation
  | .preemptionRequest _ _ | .contextSave | .resume _ | .debugResume _ | .vectorGrant | .matrixCommandCompletion
  | .powerGovernor _ | .pullLineResponse _ _ _ _ _ _ | .lineRerequest _ _ _ _ | .waitpPromiseExpiry
  | .readRequest _ _ | .readResponse _ _ _ | .watchRegistration _ _ _ _ _ | .watchAnswer _ _ _ _ _ | .watchCancel _ _
  | .tlbGenerationAnswer _ _ | .validationRequest _ _ _ _ _ | .validationAnswer _ _ _ | .pageRequest _ _ _ _
  | .pageRequestReply _ _ _ _ _ | .pageIn _ _ _ _ | .migration _ _ _ _ _ | .migrationBlockEnd | .retry _ _
  | .repeatAfterRetry _ | .requestRepeat _ | .probe _ | .probeAnswer _ | .probeTimer _ | .peerLoss _
  | .peerReadmit _ _ | .memberRemoval _ | .ualinkRequest | .pcieCompletion _ _ | .keyRotation _ _ _
  | .oldPhaseErase _ _ | .kindle _ _ _ | .quench _ _ | .quenchRelease _ | .debugUnlock _ _ _ | .nysilInstall _ _ _ _ _
  | .nysilErase _ _ _ _ | .ideKey _ _ _ _ _ | .certWrite _ _ _ | .challenge _ _ | .getMeasurements _
  | .lockInterfaceRequest _ | .startInterfaceRequest _ | .stopInterfaceRequest _ | .deviceInterfaceReport _
  | .linkTraining _ _ _ _ _ | .boot _ _ _ _ _ _ _ | .notify _ _ | .ringBase _ _ | .ringEntries _ _ | .cancel _ _
  | .launchSelection _ _ | .launchSlot _ | .launchCompletion _ | .kill _ | .killRecord _ | .ptpCorrection _
  | .lockLoss | .logExport _ _ _ _ | .driveFailure _ | .pldmFirmwareUpdate _ | .pldmPlatformMonitoring
  | .resultArrival _ | .splitGranuleBoundary | .pageTableChange _ | .completionTimeout _ | .challengeTimeout _
  | .sessionContextFetch _ _ => true

end Sys2Proof
end

