-- ==== Sys2Proof/Machine/Formats.lean ====
section
/-! DEFINITION. The number formats of chapter 5: the exact value of a code, the one rounding of R85 with the flags of
R86, the conversions of R83 and R88-R90, and the exact operations that R101-R104 round. -/

namespace Sys2Proof.Machine

/-! ## Flags (R86) -/

def fNV : BitVec 5 := 1
def fDZ : BitVec 5 := 2
def fOF : BitVec 5 := 4
def fUF : BitVec 5 := 8
def fNX : BitVec 5 := 16

/-- A flag, or none. -/
def flagIf (b : Bool) (f : BitVec 5) : BitVec 5 := if b then f else 0

/-- An exact value: NaN, a signed infinity, or (-1)^neg * m * 2^e (a zero keeps its sign). -/
inductive Val where
  | nan
  | inf (neg : Bool)
  | fin (neg : Bool) (m : Nat) (e : Int)
deriving DecidableEq, Repr

/-- The shape of a floating-point format (R75): exponent bits, fraction bits, bias, and whether an all-ones exponent
encodes infinity and NaN (R77) or an ordinary number (R79). -/
structure FloatShape where
  eb : Nat
  fb : Nat
  bias : Int
  ieee : Bool
deriving DecidableEq, Repr

def shFp32 : FloatShape := { eb := 8, fb := 23, bias := 127, ieee := true }
def shBf16 : FloatShape := { eb := 8, fb := 7, bias := 127, ieee := true }
def shFp16 : FloatShape := { eb := 5, fb := 10, bias := 15, ieee := true }
def shF8a : FloatShape := { eb := 4, fb := 3, bias := 7, ieee := false }
def shF8b : FloatShape := { eb := 5, fb := 2, bias := 15, ieee := false }
def shE2m1 : FloatShape := { eb := 2, fb := 1, bias := 1, ieee := false }
/-- The packed sources of VCVT (R302). -/
def shE3m2 : FloatShape := { eb := 3, fb := 2, bias := 3, ieee := false }
def shE2m3 : FloatShape := { eb := 2, fb := 3, bias := 1, ieee := false }

/-- What a format code stands for: a floating-point shape, an E8M0 scale, or an integer width. An MX format stands for
its element format (R84). -/
inductive Kind where
  | float (p : FloatShape)
  | scale
  | int (w : Nat)
deriving DecidableEq, Repr

def kindOf : Fmt → Kind
  | .fp32 => .float shFp32 | .bf16 => .float shBf16 | .fp16 => .float shFp16 | .f8a => .float shF8a
  | .f8b => .float shF8b | .e2m1 => .float shE2m1 | .e8m0 => .scale | .mxf8a => .float shF8a
  | .mxf8b => .float shF8b | .mxf4 => .float shE2m1 | .int8 => .int 8 | .int16 => .int 16 | .int32 => .int 32
  | .int64 => .int 64

/-! ## Codes to values -/

/-- The value of a floating-point code (R77, R79). -/
def floatVal (p : FloatShape) (code : Nat) : Val :=
  let f := code % 2 ^ p.fb
  let e := code / 2 ^ p.fb % 2 ^ p.eb
  let neg := decide (code / 2 ^ (p.fb + p.eb) % 2 = 1)
  if p.ieee ∧ e = 2 ^ p.eb - 1 then if f = 0 then .inf neg else .nan
  else if e = 0 then .fin neg f (1 - p.bias - p.fb)
  else .fin neg (f + 2 ^ p.fb) (e - p.bias - p.fb)

/-- A signed reading of `w` bits. -/
def signedOf (w n : Nat) : Int := if n % 2 ^ w < 2 ^ (w - 1) then (n % 2 ^ w : Nat) else (n % 2 ^ w : Nat) - 2 ^ w

/-- An integer as an exact value. -/
def intVal (i : Int) : Val := .fin (decide (i < 0)) i.natAbs 0

/-- The value of a code in a format; an integer is read unsigned when `u` (R76). -/
def codeVal (f : Fmt) (u : Bool) (code : Nat) : Val :=
  match kindOf f with
  | .float p => floatVal p code
  | .scale => if code % 256 = 255 then .nan else .fin false 1 ((code % 256 : Nat) - 127)
  | .int w => intVal (if u then (code % 2 ^ w : Nat) else signedOf w code)

/-! ## One rounding (R85) -/

/-- `m * 2^e` in units of 2^q, to nearest with ties to even, and whether that is inexact. -/
def rne (m : Nat) (e q : Int) : Nat × Bool :=
  if q ≤ e then (m * 2 ^ (e - q).toNat, false)
  else
    let d := 2 ^ (q - e).toNat
    let n := m / d
    let r := m % d
    (if d < 2 * r ∨ (2 * r = d ∧ n % 2 = 1) then n + 1 else n, decide (r ≠ 0))

/-- Position of the leading bit. -/
def leadExp (m : Nat) (e : Int) : Int := e + m.log2

/-- A sign bit above the magnitude. -/
def withSign (p : FloatShape) (neg : Bool) (mag : Nat) : Nat := (if neg then 2 ^ (p.eb + p.fb) else 0) + mag

/-- The magnitude code of infinity, of the largest finite value, and the default NaN (R78). -/
def infMag (p : FloatShape) : Nat := (2 ^ p.eb - 1) * 2 ^ p.fb
def maxMag (p : FloatShape) : Nat := if p.ieee then infMag p - 1 else 2 ^ (p.eb + p.fb) - 1
def nanCode (p : FloatShape) : Nat := infMag p + 2 ^ (p.fb - 1)

/-- A value rounded into a floating-point format: R88 for the IEEE formats, R89 for the all-finite ones. Underflow is
detected after rounding with the exponent unbounded (R86). -/
def roundFloat (p : FloatShape) : Val → Nat × BitVec 5
  | .nan => if p.ieee then (nanCode p, 0) else (maxMag p, fNV)
  | .inf neg => if p.ieee then (withSign p neg (infMag p), 0) else (withSign p neg (maxMag p), fOF ||| fNX)
  | .fin neg m e =>
    if m = 0 then (withSign p neg 0, 0)
    else
      let emin := 1 - p.bias
      let l := leadExp m e
      let q := max l emin - p.fb
      let (n, inexact) := rne m e q
      let mag := (q - (emin - p.fb)).toNat * 2 ^ p.fb + n
      let (nu, _) := rne m e (l - p.fb)
      let tiny := decide (leadExp nu (l - p.fb) < emin)
      if maxMag p < mag then
        (withSign p neg (if p.ieee then infMag p else maxMag p), fOF ||| fNX)
      else (withSign p neg mag, flagIf inexact fNX ||| flagIf (inexact && tiny) fUF)

/-- The E8M0 code of 2^floor(log2|x|) (R83). -/
def scaleCode : Val → Nat × BitVec 5
  | .nan => (0xFF, 0)
  | .inf _ => (0xFE, fOF ||| fNX)
  | .fin _ m e =>
    if m = 0 then (0, fUF ||| fNX)
    else
      let c := leadExp m e + 127
      if c < 0 then (0, fUF ||| fNX)
      else if 254 < c then (0xFE, fOF ||| fNX)
      else (c.toNat, flagIf (decide (m ≠ 2 ^ m.log2)) fNX)

/-- The ends of an integer range (R76). -/
def intLo (w : Nat) (u : Bool) : Int := if u then 0 else -(2 ^ (w - 1))
def intHi (w : Nat) (u : Bool) : Int := if u then 2 ^ w - 1 else 2 ^ (w - 1) - 1

/-- An integer clamped to a range, as a `w`-bit code. -/
def clampCode (w : Nat) (u : Bool) (i : Int) : Nat := ((max (intLo w u) (min (intHi w u) i)) % 2 ^ w).toNat

/-- A value rounded to an integer (R90). -/
def roundInt (w : Nat) (u : Bool) : Val → Nat × BitVec 5
  | .nan => (0, fNV)
  | .inf neg => (clampCode w u (if neg then intLo w u else intHi w u), fNV)
  | .fin neg m e =>
    let (n, inexact) := rne m e 0
    let i : Int := if neg then -(n : Int) else n
    if i < intLo w u ∨ intHi w u < i then (clampCode w u i, fNV) else (clampCode w u i, flagIf inexact fNX)

/-- A value converted into a format (R83, R88-R90). -/
def roundTo (f : Fmt) (u : Bool) (v : Val) : Nat × BitVec 5 :=
  match kindOf f with
  | .float p => roundFloat p v
  | .scale => scaleCode v
  | .int w => roundInt w u v

/-! ## Exact operations (R101-R104) -/

def Val.neg : Val → Val
  | .nan => .nan
  | .inf s => .inf (!s)
  | .fin s m e => .fin (!s) m e

def Val.isNan : Val → Bool
  | .nan => true
  | .inf _ => false
  | .fin _ _ _ => false

def Val.isZero : Val → Bool
  | .nan => false
  | .inf _ => false
  | .fin _ m _ => m == 0

def Val.sign : Val → Bool
  | .nan => false
  | .inf s => s
  | .fin s _ _ => s

/-- A finite value in units of 2^q, q at most its exponent. -/
def scaledInt (s : Bool) (m : Nat) (e q : Int) : Int :=
  let n : Int := (m * 2 ^ (e - q).toNat : Nat)
  if s then -n else n

/-- An exact sum; an exact zero sum is +0 unless both are -0 (R101). -/
def Val.add : Val → Val → Val × BitVec 5
  | .nan, _ => (.nan, 0)
  | _, .nan => (.nan, 0)
  | .inf s, .inf t => if s = t then (.inf s, 0) else (.nan, fNV)
  | .inf s, .fin _ _ _ => (.inf s, 0)
  | .fin _ _ _, .inf t => (.inf t, 0)
  | .fin s m e, .fin t n f =>
    let q := min e f
    let i := scaledInt s m e q + scaledInt t n f q
    if i = 0 then (.fin (s && t && m == 0 && n == 0) 0 0, 0) else (.fin (decide (i < 0)) i.natAbs q, 0)

/-- An exact product (R101). -/
def Val.mul : Val → Val → Val × BitVec 5
  | .nan, _ => (.nan, 0)
  | _, .nan => (.nan, 0)
  | .inf s, .inf t => (.inf (s != t), 0)
  | .inf s, .fin t n _ => if n = 0 then (.nan, fNV) else (.inf (s != t), 0)
  | .fin s m _, .inf t => if m = 0 then (.nan, fNV) else (.inf (s != t), 0)
  | .fin s m e, .fin t n f => (.fin (s != t) (m * n) (e + f), 0)

/-- A quotient m / n with 64 bits or more and a sticky bit below them. -/
def quotient (m n : Nat) : Nat × Int :=
  let k := 64 + n.log2
  let x := m * 2 ^ k
  (2 * (x / n) + (if x % n = 0 then 0 else 1), -(k : Int) - 1)

/-- A quotient (R101). -/
def Val.div : Val → Val → Val × BitVec 5
  | .nan, _ => (.nan, 0)
  | _, .nan => (.nan, 0)
  | .inf _, .inf _ => (.nan, fNV)
  | .inf s, .fin t _ _ => (.inf (s != t), 0)
  | .fin s _ _, .inf t => (.fin (s != t) 0 0, 0)
  | .fin s m e, .fin t n f =>
    if n = 0 then if m = 0 then (.nan, fNV) else (.inf (s != t), fDZ)
    else
      let (q, d) := quotient m n
      (.fin (s != t) q (e - f + d), 0)

/-- Integer square root, `k` bits of result. -/
def isqrtGo : Nat → Nat → Nat → Nat
  | 0, _, r => r
  | k + 1, x, r => if (r + 2 ^ k) * (r + 2 ^ k) ≤ x then isqrtGo k x (r + 2 ^ k) else isqrtGo k x r

def isqrt (x : Nat) : Nat := isqrtGo (x.log2 / 2 + 1) x 0

/-- A square root with 64 bits or more and a sticky bit (R102). -/
def Val.sqrt : Val → Val × BitVec 5
  | .nan => (.nan, 0)
  | .inf s => if s then (.nan, fNV) else (.inf false, 0)
  | .fin s m e =>
    if m = 0 then (.fin s 0 0, 0)
    else if s then (.nan, fNV)
    else
      let odd := e % 2
      let x := m * 2 ^ odd.toNat * 2 ^ 160
      let r := isqrt x
      (.fin false (2 * r + (if r * r = x then 0 else 1)) ((e - odd) / 2 - 81), 0)

/-- Order of two values that are not NaN; the zeros are equal. -/
def Val.lt : Val → Val → Bool
  | .nan, _ => false
  | _, .nan => false
  | .inf s, .inf t => s && !t
  | .inf s, .fin _ _ _ => s
  | .fin _ _ _, .inf t => !t
  | .fin s m e, .fin t n f =>
    let q := min e f
    decide (scaledInt s m e q < scaledInt t n f q)

/-- Equality of value; NaN equals nothing. -/
def Val.eq (x y : Val) : Bool := !x.isNan && !y.isNan && !x.lt y && !y.lt x

/-- Results that are rounded once to a format: the flags of the operation and of the rounding. -/
def rounded (f : Fmt) (x : Val × BitVec 5) : Nat × BitVec 5 :=
  let r := roundTo f false x.1
  (r.1, x.2 ||| r.2)

/-- The value of a code of a scalar floating-point format. -/
def sval (f : SFmt) (code : Nat) : Val := codeVal f.fmt false code

def fpAdd (f : Fmt) (a b : Nat) : Nat × BitVec 5 := rounded f ((codeVal f false a).add (codeVal f false b))
def fpSub (f : Fmt) (a b : Nat) : Nat × BitVec 5 := rounded f ((codeVal f false a).add (codeVal f false b).neg)
def fpMul (f : Fmt) (a b : Nat) : Nat × BitVec 5 := rounded f ((codeVal f false a).mul (codeVal f false b))
def fpDiv (f : Fmt) (a b : Nat) : Nat × BitVec 5 := rounded f ((codeVal f false a).div (codeVal f false b))
def fpSqrt (f : Fmt) (a : Nat) : Nat × BitVec 5 := rounded f (codeVal f false a).sqrt

/-- a * b + c with one rounding (R101). -/
def fpFma (f : Fmt) (a b c : Nat) : Nat × BitVec 5 :=
  let p := (codeVal f false a).mul (codeVal f false b)
  let s := p.1.add (codeVal f false c)
  rounded f (s.1, p.2 ||| s.2)

/-- FMINMAX (R103): -0 counts as less than +0; on a tie, a; NaN by `num`. The operand is passed unchanged. -/
def fpMinMax (f : Fmt) (mx num : Bool) (a b : Nat) : Nat :=
  let x := codeVal f false a
  let y := codeVal f false b
  let dnan := (roundTo f false .nan).1
  match x.isNan, y.isNan with
  | true, true => dnan
  | true, false => if num then b else dnan
  | false, true => if num then a else dnan
  | false, false =>
    let less (u v : Val) : Bool := u.lt v || (u.isZero && v.isZero && u.sign && !v.sign)
    if mx then if less x y then b else a
    else if less y x then b else a

/-- A floating-point condition and whether it sets NV (R104). -/
def fpCond (f : Fmt) (c : FCond) (a b : Nat) : Bool × BitVec 5 :=
  let x := codeVal f false a
  let y := codeVal f false b
  let un := x.isNan || y.isNan
  match c with
  | .eq => (x.eq y, 0)
  | .ne => (!x.eq y, 0)
  | .lt => (x.lt y, flagIf un fNV)
  | .ge => (!un && !x.lt y, flagIf un fNV)
  | .gt => (y.lt x, flagIf un fNV)
  | .le => (!un && !y.lt x, flagIf un fNV)
  | .un => (un, 0)
  | .ord => (!un, 0)

/-- A conversion between two formats (R105, R301): integer to integer saturates and sets no flag. -/
def convert (dst : Fmt) (dstU : Bool) (src : Fmt) (srcU : Bool) (code : Nat) : Nat × BitVec 5 :=
  let v := codeVal src srcU code
  match kindOf dst, kindOf src with
  | .int w, .int _ =>
    match v with
    | .fin s m _ => (clampCode w dstU (if s then -(m : Int) else m), 0)
    | .nan => (0, 0)
    | .inf _ => (0, 0)
  | .int _, .float _ => roundTo dst dstU v
  | .int _, .scale => roundTo dst dstU v
  | .float _, .int _ => roundTo dst dstU v
  | .float _, .float _ => roundTo dst dstU v
  | .float _, .scale => roundTo dst dstU v
  | .scale, .int _ => roundTo dst dstU v
  | .scale, .float _ => roundTo dst dstU v
  | .scale, .scale => roundTo dst dstU v

/-- Quantizing one block (R91): the scale and the 32 elements of an MX format from 32 codes of `src`. -/
def mxMax (vs : List Val) : Option Val :=
  vs.foldl (fun acc v =>
    match acc, v with
    | none, _ => none
    | _, .nan => none
    | some x, .inf _ => if x.isNan then none else some (.inf false)
    | some x, .fin _ m e => some (if x.lt (.fin false m e) then .fin false m e else x)) (some (.fin false 0 0))

/-- emax of R91. -/
def mxEmax : MxFmt → Int
  | .mxf8a => 8 | .mxf8b => 16 | .mxf4 => 2

/-- A value divided by 2^k, exactly. -/
def Val.scale (k : Int) : Val → Val
  | .nan => .nan
  | .inf s => .inf s
  | .fin s m e => .fin s m (e + k)

def mxQuantize (f : MxFmt) (vs : List Val) : Nat × List Nat × BitVec 5 :=
  match mxMax vs with
  | none => (0xFF, vs.map fun _ => 0, fNV)
  | some mx =>
    let scale : Nat :=
      match mx with
      | .fin _ m e => if m = 0 then 0x7F else (max 0 (min 254 (leadExp m e - mxEmax f + 127))).toNat
      | .inf _ => 254
      | .nan => 0xFF
    let els := vs.map fun v => roundTo f.fmt false (v.scale (127 - scale))
    (scale, els.map (·.1), els.foldl (fun acc x => acc ||| x.2) 0)

/-- The value of an element of an MX block (R92). -/
def mxVal (f : MxFmt) (scale code : Nat) : Val :=
  if scale % 256 = 255 then .nan else (codeVal f.fmt false code).scale ((scale % 256 : Nat) - 127)

end Sys2Proof.Machine
end

