-- ==== Sys2Proof/Decode.lean ====
section
/-! DEFINITION. The decoder, total on any 96-bit word, and after it the encoder, both written from the encoding tables
of the chapters (R12-R18, R31, R50, R56, R97, R106, R130, R175, R196, R216, R252, R279, R295, R323). A word that fails
check 6 or 7 of R30 is rejected by name; all of those raise trap 0x01 with the same TVAL. Register bounds and group
alignment (check 8) depend on the partition word and are checked by the machine. -/

namespace Sys2Proof

/-- Why a word of an assigned opcode does not decode. -/
inductive DecodeError where
  /-- A field the instruction does not use holds a value other than 0x7F (R13). -/
  | unusedField
  /-- IMM bits the instruction does not use, or limits of a subfield (R13). -/
  | badImm
  /-- An FN value the entry does not define (R13). -/
  | badFn
  /-- An FM code the entry does not define (R13). -/
  | badFm
  /-- A specifier code that is reserved or of a kind the field does not accept (R18). -/
  | badSpecifier
deriving DecidableEq, Repr

/-- What the decoder answers. -/
abbrev Dec (α : Type) := Except DecodeError α

/-- The fields of an instruction word (R12). -/
structure Fields where
  op : BitVec 8
  fm : BitVec 4
  d : BitVec 7
  a : BitVec 7
  b : BitVec 7
  c : BitVec 7
  fn : BitVec 8
  imm : BitVec 48
deriving DecidableEq, Repr

/-- R12's layout, read. -/
def Fields.ofWord (w : IWord) : Fields :=
  { op := w.extractLsb' 88 8, fm := w.extractLsb' 84 4, d := w.extractLsb' 77 7, a := w.extractLsb' 70 7,
    b := w.extractLsb' 63 7, c := w.extractLsb' 56 7, fn := w.extractLsb' 48 8, imm := w.extractLsb' 0 48 }

/-- R12's layout, written. -/
def Fields.toWord (f : Fields) : IWord :=
  f.op ++ f.fm ++ f.d ++ f.a ++ f.b ++ f.c ++ f.fn ++ f.imm

/-! ## Reading fields -/

/-- A check that rejects by name. -/
def must (ok : Bool) (e : DecodeError) : Dec Unit := if ok then .ok () else .error e

/-- A partial reading that rejects by name. -/
def orReject {α : Type} (e : DecodeError) : Option α → Dec α
  | some x => .ok x
  | none => .error e

/-- A field that must hold 0x7F. -/
def unused (x : BitVec 7) : Dec Unit := must (x == 0x7F#7) .unusedField

/-- FN must be 0. -/
def fnZero (f : Fields) : Dec Unit := must (f.fn == 0#8) .badFn

/-- FM must be 0. -/
def fmZero (f : Fields) : Dec Unit := must (f.fm == 0#4) .badFm

/-- IMM must be 0. -/
def immZero (f : Fields) : Dec Unit := must (f.imm == 0#48) .badImm

/-- The specials' codes (R44). -/
def Special.ofCode : Nat → Option Special
  | 0x30 => some .zero | 0x31 => some .core | 0x32 => some .quad | 0x33 => some .cluster | 0x34 => some .device
  | 0x35 => some .home | 0x36 => some .frame | 0x37 => some .sp | 0x38 => some .clk | 0x39 => some .firing
  | 0x3A => some .tl | _ => none

/-- A code in [lo, lo + n) as an index. -/
def codeIn (lo n : Nat) (x : BitVec 7) : Option (Fin n) :=
  if h : lo ≤ x.toNat ∧ x.toNat < lo + n then some ⟨x.toNat - lo, by omega⟩ else none

/-- The kinds of R17. -/
def qCode (x : BitVec 7) : Option (Fin 16) := codeIn 0x00 16 x
def nCode (x : BitVec 7) : Option (Fin 32) := codeIn 0x10 32 x
def vCode (x : BitVec 7) : Option (Fin 32) := codeIn 0x40 32 x
def mCode (x : BitVec 7) : Option (Fin 8) := codeIn 0x60 8 x
def tmCode (x : BitVec 7) : Option (Fin 8) := codeIn 0x68 8 x
def lcCode (x : BitVec 7) : Option (Fin 8) := codeIn 0x70 8 x

/-- A src code (R56). -/
def srcCode (x : BitVec 7) : Option Src :=
  match qCode x with
  | some k => some (.q k)
  | none =>
    match nCode x with
    | some r => some (.n r)
    | none => (Special.ofCode x.toNat).map .special

def src (x : BitVec 7) : Dec Src := orReject .badSpecifier (srcCode x)
def vreg (x : BitVec 7) : Dec (Fin 32) := orReject .badSpecifier (vCode x)
def nreg (x : BitVec 7) : Dec (Fin 32) := orReject .badSpecifier (nCode x)
def mreg (x : BitVec 7) : Dec (Fin 8) := orReject .badSpecifier (mCode x)
def tmreg (x : BitVec 7) : Dec (Fin 8) := orReject .badSpecifier (tmCode x)
def lcreg (x : BitVec 7) : Dec (Fin 8) := orReject .badSpecifier (lcCode x)

/-- A queue or named code (R106, R130). -/
def qnreg (x : BitVec 7) : Dec QN :=
  match qCode x with
  | some k => .ok (.q k)
  | none => (nreg x).map .n

/-- An optional operand: 0x7F for none. -/
def opt {α : Type} (p : BitVec 7 → Dec α) (x : BitVec 7) : Dec (Option α) :=
  if x == 0x7F#7 then .ok none else (p x).map some

/-- D of a scalar result. -/
def ndst (x : BitVec 7) : Dec NDst := opt nreg x

/-- D of MOV and MOVI. -/
def nmreg (x : BitVec 7) : Dec NM :=
  match mCode x with
  | some k => .ok (.m k)
  | none => (nreg x).map .n

/-- A of MOV. -/
def movSrc (x : BitVec 7) : Dec MovSrc :=
  match mCode x with
  | some k => .ok (.m k)
  | none =>
    match lcCode x with
    | some k => .ok (.lc k)
    | none => (src x).map .scalar

/-- A src, or 0x7F with IMM as the operand; a register operand leaves IMM zero. -/
def srcImm (f : Fields) (x : BitVec 7) : Dec SrcImm :=
  if x == 0x7F#7 then .ok (.imm f.imm) else do
    let r ← src x
    immZero f
    return .reg r

/-- A bop (R296). -/
def bop (f : Fields) (x : BitVec 7) : Dec VB :=
  if x == 0x7F#7 then .ok (.imm f.imm) else do
    immZero f
    match vCode x with
    | some v => return .v v
    | none => return .reg (← src x)

/-- The widths of R14. -/
def widthOf : Nat → Option Width
  | 0 => some .w64 | 1 => some .w32 | 2 => some .w16 | 3 => some .w8 | _ => none

def width (f : Fields) : Dec Width := orReject .badFm (widthOf f.fm.toNat)

/-- The format codes of R14. -/
def fmtOf : Nat → Option Fmt
  | 0x0 => some .fp32 | 0x1 => some .bf16 | 0x2 => some .fp16 | 0x3 => some .f8a | 0x4 => some .f8b
  | 0x5 => some .e2m1 | 0x6 => some .e8m0 | 0x7 => some .mxf8a | 0x8 => some .mxf8b | 0x9 => some .mxf4
  | 0xA => some .int8 | 0xB => some .int16 | 0xC => some .int32 | 0xD => some .int64 | _ => none

def sfmtOf : Nat → Option SFmt
  | 0x0 => some .fp32 | 0x1 => some .bf16 | _ => none

def vfmtOf : Nat → Option VFmt
  | 0x0 => some .fp32 | 0x1 => some .bf16 | 0xA => some .int8 | 0xB => some .int16 | 0xC => some .int32 | _ => none

def ifmtOf : Nat → Option IFmt
  | 0xA => some .int8 | 0xB => some .int16 | 0xC => some .int32 | _ => none

def pfmtOf : Nat → Option PFmt
  | 0x0 => some .fp32 | 0x1 => some .bf16 | 0x3 => some .f8a | 0x4 => some .f8b | 0xA => some .int8
  | 0xB => some .int16 | 0xC => some .int32 | _ => none

def mxfmtOf : Nat → Option MxFmt
  | 0x7 => some .mxf8a | 0x8 => some .mxf8b | 0x9 => some .mxf4 | _ => none

def mfmtOf : Nat → Option MFmt
  | 0x1 => some .bf16 | 0x3 => some .f8a | 0x4 => some .f8b | 0x7 => some .mxf8a | 0x8 => some .mxf8b
  | 0x9 => some .mxf4 | _ => none

def afmtOf : Nat → Option AFmt
  | 0x0 => some .fp32 | 0x1 => some .bf16 | 0x3 => some .f8a | 0x4 => some .f8b | _ => none

def rfmtOf : Nat → Option RFmt
  | 0x0 => some .fp32 | 0x1 => some .bf16 | 0xC => some .int32 | _ => none

def addFnOf : Nat → Option AddFn
  | 0 => some .wrap | 1 => some .sat | 2 => some .satu | 3 => some .carry | _ => none

def vaddFnOf : Nat → Option VAddFn
  | 0 => some .wrap | 1 => some .sat | 2 => some .satu | _ => none

def mulhFnOf : Nat → Option MulhFn
  | 0 => some .ss | 1 => some .uu | 2 => some .su | _ => none

/-- The conditions of R69. -/
def icondOf : Nat → Option ICond
  | 0 => some .eq | 1 => some .ne | 2 => some .lt | 3 => some .ge | 4 => some .ltu | 5 => some .geu
  | 6 => some .gt | 7 => some .le | 8 => some .gtu | 9 => some .leu | _ => none

/-- The conditions of R104. -/
def fcondOf : Nat → Option FCond
  | 0x0 => some .eq | 0x1 => some .ne | 0x2 => some .lt | 0x3 => some .ge | 0x6 => some .gt | 0x7 => some .le
  | 0xA => some .un | 0xB => some .ord | _ => none

def homeSelOf : Nat → Option HomeSel
  | 0 => some .home | 1 => some .off | 2 => some .dev | 3 => some .cl | 4 => some .isLocal | _ => none

def amoFnOf : Nat → Option AmoFn
  | 0 => some .add | 1 => some .and | 2 => some .or | 3 => some .xor | 4 => some .min | 5 => some .max
  | 6 => some .minu | 7 => some .maxu | 8 => some .xchg | _ => none

def prefFnOf : Nat → Option PrefFn
  | 0 => some .touch | 1 => some .na | 2 => some .wb | _ => none

def scopeOf : Nat → Option Scope
  | 0 => some .f | 1 => some .c | 2 => some .p | _ => none

def redOpOf : Nat → Option RedOp
  | 0 => some .add | 1 => some .min | 2 => some .max | 3 => some .minu | 4 => some .maxu | 5 => some .and
  | 6 => some .or | 7 => some .xor | _ => none

/-- Bit i of FN. -/
def Fields.fnBit (f : Fields) (i : Nat) : Bool := f.fn.getLsbD i

/-- Bits [lo + n - 1 : lo] of FN as a number. -/
def Fields.fnBits (f : Fields) (lo n : Nat) : Nat := (f.fn.extractLsb' lo n).toNat

/-- FN[7:4] as the mask field of R287. -/
def vmask (f : Fields) : Dec VMask :=
  if f.fnBit 7 then .ok (some ((f.fn.extractLsb' 4 3).toFin)) else do
    must (f.fnBits 4 3 == 0) .badFn
    return none

/-- FN must keep bits [7:lo] zero. -/
def fnBelow (f : Fields) (lo : Nat) : Dec Unit := must (decide (f.fn.toNat < 2 ^ lo)) .badFn

/-- IMM must keep bits [47:lo] zero. -/
def immBelow (f : Fields) (lo : Nat) : Dec Unit := must (decide (f.imm.toNat < 2 ^ lo)) .badImm

/-- The limits of the instruction's entry on the fields just read. -/
def limited (i : Instr) : Dec Instr := do
  must i.wellFormed .badImm
  return i

/-! ## Families -/

/-- OP and the unused fields of an instruction with no operand at all. -/
def bare (f : Fields) (i : Instr) : Dec Instr := do
  fmZero f; unused f.d; unused f.a; unused f.b; unused f.c; fnZero f; immZero f
  return i

/-- D, A and B-or-immediate at an integer width (R56). -/
def alu (f : Fields) (mk : Width → NDst → Src → SrcImm → Instr) : Dec Instr := do
  let w ← width f
  let d ← ndst f.d
  let a ← src f.a
  let b ← srcImm f f.b
  unused f.c
  return mk w d a b

/-- An integer instruction with FN = 0. -/
def alu0 (f : Fields) (mk : Width → NDst → Src → SrcImm → Instr) : Dec Instr := do
  fnZero f
  alu f mk

/-- D and A at an integer width. -/
def alu1 (f : Fields) (mk : Width → NDst → Src → Instr) : Dec Instr := do
  fnZero f; immZero f; unused f.b; unused f.c
  let w ← width f
  let d ← ndst f.d
  let a ← src f.a
  return mk w d a

/-- D, A and B-or-immediate of scalar floating point (R97). -/
def fpu (f : Fields) (mk : SFmt → NDst → Src → SrcImm → Instr) : Dec Instr := do
  let t ← orReject .badFm (sfmtOf f.fm.toNat)
  let d ← ndst f.d
  let a ← src f.a
  let b ← srcImm f f.b
  unused f.c
  limited (mk t d a b)

/-- BR, BC, CALL: the transfer field is IMM whole. -/
def jump (f : Fields) (mk : BitVec 48 → Instr) : Dec Instr := do
  fmZero f; unused f.d; unused f.a; unused f.b; unused f.c; fnZero f
  return mk f.imm

/-- LD and the far loads: width, sign-extend bit, D, base and displacement. -/
def load (f : Fields) (mk : Width → Bool → NDst → Src → BitVec 48 → Instr) : Dec Instr := do
  let w ← width f
  let d ← ndst f.d
  let a ← src f.a
  unused f.b; unused f.c; fnBelow f 1
  return mk w (f.fnBit 0) d a f.imm

/-- The mask of LDX and STX: FN[1] and FN[4:2] (R180). -/
def xmask (f : Fields) : Dec VMask := do
  fnBelow f 5
  if f.fnBit 1 then return some ((f.fn.extractLsb' 2 3).toFin) else
    must (f.fnBits 2 3 == 0) .badFn
    return none

/-- B of LDX and STX. -/
def xidx (f : Fields) : Dec XIdx :=
  if f.fnBit 0 then (vreg f.b).map .index else (src f.b).map .stride

/-- A vector instruction of one format, D, A and a bop in B. -/
def vec2 {φ : Type} (f : Fields) (fmt : Nat → Option φ) (mk : φ → VMask → Fin 32 → Fin 32 → VB → Instr) :
    Dec Instr := do
  let t ← orReject .badFm (fmt f.fm.toNat)
  let m ← vmask f
  let d ← vreg f.d
  let a ← vreg f.a
  let b ← bop f f.b
  unused f.c
  limited (mk t m d a b)

/-- A vector instruction of one format, D and A. -/
def vec1 {φ : Type} (f : Fields) (fmt : Nat → Option φ) (mk : φ → VMask → Fin 32 → Fin 32 → Instr) : Dec Instr := do
  let t ← orReject .badFm (fmt f.fm.toNat)
  let m ← vmask f
  let d ← vreg f.d
  let a ← vreg f.a
  unused f.b; unused f.c; immZero f
  limited (mk t m d a)

/-- FN[3:0] of a vector instruction must be 0. -/
def vfn0 (f : Fields) : Dec Unit := must (f.fnBits 0 4 == 0) .badFn

/-- FN[3:1] of a vector instruction must be 0. -/
def vfn1 (f : Fields) : Dec Unit := must (f.fnBits 1 3 == 0) .badFn

/-- Opcodes 0x01-0x09: control (R106, R130). -/
def decode0 (w : IWord) (f : Fields) : Dec Instr :=
  match f.op.toNat % 16 with
  | 0x1 => bare f .nop
  | 0x2 => jump f .br
  | 0x3 => do
    let wd ← width f
    let c ← orReject .badFn (icondOf f.fn.toNat)
    let a ← qnreg f.a
    unused f.d; unused f.b; unused f.c
    return .bc wd c a f.imm
  | 0x4 => jump f .call
  | 0x5 => bare f .ret
  | 0x6 => do
    fmZero f; fnZero f; immZero f; unused f.d; unused f.b; unused f.c
    return .jmpi (← qnreg f.a)
  | 0x7 => bare f .endFiring
  | 0x8 => do
    fmZero f; unused f.d
    let code ← qnreg f.a
    let frame ← qnreg f.b
    let home ← opt qnreg f.c
    fnBelow f 4; immBelow f 7
    limited (.spawn code frame home (f.fnBit 3) (f.fnBit 2) (f.fn.extractLsb' 0 2) (f.imm.extractLsb' 0 7))
  | 0x9 => bare f .yield
  | _ => .ok (.ill w)

/-- Opcodes 0x10-0x1F: integer arithmetic, logic and shifts (R56). -/
def decode1 (w : IWord) (f : Fields) : Dec Instr :=
  match f.op.toNat % 16 with
  | 0x0 => do
    let fn ← orReject .badFn (addFnOf f.fn.toNat)
    alu f (.add fn)
  | 0x1 => do
    let fn ← orReject .badFn (addFnOf f.fn.toNat)
    alu f (.sub fn)
  | 0x2 => alu0 f .mul
  | 0x3 => do
    let fn ← orReject .badFn (mulhFnOf f.fn.toNat)
    alu f (.mulh fn)
  | 0x4 => alu0 f .div
  | 0x5 => alu0 f .divu
  | 0x6 => alu0 f .rem
  | 0x7 => alu0 f .remu
  | 0x8 => alu0 f .and
  | 0x9 => alu0 f .or
  | 0xA => alu0 f .xor
  | 0xB => alu0 f .andn
  | 0xC => alu0 f .shl
  | 0xD => alu0 f .shr
  | 0xE => alu0 f .sar
  | 0xF => alu0 f .rot
  | _ => .ok (.ill w)

/-- Opcodes 0x20-0x2C: the rest of the integer class (R56). -/
def decode2 (w : IWord) (f : Fields) : Dec Instr :=
  match f.op.toNat % 16 with
  | 0x0 => alu0 f .min
  | 0x1 => alu0 f .max
  | 0x2 => alu0 f .minu
  | 0x3 => alu0 f .maxu
  | 0x4 => alu1 f .clz
  | 0x5 => alu1 f .popc
  | 0x6 => do
    fnBelow f 2
    let d ← ndst f.d
    let a ← src f.a
    unused f.c
    if f.fnBit 1 then
      fmZero f
      return .ext (f.fnBit 0) (.operand (← srcImm f f.b)) d a
    else
      unused f.b; immZero f
      return .ext (f.fnBit 0) (.fixed (← width f)) d a
  | 0x7 => do
    fmZero f; immBelow f 13; unused f.c
    let d ← ndst f.d
    let a ← src f.a
    let pos := f.imm.extractLsb' 0 6
    let len := f.imm.extractLsb' 6 7
    match f.fn.toNat with
    | 0 => unused f.b; limited (.bitf .x d a pos len)
    | 1 => unused f.b; limited (.bitf .xs d a pos len)
    | 2 => limited (.bitf (.ins (← src f.b)) d a pos len)
    | _ => .error .badFn
  | 0x8 => do
    let c ← orReject .badFn (icondOf f.fn.toNat)
    alu f (.cmp c)
  | 0x9 => do
    fmZero f; fnZero f
    let d ← ndst f.d
    let a ← src f.a
    let b ← src f.b
    return .sel d a b (← srcImm f f.c)
  | 0xA => do
    fmZero f; fnBelow f 5; unused f.c
    let d ← ndst f.d
    let a ← src f.a
    let b ← opt src f.b
    limited (.lea (f.fnBit 4) (f.fn.extractLsb' 0 4) d a b f.imm)
  | 0xB => do
    fmZero f; fnZero f; unused f.c
    let d ← ndst f.d
    let a ← src f.a
    return .far d a (← srcImm f f.b)
  | 0xC => do
    fmZero f; immZero f; unused f.b; unused f.c
    let sel ← orReject .badFn (homeSelOf f.fn.toNat)
    let d ← ndst f.d
    return .homeof sel d (← src f.a)
  | _ => .ok (.ill w)

/-- Opcodes 0x30-0x3F: register management and scalar floating point (R50, R97). -/
def decode3 (w : IWord) (f : Fields) : Dec Instr :=
  match f.op.toNat % 16 with
  | 0x0 => do
    fmZero f; fnZero f; immZero f; unused f.b; unused f.c
    let d ← opt nmreg f.d
    return .mov d (← movSrc f.a)
  | 0x1 => do
    fmZero f
    must (w.extractLsb' 64 13 == 0#13) .unusedField
    return .movi (← opt nmreg f.d) (w.extractLsb' 0 64)
  | 0x2 => do
    fmZero f; fnZero f; immZero f; unused f.d; unused f.c
    let a ← nreg f.a
    limited (.pushm a (← nreg f.b))
  | 0x3 => do
    fmZero f; fnZero f; immZero f; unused f.d; unused f.c
    let a ← nreg f.a
    limited (.popm a (← nreg f.b))
  | 0x4 => do
    fmZero f; fnZero f; unused f.d; unused f.a; unused f.b; unused f.c
    return .spadj f.imm
  | 0x8 => do fnZero f; fpu f .fadd
  | 0x9 => do fnZero f; fpu f .fsub
  | 0xA => do fnZero f; fpu f .fmul
  | 0xB => do
    fnZero f
    let t ← orReject .badFm (sfmtOf f.fm.toNat)
    let d ← ndst f.d
    let a ← src f.a
    let b ← src f.b
    limited (.ffma t d a b (← srcImm f f.c))
  | 0xC => do fnZero f; fpu f .fdiv
  | 0xD => do
    fnZero f; immZero f; unused f.b; unused f.c
    let t ← orReject .badFm (sfmtOf f.fm.toNat)
    let d ← ndst f.d
    return .fsqrt t d (← src f.a)
  | 0xE => do fnBelow f 2; fpu f (fun t => .fminmax t (f.fnBit 0) (f.fnBit 1))
  | 0xF => do
    let c ← orReject .badFn (fcondOf f.fn.toNat)
    fpu f (fun t => .fcmp t c)
  | _ => .ok (.ill w)

/-- Opcodes 0x40-0x4C: FCVT and local memory (R97, R175). -/
def decode4 (w : IWord) (f : Fields) : Dec Instr :=
  match f.op.toNat % 16 with
  | 0x0 => do
    fnBelow f 6; immZero f; unused f.b; unused f.c
    let dst ← orReject .badFm (fmtOf f.fm.toNat)
    let s ← orReject .badFn (fmtOf (f.fnBits 0 4))
    let d ← ndst f.d
    limited (.fcvt dst s (f.fnBit 5) (f.fnBit 4) d (← src f.a))
  | 0x4 => load f .ld
  | 0x5 => do
    let wd ← width f
    fnZero f; unused f.d; unused f.c
    let a ← src f.a
    return .st wd a (← src f.b) f.imm
  | 0x6 => do
    must (decide (f.fm.toNat < 4)) .badFm
    fnZero f; unused f.b; unused f.c
    let d ← vreg f.d
    return .ldv (f.fm.extractLsb' 0 2) d (← src f.a) f.imm
  | 0x7 => do
    must (decide (f.fm.toNat < 4)) .badFm
    fnZero f; unused f.d; unused f.c
    let a ← src f.a
    return .stv (f.fm.extractLsb' 0 2) a (← vreg f.b) f.imm
  | 0x8 => do
    let wd ← width f
    let m ← xmask f
    let x ← xidx f
    unused f.c
    let d ← vreg f.d
    return .ldx wd x m d (← src f.a) f.imm
  | 0x9 => do
    let wd ← width f
    let m ← xmask f
    let x ← xidx f
    unused f.d
    let a ← src f.a
    return .stx wd x m a (← vreg f.c) f.imm
  | 0xA => do
    fmZero f; unused f.d; unused f.b; unused f.c
    let fn ← orReject .badFn (prefFnOf f.fn.toNat)
    return .pref fn (← src f.a) f.imm
  | 0xB => do
    must (decide (f.fm.toNat < 2)) .badFm
    unused f.c
    let fn ← orReject .badFn (amoFnOf f.fn.toNat)
    let d ← ndst f.d
    let a ← src f.a
    return .amo fn (f.fm == 1#4) d a (← src f.b) f.imm
  | 0xC => do
    must (decide (f.fm.toNat < 2)) .badFm
    fnZero f
    let d ← ndst f.d
    let a ← src f.a
    let b ← src f.b
    return .acas (f.fm == 1#4) d a b (← src f.c) f.imm
  | _ => .ok (.ill w)

/-- Opcodes 0x50-0x5E: far reads, sequences, watches and fences (R216, R196). -/
def decode5 (w : IWord) (f : Fields) : Dec Instr :=
  match f.op.toNat % 16 with
  | 0x0 => load f .ldf
  | 0x1 => load f .ldfa
  | 0x2 => load f .ldfp
  | 0x3 => do
    fmZero f; fnZero f; unused f.a; unused f.b; unused f.c
    return .pchk (← ndst f.d) f.imm
  | 0x4 => do
    fmZero f; fnZero f; immZero f; unused f.d; unused f.b; unused f.c
    return .pdrop (← opt src f.a)
  | 0x8 => do
    fmZero f; fnBelow f 1; unused f.c
    let d ← ndst f.d
    let a ← src f.a
    limited (.sqadv (f.fnBit 0) d a (← srcImm f f.b))
  | 0x9 => do
    fmZero f; fnZero f; unused f.c
    let d ← ndst f.d
    let a ← src f.a
    limited (.sqwait d a (← srcImm f f.b))
  | 0xA => do
    fmZero f; fnBelow f 4; unused f.d; unused f.c
    let a ← src f.a
    limited (.watch (f.fn.extractLsb' 0 4).toFin a (← srcImm f f.b))
  | 0xB => do
    fmZero f; fnZero f; immBelow f 16; unused f.d; unused f.a; unused f.b; unused f.c
    return .wunwatch (f.imm.extractLsb' 0 16)
  | 0xC => do
    fmZero f; fnZero f; unused f.b; unused f.c
    let d ← ndst f.d
    if f.a == 0x7F#7 then
      immBelow f 16
      return .wsleep d (.imm (f.imm.extractLsb' 0 16))
    else
      immZero f
      return .wsleep d (.reg (← src f.a))
  | 0xD => do
    fmZero f; fnBelow f 5; immZero f; unused f.a; unused f.b; unused f.c
    return .wpoll (f.fnBit 4) (f.fn.extractLsb' 0 4).toFin (← ndst f.d)
  | 0xE => do
    fmZero f; immZero f; unused f.a; unused f.b; unused f.c
    let sc ← orReject .badFn (scopeOf f.fn.toNat)
    limited (.fence sc (← ndst f.d))
  | _ => .ok (.ill w)

/-- A pull's channel, FN[5:2]. -/
def Fields.channel (f : Fields) : Fin 16 := (f.fn.extractLsb' 2 4).toFin

/-- Opcodes 0x60-0x66: the pull engine (R252). -/
def decode6 (w : IWord) (f : Fields) : Dec Instr :=
  match f.op.toNat % 16 with
  | 0x0 => do
    fmZero f; fnBelow f 6
    let d ← ndst f.d
    let a ← src f.a
    let b ← src f.b
    let rows ← opt lcreg f.c
    limited (.pull (f.fn.extractLsb' 0 2) f.channel d a b rows (f.imm.extractLsb' 0 24) (f.imm.extractLsb' 24 24))
  | 0x1 => do
    fmZero f; fnBelow f 6
    let d ← ndst f.d
    let a ← src f.a
    let b ← src f.b
    let len := f.imm.extractLsb' 0 24
    if f.c == 0x7F#7 then
      limited (.pullg (f.fn.extractLsb' 0 2) f.channel d a b (.imm (f.imm.extractLsb' 24 24)) len)
    else
      immBelow f 24
      let k ← lcreg f.c
      limited (.pullg (f.fn.extractLsb' 0 2) f.channel d a b (.lc k) len)
  | 0x2 => do
    let t ← orReject .badFm (rfmtOf f.fm.toNat)
    fnBelow f 7; immBelow f 26; unused f.c
    let d ← ndst f.d
    let a ← src f.a
    let b ← src f.b
    limited (.pullr t (f.fnBit 6) (f.fn.extractLsb' 0 2) f.channel d a b (f.imm.extractLsb' 0 24)
      (f.imm.extractLsb' 24 2).toFin)
  | 0x3 => do
    fmZero f; fnBelow f 2; unused f.d; unused f.c
    let a ← src f.a
    let g := (f.fn.extractLsb' 0 2).toFin
    if f.b == 0x7F#7 then
      immBelow f 6
      limited (.agset g a (.imm (f.imm.extractLsb' 0 6)))
    else
      immZero f
      return .agset g a (.reg (← src f.b))
  | 0x4 => do
    fmZero f; fnBelow f 6; immZero f; unused f.c
    must (!f.fnBit 1) .badFn
    let d ← ndst f.d
    let a ← src f.a
    return .waitp (f.fnBit 0) f.channel d a (← src f.b)
  | 0x5 => do
    fmZero f; fnZero f; unused f.b; unused f.c
    let d ← lcreg f.d
    if f.a == 0x7F#7 then
      immBelow f 32
      return .lcset d (.imm (f.imm.extractLsb' 0 32))
    else
      immZero f
      return .lcset d (.reg (← src f.a))
  | 0x6 => do
    fmZero f; fnBelow f 7; immZero f; unused f.a; unused f.b; unused f.c
    must (!f.fnBit 6 || f.fnBits 0 2 == 2) .badFn
    let d ← ndst f.d
    match f.fnBits 0 2 with
    | 0 => return .equery .done f.channel d
    | 1 => return .equery .nextId f.channel d
    | 2 => return .equery (if f.fnBit 6 then .faultClr else .fault) f.channel d
    | _ => return .equery .stat f.channel d
  | _ => .ok (.ill w)

/-- IMM[11:0] and IMM[23:12] of a matrix command. -/
def Fields.row0 (f : Fields) : BitVec 12 := f.imm.extractLsb' 0 12
def Fields.rowCount (f : Fields) : BitVec 12 := f.imm.extractLsb' 12 12

/-- Opcodes 0x70-0x77: the joint array (R279). -/
def decode7 (w : IWord) (f : Fields) : Dec Instr :=
  match f.op.toNat % 16 with
  | 0x0 => do
    let t ← orReject .badFm (mfmtOf f.fm.toNat)
    fnBelow f 3; immBelow f 13; unused f.d
    let c0 := f.imm.extractLsb' 0 6
    let count := f.imm.extractLsb' 6 7
    if f.fnBit 0 then
      let a ← vreg f.a
      unused f.b
      let c ← opt vreg f.c
      limited (.wld t (.vec a (f.fn.extractLsb' 1 2) c) c0 count)
    else
      must (f.fnBits 1 2 == 0) .badFn
      let a ← src f.a
      let b ← src f.b
      unused f.c
      limited (.wld t (.scratch a b) c0 count)
  | 0x1 => do
    let t ← orReject .badFm (mfmtOf f.fm.toNat)
    fnBelow f 2; immBelow f 24; unused f.d
    match tmCode f.a with
    | some k => do
      let b ← src f.b
      unused f.c
      limited (.mma t (.map k b) (f.fn.extractLsb' 0 2) f.row0 f.rowCount)
    | none => do
      let a ← src f.a
      let b ← src f.b
      let tiles ← opt lcreg f.c
      limited (.mma t (.scratch a b tiles) (f.fn.extractLsb' 0 2) f.row0 f.rowCount)
  | 0x2 => do
    fmZero f; fnZero f; immBelow f 24; unused f.d; unused f.a; unused f.b; unused f.c
    limited (.azero f.row0 f.rowCount)
  | 0x3 => do
    fmZero f; fnBelow f 2; immBelow f 12; unused f.a; unused f.b; unused f.c
    return .ard (f.fn.extractLsb' 0 2) (← vreg f.d) f.row0
  | 0x4 => do
    fmZero f; fnBelow f 2; immBelow f 12; unused f.d; unused f.a; unused f.c
    return .awr (f.fn.extractLsb' 0 2) (← vreg f.b) f.row0
  | 0x5 => do
    let t ← orReject .badFm (afmtOf f.fm.toNat)
    fnZero f; unused f.d; unused f.b; unused f.c
    let a ← src f.a
    limited (.ast t a f.row0 f.rowCount (f.imm.extractLsb' 24 24))
  | 0x6 => do
    fmZero f; fnZero f; immBelow f 24; unused f.d; unused f.a; unused f.b; unused f.c
    limited (.mwait f.row0 f.rowCount)
  | 0x7 => do
    fmZero f; fnZero f; unused f.b; unused f.c
    let d ← tmreg f.d
    return .tmapset d (← src f.a) f.imm
  | _ => .ok (.ill w)

/-- VCVT's source field: IMM[7:6] and IMM[3:0] (R301). -/
def cvtSrc (f : Fields) : Dec CvtSrc :=
  let code := (f.imm.extractLsb' 0 4).toNat
  match (f.imm.extractLsb' 6 2).toNat with
  | 0 => (orReject .badImm (fmtOf code)).map .fmt
  | 1 => do must (code == 0) .badImm; return .e3m2
  | 2 => do must (code == 0) .badImm; return .e2m3
  | _ => do must (code == 0) .badImm; return .int4

/-- FN[3:0] of VCMP under its format. -/
def vcond (f : Fields) (t : VFmt) : Dec VCond :=
  if t.fmt.isInt then (orReject .badFn (icondOf (f.fnBits 0 4))).map .i
  else (orReject .badFn (fcondOf (f.fnBits 0 4))).map .f

/-- D of VCMP. -/
def vmdst (x : BitVec 7) : Dec VMDst :=
  match mCode x with
  | some k => .ok (.m k)
  | none => (vreg x).map .v

/-- Opcodes 0x80-0x8F: vector arithmetic, conversion and comparison (R295). -/
def decode8 (_ : IWord) (f : Fields) : Dec Instr :=
  match f.op.toNat % 16 with
  | 0x0 => do
    let fn ← orReject .badFn (vaddFnOf (f.fnBits 0 4))
    vec2 f vfmtOf (fun t => .vadd t fn)
  | 0x1 => do
    let fn ← orReject .badFn (vaddFnOf (f.fnBits 0 4))
    vec2 f vfmtOf (fun t => .vsub t fn)
  | 0x2 => do vfn0 f; vec2 f vfmtOf .vmul
  | 0x3 => do
    vfn0 f
    let t ← orReject .badFm (vfmtOf f.fm.toNat)
    let m ← vmask f
    let d ← vreg f.d
    let a ← vreg f.a
    let b ← vreg f.b
    limited (.vfma t m d a b (← bop f f.c))
  | 0x4 => do vfn1 f; vec2 f vfmtOf (fun t => .vmin t (f.fnBit 0))
  | 0x5 => do vfn1 f; vec2 f vfmtOf (fun t => .vmax t (f.fnBit 0))
  | 0x6 => do vfn1 f; vec1 f vfmtOf (fun t => .vabs t (f.fnBit 0))
  | 0x7 => do vfn1 f; vec1 f vfmtOf (fun t => .vneg t (f.fnBit 0))
  | 0x8 => do vfn0 f; vec1 f sfmtOf .vexp2
  | 0x9 => do vfn0 f; vec1 f sfmtOf .vlog2
  | 0xA => do vfn0 f; vec1 f sfmtOf .vrcp
  | 0xB => do vfn0 f; vec1 f sfmtOf .vrsq
  | 0xC => do
    vfn0 f; immBelow f 12
    let t ← orReject .badFm (fmtOf f.fm.toNat)
    let s ← cvtSrc f
    let m ← vmask f
    let d ← vreg f.d
    let a ← vreg f.a
    unused f.b; unused f.c
    limited (.vcvt t s (f.imm.getLsbD 5) (f.imm.getLsbD 4) (f.imm.extractLsb' 8 4) m d a)
  | 0xD => do
    let t ← orReject .badFm (vfmtOf f.fm.toNat)
    let c ← vcond f t
    let m ← vmask f
    let d ← vmdst f.d
    let a ← vreg f.a
    let b ← bop f f.b
    unused f.c
    limited (.vcmp t c m d a b)
  | 0xE => do
    fmZero f; fnZero f; immZero f
    let d ← vreg f.d
    let a ← vreg f.a
    let b ← vreg f.b
    return .vsel d a b (← mreg f.c)
  | _ => do vfn0 f; vec2 f ifmtOf .vand

/-- The lane of VEXT and VINS. -/
def laneSrc (f : Fields) : Dec LaneSrc :=
  if f.b == 0x7F#7 then do
    immBelow f 9
    return .imm (f.imm.extractLsb' 0 9)
  else do
    immZero f
    return .reg (← src f.b)

/-- VMXQ and VMXD. -/
def vmx (f : Fields) (mk : MxFmt → Bool → Fin 32 → Fin 32 → Fin 32 → BitVec 5 → Byte → Instr) : Dec Instr := do
  let t ← orReject .badFm (mxfmtOf f.fm.toNat)
  fnBelow f 1
  immBelow f 16
  must ((f.imm.extractLsb' 5 3) == 0#3) .badImm
  let d ← vreg f.d
  let a ← vreg f.a
  unused f.b
  let c ← vreg f.c
  limited (mk t (f.fnBit 0) d a c (f.imm.extractLsb' 0 5) (f.imm.extractLsb' 8 8))

/-- Opcodes 0x90-0x9B: vector logic, reduction, permutation and lanes (R295). -/
def decode9 (w : IWord) (f : Fields) : Dec Instr :=
  match f.op.toNat % 16 with
  | 0x0 => do vfn0 f; vec2 f ifmtOf .vor
  | 0x1 => do vfn0 f; vec2 f ifmtOf .vxor
  | 0x2 => do vfn0 f; vec2 f ifmtOf .vshl
  | 0x3 => do vfn1 f; vec2 f ifmtOf (fun t => .vshr t (f.fnBit 0))
  | 0x4 => do
    immBelow f 1
    let t ← orReject .badFm (vfmtOf f.fm.toNat)
    let op ← orReject .badFn (redOpOf (f.fnBits 0 4))
    let m ← vmask f
    let d ← ndst f.d
    let a ← vreg f.a
    unused f.b; unused f.c
    limited (.vred t op (f.imm.getLsbD 0) m d a)
  | 0x5 => do
    vfn0 f; immZero f
    let t ← orReject .badFm (pfmtOf f.fm.toNat)
    let m ← vmask f
    let d ← vreg f.d
    let a ← vreg f.a
    unused f.c
    return .vperm t m d a (← vreg f.b)
  | 0x6 => do
    vfn1 f
    let t ← orReject .badFm (pfmtOf f.fm.toNat)
    let m ← vmask f
    let d ← vreg f.d
    unused f.b; unused f.c
    if f.fnBit 0 then
      immBelow f 9
      let a ← vreg f.a
      return .vbcast t m d (.lane a (f.imm.extractLsb' 0 9))
    else if f.a == 0x7F#7 then
      limited (.vbcast t m d (.imm f.imm))
    else
      immZero f
      return .vbcast t m d (.reg (← src f.a))
  | 0x7 => do
    vfn0 f
    let t ← orReject .badFm (ifmtOf f.fm.toNat)
    let m ← vmask f
    let d ← vreg f.d
    unused f.b; unused f.c
    return .viota t m d (← srcImm f f.a)
  | 0x8 => do
    fnBelow f 1
    let t ← orReject .badFm (pfmtOf f.fm.toNat)
    let d ← ndst f.d
    let a ← vreg f.a
    unused f.c
    limited (.vext t (f.fnBit 0) d a (← laneSrc f))
  | 0x9 => do
    fnZero f
    let t ← orReject .badFm (pfmtOf f.fm.toNat)
    let d ← vreg f.d
    let a ← src f.a
    unused f.c
    return .vins t d a (← laneSrc f)
  | 0xA => vmx f .vmxq
  | 0xB => vmx f .vmxd
  | _ => .ok (.ill w)

/-- Opcodes 0xC0-0xC7: the system instructions (R323). -/
def decodeC (w : IWord) (f : Fields) : Dec Instr :=
  match f.op.toNat % 16 with
  | 0x0 => do
    fmZero f; fnZero f; immBelow f 8; unused f.d; unused f.b; unused f.c
    limited (.trap (f.imm.extractLsb' 0 8) (← opt src f.a))
  | 0x1 => do
    fmZero f; fnBelow f 1; immZero f; unused f.d; unused f.b; unused f.c
    if f.fnBit 0 then return .tretV (← src f.a) else
      unused f.a
      return .tret
  | 0x2 => do
    fmZero f; fnZero f; immBelow f 12; unused f.a; unused f.b; unused f.c
    let d ← ndst f.d
    limited (.sysrd d (f.imm.extractLsb' 0 12))
  | 0x3 => do
    fmZero f; fnZero f; immBelow f 12; unused f.d; unused f.b; unused f.c
    let a ← src f.a
    limited (.syswr a (f.imm.extractLsb' 0 12))
  | 0x4 => do
    fmZero f; fnBelow f 4; immZero f; unused f.b; unused f.c
    let d ← ndst f.d
    return .pgreq (f.fn.extractLsb' 0 4).toFin d (← src f.a)
  | 0x5 => do
    fmZero f; fnZero f; immZero f; unused f.d; unused f.b; unused f.c
    return .basinclr (← opt src f.a)
  | 0x6 => do
    fmZero f; fnZero f; immBelow f 16; unused f.d; unused f.a; unused f.b; unused f.c
    return .brkpt (f.imm.extractLsb' 0 16)
  | 0x7 => do
    fmZero f; fnZero f; unused f.d; unused f.b; unused f.c
    return .testinj (← src f.a) f.imm
  | _ => .ok (.ill w)

/-- The decoder, by the rows of R31's map. Unassigned and ILL opcodes decode to `ill` (R32), hints to `hint`, whatever
their other fields hold (R34). -/
def decode (w : IWord) : Dec Instr :=
  let f := Fields.ofWord w
  match f.op.toNat / 16 with
  | 0x0 => decode0 w f
  | 0x1 => decode1 w f
  | 0x2 => decode2 w f
  | 0x3 => decode3 w f
  | 0x4 => decode4 w f
  | 0x5 => decode5 w f
  | 0x6 => decode6 w f
  | 0x7 => decode7 w f
  | 0x8 => decode8 w f
  | 0x9 => decode9 w f
  | 0xC => decodeC w f
  | 0xE => .ok (.hint (f.op.extractLsb' 0 4) (w.extractLsb' 0 88))
  | _ => .ok (.ill w)

/-- The instruction in an `nbits`-bit table word: one 96-bit word, bit 0 its lowest; bits above `nbits` are 0. -/
def decodeTableWord (nbits w : Nat) : Option Instr := (decode (BitVec.ofNat 96 (w % 2 ^ nbits))).toOption

/-! ## The encoder -/

/-- A code of a kind that begins at `lo`. -/
def codeAt {n : Nat} (lo : Nat) (k : Fin n) : BitVec 7 := BitVec.ofNat 7 (lo + k.val)

def Special.code : Special → BitVec 7
  | .zero => 0x30 | .core => 0x31 | .quad => 0x32 | .cluster => 0x33 | .device => 0x34 | .home => 0x35
  | .frame => 0x36 | .sp => 0x37 | .clk => 0x38 | .firing => 0x39 | .tl => 0x3A

def Src.code : Src → BitVec 7
  | .q k => codeAt 0x00 k
  | .n r => codeAt 0x10 r
  | .special x => x.code

def nc (r : Fin 32) : BitVec 7 := codeAt 0x10 r
def vc (r : Fin 32) : BitVec 7 := codeAt 0x40 r
def mc (k : Fin 8) : BitVec 7 := codeAt 0x60 k
def tmc (k : Fin 8) : BitVec 7 := codeAt 0x68 k
def lcc (k : Fin 8) : BitVec 7 := codeAt 0x70 k

def QN.code : QN → BitVec 7
  | .q k => codeAt 0x00 k
  | .n r => nc r

def NM.code : NM → BitVec 7
  | .n r => nc r
  | .m k => mc k

def MovSrc.code : MovSrc → BitVec 7
  | .scalar r => r.code
  | .m k => mc k
  | .lc k => lcc k

/-- The code of an optional operand. -/
def optCode {α : Type} (p : α → BitVec 7) : Option α → BitVec 7
  | none => 0x7F
  | some x => p x

def NDst.code (d : NDst) : BitVec 7 := optCode nc d

def SrcImm.code : SrcImm → BitVec 7
  | .reg r => r.code
  | .imm _ => 0x7F

def SrcImm.bits : SrcImm → BitVec 48
  | .reg _ => 0
  | .imm v => v

def VB.code : VB → BitVec 7
  | .v r => vc r
  | .reg r => r.code
  | .imm _ => 0x7F

def VB.bits : VB → BitVec 48
  | .v _ => 0
  | .reg _ => 0
  | .imm x => x

def Width.code : Width → Nat
  | .w64 => 0 | .w32 => 1 | .w16 => 2 | .w8 => 3

def Fmt.code : Fmt → Nat
  | .fp32 => 0 | .bf16 => 1 | .fp16 => 2 | .f8a => 3 | .f8b => 4 | .e2m1 => 5 | .e8m0 => 6 | .mxf8a => 7
  | .mxf8b => 8 | .mxf4 => 9 | .int8 => 10 | .int16 => 11 | .int32 => 12 | .int64 => 13

def AFmt.code : AFmt → Nat
  | .fp32 => 0 | .bf16 => 1 | .f8a => 3 | .f8b => 4

def RFmt.code : RFmt → Nat
  | .fp32 => 0 | .bf16 => 1 | .int32 => 12

def AddFn.code : AddFn → Nat
  | .wrap => 0 | .sat => 1 | .satu => 2 | .carry => 3

def VAddFn.code : VAddFn → Nat
  | .wrap => 0 | .sat => 1 | .satu => 2

def MulhFn.code : MulhFn → Nat
  | .ss => 0 | .uu => 1 | .su => 2

def ICond.code : ICond → Nat
  | .eq => 0 | .ne => 1 | .lt => 2 | .ge => 3 | .ltu => 4 | .geu => 5 | .gt => 6 | .le => 7 | .gtu => 8 | .leu => 9

def FCond.code : FCond → Nat
  | .eq => 0 | .ne => 1 | .lt => 2 | .ge => 3 | .gt => 6 | .le => 7 | .un => 10 | .ord => 11

def VCond.code : VCond → Nat
  | .i c => c.code
  | .f c => c.code

def HomeSel.code : HomeSel → Nat
  | .home => 0 | .off => 1 | .dev => 2 | .cl => 3 | .isLocal => 4

def AmoFn.code : AmoFn → Nat
  | .add => 0 | .and => 1 | .or => 2 | .xor => 3 | .min => 4 | .max => 5 | .minu => 6 | .maxu => 7 | .xchg => 8

def PrefFn.code : PrefFn → Nat
  | .touch => 0 | .na => 1 | .wb => 2

def Scope.code : Scope → Nat
  | .f => 0 | .c => 1 | .p => 2

def RedOp.code : RedOp → Nat
  | .add => 0 | .min => 1 | .max => 2 | .minu => 3 | .maxu => 4 | .and => 5 | .or => 6 | .xor => 7

/-- FN[7:4] of a vector instruction. -/
def maskFn : VMask → Nat
  | none => 0
  | some k => 0x80 + 16 * k.val

/-- A flag at a bit. -/
def bitAt (b : Bool) (i : Nat) : Nat := if b then 2 ^ i else 0

/-- A word with every unused field as R13 requires. -/
def blank (op : Nat) : Fields :=
  { op := BitVec.ofNat 8 op, fm := 0, d := 0x7F, a := 0x7F, b := 0x7F, c := 0x7F, fn := 0, imm := 0 }

def encAlu (op fn : Nat) (w : Width) (d : NDst) (a : Src) (b : SrcImm) : Fields :=
  { blank op with fm := BitVec.ofNat 4 w.code, d := d.code, a := a.code, b := b.code, fn := BitVec.ofNat 8 fn,
                  imm := b.bits }

def encFpu (op fn : Nat) (f : SFmt) (d : NDst) (a : Src) (b : SrcImm) : Fields :=
  { blank op with fm := BitVec.ofNat 4 f.fmt.code, d := d.code, a := a.code, b := b.code, fn := BitVec.ofNat 8 fn,
                  imm := b.bits }

def encLoad (op : Nat) (w : Width) (sext : Bool) (d : NDst) (a : Src) (disp : BitVec 48) : Fields :=
  { blank op with fm := BitVec.ofNat 4 w.code, d := d.code, a := a.code, fn := BitVec.ofNat 8 (bitAt sext 0),
                  imm := disp }

def encVec (op fn : Nat) (t : Fmt) (m : VMask) (d a : Fin 32) (b : VB) : Fields :=
  { blank op with fm := BitVec.ofNat 4 t.code, d := vc d, a := vc a, b := b.code,
                  fn := BitVec.ofNat 8 (maskFn m + fn), imm := b.bits }

def encVec1 (op fn : Nat) (t : Fmt) (m : VMask) (d a : Fin 32) : Fields :=
  { blank op with fm := BitVec.ofNat 4 t.code, d := vc d, a := vc a, fn := BitVec.ofNat 8 (maskFn m + fn) }

/-- FN of LDX and STX (R180). -/
def xFn (x : XIdx) (m : VMask) : Nat :=
  (match x with
    | .stride _ => 0
    | .index _ => 1) +
  match m with
  | none => 0
  | some k => 2 + 4 * k.val

def XIdx.code : XIdx → BitVec 7
  | .stride b => b.code
  | .index v => vc v

def pullFn (cls : BitVec 2) (ch : Fin 16) : Nat := cls.toNat + 4 * ch.val

def LaneSrc.code : LaneSrc → BitVec 7
  | .reg b => b.code
  | .imm _ => 0x7F

def LaneSrc.bits : LaneSrc → BitVec 48
  | .reg _ => 0
  | .imm l => l.setWidth 48

/-- VCVT's IMM (R301). -/
def cvtImm (src : CvtSrc) (dstU srcU : Bool) (part : BitVec 4) : BitVec 48 :=
  BitVec.ofNat 48 (256 * part.toNat + bitAt dstU 5 + bitAt srcU 4 +
    match src with
    | .fmt f => f.code
    | .e3m2 => 64 | .e2m3 => 128 | .int4 => 192)

def encVmx (op : Nat) (f : MxFmt) (bf : Bool) (d a c : Fin 32) (b0 : BitVec 5) (s0 : Byte) : Fields :=
  { blank op with fm := BitVec.ofNat 4 f.fmt.code, d := vc d, a := vc a, c := vc c,
                  fn := BitVec.ofNat 8 (bitAt bf 0), imm := BitVec.ofNat 48 (b0.toNat + 256 * s0.toNat) }

/-- IMM of a matrix command: row0, rows and the rest. -/
def rowImm (row0 rows : BitVec 12) (hi : Nat) : BitVec 48 :=
  BitVec.ofNat 48 (row0.toNat + 4096 * rows.toNat + 2 ^ 24 * hi)

/-- The word of an instruction, from its entry's encoding row; a machine step has none. -/
def encode : Instr → Option IWord
  | .nop => some (blank 0x01).toWord
  | .hint op rest => some ((0xE#4) ++ op ++ rest)
  | .br t => some { blank 0x02 with imm := t }.toWord
  | .bc w c a t =>
    some { blank 0x03 with fm := BitVec.ofNat 4 w.code, a := a.code, fn := BitVec.ofNat 8 c.code, imm := t }.toWord
  | .call t => some { blank 0x04 with imm := t }.toWord
  | .ret => some (blank 0x05).toWord
  | .jmpi a => some { blank 0x06 with a := a.code }.toWord
  | .endFiring => some (blank 0x07).toWord
  | .spawn code frame home actor wide prio join =>
    some { blank 0x08 with a := code.code, b := frame.code, c := optCode QN.code home,
                           fn := BitVec.ofNat 8 (bitAt actor 3 + bitAt wide 2 + prio.toNat),
                           imm := join.setWidth 48 }.toWord
  | .yield => some (blank 0x09).toWord
  | .add f w d a b => some (encAlu 0x10 f.code w d a b).toWord
  | .sub f w d a b => some (encAlu 0x11 f.code w d a b).toWord
  | .mul w d a b => some (encAlu 0x12 0 w d a b).toWord
  | .mulh f w d a b => some (encAlu 0x13 f.code w d a b).toWord
  | .div w d a b => some (encAlu 0x14 0 w d a b).toWord
  | .divu w d a b => some (encAlu 0x15 0 w d a b).toWord
  | .rem w d a b => some (encAlu 0x16 0 w d a b).toWord
  | .remu w d a b => some (encAlu 0x17 0 w d a b).toWord
  | .and w d a b => some (encAlu 0x18 0 w d a b).toWord
  | .or w d a b => some (encAlu 0x19 0 w d a b).toWord
  | .xor w d a b => some (encAlu 0x1A 0 w d a b).toWord
  | .andn w d a b => some (encAlu 0x1B 0 w d a b).toWord
  | .shl w d a b => some (encAlu 0x1C 0 w d a b).toWord
  | .shr w d a b => some (encAlu 0x1D 0 w d a b).toWord
  | .sar w d a b => some (encAlu 0x1E 0 w d a b).toWord
  | .rot w d a b => some (encAlu 0x1F 0 w d a b).toWord
  | .min w d a b => some (encAlu 0x20 0 w d a b).toWord
  | .max w d a b => some (encAlu 0x21 0 w d a b).toWord
  | .minu w d a b => some (encAlu 0x22 0 w d a b).toWord
  | .maxu w d a b => some (encAlu 0x23 0 w d a b).toWord
  | .clz w d a => some { blank 0x24 with fm := BitVec.ofNat 4 w.code, d := d.code, a := a.code }.toWord
  | .popc w d a => some { blank 0x25 with fm := BitVec.ofNat 4 w.code, d := d.code, a := a.code }.toWord
  | .ext z (.fixed w) d a =>
    some { blank 0x26 with fm := BitVec.ofNat 4 w.code, d := d.code, a := a.code,
                           fn := BitVec.ofNat 8 (bitAt z 0) }.toWord
  | .ext z (.operand b) d a =>
    some { blank 0x26 with d := d.code, a := a.code, b := b.code, fn := BitVec.ofNat 8 (bitAt z 0 + 2),
                           imm := b.bits }.toWord
  | .bitf form d a pos len =>
    some { blank 0x27 with
      d := d.code, a := a.code,
      b := (match form with
        | .x | .xs => 0x7F
        | .ins b => b.code),
      fn := (match form with
        | .x => 0
        | .xs => 1
        | .ins _ => 2),
      imm := BitVec.ofNat 48 (pos.toNat + 64 * len.toNat) }.toWord
  | .cmp c w d a b => some (encAlu 0x28 c.code w d a b).toWord
  | .sel d a b c =>
    some { blank 0x29 with d := d.code, a := a.code, b := b.code, c := c.code, imm := c.bits }.toWord
  | .lea keep sh d a b disp =>
    some { blank 0x2A with d := d.code, a := a.code, b := optCode Src.code b,
                           fn := BitVec.ofNat 8 (bitAt keep 4 + sh.toNat), imm := disp }.toWord
  | .far d a b => some { blank 0x2B with d := d.code, a := a.code, b := b.code, imm := b.bits }.toWord
  | .homeof s d a => some { blank 0x2C with d := d.code, a := a.code, fn := BitVec.ofNat 8 s.code }.toWord
  | .mov d a => some { blank 0x30 with d := optCode NM.code d, a := a.code }.toWord
  | .movi d v => some ((0x31#8) ++ (0#4) ++ optCode NM.code d ++ (0#13) ++ v)
  | .pushm first last => some { blank 0x32 with a := nc first, b := nc last }.toWord
  | .popm first last => some { blank 0x33 with a := nc first, b := nc last }.toWord
  | .spadj adj => some { blank 0x34 with imm := adj }.toWord
  | .fadd f d a b => some (encFpu 0x38 0 f d a b).toWord
  | .fsub f d a b => some (encFpu 0x39 0 f d a b).toWord
  | .fmul f d a b => some (encFpu 0x3A 0 f d a b).toWord
  | .ffma f d a b c =>
    some { blank 0x3B with fm := BitVec.ofNat 4 f.fmt.code, d := d.code, a := a.code, b := b.code, c := c.code,
                           imm := c.bits }.toWord
  | .fdiv f d a b => some (encFpu 0x3C 0 f d a b).toWord
  | .fsqrt f d a => some { blank 0x3D with fm := BitVec.ofNat 4 f.fmt.code, d := d.code, a := a.code }.toWord
  | .fminmax f mx num d a b => some (encFpu 0x3E (bitAt mx 0 + bitAt num 1) f d a b).toWord
  | .fcmp f c d a b => some (encFpu 0x3F c.code f d a b).toWord
  | .fcvt dst s dstU srcU d a =>
    some { blank 0x40 with fm := BitVec.ofNat 4 dst.code, d := d.code, a := a.code,
                           fn := BitVec.ofNat 8 (bitAt dstU 5 + bitAt srcU 4 + s.code) }.toWord
  | .ld w sext d a disp => some (encLoad 0x44 w sext d a disp).toWord
  | .st w a b disp =>
    some { blank 0x45 with fm := BitVec.ofNat 4 w.code, a := a.code, b := b.code, imm := disp }.toWord
  | .ldv g d a disp => some { blank 0x46 with fm := g.setWidth 4, d := vc d, a := a.code, imm := disp }.toWord
  | .stv g a b disp => some { blank 0x47 with fm := g.setWidth 4, a := a.code, b := vc b, imm := disp }.toWord
  | .ldx w x m d a disp =>
    some { blank 0x48 with fm := BitVec.ofNat 4 w.code, d := vc d, a := a.code, b := x.code,
                           fn := BitVec.ofNat 8 (xFn x m), imm := disp }.toWord
  | .stx w x m a c disp =>
    some { blank 0x49 with fm := BitVec.ofNat 4 w.code, a := a.code, b := x.code, c := vc c,
                           fn := BitVec.ofNat 8 (xFn x m), imm := disp }.toWord
  | .pref f a disp => some { blank 0x4A with a := a.code, fn := BitVec.ofNat 8 f.code, imm := disp }.toWord
  | .amo f w32 d a b disp =>
    some { blank 0x4B with fm := BitVec.ofNat 4 (bitAt w32 0), d := d.code, a := a.code, b := b.code,
                           fn := BitVec.ofNat 8 f.code, imm := disp }.toWord
  | .acas w32 d a b c disp =>
    some { blank 0x4C with fm := BitVec.ofNat 4 (bitAt w32 0), d := d.code, a := a.code, b := b.code, c := c.code,
                           imm := disp }.toWord
  | .ldf w sext d a disp => some (encLoad 0x50 w sext d a disp).toWord
  | .ldfa w sext d a disp => some (encLoad 0x51 w sext d a disp).toWord
  | .ldfp w sext d a disp => some (encLoad 0x52 w sext d a disp).toWord
  | .pchk d t => some { blank 0x53 with d := d.code, imm := t }.toWord
  | .pdrop a => some { blank 0x54 with a := optCode Src.code a }.toWord
  | .sqadv now d a b =>
    some { blank 0x58 with d := d.code, a := a.code, b := b.code, fn := BitVec.ofNat 8 (bitAt now 0),
                           imm := b.bits }.toWord
  | .sqwait d a b => some { blank 0x59 with d := d.code, a := a.code, b := b.code, imm := b.bits }.toWord
  | .watch k a b =>
    some { blank 0x5A with a := a.code, b := b.code, fn := BitVec.ofNat 8 k.val, imm := b.bits }.toWord
  | .wunwatch m => some { blank 0x5B with imm := m.setWidth 48 }.toWord
  | .wsleep d (.reg a) => some { blank 0x5C with d := d.code, a := a.code }.toWord
  | .wsleep d (.imm m) => some { blank 0x5C with d := d.code, imm := m.setWidth 48 }.toWord
  | .wpoll st k d => some { blank 0x5D with d := d.code, fn := BitVec.ofNat 8 (bitAt st 4 + k.val) }.toWord
  | .fence sc d => some { blank 0x5E with d := d.code, fn := BitVec.ofNat 8 sc.code }.toWord
  | .pull cls ch d a b rows len pitch =>
    some { blank 0x60 with d := d.code, a := a.code, b := b.code, c := optCode lcc rows,
                           fn := BitVec.ofNat 8 (pullFn cls ch), imm := pitch ++ len }.toWord
  | .pullg cls ch d a b (.lc k) len =>
    some { blank 0x61 with d := d.code, a := a.code, b := b.code, c := lcc k,
                           fn := BitVec.ofNat 8 (pullFn cls ch), imm := (0#24) ++ len }.toWord
  | .pullg cls ch d a b (.imm c) len =>
    some { blank 0x61 with d := d.code, a := a.code, b := b.code,
                           fn := BitVec.ofNat 8 (pullFn cls ch), imm := c ++ len }.toWord
  | .pullr f ob cls ch d a b n g =>
    some { blank 0x62 with fm := BitVec.ofNat 4 f.code, d := d.code, a := a.code, b := b.code,
                           fn := BitVec.ofNat 8 (pullFn cls ch + bitAt ob 6),
                           imm := BitVec.ofNat 48 (n.toNat + 2 ^ 24 * g.val) }.toWord
  | .agset g a (.reg b) =>
    some { blank 0x63 with a := a.code, b := b.code, fn := BitVec.ofNat 8 g.val }.toWord
  | .agset g a (.imm c) =>
    some { blank 0x63 with a := a.code, fn := BitVec.ofNat 8 g.val, imm := c.setWidth 48 }.toWord
  | .waitp s ch d a b =>
    some { blank 0x64 with d := d.code, a := a.code, b := b.code,
                           fn := BitVec.ofNat 8 (bitAt s 0 + 4 * ch.val) }.toWord
  | .lcset d (.reg a) => some { blank 0x65 with d := lcc d, a := a.code }.toWord
  | .lcset d (.imm v) => some { blank 0x65 with d := lcc d, imm := v.setWidth 48 }.toWord
  | .equery s ch d =>
    some { blank 0x66 with
      d := d.code,
      fn := BitVec.ofNat 8 ((match s with
        | .done => 0
        | .nextId => 1
        | .fault => 2
        | .faultClr => 66
        | .stat => 3) + 4 * ch.val) }.toWord
  | .wld f (.scratch a b) c0 count =>
    some { blank 0x70 with fm := BitVec.ofNat 4 f.fmt.code, a := a.code, b := b.code,
                           imm := BitVec.ofNat 48 (c0.toNat + 64 * count.toNat) }.toWord
  | .wld f (.vec v g scales) c0 count =>
    some { blank 0x70 with fm := BitVec.ofNat 4 f.fmt.code, a := vc v, c := optCode vc scales,
                           fn := BitVec.ofNat 8 (1 + 2 * g.toNat),
                           imm := BitVec.ofNat 48 (c0.toNat + 64 * count.toNat) }.toWord
  | .mma f (.scratch a b tiles) gran row0 rows =>
    some { blank 0x71 with fm := BitVec.ofNat 4 f.fmt.code, a := a.code, b := b.code, c := optCode lcc tiles,
                           fn := gran.setWidth 8, imm := rowImm row0 rows 0 }.toWord
  | .mma f (.map t b) gran row0 rows =>
    some { blank 0x71 with fm := BitVec.ofNat 4 f.fmt.code, a := tmc t, b := b.code, fn := gran.setWidth 8,
                           imm := rowImm row0 rows 0 }.toWord
  | .azero row0 rows => some { blank 0x72 with imm := rowImm row0 rows 0 }.toWord
  | .ard g d row0 => some { blank 0x73 with d := vc d, fn := g.setWidth 8, imm := row0.setWidth 48 }.toWord
  | .awr g b row0 => some { blank 0x74 with b := vc b, fn := g.setWidth 8, imm := row0.setWidth 48 }.toWord
  | .ast f a row0 rows pitch =>
    some { blank 0x75 with fm := BitVec.ofNat 4 f.code, a := a.code, imm := rowImm row0 rows pitch.toNat }.toWord
  | .mwait row0 rows => some { blank 0x76 with imm := rowImm row0 rows 0 }.toWord
  | .tmapset d a disp => some { blank 0x77 with d := tmc d, a := a.code, imm := disp }.toWord
  | .vadd f fn m d a b => some (encVec 0x80 fn.code f.fmt m d a b).toWord
  | .vsub f fn m d a b => some (encVec 0x81 fn.code f.fmt m d a b).toWord
  | .vmul f m d a b => some (encVec 0x82 0 f.fmt m d a b).toWord
  | .vfma f m d a b c =>
    some { blank 0x83 with fm := BitVec.ofNat 4 f.fmt.code, d := vc d, a := vc a, b := vc b, c := c.code,
                           fn := BitVec.ofNat 8 (maskFn m), imm := c.bits }.toWord
  | .vmin f alt m d a b => some (encVec 0x84 (bitAt alt 0) f.fmt m d a b).toWord
  | .vmax f alt m d a b => some (encVec 0x85 (bitAt alt 0) f.fmt m d a b).toWord
  | .vabs f sat m d a => some (encVec1 0x86 (bitAt sat 0) f.fmt m d a).toWord
  | .vneg f sat m d a => some (encVec1 0x87 (bitAt sat 0) f.fmt m d a).toWord
  | .vexp2 f m d a => some (encVec1 0x88 0 f.fmt m d a).toWord
  | .vlog2 f m d a => some (encVec1 0x89 0 f.fmt m d a).toWord
  | .vrcp f m d a => some (encVec1 0x8A 0 f.fmt m d a).toWord
  | .vrsq f m d a => some (encVec1 0x8B 0 f.fmt m d a).toWord
  | .vcvt dst s dstU srcU part m d a =>
    some { encVec1 0x8C 0 dst m d a with imm := cvtImm s dstU srcU part }.toWord
  | .vcmp f c m d a b =>
    some { blank 0x8D with
      fm := BitVec.ofNat 4 f.fmt.code,
      d := (match d with
        | .v r => vc r
        | .m k => mc k),
      a := vc a, b := b.code, fn := BitVec.ofNat 8 (maskFn m + c.code), imm := b.bits }.toWord
  | .vsel d a b c => some { blank 0x8E with d := vc d, a := vc a, b := vc b, c := mc c }.toWord
  | .vand f m d a b => some (encVec 0x8F 0 f.fmt m d a b).toWord
  | .vor f m d a b => some (encVec 0x90 0 f.fmt m d a b).toWord
  | .vxor f m d a b => some (encVec 0x91 0 f.fmt m d a b).toWord
  | .vshl f m d a b => some (encVec 0x92 0 f.fmt m d a b).toWord
  | .vshr f ar m d a b => some (encVec 0x93 (bitAt ar 0) f.fmt m d a b).toWord
  | .vred f op wide m d a =>
    some { blank 0x94 with fm := BitVec.ofNat 4 f.fmt.code, d := d.code, a := vc a,
                           fn := BitVec.ofNat 8 (maskFn m + op.code), imm := BitVec.ofNat 48 (bitAt wide 0) }.toWord
  | .vperm f m d a b =>
    some { blank 0x95 with fm := BitVec.ofNat 4 f.fmt.code, d := vc d, a := vc a, b := vc b,
                           fn := BitVec.ofNat 8 (maskFn m) }.toWord
  | .vbcast f m d (.reg a) =>
    some { blank 0x96 with fm := BitVec.ofNat 4 f.fmt.code, d := vc d, a := a.code,
                           fn := BitVec.ofNat 8 (maskFn m) }.toWord
  | .vbcast f m d (.imm x) =>
    some { blank 0x96 with fm := BitVec.ofNat 4 f.fmt.code, d := vc d, fn := BitVec.ofNat 8 (maskFn m),
                           imm := x }.toWord
  | .vbcast f m d (.lane a l) =>
    some { blank 0x96 with fm := BitVec.ofNat 4 f.fmt.code, d := vc d, a := vc a,
                           fn := BitVec.ofNat 8 (maskFn m + 1), imm := l.setWidth 48 }.toWord
  | .viota f m d a =>
    some { blank 0x97 with fm := BitVec.ofNat 4 f.fmt.code, d := vc d, a := a.code,
                           fn := BitVec.ofNat 8 (maskFn m), imm := a.bits }.toWord
  | .vext f sext d a l =>
    some { blank 0x98 with fm := BitVec.ofNat 4 f.fmt.code, d := d.code, a := vc a, b := l.code,
                           fn := BitVec.ofNat 8 (bitAt sext 0), imm := l.bits }.toWord
  | .vins f d a l =>
    some { blank 0x99 with fm := BitVec.ofNat 4 f.fmt.code, d := vc d, a := a.code, b := l.code,
                           imm := l.bits }.toWord
  | .vmxq f bf d a c b0 s0 => some (encVmx 0x9A f bf d a c b0 s0).toWord
  | .vmxd f bf d a c b0 s0 => some (encVmx 0x9B f bf d a c b0 s0).toWord
  | .trap cause a => some { blank 0xC0 with a := optCode Src.code a, imm := cause.setWidth 48 }.toWord
  | .tret => some (blank 0xC1).toWord
  | .tretV a => some { blank 0xC1 with a := a.code, fn := 1 }.toWord
  | .sysrd d num => some { blank 0xC2 with d := d.code, imm := num.setWidth 48 }.toWord
  | .syswr a num => some { blank 0xC3 with a := a.code, imm := num.setWidth 48 }.toWord
  | .pgreq k d a => some { blank 0xC4 with d := d.code, a := a.code, fn := BitVec.ofNat 8 k.val }.toWord
  | .basinclr a => some { blank 0xC5 with a := optCode Src.code a }.toWord
  | .brkpt tag => some { blank 0xC6 with imm := tag.setWidth 48 }.toWord
  | .testinj a disp => some { blank 0xC7 with a := a.code, imm := disp }.toWord
  | .ill w => some w
  | .registerWrite _ _ | .lineFetch _ _ _ | .divisionResult | .floatDivideResult | .localAccessPerformed _
  | .translation _ | .sealedFill _ _ | .sealedWriteBack _ _ | .softError _ _ | .commit | .edgeListRead _ _ _
  | .schedulerWatchAnswer _ _ _ _ | .watchRetry _ | .schedulerAssignment | .aging | .quadReservation
  | .preemptionRequest _ _ | .contextSave | .resume _ | .debugResume _ | .vectorGrant | .matrixCommandCompletion
  | .powerGovernor _ | .pullLineResponse _ _ _ _ _ _ | .lineRerequest _ _ _ _ | .waitpPromiseExpiry
  | .readRequest _ _ | .readResponse _ _ _ | .watchRegistration _ _ _ _ _ | .watchAnswer _ _ _ _ _ | .watchCancel _ _
  | .tlbGenerationAnswer _ _ | .validationRequest _ _ _ _ _ | .validationAnswer _ _ _ | .pageRequest _ _ _ _
  | .pageRequestReply _ _ _ _ _ | .pageIn _ _ _ _ | .migration _ _ _ _ _ | .migrationBlockEnd | .retry _ _
  | .repeatAfterRetry _ | .requestRepeat _ | .probe _ | .probeAnswer _ | .probeTimer _ | .peerLoss _
  | .peerReadmit _ _ | .memberRemoval _ | .ualinkRequest | .pcieCompletion _ _ | .keyRotation _ _ _
  | .oldPhaseErase _ _ | .kindle _ _ _ | .quench _ _ | .quenchRelease _ | .debugUnlock _ _ _ | .nysilInstall _ _ _ _ _
  | .nysilErase _ _ _ _ | .ideKey _ _ _ _ _ | .certWrite _ _ _ | .challenge _ _ | .getMeasurements _
  | .lockInterfaceRequest _ | .startInterfaceRequest _ | .stopInterfaceRequest _ | .deviceInterfaceReport _
  | .linkTraining _ _ _ _ _ | .boot _ _ _ _ _ _ _ | .notify _ _ | .ringBase _ _ | .ringEntries _ _ | .cancel _ _
  | .launchSelection _ _ | .launchSlot _ | .launchCompletion _ | .kill _ | .killRecord _ | .ptpCorrection _
  | .lockLoss | .logExport _ _ _ _ | .driveFailure _ | .pldmFirmwareUpdate _ | .pldmPlatformMonitoring
  | .resultArrival _ | .splitGranuleBoundary | .pageTableChange _ | .completionTimeout _ | .challengeTimeout _
  | .sessionContextFetch _ _ => none

end Sys2Proof
end

