-- ==== Sys2Proof/Machine/State.lean ====
section
/-! DEFINITION. The state of the modelled Izlaevo: one device, one of its clusters, and one quad of that cluster (the
core that issues and its three mates), with everything the manual gives them. Other quads, clusters and devices, the
host, the stokers and Gorsoica reach the state only as steps of the opcode table; messages they are sent stand in
`outbox`. Every field is plain data. -/

namespace Sys2Proof.Machine

/-- Why the machine stops. -/
inductive Fault where
  /-- Raised by `step` alone, when the package has refused to boot or a failed retraining has left it inert until
  package reset (R372, R379). Safe: nothing the manual allows is cut off. -/
  | inertPackage
deriving DecidableEq, Repr

/-- Why an instruction has no meaning. -/
inductive Refusal where
  /-- Raised by an arm of `exec` for an instruction that has no meaning yet. Safe. -/
  | notModelled (mnemonic : String)
deriving DecidableEq, Repr

/-! ## A core and its firing -/

/-- A deferred fault of a read (R218, R167): the read's id, which orders it in program order, its cause and its TVAL, and
whether it is a local access (R174). -/
structure FaultInfo where
  id : Nat
  cause : Byte
  tval : Word
  isLocal : Bool := false
deriving DecidableEq, Repr

/-- A queue entry: arrived, pending (R40), or marked faulted (R218). -/
inductive QEntry where
  | arrived (v : Word)
  | pending (id : Nat)
  | faulted (f : FaultInfo)
deriving DecidableEq, Repr

/-- The registers a group reads as they stood before it (R26): named, vector, mask, tensor-map and loop-count. -/
structure Regs where
  n : Vector Word 32
  v : Vector VReg 32
  m : Vector Word 8
  tm : Vector (Option (BitVec 512)) 8
  lc : Vector (BitVec 32) 8
deriving DecidableEq, Repr

/-- A register that a result is written to. -/
inductive Dest where
  | n (r : Fin 32)
  | m (k : Fin 8)
  | v (r : Fin 32)
  | tm (k : Fin 8)
  | lc (k : Fin 8)
  /-- A register that a later slot of the same group writes: the later slot's value stands (R26). -/
  | gone
deriving DecidableEq, Repr

/-- What brings a pending result: its own latency, one of the two dividers (R59, R99), the floating-point pipeline or the
vector unit. -/
inductive PendKind where
  | fixed | idiv | fdiv | fp | vec
deriving DecidableEq, Repr

/-- A result: a scalar, vector registers in order, a mask with the bits it writes, or a tensor map. -/
inductive PVal where
  | scalar (v : Word)
  | vec (vs : List VReg)
  | mask (bits written : Word)
  | tmap (d : BitVec 512)
deriving DecidableEq, Repr

/-- A result that has been computed and arrives at `due` (R59, R99, R172, R290): the id its queue entry and its
registers wait for, its value and the flags it merges (R87). -/
structure Pend where
  id : Nat
  kind : PendKind
  value : PVal
  flags : BitVec 5
  due : Nat
deriving DecidableEq, Repr

/-- The local accesses of R167, as issued. Offsets are 40-bit local offsets. -/
inductive AccKind where
  | ld (off : BitVec 40) (w : Nat) (sext : Bool)
  | st (off : BitVec 40) (bytes : List Byte)
  | ldv (off : BitVec 40) (g : Nat) (d : Fin 32)
  | stv (off : BitVec 40) (bytes : List Byte)
  | ldx (elems : List (Option (BitVec 40))) (s : Nat) (d : Fin 32)
  | stx (elems : List (BitVec 40 × List Byte))
  | amo (f : AmoFn) (off : BitVec 40) (w : Nat) (b : Word)
  | acas (off : BitVec 40) (w : Nat) (expect new : Word)
  | advance (off : BitVec 40) (inc : Word)
  | advCheck (off : BitVec 40)
  | sqwait (off : BitVec 40) (thr : Word)
  | tmapset (off : BitVec 40) (d : Fin 8)
  | testinj (off : BitVec 40)
  | touch (off : BitVec 40)
  | noAlloc (off : BitVec 40)
  | writeBack (off : BitVec 40)
deriving DecidableEq, Repr

/-- Why a local access fails check 4 or 5 of R166 (R151): the page is unmapped; it is not resident, with the residency
ticket of R152; or a trap's cause with its TVAL. -/
inductive AccFail where
  | unmapped
  | notResident (word thr : Word)
  | trap (cause : Byte) (tval : Word)
deriving DecidableEq, Repr

/-- A line held by the LLC slice (R149, R210): its rights and tags; its bytes are those of HBM below, in one order. -/
structure LlcLine where
  space : BitVec 16
  line : Word
  r : Bool
  w : Bool
  x : Bool
  mode : BitVec 2
  grain : Grain
  na : Bool
  tag0 : BitVec 16
  tag1 : BitVec 16
  pa : Nat
deriving DecidableEq, Repr

/-- An issued local access that is not yet performed (R170). `held` says that it issued in the held mode of R167; `orphan` marks an access
whose firing has been aborted or killed (R185), and `firing` is that firing's number; `ret` is its slot, `off` the group offset
before it; `bad` is a failure that waits for the firing's undecided atomics (R184). `known` is of an access whose checks 4 and 5
were decided as it issued (R167): the paged lines that it meets, as they were then translated. -/
structure Access where
  id : Nat
  firing : BitVec 32
  space : BitVec 16
  kind : AccKind
  held : Bool
  orphan : Bool
  ret : Word
  off : Nat
  due : Nat
  bad : Option AccFail
  known : Option (List LlcLine)
deriving DecidableEq, Repr

/-- The three far loads (R216). -/
inductive FarKind where
  | ldf | ldfa | ldfp
deriving DecidableEq, Repr

/-- A far read awaiting its reply (R217); `sent` is false while it is held behind an earlier read of the same sector
(R224); `due` is when a read of one's own home, or of this device's home 127, is performed (R219); `req` names the request
that its reply answers, a new one each time the read is issued again (R225); `reply` is one whose abort waits for the
firing's undecided atomics (R184). -/
structure FarRead where
  id : Nat
  req : Nat
  kind : FarKind
  addr : Word
  w : Nat
  sext : Bool
  sent : Bool
  due : Nat
  reply : Option Reply
deriving DecidableEq, Repr

/-- A vector instruction in the dispatch queue, with the scalar operands it captured (R288), the vector and mask
operands that an earlier slot of its group writes, as they stood before the group (R26), and the clk from which its
wait at the head counts (R290). -/
structure VCmd where
  id : Nat
  instr : Instr
  scalars : List Word
  caps : List (Dest × VReg)
  eligible : Nat
deriving DecidableEq, Repr

/-- An incomplete matrix command of a core (R270), with what it read at issue. -/
inductive MOp where
  | wldScratch (f : MFmt) (first second : Word) (c0 count : Nat)
  | wldVec (f : MFmt) (cols : List VReg) (scales : Option VReg) (c0 : Nat)
  | mma (f : MFmt) (row0 rows tiles : Nat) (gran : BitVec 2) (first second : Word) (map : Option (BitVec 512))
      (lead : Bool) (done : Nat) (flags : BitVec 5)
  | azero (row0 rows : Nat)
  | ard (row0 g : Nat)
  | awr (row0 : Nat) (rows : List VReg)
  | ast (f : AFmt) (base : BitVec 40) (row0 rows pitch : Nat)
deriving DecidableEq, Repr

/-- A matrix command in program order, performed row by row (R275): when its next row or column may be, how many rows of
an AZERO, AWR or AST are done, the flags of an AST so far, the columns that a WLD has read, and whether an MMA stands at a
split-granule boundary for a save (R276). -/
structure MCmd where
  id : Nat
  op : MOp
  due : Nat
  done : Nat
  flags : BitVec 5
  got : List (VReg × BitVec 128 × Bool)
  cut : Bool
deriving DecidableEq, Repr

/-- A range of the engine scoreboard (R248): bytes [lo, hi) of local offsets, and the firing whose command it is. -/
structure Range where
  id : Nat
  firing : BitVec 32
  lo : Nat
  hi : Nat
  write : Bool
deriving DecidableEq, Repr

/-- How the latched contents came about, for context save (R276). -/
inductive WldRec where
  | scratch (f : MFmt) (first second : Word) (c0 count : Nat)
  | vec (f : MFmt) (cols : List VReg) (scales : Option VReg) (c0 : Nat)
deriving DecidableEq, Repr

/-- A slice of the joint array (R264, R265): format, 64 columns of 256 bytes, up to 16 scale bytes a column. -/
structure Slice where
  fmt : MFmt
  cols : Vector VReg 64
  scales : Vector (BitVec 128) 64
  poisoned : Bool
  hist : List WldRec
deriving DecidableEq, Repr

/-- An accumulator row that differs from +0 unpoisoned (R268). -/
structure AccRow where
  row : Nat
  data : VReg
  poison : Bool
deriving DecidableEq, Repr

/-- The states of a watch slot, with their codes of R192. -/
inductive WState where
  | free | sent | armed | fired | full | lost | fault
deriving DecidableEq, Repr

/-- A watch slot (R192). `page` marks a slot whose PGREQ still awaits its ticket (R327). -/
structure WSlot where
  st : WState
  addr : Word
  thr : Word
  tag : BitVec 4
  value : Word
  gen : BitVec 48
  cause : Byte
  page : Option Nat
deriving DecidableEq, Repr

/-- An entry of the provisional-read table (R213), oldest first in the list; `id` names its validation, a new one each
time it is sent. -/
structure PrtEntry where
  id : Nat
  sector : BitVec 59
  space : BitVec 16
  fill : BitVec 48
  struck : Bool
deriving DecidableEq, Repr

/-- A continuation record (R118) with its task key (R400); `sid` names the scheduler's waiting record behind it. -/
structure ContRec where
  code : Word
  frame : Word
  join : Nat
  prio : BitVec 2
  wide : Bool
  timed : Bool
  resumable : Bool
  actor : Bool
  restarts : BitVec 7
  graph : BitVec 32
  space : BitVec 16
  key : Word
  image : Nat
  sid : Nat
deriving DecidableEq, Repr

/-- A deferred effect in the commit buffer (R128); `check` is the id of an advance's checks after issue (R167, R197), and
`asked` says that its page has been asked for (R418). -/
inductive Effect where
  | spawn (r : ContRec) (target : Option (BitVec 17))
  | advance (off : BitVec 40) (inc : Word) (check : Nat) (asked : Bool)
deriving DecidableEq, Repr

/-- What a firing that issues nothing is waiting for; `committing` is END's own wait while deferred effects are performed,
one a clk (R132, R197). -/
inductive Wait where
  | sqwait (id : Nat)
  | wsleep (mask : BitVec 16) (id : Nat)
  | waitp (promise xid : Word) (ch : Fin 16) (s missed : Bool) (id : Nat) (ret : Word) (off : Nat)
  | fence (sc : Scope) (id : Nat) (lost : Nat)
  | held (id : Nat)
  | ending
  | committing
  | joined (fail : Option (Byte × Word)) (op : Option MOp)
  | mwait (lo hi id : Nat)
  | transfers
deriving DecidableEq, Repr

/-- A transfer that its group has checked and that takes effect when every slot of the group has issued (R27). -/
inductive Xfer where
  | jump (t : Word)
  | call (t : Word)
  | ret (t : Word)
  | endFiring (ret : Word) (off : Nat)
  | yield
  | tret (v : Option Word)
  | brkpt (tag : BitVec 16)
deriving DecidableEq, Repr

/-- The group being issued (R26-R28): whether one is in progress, its first slot and its line, the queue entries it has pushed so
far, %sp and CLK as it began, and its pending transfer; `off0` and `commits` are the group offset and the deferred effects that it
began with. Between groups `off` and `xfer` are what the next slot resumes
with after a TRET into the middle of a group (R27, R28). `issued` says that the slot at the code pointer has issued and
holds the later ones (R167). -/
structure Grp where
  live : Bool
  issued : Bool
  first : Word
  line : Option Line
  off : Nat
  sp : Word
  clk : Word
  off0 : Nat
  commits : Nat
  xfer : Option Xfer
deriving DecidableEq, Repr

/-- What the last slot tried at this core came to, beside its effect: it stalls (R26), it stalls and is tried again in the
same clk (the join of R271), it met a deferred fault (R218), or, its group issuing, it waits for the line of its target
(R113). -/
inductive Mark where
  | none | stalled | again | deferred | fetching
deriving DecidableEq, Repr

/-- A transfer made without a check at its source: at firing start (R111) and at trap entry (R316), the target is
checked under R107 steps 2, 4 and 5 when the core is about to run it. `retried` is a firing start that a handler's return
tries again, which step 5, the mask, does not check (R22, R319). -/
inductive Entry where
  | start | trap | retried
deriving DecidableEq, Repr

/-- What a core is doing. -/
inductive CoreStatus where
  | idle | running | stopping | stopped
deriving DecidableEq, Repr

/-- The trap registers of one level (R321); `written` says that RET was written by SYSWR (R319), and `dsts` the
registers of the deferred fault that the entry took (R320). `word` is the instruction word at RET as the trap found it,
which TRET.V completes (R320); `last` says that its slot ends its group, and `xfer` is the transfer that an earlier slot
of the group has passed its checks for (R27). -/
structure TrapRegs where
  cause : Word
  ret : Word
  tval : Word
  written : Bool
  dsts : List Dest
  word : Option IWord
  last : Bool
  xfer : Option Xfer
deriving DecidableEq, Repr

/-- One core with the firing it runs. `vqFull` says that its group stalls on a full dispatch queue (R294); `owed` lists the registers that wait for a result, by its id (R41); `faults` the
registers marked faulted (R218); `savedFaults` the faulted reads that came back from a context image, with the level that
was saved (R218); `ended` the clk of END's group (R271); `owned` the rows that an MMA owns, with its id (R269); `vecNew`
what the vector unit wrote last: the clk, the registers, and the positions of the banks, by `bankPos` (R290); `spillAt` the clk
from which the spill port is free (R55); `wild` the rows that an AZERO or AWR has left unpredictable (R269); `mflags` the flags of completed matrix commands that no observer has merged yet: the
command's id, its rows, its flags (R273). -/
structure Core where
  num : BitVec 2
  status : CoreStatus
  task : ContRec
  number : BitVec 32
  started : Nat
  pc : Word
  issueAt : Nat
  mark : Mark
  entry : Option Entry
  level : Nat
  bank0 : List QEntry
  bank1 : List QEntry
  bank2 : List QEntry
  regs : Regs
  pre : Regs
  grp : Grp
  sp : Word
  spbase : Word
  splim : Word
  spill : List Host.Cell
  trap1 : TrapRegs
  trap2 : TrapRegs
  fstat : BitVec 5
  prt : List PrtEntry
  fallbacks : BitVec 16
  slots : Vector WSlot 16
  commit : List Effect
  nonRestart : Bool
  spawned : Nat
  ag : Vector (List Word) 4
  pend : List Pend
  owed : List (Nat × Dest)
  faults : List (Dest × FaultInfo)
  savedFaults : List (FaultInfo × Nat)
  acc : List Access
  far : List FarRead
  writeFault : Option (FaultInfo × Word × Nat)
  vq : List VCmd
  vqFull : Bool
  mq : List MCmd
  sb : List Range
  mmaCount : Nat
  heldMma : Option Instr
  ended : Option Nat
  pgreqs : List (Nat × Fin 16 × BitVec 4 × Word)
  pulls : List (Nat × Nat)
  owned : List (Nat × Nat × Nat)
  vecNew : Nat × List Dest × List Nat
  spillAt : Nat
  mflags : List (Nat × Nat × Nat × BitVec 5)
  slice : Slice
  accum : List AccRow
  wild : List Nat
  wait : List Wait
  preempt : Bool
  brk : Option (BitVec 16)
deriving DecidableEq, Repr

/-! ## The cluster -/

/-- A near-cache line (R171): the line's plaintext, its page's rights and mode, the write tags of its two sectors
(R210). -/
structure NcLine where
  space : BitVec 16
  line : Word
  data : Line
  dirty : Bool
  poison : Bool
  r : Bool
  w : Bool
  x : Bool
  mode : BitVec 2
  grain : Grain
  na : Bool
  tag0 : BitVec 16
  tag1 : BitVec 16
  pa : Nat
deriving DecidableEq, Repr

/-- A TLB entry (R149, R150, R153). `size` is the bytes its leaf or group covers. -/
structure TlbEntry where
  space : BitVec 16
  va : Word
  size : Nat
  frame : Nat
  pte : Word
  slot : BitVec 6
  slotGen : BitVec 16
  gen : Word
deriving DecidableEq, Repr

/-- A catch-basin line (R206): 16 sectors of data, valid, poison and fill GEN. -/
structure Sector where
  data : BitVec 256
  poison : Bool
  fill : BitVec 48
deriving DecidableEq, Repr

structure BasinLine where
  space : BitVec 16
  line : BitVec 55
  sectors : Vector (Option Sector) 16
deriving DecidableEq, Repr

/-- A registered watch (R189); `echo` marks a registration that still waits for its page and whose plane marked it congested
(R344). -/
structure SluiceEntry where
  off : BitVec 40
  space : BitVec 16
  thr : Word
  who : Requester
  echo : Bool := false
deriving DecidableEq, Repr

/-- One member's progress on one source line of a PULLR (R256, R408). -/
structure Arrival where
  member : Nat
  failed : Option Byte
deriving DecidableEq, Repr

/-- One source line of a transfer: its address at each member, the clk at which each was last requested, where it goes,
what has arrived, and how many destination lines of its unit have been settled. -/
structure PullLine where
  src : List Word
  dst : BitVec 40
  asked : List (Nat × Nat)
  arrivals : List Arrival
  partialSum : Line
  partialHi : Line
  settled : Nat
  done : Bool
deriving DecidableEq, Repr

/-- What a transfer does with its lines. -/
inductive XferKind where
  | copy
  | gather
  | reduce (f : RFmt) (obf16 : Bool) (n : Nat)
deriving DecidableEq, Repr

/-- A transfer of a channel (R240): the id of its command, its lines, its failure with the member it is charged to, the
failure of a destination line, the GENs it has seen, its flags, and the clk from which its lines may be posted. -/
structure Transfer where
  xid : Nat
  cmd : Nat
  kind : XferKind
  cls : BitVec 2
  lines : List PullLine
  fault : Option (Byte × Nat)
  dstFault : Option Byte
  gens : List (BitVec 17 × BitVec 48)
  flags : BitVec 5
  owner : BitVec 2
  firing : BitVec 32
  lostHome : Bool
  start : Nat
deriving DecidableEq, Repr

/-- What a completed transfer leaves for those that observe its completion (R87, R230, R244): its ID, the id of its command,
the firing that issued it and its core, its GENs, and the flags that no observer has merged yet. -/
structure PullEnd where
  xid : Nat
  cmd : Nat
  owner : BitVec 2
  firing : BitVec 32
  gens : List (BitVec 17 × BitVec 48)
  flags : BitVec 5
deriving DecidableEq, Repr

/-- A pull channel (R238-R241), less the words that stand in the near window (R239). -/
structure Chan where
  next : Nat
  xfers : List Transfer
  faulted : List Nat
  ends : List PullEnd
deriving DecidableEq, Repr

/-- A waiting record of the scheduler (R123-R125): `reading` while its list, its descriptor or an own word of an actor is
still to be read; `ripe` while a record of an actor stands in a run list or runs. -/
structure WaitRec where
  id : Nat
  cr : ContRec
  acquires : List (BitVec 17 × BitVec 48)
  firings : Nat
  desc : List Word
  reading : Bool
  ripe : Bool
deriving DecidableEq, Repr

/-- What a scheduler watch is for. -/
inductive SchedUse where
  | edge (rec : Nat) (addr : Word)
  | channel (rec : Nat) (addr : Word)
  | residency (rec : ContRec)
  | lane (home : BitVec 17)
  | inLane (home : BitVec 17)
deriving DecidableEq, Repr

/-- A scheduler watch (R123): `order` is the id of the record it is for, in whose order waiting watches are sent; `refused`
counts its refusals with status full, `retryAt` is when it is tried again. -/
structure SchedWatch where
  id : Nat
  order : Nat
  use : SchedUse
  addr : Word
  thr : Word
  refused : Nat
  sent : Bool
  retryAt : Option Nat
deriving DecidableEq, Repr

/-- A saved context (R331): the core (or gang) as the save left it. -/
structure Image where
  id : Nat
  cores : List Core
  held : Option (BitVec 16)
deriving DecidableEq, Repr

/-- The launch bound to the cluster (R393): what its firings and engines read of it. -/
structure Binding where
  graph : BitVec 32
  space : BitVec 16
  tvec : Word
  limit : Nat
  hwbase : Word
  wlen : Word
  exports : List (BitVec 17)
  capture : Bool
  replay : Bool
  timed : Bool
deriving DecidableEq, Repr

/-- A node of the metadata cache (R365): level 1-3 and index. -/
structure MetaKey where
  level : Nat
  index : Nat
deriving DecidableEq, Repr

/-- The counts of the status blocks (R119, R174, R190, R226, R251, R278, R294, R336, R350, R370, R156). -/
inductive Cnt where
  | promotions | restarts | preemptions
  | poolCe | poolUe | ncCe | ncUe | poisonedLoads
  | sluicePeak | sluiceFull | sluiceAnswers | sluiceImmediate
  | cbHits | cbStale | cbFills | cbFloorEvictions
  | valConfirms | valStrikeFault | valStrikeAge | valStrikeTag | valStrikeFloor
  | pullTransfers | pullLines | pullRepeats | pullDuplicates | pullFaults | pullPoisoned | promiseMisses
  | mmaJoins | mmaRows | barrierClk | throttleSlots | wldColumns
  | vecGrants | vecBusyClk | vecHeadWait | vecHeadWaitMax | vecQueueFull
  | trapsTl1 | trapsTl2 | kills | killsDropped | contextsSaved | contextsResumed | lateReplies | brkptSeen
  | sealedWritebacks | minorOverflows | sealedInits | macFailures | treeFailures | quenchDiscards | metaHits
  | uaRejected | nysilDropped | tagFailures | retriesSent | repeatsSent | ctxEvictions | congestionSteps | peersLost
  | abandonedMigrations
deriving DecidableEq, Repr

/-- A migration in progress (R156): its page, G0, the recopy passes made, whether the final pass may come, and the clk from
which the final pass blocks the page's writes. -/
structure Mig where
  space : BitVec 16
  page : Word
  g0 : BitVec 48
  passes : Nat
  ready : Bool
  blocked : Option Nat
deriving DecidableEq, Repr

/-- The modelled cluster. `postAt` is the clk from which the pull engine may post its next line, `postCh` the channel it
served last in each class (R238, R242, R385); `relAt` the clk from which the home may perform its next release (R188); `banks` the clk from
which a pool bank is free again, by pool and bank (R163, R172); `lateReads` the requests of far reads that a save dropped
(R225); `consumed` the records that this cluster has taken from each source's lane (R129); `tlbRefused` the spaces whose
generation watch home 127 refused (R153); `cellPoison` the register and spill granules that a soft error poisoned (R174); `zeroAt` the clk from which the pools' zeroing is
done, and `placing` the bound launch whose root records wait for it (R164). -/
structure Cluster where
  part : BitVec 32
  bound : Option Binding
  poison : List Nat
  zeroAt : Nat
  placing : Option (BitVec 32)
  cellPoison : List ErrAt
  gen : BitVec 48
  tagBase : BitVec 16
  nearTags : List (Nat × BitVec 16)
  evFloor : BitVec 48
  nc : List NcLine
  llc : List LlcLine
  tlb : List TlbEntry
  tlbGens : List (BitVec 16 × Word)
  tlbRefused : List (BitVec 16)
  modes : List (Nat × BitVec 2)
  hbmPoison : List Nat
  basin : List BasinLine
  floors : List (BitVec 17 × BitVec 48)
  sluice : List SluiceEntry
  pendingRegs : List SluiceEntry
  chans : Vector Chan 16
  postAt : Nat
  postCh : Vector (Fin 16) 4
  relAt : Nat
  banks : List (Nat × Nat)
  lateReads : List Nat
  lists : Vector (List (ContRec × Nat)) 4
  waiting : List WaitRec
  watches : List SchedWatch
  overflow : List ContRec
  lanes : List (BitVec 17 × Nat × List ContRec)
  consumed : List (BitVec 17 × Nat)
  nextId : Nat
  nextFiring : BitVec 32
  reserved : Bool
  aging : Vector Word 4
  images : List Image
  majors : List (BitVec 6 × Word)
  roots : List (Nat × Nat)
  metaCache : List (MetaKey × Line)
  mig : Option Mig
  replayed : List Nat
  pageWord : Word
  ticketNext : Word
  tickets : List (BitVec 16 × Word × Word)
  counts : List (Cnt × Nat)
deriving DecidableEq, Repr

/-! ## The device -/

/-- A pod membership entry (R338): its member bit, its route, its session epoch and its path bound. -/
structure Member where
  dev : BitVec 10
  member : Bool
  ethernet : Bool
  epoch : BitVec 4
  pathBound : BitVec 16
deriving DecidableEq, Repr

/-- A Nysil session context (R340-R342, R374-R376): per phase the keys of both directions, the phase it sends in, when
it last flipped, its numbers and its receive window; `asked` while a rotation that is due has been asked of the stokers. -/
structure Session where
  dev : BitVec 10
  slot : BitVec 6
  cached : Bool
  key0 : Option (BitVec 512)
  key1 : Option (BitVec 512)
  phase : Bool
  idleAcked : Bool
  flipAt : Nat
  erased : Bool
  sendSeq : Nat
  sinceFlip : Nat
  high : Nat
  window : BitVec 1024
  entropy : Nat
  asked : Bool
deriving DecidableEq, Repr

/-- An outstanding request to another device (R342, R343, R345): its session's key slot and its message type (R341), when
it was issued and last sent, the timeout it is judged by, when a retry calls for it again, and whether it is a cancel, which
expects no response and is sent again for a retry alone. -/
structure OutReq where
  id : Nat
  dev : BitVec 10
  slot : BitVec 6
  type : BitVec 7
  issued : Nat
  timeout : Nat
  sent : Nat
  retryAt : Option Nat
  oneWay : Bool
deriving DecidableEq, Repr

/-- A peer's liveness as this device sees it (R345, R346). -/
structure Peer where
  dev : BitVec 10
  lastMsg : Nat
  probed : Nat
  lost : Bool
deriving DecidableEq, Repr

/-- The states of a key slot (R352). -/
inductive SlotState where
  | free | kindled | quenching | retired
deriving DecidableEq, Repr

/-- A key slot (R352, R353): the table entry, and the keys installed at the crypto units. -/
structure KeySlot where
  st : SlotState
  gen : BitVec 16
  test : Bool
  clusters : BitVec 72
  kindleTime : Word
  kenc : Option (BitVec 256)
  kmac : Option (BitVec 256)
deriving DecidableEq, Repr

/-- A space descriptor (R142), with the value of the space's translation-generation word (R153). -/
structure SpaceDesc where
  space : BitVec 16
  mode : BitVec 4
  root : BitVec 44
  genWord : Word
  slot : BitVec 6
  slotGen : BitVec 16
  valid : Bool
  test : Bool
  gen : Word
deriving DecidableEq, Repr

/-- A page that has left HBM (R148, R158), with its GCM tag, the lines
that left poisoned (log 15) and, on NVMe, its drive. -/
structure Trailer where
  space : BitVec 16
  page : Word
  handle : Word
  nonce : BitVec 96
  leaf : Word
  tag : BitVec 128
  poison : List Nat
  drive : Option Nat
deriving DecidableEq, Repr

/-- A launch ring of one PCIe function (R391); `upTo` is the last record that the newest NOTIFY lets the distributor read (R392). -/
structure Ring where
  base : Word
  entries : Nat
  heldBase : Option Word
  heldEntries : Option Nat
  notify : Nat
  upTo : Nat
  consumed : Nat
  refused : Nat
deriving DecidableEq, Repr

/-- A launch as the distributor holds it (R136, R393, R394); `elsewhere` the other devices on which the same instance has
clusters bound (R333, R337, R346), `sources` the homes there whose clusters name the modelled cluster as an export target
(R129). -/
inductive LaunchSt where
  | queued | selected | bound | done
deriving DecidableEq, Repr

structure Launch where
  graph : BitVec 32
  fn : Fin 63
  seqNo : Nat
  st : LaunchSt
  tvec : Word
  part : BitVec 32
  space : BitVec 16
  queue : BitVec 2
  capture : Bool
  replay : Bool
  limit : Nat
  clusters : BitVec 72
  roots : List (Word × Word × BitVec 7 × Bool)
  exports : List (BitVec 7 × BitVec 17)
  hwbase : Word
  wlen : Word
  mirror : Word
  logAt : Word
  logSize : Nat
  prio : BitVec 2
  timed : Option (Fin 256)
  completion : Word
  record : Option (List Byte)
  killing : Option (KillReq × Word)
  elsewhere : List (BitVec 10)
  sources : List (BitVec 17)
deriving DecidableEq, Repr

/-- What the distributor is reading (R392, R393): a launch record, or the tables of one, in 64-byte chunks that arrive by
number; the table entry it reads a template for, with the priority that the entry gave its slot, and how many roots and exports the
tables hold. -/
structure RingRead where
  fn : Fin 63
  timed : Option (Fin 256)
  launch : Option Launch
  roots : Nat
  exports : Nat
  want : Nat
  chunks : List (Nat × Line)
  prio : BitVec 2
deriving DecidableEq, Repr

/-- A launch-table entry (R389). -/
structure LaunchEntry where
  idx : Fin 256
  period : Word
  phase : Word
  template : Word
  enable : Bool
  policy : Bool
  prio : BitVec 2
  pending : Bool
  skips : BitVec 32
  next : Nat
deriving DecidableEq, Repr

/-- A TDISP interface (R384). -/
inductive Tdisp where
  | configUnlocked | configLocked | run | error
deriving DecidableEq, Repr

/-- A certificate slot write held behind a pending challenge (R383). -/
structure HeldCert where
  slot : Fin 8
  cert : List Byte
deriving DecidableEq, Repr

/-- A capture-log entry (R399): the far address of its log, type, task key, ordinal, data; `attempt` is the restart count of the
firing that took it (R400). -/
structure LogEntry where
  graph : BitVec 32
  place : Word
  type : Byte
  key : Word
  attempt : BitVec 7
  ordinal : Nat
  data : List Word
deriving DecidableEq, Repr

/-- A 4 KiB block of a capture log that has been encrypted and written (R399): its log, its index, its nonce and its tag. -/
structure LogBlock where
  place : Word
  idx : Nat
  nonce : BitVec 96
  tag : BitVec 128
deriving DecidableEq, Repr

/-- What the part sends out of the modelled quad: requests, responses and answers (R341), host writes and interrupts
(R394), and the answers of Gorsoica and of management (R377-R384, R403). -/
inductive Msg where
  | readReq (id : Nat) (addr : Word) (space : BitVec 16)
  | readReply (tag : Nat) (r : Reply)
  | register (addr thr : Word) (who : Requester)
  | unregister (addr : Word) (who : Requester)
  | watchEnd (who : Requester) (e : WatchEnd)
  | validate (id : Nat) (sector : BitVec 59) (space : BitVec 16) (fill : BitVec 48)
  | validationAnswer (tag : Nat) (struck : Bool)
  | pageReq (addr : Word) (slot : Fin 16) (tag : BitVec 4)
  | pageReply (tag : Nat) (r : PageReply)
  | pageInWanted (space : BitVec 16) (page : Word)
  | pageOut (space : BitVec 16) (page : Word) (cipher : List Byte)
  | pullReq (ch : Fin 16) (id line member : Nat) (addr : Word)
  | codeReq (addr : Word)
  | probe (dev : BitVec 10)
  | probeAnswer (dev : BitVec 10)
  /-- The acknowledgement of an installed key (R375), and a rotation that the stokers are asked for (R376). -/
  | keyAck (dev : BitVec 10) (slot : BitVec 6)
  | rotate (dev : BitVec 10) (slot : BitVec 6)
  | retry (dev : BitVec 10)
  | again (id : Nat)
  | uaError
  | mirror (addr : Word) (bytes : List Byte)
  | msix (fn : Fin 63)
  /-- A lane read: the records of the lane that the home keeps for `lane` (R129, R341). -/
  | laneReq (id : Nat) (lane : BitVec 17)
  | laneReply (tag : Nat) (count : Nat) (recs : List ContRec)
  | pcieRead (id : Nat) (addr : Word)
  | status (code : Byte)
  | report (words : List Word)
  | challengeAnswer (slot : Fin 8) (cert : List Byte)
  /-- The error response of an IDE_KM message (R377). -/
  | ideError (stream : Fin 64)
  /-- An exported log, encrypted under the tenant's key, with its nonce and its tag (R402). -/
  | log (addr : Word) (nonce : BitVec 96) (cipher : List Byte) (tag : BitVec 128)
  /-- A message to another device, with its header (R340) and, on an Ethernet route, its port (R347). -/
  | nysil (hdr : NysilHdr) (port : Option (BitVec 3)) (m : Msg)
deriving DecidableEq, Repr

/-- The device's time servo (R388): `left` is what slewing has still to add, in thirds of a ps. -/
structure Servo where
  lock : Bool
  slew : Bool
  offset : Int
  left : Int
  losses : Nat
  domain : Byte
deriving DecidableEq, Repr

/-- Home 127 of the device, the package service home: its walker's TLB with the spaces whose words it watches, and those that the
sluice has refused it (R153, R419), its GEN (R188), its sluice (R189) and its
residency tickets (R152). Its bytes stand in the control carve-outs of HBM. -/
structure Service where
  tlb : List TlbEntry
  tlbGens : List (BitVec 16 × Word)
  tlbRefused : List (BitVec 16)
  gen : BitVec 48
  sluice : List SluiceEntry
  pending : List SluiceEntry
  pageWord : Word
  ticketNext : Word
  tickets : List (BitVec 16 × Word × Word)
deriving DecidableEq, Repr

/-- The modelled device. `marked` is the device whose request, being handled, its switch plane marked congested (R344);
`pcie` the host reads that are outstanding, with the clk of their timeout (R348); `deviceKey` and `aliasKey` the keys of
R381; `measured` and `versions` the hashes and security versions of the images that run (R379); `challenges` the pending ones with
the contents of their slots (R383); `ide` the keys programmed by stream and set, `ideOn` the set in use of each stream that is in
the secure state (R373). -/
structure Device where
  clk : Nat
  time : Nat
  third : Nat
  servo : Servo
  id : BitVec 10
  booted : Bool
  inert : Bool
  bootLog : List (Fin 9 × Fin 9)
  linksUp : List (Fin 9 × Fin 9)
  measured : List (BitVec 256)
  versions : List Nat
  capbase : Word
  members : List Member
  peers : List Peer
  timeout : Nat
  reqs : List OutReq
  sessions : List Session
  slots : Vector KeySlot 64
  drawn : Nat
  spaces : List SpaceDesc
  trailers : List Trailer
  nonces : List (BitVec 6 × Word)
  debug : Bool
  tdisp : List (BitVec 6 × Tdisp)
  reports : List (BitVec 6)
  quenchBy : List (BitVec 6 × QuenchBy)
  certs : Vector (List Byte) 8
  challenges : List (Fin 8 × List Byte)
  heldCerts : List HeldCert
  ide : List (Fin 64 × Bool × BitVec 256)
  ideOn : List (Fin 64 × Bool)
  rings : Vector Ring 63
  graphNext : BitVec 32
  queuePrio : Vector (BitVec 2) 4
  queues : Vector (List Launch) 4
  launches : List Launch
  reads : List RingRead
  table : List LaunchEntry
  log : List LogEntry
  logFull : List Word
  logBlocks : List LogBlock
  staged : Option (List Byte)
  badDrives : List Nat
  throttle : Nat
  svc : Service
  marked : Option (BitVec 10)
  pcie : List (Nat × Nat)
  deviceKey : Option (BitVec 256)
  aliasKey : Option (BitVec 256)
deriving DecidableEq, Repr

/-- The quad's shared units: the vector unit's last grant (R289) and the clk from which it may grant again; the code
lines that a core has asked for (R24), the clk at which one's own home delivers a line (R113), and the requests that
failed. -/
structure QuadUnits where
  lastGrant : BitVec 2
  vecFreeAt : Nat
  icMiss : List (BitVec 2 × Word)
  icDue : List (Word × Nat)
  icBad : List (BitVec 2 × Word × LineReply)
deriving DecidableEq, Repr

/-- The whole state. `core` is the core whose group is issued next; `mates` are the other three cores of its quad.
`mem` holds bytes by key (`Ops.lean` gives the key of each space); `icache` the fetch lines of the quad; `agenda` the
steps that outside parties and the part's own units make next, in order; `free` counts the free values taken. -/
structure State where
  core : Core
  mates : List Core
  quadNo : BitVec 3
  clusterNo : BitVec 7
  quad : QuadUnits
  cl : Cluster
  dev : Device
  mem : List Host.Cell
  icache : List (Word × Line)
  outbox : List Msg
  agenda : List Instr
  free : Nat
deriving DecidableEq, Repr

/-! ## Reset -/

/-- An empty continuation record. -/
def ContRec.none : ContRec :=
  { code := 0, frame := 0, join := 0, prio := 0, wide := false, timed := false, resumable := false, actor := false,
    restarts := 0, graph := 0, space := 0, key := 0, image := 0, sid := 0 }

/-- The registers at firing start (R37). -/
def Regs.zero : Regs :=
  { n := Vector.replicate 32 0, v := Vector.replicate 32 0, m := Vector.replicate 8 0,
    tm := Vector.replicate 8 Option.none, lc := Vector.replicate 8 0 }

/-- Entries a bank keeps: q1-q16, and eight that have just left it, which the group offset of R28 can still name. -/
def bankDepth : Nat := 24

/-- A queue bank of arrived zeros (R37, R42). -/
def zeroBank : List QEntry := List.replicate bankDepth (.arrived 0)

/-- A slice as a gang finds it: BF16 +0 in every cell (R264). -/
def Slice.zero : Slice :=
  { fmt := .bf16, cols := Vector.replicate 64 0, scales := Vector.replicate 64 0, poisoned := false, hist := [] }

/-- A FREE watch slot (R192). -/
def WSlot.free : WSlot :=
  { st := .free, addr := 0, thr := 0, tag := 0, value := 0, gen := 0, cause := 0, page := Option.none }

/-- No group in progress. -/
def Grp.none : Grp := { live := false, issued := false, first := 0, line := Option.none, off := 0, sp := 0, clk := 0, off0 := 0, commits := 0, xfer := Option.none }

/-- The trap registers at firing start (R321). -/
def TrapRegs.zero : TrapRegs :=
  { cause := 0, ret := 0, tval := 0, written := false, dsts := [], word := Option.none, last := false, xfer := Option.none }

/-- An idle core, every register at its firing-start value (R37) for a partition word of zero. -/
def Core.idle (k : BitVec 2) : Core :=
  { num := k, status := .idle, task := ContRec.none, number := 0, started := 0, pc := 0, issueAt := 0,
    mark := .none, entry := Option.none, level := 0, bank0 := zeroBank, bank1 := zeroBank, bank2 := zeroBank,
    regs := Regs.zero, pre := Regs.zero, grp := Grp.none, sp := 0, spbase := 0, splim := 0, spill := [],
    trap1 := TrapRegs.zero, trap2 := TrapRegs.zero, fstat := 0, prt := [], fallbacks := 0,
    slots := Vector.replicate 16 WSlot.free, commit := [], nonRestart := false, spawned := 0,
    ag := Vector.replicate 4 [], pend := [], owed := [], faults := [], savedFaults := [], acc := [], far := [],
    writeFault := Option.none, vq := [], vqFull := false, mq := [], sb := [], mmaCount := 0, heldMma := Option.none, ended := Option.none,
    pgreqs := [], pulls := [], owned := [], vecNew := (0, [], []), spillAt := 0, mflags := [], slice := Slice.zero, accum := [], wild := [], wait := [], preempt := false,
    brk := Option.none }

/-- A channel at binding (R240). -/
def Chan.zero : Chan := { next := 0, xfers := [], faulted := [], ends := [] }

/-- The cluster after package reset: nothing bound, caches empty, GEN and the eviction floor 0. -/
def Cluster.reset : Cluster :=
  { part := 0, bound := Option.none, poison := [], zeroAt := 0, placing := Option.none, cellPoison := [], gen := 0, tagBase := 0, nearTags := [], evFloor := 0, nc := [],
    llc := [], tlb := [], tlbGens := [], tlbRefused := [], modes := [], hbmPoison := [], basin := [], floors := [], sluice := [],
    pendingRegs := [], chans := Vector.replicate 16 Chan.zero, postAt := 0, postCh := Vector.replicate 4 15, relAt := 0, banks := [], lateReads := [],
    lists := Vector.replicate 4 [], waiting := [],
    watches := [], overflow := [], lanes := [], consumed := [], nextId := 0, nextFiring := 1, reserved := false,
    aging := #v[0, 4000000, 4000000, 0], images := [], majors := [], roots := [], metaCache := [],
    mig := Option.none, replayed := [], pageWord := 0, ticketNext := 0,
    tickets := [], counts := [] }

/-- A key slot after package reset (R352). -/
def KeySlot.reset : KeySlot :=
  { st := .free, gen := 0, test := false, clusters := 0, kindleTime := 0, kenc := Option.none, kmac := Option.none }

/-- A launch ring after package reset (R391). -/
def Ring.reset : Ring :=
  { base := 0, entries := 1, heldBase := Option.none, heldEntries := Option.none, notify := 0, upTo := 0, consumed := 0,
    refused := 0 }

/-- Home 127 after package reset. -/
def Service.reset : Service := { tlb := [], tlbGens := [], tlbRefused := [], gen := 0, sluice := [], pending := [], pageWord := 0, ticketNext := 0, tickets := [] }

/-- The device after package reset, before the boot of R396. -/
def Device.reset : Device :=
  { clk := 0, time := 0, third := 0, servo := { lock := false, slew := false, offset := 0, left := 0, losses := 0, domain := 0 },
    id := 0, booted := false, inert := false, bootLog := [], linksUp := [], measured := [], versions := [], capbase := 0, members := [], peers := [],
    timeout := 50000, reqs := [], sessions := [], slots := Vector.replicate 64 KeySlot.reset, drawn := 0, spaces := [],
    trailers := [], nonces := [], debug := false, tdisp := [], reports := [], quenchBy := [], certs := Vector.replicate 8 [],
    challenges := [], heldCerts := [], ide := [], ideOn := [], rings := Vector.replicate 63 Ring.reset, graphNext := 1,
    queuePrio := #v[0, 1, 2, 3], queues := Vector.replicate 4 [], launches := [], reads := [], table := [], log := [],
    logFull := [], logBlocks := [], staged := Option.none, badDrives := [], throttle := 0, svc := Service.reset, marked := Option.none, pcie := [],
    deviceKey := Option.none, aliasKey := Option.none }

/-- The machine right after package reset: no firing runs, nothing is bound, memory lists nothing. -/
def State.reset : State :=
  { core := Core.idle 0, mates := [Core.idle 1, Core.idle 2, Core.idle 3], quadNo := 0, clusterNo := 0,
    quad := { lastGrant := 3, vecFreeAt := 0, icMiss := [], icDue := [], icBad := [] }, cl := Cluster.reset, dev := Device.reset, mem := [], icache := [],
    outbox := [], agenda := [], free := 0 }

end Sys2Proof.Machine
end

