-- ==== Sys2Proof/Machine/Ops.lean ====
section
/-! DEFINITION. The operations every meaning is written over: memory in its canonical form, the queue and the registers,
results that arrive later, taking a trap and asking for a kill, and the small accessors of the partition word and of far
addresses. -/

namespace Sys2Proof.Machine

/-- What a meaning answers. -/
abbrev Out := Host.Outcome State Fault Refusal

/-! ## Memory

Bytes are kept by key: near-window offset `o` of this cluster under `o`, physical address `a` of this device's HBM under
2^70 + a. Pool bytes that no offset reaches (registers, accumulators, spill) have homes of their own in `Core`. -/

/-- What a byte that nothing has written reads as (log 3). -/
def unlisted : Byte := 0

/-- The canonical form: keys strictly rising from `lo`, no cell equal to what an unlisted one reads as. -/
def Mem.wfFrom : Nat → List Host.Cell → Bool
  | _, [] => true
  | lo, (k, b) :: r => decide (lo ≤ k) && (b != unlisted) && Mem.wfFrom (k + 1) r

/-- A memory in canonical form. -/
def Memory.wf (m : List Host.Cell) : Bool := Mem.wfFrom 0 m

/-- One byte read. -/
def Mem.read : List Host.Cell → Nat → Byte
  | [], _ => unlisted
  | (k, b) :: r, a => if a < k then unlisted else if a = k then b else Mem.read r a

/-- One byte written; the canonical form is kept. -/
def Mem.write : List Host.Cell → Nat → Byte → List Host.Cell
  | [], a, x => if x = unlisted then [] else [(a, x)]
  | (k, b) :: r, a, x =>
    if a < k then if x = unlisted then (k, b) :: r else (a, x) :: (k, b) :: r
    else if a = k then if x = unlisted then r else (a, x) :: r
    else (k, b) :: Mem.write r a x

/-- `n` bytes from `a`, in increasing address order. -/
def Mem.bytes (m : List Host.Cell) : Nat → Nat → List Byte
  | _, 0 => []
  | a, n + 1 => Mem.read m a :: Mem.bytes m (a + 1) n

/-- Bytes written from `a` upward. -/
def Mem.writeBytes (m : List Host.Cell) (a : Nat) : List Byte → List Host.Cell
  | [] => m
  | b :: bs => Mem.writeBytes (Mem.write m a b) (a + 1) bs

/-- The little-endian number of a byte list (R3). -/
def leNat : List Byte → Nat
  | [] => 0
  | b :: bs => b.toNat + 256 * leNat bs

/-- The low `n` bytes of a number, little-endian. -/
def leBytes : Nat → Nat → List Byte
  | 0, _ => []
  | n + 1, v => BitVec.ofNat 8 v :: leBytes n (v / 256)

/-- An `n`-byte number read. -/
def Mem.nat (m : List Host.Cell) (a n : Nat) : Nat := leNat (Mem.bytes m a n)

/-- A 64-bit word read. -/
def Mem.word (m : List Host.Cell) (a : Nat) : Word := BitVec.ofNat 64 (Mem.nat m a 8)

/-- A 64-bit word written. -/
def Mem.setWord (m : List Host.Cell) (a : Nat) (v : Word) : List Host.Cell := Mem.writeBytes m a (leBytes 8 v.toNat)

/-- The key of physical address `a` of HBM. -/
def hbmKey (a : Nat) : Nat := 2 ^ 70 + a

/-! ## The partition word (R161, R162) -/

/-- N, the vector registers allotted. -/
def partN (p : BitVec 32) : Nat := (p.extractLsb' 0 6).toNat

/-- A, the accumulator granules allotted. -/
def partA (p : BitVec 32) : Nat := (p.extractLsb' 8 6).toNat

/-- S, the spill size in 4 KiB units. -/
def partS (p : BitVec 32) : Nat := (p.extractLsb' 16 4).toNat

/-- P, the scratch bytes of a pool. -/
def partP (p : BitVec 32) : Nat := 1048576 - 256 * partN p - 16384 * partA p - 4096 * partS p

/-- A partition word the distributor accepts. -/
def partOk (p : BitVec 32) : Bool :=
  decide (partN p ≤ 32) && decide (partA p ≤ 48) && (p.extractLsb' 6 2 == 0#2) && (p.extractLsb' 14 2 == 0#2) &&
    (p.extractLsb' 20 12 == 0#12)

/-- Bytes of the live near window (R141). -/
def State.liveNear (s : State) : Nat := 32 * partP s.cl.part

/-! ## Addresses -/

/-- Bits [63:57] replicate bit 56. -/
def canonical (x : Word) : Bool := x.extractLsb' 57 7 == (if x.getLsbD 56 then 0x7F#7 else 0#7)

/-- The 17-bit home of a far address. -/
def homeOf (x : Word) : BitVec 17 := x.extractLsb' 40 17

/-- The 40-bit offset of a far address. -/
def offOf (x : Word) : BitVec 40 := x.extractLsb' 0 40

/-- The canonical far address of an offset in a home. -/
def farAddr (h : BitVec 17) (o : BitVec 40) : Word := (h ++ o : BitVec 57).signExtend 64

/-- The home of the modelled cluster. -/
def State.home (s : State) : BitVec 17 := s.dev.id ++ s.clusterNo

/-- Home 127 of the modelled device, the package service home (R138). -/
def State.service (s : State) : BitVec 17 := s.dev.id ++ 127#7

/-- CLK as a word. -/
def State.clk (s : State) : Word := BitVec.ofNat 64 s.dev.clk

/-! ## Updates by part -/

def State.setCore (s : State) (c : Core) : State := { s with core := c }
def State.setCl (s : State) (c : Cluster) : State := { s with cl := c }
def State.setDev (s : State) (d : Device) : State := { s with dev := d }
def State.setMem (s : State) (m : List Host.Cell) : State := { s with mem := m }

/-- A message to another party. -/
def State.send (s : State) (m : Msg) : State := { s with outbox := s.outbox ++ [m] }

/-- A step the part's own units make next. -/
def State.queue (s : State) (i : Instr) : State := { s with agenda := s.agenda ++ [i] }

/-- A fresh id; ids rise in program order. -/
def State.id (s : State) : Nat := s.cl.nextId

/-- The state after the id `s.id` is taken. -/
def State.takeId (s : State) : State := { s with cl := { s.cl with nextId := s.cl.nextId + 1 } }

/-- One free value taken. -/
def State.takeFree (s : State) : State := { s with free := s.free + 1 }

/-- The width of a count in its status block: 64 bits, but 32 for the losses of peers (R350). -/
def Cnt.width (k : Cnt) : Nat := if k = .peersLost then 32 else 64

/-- Adds to a count, modulo its width, in a list that names each count once. -/
def addCount (k : Cnt) (n : Nat) : List (Cnt × Nat) → List (Cnt × Nat)
  | [] => [(k, n % 2 ^ k.width)]
  | (j, m) :: r => if j = k then (j, (m + n) % 2 ^ k.width) :: r else (j, m) :: addCount k n r

/-- The value of a count. -/
def countOf (k : Cnt) : List (Cnt × Nat) → Nat
  | [] => 0
  | (j, m) :: r => if j = k then m else countOf k r

/-- Adds `n` to a count of the status blocks. -/
def State.count (s : State) (k : Cnt) (n : Nat) : State := { s with cl := { s.cl with counts := addCount k n s.cl.counts } }

/-- The cores of the quad. -/
def State.cores (s : State) : List Core := s.core :: s.mates

/-- Brings the first core that meets `p` into focus; which core is in focus is no state of the machine. -/
def focusGo (p : Core → Bool) (c : Core) (seen : List Core) : List Core → Option (Core × List Core)
  | [] => none
  | d :: r => if p d then some (d, c :: seen.reverse ++ r) else focusGo p c (d :: seen) r

def State.focus (s : State) (p : Core → Bool) : Option State :=
  if p s.core then some s
  else (focusGo p s.core [] s.mates).map fun x => { s with core := x.1, mates := x.2 }

/-- Applies `f` to every core of the quad. -/
def State.mapCores (s : State) (f : Core → Core) : State := { s with core := f s.core, mates := s.mates.map f }

/-! ## The capture log (R399) -/

/-- The far address of a launch's log. -/
def State.logPlace (s : State) (g : BitVec 32) : Word := ((s.dev.launches.find? fun l => l.graph == g).map (·.logAt)).getD 0

/-- The launch that the firings of the modelled cluster belong to captures. -/
def State.capturing (s : State) : Bool :=
  match s.cl.bound with
  | some b => b.capture && !s.dev.logFull.contains (s.logPlace b.graph)
  | none => false

/-- Bytes that the log of a launch holds: a 16-byte header and the data of each entry. -/
def State.logBytes (s : State) (g : BitVec 32) : Nat :=
  ((s.dev.log.filter fun e => e.graph == g).map fun e => 16 + 8 * e.data.length).sum

/-- The room of a launch's log. -/
def State.logRoom (s : State) (g : BitVec 32) : Nat := ((s.dev.launches.find? fun l => l.graph == g).map (·.logSize)).getD 0

/-- The restart count of the firing that runs under a task key (R133, R400). -/
def State.attemptOf (s : State) (key : Word) : BitVec 7 :=
  ((s.cores.find? fun c => c.status != .idle && c.task.key == key).map (·.task.restarts)).getD 0

/-- An outside input appended for the bound launch; a full log stops the capture. Its ordinal counts the inputs of its firing's
attempt: a restarted firing begins again, and the launch record is no firing's input (R399, R400). -/
def State.capture (s : State) (type : Byte) (key : Word) (data : List Word) : State :=
  match s.cl.bound with
  | none => s
  | some b =>
    if !s.capturing then s
    else
      let a := s.attemptOf key
      let n := (s.dev.log.filter fun e => e.key == key && e.graph == b.graph && e.type != 1 && e.attempt == a).length
      let e : LogEntry :=
        { graph := b.graph, place := s.logPlace b.graph, type := type, key := key, attempt := a, ordinal := n, data := data }
      if s.logRoom b.graph < s.logBytes b.graph + 16 + 8 * data.length then
        s.setDev { s.dev with logFull := s.dev.logFull ++ [s.logPlace b.graph] }
      else s.setDev { s.dev with log := s.dev.log ++ [e] }

/-! ## Replay (R401) -/

/-- The firings of the modelled cluster belong to a replay. -/
def State.replaying (s : State) : Bool := (s.cl.bound.map (·.replay)).getD false

/-- The entries of the replayed log, by index. -/
def State.replayLog (s : State) : List (LogEntry × Nat) :=
  match s.cl.bound with
  | some b => (s.dev.log.filter fun e => e.place == s.logPlace b.graph).zipIdx
  | none => []

/-- The entries from the last of ordinal 0 on: those of a firing's last attempt (R400). -/
def lastAttempt : List (LogEntry × Nat) → List (LogEntry × Nat)
  | [] => []
  | e :: r => if r.any fun x => x.1.ordinal == 0 then lastAttempt r else e :: r

/-- The entries of a firing, by its task key; the launch record is none of them. -/
def State.replayOf (s : State) (key : Word) : List (LogEntry × Nat) :=
  lastAttempt (s.replayLog.filter fun e => e.1.key == key && e.1.type != 1)

/-- Those that no input has taken yet. -/
def State.replayLeft (s : State) (key : Word) : List (LogEntry × Nat) :=
  (s.replayOf key).filter fun e => !s.cl.replayed.contains e.2

/-- The firing's next entry. -/
def State.replayNext (s : State) (key : Word) : Option (LogEntry × Nat) := (s.replayLeft key).head?

/-- A restarted firing takes its inputs from its first entry again (R400). -/
def State.rewind (s : State) (key : Word) : State :=
  s.setCl { s.cl with replayed := s.cl.replayed.filter fun i => !(s.replayOf key).any fun e => e.2 == i }

/-- An entry is a read of an address. -/
def LogEntry.reads (e : LogEntry) (type : Byte) (x : Word) : Bool := e.type == type && e.data.head? == some x

/-- An entry is the input: a read is known by its address, any other input by all of its data. -/
def LogEntry.fits (e : LogEntry) (type : Byte) (data : List Word) : Bool :=
  if type = 2 ∨ type = 3 then e.type == type && e.data.head? == data.head? else e.type == type && e.data == data

/-- The entry that an input of a type is held against: a trap, which comes at the firing's own time and at no order among the
replies of its engine commands, the next trap's; any other input the firing's next (log 37). -/
def State.replayFor (s : State) (key : Word) (type : Byte) : Option (LogEntry × Nat) :=
  if type = 7 then (s.replayLeft key).find? fun e => e.1.type == 7 else s.replayNext key

/-! ## The result queue and the registers -/

/-- The bank of a trap level (R42). -/
def Core.bank (c : Core) : Nat → List QEntry
  | 0 => c.bank0
  | 1 => c.bank1
  | _ => c.bank2

def Core.setBank (c : Core) (l : Nat) (b : List QEntry) : Core :=
  match l with
  | 0 => { c with bank0 := b }
  | 1 => { c with bank1 := b }
  | _ => { c with bank2 := b }

/-- Applies `f` to every queue entry of every bank. -/
def Core.mapBanks (c : Core) (f : QEntry → QEntry) : Core :=
  { c with bank0 := c.bank0.map f, bank1 := c.bank1.map f, bank2 := c.bank2.map f }

/-- A push (R39): the newest entry of the current level's bank; the names of the others move on by one. -/
def Core.push (c : Core) (e : QEntry) : Core :=
  let c' := c.setBank c.level ((e :: c.bank c.level).take bankDepth)
  { c' with grp := { c'.grp with off := c'.grp.off + 1 } }

/-- The registers as a slot reads them: in a group, as they stood before it (R26). -/
def Core.view (c : Core) : Regs := if c.grp.live then c.pre else c.regs

/-- Entry qk as a slot names it: counted from the queue as it stood before the group (R26, R28). -/
def Core.entryAt (c : Core) (k : Nat) : QEntry := (c.bank c.level).getD (k - 1 + c.grp.off) (.arrived 0)

/-- A register is no longer faulted once it is written. -/
def Core.clearFault (c : Core) (d : Dest) : Core := { c with faults := c.faults.filter fun x => x.1 != d }

def Core.setN (c : Core) (r : Fin 32) (v : Word) : Core :=
  { c.clearFault (.n r) with regs := { c.regs with n := c.regs.n.set r v } }

def Core.setM (c : Core) (k : Fin 8) (v : Word) : Core :=
  { c.clearFault (.m k) with regs := { c.regs with m := c.regs.m.set k v } }

def Core.setV (c : Core) (r : Fin 32) (v : VReg) : Core :=
  { c.clearFault (.v r) with regs := { c.regs with v := c.regs.v.set r v } }

def Core.setTm (c : Core) (k : Fin 8) (d : BitVec 512) : Core :=
  { c.clearFault (.tm k) with regs := { c.regs with tm := c.regs.tm.set k (some d) } }

def Core.setLc (c : Core) (k : Fin 8) (v : BitVec 32) : Core := { c with regs := { c.regs with lc := c.regs.lc.set k v } }

/-- A register written with a scalar; a register of another kind is left alone. -/
def Core.setDest (c : Core) (d : Dest) (v : Word) : Core :=
  match d with
  | .n r => c.setN r v
  | .m k => c.setM k v
  | .lc k => c.setLc k (v.setWidth 32)
  | .v _ => c
  | .tm _ => c
  | .gone => c

/-- D of a scalar result. -/
def dstOf (d : NDst) : Option Dest := d.map .n

def Core.setOpt (c : Core) (d : Option Dest) (v : Word) : Core :=
  match d with
  | some r => c.setDest r v
  | none => c

/-- A result that is readable by the next group (R51, R59): pushed, and written to D. -/
def State.result (s : State) (d : NDst) (v : Word) : State := s.setCore ((s.core.setOpt (dstOf d) v).push (.arrived v))

/-- The queue position and the registers of a result that arrives later (R40, R41), under the id `s.id`. -/
def State.owe (s : State) (push : Bool) (ds : List Dest) : State :=
  let c := { s.core with owed := s.core.owed ++ ds.map fun d => (s.id, d) }
  (s.setCore (if push then c.push (.pending s.id) else c)).takeId

/-- A computed result that arrives at `due`. -/
def State.resultAt (s : State) (d : NDst) (kind : PendKind) (v : Word) (flags : BitVec 5) (due : Nat) : State :=
  let p : Pend := { id := s.id, kind := kind, value := .scalar v, flags := flags, due := due }
  (s.setCore { s.core with pend := s.core.pend ++ [p] }).owe true (dstOf d).toList

/-- What a pending entry of id `id` becomes. -/
def QEntry.settle (id : Nat) (e' : QEntry) : QEntry → QEntry
  | .pending j => if j = id then e' else .pending j
  | .arrived v => .arrived v
  | .faulted f => .faulted f

/-- The registers owed to an id, in order. -/
def Core.owedTo (c : Core) (id : Nat) : List Dest := (c.owed.filter fun x => x.1 == id).map (·.2)

/-- Vector registers written in order; one that a later slot has written is passed over (R26). -/
def Core.setVs (c : Core) : List Dest → List VReg → Core
  | .v r :: ds, x :: xs => (c.setV r x).setVs ds xs
  | _ :: ds, _ :: xs => c.setVs ds xs
  | _, _ => c

/-- Results older than `id` no longer write these registers: a later slot of their group has written them (R26). -/
def Core.outdate (c : Core) (id : Nat) (ds : List Dest) : Core :=
  { c with owed := c.owed.map fun x => if decide (x.1 < id) && ds.contains x.2 then (x.1, .gone) else x }

/-- A result's arrival (R40): its entry, if still in the queue, and the registers owed to it. -/
def Core.deliver (c : Core) (id : Nat) (val : PVal) : Core :=
  let ds := c.owedTo id
  let c := ({ c with owed := c.owed.filter fun x => x.1 != id }).outdate id ds
  match val with
  | .scalar v => ds.foldl (fun c d => c.setDest d v) (c.mapBanks (QEntry.settle id (.arrived v)))
  | .vec vs => c.setVs ds vs
  | .mask bits written =>
    ds.foldl (fun c d =>
      match d with
      | .m k => c.setM k ((c.regs.m[k] &&& ~~~written) ||| (bits &&& written))
      | _ => c) c
  | .tmap x =>
    ds.foldl (fun c d =>
      match d with
      | .tm k => c.setTm k x
      | _ => c) c

/-- A result that turns out faulted (R218): its entry and its registers are marked. An older result that is still on its way no
longer writes them: the faulted read's slot is the later one (R26, R41). -/
def Core.markFault (c : Core) (f : FaultInfo) : Core :=
  let ds := c.owedTo f.id
  ({ c.mapBanks (QEntry.settle f.id (.faulted f)) with
    owed := c.owed.filter fun x => x.1 != f.id
    faults := (c.faults.filter fun x => !ds.contains x.1) ++ ds.map fun d => (d, f) } : Core).outdate f.id ds

/-- A register is busy while a result is owed to it (R41). -/
def Core.busy (c : Core) (d : Dest) : Bool := c.owed.any fun x => x.2 == d

/-- Flags merged into FSTAT (R87). -/
def Core.mergeFlags (c : Core) (f : BitVec 5) : Core := { c with fstat := c.fstat ||| f }

/-! ## Stalls, traps and kills -/

/-- The slot cannot issue yet; nothing else changes (R26). -/
def stall (s : State) : Out := .next (s.setCore { s.core with mark := .stalled })

/-- CAUSE as R322 lays it out: cause, group offset and the flag bits. -/
def causeWord (cause : Byte) (off : Nat) (flags : Word) : Word :=
  flags ||| BitVec.ofNat 64 (256 * (off % 8)) ||| cause.setWidth 64

/-- CAUSE[11], CAUSE[12] and CAUSE[13] (R322). -/
def flagStart : Word := 0x800
def flagDeferred : Word := 0x1000
def flagWrite : Word := 0x2000

/-- The trap registers of level 1 or 2. -/
def Core.trapRegs (c : Core) (l : Nat) : TrapRegs := if l = 1 then c.trap1 else c.trap2

def Core.setTrapRegs (c : Core) (l : Nat) (t : TrapRegs) : Core :=
  if l = 1 then { c with trap1 := t } else { c with trap2 := t }

/-- TVEC of the bound launch (R321). -/
def State.tvec (s : State) : Word :=
  match s.cl.bound with
  | some b => b.tvec
  | none => 0

/-- Bits [21:12] device, [11:5] cluster, [4:2] quad, [1:0] core (R334). -/
def State.locOf (s : State) (core : BitVec 2) : BitVec 32 :=
  (s.dev.id ++ s.clusterNo ++ s.quadNo ++ core : BitVec 22).setWidth 32

/-- A kill request that the firing in focus gives rise to at a trap level (R421). -/
def State.levelKill (s : State) (origin cause undelivered : Byte) (tval : Word) : KillReq :=
  { graph := s.core.task.graph, cause := cause, origin := origin, undelivered := undelivered, firing := s.core.number,
    loc := s.locOf s.core.num, tval := tval, tval1 := s.core.trap1.tval, tval2 := s.core.trap2.tval,
    ret := if origin = 2 then s.core.trap2.ret else s.core.trap1.ret }

/-- A kill request from the scheduler, the stokers, the distributor or a commit: bytes 32-55 are zero, and the location is
the firing's, the scheduler's cluster or this device (R421). -/
def State.plainKill (s : State) (graph : BitVec 32) (origin cause : Byte) (byFiring : Bool) (tval : Word) : KillReq :=
  { graph := graph, cause := cause, origin := origin, undelivered := 0, firing := if byFiring then s.core.number else 0,
    loc := if byFiring then s.locOf s.core.num
      else (s.dev.id ++ (if origin = 3 then s.clusterNo else 0) ++ (0#5) : BitVec 22).setWidth 32,
    tval := tval, tval1 := 0, tval2 := 0, ret := 0 }

/-- The request goes to the kill sequencer (R333). -/
def State.askKill (s : State) (r : KillReq) : State := s.queue (.kill r)

/-- The kill of a replay whose input differs from its log (R401). -/
def State.mismatch (s : State) (key : Word) : KillReq :=
  s.plainKill ((s.cl.bound.map (·.graph)).getD 0) 4 0x18 false
    (BitVec.ofNat 64 (((s.replayLeft key).head?.map (·.2)).getD s.replayLog.length))

/-- An outside input of a firing: appended by a capture, taken from its log by a replay (R399, R401). -/
def State.input (s : State) (type : Byte) (key : Word) (data : List Word) : State :=
  if !s.replaying then s.capture type key data
  else
    match (s.replayFor key type).filter fun e => e.1.fits type data with
    | some e => s.setCl { s.cl with replayed := e.2 :: s.cl.replayed }
    | none => s.askKill (s.mismatch key)

/-- The firing in focus issues nothing more; its launch is being killed. -/
def State.haltCore (s : State) : State :=
  s.setCore { s.core with status := .stopping, grp := Grp.none, wait := [], mark := .none }

/-- A trap raised at TL2, or a failed entry check into TL2 (R318). -/
def undeliverable (s : State) (origin cause : Byte) (tval : Word) : State :=
  (s.askKill (s.levelKill origin 0x17 cause tval)).haltCore

/-- The line that a code pointer's slot was taken from: the group's own, or the instruction cache's. -/
def State.heldLine (s : State) (cp : Word) : Option Line :=
  s.core.grp.line <|> (s.icache.find? fun x => x.1 == cp &&& ~~~0x3F).map (·.2)

/-- The trap registers that an entry writes: CAUSE, RET and TVAL, and what TRET needs of the slot at RET: its word,
whether a stop follows it, and the group's pending transfer (R27, R320). -/
def State.trapState (s : State) (cause : Byte) (tval ret : Word) (off : Nat) (flags : Word) : TrapRegs :=
  let k := (ret.extractLsb' 0 3).toNat
  let l := s.heldLine ret
  { cause := causeWord cause off flags, ret := ret, tval := tval, written := false, dsts := []
    word := l.map fun l => l.extractLsb' (96 * k) 96
    last := l.any fun l => decide (4 ≤ k) || l.getLsbD (480 + 5 + k)
    xfer := s.core.grp.xfer }

/-- Entry to level L+1 (R316): CAUSE, RET and TVAL of the new level, its bank of arrived zeros, and the transfer to TVEC
or TVEC + 64, which is checked when the core is about to run it (R107 steps 2, 4, 5). -/
def enterLevel (s : State) (l : Nat) (cause : Byte) (tval ret : Word) (off : Nat) (flags : Word) : State :=
  let c := s.core.setTrapRegs (l + 1) (s.trapState cause tval ret off flags)
  let c := c.setBank (l + 1) zeroBank
  let s := s.setCore
    { c with level := l + 1, pc := if l = 0 then s.tvec else s.tvec + 64, entry := some .trap,
             issueAt := s.dev.clk + 4, grp := Grp.none, mark := .none }
  s.input 0x07 s.core.task.key [cause.setWidth 64, tval]

/-- TAKING A TRAP (R316, R318): the one operation for every cause. `ret` is the code pointer that RET records, `off` the
group offset of R28, `flags` the bits [20:11] of CAUSE. -/
def takeTrap (s : State) (cause : Byte) (tval ret : Word) (off : Nat) (flags : Word) : State :=
  match s.core.level with
  | 0 => enterLevel s 0 cause tval ret off flags
  | 1 => enterLevel s 1 cause tval ret off flags
  | _ => undeliverable s 2 cause tval

/-- A trap charged to the slot at the code pointer (R28). -/
def State.trap (s : State) (cause : Byte) (tval : Word) : State := takeTrap s cause tval s.core.pc s.core.grp.off 0

/-- TVAL of the traps that record the instruction: bits [95:32] of its word (R30, R315). -/
def tvalBits (i : Instr) : Word :=
  match encode i with
  | some w => w.extractLsb' 32 64
  | none => 0

/-- Trap 0x16: not legal at this level. -/
def State.privilege (s : State) (i : Instr) : State := s.trap 0x16 (tvalBits i)

/-- Where a faulted read's entry stands: CAUSE[20:16] (R322). -/
def faultPos (id : Nat) : Nat → List QEntry → Word
  | _, [] => 0
  | k, .faulted f :: r => if f.id = id ∧ k < 16 then BitVec.ofNat 64 (0x100000 + 0x10000 * k) else faultPos id (k + 1) r
  | k, .arrived _ :: r => faultPos id (k + 1) r
  | k, .pending _ :: r => faultPos id (k + 1) r

/-- A trap 0x0C that a local access raises is counted (R174). -/
def State.countPoison (s : State) (cause : Byte) : State :=
  if cause = 0x0C ∧ s.core.level < 2 then s.count .poisonedLoads 1 else s

/-- The deferred trap of a faulted read (R218), one row of an ARD at a time (R282): charged to the first slot of the group that met it; the entry and its
register read zero from then on, but for a tensor map, which keeps its previous contents (R285). A register that a later slot of
the read's group is still to write is not TRET.V's to replace (R26, R320). -/
def State.deferredTrap (s : State) (f : FaultInfo) : State :=
  let c := s.core
  let pos := faultPos f.id 0 ((c.bank c.level).drop c.grp.off)
  let clear : QEntry → QEntry := fun e =>
    match e with
    | .faulted g => if g = f then .arrived 0 else e
    | .arrived _ => e
    | .pending _ => e
  let ds := (c.faults.filter fun x => x.2 == f).map (·.1)
  let owed := c.owed.map (·.2)
  let c := { c.mapBanks clear with
    faults := c.faults.filter fun x => x.2 != f, savedFaults := c.savedFaults.filter fun x => x.1 != f }
  let c := ds.foldl (fun c d =>
    match d with
    | .v r => c.setV r 0
    | .n r => c.setN r 0
    | .m k => c.setM k 0
    | .tm _ => c
    | .lc _ => c
    | .gone => c) c
  let l := c.level
  let s := if f.isLocal then s.countPoison f.cause else s
  let s := takeTrap (s.setCore c) f.cause f.tval (if c.grp.live then c.grp.first else c.pc) c.grp.off (flagDeferred ||| pos)
  let c := if s.core.level = l then s.core else s.core.setTrapRegs (l + 1) { s.core.trapRegs (l + 1) with dsts := ds.filter fun d => !owed.contains d }
  s.setCore { c with mark := .deferred }

end Sys2Proof.Machine
end

