-- ==== Sys2Proof/Machine/Operands.lean ====
section
/-! DEFINITION. Operands: what each operand form reads, which registers an instruction reads and writes, the register
checks of R18 and R45 (check 8 of R30), and the gate that every instruction passes before it has an effect: register
checks, deferred faults (R218), and the stalls of R26, R41 and R292. -/

namespace Sys2Proof.Machine

/-! ## Reading -/

/-- The specials (R44). -/
def State.special (s : State) : Special → Word
  | .zero => 0
  | .core => s.core.num.setWidth 64
  | .quad => s.quadNo.setWidth 64
  | .cluster => s.clusterNo.setWidth 64
  | .device => s.dev.id.setWidth 64
  | .home => s.home.setWidth 64
  | .frame => s.core.task.frame
  | .sp => if s.core.grp.live then s.core.grp.sp else s.core.sp
  | .clk => if s.core.grp.live then s.core.grp.clk else s.clk
  | .firing => s.core.task.graph ++ s.core.number
  | .tl => BitVec.ofNat 64 s.core.level

/-- The value of a queue entry; an entry that has not arrived is never read (the gate stalls or traps). -/
def QEntry.value : QEntry → Word
  | .arrived v => v
  | .pending _ => 0
  | .faulted _ => 0

/-- A src operand (R56). -/
def State.src (s : State) : Src → Word
  | .q k => (s.core.entryAt (k.val + 1)).value
  | .n r => s.core.view.n[r]
  | .special x => s.special x

def State.qn (s : State) : QN → Word
  | .q k => s.src (.q k)
  | .n r => s.src (.n r)

/-- SignExtend(IMM) (R13). -/
def simm (v : BitVec 48) : Word := v.signExtend 64

/-- A src or the sign-extended immediate. -/
def State.srcImm (s : State) : SrcImm → Word
  | .reg r => s.src r
  | .imm v => simm v

/-- A src or the immediate as a bit pattern (R98). -/
def State.srcBits (s : State) : SrcImm → Word
  | .reg r => s.src r
  | .imm v => v.setWidth 64

/-- A of MOV (R51). -/
def State.movSrc (s : State) : MovSrc → Word
  | .scalar r => s.src r
  | .m k => s.core.view.m[k]
  | .lc k => s.core.view.lc[k].setWidth 64

/-- Bits of an operating width (R57). -/
def wbits : Width → Nat
  | .w64 => 64 | .w32 => 32 | .w16 => 16 | .w8 => 8

/-- Bytes of an access width (R14). -/
def wbytes : Width → Nat
  | .w64 => 8 | .w32 => 4 | .w16 => 2 | .w8 => 1

/-- (Read(A) + SignExtend(IMM)) mod 2^40 (R165). -/
def State.localOff (s : State) (a : Src) (disp : BitVec 48) : BitVec 40 := (s.src a + simm disp).setWidth 40

/-! ## The registers an instruction reads and writes -/

/-- A register as an operand. -/
inductive Rd where
  | q (k : Fin 16)
  | n (r : Fin 32)
  | m (k : Fin 8)
  | v (r : Fin 32)
  | tm (k : Fin 8)
  | lc (k : Fin 8)
deriving DecidableEq, Repr

def Src.rds : Src → List Rd
  | .q k => [.q k]
  | .n r => [.n r]
  | .special _ => []

def QN.rds : QN → List Rd
  | .q k => [.q k]
  | .n r => [.n r]

def SrcImm.rds : SrcImm → List Rd
  | .reg r => Src.rds r
  | .imm _ => []

def VB.rds : VB → List Rd
  | .v r => [.v r]
  | .reg r => Src.rds r
  | .imm _ => []

def optRds {α : Type} (f : α → List Rd) : Option α → List Rd
  | some x => f x
  | none => []

/-- The members of a group of `g` vector registers. -/
def vgroup (r : Fin 32) (g : Nat) : List (Fin 32) := (List.range g).map fun i => Fin.ofNat 32 (r.val + i)

/-- The named registers from n(first) to n(last). -/
def ngroup (first last : Fin 32) : List (Fin 32) :=
  (List.range (last.val + 1 - first.val)).map fun i => Fin.ofNat 32 (first.val + i)

/-- Registers of an index group: max(1, n / 64) for n elements (R180). -/
def idxRegs (w : Width) : Nat := max 1 (256 / wbytes w / 64)

def XIdx.rds (w : Width) : XIdx → List Rd
  | .stride b => Src.rds b
  | .index v => (vgroup v (idxRegs w)).map .v

def vmaskRds : VMask → List Rd
  | some k => [.m k]
  | none => []

/-- D as an operand: a masked instruction keeps its inactive elements (R287). -/
def keptRds (m : VMask) (d : Fin 32) : List Rd := if m.isSome then [.v d] else []

/-- A vector instruction's mask, kept destination, A and bop. -/
def vrds (m : VMask) (d a : Fin 32) (b : List Rd) : List Rd := vmaskRds m ++ keptRds m d ++ [.v a] ++ b

def LaneSrc.rds : LaneSrc → List Rd
  | .reg b => Src.rds b
  | .imm _ => []

/-- VCVT keeps part of D when the destination has more elements than the source (R301). -/
def cvtKeeps (dst : Fmt) (src : CvtSrc) : Bool := decide (src.count < 2048 / dst.bits)

/-- Every register an instruction reads. -/
def reads : Instr → List Rd
  | .bc _ _ a _ => QN.rds a
  | .jmpi a => QN.rds a
  | .spawn a b c _ _ _ _ => QN.rds a ++ QN.rds b ++ optRds QN.rds c
  | .add _ _ _ a b | .sub _ _ _ a b | .mulh _ _ _ a b | .cmp _ _ _ a b => Src.rds a ++ SrcImm.rds b
  | .mul _ _ a b | .div _ _ a b | .divu _ _ a b | .rem _ _ a b | .remu _ _ a b | .and _ _ a b | .or _ _ a b
  | .xor _ _ a b | .andn _ _ a b | .shl _ _ a b | .shr _ _ a b | .sar _ _ a b | .rot _ _ a b | .min _ _ a b
  | .max _ _ a b | .minu _ _ a b | .maxu _ _ a b => Src.rds a ++ SrcImm.rds b
  | .clz _ _ a | .popc _ _ a => Src.rds a
  | .ext _ (.fixed _) _ a => Src.rds a
  | .ext _ (.operand b) _ a => Src.rds a ++ SrcImm.rds b
  | .bitf .x _ a _ _ | .bitf .xs _ a _ _ => Src.rds a
  | .bitf (.ins b) _ a _ _ => Src.rds a ++ Src.rds b
  | .sel _ a b c => Src.rds a ++ Src.rds b ++ SrcImm.rds c
  | .lea _ _ _ a b _ => Src.rds a ++ optRds Src.rds b
  | .far _ a b => Src.rds a ++ SrcImm.rds b
  | .homeof _ _ a => Src.rds a
  | .mov _ (.scalar r) => Src.rds r
  | .mov _ (.m k) => [.m k]
  | .mov _ (.lc k) => [.lc k]
  | .pushm first last => (ngroup first last).map .n
  | .fadd _ _ a b | .fsub _ _ a b | .fmul _ _ a b | .fdiv _ _ a b | .fminmax _ _ _ _ a b | .fcmp _ _ _ a b =>
    Src.rds a ++ SrcImm.rds b
  | .ffma _ _ a b c => Src.rds a ++ Src.rds b ++ SrcImm.rds c
  | .fsqrt _ _ a => Src.rds a
  | .fcvt _ _ _ _ _ a => Src.rds a
  | .ld _ _ _ a _ => Src.rds a
  | .st _ a b _ => Src.rds a ++ Src.rds b
  | .ldv _ _ a _ => Src.rds a
  | .stv g a b _ => Src.rds a ++ (vgroup b (2 ^ g.toNat)).map .v
  | .ldx w x m _ a _ => Src.rds a ++ XIdx.rds w x ++ vmaskRds m
  | .stx w x m a c _ => Src.rds a ++ XIdx.rds w x ++ vmaskRds m ++ [.v c]
  | .pref _ a _ => Src.rds a
  | .amo _ _ _ a b _ => Src.rds a ++ Src.rds b
  | .acas _ _ a b c _ => Src.rds a ++ Src.rds b ++ Src.rds c
  | .ldf _ _ _ a _ | .ldfa _ _ _ a _ | .ldfp _ _ _ a _ => Src.rds a
  | .pdrop a => optRds Src.rds a
  | .sqadv _ _ a b => Src.rds a ++ SrcImm.rds b
  | .sqwait _ a b => Src.rds a ++ SrcImm.rds b
  | .watch _ a b => Src.rds a ++ SrcImm.rds b
  | .wsleep _ (.reg a) => Src.rds a
  | .pull _ _ _ a b rows _ _ => Src.rds a ++ Src.rds b ++ optRds (fun k => [.lc k]) rows
  | .pullg _ _ _ a b (.lc k) _ => Src.rds a ++ Src.rds b ++ [.lc k]
  | .pullg _ _ _ a b (.imm _) _ => Src.rds a ++ Src.rds b
  | .pullr _ _ _ _ _ a b _ _ => Src.rds a ++ Src.rds b
  | .agset _ a (.reg b) => Src.rds a ++ Src.rds b
  | .agset _ a (.imm _) => Src.rds a
  | .waitp _ _ _ a b => Src.rds a ++ Src.rds b
  | .lcset _ (.reg a) => Src.rds a
  | .wld _ (.scratch a b) _ _ => Src.rds a ++ Src.rds b
  | .wld _ (.vec v g sc) _ _ => (vgroup v (2 ^ g.toNat)).map .v ++ optRds (fun r => [.v r]) sc
  | .mma _ (.scratch a b t) _ _ _ => Src.rds a ++ Src.rds b ++ optRds (fun k => [.lc k]) t
  | .mma _ (.map t b) _ _ _ => [.tm t] ++ Src.rds b
  | .awr g b _ => (vgroup b (2 ^ g.toNat)).map .v
  | .ast _ a _ _ _ => Src.rds a
  | .tmapset _ a _ => Src.rds a
  | .vadd _ _ m d a b | .vsub _ _ m d a b => vrds m d a (VB.rds b)
  | .vmul _ m d a b | .vand _ m d a b | .vor _ m d a b | .vxor _ m d a b | .vshl _ m d a b => vrds m d a (VB.rds b)
  | .vfma _ m d a b c => vrds m d a ([.v b] ++ VB.rds c)
  | .vmin _ _ m d a b | .vmax _ _ m d a b | .vshr _ _ m d a b => vrds m d a (VB.rds b)
  | .vabs _ _ m d a | .vneg _ _ m d a => vrds m d a []
  | .vexp2 _ m d a | .vlog2 _ m d a | .vrcp _ m d a | .vrsq _ m d a => vrds m d a []
  | .vcvt dst sc _ _ _ m d a => vrds m d a (if cvtKeeps dst sc then [.v d] else [])
  | .vcmp _ _ m (.v d) a b => vrds m d a (VB.rds b)
  | .vcmp _ _ m (.m _) a b => vmaskRds m ++ [.v a] ++ VB.rds b
  | .vsel _ a b c => [.v a, .v b, .m c]
  | .vred _ _ _ m _ a => vmaskRds m ++ [.v a]
  | .vperm _ m d a b => vrds m d a [.v b]
  | .vbcast _ m d (.reg a) => vmaskRds m ++ keptRds m d ++ Src.rds a
  | .vbcast _ m d (.imm _) => vmaskRds m ++ keptRds m d
  | .vbcast _ m d (.lane a _) => vrds m d a []
  | .viota _ m d a => vmaskRds m ++ keptRds m d ++ SrcImm.rds a
  | .vext _ _ _ a l => [.v a] ++ LaneSrc.rds l
  | .vins _ d a l => [.v d] ++ Src.rds a ++ LaneSrc.rds l
  | .vmxq _ _ d a c _ _ => [.v d, .v a, .v c]
  | .vmxd _ _ _ a c _ _ => [.v a, .v c]
  | .trap _ a => optRds Src.rds a
  | .tretV a => Src.rds a
  | .syswr a _ => Src.rds a
  | .pgreq _ _ a => Src.rds a
  | .basinclr a => optRds Src.rds a
  | .testinj a _ => Src.rds a
  | _ => []

/-- D of a scalar result as a list. -/
def ndests (d : NDst) : List Dest := (dstOf d).toList

/-- Every register an instruction writes. -/
def dests : Instr → List Dest
  | .add _ _ d _ _ | .sub _ _ d _ _ | .mulh _ _ d _ _ | .cmp _ _ d _ _ => ndests d
  | .mul _ d _ _ | .div _ d _ _ | .divu _ d _ _ | .rem _ d _ _ | .remu _ d _ _ | .and _ d _ _ | .or _ d _ _
  | .xor _ d _ _ | .andn _ d _ _ | .shl _ d _ _ | .shr _ d _ _ | .sar _ d _ _ | .rot _ d _ _ | .min _ d _ _
  | .max _ d _ _ | .minu _ d _ _ | .maxu _ d _ _ => ndests d
  | .clz _ d _ | .popc _ d _ | .ext _ _ d _ | .bitf _ d _ _ _ | .sel d _ _ _ | .lea _ _ d _ _ _ | .far d _ _
  | .homeof _ d _ => ndests d
  | .mov (some (.n r)) _ | .movi (some (.n r)) _ => [.n r]
  | .mov (some (.m k)) _ | .movi (some (.m k)) _ => [.m k]
  | .popm first last => (ngroup first last).map .n
  | .fadd _ d _ _ | .fsub _ d _ _ | .fmul _ d _ _ | .fdiv _ d _ _ | .fminmax _ _ _ d _ _ | .fcmp _ _ d _ _ => ndests d
  | .ffma _ d _ _ _ | .fsqrt _ d _ | .fcvt _ _ _ _ d _ => ndests d
  | .ld _ _ d _ _ | .amo _ _ d _ _ _ | .acas _ d _ _ _ _ | .ldf _ _ d _ _ | .ldfa _ _ d _ _ | .ldfp _ _ d _ _ =>
    ndests d
  | .ldv g d _ _ => (vgroup d (2 ^ g.toNat)).map .v
  | .ldx _ _ _ d _ _ => [.v d]
  | .pchk d _ | .sqadv _ d _ _ | .sqwait d _ _ | .wsleep d _ | .wpoll _ _ d | .fence _ d => ndests d
  | .pull _ _ d _ _ _ _ _ | .pullg _ _ d _ _ _ _ | .pullr _ _ _ _ d _ _ _ _ | .waitp _ _ d _ _ | .equery _ _ d =>
    ndests d
  | .lcset k _ => [.lc k]
  | .ard g d _ => (vgroup d (2 ^ g.toNat)).map .v
  | .tmapset k _ _ => [.tm k]
  | .vadd _ _ _ d _ _ | .vsub _ _ _ d _ _ | .vmul _ _ d _ _ | .vfma _ _ d _ _ _ | .vmin _ _ _ d _ _
  | .vmax _ _ _ d _ _ | .vabs _ _ _ d _ | .vneg _ _ _ d _ | .vexp2 _ _ d _ | .vlog2 _ _ d _ | .vrcp _ _ d _
  | .vrsq _ _ d _ | .vcvt _ _ _ _ _ _ d _ | .vsel d _ _ _ | .vand _ _ d _ _ | .vor _ _ d _ _ | .vxor _ _ d _ _
  | .vshl _ _ d _ _ | .vshr _ _ _ d _ _ | .vperm _ _ d _ _ | .vbcast _ _ d _ | .viota _ _ d _ | .vins _ d _ _
  | .vmxd _ _ d _ _ _ _ => [.v d]
  | .vcmp _ _ _ (.v d) _ _ => [.v d]
  | .vcmp _ _ _ (.m k) _ _ => [.m k]
  | .vmxq _ _ d _ c _ _ => [.v d, .v c]
  | .vred _ _ _ _ d _ | .vext _ _ d _ _ => ndests d
  | .sysrd d _ | .pgreq _ d _ => ndests d
  | _ => []

/-- The vector class (R295). -/
def isVector : Instr → Bool
  | .vadd _ _ _ _ _ _ | .vsub _ _ _ _ _ _ | .vmul _ _ _ _ _ | .vfma _ _ _ _ _ _ | .vmin _ _ _ _ _ _
  | .vmax _ _ _ _ _ _ | .vabs _ _ _ _ _ | .vneg _ _ _ _ _ | .vexp2 _ _ _ _ | .vlog2 _ _ _ _ | .vrcp _ _ _ _
  | .vrsq _ _ _ _ | .vcvt _ _ _ _ _ _ _ _ | .vcmp _ _ _ _ _ _ | .vsel _ _ _ _ | .vand _ _ _ _ _ | .vor _ _ _ _ _
  | .vxor _ _ _ _ _ | .vshl _ _ _ _ _ | .vshr _ _ _ _ _ _ | .vred _ _ _ _ _ _ | .vperm _ _ _ _ _
  | .vbcast _ _ _ _ | .viota _ _ _ _ | .vext _ _ _ _ _ | .vins _ _ _ _ | .vmxq _ _ _ _ _ _ _
  | .vmxd _ _ _ _ _ _ _ => true
  | _ => false

/-- The vector operands with their group sizes, in the order D, A, B, C. -/
def vgroups : Instr → List (Fin 32 × Nat)
  | .ldv g d _ _ => [(d, 2 ^ g.toNat)]
  | .stv g _ b _ => [(b, 2 ^ g.toNat)]
  | .ldx w (.index v) _ d _ _ => [(d, 1), (v, idxRegs w)]
  | .ldx _ (.stride _) _ d _ _ => [(d, 1)]
  | .stx w (.index v) _ _ c _ => [(v, idxRegs w), (c, 1)]
  | .stx _ (.stride _) _ _ c _ => [(c, 1)]
  | .wld _ (.vec v g sc) _ _ => (v, 2 ^ g.toNat) :: (sc.toList.map fun r => (r, 1))
  | .ard g d _ => [(d, 2 ^ g.toNat)]
  | .awr g b _ => [(b, 2 ^ g.toNat)]
  | .vadd _ _ _ d a b | .vsub _ _ _ d a b | .vmin _ _ _ d a b | .vmax _ _ _ d a b | .vshr _ _ _ d a b =>
    [(d, 1), (a, 1)] ++ vbv b
  | .vmul _ _ d a b | .vand _ _ d a b | .vor _ _ d a b | .vxor _ _ d a b | .vshl _ _ d a b => [(d, 1), (a, 1)] ++ vbv b
  | .vfma _ _ d a b c => [(d, 1), (a, 1), (b, 1)] ++ vbv c
  | .vabs _ _ _ d a | .vneg _ _ _ d a => [(d, 1), (a, 1)]
  | .vexp2 _ _ d a | .vlog2 _ _ d a | .vrcp _ _ d a | .vrsq _ _ d a => [(d, 1), (a, 1)]
  | .vcvt _ _ _ _ _ _ d a => [(d, 1), (a, 1)]
  | .vcmp _ _ _ (.v d) a b => [(d, 1), (a, 1)] ++ vbv b
  | .vcmp _ _ _ (.m _) a b => [(a, 1)] ++ vbv b
  | .vsel d a b _ => [(d, 1), (a, 1), (b, 1)]
  | .vred _ _ _ _ _ a => [(a, 1)]
  | .vperm _ _ d a b => [(d, 1), (a, 1), (b, 1)]
  | .vbcast _ _ d (.lane a _) => [(d, 1), (a, 1)]
  | .vbcast _ _ d (.reg _) => [(d, 1)]
  | .vbcast _ _ d (.imm _) => [(d, 1)]
  | .viota _ _ d _ => [(d, 1)]
  | .vext _ _ _ a _ => [(a, 1)]
  | .vins _ d _ _ => [(d, 1)]
  | .vmxq _ _ d a c _ _ | .vmxd _ _ d a c _ _ => [(d, 1), (a, 1), (c, 1)]
  | _ => []
where
  /-- A bop that is a vector register. -/
  vbv : VB → List (Fin 32 × Nat)
    | .v r => [(r, 1)]
    | .reg _ => []
    | .imm _ => []

/-- Check 8 of R30: the register bound of every vector operand, then the alignment of every group (R45). The answer is
the trap's cause and the specifier code. -/
def regCheck (n : Nat) (i : Instr) : Option (Byte × Word) :=
  match (vgroups i).find? fun x => decide (n < x.1.val + x.2) with
  | some x => some (0x04, (vc x.1).setWidth 64)
  | none =>
    match (vgroups i).find? fun x => decide (x.1.val % x.2 ≠ 0) with
    | some x => some (0x05, (vc x.1).setWidth 64)
    | none => none

/-! ## The gate -/

/-- The fault of a register, if it is marked faulted. -/
def Core.faultOf (c : Core) (d : Dest) : Option FaultInfo := (c.faults.find? fun x => x.1 == d).map (·.2)

def Rd.dest : Rd → Option Dest
  | .q _ => none
  | .n r => some (.n r)
  | .m k => some (.m k)
  | .v r => some (.v r)
  | .tm k => some (.tm k)
  | .lc k => some (.lc k)

/-- The fault that reading a register meets. -/
def Core.rdFault (c : Core) : Rd → Option FaultInfo
  | .q k =>
    match c.entryAt (k.val + 1) with
    | .faulted f => some f
    | .arrived _ => none
    | .pending _ => none
  | r => r.dest.bind c.faultOf

/-- The oldest of a list of faults (R218). -/
def oldest : List FaultInfo → Option FaultInfo
  | [] => none
  | f :: r =>
    match oldest r with
    | some g => if f.id ≤ g.id then some f else some g
    | none => some f

/-- A faulted entry's fault. -/
def QEntry.fault? : QEntry → Option FaultInfo
  | .faulted f => some f
  | .arrived _ => none
  | .pending _ => none

/-- All the firing's faulted reads: entries that can still be named, and registers. -/
def Core.allFaults (c : Core) : List FaultInfo :=
  ((c.bank0.take 16 ++ c.bank1.take 16 ++ c.bank2.take 16).filterMap QEntry.fault?) ++ c.faults.map (·.2)

/-- Every register that an instruction reads on this core: an MMA's A, B and C are core 0's (R272). -/
def Core.readsOf (c : Core) (i : Instr) : List Rd :=
  match i with
  | .mma _ _ _ _ _ => if c.num = 0 then reads i else []
  | _ => reads i

/-- FENCE, PCHK, SQADV.NOW and END concern every faulted read (R218); any other instruction those it reads. -/
def Core.concerned (c : Core) (i : Instr) : List FaultInfo :=
  match i with
  | .fence _ _ => c.allFaults
  | .pchk _ _ => c.allFaults
  | .sqadv true _ _ _ => c.allFaults
  | .endFiring => c.allFaults
  | _ => (c.readsOf i).filterMap c.rdFault

/-- The faults that came back from a context image, which the resumed firing meets before it issues anything (R218). -/
def Core.resumeFaults (c : Core) : List FaultInfo :=
  (c.savedFaults.filter fun x => x.2 == c.level && c.allFaults.contains x.1).map (·.1)

/-- The deferred fault that issuing an instruction meets, the oldest of those concerned; a group in progress has already
met its faults. -/
def Core.metFault (c : Core) (i : Instr) : Option FaultInfo :=
  if c.grp.live then none else oldest (c.concerned i)

/-- The ids of results that the vector unit owes. -/
def Core.vecIds (c : Core) : List Nat := c.vq.map (·.id)

/-- An id that the vector unit delivers; the unit orders its own instructions (R291). -/
def Core.byVector (c : Core) (id : Nat) : Bool := c.vq.any (fun x => x.id == id) || c.pend.any (fun p => p.id == id && p.kind == .vec)

/-- A vector or a mask register. -/
def Dest.isVm : Dest → Bool
  | .v _ => true
  | .m _ => true
  | .n _ => false
  | .tm _ => false
  | .lc _ => false
  | .gone => false

/-- A register is busy to an instruction: a result is owed to it (R41); a vector or mask register, where the instruction
is a vector instruction, only by another unit (R291, R292). -/
def Core.busyFor (c : Core) (vec : Bool) (d : Dest) : Bool :=
  c.owed.any fun x => x.2 == d && !(vec && d.isVm && c.byVector x.1)

/-- The vector unit owes the register (R292). -/
def Core.vecOwes (c : Core) (d : Dest) : Bool := c.owed.any fun x => x.2 == d && c.byVector x.1

/-- An issued vector instruction that has not been granted reads the register (R292). -/
def Core.queuedRead (c : Core) (d : Dest) : Bool :=
  c.vq.any fun x => (reads x.instr).any fun r =>
    match r with
    | .v a => d == .v a
    | .m k => d == .m k
    | .q _ => false
    | .n _ => false
    | .tm _ => false
    | .lc _ => false

/-- Reading the register stalls. -/
def Core.rdStalls (c : Core) (vec : Bool) : Rd → Bool
  | .q k =>
    match c.entryAt (k.val + 1) with
    | .pending _ => true
    | .arrived _ => false
    | .faulted _ => false
  | .n r => c.busyFor vec (.n r)
  | .m k => c.busyFor vec (.m k) || (!vec && c.queuedRead (.m k))
  | .v r => c.busyFor vec (.v r) || (!vec && c.queuedRead (.v r))
  | .tm k => c.busyFor vec (.tm k)
  | .lc k => c.busyFor vec (.lc k)

/-- The instruction stalls on a register (R26, R41, R292). The registers of a group in progress were free when it began:
a slot waits for no register of an earlier slot of its own group. -/
def Core.stalls (c : Core) (i : Instr) : Bool :=
  !c.grp.live &&
    ((c.readsOf i).any (c.rdStalls (isVector i)) ||
      (dests i).any fun d => c.busyFor (isVector i) d || (!isVector i && c.queuedRead d))

/-- The instructions of the spill stack (R49). -/
def onSpill : Instr → Bool
  | .pushm _ _ | .popm _ _ | .spadj _ | .call _ | .ret => true
  | _ => false

/-- The instruction waits for the spill port, which still zero-fills for an earlier SPADJ (R55). -/
def State.portHeld (s : State) (i : Instr) : Bool := onSpill i && decide (s.dev.clk < s.core.spillAt)

/-- THE GATE: register checks, then stalls, then deferred faults, then the instruction's own effect. -/
def gate (i : Instr) (s : State) (k : Out) : Out :=
  match regCheck (partN s.cl.part) i with
  | some (cause, code) => .next (s.trap cause code)
  | none =>
    if s.core.stalls i || s.portHeld i then stall s
    else
      match s.core.metFault i with
      | some f => .next (s.deferredTrap f)
      | none => k

/-- The conditions on which an instruction passes the gate. -/
def ready (i : Instr) (s : State) : Bool :=
  (regCheck (partN s.cl.part) i).isNone && (s.core.metFault i).isNone && !s.core.stalls i && !s.portHeld i

end Sys2Proof.Machine
end

