-- ==== Sys2Proof/Machine/Flags.lean ====
section
/-! DEFINITION. FSTAT: the flags a result merges when it arrives (R86, R87), and what a read or write of FSTAT waits for
(R100, R291). The flag bits and every operation's flags are computed with its value in `Formats.lean`. -/

namespace Sys2Proof.Machine

/-- A scalar floating-point result that has issued and is not written (R100). -/
def Core.fpOwed (c : Core) : Bool :=
  c.pend.any fun p =>
    match p.kind with
    | .fp => true
    | .fdiv => true
    | .fixed => false
    | .idiv => false
    | .vec => false

/-- A vector instruction that has issued and has not written its results (R291). -/
def Core.vecOwed (c : Core) : Bool := !c.vq.isEmpty || c.pend.any fun p => p.kind == .vec

/-- FSTAT may be read or written (R100, R291). -/
def Core.fstatReady (c : Core) : Bool := !c.fpOwed && !c.vecOwed

/-- FSTAT as SYSRD reads it (R86). -/
def Core.fstatWord (c : Core) : Word := c.fstat.setWidth 64

/-- Position `k` of the bank of level `l`, as one number. -/
def bankPos (l k : Nat) : Nat := bankDepth * l + k

/-- The positions of the banks that wait for an id. -/
def Core.positions (c : Core) (id : Nat) : List Nat :=
  [0, 1, 2].flatMap fun l =>
    ((List.range bankDepth).filter fun k => (c.bank l).getD k (.arrived 0) == .pending id).map (bankPos l)

/-- What the vector unit writes in a clk is noted, for the groups that wait for it (R290); that it wrote at all is noted by a
position past the banks. -/
def Core.noteVec (c : Core) (clk : Nat) (p : Pend) : Core :=
  if p.kind != .vec then c
  else
    let old := if c.vecNew.1 = clk then c.vecNew.2 else ([], [])
    { c with vecNew := (clk, old.1 ++ c.owedTo p.id, old.2 ++ bankPos 3 0 :: c.positions p.id) }

/-- A pending result arrives (R40, R87): its flags merge as it is written. -/
def Core.arrive (c : Core) (clk : Nat) (p : Pend) : Core :=
  let c := c.noteVec clk p
  (({ c with pend := c.pend.filter fun x => x.id != p.id }).deliver p.id p.value).mergeFlags p.flags

end Sys2Proof.Machine
end

