-- ==== Sys2Proof/Machine/Integer.lean ====
section
/-! DEFINITION. The integer and address instructions (chapter 4): each result as a function of its operands, then each
instruction. None sets a flag (R58). -/

namespace Sys2Proof.Machine

/-! ## Results -/

/-- The low `w` bits, unsigned (R57). -/
def uval (w : Nat) (x : Word) : Nat := x.toNat % 2 ^ w

/-- The low `w` bits, signed (R57). -/
def sval' (w : Nat) (x : Word) : Int := signedOf w x.toNat

/-- SX of an exact result. -/
def sxInt (w : Nat) (i : Int) : Word := sx w (BitVec.ofInt 64 i)

/-- ZX of an exact result. -/
def zxInt (w : Nat) (i : Int) : Word := zx w (BitVec.ofInt 64 i)

def ofBool (b : Bool) : Word := if b then 1 else 0

/-- Clamp to the signed or unsigned `w`-bit range. -/
def clampS (w : Nat) (i : Int) : Int := max (intLo w false) (min (intHi w false) i)
def clampU (w : Nat) (i : Int) : Int := max (intLo w true) (min (intHi w true) i)

/-- ADD (R61). -/
def addResult (f : AddFn) (w : Nat) (a b : Word) : Word :=
  match f with
  | .wrap => sx w (a + b)
  | .sat => sxInt w (clampS w (sval' w a + sval' w b))
  | .satu => zxInt w (clampU w (uval w a + uval w b))
  | .carry => ofBool (decide (2 ^ w ≤ uval w a + uval w b))

/-- SUB (R61). -/
def subResult (f : AddFn) (w : Nat) (a b : Word) : Word :=
  match f with
  | .wrap => sx w (a - b)
  | .sat => sxInt w (clampS w (sval' w a - sval' w b))
  | .satu => zxInt w (clampU w ((uval w a : Int) - uval w b))
  | .carry => ofBool (decide (uval w a < uval w b))

/-- MUL (R62). -/
def mulResult (w : Nat) (a b : Word) : Word := sx w (a * b)

/-- MULH (R62): the high half of the exact product. -/
def mulhResult (f : MulhFn) (w : Nat) (a b : Word) : Word :=
  match f with
  | .ss => sxInt w ((sval' w a * sval' w b) / 2 ^ w)
  | .uu => zxInt w ((uval w a * uval w b : Nat) / 2 ^ w)
  | .su => sxInt w ((sval' w a * uval w b) / 2 ^ w)

/-- DIV, REM, DIVU, REMU of a non-zero divisor (R63). -/
def divResult (w : Nat) (a b : Word) : Word := sxInt w ((sval' w a).tdiv (sval' w b))
def remResult (w : Nat) (a b : Word) : Word := sxInt w ((sval' w a).tmod (sval' w b))
def divuResult (w : Nat) (a b : Word) : Word := zxInt w (uval w a / uval w b : Nat)
def remuResult (w : Nat) (a b : Word) : Word := zxInt w (uval w a % uval w b : Nat)

/-- Shifts: the count is the whole second operand (R65). -/
def shlResult (w : Nat) (a c : Word) : Word := if c.toNat < w then zx w (a <<< c.toNat) else 0
def shrResult (w : Nat) (a c : Word) : Word := if c.toNat < w then zx w a >>> c.toNat else 0
def sarResult (w : Nat) (a c : Word) : Word := sxInt w (sval' w a / 2 ^ min c.toNat w)

/-- ROT: left by the count modulo w (R65). -/
def rotResult (w : Nat) (a c : Word) : Word :=
  let k := c.toNat % w
  BitVec.ofNat 64 ((uval w a * 2 ^ k) % 2 ^ w + uval w a / 2 ^ (w - k))

/-- MIN, MAX, MINU, MAXU (R66). -/
def minResult (w : Nat) (a b : Word) : Word := sx w (if sval' w b < sval' w a then b else a)
def maxResult (w : Nat) (a b : Word) : Word := sx w (if sval' w a < sval' w b then b else a)
def minuResult (w : Nat) (a b : Word) : Word := zx w (if uval w b < uval w a then b else a)
def maxuResult (w : Nat) (a b : Word) : Word := zx w (if uval w a < uval w b then b else a)

/-- CLZ (R67). -/
def clzResult (w : Nat) (a : Word) : Word :=
  BitVec.ofNat 64 (if uval w a = 0 then w else w - 1 - (uval w a).log2)

/-- Set bits among the low `w`. -/
def popCount (x : Nat) : Nat → Nat
  | 0 => 0
  | w + 1 => (if x.testBit w then 1 else 0) + popCount x w

/-- POPC (R67). -/
def popcResult (w : Nat) (a : Word) : Word := BitVec.ofNat 64 (popCount a.toNat w)

/-- EXT (R67): the low `n` bits of x, extended; the width is any 64-bit value. -/
def extResult (z : Bool) (n : Nat) (x : Word) : Word :=
  if n = 0 then 0 else if 64 ≤ n then x else if z then zx n x else sx n x

/-- BITF (R68). -/
def bitfResult (form : BitfForm) (x y : Word) (p l : Nat) : Word :=
  match form with
  | .x => zx l (x >>> p)
  | .xs => sx l (x >>> p)
  | .ins _ =>
    let mask : Word := (zx l (BitVec.allOnes 64)) <<< p
    (x &&& ~~~mask) ||| ((zx l y) <<< p)

/-- The conditions of R69 at width `w`. -/
def icond (c : ICond) (w : Nat) (a b : Word) : Bool :=
  match c with
  | .eq => decide (uval w a = uval w b)
  | .ne => decide (uval w a ≠ uval w b)
  | .lt => decide (sval' w a < sval' w b)
  | .ge => decide (sval' w b ≤ sval' w a)
  | .ltu => decide (uval w a < uval w b)
  | .geu => decide (uval w b ≤ uval w a)
  | .gt => decide (sval' w b < sval' w a)
  | .le => decide (sval' w a ≤ sval' w b)
  | .gtu => decide (uval w b < uval w a)
  | .leu => decide (uval w a ≤ uval w b)

/-- LEA's offset (R72). -/
def leaOff (base idx : Word) (sh : Nat) (disp : BitVec 48) : BitVec 40 := (base + (idx <<< sh) + simm disp).setWidth 40

/-! ## Instructions -/

/-- A result readable by the next group. -/
def alu (i : Instr) (s : State) (d : NDst) (v : Word) : Out := gate i s (.next (s.result d v))

def execAdd (f : AddFn) (w : Width) (d : NDst) (a : Src) (b : SrcImm) (s : State) : Out :=
  alu (.add f w d a b) s d (addResult f (wbits w) (s.src a) (s.srcImm b))

def execSub (f : AddFn) (w : Width) (d : NDst) (a : Src) (b : SrcImm) (s : State) : Out :=
  alu (.sub f w d a b) s d (subResult f (wbits w) (s.src a) (s.srcImm b))

/-- The multiplier's 3 clk (R59). -/
def mulLatency : Nat := 3

def execMul (w : Width) (d : NDst) (a : Src) (b : SrcImm) (s : State) : Out :=
  gate (.mul w d a b) s
    (.next (s.resultAt d .fixed (mulResult (wbits w) (s.src a) (s.srcImm b)) 0 (s.dev.clk + mulLatency)))

def execMulh (f : MulhFn) (w : Width) (d : NDst) (a : Src) (b : SrcImm) (s : State) : Out :=
  gate (.mulh f w d a b) s
    (.next (s.resultAt d .fixed (mulhResult f (wbits w) (s.src a) (s.srcImm b)) 0 (s.dev.clk + mulLatency)))

/-- The divider's time for a width (R59). -/
def divLatency : Width → Nat
  | .w64 => 34 | .w32 => 18 | .w16 => 10 | .w8 => 6

/-- Pending results of a divider. -/
def Core.onDivider (c : Core) (k : PendKind) : List Pend := c.pend.filter fun p => p.kind == k

/-- When a division that issues now arrives: it starts when the divider is free, in program order (R59, R99). -/
def Core.divDue (c : Core) (k : PendKind) (clk lat : Nat) : Nat :=
  (c.onDivider k).foldl (fun t p => max t p.due) clk + lat

/-- A division (R59, R63): zero is trapped at issue; at most two are pending. -/
def divide (i : Instr) (w : Width) (d : NDst) (a b v : Word) (s : State) : Out :=
  gate i s
    (if uval (wbits w) b = 0 then .next (s.trap 0x0A (zx (wbits w) a))
     else if 2 ≤ (s.core.onDivider .idiv).length then stall s
     else .next (s.resultAt d .idiv v 0 (s.core.divDue .idiv s.dev.clk (divLatency w))))

def execDiv (w : Width) (d : NDst) (a : Src) (b : SrcImm) (s : State) : Out :=
  divide (.div w d a b) w d (s.src a) (s.srcImm b) (divResult (wbits w) (s.src a) (s.srcImm b)) s

def execDivu (w : Width) (d : NDst) (a : Src) (b : SrcImm) (s : State) : Out :=
  divide (.divu w d a b) w d (s.src a) (s.srcImm b) (divuResult (wbits w) (s.src a) (s.srcImm b)) s

def execRem (w : Width) (d : NDst) (a : Src) (b : SrcImm) (s : State) : Out :=
  divide (.rem w d a b) w d (s.src a) (s.srcImm b) (remResult (wbits w) (s.src a) (s.srcImm b)) s

def execRemu (w : Width) (d : NDst) (a : Src) (b : SrcImm) (s : State) : Out :=
  divide (.remu w d a b) w d (s.src a) (s.srcImm b) (remuResult (wbits w) (s.src a) (s.srcImm b)) s

def execAnd (w : Width) (d : NDst) (a : Src) (b : SrcImm) (s : State) : Out :=
  alu (.and w d a b) s d (zx (wbits w) (s.src a &&& s.srcImm b))

def execOr (w : Width) (d : NDst) (a : Src) (b : SrcImm) (s : State) : Out :=
  alu (.or w d a b) s d (zx (wbits w) (s.src a ||| s.srcImm b))

def execXor (w : Width) (d : NDst) (a : Src) (b : SrcImm) (s : State) : Out :=
  alu (.xor w d a b) s d (zx (wbits w) (s.src a ^^^ s.srcImm b))

def execAndn (w : Width) (d : NDst) (a : Src) (b : SrcImm) (s : State) : Out :=
  alu (.andn w d a b) s d (zx (wbits w) (s.src a &&& ~~~(s.srcImm b)))

def execShl (w : Width) (d : NDst) (a : Src) (b : SrcImm) (s : State) : Out :=
  alu (.shl w d a b) s d (shlResult (wbits w) (s.src a) (s.srcImm b))

def execShr (w : Width) (d : NDst) (a : Src) (b : SrcImm) (s : State) : Out :=
  alu (.shr w d a b) s d (shrResult (wbits w) (s.src a) (s.srcImm b))

def execSar (w : Width) (d : NDst) (a : Src) (b : SrcImm) (s : State) : Out :=
  alu (.sar w d a b) s d (sarResult (wbits w) (s.src a) (s.srcImm b))

def execRot (w : Width) (d : NDst) (a : Src) (b : SrcImm) (s : State) : Out :=
  alu (.rot w d a b) s d (rotResult (wbits w) (s.src a) (s.srcImm b))

def execMin (w : Width) (d : NDst) (a : Src) (b : SrcImm) (s : State) : Out :=
  alu (.min w d a b) s d (minResult (wbits w) (s.src a) (s.srcImm b))

def execMax (w : Width) (d : NDst) (a : Src) (b : SrcImm) (s : State) : Out :=
  alu (.max w d a b) s d (maxResult (wbits w) (s.src a) (s.srcImm b))

def execMinu (w : Width) (d : NDst) (a : Src) (b : SrcImm) (s : State) : Out :=
  alu (.minu w d a b) s d (minuResult (wbits w) (s.src a) (s.srcImm b))

def execMaxu (w : Width) (d : NDst) (a : Src) (b : SrcImm) (s : State) : Out :=
  alu (.maxu w d a b) s d (maxuResult (wbits w) (s.src a) (s.srcImm b))

def execClz (w : Width) (d : NDst) (a : Src) (s : State) : Out :=
  alu (.clz w d a) s d (clzResult (wbits w) (s.src a))

def execPopc (w : Width) (d : NDst) (a : Src) (s : State) : Out :=
  alu (.popc w d a) s d (popcResult (wbits w) (s.src a))

/-- EXT's width (R67). -/
def State.extWidth (s : State) : ExtForm → Nat
  | .fixed w => wbits w
  | .operand b => (s.srcImm b).toNat

def execExt (z : Bool) (form : ExtForm) (d : NDst) (a : Src) (s : State) : Out :=
  alu (.ext z form d a) s d (extResult z (s.extWidth form) (s.src a))

/-- BITF's second operand. -/
def State.bitfY (s : State) : BitfForm → Word
  | .x => 0
  | .xs => 0
  | .ins b => s.src b

def execBitf (form : BitfForm) (d : NDst) (a : Src) (pos : BitVec 6) (len : BitVec 7) (s : State) : Out :=
  alu (.bitf form d a pos len) s d (bitfResult form (s.src a) (s.bitfY form) pos.toNat len.toNat)

def execCmp (c : ICond) (w : Width) (d : NDst) (a : Src) (b : SrcImm) (s : State) : Out :=
  alu (.cmp c w d a b) s d (ofBool (icond c (wbits w) (s.src a) (s.srcImm b)))

def execSel (d : NDst) (a b : Src) (c : SrcImm) (s : State) : Out :=
  alu (.sel d a b c) s d (if s.src a ≠ 0 then s.src b else s.srcImm c)

/-- An optional index. -/
def State.optSrc (s : State) : Option Src → Word
  | some a => s.src a
  | none => 0

/-- LEA (R72). -/
def execLea (keep : Bool) (sh : BitVec 4) (d : NDst) (a : Src) (b : Option Src) (disp : BitVec 48) (s : State) : Out :=
  let base := s.src a
  let off := leaOff base (s.optSrc b) sh.toNat disp
  gate (.lea keep sh d a b disp) s
    (if keep then
      if canonical base then .next (s.result d (base.extractLsb' 40 24 ++ off)) else .next (s.trap 0x07 base)
     else .next (s.result d (off.setWidth 64)))

/-- FAR (R73). -/
def execFar (d : NDst) (a : Src) (b : SrcImm) (s : State) : Out :=
  let h := s.src a
  gate (.far d a b) s
    (if h.toNat < 2 ^ 17 then .next (s.result d (farAddr (h.setWidth 17) ((s.srcImm b).setWidth 40)))
     else .next (s.trap 0x07 h))

/-- HOMEOF's selections (R74). -/
def homeofResult (sel : HomeSel) (own : BitVec 17) (x : Word) : Word :=
  match sel with
  | .home => (homeOf x).setWidth 64
  | .off => (offOf x).setWidth 64
  | .dev => (x.extractLsb' 47 10).setWidth 64
  | .cl => (x.extractLsb' 40 7).setWidth 64
  | .isLocal => ofBool (homeOf x == own)

def execHomeof (sel : HomeSel) (d : NDst) (a : Src) (s : State) : Out :=
  let x := s.src a
  gate (.homeof sel d a) s
    (if canonical x then .next (s.result d (homeofResult sel s.home x)) else .next (s.trap 0x07 x))

end Sys2Proof.Machine
end

