-- ==== Sys2Proof/Config.lean ====
section
/-! DEFINITION. What the manual leaves open and the machine goes on: free values, each a constant without a body applied
to a counter of `State.free`, so that a statement about one holds whatever it is. -/

namespace Sys2Proof.Config

/-- A row of an accumulator that an unfinished MMA owns, as ARD and AST read it (R269). -/
opaque freeRow : Nat → BitVec 2048

/-- The SM3 hashes of the part's firmware images and of its fused configuration, by measurement index (R379, R380). -/
opaque measurement : Nat → BitVec 256

/-- The measurement of the fused configuration, from the security versions of the images that run and the die pairs whose
authentication failed (R380). -/
opaque fusedMeasure : List Nat → List (Nat × Nat) → BitVec 256

/-- An SM2 signature over an SM3 hash is that of the Kolroth key whose hash is fused into the package, for an image by its
measurement index (R379). -/
opaque sigOk : Nat → List Byte → List Byte → Bool

/-- The fused minimum security version of an image, by its measurement index (R379). -/
opaque minVersion : Nat → Nat

/-- The images that a staged firmware update holds: bytes, signature and security version of each (R379, R403). -/
opaque unpack : List Byte → List (List Byte × List Byte × Nat)

/-- The fuse serial that a debug token must name (R377). -/
opaque fuseSerial : Word

/-- The key fused into both dies of a link, by die numbers, lower first (R371). -/
opaque diePairKey : Nat → Nat → BitVec 256

/-- The Kolroth chain of certificate slot 0, for the DeviceID and the Alias key (R382). -/
opaque kolrothChain : BitVec 256 → BitVec 256 → List Byte

/-- The MMIO ranges of a hearth's function (R384). -/
opaque mmio : Nat → List Word

/-- Temperatures, rail currents, power and HBM temperatures as the sensors read them at a clk (R403). -/
opaque sensors : Nat → List Word

/-- The far address in home 127 of a launch's completion area, by its graph instance (R394). -/
opaque completionArea : BitVec 32 → Word

/-- The body of an entry of the capability chain, by its ID, for a device ID (R398). -/
opaque capBody : Nat → BitVec 10 → List Byte

/-- The keys that a part's own random bit generator draws (R353). -/
opaque freeKey : Nat → BitVec 256

/-- The unique secret fused into the part (R381). -/
opaque fusedSecret : BitVec 256

/-- The DeviceID key that Gorsoica derives from the fused secret (R381). -/
opaque deviceIdKey : BitVec 256 → BitVec 256

/-- The Alias key derived from the DeviceID key and measurements 2 and 3 (R381). -/
opaque aliasKey : BitVec 256 → BitVec 256 → BitVec 256 → BitVec 256

end Sys2Proof.Config
end

