-- ==== Sys2Proof/Machine/Crypto.lean ====
section
/-! DEFINITION. The ciphers that the manual names: AES-256 (FIPS 197), its XTS mode (IEEE 1619), the GHASH of GCM, and
SM3 with the key derivation of GB/T 32918. The manual names them and does not restate them (log 11). -/

namespace Sys2Proof.Machine

/-! ## AES-256 -/

/-- The S-box, 32 entries a row, entry 0 of a row in its lowest byte. -/
def sboxRows : List Nat :=
  [0xc072a49cafa2d4adf04759fa7dc982ca76abd7fe2b670130c56f6bf27b777c63,
    0x75b227ebe28012079a059618c323c7041531d871f1e5a534ccf73f362693fdb7,
    0xcf584c4a39becb6a5bb1fc20ed00d153842fe329b3d63b52a05a6e1b1a2c8309,
    0xd2f3ff1021dab6bcf5389d928f40a351a89f3c507f02f94585334d43fbaaefd0,
    0xdb0b5ede14b8ee4688902a22dc4f816073195d643d7ea7c41744975fec130ccd,
    0x08ae7a65eaf4566ca94ed58d6d37c8e779e4959162acd3c25c2406490a3a32e0,
    0x9e1dc186b95735610ef6034866b53e708a8bbd4b1f74dde8c6b4a61c2e2578ba,
    0x16bb54b00f2d99416842e6bf0d89a18cdf2855cee9871e9b948ed9691198f8e1]

/-- The inverse S-box, 32 entries a row, entry 0 of a row in its lowest byte. -/
def invSboxRows : List Nat :=
  [0xcbe9dec444438e3487ff2f9b8239e37cfbd7f3819ea340bf38a53630d56a0952,
    0x25d18b6d49a25b76b224d92866a12e084ec3fa420b954cee3d23c2a632947b54,
    0x849d8da75746155edab9edfd5048706c92b6655dcc5ca4d41698688664f6f872,
    0x6b8a130103bdafc1020f3fca8f1e2cd00645b3b80558e4f70ad3bc8c00abd890,
    0x6edf751ce837f9e28535ade72274ac9673e6b4f0cecff297eadc674f4111913a,
    0xf45acd78fec0db9a2079d2c64b3e56fc1bbe18aa0e62b76f89c5291d711af147,
    0xef9cc9939f7ae52d0d4ab519a97f51605fec8027591012b131c7078833a8dd1f,
    0x7d0c2155631469e126d677ba7e042b17619953833cbbebc8b0f52aae4d3be0a0]

/-- A table look-up. -/
def rowByte (rows : List Nat) (x : Byte) : Byte := BitVec.ofNat 8 ((rows.getD (x.toNat / 32) 0) >>> (8 * (x.toNat % 32)))

/-- Multiplication by x in GF(2^8). -/
def xtime (x : Byte) : Byte := (x <<< 1) ^^^ (if x.msb then 0x1B else 0)

/-- Multiplication in GF(2^8) by a constant below 16. -/
def gmul (k : Nat) (x : Byte) : Byte :=
  let x2 := xtime x
  let x4 := xtime x2
  let x8 := xtime x4
  (if k.testBit 0 then x else 0) ^^^ (if k.testBit 1 then x2 else 0) ^^^ (if k.testBit 2 then x4 else 0) ^^^
    (if k.testBit 3 then x8 else 0)

/-- The 16 bytes of a 128-bit value, bits [127:120] first (R361). -/
def blockBytes (x : BitVec 128) : List Byte := (List.range 16).map fun i => x.extractLsb' (120 - 8 * i) 8

/-- A 128-bit value from its bytes, first byte in bits [127:120]. -/
def blockOf (bs : List Byte) : BitVec 128 := BitVec.ofNat 128 (bs.foldl (fun n b => 256 * n + b.toNat) 0)

/-- A word of the key schedule put through the S-box. -/
def subWord (w : BitVec 32) : BitVec 32 :=
  rowByte sboxRows (w.extractLsb' 24 8) ++ rowByte sboxRows (w.extractLsb' 16 8) ++
    rowByte sboxRows (w.extractLsb' 8 8) ++ rowByte sboxRows (w.extractLsb' 0 8)

/-- The schedule's next word from the words so far, newest first; `i` is its index. -/
def nextKeyWord (i : Nat) (rc : Byte) (ws : List (BitVec 32)) : BitVec 32 :=
  let t := ws.headD 0
  let t := if i % 8 = 0 then subWord (t.rotateLeft 8) ^^^ (rc ++ 0#24) else if i % 8 = 4 then subWord t else t
  ws.getD 7 0 ^^^ t

def keyGo : Nat → Nat → Byte → List (BitVec 32) → List (BitVec 32)
  | 0, _, _, ws => ws
  | n + 1, i, rc, ws => keyGo n (i + 1) (if i % 8 = 0 then xtime rc else rc) (nextKeyWord i rc ws :: ws)

/-- The 60 words of the key schedule; the key's first byte is the lowest byte of `k` (R353: byte 0 of the derived
key). -/
def keyWords (k : BitVec 256) : List (BitVec 32) :=
  let w (i : Nat) : BitVec 32 :=
    k.extractLsb' (32 * i) 8 ++ k.extractLsb' (32 * i + 8) 8 ++ k.extractLsb' (32 * i + 16) 8 ++ k.extractLsb' (32 * i + 24) 8
  (keyGo 52 8 1 [w 7, w 6, w 5, w 4, w 3, w 2, w 1, w 0]).reverse

/-- Round key `r` as bytes. -/
def roundKey (ws : List (BitVec 32)) (r : Nat) : List Byte :=
  blockBytes (ws.getD (4 * r) 0 ++ ws.getD (4 * r + 1) 0 ++ ws.getD (4 * r + 2) 0 ++ ws.getD (4 * r + 3) 0 : BitVec 128)

def xorBytes (a b : List Byte) : List Byte := List.zipWith (· ^^^ ·) a b

/-- Row r of the state moves left by r columns; the state stands column by column. -/
def shiftRows (s : List Byte) : List Byte := (List.range 16).map fun i => s.getD ((i + 4 * (i % 4)) % 16) 0

def invShiftRows (s : List Byte) : List Byte := (List.range 16).map fun i => s.getD ((i + 12 * (i % 4)) % 16) 0

/-- Each column times the circulant matrix of a first row. -/
def mixWith (c0 c1 c2 c3 : Nat) (s : List Byte) : List Byte :=
  (List.range 16).map fun i =>
    let at' (k : Nat) : Byte := s.getD (4 * (i / 4) + (i + k) % 4) 0
    gmul c0 (at' 0) ^^^ gmul c1 (at' 1) ^^^ gmul c2 (at' 2) ^^^ gmul c3 (at' 3)

/-- One AES-256 block encrypted. -/
def aesBytes (key : BitVec 256) (s : List Byte) : List Byte :=
  let ws := keyWords key
  let s := xorBytes s (roundKey ws 0)
  let s := (List.range 13).foldl
    (fun s r => xorBytes (mixWith 2 3 1 1 (shiftRows (s.map (rowByte sboxRows)))) (roundKey ws (r + 1))) s
  xorBytes (shiftRows (s.map (rowByte sboxRows))) (roundKey ws 14)

/-- One AES-256 block decrypted. -/
def aesInvBytes (key : BitVec 256) (s : List Byte) : List Byte :=
  let ws := keyWords key
  let s := xorBytes s (roundKey ws 14)
  let s := (List.range 13).foldl
    (fun s r => mixWith 14 11 13 9 (xorBytes ((invShiftRows s).map (rowByte invSboxRows)) (roundKey ws (13 - r)))) s
  xorBytes ((invShiftRows s).map (rowByte invSboxRows)) (roundKey ws 0)

/-- AES(key, x) on 128-bit values (R361). -/
def aes (key : BitVec 256) (x : BitVec 128) : BitVec 128 := blockOf (aesBytes key (blockBytes x))

/-! ## XTS (R359) -/

/-- The next tweak: times x, byte 0 lowest. -/
def xtsNext (t : List Byte) : List Byte :=
  let n := leNat t
  leBytes 16 ((2 * n) % 2 ^ 128 ^^^ (if 2 ^ 127 ≤ n then 0x87 else 0))

/-- A 64-byte unit under XTS, each block by `f` between its tweaks. -/
def xtsGo (f : List Byte → List Byte) : Nat → List Byte → List Byte → List Byte
  | 0, _, _ => []
  | n + 1, t, bs => xorBytes (f (xorBytes (bs.take 16) t)) t ++ xtsGo f n (xtsNext t) (bs.drop 16)

def xtsEncrypt (data tweak : BitVec 256) (unit : BitVec 128) (bs : List Byte) : List Byte :=
  xtsGo (aesBytes data) 4 (aesBytes tweak (blockBytes unit)) bs

def xtsDecrypt (data tweak : BitVec 256) (unit : BitVec 128) (bs : List Byte) : List Byte :=
  xtsGo (aesInvBytes data) 4 (aesBytes tweak (blockBytes unit)) bs

/-! ## GHASH (R362) -/

/-- The product of GCM's field: bit 127 is the coefficient of 1. -/
def ghashMulGo (y : BitVec 128) : Nat → BitVec 128 → BitVec 128 → BitVec 128
  | 0, _, z => z
  | n + 1, v, z =>
    let z := if y.getLsbD n then z ^^^ v else z
    ghashMulGo y n ((v >>> 1) ^^^ (if v.getLsbD 0 then 0xE1#128 <<< 120 else 0)) z

def ghashMul (x y : BitVec 128) : BitVec 128 := ghashMulGo y 128 x 0

/-- X over blocks, with hash key `h`. -/
def ghash (h : BitVec 128) (blocks : List (BitVec 128)) : BitVec 128 :=
  blocks.foldl (fun x c => ghashMul (x ^^^ c) h) 0

/-- The 16-byte blocks of a byte list. -/
def blocksOf : Nat → List Byte → List (BitVec 128)
  | 0, _ => []
  | n + 1, bs => blockOf (bs.take 16) :: blocksOf n (bs.drop 16)

/-! ## SM3 and its key derivation (R353, R400) -/

def sm3P0 (x : BitVec 32) : BitVec 32 := x ^^^ x.rotateLeft 9 ^^^ x.rotateLeft 17
def sm3P1 (x : BitVec 32) : BitVec 32 := x ^^^ x.rotateLeft 15 ^^^ x.rotateLeft 23

/-- The message words after the first 16, newest first. -/
def sm3Expand : Nat → List (BitVec 32) → List (BitVec 32)
  | 0, ws => ws
  | n + 1, ws =>
    sm3Expand n ((sm3P1 (ws.getD 15 0 ^^^ ws.getD 8 0 ^^^ (ws.getD 2 0).rotateLeft 15) ^^^
      (ws.getD 12 0).rotateLeft 7 ^^^ ws.getD 5 0) :: ws)

/-- One round on the eight chaining words. -/
def sm3Round (j : Nat) (w w4 : BitVec 32) (v : List (BitVec 32)) : List (BitVec 32) :=
  let a := v.getD 0 0
  let b := v.getD 1 0
  let c := v.getD 2 0
  let d := v.getD 3 0
  let e := v.getD 4 0
  let f := v.getD 5 0
  let g := v.getD 6 0
  let h := v.getD 7 0
  let t : BitVec 32 := if j < 16 then 0x79CC4519 else 0x7A879D8A
  let ss1 := (a.rotateLeft 12 + e + t.rotateLeft (j % 32)).rotateLeft 7
  let ss2 := ss1 ^^^ a.rotateLeft 12
  let ff := if j < 16 then a ^^^ b ^^^ c else (a &&& b) ||| (a &&& c) ||| (b &&& c)
  let gg := if j < 16 then e ^^^ f ^^^ g else (e &&& f) ||| (~~~e &&& g)
  [ff + d + ss2 + (w ^^^ w4), a, b.rotateLeft 9, c, sm3P0 (gg + h + ss1 + w), e, f.rotateLeft 19, g]

def sm3Compress (v : List (BitVec 32)) (block : List Byte) : List (BitVec 32) :=
  let w0 := (List.range 16).map fun i =>
    (block.getD (4 * i) 0 ++ block.getD (4 * i + 1) 0 ++ block.getD (4 * i + 2) 0 ++ block.getD (4 * i + 3) 0 : BitVec 32)
  let ws := (sm3Expand 52 w0.reverse).reverse
  let v' := (List.range 64).foldl (fun u j => sm3Round j (ws.getD j 0) (ws.getD (j + 4) 0) u) v
  List.zipWith (· ^^^ ·) v v'

def sm3Blocks : Nat → List (BitVec 32) → List Byte → List (BitVec 32)
  | 0, v, _ => v
  | n + 1, v, bs => sm3Blocks n (sm3Compress v (bs.take 64)) (bs.drop 64)

/-- The 32-byte digest. -/
def sm3 (msg : List Byte) : List Byte :=
  let pad := (119 - msg.length % 64) % 64
  let m := msg ++ [0x80] ++ List.replicate pad 0 ++ (leBytes 8 (8 * msg.length)).reverse
  let v := sm3Blocks (m.length / 64)
    [0x7380166F, 0x4914B2B9, 0x172442D7, 0xDA8A0600, 0xA96F30BC, 0x163138AA, 0xE38DEE4D, 0xB0FB0E4E] m
  v.flatMap fun w => [w.extractLsb' 24 8, w.extractLsb' 16 8, w.extractLsb' 8 8, w.extractLsb' 0 8]

/-- Blocks of the key derivation: SM3(Z || counter), the counter big-endian from 1. -/
def sm3Kdf (z : List Byte) (blocks : Nat) : List Byte :=
  (List.range blocks).flatMap fun i => sm3 (z ++ (leBytes 4 (i + 1)).reverse)

/-- A 256-bit key from 32 bytes, byte 0 lowest. -/
def keyOf (bs : List Byte) : BitVec 256 := BitVec.ofNat 256 (leNat bs)

/-- Kenc and Kmac of a slot (R353). -/
def slotKeys (master : BitVec 256) (slot : BitVec 6) (gen : BitVec 16) : BitVec 256 × BitVec 256 :=
  let z := leBytes 32 master.toNat ++ [slot.setWidth 8] ++ leBytes 2 gen.toNat ++
    [0x68, 0x65, 0x61, 0x72, 0x74, 0x68]
  let out := sm3Kdf z 2
  (keyOf (out.take 32), keyOf (out.drop 32))

/-- HMAC-SM3 under a 32-byte key. -/
def hmacSm3 (key msg : List Byte) : List Byte :=
  let pad (x : Byte) : List Byte := key.map (· ^^^ x) ++ List.replicate 32 x
  sm3 (pad 0x5C ++ sm3 (pad 0x36 ++ msg))

/-- The key of a record spawned by a firing, or of an actor's k-th firing (R400): the digest's low 64 bits. -/
def taskKey (parent : Word) (ordinal : Nat) : Word :=
  BitVec.ofNat 64 (leNat ((sm3 (leBytes 8 parent.toNat ++ leBytes 4 ordinal)).take 8))

/-! ## AES-256-GCM (R158, R340) -/

/-- The counter block n of a nonce. -/
def gcmBlock (nonce : BitVec 96) (n : Nat) : BitVec 128 := nonce ++ BitVec.ofNat 32 n

/-- Bytes encrypted or decrypted, block by block, from counter `k`. -/
def gcmCrypt (key : BitVec 256) (nonce : BitVec 96) : Nat → Nat → List Byte → List Byte
  | 0, _, _ => []
  | n + 1, k, bs =>
    xorBytes (bs.take 16) (aesBytes key (blockBytes (gcmBlock nonce k))) ++ gcmCrypt key nonce n (k + 1) (bs.drop 16)

/-- Bytes with zeros up to whole blocks. -/
def padBlocks (bs : List Byte) : List Byte := bs ++ List.replicate ((16 - bs.length % 16) % 16) 0

/-- The tag of a ciphertext of any length under additional data of any length. -/
def gcmTagOf (key : BitVec 256) (nonce : BitVec 96) (aad ct : List Byte) : BitVec 128 :=
  let blocks (bs : List Byte) : List (BitVec 128) := blocksOf ((bs.length + 15) / 16) (padBlocks bs)
  aes key (gcmBlock nonce 1) ^^^
    ghash (aes key 0) (blocks aad ++ blocks ct ++ [BitVec.ofNat 64 (8 * aad.length) ++ BitVec.ofNat 64 (8 * ct.length)])

/-- Bytes encrypted with their tag. -/
def gcmSeal (key : BitVec 256) (nonce : BitVec 96) (aad plain : List Byte) : List Byte × BitVec 128 :=
  let ct := gcmCrypt key nonce ((plain.length + 15) / 16) 2 plain
  (ct, gcmTagOf key nonce aad ct)

/-- The tag of `n` blocks of ciphertext under `aadBits` bits of additional data, which begin the block `aad`. -/
def gcmTag (key : BitVec 256) (nonce : BitVec 96) (aad : BitVec 128) (aadBits n : Nat) (ct : List Byte) : BitVec 128 :=
  aes key (gcmBlock nonce 1) ^^^
    ghash (aes key 0) (aad :: blocksOf n ct ++ [BitVec.ofNat 64 aadBits ++ BitVec.ofNat 64 (128 * n)])

end Sys2Proof.Machine
end

