-- ==== Sys2Proof/Machine/Translate.lean ====
section
/-! DEFINITION. Homes, page tables and translation (chapter 9): the slices of HBM, the walk of Sv57 entries, the TLB, the
frame modes, and the outcome of R151 for an access of the modelled home. -/

namespace Sys2Proof.Machine

def gib : Nat := 2 ^ 30

/-- The base of cluster `c`'s slice (R146). -/
def sliceBase (c : Nat) : Nat := (2 * (c / 8) + c % 8 / 4) * 64 * gib + c % 4 * 15 * gib

/-- Where a slice's reserved top begins (R147). -/
def reservedTop : Nat := 0x326C40000

/-- The base of the modelled cluster's slice. -/
def State.base (s : State) : Nat := sliceBase s.clusterNo.toNat

/-- Physical bytes [pa, pa + n) lie in a control carve-out (R146). -/
def inCarveOut (pa n : Nat) : Bool := 60 * gib ≤ pa % (64 * gib) && pa % (64 * gib) + n ≤ 64 * gib && pa + n ≤ 1152 * gib

/-- A line's 64 bytes as one value, byte 0 lowest. -/
def Mem.line (m : List Host.Cell) (a : Nat) : Line := BitVec.ofNat 512 (Mem.nat m a 64)

def lineBytes (l : Line) : List Byte := leBytes 64 l.toNat
def lineOfBytes (bs : List Byte) : Line := BitVec.ofNat 512 (leNat bs)

/-- Bits [hi:lo] of an entry as a number. -/
def bits (x : Word) (lo n : Nat) : Nat := (x.extractLsb' lo n).toNat

/-! ## Entries (R144, R145) -/

/-- A leaf as a walk finds it: its entry, the physical base of its frame, the bytes it covers. -/
structure Leaf where
  pte : Word
  frame : Nat
  size : Nat
deriving DecidableEq, Repr

/-- How a walk ends. -/
inductive WalkEnd where
  | unmapped
  | notResident
  | leaf (l : Leaf)
deriving DecidableEq, Repr

/-- The protection mode, grain and no-allocate bit of a leaf. -/
def pteMode (p : Word) : BitVec 2 := p.extractLsb' 59 2
def pteGrain (p : Word) : Grain := if bits p 57 2 = 0 then .g32 else if bits p 57 2 = 1 then .g128 else .g512
def pteNa (p : Word) : Bool := p.getLsbD 55
def pteR (p : Word) : Bool := p.getLsbD 1
def pteW (p : Word) : Bool := p.getLsbD 2
def pteX (p : Word) : Bool := p.getLsbD 3

/-- The bytes of a group of 1 GiB leaves, from PPN[20:18] (R145). -/
def groupSize (p : Word) : Option Nat :=
  match bits p 28 3 with
  | 4 => some (8 * gib)
  | 2 => some (4 * gib)
  | 6 => some (4 * gib)
  | n => if n % 2 = 1 then some (2 * gib) else none

/-- The bytes a leaf at a level covers; none where it is malformed by its level, its group or its alignment. -/
def leafSize (level : Nat) (p : Word) : Option Nat :=
  let group := p.getLsbD 56
  match level with
  | 0 => if group then none else some 4096
  | 1 => if group || bits p 10 9 ≠ 0 then none else some (2 ^ 21)
  | 2 => if bits p 10 18 ≠ 0 then none else if group then groupSize p else some gib
  | _ => none

/-- A leaf's own fields are well formed (R144). -/
def leafFieldsOk (p : Word) : Bool :=
  !p.getLsbD 63 && bits p 61 2 == 0 && bits p 59 2 != 3 && bits p 57 2 != 3 && p.getLsbD 6 && (!pteW p || (pteR p && p.getLsbD 7))

/-- A leaf's frame is one that the home's addresses may reach (R146, R147, R419), and its mode one that the space's key
slot allows (R150). -/
def leafPlaceOk (slice : Option Nat) (clear : Bool) (p : Word) (frame size : Nat) : Bool :=
  (!clear || bits p 59 2 == 0) &&
    match slice with
    | some b => b ≤ frame && frame + size ≤ b + reservedTop
    | none => inCarveOut frame size && bits p 59 2 == 0 && !pteW p

/-- The leaf that an entry makes. -/
def leafOf (slice : Option Nat) (clear : Bool) (level : Nat) (p : Word) : WalkEnd :=
  match leafSize level p with
  | none => .unmapped
  | some size =>
    let frame := bits p 10 44 * 4096 / size * size
    if leafFieldsOk p && leafPlaceOk slice clear p frame size then .leaf { pte := p, frame := frame, size := size }
    else .unmapped

/-- A walk from the table at physical address `table`; `level + 1` levels are left. -/
def walk (m : List Host.Cell) (slice : Option Nat) (clear : Bool) (va : Word) : Nat → Nat → WalkEnd
  | 0, _ => .unmapped
  | level + 1, table =>
    let p := Mem.word m (hbmKey (table + 8 * bits va (12 + 9 * level) 9))
    if !p.getLsbD 0 then
      if level ≤ 2 && (bits p 1 2 == 1 || bits p 1 2 == 2) then .notResident else .unmapped
    else if bits p 1 3 ≠ 0 then leafOf slice clear level p
    else if p.getLsbD 63 || bits p 54 9 ≠ 0 || !inCarveOut (bits p 10 44 * 4096) 4096 then .unmapped
    else walk m slice clear va level (bits p 10 44 * 4096)

/-! ## Translation (R151) -/

/-- What an access needs of a page. -/
inductive Need where
  | load | store | fetch
deriving DecidableEq, Repr

/-- How a translation ends for the requester: unmapped, not resident, a trap's cause, or a physical address with the
entry that gave it. -/
inductive TrOut where
  | unmapped
  | notResident
  | trap (cause : Byte)
  | ok (pa : Nat) (pte : Word)
deriving DecidableEq, Repr

/-- A space's descriptor, if it is valid and usable (R142). -/
def State.space? (s : State) (sp : BitVec 16) : Option SpaceDesc :=
  s.dev.spaces.find? fun d => d.space == sp && d.valid && d.mode == 10#4

/-- The key slot of a space still carries the generation the descriptor names (R150); slot 63 is installed at boot and never kindled
(R351). -/
def State.keyOk (s : State) (slot : BitVec 6) (gen : BitVec 16) : Bool :=
  slot == 0 || (slot == 63 && s.dev.slots[63].kenc.isSome && s.dev.slots[63].gen == gen) || (s.dev.slots[slot.toNat]'(slot.isLt)).st == .kindled && (s.dev.slots[slot.toNat]'(slot.isLt)).gen == gen

/-- The rights an access needs, from the three bits. -/
def Need.granted (n : Need) (r w x : Bool) : Bool :=
  match n with
  | .load => r
  | .store => w
  | .fetch => x

/-- The generation that the TLB knows of a space: it caches entries only while it watches the space's word (R153). -/
def State.tlbGen (s : State) (sp : BitVec 16) : Option Word := (s.cl.tlbGens.find? fun x => x.1 == sp).map (·.2)

/-- A usable TLB entry for an address (R149, R153). -/
def State.tlbHit (s : State) (sp : BitVec 16) (va : Word) : Option TlbEntry :=
  s.cl.tlb.find? fun e => e.space == sp && e.va.toNat ≤ va.toNat && va.toNat < e.va.toNat + e.size

/-- The TLB watches a space's word; at most 16 spaces, and none that the sluice of home 127 refuses, which then walks every
miss (R153). A space that is watched stays so: the manual states no rule by which a TLB gives up a watch for another space's
(DESIGN CHOICE, log 75). -/
def State.watchSpace (s : State) (d : SpaceDesc) : State :=
  if (s.tlbGen d.space).isSome || s.cl.tlbRefused.contains d.space || 16 ≤ s.cl.tlbGens.length then s
  else if 4096 ≤ s.dev.svc.sluice.length + s.cl.tlbGens.length + s.dev.svc.tlbGens.length then
    s.setCl { s.cl with tlbRefused := d.space :: s.cl.tlbRefused }
  else s.setCl { s.cl with tlbGens := s.cl.tlbGens ++ [(d.space, d.gen)] }

/-- A leaf installed in the TLB, 2,048 entries, the newest first. -/
def State.tlbFill (s : State) (d : SpaceDesc) (va : Word) (l : Leaf) : State :=
  let s := s.watchSpace d
  match s.tlbGen d.space with
  | none => s
  | some g =>
    let e : TlbEntry :=
      { space := d.space, va := BitVec.ofNat 64 (va.toNat / l.size * l.size), size := l.size, frame := l.frame,
        pte := l.pte, slot := d.slot, slotGen := d.slotGen, gen := g }
    s.setCl { s.cl with tlb := (e :: s.cl.tlb).take 2048 }

/-- The mode table's entry for the frame at `pa`: none is free (R154). -/
def State.frameMode (s : State) (pa : Nat) : Option (BitVec 2) := (s.cl.modes.find? fun x => x.1 == pa / 4096).map (·.2)

def State.setFrameMode (s : State) (pa : Nat) (m : BitVec 2) : State :=
  s.setCl { s.cl with modes := (pa / 4096, m) :: s.cl.modes.filter fun x => x.1 != pa / 4096 }

/-- The leaf that serves an address, from the TLB or by a walk of the modelled home's tables, with the key slot and
generation it was filled under (R150). -/
def State.leafFor (s : State) (d : SpaceDesc) (va : Word) : State × WalkEnd × BitVec 6 × BitVec 16 :=
  match s.tlbHit d.space va with
  | some e => (s, .leaf { pte := e.pte, frame := e.frame, size := e.size }, e.slot, e.slotGen)
  | none =>
    match walk s.mem (some s.base) (d.slot == 0) va 5 (d.root.toNat * 4096) with
    | .leaf l => (s.tlbFill d va l, .leaf l, d.slot, d.slotGen)
    | .notResident => (s, .notResident, d.slot, d.slotGen)
    | .unmapped => (s, .unmapped, d.slot, d.slotGen)

/-- What a leaf answers to an access (rows 3, 4 and 6 of R151). -/
def State.leafOut (s : State) (va : Word) (need : Need) (l : Leaf) (slot : BitVec 6) (gen : BitVec 16) : TrOut :=
  if !need.granted (pteR l.pte) (pteW l.pte) (pteX l.pte) then .trap 0x09
  else if !s.keyOk slot gen then .trap 0x09
  else .ok (l.frame + va.toNat % l.size) l.pte

/-- Rows 1-4 and 6 of R151, in order, for an access to `va` under a space; row 5 is the mode check of the fill. -/
def State.translate (s : State) (sp : BitVec 16) (va : Word) (need : Need) : State × TrOut :=
  match s.space? sp with
  | none => (s, .trap 0x09)
  | some d =>
    match s.leafFor d va with
    | (s, .unmapped, _) => (s, .unmapped)
    | (s, .notResident, _) => (s, .notResident)
    | (s, .leaf l, slot, gen) => (s, s.leafOut va need l slot gen)

/-! ## Home 127's own walker (R419) -/

def State.setSvc (s : State) (v : Service) : State := s.setDev { s.dev with svc := v }

/-- A usable entry of home 127's TLB. -/
def State.serviceHit (s : State) (sp : BitVec 16) (va : Word) : Option TlbEntry :=
  s.dev.svc.tlb.find? fun e => e.space == sp && e.va.toNat ≤ va.toNat && va.toNat < e.va.toNat + e.size

/-- Home 127's TLB watches a space's word as the cluster's does (R153, R419). -/
def State.serviceWatch (s : State) (d : SpaceDesc) : State :=
  let v := s.dev.svc
  if (v.tlbGens.any fun x => x.1 == d.space) || v.tlbRefused.contains d.space || 16 ≤ v.tlbGens.length then s
  else if 4096 ≤ v.sluice.length + s.cl.tlbGens.length + v.tlbGens.length then s.setSvc { v with tlbRefused := d.space :: v.tlbRefused }
  else s.setSvc { v with tlbGens := v.tlbGens ++ [(d.space, d.gen)] }

/-- A leaf installed in home 127's TLB, 2,048 entries, the newest first, while it watches the space's word. -/
def State.serviceFill (s : State) (d : SpaceDesc) (va : Word) (l : Leaf) : State :=
  let s := s.serviceWatch d
  match s.dev.svc.tlbGens.find? fun x => x.1 == d.space with
  | none => s
  | some x =>
    let e : TlbEntry :=
      { space := d.space, va := BitVec.ofNat 64 (va.toNat / l.size * l.size), size := l.size, frame := l.frame,
        pte := l.pte, slot := d.slot, slotGen := d.slotGen, gen := x.2 }
    s.setSvc { s.dev.svc with tlb := (e :: s.dev.svc.tlb).take 2048 }

/-- Where a space's generation word stands (R153): the translation of its address under the space, else under space 0; nowhere
where neither maps it. -/
def State.genPlace (s : State) (d : SpaceDesc) : Option Nat :=
  let at' (d' : SpaceDesc) : Option Nat :=
    match walk s.mem none (d'.slot == 0) d.genWord 5 (d'.root.toNat * 4096) with
    | .leaf l => some (l.frame + d.genWord.toNat % l.size)
    | .unmapped => none
    | .notResident => none
  at' d <|> (s.space? 0).bind at'

/-- The translation of an address of home 127 under the requesting space's table: frames in the control carve-outs, mode 00,
no write; the mixed-mode row never arises. -/
def State.serviceTranslate (s : State) (sp : BitVec 16) (va : Word) (need : Need) : State × TrOut :=
  match s.space? sp with
  | none => (s, .trap 0x09)
  | some d =>
    match s.serviceHit sp va with
    | some e => (s, s.leafOut va need { pte := e.pte, frame := e.frame, size := e.size } e.slot e.slotGen)
    | none =>
      match walk s.mem none (d.slot == 0) va 5 (d.root.toNat * 4096) with
      | .unmapped => (s, .unmapped)
      | .notResident => (s, .notResident)
      | .leaf l => (s.serviceFill d va l, s.leafOut va need l d.slot d.slotGen)

end Sys2Proof.Machine
end

