-- ==== Sys2Proof/Machine/Sealed.lean ====
section
/-! DEFINITION. The memory port (chapter 19): veiled and sealed lines below the near cache, the counter tree of sealed
metadata, initialization, overflow, fills and write-backs. `VA` is a line's or page's virtual address. -/

namespace Sys2Proof.Machine

/-! ## Keys and places -/

/-- The key slot of a space. -/
def State.slotOf (s : State) (sp : BitVec 16) : BitVec 6 :=
  match s.dev.spaces.find? fun d => d.space == sp with
  | some d => d.slot
  | none => 0

/-- Kenc and Kmac of a space's slot, while they are installed (R353, R355). -/
def State.keysOf (s : State) (slot : BitVec 6) : Option (BitVec 256 × BitVec 256) :=
  match (s.dev.slots[slot.toNat]'(slot.isLt)).kenc, (s.dev.slots[slot.toNat]'(slot.isLt)).kmac with
  | some e, some m => some (e, m)
  | _, _ => none

/-- Frame number within the slice of a physical address. -/
def State.frameOf (s : State) (pa : Nat) : Nat := (pa - s.base) / 4096

/-- Physical addresses of sealed metadata (R360). -/
def State.metaBase (s : State) : Nat := s.base + 0x336E40000
def State.counterAt (s : State) (f : Nat) : Nat := s.metaBase + 64 * f
def State.macAt (s : State) (f j : Nat) : Nat := s.metaBase + 0xF000000 + 512 * f + 64 * (j / 8) + 7 * (j % 8)
def State.counterMacAt (s : State) (f : Nat) : Nat := s.metaBase + 0xF000000 + 512 * f + 56

/-- The node of level 1-3 on a frame's path. -/
def pathKey (f level : Nat) : MetaKey :=
  { level := level, index := if level = 1 then f else if level = 2 then f / 8 else f / 64 }

def State.nodeAt (s : State) (k : MetaKey) : Nat :=
  if k.level = 1 then s.counterAt k.index
  else if k.level = 2 then s.metaBase + 0x87000000 + 64 * k.index
  else s.metaBase + 0x88E00000 + 64 * k.index

/-! ## Counters, keystream and MACs (R361-R363) -/

def majorOf (cb : Line) : BitVec 64 := cb.extractLsb' 0 64
def minorOf (cb : Line) (j : Nat) : BitVec 7 := cb.extractLsb' (64 + 7 * j) 7

/-- A line value with `n` bits at `lo` replaced. -/
def putBits (l : Line) (lo n v : Nat) : Line :=
  let mask : Line := BitVec.ofNat 512 ((2 ^ n - 1) * 2 ^ lo)
  (l &&& ~~~mask) ||| BitVec.ofNat 512 (v % 2 ^ n * 2 ^ lo)

def setMinor (cb : Line) (j : Nat) (v : Nat) : Line := putBits cb (64 + 7 * j) 7 v

/-- The version a node holds for its child i. -/
def versionIn (node : Line) (i : Nat) : Nat := (node.extractLsb' (56 * i) 56).toNat
def setVersion (node : Line) (i v : Nat) : Line := putBits node (56 * i) 56 v

/-- VA[56:6]. -/
def lineNo (va : Word) : BitVec 51 := va.extractLsb' 6 51

/-- The keystream bytes of a line. -/
def keystream (kenc : BitVec 256) (va : Word) (major : BitVec 64) (minor : BitVec 7) : List Byte :=
  (List.range 4).flatMap fun b =>
    aesBytes kenc (blockBytes (0#4 ++ lineNo va ++ major ++ minor ++ BitVec.ofNat 2 b : BitVec 128))

/-- The seven MAC bytes of a line's ciphertext. -/
def lineMac (kmac : BitVec 256) (va : Word) (major : BitVec 64) (minor : BitVec 7) (ct : List Byte) : List Byte :=
  let x := ghash (aes kmac 0) (blocksOf 4 ct)
  (blockBytes (aes kmac (0xF#4 ++ lineNo va ++ major ++ minor ++ 0#2 : BitVec 128) ^^^ x)).take 7

/-- The eight MAC bytes of a counter block or a node. -/
def nodeMac (kmac63 : BitVec 256) (home : BitVec 17) (k : MetaKey) (node : Line) (version : Nat) : List Byte :=
  let p := if k.level = 1 then lineBytes node else (lineBytes node).take 56 ++ List.replicate 8 0
  let x := ghash (aes kmac63 0) (blocksOf 4 p)
  let head : BitVec 128 :=
    0xE#4 ++ BitVec.ofNat 2 k.level ++ home ++ BitVec.ofNat 22 k.index ++ 0#27 ++ BitVec.ofNat 56 version
  (blockBytes (aes kmac63 head ^^^ x)).take 8

/-! ## The tree -/

/-- Slot 63's Kmac. -/
def State.kmac63 (s : State) : BitVec 256 := s.dev.slots[63].kmac.getD 0

def State.rootOf (s : State) (r : Nat) : Nat := ((s.cl.roots.find? fun x => x.1 == r).map (·.2)).getD 0
def State.setRoot (s : State) (r v : Nat) : State :=
  s.setCl { s.cl with roots := (r, v) :: s.cl.roots.filter fun x => x.1 != r }

def State.cached (s : State) (k : MetaKey) : Option Line := (s.cl.metaCache.find? fun x => x.1 == k).map (·.2)

/-- A verified node enters the metadata cache of 1,024 entries. -/
def State.cacheNode (s : State) (k : MetaKey) (l : Line) : State :=
  s.setCl { s.cl with metaCache := ((k, l) :: s.cl.metaCache.filter fun x => x.1 != k).take 1024 }

/-- The stored MAC of a node: the counter block's stands in MAC line 0. -/
def State.storedMac (s : State) (f level : Nat) : List Byte :=
  if level = 1 then Mem.bytes s.mem (hbmKey (s.counterMacAt f)) 8
  else Mem.bytes s.mem (hbmKey (s.nodeAt (pathKey f level) + 56)) 8

/-- A node of a frame's path under the version that its parent holds for it (R364, R365): the cached one, or the one in HBM,
installed once it has been verified; none where it fails, which is counted (R370). -/
def State.obtain (s : State) (f level version : Nat) : State × Option Line :=
  let k := pathKey f level
  match s.cached k with
  | some l => (s, some l)
  | none =>
    if version = 0 then (s.cacheNode k 0, some 0)
    else
      let node := Mem.line s.mem (hbmKey (s.nodeAt k))
      if nodeMac s.kmac63 s.home k node version = s.storedMac f level then (s.cacheNode k node, some node)
      else (s.count .treeFailures 1, none)

/-- The level-3 and level-2 nodes of a frame's path, top down, each under its parent's version. -/
def State.parents (s : State) (f : Nat) : State × Option (Line × Line) :=
  match s.obtain f 3 (s.rootOf (f / 64)) with
  | (s, none) => (s, none)
  | (s, some n3) =>
    match s.obtain f 2 (versionIn n3 (f / 8 % 8)) with
    | (s, none) => (s, none)
    | (s, some n2) => (s, some (n3, n2))

/-- The counter block that a fill needs: the walk stops at the first cached node, seen from the block (R365). -/
def State.block (s : State) (f : Nat) : State × Option Line :=
  match s.cached (pathKey f 1) with
  | some cb => (s.count .metaHits 1, some cb)
  | none =>
    match s.cached (pathKey f 2) with
    | some n2 => s.obtain f 1 (versionIn n2 (f % 8))
    | none =>
      match s.parents f with
      | (s, none) => (s, none)
      | (s, some n) => s.obtain f 1 (versionIn n.2 (f % 8))

/-- A frame's path as an update needs it: its nodes and its counter block, each cached or verified. -/
structure Path where
  top : Line
  mid : Line
  cb : Line
deriving DecidableEq, Repr

/-- The path that an update verifies and goes on to change: a parent that the metadata cache no longer holds is read and
verified again (R363, R366). -/
def State.path (s : State) (f : Nat) : State × Option Path :=
  let hit := [1, 2, 3].all fun level => (s.cached (pathKey f level)).isSome
  match s.parents f with
  | (s, none) => (s, none)
  | (s, some (n3, n2)) =>
    match s.obtain f 1 (versionIn n2 (f % 8)) with
    | (s, none) => (s, none)
    | (s, some cb) => (if hit then s.count .metaHits 1 else s, some { top := n3, mid := n2, cb := cb })

/-- The versions of the level-3 node, the level-2 node and the counter block of a path. -/
def State.versions (s : State) (f : Nat) (p : Path) : Nat × Nat × Nat :=
  (s.rootOf (f / 64), versionIn p.top (f / 8 % 8), versionIn p.mid (f % 8))

/-- No version on the path stands at 2^56 - 1 (R364). -/
def State.versionsOk (s : State) (f : Nat) (p : Path) : Bool :=
  let v := s.versions f p
  decide (v.1 < 2 ^ 56 - 1) && decide (v.2.1 < 2 ^ 56 - 1) && decide (v.2.2 < 2 ^ 56 - 1)

def State.writeHbm (s : State) (pa : Nat) (bs : List Byte) : State := s.setMem (Mem.writeBytes s.mem (hbmKey pa) bs)

/-- The path of a frame updated once with a new counter block: every version rises by one, the MACs are computed again,
and the blocks are written (R366). -/
def State.updatePath (s : State) (f : Nat) (p : Path) (cb : Line) : State :=
  let (v3, v2, v1) := s.versions f p
  let n2 := setVersion p.mid (f % 8) (v1 + 1)
  let n3 := setVersion p.top (f / 8 % 8) (v2 + 1)
  let n2 := putBits n2 448 64 (leNat (nodeMac s.kmac63 s.home (pathKey f 2) n2 (v2 + 1)))
  let n3 := putBits n3 448 64 (leNat (nodeMac s.kmac63 s.home (pathKey f 3) n3 (v3 + 1)))
  let s := s.writeHbm (s.counterAt f) (lineBytes cb)
  let s := s.writeHbm (s.counterMacAt f) (nodeMac s.kmac63 s.home (pathKey f 1) cb (v1 + 1))
  let s := s.writeHbm (s.nodeAt (pathKey f 2)) (lineBytes n2)
  let s := s.writeHbm (s.nodeAt (pathKey f 3)) (lineBytes n3)
  ((((s.setRoot (f / 64) (v3 + 1)).cacheNode (pathKey f 3) n3).cacheNode (pathKey f 2) n2).cacheNode (pathKey f 1) cb).count
    .sealedWritebacks 1

/-! ## Poison of HBM granules -/

def State.hbmPoisoned (s : State) (pa : Nat) : Bool := s.cl.hbmPoison.contains (pa / 64)

/-- The poison bit of an HBM granule set or cleared. -/
def State.setHbmPoison (s : State) (pa : Nat) (b : Bool) : State :=
  let rest := s.cl.hbmPoison.filter fun g => g != pa / 64
  s.setCl { s.cl with hbmPoison := if b then pa / 64 :: rest else rest }

/-! ## Writing sealed lines -/

/-- A line encrypted and written with its MAC. -/
def State.putSealed (s : State) (keys : BitVec 256 × BitVec 256) (f j : Nat) (va : Word) (major : BitVec 64)
    (minor : BitVec 7) (plain : List Byte) : State :=
  let ct := xorBytes plain (keystream keys.1 va major minor)
  let s := s.writeHbm (s.base + 4096 * f + 64 * j) ct
  s.writeHbm (s.macAt f j) (lineMac keys.2 va major minor ct)

/-- A line read under a counter block: its plaintext, or none where its MAC differs (R365). -/
def State.getSealed (s : State) (keys : BitVec 256 × BitVec 256) (f j : Nat) (va : Word) (cb : Line) : Option (List Byte) :=
  let ct := Mem.bytes s.mem (hbmKey (s.base + 4096 * f + 64 * j)) 64
  let mac := Mem.bytes s.mem (hbmKey (s.macAt f j)) 7
  if mac = lineMac keys.2 va (majorOf cb) (minorOf cb j) ct then
    some (xorBytes ct (keystream keys.1 va (majorOf cb) (minorOf cb j)))
  else none

/-- Lines j .. of a page written with minor 0. -/
def State.putPage (s : State) (keys : BitVec 256 × BitVec 256) (f : Nat) (page : Word) (major : BitVec 64) :
    Nat → Nat → List Byte → State
  | 0, _, _ => s
  | n + 1, j, bs =>
    (s.putSealed keys f j (page + BitVec.ofNat 64 (64 * j)) major 0 (bs.take 64)).putPage keys f page major n (j + 1) (bs.drop 64)

/-- The major source of a key slot (R368). -/
def State.majorSource (s : State) (slot : BitVec 6) : Word := ((s.cl.majors.find? fun x => x.1 == slot).map (·.2)).getD 0
def State.setMajorSource (s : State) (slot : BitVec 6) (v : Word) : State :=
  s.setCl { s.cl with majors := (slot, v) :: s.cl.majors.filter fun x => x.1 != slot }

/-- A fresh span of majors, unless the source is exhausted. -/
def State.freshMajor (s : State) (slot : BitVec 6) : Option (Word × State) :=
  let m := s.majorSource slot
  if 2 ^ 64 - 2 ^ 24 ≤ m.toNat then none else some (m, s.setMajorSource slot (m + 2 ^ 24))

/-- How an initialization ends (R368); `exhausted` is a version that cannot rise (R364). -/
inductive InitOut where
  | done | refused | pathFailed | exhausted
deriving DecidableEq, Repr

/-- A sealed frame initialized with a page's data (R368). -/
def State.sealedInit (s : State) (sp : BitVec 16) (f : Nat) (page : Word) (data : List Byte) : State × InitOut :=
  match s.keysOf (s.slotOf sp) with
  | none => (s, .pathFailed)
  | some keys =>
    match s.path f with
    | (s, none) => (s, .pathFailed)
    | (s, some p) =>
      if !s.versionsOk f p then (s, .exhausted)
      else
        match s.freshMajor (s.slotOf sp) with
        | none => (s, .refused)
        | some (major, s) =>
          let s := s.putPage keys f page major 64 0 data
          ((s.updatePath f p (major.setWidth 512)).count .sealedInits 1, .done)

/-- Lines of a page read under the old counters, encrypted again under a new major with minor 0; a line that fails is
written with HBM poison (R367), its MAC mismatch counted (R370). -/
def State.recrypt (s : State) (keys : BitVec 256 × BitVec 256) (f : Nat) (page : Word) (old : Line) (major : BitVec 64) :
    Nat → Nat → State
  | 0, _ => s
  | n + 1, j =>
    let va := page + BitVec.ofNat 64 (64 * j)
    let pa := s.base + 4096 * f + 64 * j
    let s :=
      match s.getSealed keys f j va old with
      | some plain => s.putSealed keys f j va major 0 plain
      | none =>
        let s := if s.hbmPoisoned pa then s else s.count .macFailures 1
        (s.putSealed keys f j va major 0 (List.replicate 64 0)).setHbmPoison pa true
    s.recrypt keys f page old major n (j + 1)

/-- The overflow of a page at its line j, with the line's new plaintext (R367); none where it is not performed. -/
def State.overflow (s : State) (slot : BitVec 6) (keys : BitVec 256 × BitVec 256) (f j : Nat) (page : Word)
    (plain : List Byte) (p : Path) : Option State :=
  let old := p.cb
  let major := majorOf old
  let next := if major.extractLsb' 0 24 = 0xFFFFFF#24 then s.freshMajor slot else some (major + 1, s)
  next.map fun x =>
    let s := x.2.recrypt keys f page old x.1 64 0
    let s := s.putSealed keys f j (page + BitVec.ofNat 64 (64 * j)) x.1 1 plain
    (s.updatePath f p (setMinor (x.1.setWidth 512) j 1)).count .minorOverflows 1

/-- The write-back of one sealed line (R366, R367, R369). `poison` is the line's own poison bit. -/
def State.sealWrite (s : State) (sp : BitVec 16) (va : Word) (pa : Nat) (plain : List Byte) (poison : Bool) : State :=
  let f := s.frameOf pa
  let j := pa % 4096 / 64
  match s.keysOf (s.slotOf sp) with
  | none => s.count .quenchDiscards 1
  | some keys =>
    match s.path f with
    | (s, none) => s.setHbmPoison pa true
    | (s, some p) =>
      if !s.versionsOk f p then s.setHbmPoison pa true
      else
        let cb := p.cb
        if minorOf cb j = 127#7 then
          match s.overflow (s.slotOf sp) keys f j (va - BitVec.ofNat 64 (64 * j)) plain p with
          | some s => s.setHbmPoison pa poison
          | none => s.setHbmPoison pa true
        else
          let m := (minorOf cb j).toNat + 1
          let s := s.putSealed keys f j va (majorOf cb) (BitVec.ofNat 7 m) plain
          (s.updatePath f p (setMinor cb j m)).setHbmPoison pa poison

/-- A sealed line read through the port: its plaintext, or none where it is delivered poisoned (R356, R365). -/
def State.sealRead (s : State) (sp : BitVec 16) (va : Word) (pa : Nat) : State × Option (List Byte) :=
  let f := s.frameOf pa
  match s.keysOf (s.slotOf sp) with
  | none => (s.count .quenchDiscards 1, none)
  | some keys =>
    match s.block f with
    | (s, none) => (s, none)
    | (s, some cb) =>
      if s.hbmPoisoned pa then (s, none)
      else
        match s.getSealed keys f (pa % 4096 / 64) va cb with
        | some plain => (s, some plain)
        | none => (s.count .macFailures 1, none)

/-- The tweak of a veiled line (R359). -/
def veilTweak (sp : BitVec 16) (va : Word) : BitVec 128 := 0#61 ++ sp ++ lineNo va

/-- A line below the port read by its page's mode: its plaintext and whether it is poisoned (R356, R358). -/
def State.portRead (s : State) (sp : BitVec 16) (va : Word) (pa : Nat) (mode : BitVec 2) : State × List Byte × Bool :=
  let raw := Mem.bytes s.mem (hbmKey pa) 64
  if mode = 0#2 then (s, raw, s.hbmPoisoned pa)
  else if mode = 1#2 then
    match s.keysOf (s.slotOf sp) with
    | none => (s.count .quenchDiscards 1, List.replicate 64 0, true)
    | some keys => (s, xtsDecrypt keys.1 keys.2 (veilTweak sp va) raw, s.hbmPoisoned pa)
  else
    match s.sealRead sp va pa with
    | (s, some plain) => (s, plain, false)
    | (s, none) => (s, List.replicate 64 0, true)

/-- A line written through the port by its page's mode, with its poison bit. -/
def State.portWrite (s : State) (sp : BitVec 16) (va : Word) (pa : Nat) (mode : BitVec 2) (plain : List Byte)
    (poison : Bool) : State :=
  if mode = 0#2 then (s.writeHbm pa plain).setHbmPoison pa poison
  else if mode = 1#2 then
    match s.keysOf (s.slotOf sp) with
    | none => s.count .quenchDiscards 1
    | some keys => (s.writeHbm pa (xtsEncrypt keys.1 keys.2 (veilTweak sp va) plain)).setHbmPoison pa poison
  else s.sealWrite sp va pa plain poison

end Sys2Proof.Machine
end

