-- ==== Sys2Proof/Machine/NearCache.lean ====
section
/-! DEFINITION. The ordering points of the modelled home (R169): pool banks for the near window, the near cache for the
paged region. Reading and writing bytes there, poison (R173), write tags (R210), and the eviction floor (R211). -/

namespace Sys2Proof.Machine

/-- An offset in the near window. -/
def isNear (off : Nat) : Bool := off < 0x2000000

/-- Bytes [off, off + n) meet the reserved range (R140). -/
def meetsReserved (off n : Nat) : Bool := off < 0x4000000 && 0x2000000 < off + n

/-- The channel area: the top 1,024 bytes of the live near window (R239). -/
def State.chanArea (s : State) : Nat := s.liveNear - 1024

/-- The first byte of [off, off + n) that lies in the channel area. -/
def State.chanHit (s : State) (off n : Nat) : Option Nat :=
  if off < s.liveNear && s.chanArea < off + n then some (max off s.chanArea) else none

/-- The 64-byte granules that [off, off + n) meets. -/
def granules (off n : Nat) : List Nat := (List.range ((off % 64 + n + 63) / 64)).map fun i => off / 64 * 64 + 64 * i

/-- The far address of a line of the modelled home. A range of LDV or STV that passes the last offset goes on at offset 0, at paged
lines of the home: R178 gives it no outcome (DESIGN CHOICE, log 76). -/
def State.lineVa (s : State) (off : Nat) : Word := farAddr s.home (BitVec.ofNat 40 (off / 64 * 64))

/-! ## Generations (R188, R205) -/

/-- g is older than h. -/
def older (g h : BitVec 48) : Bool := let d := (h - g).toNat; decide (1 ≤ d) && decide (d < 2 ^ 47)

def newer (g h : BitVec 48) : BitVec 48 := if older g h then h else g

/-- A release: the home's next GEN, one a clk (R188). -/
def State.release (s : State) : State := s.setCl { s.cl with gen := s.cl.gen + 1, relAt := s.dev.clk + 1 }

/-- The home has performed no release in this clk (R188). -/
def State.mayRelease (s : State) : Bool := decide (s.cl.relAt ≤ s.dev.clk)

/-- The tag that a write stamps now. -/
def State.tagNow (s : State) : BitVec 16 := s.cl.gen.setWidth 16

/-- A tracked grain with tag `t` leaves its last level: the eviction floor rises (R211). -/
def State.raiseEvFloor (s : State) (t : BitVec 16) : State :=
  let w := s.cl.gen - (s.tagNow - t).setWidth 48
  s.setCl { s.cl with evFloor := newer s.cl.evFloor w }

/-! ## Lines of the near cache and the LLC -/

def State.ncFind (s : State) (sp : BitVec 16) (va : Word) : Option NcLine :=
  s.cl.nc.find? fun n => n.space == sp && n.line == va

def State.llcFind (s : State) (sp : BitVec 16) (va : Word) : Option LlcLine :=
  s.cl.llc.find? fun n => n.space == sp && n.line == va

/-- The lines but one. -/
def State.ncRest (s : State) (n : NcLine) : List NcLine := s.cl.nc.filter fun x => !(x.space == n.space && x.line == n.line)

/-- A line stands as the most recently used one. -/
def State.ncFront (s : State) (n : NcLine) : State := s.setCl { s.cl with nc := n :: s.ncRest n }

/-- The set of a line: 4,096 sets of 16 ways hold the 4 MiB (R171). The index is bits [17:6] of the line (log 54). -/
def ncSet (line : Word) : BitVec 12 := line.extractLsb' 6 12

/-- Lines that the 128 MiB slice holds. -/
def llcLines : Nat := 2 ^ 21

/-- A line enters the LLC; past its capacity the line filled longest ago leaves (R211). -/
def State.llcPut (s : State) (n : LlcLine) : State :=
  let l := n :: s.cl.llc.filter fun x => !(x.space == n.space && x.line == n.line)
  let s := s.setCl { s.cl with llc := l.take llcLines }
  match l[llcLines]? with
  | none => s
  | some x => if (s.ncFind x.space x.line).isSome then s else (s.raiseEvFloor x.tag0).raiseEvFloor x.tag1

/-- A line of the LLC with the near cache's tags (R210). -/
def NcLine.below (n : NcLine) : LlcLine :=
  { space := n.space, line := n.line, r := n.r, w := n.w, x := n.x, mode := n.mode, grain := n.grain, na := n.na,
    tag0 := n.tag0, tag1 := n.tag1, pa := n.pa }

/-- Write-back of a dirty near-cache line, kept clean (R171, R366). -/
def State.writeBack (s : State) (n : NcLine) : State :=
  if !n.dirty then s
  else
    let s := s.portWrite n.space n.line n.pa n.mode (lineBytes n.data) n.poison
    (s.llcPut n.below).ncFront { n with dirty := false }

/-- A near-cache line leaves: written back if dirty; its tags stay with the LLC, or raise the floor. -/
def State.ncDrop (s : State) (n : NcLine) : State :=
  let s := s.writeBack n
  let s := s.setCl { s.cl with nc := s.ncRest n }
  if (s.llcFind n.space n.line).isSome then s else (s.raiseEvFloor n.tag0).raiseEvFloor n.tag1

/-- A line enters the near cache; of a full set the least recently used line leaves (R171, log 54). -/
def State.ncPut (s : State) (n : NcLine) : State :=
  match ((s.ncRest n).filter fun x => ncSet x.line == ncSet n.line)[15]? with
  | none => s.ncFront n
  | some old => (s.ncDrop old).ncFront n

/-- A line is made the first of its set to be evicted (R181). -/
def State.ncLast (s : State) (n : NcLine) : State := s.setCl { s.cl with nc := s.ncRest n ++ [n] }

/-! ## Translation of a line -/

def grainBytes : Grain → Nat
  | .g32 => 32 | .g128 => 128 | .g512 => 512

/-- A line as its translation gives it, with the tags of a line that comes from HBM (R210). -/
def State.freshLine (s : State) (sp : BitVec 16) (va : Word) (pa : Nat) (pte : Word) : LlcLine :=
  { space := sp, line := va, r := pteR pte, w := pteW pte, x := pteX pte, mode := pteMode pte, grain := pteGrain pte,
    na := pteNa pte, tag0 := s.cl.evFloor.setWidth 16, tag1 := s.cl.evFloor.setWidth 16, pa := pa }

/-- A miss of both levels: the line is translated, its frame's mode checked (R154), a newly sealed frame initialized
(R368), and the line enters the LLC. A path that fails is met, and counted, by the line's fill; where a version cannot rise the
line is poisoned in HBM (R364). None is success. -/
def State.fetchLine (s : State) (sp : BitVec 16) (va : Word) (need : Need) : State × Option AccFail :=
  match s.translate sp va need with
  | (s, .unmapped) => (s, some .unmapped)
  | (s, .notResident) => (s, some (.notResident 0 0))
  | (s, .trap c) => (s, some (.trap c va))
  | (s, .ok pa pte) =>
    let mode := pteMode pte
    let line := s.freshLine sp va pa pte
    match s.frameMode pa with
    | some m => if m = mode then (s.llcPut line, none) else (s, some (.trap 0x0B va))
    | none =>
      let s := s.setFrameMode pa mode
      if mode ≠ 2#2 then (s.llcPut line, none)
      else
        match s.sealedInit sp (s.frameOf pa) (va - BitVec.ofNat 64 (pa % 4096)) (List.replicate 4096 0) with
        | (s, .refused) => (s, some (.trap 0x09 va))
        | (s, .done) => (s.llcPut line, none)
        | (t, .exhausted) => ((t.setHbmPoison pa true).llcPut line, none)
        | (_, .pathFailed) => (s.llcPut line, none)

/-- The line is in the near cache or the LLC. -/
def State.lineHere (s : State) (sp : BitVec 16) (va : Word) : Bool := (s.ncFind sp va).isSome || (s.llcFind sp va).isSome

/-- The rights that the cached line holds (R149). -/
def State.lineRights (s : State) (sp : BitVec 16) (va : Word) (need : Need) : Bool :=
  match s.ncFind sp va with
  | some n => need.granted n.r n.w n.x
  | none =>
    match s.llcFind sp va with
    | some n => need.granted n.r n.w n.x
    | none => true

/-- A line's near-cache form, filled through the port (R171, R365); it is installed where `keep` asks. -/
def State.getLine (s : State) (sp : BitVec 16) (va : Word) (keep : Bool) : State × Option NcLine :=
  match s.ncFind sp va with
  | some n => (s.ncFront n, some n)
  | none =>
    match s.llcFind sp va with
    | none => (s, none)
    | some l =>
      let (s, plain, poison) := s.portRead sp va l.pa l.mode
      let n : NcLine :=
        { space := sp, line := va, data := lineOfBytes plain, dirty := false, poison := poison, r := l.r, w := l.w,
          x := l.x, mode := l.mode, grain := l.grain, na := l.na, tag0 := l.tag0, tag1 := l.tag1, pa := l.pa }
      (if keep then s.ncPut n else s, some n)

/-- Check 4 of R166 on the lines of an access, first line first: a line that misses both levels is translated. -/
def State.checkLines (s : State) (sp : BitVec 16) (need : Need) : List Nat → State × Option AccFail
  | [] => (s, none)
  | off :: r =>
    let va := s.lineVa off
    if isNear off then s.checkLines sp need r
    else if s.lineHere sp va then
      if s.lineRights sp va need then s.checkLines sp need r else (s, some (.trap 0x09 va))
    else
      match s.fetchLine sp va need with
      | (s, some f) => (s, some f)
      | (s, none) => s.checkLines sp need r

/-! ## Bytes at the ordering point -/

/-- `n` bytes at `off`, within one granule; the line is present. `keep` is the allocation rule. -/
def State.readIn (s : State) (sp : BitVec 16) (off n : Nat) (atomic : Bool) : State × List Byte :=
  if isNear off then (s, Mem.bytes s.mem off n)
  else
    let va := s.lineVa off
    let keep := atomic || !((s.llcFind sp va).map (·.na)).getD false
    match s.getLine sp va keep with
    | (s, some l) => (s, ((lineBytes l.data).drop (off % 64)).take n)
    | (s, none) => (s, List.replicate n 0)

/-- `n` bytes at `off`, granule by granule. -/
def State.readGo (s : State) (sp : BitVec 16) (off n : Nat) (atomic : Bool) : List Nat → State × List Byte
  | [] => (s, [])
  | g :: gs =>
    let lo := max g off
    let (s, bs) := s.readIn sp lo (min (g + 64) (off + n) - lo) atomic
    let (s, rest) := s.readGo sp off n atomic gs
    (s, bs ++ rest)

def State.readAt (s : State) (sp : BitVec 16) (off n : Nat) (atomic : Bool) : State × List Byte :=
  s.readGo sp off n atomic (granules off n)

/-- A granule is poisoned. A clean line of a no-allocate page is not kept, so that the read which follows is its one fill. -/
def State.granulePoison (s : State) (sp : BitVec 16) (off : Nat) : State × Bool :=
  if isNear off then (s, s.cl.poison.contains (off / 64))
  else
    let va := s.lineVa off
    let keep := (s.ncFind sp va).isSome || !((s.llcFind sp va).map (·.na)).getD false
    match s.getLine sp va keep with
    | (t, some l) => (if keep || l.poison then t else s, l.poison)
    | (t, none) => (t, false)

/-- The granules of a read that are poisoned, of 32 or more bytes each, seen as the read that follows meets them. -/
def State.poisonMap (s : State) (sp : BitVec 16) (lo step n : Nat) : List Bool :=
  (List.range n).map fun k => (s.granulePoison sp ((lo + step * k) / 64 * 64)).2

/-- The first poisoned byte of [off, off + n). -/
def State.firstPoison (s : State) (sp : BitVec 16) (off : Nat) : List Nat → State × Option Nat
  | [] => (s, none)
  | g :: gs =>
    match s.granulePoison sp g with
    | (s, true) => (s, some (max g off))
    | (s, false) => s.firstPoison sp off gs

def State.setPoison (s : State) (off : Nat) (b : Bool) : State :=
  let rest := s.cl.poison.filter fun g => g != off / 64
  s.setCl { s.cl with poison := if b then off / 64 :: rest else rest }

/-- Poison set on the granule at `off` (R173): the line in the near cache, or the pool granule. -/
def State.poisonAt (s : State) (sp : BitVec 16) (off : Nat) : State :=
  if isNear off then s.setPoison off true
  else
    match s.getLine sp (s.lineVa off) true with
    | (s, some l) => s.ncPut { l with poison := true, dirty := true }
    | (s, none) => s

/-- The near-window tag of a sector. -/
def State.nearTag (s : State) (off : Nat) : BitVec 16 :=
  ((s.cl.nearTags.find? fun x => x.1 == off / 32).map (·.2)).getD s.cl.tagBase

/-- Every sector of the written grains is stamped (R210). -/
def State.stampNear (s : State) (off n : Nat) : State :=
  let ks := (List.range ((off % 32 + n + 31) / 32)).map fun i => off / 32 + i
  s.setCl { s.cl with nearTags := ks.map (fun k => (k, s.tagNow)) ++ s.cl.nearTags.filter fun x => !ks.contains x.1 }

/-- A sector at `a` lies in [lo, lo + n). -/
def within (lo n a : Nat) : Bool := lo ≤ a && a < lo + n

def State.stampPaged (s : State) (sp : BitVec 16) (lo n : Nat) : State :=
  let t := s.tagNow
  let t0 (line : Word) (old : BitVec 16) : BitVec 16 := if within lo n (offOf line).toNat then t else old
  let t1 (line : Word) (old : BitVec 16) : BitVec 16 := if within lo n ((offOf line).toNat + 32) then t else old
  s.setCl
    { s.cl with
      nc := s.cl.nc.map fun x =>
        if x.space == sp && homeOf x.line == s.home then { x with tag0 := t0 x.line x.tag0, tag1 := t1 x.line x.tag1 } else x
      llc := s.cl.llc.map fun x =>
        if x.space == sp && homeOf x.line == s.home then { x with tag0 := t0 x.line x.tag0, tag1 := t1 x.line x.tag1 } else x }

/-- The grain of a line that is present. -/
def State.grainOf (s : State) (sp : BitVec 16) (va : Word) : Grain :=
  ((s.ncFind sp va).map (·.grain) <|> (s.llcFind sp va).map (·.grain)).getD .g32

/-- The tags that a write to a granule stamps where it changes no byte: an engine's write of a poisoned line (R210, R243). -/
def State.stampAt (s : State) (sp : BitVec 16) (off : Nat) : State :=
  if isNear off then s.stampNear (off / 64 * 64) 64
  else
    let g := max (grainBytes (s.grainOf sp (s.lineVa off))) 64
    s.stampPaged sp (off / g * g) g

/-- Bytes of a line replaced from position `p`. -/
def spliceLine (l : Line) (p : Nat) (bs : List Byte) : Line :=
  let old := lineBytes l
  lineOfBytes (old.take p ++ bs ++ old.drop (p + bs.length))

/-- Bytes written within one granule; `clears` is a write that clears the poison of a granule it covers whole. A store
that misses on a no-allocate page merges into the LLC's line (R171). -/
def State.writeIn (s : State) (sp : BitVec 16) (off : Nat) (bs : List Byte) (atomic clears : Bool) : State :=
  if isNear off then
    let s := (s.setMem (Mem.writeBytes s.mem off bs)).stampNear off bs.length
    if clears && bs.length = 64 then s.setPoison off false else s
  else
    let va := s.lineVa off
    let keep := atomic || (s.ncFind sp va).isSome || !((s.llcFind sp va).map (·.na)).getD false
    match s.getLine sp va keep with
    | (s, none) => s
    | (s, some l) =>
      let l' := { l with data := spliceLine l.data (off % 64) bs, poison := l.poison && !(clears && bs.length = 64) }
      let s := if keep then s.ncPut { l' with dirty := true } else s.portWrite sp va l.pa l.mode (lineBytes l'.data) l'.poison
      let g := grainBytes l.grain
      s.stampPaged sp (off / g * g) (max g 32)

def State.writeGo (s : State) (sp : BitVec 16) (off : Nat) (bs : List Byte) (atomic clears : Bool) : List Nat → State
  | [] => s
  | g :: gs =>
    let lo := max g off
    let hi := min (g + 64) (off + bs.length)
    (s.writeIn sp lo ((bs.drop (lo - off)).take (hi - lo)) atomic clears).writeGo sp off bs atomic clears gs

/-- Bytes written at the ordering point. -/
def State.writeAt (s : State) (sp : BitVec 16) (off : Nat) (bs : List Byte) (atomic clears : Bool) : State :=
  s.writeGo sp off bs atomic clears (granules off bs.length)

/-- The grain and the tag by which a sector of the home is tracked: none where it is not (R210). -/
def State.sectorTag (s : State) (sp : BitVec 16) (off : Nat) : Option (BitVec 16) :=
  if isNear off then some (s.nearTag off)
  else
    let hi := off % 64 / 32 == 1
    match s.ncFind sp (s.lineVa off) with
    | some n => some (if hi then n.tag1 else n.tag0)
    | none => (s.llcFind sp (s.lineVa off)).map fun n => if hi then n.tag1 else n.tag0

/-! ## Checks of an access by its home (R139 check 5, R141, R151) -/

/-- The near-window part of the home's checks for a request under a space, whose descriptor must be valid (R141, R142). -/
def State.nearOk (s : State) (sp : BitVec 16) (off n : Nat) : Bool :=
  (s.space? sp).isSome && decide (off + n ≤ s.liveNear) && (match s.cl.bound with
    | some b => b.space == sp
    | none => false)

/-- A read of [off, off + n) that the home serves for a request under a space, translated where it is paged: the failure,
or nothing. -/
def State.serveCheck (s : State) (sp : BitVec 16) (off n : Nat) : State × Option AccFail :=
  let va := farAddr s.home (BitVec.ofNat 40 off)
  if meetsReserved off n then (s, some (.trap 0x09 va))
  else if isNear off then (s, if s.nearOk sp off n then none else some (.trap 0x09 va))
  else if (s.space? sp).isNone then (s, some (.trap 0x09 va))
  else s.checkLines sp .load (granules off n)

/-! ## Pool banks (R163, R172) -/

/-- The bank of a near offset: pool and bits [7:5] of the byte within the pool. -/
def bankNo (off : Nat) : Nat := off / 256 % 32 * 8 + off / 32 % 8

/-- The banks of [off, off + n), one for each 32 bytes. -/
def bankList (e : Nat × Nat) : List Nat :=
  if isNear e.1 then (List.range ((e.1 % 32 + e.2 + 31) / 32)).map fun i => bankNo (e.1 / 32 * 32 + 32 * i) else []

/-- The banks of an access. -/
def banksOf (es : List (Nat × Nat)) : List Nat := es.flatMap bankList

/-- No bank of the access is busy in this clk. -/
def State.banksFree (s : State) (es : List (Nat × Nat)) : Bool :=
  (banksOf es).all fun b => !(s.cl.banks.any fun x => x.1 == b && decide (s.dev.clk < x.2))

/-- The access takes its banks, each for as many clk as it has elements in it. -/
def State.useBanks (s : State) (es : List (Nat × Nat)) : State :=
  let bs := banksOf es
  s.setCl { s.cl with
    banks := (bs.dedup.map fun b => (b, s.dev.clk + bs.count b)) ++ s.cl.banks.filter fun x => decide (s.dev.clk < x.2) }

/-- An engine's access holds its banks for one clk. -/
def State.holdBanks (s : State) (es : List (Nat × Nat)) : State :=
  s.setCl { s.cl with
    banks := ((banksOf es).dedup.map fun b => (b, s.dev.clk + 1)) ++ s.cl.banks.filter fun x => decide (s.dev.clk < x.2) }

/-- The clk that the busiest bank of an access takes beyond the first. -/
def bankExtra (es : List (Nat × Nat)) : Nat :=
  let bs := banksOf es
  (bs.map fun b => bs.count b).foldl max 1 - 1

end Sys2Proof.Machine
end

