-- ==== Sys2Proof/Machine/Nysil.lean ====
section
/-! DEFINITION. Nysil sessions (R340-R345): the session contexts, the messages accepted and dropped, path entropy, and the
liveness of peers. -/

namespace Sys2Proof.Machine

/-- The device of a home. -/
def devOf (h : BitVec 17) : BitVec 10 := h.extractLsb' 7 10

/-- The entry of a device in the pod membership table (R338). -/
def State.memberEntry (s : State) (d : BitVec 10) : Option Member := s.dev.members.find? fun m => m.dev == d

/-- A device of the pod: its entry's member bit is set (R138, R338). -/
def State.member (s : State) (d : BitVec 10) : Bool := s.dev.members.any fun m => m.dev == d && m.member

/-- A device that this one has declared lost (R345). -/
def State.lostDev (s : State) (d : BitVec 10) : Bool := s.dev.peers.any fun p => p.dev == d && p.lost

/-- A message of a device has arrived: every window restarts (R345). -/
def State.heard (s : State) (d : BitVec 10) : State :=
  if d = s.dev.id then s
  else
    s.setDev
      { s.dev with
        peers := { dev := d, lastMsg := s.dev.clk, probed := s.dev.clk, lost := s.lostDev d } ::
          s.dev.peers.filter fun p => p.dev != d }

/-! ## Sessions (R342) -/

/-- A session as it starts (R344). -/
def Session.fresh (own dev : BitVec 10) (slot : BitVec 6) : Session :=
  { dev := dev, slot := slot, cached := false, key0 := none, key1 := none, phase := false, idleAcked := false, flipAt := 0,
    erased := true, sendSeq := 0, sinceFlip := 0, high := 0, window := 0, entropy := (own.toNat + dev.toNat) % 144, asked := false }

def State.session (s : State) (dev : BitVec 10) (slot : BitVec 6) : Option Session :=
  s.dev.sessions.find? fun x => x.dev == dev && x.slot == slot

/-- A session replaced, most recently used first. -/
def State.putSession (s : State) (x : Session) : State :=
  s.setDev { s.dev with sessions := x :: s.dev.sessions.filter fun y => !(y.dev == x.dev && y.slot == x.slot) }

/-- The least recently used of the cached contexts leaves the chip when there are more than 4,096. -/
def State.evictSession (s : State) : State :=
  let cached := s.dev.sessions.filter (·.cached)
  if cached.length ≤ 4096 then s
  else
    match cached.getLast? with
    | none => s
    | some x =>
      (s.setDev { s.dev with sessions := s.dev.sessions.map fun y =>
        if y.dev == x.dev && y.slot == x.slot then { y with cached := false } else y }).count .ctxEvictions 1

/-- A context brought on chip. -/
def State.cacheSession (s : State) (x : Session) : State := (s.putSession { x with cached := true }).evictSession

/-- The key register of a phase. -/
def Session.key (x : Session) (phase : Bool) : Option (BitVec 512) := if phase then x.key1 else x.key0

def Session.setKey (x : Session) (phase : Bool) (k : Option (BitVec 512)) : Session :=
  if phase then { x with key1 := k } else { x with key0 := k }

/-- The key slot of the sessions that a space's traffic crosses the fabric in: clear spaces use slot 63. -/
def State.slotFor (s : State) (sp : BitVec 16) : BitVec 6 := if s.slotOf sp = 0 then 63 else s.slotOf sp

/-! ## Messages sent (R340, R344, R347) -/

/-- The 96-bit nonce of a message (R340). -/
def NysilHdr.nonce (h : NysilHdr) : BitVec 96 := h.src ++ h.dst ++ h.slot ++ 0#6 ++ h.seqNo

/-- The 16 bytes of a header (R340), zero fields as zeros: the additional authenticated data of its message. -/
def NysilHdr.bytes (h : NysilHdr) : List Byte :=
  leBytes 2 h.src.toNat ++ leBytes 2 h.dst.toNat ++
    [h.slot.setWidth 8, (if h.phase then 1#1 else 0#1) ++ h.type, h.entropy, (if h.echo then 1 else 0) + (if h.again then 2 else 0)] ++
    leBytes 8 h.seqNo.toNat

/-- The key of a direction (R374): bytes 0-31 for messages of the lower-numbered device, bytes 32-63 for the other's. -/
def NysilHdr.half (h : NysilHdr) (k : BitVec 512) : BitVec 256 :=
  if h.src.toNat < h.dst.toNat then k.extractLsb' 0 256 else k.extractLsb' 256 256

/-- The payload of a message, of which the manual gives no layout: any bytes (log 33). -/
opaque payloadOf : Msg → List Byte

/-- A message under the key of its header's phase: its ciphertext and its tag go with the header (R340). -/
def NysilHdr.under (h : NysilHdr) (key : Option (BitVec 512)) (m : Msg) : NysilHdr :=
  { h with wire := key.map fun k => gcmSeal (NysilHdr.half h k) (NysilHdr.nonce h) (NysilHdr.bytes h) (payloadOf m) }

/-- The tag of a message that arrives verifies under the key of its phase, which must be installed (R341, R375). -/
def Session.verifies (x : Session) (h : NysilHdr) : Bool :=
  (x.key h.phase).any fun k =>
    match h.wire with
    | some w => w.2 == gcmTagOf (NysilHdr.half h k) (NysilHdr.nonce h) (NysilHdr.bytes h) w.1
    | none => h.tagOk

/-- A response, answer, acknowledgment or reply by its type (R341), which carries the congestion echo. -/
def isResponse (type : BitVec 7) : Bool := type == 0x02 || type == 0x04 || type == 0x07 || type == 0x0A || type == 0x0C

/-- The session that a message goes out in. -/
def State.outSession (s : State) (d : BitVec 10) (slot : BitVec 6) : Session :=
  (s.session d slot).getD (Session.fresh s.dev.id d slot)

/-- The header of the next message of a session. -/
def State.outHdr (s : State) (x : Session) (type : BitVec 7) (again : Bool) : NysilHdr :=
  { src := s.dev.id, dst := x.dev, slot := x.slot, phase := x.phase, type := type, entropy := BitVec.ofNat 8 x.entropy,
    echo := isResponse type && s.dev.marked == some x.dev, again := again, zeros := true,
    seqNo := BitVec.ofNat 64 (x.sendSeq + 1), tagOk := true, congested := false }

/-- The Ethernet port of a message to a member whose route bit is 1 (R347). -/
def State.portOf (s : State) (d : BitVec 10) (entropy : Nat) : Option (BitVec 3) :=
  if (s.memberEntry d).any (·.ethernet) then some (BitVec.ofNat 3 (entropy % 8)) else none

/-- A message sent to another device: the session's next number, the key of its phase, and the count since the last flip (R340,
R375, R376). -/
def State.sendNysil (s : State) (d : BitVec 10) (slot : BitVec 6) (type : BitVec 7) (again : Bool) (m : Msg) : State :=
  let x := s.outSession d slot
  (s.cacheSession { x with sendSeq := x.sendSeq + 1, sinceFlip := x.sinceFlip + 1 }).send
    (.nysil (NysilHdr.under (s.outHdr x type again) (x.key x.phase) m) (s.portOf d x.entropy) m)

/-- A message to a home: within the device as it is, to another device under a header. -/
def State.sendHome (s : State) (h : BitVec 17) (sp : BitVec 16) (type : BitVec 7) (m : Msg) : State :=
  if devOf h = s.dev.id then s.send m else s.sendNysil (devOf h) (s.slotFor sp) type false m

/-- The response to a request that came under a header, or from within the device. -/
def State.respond (s : State) (hdr : Option NysilHdr) (type : BitVec 7) (m : Msg) : State :=
  match hdr with
  | none => s.send m
  | some h => s.sendNysil h.src h.slot type false m

/-- A message that is sent where no context of its session is held: its number is 0 (log 64). -/
def State.sendBare (s : State) (d : BitVec 10) (slot : BitVec 6) (type : BitVec 7) (m : Msg) : State :=
  let x := Session.fresh s.dev.id d slot
  s.send (.nysil { s.outHdr x type false with seqNo := 0 } (s.portOf d x.entropy) m)

/-- A retry, which carries no payload and no tag (R341). -/
def State.sendRetry (s : State) (d : BitVec 10) (slot : BitVec 6) : State := s.sendBare d slot 0x08 (.retry d)

/-! ## Requests to other devices -/

/-- A request to a home (R343, R345): one to another device is known by its number, and judged by the timeout in force when
it was issued; one that is outstanding already goes out again, with repeat set. -/
def State.request (s : State) (id : Nat) (h : BitVec 17) (sp : BitVec 16) (type : BitVec 7) (m : Msg) : State :=
  if devOf h = s.dev.id then s.send m
  else if s.dev.reqs.any fun r => r.id == id then
    ((s.setDev { s.dev with reqs := s.dev.reqs.map fun r => if r.id = id then { r with sent := s.dev.clk } else r }).sendNysil
      (devOf h) (s.slotFor sp) type true m).count .repeatsSent 1
  else
    let r : OutReq :=
      { id := id, dev := devOf h, slot := s.slotFor sp, type := type, issued := s.dev.clk, timeout := s.dev.timeout,
        sent := s.dev.clk, retryAt := none, oneWay := false }
    (s.setDev { s.dev with reqs := s.dev.reqs ++ [r] }).sendNysil (devOf h) (s.slotFor sp) type false m

/-- A cancel's timeout has run out since it was sent, in ns, three clk for two. -/
def State.cancelOld (s : State) (r : OutReq) : Bool := r.oneWay && decide (3 * r.timeout ≤ 2 * (s.dev.clk - r.issued))

/-- A watch cancel to another device expects no response; a retry calls for it again (R342), for as long as the session timeout
lasts (log 33). -/
def State.cancelTo (s : State) (id : Nat) (h : BitVec 17) (sp : BitVec 16) (m : Msg) : State :=
  let r : OutReq :=
    { id := id, dev := devOf h, slot := s.slotFor sp, type := 0x05, issued := s.dev.clk, timeout := s.dev.timeout,
      sent := s.dev.clk, retryAt := none, oneWay := true }
  (s.setDev { s.dev with reqs := (s.dev.reqs.filter fun x => x.id != id && !s.cancelOld x) ++ [r] }).sendNysil (devOf h)
    (s.slotFor sp) 0x05 false m

/-- A request has ended. -/
def State.untrack (s : State) (id : Nat) : State := s.setDev { s.dev with reqs := s.dev.reqs.filter fun r => r.id != id }

/-- What has come for a registration: an acknowledgment, after which it is still sent again until its watch has ended, so that an
answer that is dropped is recovered (R342, R343); or its end. -/
def State.endWatch (s : State) (id : Nat) (e : WatchEnd) : State := if e = .armed then s else s.untrack id

/-- The request number of a watch registration. -/
def watchReq : Requester → Nat
  | .slot _ _ c k t => 2 ^ 64 + 4096 * c.toNat + 16 * k.val + t.toNat
  | .sched _ id => 2 ^ 65 + id
  | .tlb _ sp => 2 ^ 66 + sp.toNat

/-- The number by which the cancel of a watch is known. -/
def cancelReq (who : Requester) : Nat := 2 ^ 122 + watchReq who

/-- The request number of one line of a transfer. -/
def pullReq (ch : Fin 16) (id line member : Nat) : Nat := 2 ^ 67 + ((ch.val * 2 ^ 64 + id) * 2 ^ 32 + line) * 64 + member

/-- The request number of a code line. -/
def codeReq (addr : Word) : Nat := 2 ^ 120 + addr.toNat

/-- The request number of a validation. -/
def validReq (id : Nat) : Nat := 2 ^ 121 + id

/-! ## Host reads (R348) -/

/-- A function's selective stream has been set up and is not in the secure state: its traffic is refused (R373, R348). -/
def State.ideRefuses (s : State) (fn : Nat) : Bool :=
  s.dev.ide.any (fun x => x.1.val == fn) && !(s.dev.ideOn.any fun x => x.1.val == fn)

/-- The function of the hearth whose space is bound to the modelled cluster; a clear space's is PF0 (R384, log 41). -/
def State.windowFn (s : State) : Nat :=
  let k := s.slotOf ((s.cl.bound.map (·.space)).getD 0)
  if k = 63 then 0 else k.toNat

/-- A PCIe read for a function, which times out after the session timeout; that is in ns, two for three clk. One that IDE refuses
completes with unsupported request (R373). -/
def State.askPcie (s : State) (fn id : Nat) (addr : Word) : State :=
  let s := s.setDev { s.dev with pcie := s.dev.pcie ++ [(id, s.dev.clk + (3 * s.dev.timeout + 1) / 2)] }
  if s.ideRefuses fn then s.queue (.pcieCompletion id .abort) else s.send (.pcieRead id addr)

/-- A PCIe read has ended. -/
def State.endPcie (s : State) (id : Nat) : State := s.setDev { s.dev with pcie := s.dev.pcie.filter fun x => x.1 != id }

/-- A host read is outstanding. -/
def State.pcieOpen (s : State) (id : Nat) : Bool := s.dev.pcie.any fun x => x.1 == id

/-! ## Messages received (R341, R342) -/

/-- The header is malformed, misaddressed or of no member. -/
def State.badHeader (s : State) (h : NysilHdr) : Bool :=
  h.type == 0 || decide (0x0C < h.type.toNat) || !h.zeros || h.dst != s.dev.id || !s.member h.src ||
    decide (143 < h.entropy.toNat)

/-- The receive window: the session after number `n`, if it is accepted. -/
def Session.receive (x : Session) (n : Nat) : Option Session :=
  if x.high < n then some { x with high := n, window := (x.window <<< (n - x.high)) ||| 1 }
  else
    let d := x.high - n
    if 1024 ≤ d || x.window.getLsbD d then none else some { x with window := x.window ||| (1 <<< d) }

/-- Congestion echo of a response: the next plane (R344). -/
def Session.echoed (x : Session) : Session := { x with entropy := (x.entropy + 5) % 144 }

/-- A request that comes again for the session of a slot whose hearth has been quenched: its requester is refused (R356). -/
def State.quenched (s : State) (h : NysilHdr) : Bool :=
  h.again && h.slot != 0 && h.slot != 63 && (s.session h.src h.slot).isNone && (s.dev.slots[h.slot.toNat]'(h.slot.isLt)).st != .kindled &&
    !s.badHeader h && !s.lostDev h.src

/-- A message that arrives under a header: whether it is accepted. A request for a session that is not cached is answered
with retry while its context is fetched. -/
def State.accepts (s : State) (hdr : Option NysilHdr) (request : Bool) : State × Bool :=
  match hdr with
  | none => (s, true)
  | some h =>
    if s.badHeader h then (s.count .nysilDropped 1, false)
    else if s.lostDev h.src then (s, false)
    else
      match (s.session h.src h.slot).filter (·.cached) with
      | none =>
        if request then (((s.sendRetry h.src h.slot).count .retriesSent 1).queue (.sessionContextFetch h.src h.slot), false)
        else (s, false)
      | some x =>
        if !x.verifies h then ((s.count .nysilDropped 1).count .tagFailures 1, false)
        else
          match x.receive h.seqNo.toNat with
          | none => (s.count .nysilDropped 1, false)
          | some x =>
            let echo := h.echo && !request
            let s := (s.cacheSession (if echo then x.echoed else x)).heard h.src
            (if echo then s.count .congestionSteps 1 else s, true)

/-- A message as it arrives: from within the device, or under a header by which it is judged (R341); the response to a
request whose plane marked it congested carries the echo (R344). `refusal` is what refuses a request whose session a quench has
erased (R356). -/
def receive (hdr : Option NysilHdr) (request : Bool) (s : State) (k : State → Out) (refusal : Option (BitVec 7 × Msg) := none) :
    Out :=
  match hdr with
  | none => k s
  | some h =>
    match (if request && s.quenched h then refusal else none) with
    | some r => .next (s.sendBare h.src h.slot r.1 r.2)
    | none =>
    match s.accepts (some h) request with
    | (s, false) => .next s
    | (s, true) =>
      match k (s.setDev { s.dev with marked := if request && h.congested then some h.src else none }) with
      | .next t => .next (t.setDev { t.dev with marked := none })
      | .fault f => .fault f
      | .refused r => .refused r

/-- SESSION_CONTEXT_FETCH (R342): the context comes from home 127, where one stands there. -/
def execSessionContextFetch (dev : BitVec 10) (slot : BitVec 6) (s : State) : Out :=
  match s.session dev slot with
  | none => .next s
  | some x => .next (s.cacheSession x)

end Sys2Proof.Machine
end

