-- ==== Sys2Proof/Machine/Control.lean ====
section
/-! DEFINITION. Fetch lines and code pointers (chapter 2), the checks of a transfer (R107), and the control instructions
of chapter 7. A transfer that passes its checks stands in the group's `xfer` and takes effect when every slot of its
group has issued (R27). -/

namespace Sys2Proof.Machine

/-! ## Lines and code pointers (R19-R23) -/

/-- The line of a code pointer. -/
def lineOf (cp : Word) : Word := cp &&& ~~~0x3F

/-- The slot of a code pointer. -/
def slotOf (cp : Word) : Nat := (cp.extractLsb' 0 3).toNat

/-- The code pointer of a line and a slot. -/
def codePtr (line : Word) (slot : BitVec 3) : Word := lineOf line ||| slot.setWidth 64

/-- The first slot after a slot, in order of issue (R109). -/
def nextPtr (cp : Word) : Word := if slotOf cp < 4 then cp + 1 else lineOf cp + 64

/-- The line word (R20). -/
def lineWord (l : Line) : BitVec 32 := l.extractLsb' 480 32

/-- The word of a slot. -/
def slotWord (l : Line) (k : Nat) : IWord := l.extractLsb' (96 * k) 96

/-- The XOR of bytes 0-59 (R21). -/
def lineParity (l : Line) : Byte := (List.range 60).foldl (fun p k => p ^^^ l.extractLsb' (8 * k) 8) 0

/-- A slot begins a group (R22). -/
def begins (w : BitVec 32) : Nat → Bool
  | 0 => true
  | k + 1 => w.getLsbD (5 + k)

/-- The last slot of the group that holds a slot (R19). -/
def lastSlot (w : BitVec 32) (k : Nat) : Nat := ((List.range 4).find? fun i => k ≤ i && w.getLsbD (5 + i)).getD 4

/-- Checks 2 and 3 of R30 on a line: the trap's cause and TVAL. -/
def lineCheck (line : Word) (l : Line) : Option (Byte × Word) :=
  let w := lineWord l
  if lineParity l ≠ w.extractLsb' 16 8 then some (0x03, line)
  else if w.extractLsb' 24 8 ≠ 1#8 || w.extractLsb' 9 7 ≠ 0#7 ||
      (List.range 5).any (fun k => w.getLsbD k && !begins w k) then some (0x01, w.setWidth 64)
  else none

/-- Check 1 of R30 on a code pointer. -/
def pointerCheck (t : Word) : Option Byte :=
  if !canonical t then some 0x07
  else if t.extractLsb' 3 3 ≠ 0#3 || 4 < slotOf t then some 0x02
  else none

/-! ## Fetching -/

/-- Checks 1-4 of R139 on a far address. -/
def State.farCheck (s : State) (x : Word) : Option Byte :=
  let cl := (homeOf x).extractLsb' 0 7
  let dv := (homeOf x).extractLsb' 7 10
  let off := (offOf x).toNat
  if !canonical x then some 0x07
  else if (72 ≤ cl.toNat && cl.toNat ≤ 125) || !s.member dv then some 0x07
  else if cl = 126#7 && dv ≠ s.dev.id then some 0x09
  else if 0x2000000 ≤ off && off ≤ 0x3FFFFFF then some 0x09
  else none

/-- The host window's length check, and whether the reading cluster has a launch bound (R348). -/
def State.hostCheck (s : State) (x : Word) (bytes : Nat) : Option Byte :=
  if (homeOf x).extractLsb' 0 7 ≠ 126#7 then none
  else
    match s.cl.bound with
    | none => some 0x09
    | some b => if b.wlen.toNat < (offOf x).toNat + bytes then some 0x09 else none

/-- The line in the instruction cache. -/
def State.codeLine (s : State) (a : Word) : Option Line := (s.icache.find? fun x => x.1 == a).map (·.2)

/-- The core's request for a line has failed. -/
def State.codeFailed (s : State) (a : Word) : Option LineReply :=
  (s.quad.icBad.find? fun x => x.1 == s.core.num && x.2.1 == a).map (·.2.2)

/-- The core's request for a line fails. -/
def State.lineFails (s : State) (a : Word) (r : LineReply) : State :=
  { s with quad := { s.quad with icBad := s.quad.icBad ++ [(s.core.num, a, r)] } }

/-- What a near-cache miss adds (R159, R172): 13 clk for the LLC, within its bound; on an LLC miss 3 clk more where the TLB hits,
which is exact, and else 300, one service read of a walk whose upper levels are in the walk cache, at its bound (log 53). -/
def State.missTime (s : State) (sp : BitVec 16) (va : Word) : Nat :=
  if (s.ncFind sp va).isSome then 0
  else if (s.llcFind sp va).isSome then 13
  else if (s.tlbHit sp va).isSome then 13 + 3
  else 13 + 300

/-- Clk from issue to an access at its ordering point, by the pool of its first byte (R163, R172); a paged access that misses the
near cache takes that much more, as its line stands when it issues. -/
def State.accessTime (s : State) (off : Nat) : Nat :=
  if isNear off then
    let p := off / 256 % 32
    if p / 4 ≠ s.quadNo.toNat then 4 else if p % 4 ≠ s.core.num.toNat then 3 else 2
  else 7 + s.missTime s.core.task.space (s.lineVa off)

/-- Clk from a load or an atomic at its ordering point to its result (R172). -/
def State.resultTime (s : State) (off : Nat) (atomic : Bool) : Nat :=
  if isNear off then s.accessTime off + (if atomic then 2 else 0)
  else if atomic then 9 else 7

/-- Clk of a far read of one's own home: those of R172 and 2 more (R219). -/
def State.ownRead (s : State) (off : Nat) : Nat := s.accessTime off + s.resultTime off false + 2

/-- Clk of a read of the device's own home 127: the bound of its path class (R247, log 53). -/
def serviceTime : Nat := 400

/-- A line that a home of the model delivers at a clk. -/
def State.codeAt (s : State) (a : Word) (due : Nat) : State :=
  { s with quad := { s.quad with icDue := (a, due) :: s.quad.icDue.filter fun x => x.1 != a } }

/-- The quad's request for a line: to the host, or to its home; a line of one's own home takes the time of a far read
(R113, R219). -/
def State.sendCode (s : State) (a : Word) : State :=
  if (homeOf a).extractLsb' 0 7 = 126#7 then
    s.askPcie s.windowFn (codeReq a) ((s.cl.bound.map (·.hwbase)).getD 0 + (offOf a).setWidth 64)
  else if homeOf a = s.home then s.codeAt a (s.dev.clk + s.ownRead (offOf a).toNat)
  else if homeOf a = s.service then s.codeAt a (s.dev.clk + serviceTime)
  else s.request (codeReq a) (homeOf a) s.core.task.space 0x01 (.codeReq a)

/-- A line of the instruction cache that failed its checks leaves it, so that TRET fetches it again (R107). -/
def State.dropLine (s : State) (a : Word) : State := { s with icache := s.icache.filter fun x => x.1 != a }

/-- The core asks for a line (R24). A line that no home can hold, or whose device is lost, fails at once (R139, R345,
R348). -/
def State.askLine (s : State) (a : Word) : State :=
  if s.quad.icMiss.any fun x => x == (s.core.num, a) then s
  else
    match s.farCheck a <|> s.hostCheck a 64 with
    | some c => s.lineFails a (.fault c)
    | none =>
      if s.lostDev (devOf (homeOf a)) then s.lineFails a .lost
      else
        let asked := s.quad.icMiss.any fun x => x.2 == a
        let s := { s with quad := { s.quad with icMiss := s.quad.icMiss ++ [(s.core.num, a)] } }
        if asked then s else s.sendCode a

/-! ## Transfers -/

/-- A transfer takes effect when its group has issued (R27). -/
def State.setXfer (s : State) (x : Xfer) : State := s.setCore { s.core with grp := { s.core.grp with xfer := some x } }

/-- The slot waits for the line of its target (R107 steps 4 and 5, R113): its group issues, and the slots before it have their
effect; it and the slots behind it, which those steps come before (R27), wait for the line, and the target group's time counts
from the line's arrival. -/
def awaitLine (s : State) : Out := .next (s.setCore { s.core with mark := .fetching })

/-- Steps 2-5 of R107 for target `t`; `sp` is the failure of step 3, if it fails. A target line that fails step 4, or
whose fetch fails, does not hold the transfer back: the target slot meets the failure. -/
def transfer (s : State) (t : Word) (sp : Option (Byte × Word)) (x : Xfer) : Out :=
  match pointerCheck t with
  | some c => .next (s.trap c t)
  | none =>
    match sp with
    | some y => .next (s.trap y.1 y.2)
    | none =>
      match s.codeLine (lineOf t) with
      | none => if (s.codeFailed (lineOf t)).isSome then .next (s.setXfer x) else awaitLine (s.askLine (lineOf t))
      | some l =>
        if (lineCheck (lineOf t) l).isSome || (lineWord l).getLsbD (slotOf t) then .next (s.setXfer x)
        else .next (s.trap 0x02 t)

/-- The target of BR, BC, CALL and PCHK: a signed line delta and a slot (R16). -/
def State.branchTarget (s : State) (imm : BitVec 48) : Word :=
  codePtr (lineOf s.core.pc + ((imm.extractLsb' 3 45).signExtend 64) * 64) (imm.extractLsb' 0 3)

/-! ## The instructions -/

def execNop (s : State) : Out := .next s

/-- A hint does nothing and its fields are not examined (R34). -/
def execHint (_op : BitVec 4) (_rest : BitVec 88) (s : State) : Out := .next s

/-- An unassigned or ILL code (R32). -/
def execIll (w : IWord) (s : State) : Out := .next (s.trap 0x01 (w.extractLsb' 32 64))

def execBr (t : BitVec 48) (s : State) : Out :=
  gate (.br t) s (transfer s (s.branchTarget t) none (.jump (s.branchTarget t)))

/-- BC (R108). -/
def execBc (w : Width) (c : ICond) (a : QN) (t : BitVec 48) (s : State) : Out :=
  gate (.bc w c a t) s
    (if icond c (wbits w) (s.qn a) 0 then transfer s (s.branchTarget t) none (.jump (s.branchTarget t)) else .next s)

/-- CALL (R109): its return pointer is written at the commit. -/
def execCall (t : BitVec 48) (s : State) : Out :=
  let new := s.core.sp - 8
  gate (.call t) s
    (transfer s (s.branchTarget t) (if new.slt s.core.splim then some (0x12, new) else none) (.call (s.branchTarget t)))

/-- RET (R109). -/
def execRet (s : State) : Out :=
  let new := s.core.sp + 8
  let t := Mem.word s.core.spill s.core.sp.toNat
  gate .ret s (if s.core.spbase.slt new then .next (s.trap 0x12 new) else transfer s t none (.ret t))

/-- JMPI (R110). -/
def execJmpi (a : QN) (s : State) : Out :=
  gate (.jmpi a) s (transfer s (s.qn a) none (.jump (s.qn a)))

end Sys2Proof.Machine
end

