-- ==== Sys2Proof/Machine/Sluice.lean ====
section
/-! DEFINITION. The sluice of the modelled home (R189-R191), the residency tickets of R152, the words of a lane (R129), and
home 127 of the device (R419). -/

namespace Sys2Proof.Machine

/-- The offset under which the home's page-request word is watched: the manual gives it an address of the home and no
place; a reserved offset that no instruction can reach stands for it (log 12). -/
def pageWordOff : BitVec 40 := 0x2000000

/-- The far address of the modelled home's page-request word. -/
def State.pageWordAt (s : State) : Word := farAddr s.home pageWordOff

/-- The ticket of a page that is not resident: the threshold of its page-request word (R152). -/
def State.ticket (s : State) (sp : BitVec 16) (va : Word) : State × Word :=
  let page := va &&& ~~~0xFFF
  match s.cl.tickets.find? fun t => t.1 == sp && t.2.1 == page with
  | some t => (s, t.2.2)
  | none =>
    let n := s.cl.ticketNext + 1
    (s.setCl { s.cl with ticketNext := n, tickets := s.cl.tickets ++ [(sp, page, n)] }, n)

/-- A failure with its residency ticket. -/
def State.withTicket (s : State) (sp : BitVec 16) (va : Word) (f : AccFail) : State × AccFail :=
  match f with
  | .unmapped => (s, .unmapped)
  | .trap c v => (s, .trap c v)
  | .notResident _ _ =>
    let (s, n) := s.ticket sp va
    (s, .notResident s.pageWordAt n)

/-- The home of a requester. -/
def whoHome : Requester → BitVec 17
  | .slot h _ _ _ _ => h
  | .sched h _ => h
  | .tlb h _ => h

/-- What a requester is told, for a registration under a space. One of the modelled quad or of the modelled scheduler acts on
it as a step of its own. -/
def State.tell (s : State) (sp : BitVec 16) (who : Requester) (e : WatchEnd) : State :=
  let out := s.sendHome (whoHome who) sp 0x04 (.watchEnd who e)
  match who with
  | .slot h q c k t => if h = s.home ∧ q = s.quadNo then s.queue (.watchAnswer c k t e) else out
  | .sched h id => if h = s.home then s.queue (.schedulerWatchAnswer id e []) else out
  | .tlb _ _ => out

/-- An answer: the value and GEN (R190). -/
def State.answer (s : State) (e : SluiceEntry) (v : Word) : State :=
  (s.tell e.space e.who (.answer v s.cl.gen)).count .sluiceAnswers 1

/-! ## The words of a lane (R129)

The manual gives them no place; two reserved offsets stand for them (log 12), and the requester names the lane. -/

/-- The sequence word of the lane that this cluster keeps for the requester's home: records performed into it. -/
def laneWordOff : BitVec 40 := 0x2000008

/-- The count that this cluster publishes of the records it has taken from the lane of the requester's home. -/
def laneDoneOff : BitVec 40 := 0x2000010

/-- A registration concerns a word of a lane: a scheduler's, at one of the two offsets. -/
def SluiceEntry.onLane (e : SluiceEntry) : Bool :=
  match e.who with
  | .sched _ _ => e.off == laneWordOff || e.off == laneDoneOff
  | .slot _ _ _ _ _ => false
  | .tlb _ _ => false

/-- A word of a lane. -/
def State.laneCount (s : State) (e : SluiceEntry) : Nat :=
  if e.off = laneWordOff then ((s.cl.lanes.find? fun l => l.1 == whoHome e.who).map (·.2.1)).getD 0
  else ((s.cl.consumed.find? fun l => l.1 == whoHome e.who).map (·.2)).getD 0

/-- The word that an entry watches as it stands. On a poisoned word, of which R189 and R173 name no outcome, its bytes are compared
as they stand, at home 127 too (DESIGN CHOICE, log 77). -/
def State.watchedWord (s : State) (e : SluiceEntry) : State × Word :=
  if e.off = pageWordOff then (s, s.cl.pageWord)
  else if e.onLane then (s, BitVec.ofNat 64 (s.laneCount e))
  else
    let (s, bs) := s.readAt e.space e.off.toNat 8 false
    (s, BitVec.ofNat 64 (leNat bs))

/-- Handling of a registration whose checks have passed (R189). -/
def State.sluiceTake (s : State) (e : SluiceEntry) : State :=
  let (s, v) := s.watchedWord e
  if e.thr.toNat ≤ v.toNat then (s.answer e v).count .sluiceImmediate 1
  else if 4096 ≤ s.cl.sluice.length then (s.tell e.space e.who .full).count .sluiceFull 1
  else
    let s := s.setCl { s.cl with sluice := s.cl.sluice ++ [e] }
    let s := s.count .sluicePeak (s.cl.sluice.length - countOf .sluicePeak s.cl.counts)
    s.tell e.space e.who .armed

/-- The page that a ticket stands for is asked of the stokers (R418). -/
def State.askTicket (s : State) (thr : Word) : State :=
  match s.cl.tickets.find? fun t => t.2.2 == thr with
  | some t => s.send (.pageInWanted t.1 t.2.1)
  | none => s

/-- A registration at the modelled home (R189, R191). One that arrives again for a tag that the sluice holds is acknowledged
and keeps its one entry (R343). -/
def State.sluiceRegister (s : State) (e : SluiceEntry) : State :=
  if s.cl.sluice.any fun x => x.who == e.who then s.tell e.space e.who .armed
  else if s.cl.pendingRegs.any fun x => x.who == e.who then s
  else if e.off = pageWordOff then
    (if e.thr.toNat ≤ s.cl.pageWord.toNat then s else s.askTicket e.thr).sluiceTake e
  else if e.onLane then s.sluiceTake e
  else
    match s.serveCheck e.space e.off.toNat 8 with
    | (s, none) => s.sluiceTake e
    | (s, some .unmapped) => s.tell e.space e.who (.fault 0x08)
    | (s, some (.trap c _)) => s.tell e.space e.who (.fault c)
    | (s, some (.notResident _ _)) =>
      let e := { e with echo := s.dev.marked == some (devOf (whoHome e.who)) }
      let s := s.setCl { s.cl with pendingRegs := s.cl.pendingRegs ++ [e] }
      s.send (.pageInWanted e.space (farAddr s.home e.off &&& ~~~0xFFF))

/-- A registration that waited for its page is handled: its answer carries the echo that its own arrival called for (R344). -/
def State.sluiceAgain (s : State) (e : SluiceEntry) : State :=
  let marked (m : Option (BitVec 10)) (s : State) : State := s.setDev { s.dev with marked := m }
  marked none ((marked (if e.echo then some (devOf (whoHome e.who)) else none) s).sluiceRegister { e with echo := false })

/-- A cancel (R190): an entry, or a registration that still waits for its page. -/
def State.sluiceCancel (s : State) (who : Requester) : State :=
  s.setCl
    { s.cl with sluice := s.cl.sluice.filter fun e => e.who != who
                pendingRegs := s.cl.pendingRegs.filter fun e => e.who != who }

/-- The entries that the written bytes concern. -/
def SluiceEntry.onBytes (sp : BitVec 16) (off n : Nat) (e : SluiceEntry) : Bool :=
  !e.onLane && decide (e.off.toNat < off + n) && decide (off < e.off.toNat + 8) && (isNear off || e.space == sp)

/-- Each satisfied entry of a list is answered and leaves. -/
def State.answerAll (s : State) : List SluiceEntry → State
  | [] => s
  | e :: r =>
    let (s, v) := s.watchedWord e
    if e.thr.toNat ≤ v.toNat then
      ((s.setCl { s.cl with sluice := s.cl.sluice.filter fun x => x != e }).answer e v).answerAll r
    else s.answerAll r

/-- After a write to [off, off + n) is performed (R189). -/
def State.notify (s : State) (sp : BitVec 16) (off n : Nat) : State :=
  s.answerAll (s.cl.sluice.filter (SluiceEntry.onBytes sp off n))

/-- After a word of the lane of a home has risen (R129, R189). -/
def State.notifyLane (s : State) (off : BitVec 40) (h : BitVec 17) : State :=
  s.answerAll (s.cl.sluice.filter fun e => e.onLane && e.off == off && whoHome e.who == h)

/-- Bytes written at the ordering point, and the sluice after them. -/
def State.store (s : State) (sp : BitVec 16) (off : Nat) (bs : List Byte) (atomic clears : Bool) : State :=
  (s.writeAt sp off bs atomic clears).notify sp off bs.length

/-- An advance performed at a sequence word: the home's next GEN, then the write (R187, R188). The step is indivisible (R197) and the
manual leaves open which GEN stamps its own write: the model takes the new one (DESIGN CHOICE, log 77). -/
def State.advance (s : State) (sp : BitVec 16) (off : Nat) (inc : Word) : State × Word :=
  let (s, bs) := s.readAt sp off 8 true
  let new := BitVec.ofNat 64 (leNat bs) + inc
  (s.release.store sp off (leBytes 8 new.toNat) true false, new)

/-! ## Home 127 of the device (R419)

It serves far reads, fetches, pull lines, registrations and page requests of the modelled cluster. Its bytes stand in the
control carve-outs, which the stokers alone write; what of it no rule states is as at any other home. -/

/-- The checks of home 127 on bytes within one line: their physical address, or why not (R139 check 5, R141, R419). It has no
near window. -/
def State.serviceAt (s : State) (sp : BitVec 16) (off n : Nat) (need : Need) : State × Except AccFail Nat :=
  let va := farAddr s.service (BitVec.ofNat 40 off)
  if meetsReserved off n || isNear off then (s, .error (.trap 0x09 va))
  else
    match s.serviceTranslate sp va need with
    | (s, .unmapped) => (s, .error .unmapped)
    | (s, .notResident) => (s, .error (.notResident 0 0))
    | (s, .trap c) => (s, .error (.trap c va))
    | (s, .ok pa _) => (s, .ok pa)

/-- Bytes of home 127, granule by granule, and whether a granule is poisoned. -/
def State.serviceGo (s : State) (sp : BitVec 16) (off n : Nat) (need : Need) :
    List Nat → State × Except AccFail (List Byte × Bool)
  | [] => (s, .ok ([], false))
  | g :: gs =>
    let lo := max g off
    let k := min (g + 64) (off + n) - lo
    match s.serviceAt sp lo k need with
    | (s, .error f) => (s, .error f)
    | (s, .ok pa) =>
      match s.serviceGo sp off n need gs with
      | (s, .error f) => (s, .error f)
      | (s, .ok (bs, p)) => (s, .ok (Mem.bytes s.mem (hbmKey pa) k ++ bs, p || s.hbmPoisoned pa))

def State.serviceBytes (s : State) (sp : BitVec 16) (off n : Nat) (need : Need) : State × Except AccFail (List Byte × Bool) :=
  s.serviceGo sp off n need (granules off n)

/-- The ticket of a page of home 127 that is not resident: its word and threshold (R152). -/
def State.serviceTicket (s : State) (sp : BitVec 16) (off : Nat) : State × Word × Word :=
  let page := farAddr s.service (BitVec.ofNat 40 off) &&& ~~~0xFFF
  let word := farAddr s.service pageWordOff
  match s.dev.svc.tickets.find? fun t => t.1 == sp && t.2.1 == page with
  | some t => (s, word, t.2.2)
  | none =>
    let n := s.dev.svc.ticketNext + 1
    (s.setSvc { s.dev.svc with ticketNext := n, tickets := s.dev.svc.tickets ++ [(sp, page, n)] }, word, n)

/-- Home 127's reply to a far read (R205, R419): one sector, with its GEN. -/
def State.serviceRead (s : State) (sp : BitVec 16) (off : Nat) : State × Reply :=
  match s.serviceBytes sp (off / 32 * 32) 32 .load with
  | (s, .ok (bs, p)) => (s, .data s.dev.svc.gen .g32 [(BitVec.ofNat 256 (leNat bs), p)])
  | (s, .error .unmapped) => (s, .fault 0x08)
  | (s, .error (.trap c _)) => (s, .fault c)
  | (s, .error (.notResident _ _)) =>
    let (s, w, t) := s.serviceTicket sp off
    (s, .notResident w t)

/-- Home 127's reply to a request for a line. -/
def State.serviceLine (s : State) (sp : BitVec 16) (off : Nat) (need : Need) : State × LineReply :=
  match s.serviceBytes sp off 64 need with
  | (s, .ok (bs, p)) => (s, .data s.dev.svc.gen (lineOfBytes bs) p)
  | (s, .error .unmapped) => (s, .fault 0x08)
  | (s, .error (.trap c _)) => (s, .fault c)
  | (s, .error (.notResident _ _)) =>
    let (s, w, t) := s.serviceTicket sp off
    (s, .notResident w t)

/-- The word that an entry of home 127's sluice watches, or why not: a firing's watch of a space's generation word is translated as
that of any other word (R153, R191). -/
def State.serviceWord (s : State) (e : SluiceEntry) : State × Except AccFail Word :=
  if e.off = pageWordOff then (s, .ok s.dev.svc.pageWord)
  else
    match s.serviceBytes e.space e.off.toNat 8 .load with
    | (s, .ok (bs, _)) => (s, .ok (BitVec.ofNat 64 (leNat bs)))
    | (s, .error f) => (s, .error f)

/-- The page of home 127 that a ticket stands for is asked of the stokers, while the ticket is not met (R418). -/
def State.askServiceTicket (s : State) (e : SluiceEntry) : State :=
  if e.off = pageWordOff && decide (s.dev.svc.pageWord.toNat < e.thr.toNat) then
    match s.dev.svc.tickets.find? fun t => t.2.2 == e.thr with
    | some t => s.send (.pageInWanted t.1 t.2.1)
    | none => s
  else s

/-- The entries that home 127's sluice holds: watches, and those of the two TLBs on generation words (R153). -/
def State.serviceEntries (s : State) : Nat := s.dev.svc.sluice.length + s.cl.tlbGens.length + s.dev.svc.tlbGens.length

/-- A registration at home 127 (R189, R191); the watches of the TLBs take entries too (R153). One that arrives again for a tag that
the sluice holds is acknowledged and keeps its one entry (R343). -/
def State.serviceRegister (s : State) (e : SluiceEntry) : State :=
  if s.dev.svc.sluice.any fun x => x.who == e.who then s.tell e.space e.who .armed
  else if s.dev.svc.pending.any fun x => x.who == e.who then s
  else
  let s := s.askServiceTicket e
  match s.serviceWord e with
  | (s, .error .unmapped) => s.tell e.space e.who (.fault 0x08)
  | (s, .error (.trap c _)) => s.tell e.space e.who (.fault c)
  | (s, .error (.notResident _ _)) =>
    (s.setSvc { s.dev.svc with pending := s.dev.svc.pending ++ [e] }).send
      (.pageInWanted e.space (farAddr s.service e.off &&& ~~~0xFFF))
  | (s, .ok v) =>
    if e.thr.toNat ≤ v.toNat then s.tell e.space e.who (.answer v s.dev.svc.gen)
    else if 4096 ≤ s.serviceEntries then s.tell e.space e.who .full
    else (s.setSvc { s.dev.svc with sluice := s.dev.svc.sluice ++ [e] }).tell e.space e.who .armed

/-- A cancel at home 127 (R190). -/
def State.serviceCancel (s : State) (who : Requester) : State :=
  s.setSvc
    { s.dev.svc with
      sluice := s.dev.svc.sluice.filter fun e => e.who != who, pending := s.dev.svc.pending.filter fun e => e.who != who }

/-- Satisfied entries of home 127's sluice are answered and leave. -/
def State.serviceAnswers (s : State) : List SluiceEntry → State
  | [] => s
  | e :: r =>
    match s.serviceWord e with
    | (s, .ok v) =>
      if e.thr.toNat ≤ v.toNat then
        ((s.setSvc { s.dev.svc with sluice := s.dev.svc.sluice.filter fun x => x != e }).tell e.space e.who
          (.answer v s.dev.svc.gen)).serviceAnswers r
      else s.serviceAnswers r
    | (s, .error _) => s.serviceAnswers r

/-- A home's page word once pages have come: it passes every watched ticket's threshold below which all that are watched have
been met (R152). -/
def pageWordAfter (left : List (BitVec 16 × Word × Word)) (sluice : List SluiceEntry) (next now : Word) : Word :=
  let watched := left.filter fun t => sluice.any fun e => e.off == pageWordOff && e.thr == t.2.2
  BitVec.ofNat 64 (max (watched.foldl (fun n t => min n (t.2.2.toNat - 1)) next.toNat) now.toNat)

/-- A page of home 127 is still not resident. -/
def State.serviceAway (s : State) (sp : BitVec 16) (page : Word) : Bool :=
  match (s.serviceTranslate sp page .load).2 with
  | .notResident => true
  | .unmapped => false
  | .trap _ => false
  | .ok _ _ => false

/-- Home 127's tickets whose pages have come are met. -/
def State.serviceTickets (s : State) : State :=
  let v := s.dev.svc
  let left := v.tickets.filter fun t => s.serviceAway t.1 t.2.1
  let word := pageWordAfter left v.sluice v.ticketNext v.pageWord
  s.setSvc { v with pageWord := word, tickets := left.filter fun t => decide (word.toNat < t.2.2.toNat) }

/-- After the stokers have written in the carve-outs: tickets are met, watched words compared, and registrations that wait for a
page handled again. -/
def State.serviceNotify (s : State) : State :=
  let s := s.serviceTickets
  let s := s.serviceAnswers s.dev.svc.sluice
  s.dev.svc.pending.foldl State.serviceRegister (s.setSvc { s.dev.svc with pending := [] })

/-- A watch sent to a word's home: the modelled home's own sluice, that of home 127, or another's. -/
def State.register (s : State) (id : Nat) (sp : BitVec 16) (addr thr : Word) (who : Requester) : State :=
  let e : SluiceEntry := { off := offOf addr, space := sp, thr := thr, who := who }
  if homeOf addr = s.home then s.sluiceRegister e
  else if homeOf addr = s.service then s.serviceRegister e
  else (s.untrack (cancelReq who)).request id (homeOf addr) sp 0x03 (.register addr thr who)

def State.unregister (s : State) (sp : BitVec 16) (addr : Word) (who : Requester) : State :=
  if homeOf addr = s.home then s.sluiceCancel who
  else if homeOf addr = s.service then s.serviceCancel who
  else if devOf (homeOf addr) = s.dev.id then s.send (.unregister addr who)
  else s.cancelTo (cancelReq who) (homeOf addr) sp (.unregister addr who)

end Sys2Proof.Machine
end

