-- ==== Sys2Proof/Machine/Basin.lean ====
section
/-! DEFINITION. The catch basin and its home floors (R206-R209). -/

namespace Sys2Proof.Machine

/-- The basin line of a far address: bits [63:9]. -/
def basinNo (x : Word) : BitVec 55 := x.extractLsb' 9 55

/-- The set of a line (R206). -/
def basinSet (sp : BitVec 16) (line : BitVec 55) : BitVec 10 := line.extractLsb' 0 10 ^^^ sp.extractLsb' 0 10

/-- The home of a basin line. -/
def BasinLine.home (b : BasinLine) : BitVec 17 := b.line.extractLsb' 31 17

def State.basinLine (s : State) (sp : BitVec 16) (x : Word) : Option BasinLine :=
  s.cl.basin.find? fun b => b.space == sp && b.line == basinNo x

/-- The valid sector that holds an address. -/
def State.basinSector (s : State) (sp : BitVec 16) (x : Word) : Option Sector :=
  (s.basinLine sp x).bind fun b => b.sectors[(x.extractLsb' 5 4).toNat]'(x.extractLsb' 5 4).isLt

/-- The floor of a home, where the table has an entry. -/
def State.floorOf (s : State) (h : BitVec 17) : Option (BitVec 48) := (s.cl.floors.find? fun f => f.1 == h).map (·.2)

/-- A valid sector is stale (R208). -/
def State.stale (s : State) (h : BitVec 17) (c : Sector) : Bool :=
  match s.floorOf h with
  | some f => older c.fill f
  | none => false

/-- Every line of a home leaves the basin. -/
def State.dropHome (s : State) (h : BitVec 17) : State :=
  s.setCl { s.cl with basin := s.cl.basin.filter fun b => b.home != h }

/-- A home's floor entry is used; a new entry's floor is the GEN at hand, and the entry it replaces takes its home's lines
with it (R208). `raise` is an acquire (R209). -/
def State.useFloor (s : State) (h : BitVec 17) (g : BitVec 48) (raise : Bool) : State :=
  let rest := s.cl.floors.filter fun f => f.1 != h
  match s.floorOf h with
  | some f => s.setCl { s.cl with floors := (h, if raise then newer f g else f) :: rest }
  | none =>
    let s := s.setCl { s.cl with floors := (h, g) :: rest.take 1023 }
    match rest[1023]? with
    | some old => (s.dropHome old.1).count .cbFloorEvictions 1
    | none => s

/-- An acquire of a home (R209): no floor is kept for home 126 or home 127 (R191, R220). -/
def State.acquire (s : State) (h : BitVec 17) (g : BitVec 48) : State :=
  if 72 ≤ (h.extractLsb' 0 7).toNat then s else s.useFloor h g true

/-- A sector as a response fills it; a fill older than the valid sector leaves it (R207). -/
def fillSector (old : Option Sector) (g : BitVec 48) (d : BitVec 256 × Bool) : Option Sector :=
  match old with
  | some c => if older g c.fill then some c else some { data := d.1, poison := d.2, fill := g }
  | none => some { data := d.1, poison := d.2, fill := g }

/-- Sectors filled from index `k` upward. -/
def fillFrom (v : Vector (Option Sector) 16) (g : BitVec 48) : Nat → List (BitVec 256 × Bool) → Vector (Option Sector) 16
  | _, [] => v
  | k, d :: ds =>
    if h : k < 16 then fillFrom (v.set k (fillSector v[k] g d)) g (k + 1) ds else v

/-- How many sectors a response fills from index `k` upward: those that an older fill would replace are left (R207, R226). -/
def filled (v : Vector (Option Sector) 16) (g : BitVec 48) : Nat → List (BitVec 256 × Bool) → Nat
  | _, [] => 0
  | k, _ :: ds =>
    if h : k < 16 then (if v[k].any fun c => older g c.fill then 0 else 1) + filled v g (k + 1) ds else 0

/-- A line enters its set of 16 ways, the least recently filled one leaving (R206). -/
def State.basinPut (s : State) (b : BasinLine) : State :=
  let rest := s.cl.basin.filter fun x => !(x.space == b.space && x.line == b.line)
  let same := rest.filter fun x => basinSet x.space x.line == basinSet b.space b.line
  let out := same[15]?
  s.setCl { s.cl with basin := b :: rest.filter fun x => some x != out }

/-- A response fills the sectors of its grain (R207). -/
def State.basinFill (s : State) (sp : BitVec 16) (x : Word) (g : BitVec 48) (grain : Grain)
    (ds : List (BitVec 256 × Bool)) : State :=
  let b := (s.basinLine sp x).getD { space := sp, line := basinNo x, sectors := Vector.replicate 16 none }
  let n := grainBytes grain / 32
  let k := (x.extractLsb' 5 4).toNat / n * n
  let s := s.useFloor (homeOf x) g false
  (s.basinPut { b with sectors := fillFrom b.sectors g k (ds.take n) }).count .cbFills (filled b.sectors g k (ds.take n))

end Sys2Proof.Machine
end

