-- ==== Sys2Proof/Machine/Life.lean ====
section
/-! DEFINITION. The life of a firing: requests to other devices (R345, R406), the run lists (R120), record creation
(R119, R123, R129), scheduler watches, the abort of R133 and the outcomes of R151 for a firing. -/

namespace Sys2Proof.Machine

/-- A watch registration sent; one to a lost device ends as LOST at once (R406). -/
def State.watchWord (s : State) (sp : BitVec 16) (addr thr : Word) (who : Requester) : State :=
  if s.lostDev (devOf (homeOf addr)) then s.tell sp who .lost else s.register (watchReq who) sp addr thr who

/-! ## The firing in focus -/

/-- Applies `f` to every core that runs the firing in focus: all four of a gang. -/
def State.mapFiring (s : State) (f : Core → Core) : State := if s.core.task.wide then s.mapCores f else s.setCore (f s.core)

/-- The firing is restartable; a gang carries the mark in every member (R116, R127). -/
def State.restartable (s : State) : Bool := !s.core.nonRestart

/-- The firing becomes non-restartable (R127). -/
def State.spoil (s : State) : State := s.mapFiring fun c => { c with nonRestart := true }

/-- Who a watch slot of a core is to a sluice. -/
def State.slotWho (s : State) (c : Core) (k : Fin 16) : Requester := .slot s.home s.quadNo c.num k c.slots[k].tag

/-- The slots that are SENT or ARMED. -/
def Core.openSlots (c : Core) : List (Fin 16) :=
  (List.finRange 16).filter fun k => c.slots[k].st == .sent || c.slots[k].st == .armed

/-- The registrations of a core's open slots are cancelled. -/
def State.closeSlots (s : State) (c : Core) : State :=
  c.openSlots.foldl
    (fun s k =>
      let who := s.slotWho c k
      (if c.slots[k].page.isSome then s else s.unregister c.task.space c.slots[k].addr who).untrack (watchReq who)) s

/-- The registrations of a core's open slots are cancelled, and nothing waits for its reads and validations (R225). -/
def State.cancelSlots (s : State) (c : Core) : State :=
  let s := c.far.foldl (fun s f => (s.untrack f.req).endPcie f.req) s
  let s := c.prt.foldl (fun s e => s.untrack (validReq e.id)) s
  s.closeSlots c

/-- Slots as END leaves them: free, their tags kept (R132). -/
def Core.freeSlots (c : Core) : Core := { c with slots := c.slots.map fun w => { WSlot.free with tag := w.tag } }

/-- No slot is in use. -/
def Core.slotsFree (c : Core) : Bool := c.slots.toList.all fun w => w.st == .free

/-- The read of a waiting SQWAIT: a save takes it along, and nothing is left of it when its firing is gone. -/
def AccKind.waits : AccKind → Bool
  | .sqwait _ _ => true
  | .ld _ _ _ | .st _ _ | .ldv _ _ _ | .stv _ _ | .ldx _ _ _ | .stx _ | .amo _ _ _ _ | .acas _ _ _ _ | .advance _ _
  | .advCheck _ | .tmapset _ _ | .testinj _ | .touch _ | .noAlloc _ | .writeBack _ => false

/-- A core as the end of a firing leaves it: accumulators stay (R164), issued local accesses and the transfers' scoreboard
entries go on (R170, R250). A pending division is discarded and its divider is free at once (log 62). -/
def Core.release (c : Core) (now : Nat) : Core :=
  { Core.idle c.num with
    accum := c.accum, wild := c.wild, started := now, slots := c.slots.map fun w => { WSlot.free with tag := w.tag }
    sb := c.sb.filter fun r => !c.mq.any fun m => m.id == r.id
    acc := (c.acc.filter fun a => !a.kind.waits).map fun a => { a with orphan := true } }

/-- The firing in focus leaves its cores. -/
def State.leave (s : State) : State :=
  let s := if s.core.task.wide then s.cores.foldl State.cancelSlots s else s.cancelSlots s.core
  s.mapFiring fun c => c.release s.dev.clk

/-- Another core's firing, in focus for `f`. -/
def State.onCore (s : State) (p : Core → Bool) (f : State → State) : State :=
  match s.focus p with
  | some t => f t
  | none => s

/-! ## Records (R118-R125) -/

/-- A record joins the tail of a list (R120). -/
def State.joinAt (s : State) (q : BitVec 2) (r : ContRec) : State :=
  let l := s.cl.lists[q.toNat]'(q.isLt)
  s.setCl { s.cl with lists := s.cl.lists.set q.toNat (l ++ [(r, s.dev.clk)]) q.isLt }

/-- A record joins the list of its base priority. The manual speaks of a full region at SPAWN only: a record that comes back to its
list, aborted, saved or armed again, joins it whatever its length (DESIGN CHOICE, log 74). -/
def State.join (s : State) (r : ContRec) : State := s.joinAt r.prio r

/-- A kill by the scheduler (R421). -/
def State.schedKill (s : State) (graph : BitVec 32) (cause : Byte) (tval : Word) : State :=
  s.askKill (s.plainKill graph 3 cause false tval)

/-- The watch of a list that is first in the order of its records' creation. -/
def firstWatch : List SchedWatch → Option SchedWatch
  | [] => none
  | w :: r =>
    match firstWatch r with
    | some x => if x.order < w.order then some x else some w
    | none => some w

/-- Scheduler watches are sent while fewer than 1,024 are in use, in the order in which their records were created (R123). -/
def State.pump (s : State) : State :=
  if 1024 ≤ (s.cl.watches.filter (·.sent)).length then s
  else
    match firstWatch (s.cl.watches.filter fun w => !w.sent) with
    | none => s
    | some w =>
      let s := s.setCl { s.cl with watches := s.cl.watches.map fun x => if x.id = w.id then { x with sent := true } else x }
      s.watchWord ((s.cl.bound.map (·.space)).getD 0) w.addr w.thr (.sched s.home w.id)

/-- A scheduler watch, for the record whose id is `order`. -/
def State.addWatch (s : State) (order : Nat) (use : SchedUse) (addr thr : Word) : State :=
  let w : SchedWatch :=
    { id := s.id, order := order, use := use, addr := addr, thr := thr, refused := 0, sent := false, retryAt := none }
  (s.takeId.setCl { s.takeId.cl with watches := s.cl.watches ++ [w] }).pump

/-- A scheduler watch is released; a waiting one takes its place. -/
def State.dropWatch (s : State) (id : Nat) : State :=
  (s.setCl { s.cl with watches := s.cl.watches.filter fun w => w.id != id }).pump

/-- A watch of a record that waits for its page (R152). -/
def SchedUse.isResidency : SchedUse → Bool
  | .residency _ => true
  | .edge _ _ | .channel _ _ | .lane _ | .inLane _ => false

/-- Records that the run-list region holds (R119): those of the lists, those that wait for edges, channels or a list, and those of
aborted firings that wait for a page. -/
def State.regionUse (s : State) : Nat :=
  (s.cl.lists.toList.map List.length).sum + (s.cl.waiting.filter fun w => !w.ripe || w.reading).length +
    (s.cl.watches.filter (·.use.isResidency)).length

def State.waitRec (s : State) (id : Nat) : Option WaitRec := s.cl.waiting.find? fun w => w.id == id

/-- A waiting record replaced. -/
def State.putWait (s : State) (w : WaitRec) : State :=
  s.setCl { s.cl with waiting := s.cl.waiting.map fun x => if x.id = w.id then w else x }

def State.dropWait (s : State) (id : Nat) : State :=
  s.setCl { s.cl with waiting := s.cl.waiting.filter fun w => w.id != id }

/-- The frame pointer of a record with edges, or of an actor, as R123's table judges it. -/
def State.frameCheck (s : State) (x : Word) : Option Byte :=
  match s.farCheck x with
  | some 0x07#8 => some 0x07
  | some c => if x.extractLsb' 0 3 ≠ 0#3 then some 0x06 else some c
  | none => if x.extractLsb' 0 3 ≠ 0#3 then some 0x06 else none

/-- A read of the modelled home's memory by a scheduler, walker or peer: bytes, or why not. -/
def State.homeBytes (s : State) (sp : BitVec 16) (off n : Nat) : State × Except AccFail (List Byte) :=
  match s.serveCheck sp off n with
  | (s, some f) => (s, .error f)
  | (s, none) =>
    match s.firstPoison sp off (granules off n) with
    | (s, some _) => (s, .error (.trap 0x0C (farAddr s.home (BitVec.ofNat 40 off))))
    | (s, none) =>
      let (s, bs) := s.readAt sp off n false
      (s, .ok bs)

/-- The same of a home that the model serves: the modelled one, or home 127 of the device. -/
def State.readHome (s : State) (h : BitVec 17) (sp : BitVec 16) (off n : Nat) : State × Except AccFail (List Byte) :=
  if h = s.service then
    match s.serviceBytes sp off n .load with
    | (s, .error f) => (s, .error f)
    | (s, .ok (bs, p)) => (s, if p then .error (.trap 0x0C (farAddr h (BitVec.ofNat 40 off))) else .ok bs)
  else s.homeBytes sp off n

/-- The failure is that its page is not resident. -/
def AccFail.away : AccFail → Bool
  | .notResident _ _ => true
  | .unmapped | .trap _ _ => false

/-- A line of a home that the model serves lies in a page that is not resident. -/
def State.lineAway (s : State) (h : BitVec 17) (sp : BitVec 16) (g : Nat) : Bool :=
  if h = s.service then s.serviceAway sp (farAddr h (BitVec.ofNat 40 g))
  else (s.checkLines sp .load [g]).2.any AccFail.away

/-- The first page of [off, off + n) of a home that the model serves that is not resident. -/
def State.awayPage (s : State) (h : BitVec 17) (sp : BitVec 16) (off n : Nat) : Word :=
  farAddr h (BitVec.ofNat 40 (((granules off n).find? (s.lineAway h sp)).getD off)) &&& ~~~0xFFF

/-- A home that the model serves. -/
def State.served (s : State) (h : BitVec 17) : Bool := h == s.home || h == s.service

/-- The GEN of a home that the model serves. -/
def State.genOf (s : State) (h : BitVec 17) : BitVec 48 := if h = s.service then s.dev.svc.gen else s.cl.gen

/-- 64-bit words of a byte list. -/
def wordsOf : Nat → List Byte → List Word
  | 0, _ => []
  | n + 1, bs => BitVec.ofNat 64 (leNat (bs.take 8)) :: wordsOf n (bs.drop 8)

/-- Words of an edge list or descriptor (R123, R124): a descriptor's first word says how many channels follow. A failed read
names its bytes. -/
def State.listWords (s : State) (r : ContRec) : State × Except (AccFail × Nat × Nat) (List Word) :=
  let h := homeOf r.frame
  let off := (offOf r.frame).toNat
  if r.actor then
    match s.readHome h r.space off 8 with
    | (s, .error f) => (s, .error (f, off, 8))
    | (s, .ok h0) =>
      let n := min ((h0.getD 0 0).toNat + (h0.getD 1 0).toNat) 8
      match s.readHome h r.space (off + 8) (32 * n) with
      | (s, .error f) => (s, .error (f, off + 8, 32 * n))
      | (s, .ok bs) => (s, .ok (wordsOf (1 + 4 * n) (h0 ++ bs)))
  else
    match s.readHome h r.space off (16 * r.join) with
    | (s, .error f) => (s, .error (f, off, 16 * r.join))
    | (s, .ok bs) => (s, .ok (wordsOf (2 * r.join) bs))

/-- The scheduler's read of a waiting record's list: at once for a list in a home that the model serves, whose first page
that is not resident it waits for (R418); else the home is asked; a home of a lost device has failed it (R123). -/
def State.readList (s : State) (w : WaitRec) : State :=
  let h := homeOf w.cr.frame
  if s.lostDev (devOf h) then s.queue (.edgeListRead w.id (.fail 0x14))
  else if !s.served h then s.request w.id h w.cr.space 0x01 (.readReq w.id w.cr.frame w.cr.space)
  else
    match s.listWords w.cr with
    | (s, .ok ws) => s.queue (.edgeListRead w.id (.words (s.genOf h) ws))
    | (s, .error (.unmapped, _)) => s.queue (.edgeListRead w.id (.fail 0x08))
    | (s, .error (.trap c _, _)) => s.queue (.edgeListRead w.id (.fail c))
    | (s, .error (.notResident _ _, off, n)) =>
      s.send (.pageInWanted w.cr.space (s.awayPage h w.cr.space off n))

/-- A record enters the run-list region (R119, R123): runnable at once, or waiting for its edges or channels. -/
def State.enlist (s : State) (r : ContRec) : State :=
  if r.join = 0 && !r.actor then s.join r
  else
    match s.frameCheck r.frame with
    | some c => s.schedKill r.graph c r.frame
    | none =>
      let w : WaitRec := { id := s.id, cr := { r with sid := s.id }, acquires := [], firings := 0, desc := [],
                           reading := true, ripe := false }
      (s.takeId.setCl { s.takeId.cl with waiting := s.cl.waiting ++ [w] }).readList w

/-- RECORD_CREATION (R119, R129): into the region, or the overflow area, or past its quota. -/
def State.createRecord (s : State) (r : ContRec) (byFiring : Bool) : State :=
  if s.regionUse < 65536 then s.enlist r
  else if (s.cl.overflow.filter fun o => o.graph == r.graph).length < 4096 then
    s.setCl { s.cl with overflow := s.cl.overflow ++ [r] }
  else s.askKill (s.plainKill r.graph 3 0x1A byFiring r.code)

/-- Overflow records move back, oldest first, while there is room (R119). -/
def State.refillGo (s : State) : List ContRec → State
  | [] => s
  | r :: rest => if s.regionUse < 65536 then ((s.setCl { s.cl with overflow := rest }).enlist r).refillGo rest else s

def State.refill (s : State) : State := s.refillGo s.cl.overflow

/-! ## Abort and translation outcomes (R133, R151) -/

/-- The restart limit of the bound launch. -/
def State.restartLimit (s : State) : Nat := (s.cl.bound.map (·.limit)).getD 64

/-- The restart count of an actor's record rises (R133). -/
def State.restartRec (s : State) (r : ContRec) : State :=
  match s.waitRec r.sid with
  | none => s
  | some w => if r.actor then s.putWait { w with cr := { w.cr with restarts := w.cr.restarts + 1 } } else s

/-- ABORT (R133): the firing's state is discarded and its record's restart count rises; what becomes of the record is
`after`. Past the limit the launch is killed instead. The firing of a core that a kill is stopping only stops (R333). -/
def State.abort (s : State) (after : ContRec → State → State) : State :=
  let r := s.core.task
  if s.core.status = .stopping then s.mapFiring fun c => { c with grp := Grp.none, wait := [], mark := .none }
  else if s.restartLimit < r.restarts.toNat + 1 then
    let k := s.plainKill r.graph 3 0x19 true r.code
    (s.askKill k).mapFiring fun c => { c with status := .stopping, grp := Grp.none, wait := [], mark := .none }
  else
    let s := (((s.leave).restartRec r).rewind r.key).count .restarts 1
    after { r with restarts := r.restarts + 1, resumable := false } s

/-- A firing that cannot be aborted, or is not at TL0, takes a translation fault as trap 0x08 (R151). -/
def State.abortable (s : State) : Bool := s.core.level = 0 && s.restartable

/-- Outcome not resident for an abortable firing: its record waits for the page (R152). -/
def State.abortForPage (s : State) (word thr : Word) : State :=
  s.abort fun r s => s.addWatch s.id (.residency r) word thr

/-- Outcome unmapped for an abortable firing: the stokers find no mapping and kill the launch (R151). -/
def State.abortUnmapped (s : State) (addr : Word) : State :=
  let k := s.plainKill s.core.task.graph 4 0x08 true addr
  (s.abort fun _ s => s).askKill k

end Sys2Proof.Machine
end

