-- ==== Sys2Proof/Machine/LocalMem.lean ====
section
/-! DEFINITION. Local memory and atomics (chapter 10). An instruction makes checks 1-3 of R166 at issue and leaves an
access; the access makes checks 4 and 5 and is performed as a step of its own, and its result arrives at the time of
R172. -/

namespace Sys2Proof.Machine

/-! ## Shapes of accesses -/

/-- The byte ranges an access touches. -/
def AccKind.ranges : AccKind → List (Nat × Nat)
  | .ld off w _ => [(off.toNat, w)]
  | .st off bs => [(off.toNat, bs.length)]
  | .ldv off g _ => [(off.toNat, 256 * g)]
  | .stv off bs => [(off.toNat, bs.length)]
  | .ldx es n _ => es.filterMap fun e => e.map fun o => (o.toNat, n)
  | .stx es => es.map fun e => (e.1.toNat, e.2.length)
  | .amo _ off w _ => [(off.toNat, w)]
  | .acas off w _ _ => [(off.toNat, w)]
  | .advance off _ => [(off.toNat, 8)]
  | .advCheck off => [(off.toNat, 8)]
  | .sqwait off _ => [(off.toNat, 8)]
  | .tmapset off _ => [(off.toNat, 64)]
  | .testinj off => [(off.toNat, 64)]
  | .touch off => [(off.toNat / 64 * 64, 64)]
  | .noAlloc off => [(off.toNat / 64 * 64, 64)]
  | .writeBack off => [(off.toNat / 64 * 64, 64)]

/-- The rows of R167: a read, a write, or neither (PREF). -/
inductive AccClass where
  | read | write | hint
deriving DecidableEq, Repr

def AccKind.cls : AccKind → AccClass
  | .ld _ _ _ | .ldv _ _ _ | .ldx _ _ _ | .amo _ _ _ _ | .acas _ _ _ _ | .advance _ _ | .sqwait _ _ | .tmapset _ _ => .read
  | .st _ _ | .stv _ _ | .stx _ | .advCheck _ | .testinj _ => .write
  | .touch _ | .noAlloc _ | .writeBack _ => .hint

/-- The permission an access needs. -/
def AccKind.need : AccKind → Need
  | .ld _ _ _ | .ldv _ _ _ | .ldx _ _ _ | .sqwait _ _ | .tmapset _ _ | .touch _ | .noAlloc _ | .writeBack _ => .load
  | .st _ _ | .stv _ _ | .stx _ | .amo _ _ _ _ | .acas _ _ _ _ | .advance _ _ | .advCheck _ | .testinj _ => .store

/-- It makes check 5: it reads its bytes. -/
def AccKind.reads : AccKind → Bool
  | .ld _ _ _ | .ldv _ _ _ | .ldx _ _ _ | .amo _ _ _ _ | .acas _ _ _ _ | .advance _ _ | .advCheck _ | .sqwait _ _
  | .tmapset _ _ => true
  | .st _ _ | .stv _ _ | .stx _ | .testinj _ | .touch _ | .noAlloc _ | .writeBack _ => false

/-- The accesses that make a firing non-restartable when performed (R127, R184). -/
def AccKind.spoils : AccKind → Bool
  | .amo _ _ _ _ | .acas _ _ _ _ | .advance _ _ | .testinj _ => true
  | .ld _ _ _ | .st _ _ | .ldv _ _ _ | .stv _ _ | .ldx _ _ _ | .stx _ | .advCheck _ | .sqwait _ _ | .tmapset _ _
  | .touch _ | .noAlloc _ | .writeBack _ => false

/-- The check of a deferred SQADV, whose commit-buffer entry a failure gives up (R128, R197). -/
def AccKind.defers : AccKind → Bool
  | .advCheck _ => true
  | .ld _ _ _ | .st _ _ | .ldv _ _ _ | .stv _ _ | .ldx _ _ _ | .stx _ | .amo _ _ _ _ | .acas _ _ _ _ | .advance _ _
  | .sqwait _ _ | .tmapset _ _ | .testinj _ | .touch _ | .noAlloc _ | .writeBack _ => false

/-- Stores and atomics: they take a store-buffer entry (R170), and a release waits for them (R187). -/
def AccKind.stores : AccKind → Bool
  | .st _ _ | .stv _ _ | .stx _ | .amo _ _ _ _ | .acas _ _ _ _ => true
  | .ld _ _ _ | .ldv _ _ _ | .ldx _ _ _ | .advance _ _ | .advCheck _ | .sqwait _ _ | .tmapset _ _ | .testinj _
  | .touch _ | .noAlloc _ | .writeBack _ => false

/-- A release and END wait for it: a store or an atomic, and a PREF.WB, which is pushed through before them (R170, R187). -/
def AccKind.ordered (k : AccKind) : Bool :=
  k.stores ||
    match k with
    | .writeBack _ => true
    | .ld _ _ _ | .st _ _ | .ldv _ _ _ | .stv _ _ | .ldx _ _ _ | .stx _ | .amo _ _ _ _ | .acas _ _ _ _ | .advance _ _
    | .advCheck _ | .sqwait _ _ | .tmapset _ _ | .testinj _ | .touch _ | .noAlloc _ => false

/-- The lowest byte of an access and the one after its highest: none where no element is active. -/
def AccKind.span (k : AccKind) : Nat × Nat :=
  (k.ranges.foldl (fun m e => min m e.1) (2 ^ 40), k.ranges.foldl (fun m e => max m (e.1 + e.2)) 0)

def overlap (a b : Nat × Nat) : Bool := decide (a.1 < b.1 + b.2) && decide (b.1 < a.1 + a.2)

def anyOverlap (xs ys : List (Nat × Nat)) : Bool := xs.any fun x => ys.any fun y => overlap x y

/-! ## Checks 1-3 of R166 -/

/-- The first element that a check fails on. -/
def firstBad (p : Nat × Nat → Bool) (es : List (Nat × Nat)) : Option Word := (es.find? p).map fun e => BitVec.ofNat 64 e.1

/-- An element has a near-window byte at or above the live size (R141). -/
def State.pastLive (s : State) (e : Nat × Nat) : Bool := isNear e.1 && decide (s.liveNear < e.1 + e.2)

/-- Checks 1-3, and the channel area for an access that writes (R239): a trap's cause and TVAL. -/
def State.issueCheck (s : State) (align : Nat) (writes : Bool) (es : List (Nat × Nat)) : Option (Byte × Word) :=
  match firstBad (fun e => decide (e.1 % align ≠ 0)) es with
  | some v => some (0x06, v)
  | none =>
    match firstBad (fun e => meetsReserved e.1 e.2) es with
    | some v => some (0x09, v)
    | none =>
      match firstBad s.pastLive es with
      | some v => some (0x09, v)
      | none => if writes then (es.findSome? fun e => s.chanHit e.1 e.2).map fun a => (0x09, BitVec.ofNat 64 a) else none

/-! ## Issuing an access -/

/-- An LDFA of the firing awaits its reply: no access after it is performed before (R220). -/
def Core.acquiring (c : Core) : Bool := c.far.any fun f => f.kind == .ldfa

/-- The time of an LDV or STV (R172, R178): in the near window that of its first byte; in the paged region that of the line that is
there last. -/
def State.rangeTime (s : State) (off n : Nat) : Nat :=
  if isNear off then s.accessTime off else ((granules off n).map s.accessTime).foldl max 0

/-- The pools that a near access touches beyond the first, and its registers (R178). -/
def wideExtra (off g : Nat) : Nat :=
  if isNear off then g + ((off % 256 + 256 * g + 255) / 256 - 1) else g

/-- The lines an access covers. -/
def AccKind.lines (k : AccKind) : List Nat := k.ranges.flatMap fun e => granules e.1 e.2

/-- Check 5 over the ranges of an access. -/
def State.poisonIn (s : State) (sp : BitVec 16) : List (Nat × Nat) → State × Option Nat
  | [] => (s, none)
  | e :: es =>
    match s.firstPoison sp e.1 (granules e.1 e.2) with
    | (s, some x) => (s, some x)
    | (s, none) => s.poisonIn sp es

/-- The TLB answers the translation of an address at once (R149-R151, R154). -/
def State.translated (s : State) (sp : BitVec 16) (va : Word) (need : Need) : Bool :=
  match s.tlbHit sp va with
  | none => false
  | some e =>
    (s.space? sp).isSome && need.granted (pteR e.pte) (pteW e.pte) (pteX e.pte) && s.keyOk e.slot e.slotGen &&
      s.frameMode (e.frame + va.toNat % e.size) == some (pteMode e.pte)

/-- Checks 4 and 5 of the access find nothing against it as it issues: each paged line stands in the near cache with the
rights that it needs, or, for a write, the TLB translates it; and a read meets no poison. TMAPSET and TESTINJ have more to
check at the ordering point (log 18). -/
def State.decided (s : State) (k : AccKind) : Bool :=
  let sp := s.core.task.space
  let late : Bool :=
    match k with
    | .tmapset _ _ => true
    | .testinj _ => true
    | .ld _ _ _ | .st _ _ | .ldv _ _ _ | .stv _ _ | .ldx _ _ _ | .stx _ | .amo _ _ _ _ | .acas _ _ _ _ | .advance _ _
    | .advCheck _ | .sqwait _ _ | .touch _ | .noAlloc _ | .writeBack _ => false
  !late && (k.lines.all fun g => isNear g || ((s.ncFind sp (s.lineVa g)).isSome && s.lineRights sp (s.lineVa g) k.need) ||
    (!k.reads && s.translated sp (s.lineVa g) k.need)) &&
    (!k.reads || (s.poisonIn sp k.ranges).2.isNone)

/-- The held mode of R167. -/
def State.heldMode (s : State) : Bool := s.core.level ≠ 0 || !s.restartable

/-- A paged line as its translation stands: in the near cache, in the LLC, or by the TLB. -/
def State.knownLine (s : State) (sp : BitVec 16) (g : Nat) : Option LlcLine :=
  if isNear g then none
  else
    let va := s.lineVa g
    ((s.ncFind sp va).map NcLine.below) <|> (s.llcFind sp va) <|>
      (s.tlbHit sp va).map fun e => s.freshLine sp va (e.frame + va.toNat % e.size) e.pte

/-- What an access in held mode keeps of checks 4 and 5, where they are decided as it issues: nothing that happens before its
ordering point undoes them, so that no failure comes after a later group has issued (R167, R407). -/
def State.known (s : State) (k : AccKind) : Option (List LlcLine) :=
  if s.heldMode && s.decided k && k.cls != .hint then some (k.lines.filterMap (s.knownLine s.core.task.space)) else none

/-- An access joins the firing's list; in held mode later slots wait for it, unless its checks are decided as it issues. -/
def State.addAccess (s : State) (kind : AccKind) (push : Bool) (ds : List Dest) (due : Nat) : State :=
  let a : Access :=
    { id := s.id, firing := s.core.number, space := s.core.task.space, kind := kind, held := s.heldMode, orphan := false, ret := s.core.pc,
      off := s.core.grp.off, due := due, bad := none, known := s.known kind }
  let id := s.id
  let waits := s.heldMode && !s.decided kind && kind.cls != .hint && (kind.reads || kind.ranges.any fun e => !isNear e.1)
  let s := s.owe push ds
  s.setCore { s.core with acc := s.core.acc ++ [a], wait := s.core.wait ++ if waits then [.held id] else [] }

/-- The store buffer is full (R170), the stores of a firing that is gone among its entries. -/
def Core.bufferFull (c : Core) : Bool := 16 ≤ (c.acc.filter fun a => a.kind.stores).length

/-- An access instruction: the gate, the issue checks, the acquire of an LDFA and the store buffer, then the access. -/
def issueAccess (i : Instr) (s : State) (align : Nat) (writes : Bool) (kind : AccKind) (push : Bool) (ds : List Dest)
    (due : Nat) : Out :=
  gate i s
    (match s.issueCheck align writes kind.ranges with
     | some (c, v) => .next (s.trap c v)
     | none =>
       if s.core.acquiring || (kind.stores && s.core.bufferFull) then stall s
       else .next (s.addAccess kind push ds (s.dev.clk + due)))

/-! ## The instructions -/

def execLd (w : Width) (sext : Bool) (d : NDst) (a : Src) (disp : BitVec 48) (s : State) : Out :=
  let off := s.localOff a disp
  issueAccess (.ld w sext d a disp) s (wbytes w) false (.ld off (wbytes w) sext) true (dstOf d).toList (s.accessTime off.toNat)

def execSt (w : Width) (a b : Src) (disp : BitVec 48) (s : State) : Out :=
  let off := s.localOff a disp
  issueAccess (.st w a b disp) s (wbytes w) true (.st off (leBytes (wbytes w) (s.src b).toNat)) false []
    (s.accessTime off.toNat)

def execLdv (g : BitVec 2) (d : Fin 32) (a : Src) (disp : BitVec 48) (s : State) : Out :=
  let off := s.localOff a disp
  let n := 2 ^ g.toNat
  issueAccess (.ldv g d a disp) s 64 false (.ldv off n d) false ((vgroup d n).map .v)
    (s.rangeTime off.toNat (256 * n) + wideExtra off.toNat n)

/-- The bytes of a register group, in increasing offset order (R178). -/
def State.groupBytes (s : State) (r : Fin 32) (n : Nat) : List Byte :=
  (vgroup r n).flatMap fun i => leBytes 256 (s.core.view.v[i]).toNat

def execStv (g : BitVec 2) (a : Src) (b : Fin 32) (disp : BitVec 48) (s : State) : Out :=
  let off := s.localOff a disp
  let n := 2 ^ g.toNat
  issueAccess (.stv g a b disp) s 64 true (.stv off (s.groupBytes b n)) false []
    (s.rangeTime off.toNat (256 * n) + wideExtra off.toNat n)

/-- A mask as an instruction reads it: bit b of mk. -/
def State.maskBit (s : State) (m : VMask) (b : Nat) : Bool :=
  match m with
  | some k => s.core.view.m[k].getLsbD b
  | none => true

/-- The offset of element i of LDX and STX, if it is active (R180). -/
def State.element (s : State) (w : Width) (x : XIdx) (m : VMask) (base : BitVec 40) (i : Nat) : Option (BitVec 40) :=
  let n := wbytes w
  if s.maskBit m (if n = 8 then 2 * i else i * n / 4) then
    match x with
    | .stride b => some (base + BitVec.ofNat 40 (i * (s.src b).toNat))
    | .index v =>
      let r : Fin 32 := Fin.ofNat 32 (v.val + i / 64)
      some (base + (s.core.view.v[r].extractLsb' (32 * (i % 64)) 32).setWidth 40)
  else none

/-- The elements of LDX and STX. -/
def State.elements (s : State) (w : Width) (x : XIdx) (m : VMask) (base : BitVec 40) : List (Option (BitVec 40)) :=
  (List.range (256 / wbytes w)).map (s.element w x m base)

/-- The latest of the elements' times; with no active element, of which R180 gives no time, that of the core's own pool (DESIGN CHOICE,
log 76). -/
def State.latest (s : State) (es : List (Nat × Nat)) : Nat := (es.map fun e => s.accessTime e.1).foldl max 2

def execLdx (w : Width) (x : XIdx) (m : VMask) (d : Fin 32) (a : Src) (disp : BitVec 48) (s : State) : Out :=
  let kind := AccKind.ldx (s.elements w x m (s.localOff a disp)) (wbytes w) d
  issueAccess (.ldx w x m d a disp) s (wbytes w) false kind false [.v d] (s.latest kind.ranges)

def execStx (w : Width) (x : XIdx) (m : VMask) (a : Src) (c : Fin 32) (disp : BitVec 48) (s : State) : Out :=
  let n := wbytes w
  let es := (s.elements w x m (s.localOff a disp)).zipIdx.filterMap fun e =>
    e.1.map fun o => (o, leBytes n ((s.core.view.v[c]).toNat / 2 ^ (8 * n * e.2)))
  issueAccess (.stx w x m a c disp) s n true (.stx es) false [] (s.latest (AccKind.stx es).ranges)

/-- PREF (R181): an access that traps nowhere; an offset that fails R166 is a no-op. -/
def execPref (f : PrefFn) (a : Src) (disp : BitVec 48) (s : State) : Out :=
  let off := s.localOff a disp
  let kind : AccKind :=
    match f with
    | .touch => .touch off
    | .na => .noAlloc off
    | .wb => .writeBack off
  gate (.pref f a disp) s
    (if off.toNat < 0x4000000 then .next s
     else if s.core.acquiring then stall s
     else .next (s.addAccess kind false [] (s.dev.clk + s.accessTime off.toNat)))

/-- Bytes of an atomic. -/
def amoBytes (word32 : Bool) : Nat := if word32 then 4 else 8

def execAmo (f : AmoFn) (word32 : Bool) (d : NDst) (a b : Src) (disp : BitVec 48) (s : State) : Out :=
  let off := s.localOff a disp
  let w := amoBytes word32
  issueAccess (.amo f word32 d a b disp) s w true (.amo f off w (s.src b)) true (dstOf d).toList (s.accessTime off.toNat)

def execAcas (word32 : Bool) (d : NDst) (a b c : Src) (disp : BitVec 48) (s : State) : Out :=
  let off := s.localOff a disp
  let w := amoBytes word32
  issueAccess (.acas word32 d a b c disp) s w true (.acas off w (s.src b) (s.src c)) true (dstOf d).toList
    (s.accessTime off.toNat)

/-! ## Which access may be performed -/

/-- The engine scoreboard holds a vector access behind an earlier engine command of its firing (R248). -/
def Core.boarded (c : Core) (a : Access) : Bool :=
  match a.kind with
  | .ldv _ _ _ => blocks false
  | .ldx _ _ _ => blocks false
  | .stv _ _ => blocks true
  | .stx _ => blocks true
  | .ld _ _ _ | .st _ _ | .amo _ _ _ _ | .acas _ _ _ _ | .advance _ _ | .advCheck _ | .sqwait _ _ | .tmapset _ _
  | .testinj _ | .touch _ | .noAlloc _ | .writeBack _ => false
where
  /-- The range from the lowest to the highest active byte meets a range of an earlier command. -/
  blocks (store : Bool) : Bool :=
    c.sb.any fun r =>
      decide (r.id < a.id) && r.firing == a.firing && decide (a.kind.span.1 < r.hi) && decide (r.lo < a.kind.span.2) && (store || r.write)

/-- A resumed firing waits for its listed transfers, before anything else of it goes on (R332). -/
def Core.resuming (c : Core) : Bool := c.wait.contains .transfers

/-- None of the firing before it that is still to be performed touches its bytes (R170); own-home far reads count. -/
def Core.inOrder (c : Core) (home : BitVec 17) (a : Access) : Bool :=
  !(c.acc.any fun b => decide (b.id < a.id) && b.bad.isNone && anyOverlap b.kind.ranges a.kind.ranges) &&
    !(c.far.any fun f => decide (f.id < a.id) && homeOf f.addr == home && f.reply.isNone && anyOverlap [((offOf f.addr).toNat, f.w)] a.kind.ranges)

/-- The block of a migration's final pass holds the home's writes to the page, of its space alone (R156). -/
def State.migBlocked (s : State) (sp : BitVec 16) (k : AccKind) : Bool :=
  match s.cl.mig with
  | none => false
  | some m => m.blocked.isSome && m.space == sp && k.need == .store && k.ranges.any fun e => (granules e.1 e.2).any fun g => s.lineVa g &&& ~~~0xFFF == m.page

/-- An advance is a release. -/
def AccKind.releases : AccKind → Bool
  | .advance _ _ => true
  | .ld _ _ _ | .st _ _ | .ldv _ _ _ | .stv _ _ | .ldx _ _ _ | .stx _ | .amo _ _ _ _ | .acas _ _ _ _ | .advCheck _
  | .sqwait _ _ | .tmapset _ _ | .testinj _ | .touch _ | .noAlloc _ | .writeBack _ => false

/-- A PREF.WB or TESTINJ waits for the firing's earlier stores to its line; `inOrder` sees to it. An SQWAIT is performed
when its word has reached the threshold. A pool bank serves one access a clk (R163, R172), and the home performs one release
a clk (R188). -/
def State.mayPerform (s : State) (c : Core) (a : Access) : Bool :=
  decide (a.due ≤ s.dev.clk) && (a.orphan || !c.resuming) && c.inOrder s.home a && !c.boarded a && !s.migBlocked a.space a.kind && a.bad.isNone &&
    s.banksFree a.kind.ranges && (!a.kind.releases || s.mayRelease)

/-- An access of the core that is in focus. -/
def Core.access (c : Core) (k : Nat) : Option Access := c.acc.find? fun a => a.id == k

/-- The access leaves the list. -/
def State.dropAccess (s : State) (k : Nat) : State :=
  s.setCore { s.core with acc := s.core.acc.filter fun a => a.id != k }

/-- The access's checks are decided: the slots that it held go on (R167). -/
def Core.unheld (c : Core) (k : Nat) : Core := { c with wait := c.wait.filter fun w => w != .held k }

/-- The access has failed: nothing waits for it. -/
def Core.unhold (c : Core) (k : Nat) : Core := { c with wait := c.wait.filter fun w => w != .held k && w != .sqwait k }

/-! ## Failures of checks 4 and 5 (R167, R184) -/

/-- Another atomic of the firing is undecided. -/
def Core.undecided (c : Core) (k : Nat) : Bool := c.acc.any fun a => a.kind.spoils && a.id != k && !a.orphan && a.bad.isNone

/-- A held access that fails takes no queue position and no register (R167). -/
def Core.takeBack (c : Core) (k : Nat) : Core :=
  let gone : QEntry → Bool := fun e => e == .pending k
  { c with
    bank0 := c.bank0.filter fun e => !gone e
    bank1 := c.bank1.filter fun e => !gone e
    bank2 := c.bank2.filter fun e => !gone e
    owed := c.owed.filter fun x => x.1 != k }

/-- The effect of a deferred advance whose checks have failed is given up (R128, R197). -/
def Effect.checkedBy (id : Nat) : Effect → Bool
  | .advance _ _ check _ => check == id
  | .spawn _ _ => false

def Core.giveUp (c : Core) (a : Access) : Core :=
  if a.kind.defers then { c with commit := c.commit.filter fun e => !e.checkedBy a.id } else c

/-- A trap charged to the access's slot (held mode). -/
def State.heldTrap (s : State) (a : Access) (cause : Byte) (tval : Word) : State :=
  takeTrap ((s.countPoison cause).setCore (((s.core.takeBack a.id).unhold a.id).giveUp a)) cause tval a.ret a.off 0

/-- An open-mode failure that does not abort: a read is marked faulted, a write traps before the next group. -/
def State.openFail (s : State) (a : Access) (cause : Byte) (tval : Word) : State :=
  let f : FaultInfo := { id := a.id, cause := cause, tval := tval, isLocal := true }
  if a.kind.cls = .read then s.setCore ((s.core.markFault f).unhold a.id)
  else s.setCore { s.core.giveUp a with writeFault := s.core.writeFault <|> some (f, a.ret, a.off) }

/-- The offset that TVAL holds for a failure of check 4 on a line: that of the first element that meets the line. -/
def Access.tval (a : Access) (g : Nat) : Word :=
  BitVec.ofNat 64 (((a.kind.ranges.find? fun e => overlap e (g, 64)) <|> a.kind.ranges.head?).getD (0, 0)).1

/-- A failed access (R151, R167, R184), by the mode that it issued in: dropped for a firing that is gone or a hint; in held
mode a trap; in open mode an abort while the firing is restartable, a mark or a write fault. -/
def State.failAccess (s : State) (a : Access) (f : AccFail) (at' : Word) : State :=
  let s := s.dropAccess a.id
  if a.orphan || a.kind.cls = .hint then s
  else
    match f with
    | .trap c _ => if a.held then s.heldTrap a c at' else s.openFail a c at'
    | .unmapped =>
      if a.held then s.heldTrap a 0x08 at'
      else if s.core.undecided a.id then
        s.setCore { s.core with acc := s.core.acc ++ [{ a with bad := some .unmapped }] }
      else if s.restartable then s.abortUnmapped (farAddr s.home (at'.setWidth 40)) else s.openFail a 0x08 at'
    | .notResident w t =>
      if a.held then s.heldTrap a 0x08 at'
      else if s.core.undecided a.id then
        s.setCore { s.core with acc := s.core.acc ++ [{ a with bad := some (.notResident w t) }] }
      else if s.restartable then s.abortForPage w t else s.openFail a 0x08 at'

/-! ## Performing -/

/-- Sign- or zero-extension of a loaded value (R176). -/
def extend (sext : Bool) (w : Nat) (v : Word) : Word := if sext then sx (8 * w) v else zx (8 * w) v

/-- The value AMO writes (R182). -/
def amoNew (f : AmoFn) (w : Nat) (old b : Word) : Word :=
  let n := 8 * w
  match f with
  | .add => old + b
  | .and => old &&& b
  | .or => old ||| b
  | .xor => old ^^^ b
  | .min => if sval' n old ≤ sval' n b then old else b
  | .max => if sval' n b ≤ sval' n old then old else b
  | .minu => if uval n old ≤ uval n b then old else b
  | .maxu => if uval n b ≤ uval n old then old else b
  | .xchg => b

/-- A result on its way (R172). -/
def State.arriving (s : State) (id : Nat) (v : PVal) (due : Nat) : State :=
  s.setCore { s.core with pend := s.core.pend ++ [{ id := id, kind := .fixed, value := v, flags := 0, due := due }] }

/-- The bytes of LDX: inactive elements are zero (R180). -/
def State.gather (s : State) (sp : BitVec 16) (n : Nat) : List (Option (BitVec 40)) → State × List Byte
  | [] => (s, [])
  | none :: es =>
    let (s, bs) := s.gather sp n es
    (s, List.replicate n 0 ++ bs)
  | some o :: es =>
    let (s, b) := s.readAt sp o.toNat n false
    let (s, bs) := s.gather sp n es
    (s, b ++ bs)

/-- The elements of STX written in increasing order. -/
def State.scatter (s : State) (sp : BitVec 16) : List (BitVec 40 × List Byte) → State
  | [] => s
  | e :: es => (s.store sp e.1.toNat e.2 false false).scatter sp es

/-- Granules whose 64 bytes the elements of an STX cover (R173). -/
def covered (es : List (BitVec 40 × List Byte)) : List Nat :=
  let gs := (es.map fun e => e.1.toNat / 64).dedup
  gs.filter fun g => 64 ≤ (es.map fun e => if e.1.toNat / 64 = g then (List.range e.2.length).map (e.1.toNat + ·) else []).flatten.dedup.length

/-- A granule is no longer poisoned: in its pool, in the near cache, or, of a line that misses there, in the LLC (R171,
R173). -/
def State.cleanAt (s : State) (sp : BitVec 16) (off : Nat) : State :=
  if isNear off then s.setPoison off false
  else
    let va := s.lineVa off
    match s.ncFind sp va with
    | some n => s.ncFront { n with poison := false, dirty := true }
    | none =>
      match s.getLine sp va false with
      | (t, some l) => if l.poison then t.portWrite sp va l.pa l.mode (lineBytes l.data) false else s
      | (t, none) => t

/-- The poison of covered granules is cleared. -/
def State.clearPoison (s : State) (sp : BitVec 16) (gs : List Nat) : State := gs.foldl (fun s g => s.cleanAt sp (64 * g)) s

def vregOf (bs : List Byte) : VReg := BitVec.ofNat 2048 (leNat bs)

/-- Registers of 256 bytes each. -/
def vregsOf : Nat → List Byte → List VReg
  | 0, _ => []
  | n + 1, bs => vregOf (bs.take 256) :: vregsOf n (bs.drop 256)

/-- K positions of a tensor-map format: BF16, F8a, F8b (R261, R266). -/
def tmapK (fmt : Nat) : Option Nat :=
  match fmt with
  | 1 => some 128
  | 3 => some 256
  | 4 => some 256
  | _ => none

/-- Bytes [k, k + n) of a descriptor as a number. -/
def dfield (d : Line) (k n : Nat) : Nat := d.toNat / 2 ^ (8 * k) % 2 ^ (8 * n)

/-- The checks of R266 on a descriptor: the trap's cause. -/
def tmapCheck (d : Line) (live : Nat) : Option Byte :=
  let base := dfield d 0 8
  let fmt := dfield d 8 1
  let cs := dfield d 10 2
  let c := dfield d 12 2
  let c0 := dfield d 14 2
  let h := dfield d 16 2
  let w := dfield d 18 2
  let kh := dfield d 20 1
  let kw := dfield d 21 1
  let sy := dfield d 22 1
  let sx' := dfield d 23 1
  let top := dfield d 24 1
  let left := dfield d 25 1
  let bottom := dfield d 26 1
  let right := dfield d 27 1
  let dy := dfield d 28 1
  let dx := dfield d 29 1
  let ow := dfield d 30 2
  let size := if fmt = 1 then 2 else 1
  let one16 (x : Nat) : Bool := 1 ≤ x && x ≤ 16
  let fields := base < 2 ^ 40 && (tmapK fmt).isSome && dfield d 9 1 == 0 && 1 ≤ cs && 1 ≤ c && c0 + c ≤ cs && 1 ≤ h &&
    1 ≤ w && one16 kh && one16 kw && kh * kw * c ≤ (tmapK fmt).getD 0 && one16 sy && one16 sx' && top ≤ 15 && left ≤ 15 &&
    bottom ≤ 15 && right ≤ 15 && one16 dy && one16 dx && 1 ≤ ow && dfield d 32 32 == 0
  let tall := dy * (kh - 1) + 1 ≤ h + top + bottom
  let broad := dx * (kw - 1) + 1 ≤ w + left + right && ow ≤ (w + left + right - dx * (kw - 1) - 1) / sx' + 1
  if !(fields && tall && broad) then some 0x01
  else if base % size ≠ 0 then some 0x06
  else if live < base + h * w * cs * size then some 0x09
  else none

/-- TESTINJ at the line (R330): written back, dropped from both levels, the stored MAC's bit 0 inverted. -/
def State.injectMac (s : State) (sp : BitVec 16) (off : Nat) : State :=
  let va := s.lineVa off
  match s.getLine sp va true with
  | (s, none) => s
  | (s, some l) =>
    let s := s.ncDrop l
    let s :=
      match s.llcFind sp va with
      | some x =>
        let s := s.setCl { s.cl with llc := s.cl.llc.filter fun y => !(y.space == sp && y.line == va) }
        (s.raiseEvFloor x.tag0).raiseEvFloor x.tag1
      | none => s
    let at' := hbmKey (s.macAt (s.frameOf l.pa) (l.pa % 4096 / 64))
    s.setMem (Mem.write s.mem at' (Mem.read s.mem at' ^^^ 1))

/-- An access performed at its ordering point, its checks passed. -/
def State.performAccess (s : State) (sp : BitVec 16) (a : Access) : State :=
  let clk := s.dev.clk
  let s := s.useBanks a.kind.ranges
  let s := if a.kind.spoils && !a.orphan then s.spoil else s
  match a.kind with
  | .ld off w sext =>
    let (s, bs) := s.readAt sp off.toNat w false
    s.arriving a.id (.scalar (extend sext w (BitVec.ofNat 64 (leNat bs)))) (clk + s.resultTime off.toNat false)
  | .st off bs => s.store sp off.toNat bs false false
  | .ldv off g _ =>
    let (s, bs) := s.readAt sp off.toNat (256 * g) false
    s.arriving a.id (.vec (vregsOf g bs)) (clk + s.resultTime off.toNat false)
  | .stv off bs => s.store sp off.toNat bs false true
  | .ldx es n _ =>
    let (s, bs) := s.gather sp n es
    s.arriving a.id (.vec [vregOf bs]) (clk + s.latest a.kind.ranges + bankExtra a.kind.ranges)
  | .stx es => (s.scatter sp es).clearPoison sp (covered es)
  | .amo f off w b =>
    let (s, bs) := s.readAt sp off.toNat w true
    let old := BitVec.ofNat 64 (leNat bs)
    (s.store sp off.toNat (leBytes w (amoNew f w old b).toNat) true false).arriving a.id (.scalar old)
      (clk + s.resultTime off.toNat true)
  | .acas off w e n =>
    let (s, bs) := s.readAt sp off.toNat w true
    let old := BitVec.ofNat 64 (leNat bs)
    let s := if old = zx (8 * w) e then s.store sp off.toNat (leBytes w n.toNat) true false else s
    s.arriving a.id (.scalar old) (clk + s.resultTime off.toNat true)
  | .advance off inc =>
    let (s, v) := s.advance sp off.toNat inc
    s.arriving a.id (.scalar v) (clk + s.resultTime off.toNat true)
  | .advCheck _ => s
  | .sqwait off _ =>
    let (s, bs) := s.readAt sp off.toNat 8 false
    s.arriving a.id (.scalar (BitVec.ofNat 64 (leNat bs)))
      (clk + s.resultTime off.toNat false + if a.due < clk then s.accessTime off.toNat else 0)
  | .tmapset off _ =>
    let (s, bs) := s.readAt sp off.toNat 64 false
    s.arriving a.id (.tmap (lineOfBytes bs)) (clk + s.resultTime off.toNat false)
  | .testinj off => s.injectMac sp off.toNat
  | .touch off => (s.getLine sp (s.lineVa off.toNat) true).1
  | .noAlloc off =>
    match s.ncFind sp (s.lineVa off.toNat) with
    | some n => s.ncLast n
    | none => s
  | .writeBack off =>
    match s.ncFind sp (s.lineVa off.toNat) with
    | some n => s.writeBack n
    | none => s

/-- What is left to check when every line is present: rights, the mode of TESTINJ, check 5, and R266; nothing of an access whose
checks were decided as it issued. -/
def State.lateCheck (s : State) (sp : BitVec 16) (a : Access) : State × Option (AccFail × Word) :=
  if a.known.isSome then (s, none)
  else
  match a.kind.lines.find? fun g => !isNear g && !s.lineRights sp (s.lineVa g) a.kind.need with
  | some g => (s, some (.trap 0x09 0, a.tval g))
  | none =>
    match a.kind with
    | .testinj off =>
      if ((s.ncFind sp (s.lineVa off.toNat)).map (·.mode) <|> (s.llcFind sp (s.lineVa off.toNat)).map (·.mode)) = some 2#2 then
        (s, none)
      else (s, some (.trap 0x09 0, a.tval off.toNat))
    | .tmapset off _ =>
      match s.poisonIn sp a.kind.ranges with
      | (s, some x) => (s, some (.trap 0x0C 0, BitVec.ofNat 64 x))
      | (s, none) =>
        let (s, bs) := s.readAt sp off.toNat 64 false
        (s, (tmapCheck (lineOfBytes bs) s.liveNear).map fun c => (.trap c 0, a.tval off.toNat))
    | .ld _ _ _ | .st _ _ | .ldv _ _ _ | .stv _ _ | .ldx _ _ _ | .stx _ | .amo _ _ _ _ | .acas _ _ _ _ | .advance _ _
    | .advCheck _ | .sqwait _ _ | .touch _ | .noAlloc _ | .writeBack _ =>
      if !a.kind.reads then (s, none)
      else
        match s.poisonIn sp a.kind.ranges with
        | (s, some x) => (s, some (.trap 0x0C 0, BitVec.ofNat 64 x))
        | (s, none) => (s, none)

/-- PREF.NA and PREF.WB fill nothing (R181). -/
def AccKind.fills : AccKind → Bool
  | .noAlloc _ | .writeBack _ => false
  | .ld _ _ _ | .st _ _ | .ldv _ _ _ | .stv _ _ | .ldx _ _ _ | .stx _ | .amo _ _ _ _ | .acas _ _ _ _ | .advance _ _
  | .advCheck _ | .sqwait _ _ | .tmapset _ _ | .testinj _ | .touch _ => true

/-- A line of the access misses both levels. -/
def State.missing (s : State) (sp : BitVec 16) (k : AccKind) : Option Nat :=
  k.lines.find? fun g => k.fills && !isNear g && !s.lineHere sp (s.lineVa g)

/-- A line of the access is to be filled from a sealed page: the LLC holds it, the near cache does not. -/
def State.sealedMiss (s : State) (sp : BitVec 16) (k : AccKind) : Option Nat :=
  k.lines.find? fun g =>
    k.fills && !isNear g && (s.ncFind sp (s.lineVa g)).isNone &&
      match s.llcFind sp (s.lineVa g) with
      | some l => l.mode == 2#2 && !l.na
      | none => false

/-- The SQWAIT's word has reached its threshold. -/
def State.reached (s : State) (sp : BitVec 16) (k : AccKind) : Bool :=
  match k with
  | .sqwait off thr => decide (thr.toNat ≤ leNat (s.readAt sp off.toNat 8 false).2)
  | .ld _ _ _ | .st _ _ | .ldv _ _ _ | .stv _ _ | .ldx _ _ _ | .stx _ | .amo _ _ _ _ | .acas _ _ _ _ | .advance _ _
  | .advCheck _ | .tmapset _ _ | .testinj _ | .touch _ | .noAlloc _ | .writeBack _ => true

/-- LOCAL_ACCESS_PERFORMED: access `k`, whose lines are present, meets its late checks and is performed. -/
def execLocalAccessPerformed (k : Nat) (s : State) : Out :=
  match s.focus fun c => (c.access k).isSome with
  | none => .next s
  | some s =>
    match s.core.access k with
    | none => .next s
    | some a =>
      let sp := a.space
      if !s.mayPerform s.core a || (s.missing sp a.kind).isSome then .next s
      else
        match s.lateCheck sp a with
        | (s, some (f, at')) => .next (s.failAccess a (match f with
            | .trap c _ => .trap c at'
            | .unmapped => .unmapped
            | .notResident w t => .notResident w t) at')
        | (s, none) =>
          if !s.reached sp a.kind then .next (s.setCore (s.core.unheld k))
          else
            let s := s.dropAccess k
            .next ((s.setCore (s.core.unheld k)).performAccess sp a)

/-- TRANSLATION (R151): the first line of access `k` that misses both levels is translated; or a failure that has waited
for the firing's atomics takes effect (R184). -/
def execTranslation (k : Nat) (s : State) : Out :=
  match s.focus fun c => (c.access k).isSome with
  | none => .next s
  | some s =>
    match s.core.access k with
    | none => .next s
    | some a =>
      let sp := a.space
      match a.bad with
      | some f => if s.core.undecided k then .next s else .next (s.failAccess a f (a.tval ((s.missing sp a.kind).getD 0)))
      | none =>
        if !s.mayPerform s.core a then .next s
        else
          match s.missing sp a.kind with
          | none => .next s
          | some g =>
            if let some l := a.known.bind fun ls => ls.find? fun l => l.line == s.lineVa g then .next (s.llcPut l)
            else
            match s.fetchLine sp (s.lineVa g) a.kind.need with
            | (s, none) => .next s
            | (s, some f) =>
              if a.kind.cls = .hint then .next (s.failAccess a f (a.tval g))
              else
                let (s, f) := s.withTicket sp (s.lineVa g) f
                .next (s.failAccess a f (a.tval g))

/-- SEALED_FILL (R365): a sealed line of the LLC is verified, decrypted and installed in the near cache. -/
def execSealedFill (sp : BitVec 16) (line : Word) (s : State) : Out := .next (s.getLine sp line true).1

/-- SEALED_WRITE_BACK (R366): a dirty sealed line leaves the near cache, or is cleaned. -/
def execSealedWriteBack (sp : BitVec 16) (line : Word) (s : State) : Out :=
  match s.ncFind sp line with
  | some n => .next (if n.dirty then s.ncDrop n else s)
  | none => .next s

end Sys2Proof.Machine
end

