-- ==== Sys2Proof/Machine/Far.lean ====
section
/-! DEFINITION. Far reads, provisional reads and their table (chapter 12), from the requester's side. -/

namespace Sys2Proof.Machine

/-- x of R217: the displacement never carries into the home. -/
def State.farAt (s : State) (a : Src) (disp : BitVec 48) : Word :=
  let b := s.src a
  b.extractLsb' 40 24 ++ (b.setWidth 40 + disp.signExtend 40 : BitVec 40)

/-- The sector of an address: bits [63:5]. -/
def sectorOf (x : Word) : BitVec 59 := x.extractLsb' 5 59

/-- An earlier far read of the firing to the same sector awaits its reply (R224). -/
def Core.sectorBusy (c : Core) (id : Nat) (x : Word) : Bool :=
  c.far.any fun f => decide (f.id < id) && sectorOf f.addr == sectorOf x

/-- The far read leaves the list. -/
def State.dropFar (s : State) (id : Nat) : State := s.setCore { s.core with far := s.core.far.filter fun f => f.id != id }

/-- The bytes of a far read within a sector. -/
def sectorValue (f : FarRead) (d : BitVec 256) : Word :=
  let v : Word := (d >>> (8 * (f.addr.toNat % 32))).setWidth 64
  extend f.sext f.w v

/-- A copy of the basin taken: its value at issue + 12, or its poison as a fault (R218, R219). -/
def State.takeCopy (s : State) (f : FarRead) (c : Sector) : State :=
  let s := s.dropFar f.id
  if c.poison then s.setCore (s.core.markFault { id := f.id, cause := 0x0C, tval := f.addr })
  else s.arriving f.id (.scalar (sectorValue f c.data)) (s.dev.clk + 12)

/-- A home that belongs to the clusters of the bound space's key slot on this device (R399). -/
def State.inHearth (s : State) (h : BitVec 17) : Bool :=
  let cl := h.extractLsb' 0 7
  let slot := s.slotOf ((s.cl.bound.map (·.space)).getD 0)
  devOf h == s.dev.id && cl.toNat < 72 && (s.dev.slots[slot.toNat]'(slot.isLt)).clusters.getLsbD cl.toNat

/-- The type of a logged read of a home (R399). -/
def readType (h : BitVec 17) : Byte := if h.extractLsb' 0 7 = 126#7 then 0x02 else 0x03

/-- What a log keeps of a far read: its address, the GEN, the grain's bytes, and each sector with its poison. -/
def readWords (x : Word) (g : BitVec 48) (grain : Grain) (ds : List (BitVec 256 × Bool)) : List Word :=
  [x, g.setWidth 64, BitVec.ofNat 64 (grainBytes grain)] ++
    ds.flatMap fun d => (List.range 4).map (fun k => d.1.extractLsb' (64 * k) 64) ++ [if d.2 then 1 else 0]

/-- Sectors of a logged read. -/
def loggedSectors : Nat → List Word → List (BitVec 256 × Bool)
  | n + 1, a :: b :: c :: d :: p :: r => ((d ++ c ++ b ++ a : BitVec 256), p != 0) :: loggedSectors n r
  | _, _ => []

/-- What a log keeps of a reply beside the address of its read: its data, or the cause of its fault (R399). -/
def replyWords : Reply → List Word
  | .data g grain ds => (readWords 0 g grain ds).drop 1
  | .fault c => [c.setWidth 64]
  | .lost => [0x14]
  | .notResident _ _ => [0x08]

/-- The reply that a log holds; a lost home has cause 0x14. -/
def loggedReply (data : List Word) : Reply :=
  if data.length = 2 then (if data.getD 1 0 = 0x14 then .lost else .fault ((data.getD 1 0).setWidth 8)) else
  let grain : Grain := if data.getD 2 0 = 128 then .g128 else if data.getD 2 0 = 512 then .g512 else .g32
  .data ((data.getD 1 0).setWidth 48) grain (loggedSectors 16 (data.drop 3))

/-- Reads of a home come from the log (R401). -/
def State.logged (s : State) (h : BitVec 17) : Bool := s.replaying && !s.inHearth h

/-- A far read that is the next logged input of its core's firing, and is answered from the log. -/
def State.replayFar (s : State) (c : Core) : Option Instr :=
  (s.replayNext c.task.key).bind fun e =>
    (c.far.find? fun f =>
      f.sent && f.reply.isNone && s.logged (homeOf f.addr) && e.1.reads (readType (homeOf f.addr)) f.addr).map fun f =>
        .readResponse none f.req (loggedReply e.1.data)

/-- The read goes to the home; one of a lost device faults (R237). -/
def State.askHome (s : State) (f : FarRead) : State :=
  if s.logged (homeOf f.addr) then s
  else if s.lostDev (devOf (homeOf f.addr)) then s.queue (.readResponse none f.req .lost)
  else s.request f.req (homeOf f.addr) s.core.task.space 0x01 (.readReq f.req f.addr s.core.task.space)

/-- The read goes to the host (R348). -/
def State.askHost (s : State) (f : FarRead) : State :=
  if s.logged (homeOf f.addr) then s
  else s.askPcie s.windowFn f.req (((s.cl.bound.map (·.hwbase)).getD 0) + (offOf f.addr).setWidth 64)

/-- A PENDING entry is sent for validation (R213); one of a lost device is struck (R237). -/
def State.askValid (s : State) (e : PrtEntry) : State :=
  let h := e.sector.extractLsb' 35 17
  if s.lostDev (devOf h) then s.queue (.validationAnswer none e.id true)
  else s.request (validReq e.id) h e.space 0x06 (.validate e.id e.sector e.space e.fill)

/-- A provisional copy enters the PRT and is sent for validation (R213, R221). -/
def State.provisional (s : State) (f : FarRead) (c : Sector) : State :=
  let e : PrtEntry := { id := s.id, sector := sectorOf f.addr, space := s.core.task.space, fill := c.fill, struck := false }
  let s := s.takeId
  let s := s.setCore { s.core with prt := s.core.prt ++ [e] }
  (s.askValid e).takeCopy f c

/-- LDFP of a stale copy (R221). -/
def State.staleCopy (s : State) (f : FarRead) (c : Sector) : State :=
  if c.poison then s.takeCopy f c
  else if s.core.prt.any fun e => e.sector == sectorOf f.addr && e.fill == c.fill && e.space == s.core.task.space then s.takeCopy f c
  else if 64 ≤ s.core.prt.length then
    let n := s.core.fallbacks
    (s.setCore { s.core with fallbacks := if n = 0xFFFF#16 then n else n + 1 }).askHome f
  else s.provisional f c

/-- The model's own parts serve the home: the modelled cluster, or home 127 of this device where no log does (R401). -/
def State.readsHere (s : State) (h : BitVec 17) : Bool := h == s.home || (h == s.service && !s.logged h)

/-- Clk from issue to the ordering point of a read that is served here, and from there to its result (R172, R219, log 53); a
reply from elsewhere comes when it comes. -/
def State.farTimes (s : State) (x : Word) : Nat × Nat :=
  if homeOf x = s.home then (s.accessTime (offOf x).toNat, s.resultTime (offOf x).toNat false + 2)
  else if homeOf x = s.service then (serviceTime / 2, serviceTime / 2)
  else (0, 0)

/-- A far read is started (R219-R221, R237, R348, R406). A read that is served here waits in the list for its ordering
point. -/
def State.startFar (s : State) (f : FarRead) : State :=
  let h := homeOf f.addr
  let cl := (h.extractLsb' 0 7).toNat
  if s.readsHere h then s
  else if cl = 126 then
    match s.hostCheck f.addr f.w with
    | some c => s.queue (.readResponse none f.req (.fault c))
    | none => s.askHost f
  else if cl = 127 || f.kind = .ldfa then s.askHome f
  else
    match s.basinSector s.core.task.space f.addr with
    | none => s.askHome f
    | some c =>
      if !s.stale h c then (s.count .cbHits 1).takeCopy f c
      else
        let s := s.count .cbStale 1
        if f.kind = .ldfp then s.staleCopy f c else s.askHome f

/-- An LDF or LDFP waits while an earlier far read of its sector awaits its reply (R224). A read that is served here takes no
fill (R207), and reads of its bytes are performed in order without waiting for each other's result (log 72). -/
def State.waitsFill (s : State) (kind : FarKind) (x : Word) : Bool :=
  kind != .ldfa && !s.readsHere (homeOf x) && s.core.sectorBusy s.id x

/-- A far load (R217): its issue checks, then its queue position and its read. -/
def farLoad (i : Instr) (s : State) (kind : FarKind) (w : Width) (sext : Bool) (d : NDst) (x : Word) : Out :=
  gate i s
    (match s.farCheck x with
     | some c => .next (s.trap c x)
     | none =>
       if x.toNat % wbytes w ≠ 0 then .next (s.trap 0x06 x)
       else if s.core.acquiring then stall s
       else
         let held := s.waitsFill kind x
         let f : FarRead :=
           { id := s.id, req := s.id, kind := kind, addr := x, w := wbytes w, sext := sext, sent := !held,
             due := s.dev.clk + (s.farTimes x).1, reply := none }
         let s := s.owe true (dstOf d).toList
         let s := s.setCore { s.core with far := s.core.far ++ [f] }
         .next (if held then s else s.startFar f))

def execLdf (w : Width) (sext : Bool) (d : NDst) (a : Src) (disp : BitVec 48) (s : State) : Out :=
  farLoad (.ldf w sext d a disp) s .ldf w sext d (s.farAt a disp)

def execLdfa (w : Width) (sext : Bool) (d : NDst) (a : Src) (disp : BitVec 48) (s : State) : Out :=
  farLoad (.ldfa w sext d a disp) s .ldfa w sext d (s.farAt a disp)

def execLdfp (w : Width) (sext : Bool) (d : NDst) (a : Src) (disp : BitVec 48) (s : State) : Out :=
  farLoad (.ldfp w sext d a disp) s .ldfp w sext d (s.farAt a disp)

/-- The table is resolved (R213). -/
def Core.prtResolved (c : Core) : Bool := c.prt.all (·.struck)

/-- The far address of the oldest struck entry. -/
def Core.oldestStruck (c : Core) : Option Word := (c.prt.find? (·.struck)).map fun e => e.sector ++ 0#5

/-- A transfer to the target would have to wait for its line. -/
def State.lineWanted (s : State) (t : Word) : Bool :=
  (pointerCheck t).isNone && (s.codeLine (lineOf t)).isNone && (s.codeFailed (lineOf t)).isNone

/-- PCHK (R222). The group offset that a failing target records counts PCHK's own push, which has been made (R28, R222; log
62). -/
def execPchk (d : NDst) (t : BitVec 48) (s : State) : Out :=
  let target := s.branchTarget t
  gate (.pchk d t) s
    (if !s.core.prtResolved then stall s
     else
       match s.core.oldestStruck with
       | none => .next (s.result d 0)
       | some x =>
         if s.lineWanted target then awaitLine (s.askLine (lineOf target))
         else transfer ((s.setCore { s.core with prt := [] }).result d x) target none (.jump target))

/-- PDROP (R223). -/
def execPdrop (a : Option Src) (s : State) : Out :=
  gate (.pdrop a) s
    (match a with
     | none => .next (s.setCore { s.core with prt := [] })
     | some x => .next (s.setCore { s.core with prt := s.core.prt.filter fun e => e.sector != sectorOf (s.src x) }))

/-! ## Replies -/

/-- The first held read of the sector that no earlier read holds goes on (R224). -/
def State.wakeOne (s : State) (x : Word) : State :=
  match s.core.far.find? fun f => !f.sent && sectorOf f.addr == sectorOf x && !s.core.sectorBusy f.id f.addr with
  | none => s
  | some f =>
    let f' := { f with sent := true, due := s.dev.clk + (s.farTimes f.addr).1 }
    (s.setCore { s.core with far := s.core.far.map fun g => if g.id = f.id then f' else g }).startFar f'

/-- Held reads of the sector go on, until one asks the home again. -/
def State.wakeFar (s : State) (x : Word) : State := (List.range s.core.far.length).foldl (fun s _ => s.wakeOne x) s

/-- CAPTURE_APPEND of a far read or pull of a home outside the hearth (R399). -/
def State.captureRead (s : State) (h : BitVec 17) (key : Word) (data : List Word) : State :=
  if s.inHearth h then s else s.input (readType h) key data

/-- CAPTURE_APPEND of a far read that has failed: the cause is what enters the hearth (R399). -/
def State.captureFault (s : State) (f : FarRead) (r : Reply) : State :=
  s.captureRead (homeOf f.addr) s.core.task.key (f.addr :: replyWords r)

/-- A reply's data delivered (R207, R218-R220). -/
def State.farData (s : State) (f : FarRead) (g : BitVec 48) (grain : Grain) (ds : List (BitVec 256 × Bool)) : State :=
  let h := homeOf f.addr
  let n := grainBytes grain / 32
  let (d, poison) := ds.getD (f.addr.toNat / 32 % n) (0, false)
  let s := if h = s.home || decide (72 ≤ (h.extractLsb' 0 7).toNat) then s else s.basinFill s.core.task.space f.addr g grain ds
  let s := if f.kind = .ldfa then s.acquire h g else s
  let s := s.captureRead h s.core.task.key (readWords f.addr g grain ds)
  if poison then s.setCore (s.core.markFault { id := f.id, cause := 0x0C, tval := f.addr })
  else s.setCore (s.core.deliver f.id (.scalar (sectorValue f d)))

/-- A faulted reply marks the entry and D (R218). -/
def State.farFault (s : State) (f : FarRead) (cause : Byte) : State :=
  s.setCore (s.core.markFault { id := f.id, cause := cause, tval := f.addr })

/-- A reply whose outcome may call for an abort (R151). -/
def replyAborts : Reply → Bool
  | .notResident _ _ => true
  | .fault c => c == 0x08
  | .data _ _ _ => false
  | .lost => false

/-- A reply that may call for an abort (R184, R218). -/
def State.farAbort (s : State) (f : FarRead) (r : Reply) (go : State → State) : State :=
  if !s.abortable then (((s.dropFar f.id).captureFault f (.fault 0x08)).farFault f 0x08).wakeFar f.addr
  else if s.core.undecided f.id then
    s.setCore { s.core with far := s.core.far.map fun g => if g.id = f.id then { g with reply := some r } else g }
  else go s

/-- A reply to a read that a save has dropped is counted (R225, R336). -/
def State.lateReply (s : State) (req : Nat) : State :=
  let s := (s.untrack req).endPcie req
  if s.cl.lateReads.contains req then
    (s.setCl { s.cl with lateReads := s.cl.lateReads.filter fun x => x != req }).count .lateReplies 1
  else s

/-- A read that is served here has been performed: its result arrives later (R219). -/
def State.parkFar (s : State) (f : FarRead) (r : Reply) : State :=
  let s := if homeOf f.addr = s.home then s.useBanks [((offOf f.addr).toNat, f.w)] else s
  s.setCore
    { s.core with far := s.core.far.map fun g =>
        if g.id = f.id then { g with reply := some r, due := s.dev.clk + (s.farTimes f.addr).2 } else g }

/-- A reply reaches its far read (R218). One for which no firing waits is dropped (R225). -/
def readReply (req : Nat) (r : Reply) (s : State) : Out :=
  match s.focus fun c => c.far.any fun f => f.req == req && f.sent with
  | none => .next (s.lateReply req)
  | some s =>
    match s.core.far.find? fun f => f.req == req && f.sent with
    | none => .next s
    | some f =>
      if s.readsHere (homeOf f.addr) && f.reply.isNone then .next (s.parkFar f r)
      else
        let s := (s.untrack req).endPcie req
        match r with
        | .data g grain ds => .next (((s.dropFar f.id).farData f g grain ds).wakeFar f.addr)
        | .lost => .next ((((s.dropFar f.id).captureFault f .lost).farFault f 0x14).wakeFar f.addr)
        | .fault c =>
          if c = 0x08#8 then .next (s.farAbort f r fun s => s.abortUnmapped f.addr)
          else .next ((((s.dropFar f.id).captureFault f (.fault c)).farFault f c).wakeFar f.addr)
        | .notResident w t => .next (s.farAbort f r fun s => s.abortForPage w t)

/-- READ_RESPONSE: a response of another device is judged by its header first (R341). -/
def execReadResponse (hdr : Option NysilHdr) (req : Nat) (r : Reply) (s : State) : Out := receive hdr false s (readReply req r)

/-- The reply that the modelled home gives to a read, at the data's ordering point (R139, R141, R151, R205, R207). -/
def State.serveRead (s : State) (sp : BitVec 16) (off n : Nat) : State × Reply :=
  match s.serveCheck sp off n with
  | (s, some .unmapped) => (s, .fault 0x08)
  | (s, some (.trap c _)) => (s, .fault c)
  | (s, some (.notResident _ _)) =>
    let (s, t) := s.ticket sp (farAddr s.home (BitVec.ofNat 40 off))
    (s, .notResident s.pageWordAt t)
  | (s, none) =>
    let va := s.lineVa off
    let grain : Grain :=
      if isNear off then .g32
      else ((s.ncFind sp va).map (·.grain) <|> (s.llcFind sp va).map (·.grain)).getD .g32
    let g := grainBytes grain
    let lo := off / g * g
    let (s, _) := if isNear off then (s, none) else s.checkLines sp .load (granules lo g)
    let ps := s.poisonMap sp lo 32 (g / 32)
    let (s, bs) := s.readAt sp lo g false
    let ds := (List.range (g / 32)).map fun k =>
      (BitVec.ofNat 256 (leNat ((bs.drop (32 * k)).take 32)), ps.getD k false)
    (s, .data s.cl.gen grain ds)

/-- No earlier access or far read of the firing that is still to be performed touches the bytes of a read of one's own home
(R229), and its pool banks are free. -/
def State.farReady (s : State) (c : Core) (f : FarRead) : Bool :=
  let mine := [((offOf f.addr).toNat, f.w)]
  homeOf f.addr != s.home ||
    (!(c.acc.any fun a => decide (a.id < f.id) && a.bad.isNone && anyOverlap a.kind.ranges mine) &&
      !(c.far.any fun g => decide (g.id < f.id) && homeOf g.addr == s.home && g.reply.isNone &&
        anyOverlap [((offOf g.addr).toNat, g.w)] mine) && s.banksFree mine)

/-- What a home of the model answers to a far read at the data's ordering point. -/
def State.answerFar (s : State) (c : Core) (f : FarRead) : State × Reply :=
  if homeOf f.addr = s.home then s.serveRead c.task.space (offOf f.addr).toNat f.w
  else s.serviceRead c.task.space (offOf f.addr).toNat

/-- The step that a far read in the list makes next, and the state in which its home has served it: one that is served here
reaches its ordering point, or its result arrives; or a reply whose abort has waited takes effect. -/
def State.farDue (s : State) (c : Core) : Option (State × Instr) :=
  c.far.findSome? fun f =>
    if !f.sent || decide (s.dev.clk < f.due) then none
    else
      match f.reply with
      | some r => if c.undecided f.id && replyAborts r then none else some (s, .readResponse none f.req r)
      | none =>
        if s.readsHere (homeOf f.addr) && s.farReady c f then
          let x := s.answerFar c f
          some (x.1, .readResponse none f.req x.2)
        else none

/-- VALIDATION_ANSWER (R213): a confirm frees the entry that asked, a strike marks it; an answer for a freed entry is
discarded. -/
def execValidationAnswer (hdr : Option NysilHdr) (id : Nat) (struck : Bool) (s : State) : Out :=
  let hit (e : PrtEntry) : Bool := e.id == id && !e.struck
  receive hdr false s fun s =>
    .next ((s.untrack (validReq id)).onCore (fun c => c.prt.any hit) fun s =>
      let prt := if struck then s.core.prt.map fun e => if hit e then { e with struck := true } else e
        else s.core.prt.filter fun e => !hit e
      s.setCore { s.core with prt := prt })

end Sys2Proof.Machine
end

