-- ==== Sys2Proof/Machine/Sequence.lean ====
section
/-! DEFINITION. Sequence words, watches and fences (chapter 11): the instructions, and what reaches a watch slot or the
modelled home's sluice. -/

namespace Sys2Proof.Machine

/-! ## Sequence words -/

/-- The firing has earlier stores, atomics or write-backs to perform (R170, R187). -/
def Core.storesLeft (c : Core) : Bool := c.acc.any fun a => a.kind.ordered && !a.orphan

/-- A wait by which the firing awaits engine writes (R187). -/
def Wait.awaitsEngine : Wait → Bool
  | .waitp _ _ _ _ _ _ _ _ | .mwait _ _ _ => true
  | .sqwait _ | .wsleep _ _ | .fence _ _ _ | .held _ | .ending | .committing | .joined _ _ | .transfers => false

/-- SQADV.NOW after its checks (R197, R215): it waits for the writes of R187, those that a WAITP or an MWAIT of its own group
awaits among them, and for the table. -/
def advanceNow (d : NDst) (off : BitVec 40) (inc : Word) (s : State) : Out :=
  if s.core.storesLeft || !s.core.prtResolved || s.core.wait.any Wait.awaitsEngine then stall s
  else
    match s.core.oldestStruck with
    | some x => .next (s.trap 0x10 x)
    | none => .next (s.addAccess (.advance off inc) true (dstOf d).toList (s.dev.clk + s.accessTime off.toNat))

/-- A deferred effect joins the commit buffer (R128). -/
def State.defer (s : State) (e : Effect) : State := s.setCore { s.core with commit := s.core.commit ++ [e] }

/-- The commit buffer is full (R128). -/
def Core.commitFull (c : Core) : Bool := 32 ≤ c.commit.length

/-- SQADV (R197). The deferred form leaves the checks that follow issue to an access of its own (R167). -/
def execSqadv (now : Bool) (d : NDst) (a : Src) (b : SrcImm) (s : State) : Out :=
  let off := (s.src a).setWidth 40
  let inc := s.srcImm b
  gate (.sqadv now d a b) s
    (match s.issueCheck 8 true [(off.toNat, 8)] with
     | some (c, v) => .next (s.trap c v)
     | none =>
       if s.core.acquiring then stall s
       else if now then advanceNow d off inc s
       else if s.core.commitFull then .next (s.trap 0x11 32)
       else .next ((s.defer (.advance off inc s.id false)).addAccess (.advCheck off) false [] (s.dev.clk + (s.accessTime off.toNat - 1))))

/-- SQWAIT (R198): the firing issues nothing until the word reaches the threshold. -/
def execSqwait (d : NDst) (a : Src) (b : SrcImm) (s : State) : Out :=
  let off := (s.src a).setWidth 40
  let thr := s.srcImm b
  gate (.sqwait d a b) s
    (match s.issueCheck 8 false [(off.toNat, 8)] with
     | some (c, v) => .next (s.trap c v)
     | none =>
       if s.core.acquiring then stall s
       else
         let id := s.id
         let s := s.addAccess (.sqwait off thr) true (dstOf d).toList (s.dev.clk + s.accessTime off.toNat)
         .next (s.setCore { s.core with wait := s.core.wait ++ [.sqwait id] }))

/-! ## Watch slots (R192-R194) -/

def Core.setSlot (c : Core) (k : Fin 16) (w : WSlot) : Core := { c with slots := c.slots.set k w }

/-- The code of a state (R192). -/
def WState.code : WState → Word
  | .free => 0 | .sent => 1 | .armed => 2 | .fired => 3 | .full => 4 | .lost => 5 | .fault => 6

/-- FIRED, FULL, LOST and FAULT. -/
def WState.terminal : WState → Bool
  | .fired | .full | .lost | .fault => true
  | .free | .sent | .armed => false

def WState.open : WState → Bool
  | .sent | .armed => true
  | .free | .fired | .full | .lost | .fault => false

/-- The status word of slot `k` in a state with its field (R193). -/
def statusOf (st : WState) (field : BitVec 48) (k : Nat) : Word :=
  (field ++ (0 : BitVec 16) : Word) ||| (st.code <<< 8) ||| BitVec.ofNat 64 k

/-- The status word of a slot (R193). -/
def WSlot.status (w : WSlot) (k : Fin 16) : Word :=
  match w.st with
  | .fired => statusOf .fired w.gen k.val
  | .fault => statusOf .fault (w.cause.setWidth 48) k.val
  | st => statusOf st 0 k.val

/-- The acquire of a reported slot (R194). -/
def State.reportSlot (s : State) (w : WSlot) : State :=
  match w.st with
  | .fired => s.acquire (homeOf w.addr) w.gen
  | _ => s

/-- A registration of the firing that is still open is cancelled. -/
def State.closeSlot (s : State) (k : Fin 16) : State :=
  let w := s.core.slots[k]
  if w.st.open then
    (if w.page.isSome then s else s.unregister s.core.task.space w.addr (s.slotWho s.core k)).untrack (watchReq (s.slotWho s.core k))
  else s

/-- Slot `k` takes its next tag and becomes SENT on an address (R199). -/
def State.openSlot (s : State) (k : Fin 16) (addr thr : Word) (page : Option Nat) : State :=
  s.setCore
    (s.core.setSlot k
      { st := .sent, addr := addr, thr := thr, tag := s.core.slots[k].tag + 1, value := 0, gen := 0, cause := 0, page := page })

/-- WATCH (R199, R191). -/
def execWatch (k : Fin 16) (a : Src) (b : SrcImm) (s : State) : Out :=
  let x := s.src a
  let thr := s.srcImm b
  gate (.watch k a b) s
    (match s.farCheck x with
     | some c => .next (s.trap c x)
     | none =>
       if x.extractLsb' 0 3 ≠ 0#3 then .next (s.trap 0x06 x)
       else if s.core.acquiring then stall s
       else
         let s := (s.closeSlot k).openSlot k x thr none
         if (homeOf x).extractLsb' 0 7 = 126#7 then
           .next (s.setCore (s.core.setSlot k { s.core.slots[k] with st := .fault, cause := 0x09 }))
         else .next (s.watchWord s.core.task.space x thr (s.slotWho s.core k)))

/-- Every slot of a mask is freed, its open registration cancelled (R200). -/
def State.freeSlots (s : State) (m : BitVec 16) : State :=
  ((List.finRange 16).filter fun k => m.getLsbD k.val).foldl
    (fun s k => (s.closeSlot k).setCore ((s.closeSlot k).core.setSlot k { WSlot.free with tag := s.core.slots[k].tag })) s

def execWunwatch (m : BitVec 16) (s : State) : Out := gate (.wunwatch m) s (.next (s.freeSlots m))

/-- The lowest slot of a mask that meets `p`. -/
def Core.lowSlot (c : Core) (m : BitVec 16) (p : WState → Bool) : Option (Fin 16) :=
  (List.finRange 16).find? fun k => m.getLsbD k.val && p c.slots[k].st

/-- The mask of WSLEEP. -/
def State.maskSrc (s : State) : MaskSrc → BitVec 16
  | .reg a => (s.src a).setWidth 16
  | .imm m => m

/-- The registers WSLEEP reads its mask from. -/
def lowBit (m : BitVec 16) : Nat := ((List.range 16).find? fun k => m.getLsbD k).getD 0

/-- WSLEEP (R201). -/
def execWsleep (d : NDst) (m : MaskSrc) (s : State) : Out :=
  let mask := s.maskSrc m
  gate (.wsleep d m) s
    (match s.core.lowSlot mask WState.terminal with
     | some k => .next ((s.reportSlot s.core.slots[k]).result d (s.core.slots[k].status k))
     | none =>
       match s.core.lowSlot mask WState.open with
       | some _ =>
         let id := s.id
         let s := s.owe true (dstOf d).toList
         .next (s.setCore { s.core with wait := s.core.wait ++ [.wsleep mask id] })
       | none => .next (s.result d (statusOf .free 0 (lowBit mask))))

/-- WPOLL (R202). -/
def execWpoll (st : Bool) (k : Fin 16) (d : NDst) (s : State) : Out :=
  let w := s.core.slots[k]
  gate (.wpoll st k d) s
    (.next ((s.reportSlot w).result d (if st then w.status k else if w.st = .fired then w.value else 0)))

/-- A sleep whose mask has a terminal slot ends (R201); a resumed one goes on after the firing's listed transfers (R332). -/
def State.wake (s : State) : Wait → State
  | .wsleep m id =>
    match if s.core.resuming then none else s.core.lowSlot m WState.terminal with
    | none => s
    | some k =>
      let w := s.core.slots[k]
      let s := s.reportSlot w
      let c := s.core.deliver id (.scalar (w.status k))
      s.setCore { c with wait := c.wait.filter (fun x => x != .wsleep m id), issueAt := max c.issueAt (s.dev.clk + 1) }
  | _ => s

/-- A fence of scope P counts a loss (R195). -/
def Wait.addLost : Wait → Wait
  | .fence .p id n => .fence .p id (n + 1)
  | w => w

def Core.countLost (c : Core) : Core := { c with wait := c.wait.map Wait.addLost }

/-- What reaches slot `k` (R189-R192). -/
def State.slotEnd (s : State) (k : Fin 16) (e : WatchEnd) : State :=
  let w := s.core.slots[k]
  match e with
  | .armed => if w.st = .sent then s.setCore (s.core.setSlot k { w with st := .armed }) else s
  | .answer v g => s.setCore (s.core.setSlot k { w with st := .fired, value := v, gen := g })
  | .full => s.setCore (s.core.setSlot k { w with st := .full })
  | .fault c => s.setCore (s.core.setSlot k { w with st := .fault, cause := c })
  | .lost =>
    (s.setCore (s.core.setSlot k { w with st := .lost }).countLost).input 0x05 s.core.task.key [k.val.cast]

/-- WATCH_ANSWER: an answer, acknowledgment, refusal, fault or loss reaches a slot; one whose tag is not the slot's is
discarded (R192). A sleep on the slot may end. -/
def execWatchAnswer (core : BitVec 2) (k : Fin 16) (tag : BitVec 4) (e : WatchEnd) (s : State) (hdr : Option NysilHdr := none) : Out :=
  receive hdr false s fun s =>
    .next (s.onCore (fun c => c.num == core && c.slots[k].tag == tag && c.slots[k].st.open) fun s =>
      let s := s.slotEnd k e
      let s := s.endWatch (watchReq (s.slotWho s.core k)) e
      s.core.wait.foldl State.wake s)

/-- WATCH_REGISTRATION: a registration from elsewhere reaches the modelled home's sluice (R189, R191). -/
def execWatchRegistration (sp : BitVec 16) (off : BitVec 40) (thr : Word) (who : Requester) (s : State) (hdr : Option NysilHdr := none) :
    Out :=
  receive hdr true s (fun s => .next (s.sluiceRegister { off := off, space := sp, thr := thr, who := who }))
    (some (0x04, .watchEnd who (.fault 0x09)))

/-- WATCH_CANCEL (R190). -/
def execWatchCancel (who : Requester) (s : State) (hdr : Option NysilHdr := none) : Out :=
  receive hdr true s fun s => .next (s.sluiceCancel who)

/-! ## Fences (R195, R203) -/

/-- A fence waits for it: not a touch of PREF, nor the check of a deferred SQADV. -/
def AccKind.fenced : AccKind → Bool
  | .touch _ | .noAlloc _ | .advCheck _ => false
  | .ld _ _ _ | .st _ _ | .ldv _ _ _ | .stv _ _ | .ldx _ _ _ | .stx _ | .amo _ _ _ _ | .acas _ _ _ _ | .advance _ _
  | .sqwait _ _ | .tmapset _ _ | .testinj _ | .writeBack _ => true

/-- FENCE: its group goes on; no later group issues until it completes. -/
def execFence (sc : Scope) (d : NDst) (s : State) : Out :=
  gate (.fence sc d) s
    (let id := s.id
     let s := s.owe (sc == .p) (if sc = .p then (dstOf d).toList else [])
     .next (s.setCore { s.core with wait := s.core.wait ++ [.fence sc id 0] }))

/-- Scope .F before id `n`. -/
def Core.fenceF (c : Core) (n : Nat) : Bool :=
  !(c.acc.any fun a => decide (a.id < n) && a.kind.fenced && !a.orphan) && !(c.far.any fun f => decide (f.id < n)) &&
    !(c.pend.any fun p => decide (p.id < n) && p.kind == .fixed)

/-- A transfer of the firing with an id below `n` is incomplete. -/
def State.pullsLeft (s : State) (c : Core) (n : Nat) : Bool :=
  s.cl.chans.toList.any fun ch => ch.xfers.any fun t => t.owner == c.num && t.firing == c.number && decide (t.cmd < n)

/-- The engine commands of scope .C before id `n`. -/
def State.engineDone (s : State) (c : Core) (n : Nat) : Bool :=
  !(c.mq.any fun m => decide (m.id < n)) && !s.pullsLeft c n

/-- The fence's condition. -/
def State.fenceMet (s : State) (c : Core) (sc : Scope) (n : Nat) : Bool :=
  c.fenceF n &&
    match sc with
    | .f => true
    | .c => s.engineDone c n
    | .p => s.engineDone c n && !(c.slots.toList.any fun w => w.st == .sent)

/-- What a completed transfer left. -/
def State.pullEnd (s : State) (ch : Fin 16) (xid : Nat) : Option PullEnd := s.cl.chans[ch].ends.find? fun e => e.xid == xid

/-- The flags of a completed transfer are merged (R87). -/
def Chan.spend (c : Chan) (xid : Nat) : Chan :=
  { c with ends := c.ends.map fun e => if e.xid = xid then { e with flags := 0 } else e }

/-- The core in focus runs the firing that issued a transfer: of a gang, the member that did (R87). -/
def Core.issued (c : Core) (e : PullEnd) : Bool := e.firing == c.number && (!c.task.wide || e.owner == c.num)

/-- A firing observes a transfer complete: it acquires its source homes (R230, R244), and the firing that issued it merges its
flags, once (R87). -/
def State.observe (s : State) (ch : Fin 16) (xid : Nat) : State :=
  match s.pullEnd ch xid with
  | none => s
  | some e =>
    let s := e.gens.foldl (fun s x => s.acquire x.1 x.2) s
    if s.core.issued e then
      (s.setCl { s.cl with chans := s.cl.chans.set ch (s.cl.chans[ch].spend xid) }).setCore (s.core.mergeFlags e.flags)
    else s

/-- A transfer whose command is older than `id` is observed. -/
def State.observeOld (s : State) (id : Nat) (x : Nat × Nat) : State :=
  if (s.pullEnd (Fin.ofNat 16 x.1) x.2).any fun e => decide (e.cmd < id) then s.observe (Fin.ofNat 16 x.1) x.2 else s

/-- What a FENCE.C or FENCE.P of id `id` observes: the firing's transfers, and its matrix commands' flags, as far as they were
issued before it. -/
def State.observeAll (s : State) (id : Nat) : State :=
  let s := s.core.pulls.foldl (fun s x => s.observeOld id x) s
  let c := (s.core.mflags.filter fun x => decide (x.1 < id)).foldl (fun c x => c.mergeFlags x.2.2.2) s.core
  s.setCore { c with mflags := c.mflags.filter fun x => decide (id ≤ x.1) }

/-- The fence completes. -/
def State.finishFence (s : State) (sc : Scope) (id lost : Nat) : State :=
  let s := s.setCore { s.core with wait := s.core.wait.filter fun w => w != .fence sc id lost }
  match sc with
  | .f => s
  | .c => s.observeAll id
  | .p => (s.observeAll id).setCore ((s.observeAll id).core.deliver id (.scalar (BitVec.ofNat 64 lost)))

end Sys2Proof.Machine
end

