-- ==== Sys2Proof/Machine/Sched.lean ====
section
/-! DEFINITION. The cluster's scheduler (R118-R126, R129): edges, actors, lanes, scheduler watches, run lists, and the
start of firings. -/

namespace Sys2Proof.Machine

/-- clk of one microsecond. -/
def clkPerUs : Nat := 1500

/-! ## Waiting records -/

/-- The newest GEN of each home that has answered for a record (R230). -/
def newestGen (h : BitVec 17) (g : BitVec 48) : List (BitVec 17 × BitVec 48) → List (BitVec 17 × BitVec 48)
  | [] => [(h, g)]
  | x :: r => if x.1 = h then (h, newer x.2 g) :: r else x :: newestGen h g r

/-- The record's join counter has reached zero: the acquires of its answers, then its run list (R120, R230). -/
def State.ripen (s : State) (w : WaitRec) : State :=
  let s := w.acquires.foldl (fun s x => s.acquire x.1 x.2) s
  let s := if w.cr.actor then s.putWait { w with acquires := [], ripe := true } else s.dropWait w.id
  s.join w.cr

/-- One edge or channel of a record is satisfied. -/
def State.satisfy (s : State) (rec : Nat) (h : BitVec 17) (g : BitVec 48) : State :=
  match s.waitRec rec with
  | none => s
  | some w =>
    let w := { w with cr := { w.cr with join := w.cr.join - 1 }, acquires := newestGen h g w.acquires }
    if w.cr.join = 0 then s.ripen w else s.putWait w

/-- The address of an edge or channel (R123, R124): 0x07 for one that is non-canonical, misaligned or of a reserved home;
0x09 for one that no sluice serves. -/
def State.edgeCheck (s : State) (x : Word) : Option Byte :=
  if x.extractLsb' 0 3 ≠ 0#3 then some 0x07
  else
    match s.farCheck x with
    | some c => some c
    | none => if (homeOf x).extractLsb' 0 7 = 126#7 then some 0x09 else none

/-- Watches registered for a record, in order; the first bad address kills the launch. -/
def State.watchAll (s : State) (w : WaitRec) (use : Word → SchedUse) (arms : List (Word × Word)) : State :=
  match arms.find? fun a => (s.edgeCheck a.1).isSome with
  | some a => s.schedKill w.cr.graph ((s.edgeCheck a.1).getD 0x07) a.1
  | none => arms.foldl (fun s a => s.addWatch w.id (use a.1) a.1 a.2) s

/-- Words in pairs. -/
def pairs : List Word → List (Word × Word)
  | a :: b :: r => (a, b) :: pairs r
  | _ => []

/-- An edge list has been read (R123). -/
def State.edges (s : State) (w : WaitRec) (ws : List Word) : State :=
  (s.putWait { w with desc := ws, reading := false }).watchAll w (fun x => .edge w.id x) (pairs (ws.take (2 * w.cr.join)))

/-- A channel of an actor descriptor (R124). -/
structure ActorChan where
  input : Bool
  produced : Word
  acked : Word
  slots : Nat
  rate : Nat
  zero : Word
deriving DecidableEq, Repr

/-- The channels of a descriptor, inputs first. -/
def actorChans (inputs : Nat) : Nat → List Word → List ActorChan
  | k, a :: b :: c :: z :: r =>
    { input := decide (k < inputs), produced := a, acked := b, slots := (c.extractLsb' 0 32).toNat,
      rate := (c.extractLsb' 32 32).toNat, zero := z } :: actorChans inputs (k + 1) r
  | _, _ => []

/-- The limits of R124. -/
def descOk (h : Word) (chans : List ActorChan) : Bool :=
  let i := (h.extractLsb' 0 8).toNat
  let o := (h.extractLsb' 8 8).toNat
  i ≤ 4 && o ≤ 4 && 1 ≤ i + o && h.extractLsb' 16 16 == 0#16 && chans.length == i + o &&
    chans.all fun c => 1 ≤ c.slots && c.slots ≤ 2 ^ 31 && 1 ≤ c.rate && c.rate ≤ c.slots && c.zero == 0

/-- The watches that an actor's channels need (R125, R405), from the actor's own words as they stand; or the failure of a
read, with the word's address. An own word is read locally; where its far address names another home the manual is silent,
and the word at its offset in the actor's home is read (DESIGN CHOICE, log 62). -/
def State.actorArms (s : State) (sp : BitVec 16) : List ActorChan → State × Except (AccFail × Word) (List (Word × Word))
  | [] => (s, .ok [])
  | c :: cs =>
    let own := if c.input then c.acked else c.produced
    match s.homeBytes sp (offOf own).toNat 8 with
    | (s, .error f) => (s, .error (f, own))
    | (s, .ok bs) =>
      let v := BitVec.ofNat 64 (leNat bs)
      match s.actorArms sp cs with
      | (s, .error f) => (s, .error f)
      | (s, .ok arms) =>
        if c.input then (s, .ok ((c.produced, v + BitVec.ofNat 64 c.rate) :: arms))
        else if v.toNat + c.rate ≤ c.slots then (s, .ok arms)
        else (s, .ok ((c.acked, v + BitVec.ofNat 64 c.rate - BitVec.ofNat 64 c.slots) :: arms))

/-- An actor's record is armed: its descriptor's limits and addresses are checked, its own words read and its watches
registered. An own word whose page is not resident is read again when the page comes. R125 gives no outcome of an own word that
cannot be read: the launch is killed with the failure's cause, TVAL the word's address (DESIGN CHOICE, log 74). -/
def State.armActor (s : State) (w : WaitRec) (ws : List Word) : State :=
  let h := ws.headD 0
  let n := (h.extractLsb' 0 8).toNat + (h.extractLsb' 8 8).toNat
  let chans := actorChans (h.extractLsb' 0 8).toNat 0 ((ws.drop 1).take (4 * n))
  if !descOk h chans then s.schedKill w.cr.graph 0x01 w.cr.frame
  else
    match (chans.flatMap fun c => [c.produced, c.acked]).find? fun x => s.edgeCheck x = some 0x07 with
    | some x => s.schedKill w.cr.graph 0x07 x
    | none =>
      match s.actorArms w.cr.space chans with
      | (s, .error (.notResident _ _, x)) =>
        (s.putWait { w with desc := ws, reading := true }).send (.pageInWanted w.cr.space (farAddr s.home (offOf x) &&& ~~~0xFFF))
      | (s, .error (.unmapped, x)) => s.schedKill w.cr.graph 0x08 x
      | (s, .error (.trap c _, x)) => s.schedKill w.cr.graph c x
      | (s, .ok arms) =>
        let w := { w with desc := ws, reading := false, ripe := false, cr := { w.cr with join := arms.length } }
        if arms.isEmpty then (s.putWait w).ripen w else (s.putWait w).watchAll w (fun x => .channel w.id x) arms

/-- EDGE_LIST_READ (R123, R124): the scheduler's acquiring read of a record's list or descriptor ends. -/
def execEdgeListRead (rec : Nat) (r : ListRead) (s : State) (hdr : Option NysilHdr := none) : Out :=
  receive hdr false s fun s =>
    match s.waitRec rec with
    | none => .next s
    | some w =>
      if !w.reading || !w.desc.isEmpty then .next s
      else
        let s := s.untrack w.id
        match r with
        | .fail c => .next (s.schedKill w.cr.graph c w.cr.frame)
        | .words g ws =>
          let s := s.acquire (homeOf w.cr.frame) g
          .next (if w.cr.actor then s.armActor w ws else s.edges w ws)

/-! ## Lanes (R129) -/

/-- A lane: produced count and the records not yet consumed. -/
def State.lane (s : State) (h : BitVec 17) : Nat × List ContRec :=
  ((s.cl.lanes.find? fun l => l.1 == h).map (·.2)).getD (0, [])

def State.putLane (s : State) (h : BitVec 17) (l : Nat × List ContRec) : State :=
  s.setCl { s.cl with lanes := (h, l) :: s.cl.lanes.filter fun x => x.1 != h }

/-- The source scheduler watches the consumed count, which the target publishes, while its lane holds records. -/
def State.watchLane (s : State) (h : BitVec 17) : State :=
  let l := s.lane h
  if l.2.isEmpty || s.cl.watches.any (fun w => w.use == .lane h) then s
  else s.addWatch s.id (.lane h) (farAddr h laneDoneOff) (BitVec.ofNat 64 (l.1 - l.2.length + 1))

/-- A lane is full: 64 records wait in it. -/
def State.laneFull (s : State) (h : BitVec 17) : Bool := 64 ≤ (s.lane h).2.length

/-- A record performed into a lane, whose word the target watches: the release of R129. The target reads it there. -/
def State.laneSpawn (s : State) (h : BitVec 17) (r : ContRec) : State :=
  let l := s.lane h
  ((s.putLane h (l.1 + 1, l.2 ++ [r])).notifyLane laneWordOff h).watchLane h

/-- A lane's consumed count is known: its slots are free again. -/
def State.laneConsumed (s : State) (h : BitVec 17) (v : Word) : State :=
  let l := s.lane h
  (s.putLane h (l.1, l.2.drop (l.2.length - (l.1 - v.toNat)))).watchLane h

/-- Records of a source's lane have been taken: the count that this scheduler publishes rises (R129). -/
def State.laneTake (s : State) (h : BitVec 17) (n : Nat) : State :=
  let m := ((s.cl.consumed.find? fun l => l.1 == h).map (·.2)).getD 0
  (s.setCl { s.cl with consumed := (h, m + n) :: s.cl.consumed.filter fun l => l.1 != h }).notifyLane laneDoneOff h

/-- The lane read that the target sends to a source (R129, R341): a read request, judged and repeated as one. -/
def State.readLane (s : State) (w : SchedWatch) (h : BitVec 17) : State :=
  s.request (watchReq (.sched s.home w.id)) h ((s.cl.bound.map (·.space)).getD 0) 0x01 (.laneReq w.id s.home)

/-- A record of a source's lane becomes a record of this cluster. -/
def laneRecord (r : LaneRec) : ContRec :=
  { ContRec.none with
    code := r.code, frame := r.frame, join := r.join.toNat, prio := r.prio, wide := r.wide, actor := r.actor,
    graph := r.graph, space := r.space, key := r.key }

/-! ## Scheduler watches (R123) -/

def State.schedWatch (s : State) (id : Nat) : Option SchedWatch := s.cl.watches.find? fun w => w.id == id && w.sent

def State.putWatch (s : State) (w : SchedWatch) : State :=
  s.setCl { s.cl with watches := s.cl.watches.map fun x => if x.id = w.id then w else x }

/-- The graph instance that a watch's failure kills. -/
def State.watchGraph (s : State) (w : SchedWatch) : BitVec 32 :=
  match w.use with
  | .edge r _ => ((s.waitRec r).map (·.cr.graph)).getD 0
  | .channel r _ => ((s.waitRec r).map (·.cr.graph)).getD 0
  | .residency r => r.graph
  | .lane _ => (s.cl.bound.map (·.graph)).getD 0
  | .inLane _ => (s.cl.bound.map (·.graph)).getD 0

/-- A watch has answered at its threshold. That of a source's lane calls for a lane read, whose response brings the records; the
next watch is for the first record after those (R129). -/
def State.watchDone (s : State) (w : SchedWatch) (v : Word) (g : BitVec 48) (recs : List LaneRec) : State :=
  match w.use with
  | .edge r x => (s.dropWatch w.id).satisfy r (homeOf x) g
  | .channel r x => (s.dropWatch w.id).satisfy r (homeOf x) g
  | .residency r => (s.dropWatch w.id).join r
  | .lane h => (s.dropWatch w.id).laneConsumed h v
  | .inLane h =>
    if recs.isEmpty then s.readLane w h
    else
      let s := s.dropWatch w.id
      ((recs.foldl (fun s r => s.createRecord (laneRecord r) false) s).laneTake h recs.length).addWatch w.order (.inLane h) w.addr
        (w.thr + BitVec.ofNat 64 recs.length)

/-- When a refused watch is tried again: after 1, 2, 4, … 64 µs, and after 16 refusals the word is read every 64 µs. -/
def retryAfter (n : Nat) : Nat := (if 16 ≤ n then 64 else min (2 ^ (n - 1)) 64) * clkPerUs

/-- SCHEDULER_WATCH_ANSWER. The manual gives the kill of a lane's lost watch no TVAL: it is the watched word's address, as for
an edge (DESIGN CHOICE, log 62). -/
def execSchedulerWatchAnswer (id : Nat) (e : WatchEnd) (recs : List LaneRec) (s : State) (hdr : Option NysilHdr := none) : Out :=
  receive hdr false s fun s =>
    match s.schedWatch id with
    | none => .next s
    | some w =>
      let s := s.endWatch (watchReq (.sched s.home id)) e
      match e with
      | .armed => .next s
      | .answer v g =>
        if v.toNat < w.thr.toNat then .next (s.putWatch { w with retryAt := some (s.dev.clk + retryAfter w.refused) })
        else .next (s.watchDone w v g recs)
      | .full => .next (s.putWatch { w with refused := w.refused + 1, retryAt := some (s.dev.clk + retryAfter (w.refused + 1)) })
      | .fault c => .next ((s.schedKill (s.watchGraph w) c w.addr).dropWatch id)
      | .lost => .next ((s.schedKill (s.watchGraph w) 0x14 w.addr).dropWatch id)

/-- The word of a watch that has been refused 16 times is read: the page-request word of a residency ticket (R152), or bytes. -/
def State.readWatched (s : State) (w : SchedWatch) : State :=
  let sp := (s.cl.bound.map (·.space)).getD 0
  let h := homeOf w.addr
  let ends (s : State) (e : WatchEnd) : State := s.queue (.schedulerWatchAnswer w.id e [])
  if s.lostDev (devOf h) then ends s .lost
  else if offOf w.addr = pageWordOff && s.served h then
    ends s (.answer (if h = s.service then s.dev.svc.pageWord else s.cl.pageWord) (s.genOf h))
  else if !s.served h then
    let id := watchReq (.sched s.home w.id)
    s.request id h sp 0x01 (.readReq id w.addr sp)
  else
    match s.readHome h sp (offOf w.addr).toNat 8 with
    | (s, .ok bs) => ends s (.answer (BitVec.ofNat 64 (leNat bs)) (s.genOf h))
    | (s, .error (.trap c _)) => ends s (.fault c)
    | (s, .error .unmapped) => ends s (.fault 0x08)
    | (s, .error (.notResident _ _)) =>
      (s.putWatch { w with retryAt := some (s.dev.clk + retryAfter 16) }).send (.pageInWanted sp (w.addr &&& ~~~0xFFF))

/-- WATCH_RETRY: a refused watch is registered again, or its word read. -/
def execWatchRetry (id : Nat) (s : State) : Out :=
  match s.schedWatch id with
  | none => .next s
  | some w =>
    if w.retryAt.isNone then .next s
    else
      let w' := { w with retryAt := none }
      let s := s.putWatch w'
      if w.refused < 16 then .next (s.watchWord ((s.cl.bound.map (·.space)).getD 0) w.addr w.thr (.sched s.home id))
      else .next (s.readWatched w')

/-! ## Assignment (R120, R122) -/

/-- The head of a run list. -/
def State.head (s : State) (q : Fin 4) : Option (ContRec × Nat) := s.cl.lists[q].head?

/-- Some list's head is a gang's record. -/
def State.wideHead (s : State) : Bool := (List.finRange 4).any fun q => (s.head q).any fun x => x.1.wide

/-- The cores that take no record: a reserved quad waits for a gang. -/
def State.heldQuad (s : State) : Bool := s.cl.reserved && s.wideHead

/-- A reservation passes to the next wide head (R122). Where no list's head is wide any more, as when it has aged to a tail or been
killed, it lapses at once: the manual states no end of it but the gang's start (DESIGN CHOICE, log 74). -/
def State.lapse (s : State) : State :=
  if s.cl.reserved && !s.wideHead then s.setCl { s.cl with reserved := false } else s

def State.allIdle (s : State) : Bool := s.cores.all fun c => c.status == .idle

/-- The lowest-numbered idle core. -/
def State.idleCore (s : State) : Option (BitVec 2) :=
  ((List.finRange 4).map fun k => BitVec.ofFin k).find? fun (k : BitVec 2) =>
    s.cores.any fun c => c.num == k && c.status == .idle

/-- A head can be served by this quad. -/
def State.servable (s : State) (r : ContRec) : Bool :=
  if r.wide then s.allIdle else !s.heldQuad && s.idleCore.isSome

/-- The first list whose head can be served. -/
def State.assignable (s : State) : Option (Fin 4) :=
  (List.finRange 4).find? fun q => (s.head q).any fun x => s.servable x.1

/-- The head of a list leaves it. -/
def State.popList (s : State) (q : Fin 4) : State :=
  s.setCl { s.cl with lists := s.cl.lists.set q (s.cl.lists[q].drop 1) }

/-- The next firing number (R44). -/
def nextNumber (n : BitVec 32) : BitVec 32 := if n = 0xFFFFFFFF#32 then 1 else n + 1

/-- The task key of the firing that a record starts: that of the record, or of an actor's k-th firing; one that is restarted keeps
its key (R400). -/
def State.firingKey (s : State) (r : ContRec) : Word :=
  match s.waitRec r.sid with
  | some w => if r.actor then taskKey w.cr.key (w.firings + 1) else r.key
  | none => r.key

/-- A core as a firing finds it (R37, R48, R111): its accumulators and the accesses that still go on stay. -/
def Core.start (c : Core) (r : ContRec) (number : BitVec 32) (part : BitVec 32) (now issueAt : Nat) : Core :=
  let sp := BitVec.ofNat 64 (4096 * partS part)
  { Core.idle c.num with
    status := .running, task := r, number := number, started := now, pc := r.code, issueAt := issueAt,
    entry := some .start, sp := sp, spbase := sp, slots := c.slots, acc := c.acc, sb := c.sb, accum := c.accum, wild := c.wild }

/-- A core that a saved firing is to be restored on (R332). -/
def Core.reserve (c : Core) (r : ContRec) (now : Nat) : Core := { c with status := .stopped, task := r, started := now }

/-- SCHEDULER_ASSIGNMENT (R120): one head is assigned, and its firing started or its resume begun. -/
def execSchedulerAssignment (s : State) : Out :=
  match s.assignable with
  | none => .next s
  | some q =>
    match s.head q with
    | none => .next s
    | some (r, joined) =>
      let s := (s.popList q).lapse.refill
      let takes (c : Core) : Bool := r.wide || some c.num == s.idleCore
      let idle := (s.cores.filter takes).foldl (fun n c => max n c.started) joined
      let s := if r.wide then s.setCl { s.cl with reserved := false } else s
      if r.resumable then
        .next ((s.mapCores fun c => if takes c then c.reserve r s.dev.clk else c).queue (.resume r.image))
      else
        let n := s.cl.nextFiring
        let r' := { r with key := s.firingKey r }
        let at' := idle + max 8 (partN s.cl.part)
        .next ((s.mapCores fun c => if takes c then c.start r' n s.cl.part s.dev.clk at' else c).setCl
          { s.cl with nextFiring := nextNumber n })

/-! ## Aging and reservation (R121, R122) -/

/-- A record of list `q` has waited longer than its bound. -/
def State.aged (s : State) (q : Fin 4) (joined : Nat) : Bool :=
  let bound := s.cl.aging[q]
  decide (q.val ≠ 0) && bound != 0 && decide (3 * bound.toNat < 2 * (s.dev.clk - joined))

/-- The oldest record due for promotion, from P1 to P3. -/
def State.ageDue (s : State) : Option (Fin 4 × ContRec × Nat) :=
  (List.finRange 4).findSome? fun q => (s.cl.lists[q].find? fun x => s.aged q x.2).map fun x => (q, x)

/-- AGING: the record moves to the tail of the next list and starts its wait there afresh. -/
def execAging (s : State) : Out :=
  match s.ageDue with
  | none => .next s
  | some (q, x) =>
    let s := s.setCl { s.cl with lists := s.cl.lists.set q (s.cl.lists[q].erase x) }
    .next ((s.joinAt (BitVec.ofNat 2 (q.val - 1)) x.1).lapse.count .promotions 1)

/-- A wide head has waited 64 µs without an idle quad. -/
def State.reserveDue (s : State) : Bool :=
  !s.cl.reserved && !s.allIdle &&
    (List.finRange 4).any fun q => (s.head q).any fun x => x.1.wide && decide (64 * clkPerUs ≤ s.dev.clk - x.2)

/-- QUAD_RESERVATION: the modelled quad is reserved. -/
def execQuadReservation (s : State) : Out :=
  .next (if s.reserveDue then s.setCl { s.cl with reserved := true } else s)

end Sys2Proof.Machine
end

