-- ==== Sys2Proof/Machine/Matrix.lean ====
section
/-! DEFINITION. The joint array (chapter 15): operands, weights, accumulators, the gang's barrier and join, and the
matrix commands. A command is checked at issue and performed as a step of its own, in the program order of its core. -/

namespace Sys2Proof

/-! ## Formats (R261, R283) -/

/-- The element format of a matrix format. -/
def MFmt.elem : MFmt → Fmt
  | .bf16 => .bf16 | .f8a => .f8a | .f8b => .f8b | .mxf8a => .f8a | .mxf8b => .f8b | .mxf4 => .e2m1

def MFmt.isMx : MFmt → Bool
  | .mxf8a | .mxf8b | .mxf4 => true
  | .bf16 | .f8a | .f8b => false

/-- Bits of an element, which is also the packing class. -/
def MFmt.bits : MFmt → Nat
  | .bf16 => 16
  | .f8a | .f8b | .mxf8a | .mxf8b => 8
  | .mxf4 => 4

/-- K positions of a row. -/
def MFmt.k (f : MFmt) : Nat := 2048 / f.bits

/-- Scale bytes of a row. -/
def MFmt.s : MFmt → Nat
  | .bf16 | .f8a | .f8b => 0
  | .mxf8a | .mxf8b => 8
  | .mxf4 => 16

/-- The code of a matrix format (R14). -/
def MFmt.code : MFmt → Nat
  | .bf16 => 1 | .f8a => 3 | .f8b => 4 | .mxf8a => 7 | .mxf8b => 8 | .mxf4 => 9

end Sys2Proof

namespace Sys2Proof.Machine

/-! ## Operand rows (R262, R263) -/

/-- A scratch operand's fields (R262). -/
def opBase (first : Word) : Nat := (first.extractLsb' 0 40).toNat
def opRot (first : Word) : Nat := (first.extractLsb' 40 4).toNat
def opTile (second : Word) : Nat := (second.extractLsb' 24 32).toNat
def opPitch (second : Word) : Nat := (second.extractLsb' 0 24).toNat

/-- The rotation multiplier. -/
def rotMul (code : Nat) : Nat := if code = 0 then 0 else 2 ^ (code - 1)

/-- The address of row `i` of tile `t`. -/
def rowAt (first second : Word) (t i : Nat) : Nat := (opBase first + t * opTile second + i * opPitch second) % 2 ^ 40

/-- The first tile of row `i` that reaches past `top`. -/
def badTile (first second : Word) (tiles top i : Nat) : Option Nat :=
  let a := rowAt first second 0 i
  let t := if top < a then 0 else if opTile second = 0 then tiles else (top - a) / opTile second + 1
  if t < tiles then some t else none

/-- The first row, tile by tile, with a byte at or above `live`: the offset of that byte. -/
def firstPast (first second : Word) (rows tiles len live : Nat) : Option Nat :=
  let bads := (List.range rows).filterMap fun i => (badTile first second tiles (live - len) i).map fun t => (t, i)
  let best := bads.foldl (fun (b : Option (Nat × Nat)) x =>
    match b with
    | none => some x
    | some y => if x.1 < y.1 then some x else some y) none
  best.map fun x => max (rowAt first second x.1 x.2) live

/-- The checks of R262: a trap's cause and TVAL. -/
def scratchCheck (f : MFmt) (first second : Word) (rows tiles live : Nat) : Option (Byte × Word) :=
  let rot := opRot first
  let word (n : Nat) : Word := BitVec.ofNat 64 n
  if first.extractLsb' 44 20 ≠ 0#20 || 3 < rot then some (0x01, first)
  else if second.extractLsb' 56 8 ≠ 0#8 then some (0x01, second)
  else
    match [opBase first, opTile second, opPitch second].find? fun v => decide (v % 32 ≠ 0) with
    | some v => some (0x06, word v)
    | none =>
      match [opBase first, opPitch second].find? fun v => rot ≠ 0 && decide (v % 256 ≠ 0) with
      | some v => some (0x06, word v)
      | none =>
        if 1 < rows && opPitch second < 256 + f.s then some (0x01, second)
        else (firstPast first second rows tiles (256 + f.s) live).map fun x => (0x09, word x)

/-- A row as the array takes it: 256 element bytes, scale bytes, and whether a granule was poisoned. -/
structure OpRow where
  data : VReg
  scales : BitVec 128
  poison : Bool
deriving DecidableEq, Repr

/-- Element bytes with the rotation undone (R263). -/
def unrotate (m i : Nat) (bs : List Byte) : List Byte :=
  (List.range 8).flatMap fun q => (bs.drop (32 * ((q + m * i) % 8))).take 32

/-- A scratch row read. -/
def State.scratchRow (s : State) (f : MFmt) (first second : Word) (t i : Nat) : OpRow :=
  let a := rowAt first second t i
  let bs := Mem.bytes s.mem a (256 + f.s)
  { data := vregOf (unrotate (rotMul (opRot first)) i (bs.take 256)),
    scales := BitVec.ofNat 128 (leNat (bs.drop 256)),
    poison := (granules a (256 + f.s)).any fun g => s.cl.poison.contains (g / 64) }

/-! ## Weights (R264, R265) -/

/-- Scale bytes that a format change leaves in the columns it does not write. -/
def scales7F : BitVec 128 := 0x7F7F7F7F7F7F7F7F7F7F7F7F7F7F7F7F

/-- Rows written to the columns from `c` upward. -/
def Slice.put (w : Slice) (c : Nat) : List OpRow → Slice
  | [] => w
  | r :: rs =>
    (if h : c < 64 then { w with cols := w.cols.set c r.data, scales := w.scales.set c r.scales } else w).put (c + 1) rs

/-- A WLD's columns latched. -/
def Slice.load (w : Slice) (f : MFmt) (c0 : Nat) (rows : List OpRow) (rec : WldRec) : Slice :=
  let all := rows.length = 64
  let base := if w.fmt = f then w
    else { w with fmt := f, cols := Vector.replicate 64 0, scales := Vector.replicate 64 scales7F, hist := [] }
  let p := rows.any (·.poison)
  { base.put c0 rows with
    poisoned := if all then p else w.poisoned || p
    hist := if all then [rec] else base.hist ++ [rec] }

/-- Columns from vector registers, and their scales (R264). -/
def vecRows (f : MFmt) (cols : List VReg) (scales : Option VReg) : List OpRow :=
  cols.zipIdx.map fun x =>
    { data := x.1, poison := false,
      scales := ((scales.getD 0) >>> (8 * f.s * x.2)).setWidth 128 &&& BitVec.ofNat 128 (2 ^ (8 * f.s) - 1) }

/-- A recorded WLD latched. -/
def State.wldRows (s : State) : WldRec → MFmt × Nat × List OpRow
  | .scratch f first second c0 count => (f, c0, (List.range count).map fun j => s.scratchRow f first second 0 j)
  | .vec f cols sc c0 => (f, c0, vecRows f cols sc)

def State.latch (s : State) (w : Slice) (r : WldRec) : Slice :=
  let x := s.wldRows r
  w.load x.1 x.2.1 x.2.2 r

/-! ## Accumulators (R268, R269) -/

def AccRow.zero (r : Nat) : AccRow := { row := r, data := 0, poison := false }

/-- A row of the accumulator space. -/
def Core.accRow (c : Core) (r : Nat) : AccRow := (c.accum.find? fun x => x.row == r).getD (AccRow.zero r)

/-- A row put in its place in a list in rising order. -/
def accInsert (x : AccRow) : List AccRow → List AccRow
  | [] => [x]
  | y :: ys => if y.row < x.row then y :: accInsert x ys else x :: y :: ys

/-- A row written; a row of +0 unpoisoned is not listed. -/
def Core.setAcc (c : Core) (x : AccRow) : Core :=
  let rest := c.accum.filter fun y => y.row != x.row
  { c with accum := if x.data = 0 ∧ x.poison = false then rest else accInsert x rest }

/-- An MMA of the firing, earlier than command `id`, owns the row (R269). -/
def Core.ownsRow (c : Core) (id r : Nat) : Bool :=
  c.owned.any fun x => decide (x.1 ≤ r) && decide (r < x.1 + x.2.1) && decide (x.2.2 < id)

/-- The rows [lo, hi) leave the ranges that MMAs before `id` own. -/
def releaseRows (lo hi id : Nat) (xs : List (Nat × Nat × Nat)) : List (Nat × Nat × Nat) :=
  xs.flatMap fun x =>
    if id ≤ x.2.2 then [x]
    else [(x.1, min (x.1 + x.2.1) lo - x.1, x.2.2), (max x.1 hi, x.1 + x.2.1 - max x.1 hi, x.2.2)].filter fun y => y.2.1 ≠ 0

/-- Rows of the space, and the check of R268: TVAL of trap 0x09. -/
def rowCheck (a row0 rows : Nat) : Option Word :=
  if 64 * a < row0 + rows then some (BitVec.ofNat 64 (max row0 (64 * a))) else none

/-- A row as command `id` finds it: unpredictable while an earlier MMA owns it (R269). -/
def State.takeRow (s : State) (c : Core) (id r : Nat) : State × AccRow :=
  if c.ownsRow id r then (s.takeFree, { c.accRow r with data := Config.freeRow s.free, poison := false }) else (s, c.accRow r)

/-! ## Numerics (R93, R273) -/

/-- Element `k` of a row of `w`-bit elements. -/
def elemCode (w : Nat) (v : VReg) (k : Nat) : Nat := v.toNat / 2 ^ (w * k) % 2 ^ w

/-- A finite value in units of 2^u, truncated toward zero (R93). -/
def truncInt (sg : Bool) (m : Nat) (e u : Int) : Int :=
  let n : Int := (m * 2 ^ (e - u).toNat / 2 ^ (u - e).toNat : Nat)
  if sg then -n else n

/-- The products of a group: exact values, and whether a 0 * Inf arose. -/
def groupSum (ps : List (Val × BitVec 5)) : Val × BitVec 5 :=
  let vs := ps.map (·.1)
  let pinf := vs.contains (.inf false)
  let ninf := vs.contains (.inf true)
  let nv := flagIf (ps.any (fun p => p.2 &&& fNV != 0) || (pinf && ninf)) fNV
  if vs.any Val.isNan || (pinf && ninf) then (.nan, nv)
  else if pinf then (.inf false, nv)
  else if ninf then (.inf true, nv)
  else if vs.all Val.isZero then (.fin (vs.all Val.sign) 0 0, nv)
  else
    let lead := vs.foldl (fun (m : Option Int) v =>
      match v with
      | .fin _ k e => if k = 0 then m else some (max (m.getD (leadExp k e)) (leadExp k e))
      | .inf _ => m
      | .nan => m) none
    let u := lead.getD 0 - 48
    let total : Int := (vs.map fun v =>
      match v with
      | .fin sg k e => truncInt sg k e u
      | .inf _ => 0
      | .nan => (0 : Int)).sum
    if total = 0 then (.fin ((vs.filter fun v => !v.isZero).all Val.sign) 0 0, nv) else (.fin (decide (total < 0)) total.natAbs u, nv)

/-- The bounds that R93 puts on a scaled sum. -/
def boundSum : Val → Val × BitVec 5
  | .fin sg m e =>
    if m = 0 then (.fin sg m e, 0)
    else if 127 < leadExp m e || (leadExp m e = 127 && (2 ^ 24 - 1) * 2 ^ 104 < scaledInt false m e 0) then (.inf sg, fOF ||| fNX)
    else if leadExp m e < -149 then (.fin sg 0 0, fUF ||| fNX)
    else (.fin sg m e, 0)
  | .inf sg => (.inf sg, 0)
  | .nan => (.nan, 0)

/-- One group accumulated: `sa` and `sb` are the block scales where either operand has them. -/
def accumulate (acc : Nat) (ps : List (Val × BitVec 5)) (mx : Option (Nat × Nat)) : Nat × BitVec 5 :=
  let (v, f) := groupSum ps
  let v :=
    match mx with
    | none => v
    | some (a, b) => if a = 255 || b = 255 then .nan else v.scale ((a : Int) + b - 254)
  let (v, g) := boundSum v
  let (r, h) := rounded .fp32 ((codeVal .fp32 false acc).add v)
  (r, f ||| g ||| h)

/-- An activation row: element codes, none where the array generates the element; scales; poison. -/
structure ActRow where
  elems : List (Option Nat)
  scales : BitVec 128
  poison : Bool
deriving DecidableEq, Repr

/-- One lane of one activation row through a slice (R273). -/
def laneSum (f : MFmt) (a : ActRow) (w : Slice) (n : Fin 64) (acc : Nat) : Nat × BitVec 5 :=
  let col := w.cols[n]
  let prods := a.elems.zipIdx.map fun x =>
    match x.1 with
    | none => (Val.fin false 0 0, (0 : BitVec 5))
    | some code => (codeVal f.elem false code).mul (codeVal w.fmt.elem false (elemCode w.fmt.bits col x.2))
  (List.range (f.k / 32)).foldl
    (fun (x : Nat × BitVec 5) g =>
      let sa := if f.isMx then elemCode 8 (a.scales.setWidth 2048) g else 0x7F
      let sb := if w.fmt.isMx then elemCode 8 (w.scales[n].setWidth 2048) g else 0x7F
      let r := accumulate x.1 ((prods.drop (32 * g)).take 32) (if f.isMx || w.fmt.isMx then some (sa, sb) else none)
      (r.1, x.2 ||| r.2)) (acc, 0)

/-- A whole accumulator row. -/
def rowSum (f : MFmt) (a : ActRow) (w : Slice) (acc : VReg) : VReg × BitVec 5 :=
  let lanes := (List.finRange 64).map fun n => laneSum f a w n (elemCode 32 acc n.val)
  (BitVec.ofNat 2048 (leNat (lanes.flatMap fun x => leBytes 4 x.1)), lanes.foldl (fun g x => g ||| x.2) 0)

/-! ## Activations (R267) -/

def scratchAct (f : MFmt) (r : OpRow) : ActRow :=
  { elems := (List.range f.k).map fun k => some (elemCode f.bits r.data k), scales := r.scales, poison := r.poison }

/-- The output height of a map (R266). -/
def mapOh (d : Line) : Nat :=
  (dfield d 16 2 + dfield d 24 1 + dfield d 26 1 - dfield d 28 1 * (dfield d 20 1 - 1) - 1) / dfield d 22 1 + 1

/-- The local offset of tap `t` of output row `j`, where it falls on the image. -/
def mapTap (d : Line) (size j t : Nat) : Option Nat :=
  let cs := dfield d 10 2
  let c := dfield d 12 2
  let h := dfield d 16 2
  let w := dfield d 18 2
  let kw := dfield d 21 1
  let ow := dfield d 30 2
  if dfield d 20 1 * kw * c ≤ t || mapOh d ≤ j / ow then none
  else
    let y := j / ow * dfield d 22 1 + t / (kw * c) * dfield d 28 1
    let x := j % ow * dfield d 23 1 + t / c % kw * dfield d 29 1
    let top := dfield d 24 1
    let left := dfield d 25 1
    if y < top || x < left || h ≤ y - top || w ≤ x - left then none
    else some (dfield d 0 8 + (((y - top) * w + (x - left)) * cs + dfield d 14 2 + t % c) * size)

/-- An activation row of a tensor map. -/
def State.mapAct (s : State) (f : MFmt) (d : Line) (j : Nat) : ActRow :=
  let size := f.bits / 8
  let taps := (List.range f.k).map (mapTap d size j)
  { elems := taps.map fun t => t.map fun a => Mem.nat s.mem a size, scales := 0,
    poison := taps.any fun t =>
      match t with
      | some a => s.cl.poison.contains (a / 64)
      | none => false }

/-! ## The command queue and the scoreboard (R248, R249, R270) -/

/-- A register that a TMAPSET writes: owed until its map has arrived. -/
def Dest.isMap : Dest → Bool
  | .tm _ => true
  | .n _ | .m _ | .v _ | .lc _ | .gone => false

/-- The core has 8 incomplete matrix commands, its TMAPSETs among them (R270). -/
def Core.mqFull (c : Core) : Bool := 8 ≤ c.mq.length + (c.owed.filter fun x => x.2.isMap).length

/-- `n` entries of the scoreboard are free. -/
def Core.sbFree (c : Core) (n : Nat) : Bool := c.sb.length + n ≤ 16

/-- The bytes [lo, hi) that a command reads or writes are held by an earlier vector access or command of its firing, an LDX or STX
from its lowest to its highest active byte (R248). -/
def Core.rangeHeld (c : Core) (r : Range) : Bool :=
  (c.sb.any fun e =>
    decide (e.id < r.id) && e.firing == r.firing && decide (r.lo < e.hi) && decide (e.lo < r.hi) && (r.write || e.write)) ||
    c.acc.any fun a =>
      decide (a.id < r.id) && a.firing == r.firing &&
        (match a.kind with
         | .ldv _ _ _ | .stv _ _ | .ldx _ _ _ | .stx _ => true
         | .ld _ _ _ | .st _ _ | .amo _ _ _ _ | .acas _ _ _ _ | .advance _ _ | .advCheck _ | .sqwait _ _ | .tmapset _ _
         | .testinj _ | .touch _ | .noAlloc _ | .writeBack _ => false) &&
        decide (a.kind.span.1 < r.hi) && decide (r.lo < a.kind.span.2)

/-- The ranges of a command that are held. -/
def Core.cmdHeld (c : Core) (id : Nat) : Bool := c.sb.any fun r => r.id == id && c.rangeHeld r

/-- A command as it issues: nothing of it is done. -/
def MCmd.new (id : Nat) (op : MOp) (due : Nat) : MCmd := { id := id, op := op, due := due, done := 0, flags := 0, got := [], cut := false }

/-- A matrix command joins the queue under the id `s.id`, with its scoreboard range; `due` is the time to its first row or
column (R275). -/
def State.pushCmd (s : State) (op : MOp) (due : Nat) (range : Option (Nat × Nat × Bool)) (ds : List Dest) : State :=
  let id := s.id
  let sb := range.toList.map fun r => ({ id := id, firing := s.core.number, lo := r.1, hi := r.2.1, write := r.2.2 } : Range)
  let c := { s.core with mq := s.core.mq ++ [MCmd.new id op (s.dev.clk + due)], sb := s.core.sb ++ sb }
  (s.setCore c).owe false ds

/-- A matrix command of the queue: the gate, its checks, room, and its place in the queue. -/
def issueCmd (i : Instr) (s : State) (check : Option (Byte × Word)) (op : MOp) (due : Nat) (range : Option (Nat × Nat × Bool))
    (ds : List Dest) : Out :=
  gate i s
    (match check with
     | some (c, v) => .next (s.trap c v)
     | none =>
       if s.core.acquiring || s.core.mqFull || !s.core.sbFree range.toList.length then stall s
       else .next (s.pushCmd op due range ds))

/-! ## The instructions -/

/-- The extent of a scratch operand: its first row's first byte to its last row's last byte, over all tiles. -/
def extent (f : MFmt) (first second : Word) (rows tiles : Nat) : Nat × Nat :=
  let corners := [rowAt first second 0 0, rowAt first second 0 (rows - 1), rowAt first second (tiles - 1) 0,
    rowAt first second (tiles - 1) (rows - 1)]
  (corners.foldl min (opBase first), corners.foldl max 0 + 256 + f.s)

/-- WLD (R264, R280). -/
def execWld (f : MFmt) (src : WldSrc) (c0 : BitVec 6) (count : BitVec 7) (s : State) : Out :=
  let i := Instr.wld f src c0 count
  let n := count.toNat
  match src with
  | .scratch a b =>
    let first := s.src a
    let second := s.src b
    let check := if !s.core.task.wide then some (0x0E, 0) else scratchCheck f first second n 1 s.liveNear
    let e := extent f first second n 1
    issueCmd i s check (.wldScratch f first second c0.toNat n) 4 (some (e.1, e.2, false)) []
  | .vec v g sc =>
    let cols := (vgroup v (2 ^ g.toNat)).map fun r => s.core.view.v[r]
    issueCmd i s (if !s.core.task.wide then some (0x0E, 0) else none) (.wldVec f cols (sc.map fun r => s.core.view.v[r]) c0.toNat)
      (2 + n) none []

/-- The space's rows of the bound partition. -/
def State.accA (s : State) : Nat := partA s.cl.part

def rowTrap (s : State) (row0 rows : Nat) : Option (Byte × Word) := (rowCheck s.accA row0 rows).map fun v => (0x09, v)

def execAzero (row0 rows : BitVec 12) (s : State) : Out :=
  issueCmd (.azero row0 rows) s (rowTrap s row0.toNat rows.toNat) (.azero row0.toNat rows.toNat) 1 none []

def execArd (g : BitVec 2) (d : Fin 32) (row0 : BitVec 12) (s : State) : Out :=
  let n := 2 ^ g.toNat
  issueCmd (.ard g d row0) s (rowTrap s row0.toNat n) (.ard row0.toNat n) 1 none ((vgroup d n).map .v)

def execAwr (g : BitVec 2) (b : Fin 32) (row0 : BitVec 12) (s : State) : Out :=
  let n := 2 ^ g.toNat
  issueCmd (.awr g b row0) s (rowTrap s row0.toNat n) (.awr row0.toNat ((vgroup b n).map fun r => s.core.view.v[r])) 1 none []

/-- The checks of AST (R283). -/
def State.astCheck (s : State) (base row0 rows pitch len : Nat) : Option (Byte × Word) :=
  if base % 32 ≠ 0 then some (0x06, BitVec.ofNat 64 base)
  else
    match ((List.range rows).map fun j => base + j * pitch).find? fun a => decide (s.chanArea < a + len) with
    | some a => some (0x09, BitVec.ofNat 64 (max a s.chanArea))
    | none => rowTrap s row0 rows

def execAst (f : AFmt) (a : Src) (row0 rows : BitVec 12) (pitch : BitVec 24) (s : State) : Out :=
  let off : BitVec 40 := (s.src a).setWidth 40
  let len := f.rowBytes
  let p := if pitch = 0 then len else pitch.toNat
  let n := rows.toNat
  issueCmd (.ast f a row0 rows pitch) s (s.astCheck off.toNat row0.toNat n p len) (.ast f off row0.toNat n p) 4
    (some (off.toNat, off.toNat + (n - 1) * p + len, true)) []

/-- The rows [lo, hi) of an MWAIT: 0 rows stand for the whole space. -/
def waitRows (a row0 rows : Nat) : Nat × Nat := if rows = 0 then (0, 64 * a) else (row0, row0 + rows)

/-- MWAIT (R284): later groups wait until its rows' commands have completed. -/
def execMwait (row0 rows : BitVec 12) (s : State) : Out :=
  gate (.mwait row0 rows) s
    (match (if rows = 0 then none else rowTrap s row0.toNat rows.toNat) with
     | some (c, v) => .next (s.trap c v)
     | none =>
       let r := waitRows s.accA row0.toNat rows.toNat
       .next (s.takeId.setCore { s.core with wait := s.core.wait ++ [.mwait r.1 r.2 s.id] }))

/-- The rows a command concerns. -/
def MOp.rows : MOp → Option (Nat × Nat)
  | .wldScratch _ _ _ _ _ => none
  | .wldVec _ _ _ _ => none
  | .mma _ row0 rows tiles _ _ _ _ _ _ _ => some (row0, rows * tiles)
  | .azero row0 rows => some (row0, rows)
  | .ard row0 g => some (row0, g)
  | .awr row0 rs => some (row0, rs.length)
  | .ast _ _ row0 rows _ => some (row0, rows)

def meetsRows (lo hi : Nat) (r : Nat × Nat) : Bool := decide (lo < r.1 + r.2) && decide (r.1 < hi)

/-- Every earlier command on the rows has completed. -/
def Core.mwaitMet (c : Core) (lo hi id : Nat) : Bool :=
  !(c.mq.any fun m => decide (m.id < id) && (m.op.rows.any (meetsRows lo hi)))

/-- MWAIT releases its rows and merges their flags: all the flags of a command at the first MWAIT that meets any of its rows,
where the manual speaks only of the MWAIT that releases the region (DESIGN CHOICE, log 62). -/
def Core.finishMwait (c : Core) (lo hi id : Nat) : Core :=
  let mine (x : Nat × Nat × Nat × BitVec 5) : Bool := decide (x.1 < id) && meetsRows lo hi (x.2.1, x.2.2.1)
  let c := (c.mflags.filter mine).foldl (fun c x => c.mergeFlags x.2.2.2) c
  { c with
    owned := releaseRows lo hi id c.owned, mflags := c.mflags.filter fun x => !mine x
    wait := c.wait.filter fun w => w != .mwait lo hi id }

/-- TMAPSET (R266, R270, R285): an access that reads 64 bytes. -/
def execTmapset (d : Fin 8) (a : Src) (disp : BitVec 48) (s : State) : Out :=
  let off := s.localOff a disp
  gate (.tmapset d a disp) s
    (match s.issueCheck 8 false (AccKind.tmapset off d).ranges with
     | some (c, v) => .next (s.trap c v)
     | none =>
       if s.core.acquiring || s.core.mqFull then stall s
       else .next (s.addAccess (.tmapset off d) false [.tm d] (s.dev.clk + s.accessTime off.toNat)))

/-! ## The barrier and the join (R271, R272) -/

/-- The core of a number. -/
def State.coreNo (s : State) (k : BitVec 2) : Core := ((s.cores.find? fun c => c.num == k).getD s.core)

/-- The mask of cores that meet a condition. -/
def State.coreMask (s : State) (p : Core → Bool) : Word :=
  ((List.range 4).map fun k => if p (s.coreNo (BitVec.ofNat 2 k)) then (1 <<< k : Word) else 0).foldl (· ||| ·) 0

/-- The first destination row that a held MMA names. -/
def mmaRow0 : Instr → Nat
  | .mma _ _ _ row0 _ => row0.toNat
  | _ => 0

/-- Check 1 of R272 on core 0's operand, and the command it makes. -/
def State.leadOp (s : State) (f : MFmt) (src : MmaSrc) (gran : BitVec 2) (rows : Nat) : Except (Byte × Word) MOp :=
  let c := s.coreNo 0
  let z := s.setCore c
  match src with
  | .scratch a b t =>
    let tiles := match t with
      | some k => c.view.lc[k].toNat
      | none => 1
    match scratchCheck f (z.src a) (z.src b) rows tiles s.liveNear with
    | some x => .error x
    | none => .ok (.mma f 0 rows tiles gran (z.src a) (z.src b) none true 0 0)
  | .map t b =>
    match c.view.tm[t] with
    | none => .error (0x01, (BitVec.ofNat 64 (0x68 + t.val)))
    | some d =>
      if dfield d 8 1 ≠ f.code then .error (0x01, (BitVec.ofNat 64 (0x68 + t.val)))
      else if 2 ^ 32 ≤ (z.src b).toNat then .error (0x01, z.src b)
      else .ok (.mma f 0 rows 1 gran 0 (z.src b) (some d) true 0 0)

/-- A member's own command. -/
def MOp.forMember (row0 : Nat) (lead : Bool) : MOp → MOp
  | .mma f _ rows tiles g a b m _ d fl => .mma f row0 rows tiles g a b m lead d fl
  | op => op

/-- Rows of an MMA. -/
def MOp.total : MOp → Nat
  | .mma _ _ rows tiles _ _ _ _ _ _ _ => rows * tiles
  | _ => 0

/-- The format that a member's slice has when the commands before the MMA have been performed. -/
def Core.latchFmt (c : Core) : MFmt :=
  c.mq.foldl (fun f m =>
    match m.op with
    | .wldScratch g _ _ _ _ => g
    | .wldVec g _ _ _ => g
    | _ => f) c.slice.fmt

/-- The join's checks: a trap that all four members take, or the command. -/
def State.joinCheck (s : State) : Except (Byte × Word) MOp :=
  match (s.coreNo 0).heldMma with
  | some (.mma f src gran _ rows) =>
    match s.leadOp f src gran rows.toNat with
    | .error x => .error x
    | .ok op =>
      let n := op.total
      let past := s.coreMask fun c => n = 0 || decide (64 * s.accA < ((c.heldMma.map mmaRow0).getD 0) + n)
      let other := s.coreMask fun c => c.latchFmt.bits ≠ f.bits
      if past ≠ 0 then .error (0x09, past)
      else if other ≠ 0 then .error (0x0D, BitVec.ofNat 64 (256 * f.code) ||| other)
      else .ok op
  | _ => .error (0x0E, 0)

/-- MMA_JOIN: the last member has reached the barrier. -/
def State.mmaJoin (s : State) : State :=
  let r := s.joinCheck
  let done (c : Core) : Core :=
    let row0 := (c.heldMma.map mmaRow0).getD 0
    let w : Wait :=
      match r with
      | .error x => .joined (some x) none
      | .ok op => .joined none (some (op.forMember row0 (c.num == 0)))
    { c with heldMma := none, wait := c.wait ++ [w], mark := .none }
  let s := s.mapCores done
  match r with
  | .error _ => s
  | .ok _ => s.count .mmaJoins 1

/-- What the join left for this member. -/
def Core.joinedWait (c : Core) : Option (Option (Byte × Word) × Option MOp) :=
  c.wait.findSome? fun w =>
    match w with
    | .joined f op => some (f, op)
    | _ => none

def Core.dropJoined (c : Core) : Core :=
  { c with wait := c.wait.filter fun w =>
      match w with
      | .joined _ _ => false
      | _ => true }

/-- clk between activation rows (R275). -/
def rowPace : Option (BitVec 512) → Nat
  | none => 1
  | some d => max 1 ((dfield d 20 1 * dfield d 21 1 + 3) / 4)

/-- The bytes that core 0's MMA reads (R274). -/
def MOp.readRange : MOp → Option (Nat × Nat × Bool)
  | .mma f _ rows tiles _ first second map lead _ _ =>
    if !lead then none
    else
      match map with
      | none =>
        let e := extent f first second rows tiles
        some (e.1, e.2, false)
      | some d => some (dfield d 0 8, dfield d 0 8 + dfield d 16 2 * dfield d 18 2 * dfield d 10 2 * (f.bits / 8), false)
  | _ => none

/-- The joined MMA issues at this member: it owns its rows from now on. -/
def State.issueMma (s : State) (op : MOp) : State :=
  let c := s.core.dropJoined
  let rows := (op.rows).toList.map fun r => (r.1, r.2, s.id)
  (s.setCore { c with mmaCount := c.mmaCount + 1, owned := c.owned ++ rows }).pushCmd op 4 op.readRange []

/-- The member that joins the others issues in the same clk (R271). -/
def State.stallOnce (s : State) : Out := .next (s.setCore { s.core with mark := .again })

/-- The members whose END's group has issued in an earlier clk (R271). -/
def State.goneMask (s : State) : Word := s.coreMask fun c => c.ended.any fun t => decide (t < s.dev.clk)

/-- MMA (R271, R272, R281): held at the barrier until every member has one, then issued or trapped by the join. -/
def execMma (f : MFmt) (src : MmaSrc) (gran : BitVec 2) (row0 rows : BitVec 12) (s : State) : Out :=
  let i := Instr.mma f src gran row0 rows
  gate i s
    (match s.core.joinedWait with
     | some (some (c, v), _) => .next ((s.setCore s.core.dropJoined).trap c v)
     | some (none, some op) => .next (s.issueMma op)
     | some (none, none) => .next s
     | none =>
       if s.core.level ≠ 0 || !s.core.task.wide then .next (s.trap 0x0E 0)
       else if s.goneMask ≠ 0 then .next (s.trap 0x0E s.goneMask)
       else if s.core.acquiring || s.core.mqFull || (s.core.num == 0 && !s.core.sbFree 1) then stall s
       else
         let s := s.setCore { s.core with heldMma := some i }
         if s.cores.all fun c => c.heldMma.isSome then s.mmaJoin.stallOnce else stall s)

/-! ## Rows and columns (R269, R270, R275)

Each command goes on by one row or column a clk at most, and completes as a step of its own. -/

def MCmd.isMma (m : MCmd) : Bool :=
  match m.op with
  | .mma _ _ _ _ _ _ _ _ _ _ _ => true
  | _ => false

/-- Rows of an MMA that have entered the array. -/
def MOp.entered : MOp → Nat
  | .mma _ _ _ _ _ _ _ _ _ d _ => d
  | _ => 0

/-- An MMA with rows still to enter. -/
def MCmd.enters (m : MCmd) : Bool := m.isMma && decide (m.op.entered < m.op.total)

/-- The command is still to finish with the row, for those of the same core that come after it. -/
def MCmd.holds (r : Nat) (m : MCmd) : Bool :=
  match m.op with
  | .azero row0 n => decide (row0 + m.done ≤ r) && decide (r < row0 + n)
  | .awr row0 rs => decide (row0 + m.done ≤ r) && decide (r < row0 + rs.length)
  | .ast _ _ row0 n _ => decide (row0 + m.done ≤ r) && decide (r < row0 + n)
  | .ard row0 g => m.got.isEmpty && decide (row0 ≤ r) && decide (r < row0 + g)
  | .wldScratch _ _ _ _ _ | .wldVec _ _ _ _ | .mma _ _ _ _ _ _ _ _ _ _ _ => false

/-- No earlier command of the core is still to finish with the row. A later AZERO or AWR keeps this order too (DEDUCED, log
66). -/
def Core.rowFree (c : Core) (id r : Nat) : Bool := !(c.mq.any fun b => decide (b.id < id) && b.holds r)

/-- A WLD is latched after the earlier WLDs, and after the last row of the earlier MMAs has entered (R270). -/
def Core.latchFree (c : Core) (id : Nat) : Bool :=
  !(c.mq.any fun b => decide (b.id < id) &&
    match b.op with
    | .wldScratch _ _ _ _ _ => true
    | .wldVec _ _ _ _ => true
    | .mma _ _ _ _ _ _ _ _ _ _ _ => b.enters
    | .azero _ _ | .ard _ _ | .awr _ _ | .ast _ _ _ _ _ => false)

/-- The bytes of a row or column of a scratch operand. -/
def rowRange (f : MFmt) (first second : Word) (t i : Nat) : Nat × Nat := (rowAt first second t i, 256 + f.s)

/-- The next row or column of a command of a core may be read or written: it is due, ordered and unheld, and its pool banks
are free. -/
def State.unitReady (s : State) (c : Core) (m : MCmd) : Bool :=
  decide (m.due ≤ s.dev.clk) && !c.cmdHeld m.id &&
    match m.op with
    | .wldScratch f first second _ n => decide (m.got.length < n) && s.banksFree [rowRange f first second 0 m.got.length]
    | .azero row0 n => decide (m.done < n) && c.rowFree m.id (row0 + m.done)
    | .awr row0 rs => decide (m.done < rs.length) && c.rowFree m.id (row0 + m.done)
    | .ard row0 g => m.got.isEmpty && (List.range g).all fun j => c.rowFree m.id (row0 + j)
    | .ast f base row0 n pitch =>
      decide (m.done < n) && c.rowFree m.id (row0 + m.done) && s.banksFree [(base.toNat + m.done * pitch, f.rowBytes)]
    | .wldVec _ _ _ _ | .mma _ _ _ _ _ _ _ _ _ _ _ => false

/-- A command of the core in focus replaced. -/
def State.putCmd (s : State) (m : MCmd) : State := s.setCore { s.core with mq := s.core.mq.map fun x => if x.id = m.id then m else x }

/-- AZERO and AWR: a row written, which stays unpredictable, until the next write after the release, where an earlier MMA owns
it (R269). -/
def State.putRow (s : State) (id r : Nat) (v : VReg) : State :=
  let rest := s.core.wild.filter fun x => x != r
  if s.core.ownsRow id r then
    (s.setCore { s.core.setAcc { row := r, data := Config.freeRow s.free, poison := false } with wild := r :: rest }).takeFree
  else s.setCore { s.core.setAcc { row := r, data := v, poison := false } with wild := rest }

/-- A row as AST writes it. -/
def astRow (f : AFmt) (v : VReg) : List Byte × BitVec 5 :=
  let xs := (List.range 64).map fun n => convert f.fmt false .fp32 false (elemCode 32 v n)
  (xs.flatMap fun x => leBytes (f.fmt.bits / 8) x.1, xs.foldl (fun g x => g ||| x.2) 0)

/-- AST: a row stored as an engine write, a poisoned row leaving its granules poisoned (R274, R283); with its flags. The
unpredictability of an owned row, and of one that an AZERO or AWR has left unpredictable, is confined to its bytes (R269). -/
def State.storeRow (s : State) (f : AFmt) (id a r : Nat) : State × BitVec 5 :=
  let open' := s.core.ownsRow id r || s.core.wild.contains r
  let (s, x) := s.takeRow s.core id r
  let (bs, fl) := astRow f x.data
  let s := (s.holdBanks [(a, bs.length)]).store s.core.task.space a bs false true
  (if x.poison then (granules a bs.length).foldl (fun s p => s.setPoison p true) s else s, if open' then 0 else fl)

/-- ARD: rows read. -/
def State.readRows (s : State) (id : Nat) : List Nat → State × List (VReg × BitVec 128 × Bool)
  | [] => (s, [])
  | r :: rs =>
    let (s, x) := s.takeRow s.core id r
    let (s, xs) := s.readRows id rs
    (s, (x.data, 0, x.poison) :: xs)

/-- When the next row of a command comes, `n` being done; the last completes it. -/
def nextRow (clk n total : Nat) : Nat := if n < total then clk + 1 else clk

/-- One row or column of a command of the core in focus. -/
def State.doUnit (s : State) (m : MCmd) : State :=
  let clk := s.dev.clk
  match m.op with
  | .wldScratch f first second _ n =>
    let j := m.got.length
    let x := s.scratchRow f first second 0 j
    (s.holdBanks [rowRange f first second 0 j]).putCmd
      { m with got := m.got ++ [(x.data, x.scales, x.poison)], due := if j + 1 < n then clk + 1 else clk + 4 }
  | .azero row0 n => (s.putRow m.id (row0 + m.done) 0).putCmd { m with done := m.done + 1, due := nextRow clk (m.done + 1) n }
  | .awr row0 rs =>
    (s.putRow m.id (row0 + m.done) (rs.getD m.done 0)).putCmd
      { m with done := m.done + 1, due := nextRow clk (m.done + 1) rs.length }
  | .ard row0 g =>
    let (s, xs) := s.readRows m.id ((List.range g).map (row0 + ·))
    s.putCmd { m with got := xs, due := clk + 3 + g }
  | .ast f base row0 n pitch =>
    let (s, g) := s.storeRow f m.id (base.toNat + m.done * pitch) (row0 + m.done)
    s.putCmd { m with done := m.done + 1, flags := m.flags ||| g, due := nextRow clk (m.done + 1) n }
  | .wldVec _ _ _ _ | .mma _ _ _ _ _ _ _ _ _ _ _ => s

/-- The first core with a row or column to do, in focus, after it. -/
def State.cmdUnit (s : State) : Option State :=
  (s.focus fun c => c.mq.any (s.unitReady c)).bind fun t => (t.core.mq.find? (t.unitReady t.core)).map t.doUnit

/-! ## The gang's MMAs -/

/-- The MMA of a member whose rows enter. -/
def Core.enterMma (c : Core) : Option MCmd := c.mq.find? MCmd.enters

/-- The oldest MMA of a member. -/
def Core.headMma (c : Core) : Option MCmd := c.mq.find? MCmd.isMma

/-- The gang's MMA whose rows enter, as core 0 has it. -/
def State.gangMma (s : State) : Option MCmd := if s.cores.all fun c => c.enterMma.isSome then (s.coreNo 0).enterMma else none

/-- Rows that a command writes before a later MMA may enter them (R270). -/
def MOp.entryRows : MOp → Option (Nat × Nat)
  | .azero row0 n => some (row0, n)
  | .awr row0 rs => some (row0, rs.length)
  | _ => none

/-- An MMA waits for the completion of the command: a WLD, or an AZERO or AWR on its rows. -/
def MOp.delays (op later : MOp) : Bool :=
  match op, later with
  | .wldScratch _ _ _ _ _, .mma _ _ _ _ _ _ _ _ _ _ _ => true
  | .wldVec _ _ _ _, .mma _ _ _ _ _ _ _ _ _ _ _ => true
  | o, .mma _ row0 rows tiles _ _ _ _ _ _ _ => o.entryRows.any fun x => decide (x.1 < row0 + rows * tiles) && decide (row0 < x.1 + x.2)
  | _, _ => false

/-- A member is ready for the next row of the gang's MMA. -/
def Core.rowReady (c : Core) : Bool :=
  c.enterMma.any fun m =>
    !(c.mq.any fun b => decide (b.id < m.id) && b.op.delays m.op) &&
      c.rowFree m.id (((m.op.rows.map (·.1)).getD 0) + m.op.entered)

/-- The bytes that activation row `r` of a command is read from. -/
def MOp.actRanges : MOp → Nat → List (Nat × Nat)
  | .mma f _ rows _ _ first second map _ _ _, r =>
    match map with
    | none => [rowRange f first second (r / rows) (r % rows)]
    | some d => ((List.range f.k).filterMap (mapTap d (f.bits / 8) (second.toNat + r))).map fun a => (a, f.bits / 8)
  | _, _ => []

/-- Activation row `r` of a command. -/
def State.actRow (s : State) : MOp → Nat → ActRow
  | .mma f _ rows _ _ first second map _ _ _, r =>
    match map with
    | none => scratchAct f (s.scratchRow f first second (r / rows) (r % rows))
    | some d => s.mapAct f d (second.toNat + r)
  | _, _ => { elems := [], scales := 0, poison := false }

/-- Rows of a split granule; 0 is never (R276). -/
def granRows (g : BitVec 2) : Nat := if g = 0 then 16 else if g = 1 then 64 else if g = 2 then 256 else 0

/-- The rows entered make whole granules, and more are to come. -/
def MOp.atGranule : MOp → Bool
  | .mma _ _ rows tiles g _ _ _ _ d _ => granRows g != 0 && d != 0 && d % granRows g == 0 && decide (d < rows * tiles)
  | _ => false

/-- The waits that a saved firing takes with it (R331); an MWAIT waits on for the MMA that its save splits. -/
def Wait.keeps : Wait → Bool
  | .sqwait _ | .wsleep _ _ | .waitp _ _ _ _ _ _ _ _ | .ending | .transfers | .mwait _ _ _ => true
  | .committing | .fence _ _ _ | .held _ | .joined _ _ => false

/-- A core stands between groups, or sleeps in one whose slot has issued. -/
def Core.between (c : Core) : Bool := !c.grp.live || (c.grp.issued && !c.wait.isEmpty && c.wait.all Wait.keeps)

/-- A member that could stop for a save as it stands: no command but the gang's MMA is in its queue. -/
def Core.mayStop (c : Core) : Bool :=
  (c.status == .stopped || (c.status == .running && c.between && c.wait.all Wait.keeps)) && decide (c.mq.length ≤ 1)

/-- The MMA's next granule waits: a pre-emption has been asked for, and every member could stop at this boundary (R135,
R276). -/
def State.paused (s : State) : Bool :=
  s.gangMma.any fun m => m.op.atGranule && s.cores.all fun c => c.preempt && c.mayStop

/-- The next row of the gang's MMA may enter. -/
def State.rowDue (s : State) : Bool :=
  s.gangMma.any fun m =>
    decide (m.due ≤ s.dev.clk) && !(s.coreNo 0).cmdHeld m.id && s.cores.all Core.rowReady && !s.paused &&
      s.banksFree (m.op.actRanges m.op.entered)

/-- A member's MMA has taken a row, with its flags. -/
def MOp.tookRow (g : BitVec 5) : MOp → MOp
  | .mma f row0 rows tiles gr a b mp l d fl => .mma f row0 rows tiles gr a b mp l (d + 1) (fl ||| g)
  | op => op

/-- The pace of an MMA. -/
def MOp.pace : MOp → Nat
  | .mma _ _ _ _ _ _ _ mp _ _ _ => rowPace mp
  | _ => 1

/-- The MMAs behind one whose last row enters at `clk` enter from the next clk. -/
def notBefore (clk : Nat) (m : MCmd) : MCmd := if m.isMma && m.op.entered == 0 then { m with due := max m.due (clk + 1) } else m

/-- One activation row into one member's accumulators: its next row comes at the MMA's pace, and it completes 16 clk after its
last (R273, R275). A row that an AZERO or AWR has left unpredictable gives no flags: its unpredictability is the row's alone
(R5, R269). -/
def Core.mmaRow (c : Core) (clk : Nat) (a : ActRow) : Core :=
  match c.enterMma with
  | some m =>
    match m.op with
    | .mma f row0 rows tiles _ _ _ _ _ r _ =>
      let old := c.accRow (row0 + r)
      let x := rowSum f a c.slice old.data
      let fl := if c.wild.contains (row0 + r) then 0 else x.2
      let c := c.setAcc { row := row0 + r, data := x.1, poison := old.poison || a.poison || c.slice.poisoned }
      let last := r + 1 = rows * tiles
      let m' := { m with op := m.op.tookRow fl, due := if last then clk + 16 else clk + m.op.pace, cut := false }
      { c with mq := c.mq.map fun y => if y.id = m.id then m' else if last then notBefore clk y else y }
    | _ => c
  | none => c

/-- The next row of the gang's MMA enters. -/
def State.enterRow (s : State) : State :=
  match s.gangMma with
  | none => s
  | some m =>
    let r := m.op.entered
    let a := s.actRow m.op r
    ((s.holdBanks (m.op.actRanges r)).mapCores fun c => c.mmaRow s.dev.clk a).count .mmaRows 1

/-! ## Completion -/

/-- A completed command leaves the queue, its scoreboard entry freed. -/
def Core.popCmd (c : Core) (id : Nat) : Core :=
  { c with mq := c.mq.filter fun m => m.id != id, sb := c.sb.filter fun r => r.id != id }

/-- A command that is no MMA has done its rows, and completes. -/
def MCmd.finished (c : Core) (clk : Nat) (m : MCmd) : Bool :=
  decide (m.due ≤ clk) &&
    match m.op with
    | .wldScratch _ _ _ _ n => decide (n ≤ m.got.length) && c.latchFree m.id
    | .wldVec _ _ _ _ => c.latchFree m.id
    | .azero _ n => decide (n ≤ m.done)
    | .awr _ rs => decide (rs.length ≤ m.done)
    | .ard _ _ => !m.got.isEmpty
    | .ast _ _ _ n _ => decide (n ≤ m.done)
    | .mma _ _ _ _ _ _ _ _ _ _ _ => false

/-- The command of a core that completes next. -/
def State.cmdDue (s : State) (c : Core) : Option MCmd := c.mq.find? (MCmd.finished c s.dev.clk)

/-- The gang's oldest MMA completes: its last row has been written. -/
def State.mmaDue (s : State) : Bool :=
  s.cores.all fun c => c.headMma.any fun m => !m.enters && decide (m.due ≤ s.dev.clk)

/-- ARD's rows to the registers owed; a poisoned row marks its register faulted (R282). -/
def Core.putRows (c : Core) (id r : Nat) : List Dest → List (VReg × BitVec 128 × Bool) → Core
  | d :: ds, x :: xs =>
    let c := ({ c with owed := c.owed.filter fun y => y != (id, d) }).outdate id [d]
    let c :=
      if x.2.2 then { c with faults := c.faults ++ [(d, { id := id, cause := 0x0C, tval := BitVec.ofNat 64 r })] }
      else
        match d with
        | .v v => c.setV v x.1
        | .n _ | .m _ | .tm _ | .lc _ | .gone => c
    c.putRows id (r + 1) ds xs
  | _, _ => c

/-- The columns that a scratch WLD has read, latched. -/
def Slice.take (w : Slice) (f : MFmt) (first second : Word) (c0 n : Nat) (got : List (VReg × BitVec 128 × Bool)) : Slice :=
  w.load f c0 (got.map fun x => { data := x.1, scales := x.2.1, poison := x.2.2 }) (.scratch f first second c0 n)

/-- What the completion of a command of the core in focus leaves. -/
def State.performCmd (s : State) (m : MCmd) : State :=
  match m.op with
  | .wldScratch f first second c0 n =>
    (s.setCore { s.core with slice := s.core.slice.take f first second c0 n m.got }).count .wldColumns n
  | .wldVec f cols sc c0 =>
    (s.setCore { s.core with slice := s.latch s.core.slice (.vec f cols sc c0) }).count .wldColumns cols.length
  | .ard row0 _ => s.setCore (s.core.putRows m.id row0 (s.core.owedTo m.id) m.got)
  | .ast _ _ row0 rows _ => s.setCore { s.core with mflags := s.core.mflags ++ [(m.id, row0, rows, m.flags)] }
  | .azero _ _ | .awr _ _ | .mma _ _ _ _ _ _ _ _ _ _ _ => s

/-- The MMAs of a queue whose number in it meets `p`, none of whose rows has entered, enter from the clk after `clk`. -/
def delayMmas (p : Nat → Bool) (clk : Nat) : Nat → List MCmd → List MCmd
  | _, [] => []
  | k, m :: ms =>
    if m.isMma then (if p k then notBefore clk m else m) :: delayMmas p clk (k + 1) ms else m :: delayMmas p clk k ms

/-- An END that waits for a command that completes now ends its firing in the next clk (R275). -/
def Core.endsAfter (c : Core) (clk : Nat) : Core := if c.wait = [.ending] then { c with issueAt := max c.issueAt (clk + 1) } else c

/-- A command of the core in focus has completed: the gang's MMAs that waited for it enter from the next clk, and an END that
waited for it goes on then. -/
def State.entersAfter (s : State) (op : MOp) : State :=
  let ms := s.core.mq.filter MCmd.isMma
  let p (k : Nat) : Bool := (ms[k]?).any fun m => op.delays m.op
  let s := s.setCore (s.core.endsAfter s.dev.clk)
  s.mapCores fun c => { c with mq := delayMmas p s.dev.clk 0 c.mq }

/-- A completed MMA leaves a member's queue, its flags kept until they merge. -/
def Core.endMma (c : Core) : Core :=
  match c.headMma with
  | some m =>
    match m.op with
    | .mma _ row0 rows tiles _ _ _ _ _ _ fl => { c.popCmd m.id with mflags := c.mflags ++ [(m.id, row0, rows * tiles, fl)] }
    | _ => c
  | none => c

/-- MATRIX_COMMAND_COMPLETION: the oldest command of a core that is done, or the gang's MMA, completes. -/
def execMatrixCommandCompletion (s : State) : Out :=
  match s.focus fun c => (s.cmdDue c).isSome with
  | some t =>
    match t.cmdDue t.core with
    | some m => .next (((t.performCmd m).setCore ((t.performCmd m).core.popCmd m.id)).entersAfter m.op)
    | none => .next s
  | none => .next (if s.mmaDue then s.mapCores (fun c => c.endMma.endsAfter s.dev.clk) else s)

/-- The MMA stands at a boundary: the rows of its last granule have been written (R276). -/
def State.splitDue (s : State) : Bool :=
  s.paused && s.gangMma.any fun m => !m.cut && decide (m.due + 16 ≤ s.dev.clk + m.op.pace)

/-- SPLIT_GRANULE_BOUNDARY: the gang's MMA is at a split-granule boundary, where it may be saved. -/
def execSplitGranuleBoundary (s : State) : Out :=
  .next (if s.splitDue then s.mapCores fun c => { c with mq := c.mq.map fun m => if m.isMma then { m with cut := true } else m } else s)

/-- POWER_GOVERNOR (R11, R278): issue slots are withheld; each delays the later rows of the MMA that waits for it by one clk, from
when its next row is due or, where something else has held that row, from this clk. -/
def execPowerGovernor (slots : Nat) (s : State) : Out :=
  let waits : Bool := s.gangMma.any fun m => decide (m.op.entered ≠ 0) || decide (m.due ≤ s.dev.clk)
  let late (c : Core) : Core :=
    { c with mq := c.mq.map fun m =>
        if waits && some m.id == c.enterMma.map (·.id) then { m with due := max m.due s.dev.clk + slots } else m }
  .next (((s.mapCores late).setDev { s.dev with throttle := s.dev.throttle + slots }).count .throttleSlots slots)

end Sys2Proof.Machine
end

