-- ==== Sys2Proof/Machine/Pull.lean ====
section
/-! DEFINITION. The pull engine (chapter 14): channels, transfers and their lines, promises, address groups and the
pull-family instructions. -/

namespace Sys2Proof.Machine

/-! ## Channels (R239-R241) -/

def State.chan (s : State) (ch : Fin 16) : Chan := s.cl.chans[ch]

def State.setChan (s : State) (ch : Fin 16) (c : Chan) : State := s.setCl { s.cl with chans := s.cl.chans.set ch c }

/-- The record of a channel in the near window. -/
def State.chanAt (s : State) (ch : Fin 16) : Nat := s.chanArea + 64 * ch.val

/-- A word of a channel's record. -/
def State.chanWord (s : State) (ch : Fin 16) (k : Nat) : Word := Mem.word s.mem (s.chanAt ch + 8 * k)

/-- The space the cluster's engines use. -/
def State.engineSpace (s : State) : BitVec 16 := (s.cl.bound.map (·.space)).getD 0

/-- The engine writes a word of a channel's record. -/
def State.setChanWord (s : State) (ch : Fin 16) (k : Nat) (v : Word) : State :=
  s.store s.engineSpace (s.chanAt ch + 8 * k) (leBytes 8 v.toNat) false false

/-- A transfer replaced. -/
def State.putXfer (s : State) (ch : Fin 16) (t : Transfer) : State :=
  let c := s.chan ch
  s.setChan ch { c with xfers := c.xfers.map fun x => if x.xid = t.xid then t else x }

def State.xfer (s : State) (ch : Fin 16) (xid : Nat) : Option Transfer := (s.chan ch).xfers.find? fun t => t.xid == xid

/-- A line of a transfer replaced. -/
def Transfer.putLine (t : Transfer) (j : Nat) (l : PullLine) : Transfer := { t with lines := t.lines.set j l }

/-- Every contribution to the line has arrived. -/
def PullLine.full (l : PullLine) : Bool := max 1 l.src.length ≤ l.arrivals.length

/-- The fault word (R241). -/
def faultWord (cause : Byte) (member xid : Nat) (old : Word) : Word :=
  (cause ++ BitVec.ofNat 5 member ++ (if old = 0 then 0#1 else 1#1) ++ 0#2 ++ BitVec.ofNat 48 xid : BitVec 64)

/-- The failure that a transfer's fault word names: that of a source, else that of a destination line (R241, R256). -/
def Transfer.failure (t : Transfer) : Option (Byte × Nat) := t.fault <|> t.dstFault.map fun c => (c, 0)

/-- One transfer completes: its fault word, its GENs and flags kept, its scoreboard entries freed. -/
def State.completeXfer (s : State) (ch : Fin 16) (t : Transfer) : State :=
  let s :=
    match t.failure with
    | none => s
    | some (c, m) =>
      let s := s.setChanWord ch 1 (faultWord c m t.xid (s.chanWord ch 1))
      (s.setChanWord ch 2 (s.chanWord ch 2 + 1)).count .pullFaults 1
  let c := s.chan ch
  let s := s.setChan ch
    { c with xfers := c.xfers.filter fun x => x.xid != t.xid
             faulted := if t.failure.isSome then c.faulted ++ [t.xid] else c.faulted
             ends := { xid := t.xid, cmd := t.cmd, owner := t.owner, firing := t.firing, gens := t.gens, flags := t.flags } :: c.ends }
  s.mapCores fun k => { k with sb := k.sb.filter fun r => r.id != t.cmd }

/-- The completion word advances over the completed transfers, as one release (R240). -/
def State.advanceChan (s : State) (ch : Fin 16) : State :=
  let ts := (s.chan ch).xfers.takeWhile fun t => t.lines.all (·.done)
  if ts.isEmpty then s
  else ((ts.foldl (fun s t => s.completeXfer ch t) s).advance s.engineSpace (s.chanAt ch) (BitVec.ofNat 64 ts.length)).1

/-- A channel whose oldest transfer has completed; the home performs one release a clk (R188). -/
def State.completeDue (s : State) : Option (Fin 16) :=
  if !s.mayRelease then none
  else (List.finRange 16).find? fun ch => ((s.chan ch).xfers.head?).any fun t => t.lines.all (·.done)

/-! ## Destination lines (R243, R256) -/

/-- A failure recorded for a transfer: the first, or that of the lowest-numbered member of a PULLR. -/
def Transfer.fail (t : Transfer) (cause : Byte) (member : Nat) : Transfer :=
  match t.fault with
  | none => { t with fault := some (cause, member) }
  | some (_, m) => if member < m then { t with fault := some (cause, member) } else t

/-- 16 FP32 values of a line rounded to BF16. -/
def toBf16 (l : Line) : List Byte × BitVec 5 :=
  let xs := (List.range 16).map fun k => convert .bf16 false .fp32 false (l.toNat / 2 ^ (32 * k) % 2 ^ 32)
  (xs.flatMap fun x => leBytes 2 x.1, xs.foldl (fun g x => g ||| x.2) 0)

/-- The bytes that a complete line writes, with the flags of their rounding. -/
def PullLine.bytes (k : XferKind) (l : PullLine) : List Byte × BitVec 5 :=
  match k with
  | .copy => (lineBytes l.partialSum, 0)
  | .gather => (lineBytes l.partialSum, 0)
  | .reduce .bf16 true _ => ((toBf16 l.partialSum).1 ++ (toBf16 l.partialHi).1, (toBf16 l.partialSum).2 ||| (toBf16 l.partialHi).2)
  | .reduce .bf16 false _ => (lineBytes l.partialSum ++ lineBytes l.partialHi, 0)
  | .reduce .fp32 true _ => toBf16 l.partialSum
  | .reduce .fp32 false _ => (lineBytes l.partialSum, 0)
  | .reduce .int32 _ _ => (lineBytes l.partialSum, 0)

/-- The lines that are written with line `j`: two source lines of a PULLR from FP32 to BF16 make one destination line. -/
def Transfer.unit (t : Transfer) (j : Nat) : List Nat :=
  match t.kind with
  | .reduce .fp32 true _ => [j / 2 * 2, j / 2 * 2 + 1]
  | _ => [j]

/-- The destination lines of a unit: one source line of a PULLR from BF16 to FP32 makes two. -/
def Transfer.destLines (t : Transfer) : Nat :=
  match t.kind with
  | .reduce .bf16 false _ => 2
  | _ => 1

/-- The lines of a unit. -/
def Transfer.pick (t : Transfer) (js : List Nat) : List PullLine := js.filterMap fun j => t.lines[j]?

/-- A unit is ready to be written. -/
def Transfer.unitFull (t : Transfer) (js : List Nat) : Bool :=
  (t.pick js).all fun l => l.full && !l.done

/-- Every line of a unit is done. -/
def Transfer.closeUnit (t : Transfer) (js : List Nat) : Transfer :=
  js.foldl (fun t j =>
    match t.lines[j]? with
    | some l => t.putLine j { l with done := true }
    | none => t) t

/-- Bit `k` of `settled` says that destination line `k` of the unit is settled; bit `k + 2`, that its page has been asked of
the stokers. -/
def PullLine.isSettled (l : PullLine) (k : Nat) : Bool := l.settled.testBit k

/-- Destination line `k` of the unit of line `j` is settled; the last closes the unit. -/
def Transfer.settleBit (t : Transfer) (j k : Nat) : Transfer :=
  match t.lines[j]? with
  | none => t
  | some l =>
    let l := { l with settled := l.settled ||| 2 ^ k }
    let t := t.putLine j l
    if (List.range t.destLines).all l.isSettled then t.closeUnit (t.unit j) else t

/-- Destination lines of a transfer that are not yet settled. -/
def Transfer.destLeft (t : Transfer) : Nat :=
  (t.lines.zipIdx.map fun l =>
    if l.1.done || (t.unit l.2).head? != some l.2 then 0
    else ((List.range t.destLines).filter fun k => !l.1.isSettled k).length).sum

/-- A destination line fails: a transfer of one source takes the first failure, one of several its sources' (R256). -/
def Transfer.failDest (t : Transfer) (cause : Byte) : Transfer :=
  match t.kind with
  | .reduce _ _ _ => { t with dstFault := t.dstFault <|> some cause }
  | .copy => t.fail cause 0
  | .gather => t.fail cause 0

/-- What becomes of a destination line now. -/
inductive DestEnd where
  | wait
  | ask
  | fail (cause : Byte)
  | write
deriving DecidableEq, Repr

/-- Destination line `k` of a unit that is full: it waits for an earlier access that the scoreboard orders before it, for its
page and for its pool banks; or it fails, or is written (R243, R248). -/
def State.destEnd (s : State) (t : Transfer) (l : PullLine) (k : Nat) : DestEnd :=
  let off := l.dst.toNat + 64 * k
  if s.cores.any (fun c => c.cmdHeld t.cmd) || s.migBlocked s.engineSpace (.st (BitVec.ofNat 40 off) (List.replicate 64 0)) then .wait
  else
    match (s.checkLines s.engineSpace .store (granules off 64)).2 with
    | some (.notResident _ _) => if l.settled.testBit (k + 2) then .wait else .ask
    | some .unmapped => .fail 0x08
    | some (.trap c _) => .fail c
    | none => if s.banksFree [(off, 64)] then .write else .wait

/-- Destination line `k` of the unit of line `j` is written, or poisoned where a contribution failed; a page in a tier is asked
of the stokers. -/
def State.settle (s : State) (ch : Fin 16) (xid j k : Nat) : State :=
  match s.xfer ch xid with
  | none => s
  | some t =>
    let ls := t.pick (t.unit j)
    match ls.head? with
    | none => s
    | some l =>
      let off := l.dst.toNat + 64 * k
      let sp := s.engineSpace
      match s.destEnd t l k with
      | .wait => s
      | .ask =>
        (s.putXfer ch (t.putLine j { l with settled := l.settled ||| 2 ^ (k + 2) })).send
          (.pageInWanted sp (s.lineVa off &&& ~~~0xFFF))
      | .fail c => s.putXfer ch ((t.failDest c).settleBit j k)
      | .write =>
        let s := ((s.checkLines sp .store (granules off 64)).1).holdBanks [(off, 64)]
        if ls.any fun l => l.arrivals.any fun a => a.failed.isSome then
          (((s.poisonAt sp off).stampAt sp off).putXfer ch (t.settleBit j k)).count .pullPoisoned 1
        else
          let outs := ls.map (PullLine.bytes t.kind)
          let fl := outs.foldl (fun g x => g ||| x.2) t.flags
          (s.store sp off (((outs.flatMap (·.1)).drop (64 * k)).take 64) false true).putXfer ch ({ t with flags := fl }.settleBit j k)

/-- A destination line of a full unit that may go on now, of the transfers that pass `p`. -/
def State.settleDue (s : State) (p : Transfer → Bool := fun _ => true) : Option (Fin 16 × Nat × Nat × Nat) :=
  (List.finRange 16).findSome? fun ch => ((s.chan ch).xfers.filter p).findSome? fun t =>
    t.lines.zipIdx.findSome? fun l =>
      if (t.unit l.2).head? != some l.2 || !t.unitFull (t.unit l.2) then none
      else
        (List.range t.destLines).findSome? fun k =>
          if !l.1.isSettled k && s.destEnd t l.1 k != .wait then some (ch, t.xid, l.2, k) else none

/-! ## Posting and arrivals (R242) -/

/-- A request of a line at one member is outstanding. -/
def PullLine.outstanding (l : PullLine) (m : Nat) : Bool :=
  (l.asked.any fun a => a.1 == m) && !(l.arrivals.any fun a => a.member == m)

/-- Requests in flight. -/
def State.inFlight (s : State) : Nat :=
  (s.cl.chans.toList.map fun c =>
    (c.xfers.map fun t => (t.lines.map fun l => l.asked.length - min l.asked.length l.arrivals.length).sum).sum).sum

/-- The lines of a transfer not yet arrived, counted by member. -/
def Transfer.linesLeft (t : Transfer) : Nat := (t.lines.map fun l => l.src.length - min l.src.length l.arrivals.length).sum

/-- The lines of a transfer as the promise counts them (R246): those of a bad row of PULLG among them. -/
def lineCount (ls : List PullLine) : Nat := (ls.map fun l => max 1 l.src.length).sum

/-- The first request of a transfer that is not posted. -/
def Transfer.unposted (t : Transfer) : Option (Nat × Nat) :=
  t.lines.zipIdx.findSome? fun l =>
    ((List.range l.1.src.length).find? fun m => !(l.1.asked.any fun a => a.1 == m)).map fun m => (l.2, m)

/-- The homes of the lines of a gather that are posted and not yet done: each holds one of its 32 source counters (R238,
R254). -/
def Transfer.counters (t : Transfer) : List (BitVec 17) :=
  ((t.lines.filter fun l => !l.asked.isEmpty && !l.done).flatMap fun l => l.src.map homeOf).dedup

/-- A counter is free for a line, or its home has one. -/
def Transfer.mayPost (t : Transfer) (j : Nat) : Bool :=
  match t.kind with
  | .gather =>
    let hs := ((t.lines[j]?.map (·.src)).getD []).map homeOf
    decide (t.counters.length < 32) || hs.all t.counters.contains
  | .copy => true
  | .reduce _ _ _ => true

/-- The scoreboard holds a transfer's accesses. -/
def State.xferHeld (s : State) (t : Transfer) : Bool := s.cores.any fun c => c.cmdHeld t.cmd

/-- The request that a channel's transfers of a class post next, in ID order: the first transfer with a line to post has it, or
makes the others wait. -/
def State.chanPost (s : State) (ch : Fin 16) (k : Nat) : Option (Fin 16 × Nat × Nat × Nat) :=
  match (s.chan ch).xfers.find? fun t => t.cls.toNat = k && t.unposted.isSome with
  | none => none
  | some t =>
    if decide (t.start ≤ s.dev.clk) && !s.xferHeld t then
      t.unposted.bind fun x => if t.mayPost x.1 then some (ch, t.xid, x.1, x.2) else none
    else none

/-- The request posted next: the highest class, the next channel of it in turn, in ID order; one a clk, and the first of a
transfer 8 clk after its issue (R238, R242, R246). -/
def State.postDue (s : State) : Option (Fin 16 × Nat × Nat × Nat) :=
  if s.dev.clk < s.cl.postAt || 2048 ≤ s.inFlight then none
  else ([1, 2, 3] : List (Fin 4)).findSome? fun k => (List.finRange 16).findSome? fun i => s.chanPost (s.cl.postCh[k] + 1 + i) k.val

/-- The reply that a home of the model gives to an engine's line read, and the state after it; none while its page is not
resident. -/
def State.serveLine (s : State) (h : BitVec 17) (sp : BitVec 16) (off : Nat) : Option (State × LineReply) :=
  if h = s.service then
    match s.serviceLine sp off .load with
    | (_, .notResident _ _) => none
    | x => some x
  else
    match s.serveCheck sp off 64 with
    | (_, some (.notResident _ _)) => none
    | (s, some .unmapped) => some (s, .fault 0x08)
    | (s, some (.trap c _)) => some (s, .fault c)
    | (s, none) =>
      let p := (s.granulePoison sp off).2
      let (s, bs) := (s.useBanks [(off, 64)]).readAt sp off 64 false
      some (s, .data s.cl.gen (lineOfBytes bs) p)

/-- A line is requested. -/
def State.askPull (s : State) (ch : Fin 16) (xid j m : Nat) (x : Word) : State :=
  let h := homeOf x
  let reply (r : LineReply) : State := s.queue (.pullLineResponse ch xid j m r)
  if s.lostDev (devOf h) && !s.logged h then reply .lost
  else
    match s.farCheck x <|> s.hostCheck x 64 with
    | some c => reply (.fault c)
    | none =>
      if s.logged h then s
      else if h.extractLsb' 0 7 = 126#7 then
        s.askPcie s.windowFn (pullReq ch xid j m) ((s.cl.bound.map (·.hwbase)).getD 0 + (offOf x).setWidth 64)
      else if s.served h then
        if (s.serveLine h s.engineSpace (offOf x).toNat).isNone then s.send (.pageInWanted s.engineSpace (x &&& ~~~0xFFF)) else s
      else s.request (pullReq ch xid j m) h s.engineSpace 0x01 (.pullReq ch xid j m x)

/-- A request is posted, or repeated. -/
def State.post (s : State) (ch : Fin 16) (xid j m : Nat) : State :=
  match s.xfer ch xid with
  | none => s
  | some t =>
    match t.lines[j]? with
    | none => s
    | some l =>
      let l' := { l with asked := (m, s.dev.clk) :: l.asked.filter fun a => a.1 != m }
      ((s.putXfer ch (t.putLine j l')).count .pullLines 1).askPull ch xid j m (l.src.getD m 0)

/-- The engine's turn: the request is posted, and the next one a clk later at the earliest; the channel is the one that its class
has served last (R238, R385). -/
def State.postNext (s : State) (ch : Fin 16) (xid j m : Nat) : State :=
  let k : Fin 4 := Fin.ofNat 4 (((s.xfer ch xid).map (·.cls.toNat)).getD 0)
  (s.setCl { s.cl with postAt := s.dev.clk + 1, postCh := s.cl.postCh.set k ch }).post ch xid j m

/-- The task key of the firing that issued a transfer, while it runs. -/
def State.xferKey (s : State) (t : Transfer) : Word :=
  ((s.cores.find? fun c => c.num == t.owner && c.number == t.firing).map (·.task.key)).getD 0

/-- What a log keeps of a PULLR's arrival. -/
def orderWords (ch : Fin 16) (xid j m : Nat) : List Word :=
  [BitVec.ofNat 64 ch.val, BitVec.ofNat 64 xid, BitVec.ofNat 64 j, BitVec.ofNat 64 m]

/-- The next entries of a firing's log are the order entry of a line of its PULLR, behind the read of it where its home is
outside the hearth. -/
def State.orderNext (s : State) (ch : Fin 16) (t : Transfer) (j m : Nat) (x : Word) : Bool :=
  let es := s.replayLeft (s.xferKey t)
  let rest := if s.logged (homeOf x) then (if es.head?.any fun e => e.1.reads (readType (homeOf x)) x then es.drop 1 else []) else es
  rest.head?.any fun e => e.1.type == 0x04 && e.1.data == orderWords ch t.xid j m

/-- A replayed PULLR takes its lines in the logged order (R401). -/
def State.replayTurn (s : State) (ch : Fin 16) (t : Transfer) (j m : Nat) : Bool :=
  match t.kind with
  | .copy => true
  | .gather => true
  | .reduce _ _ _ => !s.replaying || s.orderNext ch t j m (((t.lines[j]?.map (·.src)).getD []).getD m 0)

/-- What a log keeps of a line beside its address: GEN, bytes and poison, or the cause of a failure. -/
def lineWords : LineReply → List Word
  | .data g d p => [g.setWidth 64] ++ ((List.range 8).map fun k => d.extractLsb' (64 * k) 64) ++ [if p then 1 else 0]
  | .fault c => [c.setWidth 64]
  | .lost => [0x14]
  | .notResident _ _ => [0x08]

/-- The response that a log holds for a line. -/
def loggedLine (data : List Word) : LineReply :=
  if data.length = 2 then failedLine (data.getD 1 0)
  else .data ((data.getD 1 0).setWidth 48) ((List.range 8).foldl (fun l k => putBits l (64 * k) 64 (data.getD (k + 2) 0).toNat) 0)
    (data.getD 10 0 != 0)
where
  /-- A failure: a lost home has cause 0x14. -/
  failedLine (c : Word) : LineReply := if c = 0x14 then .lost else .fault (c.setWidth 8)

/-- The requests of a transfer that are outstanding: line, member, address. -/
def Transfer.open (t : Transfer) : List (Nat × Nat × Word) :=
  t.lines.zipIdx.flatMap fun l =>
    ((List.range l.1.src.length).filter l.1.outstanding).map fun m => (l.2, m, l.1.src.getD m 0)

/-- The line of a transfer that is the next logged input of its firing, and is answered from the log. -/
def State.replayLine (s : State) (ch : Fin 16) (t : Transfer) : Option Instr :=
  (s.replayNext (s.xferKey t)).bind fun e =>
    (t.open.find? fun x =>
      s.logged (homeOf x.2.2) && e.1.reads (readType (homeOf x.2.2)) x.2.2 && s.replayTurn ch t x.1 x.2.1).map fun x =>
        .pullLineResponse ch t.xid x.1 x.2.1 (loggedLine e.1.data)

/-- A line of a home of the model may be read now: its pool banks are free, or home 127's path has been crossed (log 53). -/
def State.lineReady (s : State) (l : PullLine) (m : Nat) (x : Word) : Bool :=
  if homeOf x = s.home then s.banksFree [((offOf x).toNat, 64)]
  else homeOf x == s.service && !s.logged (homeOf x) && l.asked.any fun a => a.1 == m && decide (a.2 + serviceTime ≤ s.dev.clk)

/-- A line of a home of the model that is read now, of the transfers that pass `p`. -/
def State.pullDue (s : State) (p : Transfer → Bool := fun _ => true) : Option (State × Instr) :=
  (List.finRange 16).findSome? fun ch => ((s.chan ch).xfers.filter p).findSome? fun t => t.lines.zipIdx.findSome? fun l =>
    (List.range l.1.src.length).findSome? fun m =>
      let x := l.1.src.getD m 0
      if l.1.outstanding m && s.lineReady l.1 m x && s.replayTurn ch t l.2 m then
        (s.serveLine (homeOf x) s.engineSpace (offOf x).toNat).map fun r => (r.1, .pullLineResponse ch t.xid l.2 m r.2)
      else none

/-- A transfer's lines come before the accesses of the cluster's firings: class P1, while those have P2 (R385, R386). -/
def State.urgent (s : State) (t : Transfer) : Bool := t.cls == 1 && !(s.cl.bound.any (·.timed))

/-- A line that has not answered for 8 µs (R242). -/
def State.repeatDue (s : State) : Option Instr :=
  (List.finRange 16).findSome? fun ch => (s.chan ch).xfers.findSome? fun t => t.lines.zipIdx.findSome? fun l =>
    l.1.asked.findSome? fun a =>
      if l.1.outstanding a.1 && decide (a.2 + 8 * clkPerUs ≤ s.dev.clk) then some (.lineRerequest ch t.xid l.2 a.1) else none

/-- 16 words of a line, each combined. -/
def mapWords (f : Nat → Nat → Nat × BitVec 5) (a b : Line) : Line × BitVec 5 :=
  let xs := (List.range 16).map fun k => f (a.toNat / 2 ^ (32 * k) % 2 ^ 32) (b.toNat / 2 ^ (32 * k) % 2 ^ 32)
  (lineOfBytes (xs.flatMap fun x => leBytes 4 x.1), xs.foldl (fun g x => g ||| x.2) 0)

/-- Elements [16h, 16h + 16) of a BF16 line, or those of an FP32 line, as FP32 with default NaNs. -/
def contribution (f : RFmt) (h : Nat) (l : Line) : Line :=
  lineOfBytes ((List.range 16).flatMap fun k =>
    match f with
    | .fp32 => leBytes 4 (convert .fp32 false .fp32 false (l.toNat / 2 ^ (32 * k) % 2 ^ 32)).1
    | .bf16 => leBytes 4 (convert .fp32 false .bf16 false (l.toNat / 2 ^ (16 * (16 * h + k)) % 2 ^ 16)).1
    | .int32 => leBytes 4 (l.toNat / 2 ^ (32 * k) % 2 ^ 32))

/-- A contribution added to a partial result (R96). -/
def combine (f : RFmt) (first : Bool) (old new : Line) : Line × BitVec 5 :=
  if first then (new, 0)
  else
    match f with
    | .fp32 => mapWords (fpAdd .fp32) old new
    | .bf16 => mapWords (fpAdd .fp32) old new
    | .int32 => mapWords (fun a b => ((a + b) % 2 ^ 32, 0)) old new

/-- Data of member `m` arrives for a line. -/
def PullLine.take (k : XferKind) (l : PullLine) (m : Nat) (d : Line) : PullLine × BitVec 5 :=
  let first := l.arrivals.isEmpty
  let l' := { l with arrivals := l.arrivals ++ [({ member := m, failed := none } : Arrival)] }
  match k with
  | .copy => ({ l' with partialSum := d }, 0)
  | .gather => ({ l' with partialSum := d }, 0)
  | .reduce f _ _ =>
    let a := combine f first l.partialSum (contribution f 0 d)
    let b := combine f first l.partialHi (contribution f 1 d)
    match f with
    | .bf16 => ({ l' with partialSum := a.1, partialHi := b.1 }, a.2 ||| b.2)
    | .fp32 => ({ l' with partialSum := a.1 }, a.2)
    | .int32 => ({ l' with partialSum := a.1 }, a.2)

/-- What the capture log records of an arrived line, its data or the cause by which it failed (R399, R408). -/
def State.capturePull (s : State) (ch : Fin 16) (t : Transfer) (x : Word) (j m : Nat) (r : LineReply) : State :=
  let key := s.xferKey t
  let s := s.captureRead (homeOf x) key (x :: lineWords r)
  match t.kind with
  | .reduce _ _ _ => s.input 0x04 key (orderWords ch t.xid j m)
  | .copy => s
  | .gather => s

/-- The pull has failed with a lost home: a FENCE.P of its firing counts it once (R195). -/
def State.pullLost (s : State) (t : Transfer) : State :=
  if t.lostHome then s
  else s.mapCores fun c => if c.num = t.owner ∧ c.number = t.firing then c.countLost else c

/-- The first response of a tag. The flags that a PULLR line's partial sums have raised stay with the transfer, and merge with it, when
a later contribution fails and poisons the line: the manual states neither (DESIGN CHOICE, log 78). -/
def State.lineArrives (s : State) (ch : Fin 16) (t : Transfer) (l : PullLine) (line member : Nat) (r : LineReply) : State :=
  let x := l.src.getD member 0
  let failed (c : Byte) (lost : Bool) : State :=
    let s := s.capturePull ch t x line member r
    let l' := { l with arrivals := l.arrivals ++ [({ member := member, failed := some c } : Arrival)] }
    s.putXfer ch { (t.putLine line l').fail c member with lostHome := t.lostHome || lost }
  match r with
  | .notResident _ _ => s
  | .lost => (failed 0x14 true).pullLost t
  | .fault c => failed c false
  | .data g d p =>
    if p then failed 0x0C false
    else
      let a := l.take t.kind member d
      (s.capturePull ch t x line member r).putXfer ch
        { t.putLine line a.1 with gens := newestGen (homeOf x) g t.gens, flags := t.flags ||| a.2 }

/-- PULL_LINE_RESPONSE (R242): the first response of a tag counts; later ones, and those of a completed transfer, are dropped as
duplicates; those of a transfer that a kill has ended are dropped (R250). -/
def execPullLineResponse (ch : Fin 16) (id : Nat) (line member : Nat) (r : LineReply) (s : State) (hdr : Option NysilHdr := none) : Out :=
  receive hdr false s fun s =>
    match s.xfer ch id with
    | none => .next (if (s.pullEnd ch id).isSome then s.count .pullDuplicates 1 else s)
    | some t =>
      match t.lines[line]? with
      | none => .next s
      | some l =>
        if !l.outstanding member then .next (s.count .pullDuplicates 1)
        else if !s.replayTurn ch t line member then .next s
        else .next (((s.untrack (pullReq ch id line member)).endPcie (pullReq ch id line member)).lineArrives ch t l line member r)

/-- LINE_REREQUEST (R242). -/
def execLineRerequest (ch : Fin 16) (id : Nat) (line member : Nat) (s : State) : Out :=
  match (s.xfer ch id).bind fun t => t.lines[line]? with
  | some l => .next (if l.outstanding member then (s.post ch id line member).count .pullRepeats 1 else s)
  | none => .next s

/-! ## Promises (R245-R247) -/

/-- The die of a cluster. -/
def dieOf (c : BitVec 7) : Nat := c.toNat / 8

/-- The path bound of a source home (R247); an Ethernet member's is its entry's (R347). -/
def State.pathBound (s : State) (h : BitVec 17) : Nat :=
  let c := h.extractLsb' 0 7
  if h = s.home then 40
  else if c = 126#7 then 3000
  else if devOf h ≠ s.dev.id then
    match (s.memberEntry (devOf h)).filter (·.ethernet) with
    | some m => m.pathBound.toNat
    | none => 1500
  else if c = 127#7 then 400
  else if dieOf c = dieOf s.clusterNo then 120
  else 400

/-- The promise of a transfer with the given source homes and lines. -/
def State.promise (s : State) (cls : BitVec 2) (homes : List (BitVec 17)) (lines : Nat) : Word :=
  let all := s.cl.chans.toList.flatMap (·.xfers)
  let ahead := ((all.filter fun t => t.cls.toNat ≤ cls.toNat).map Transfer.linesLeft).sum
  let lower := (all.filter fun t => cls.toNat < t.cls.toNat && t.lines.any fun l => l.asked.any fun a => l.outstanding a.1).length
  let bound := (homes.map s.pathBound).foldl max 0
  s.special .clk + BitVec.ofNat 64 (8 + bound + lines + ahead + 8 * lower)

/-! ## Starting a transfer -/

def PullLine.new (src : List Word) (dst : Nat) : PullLine :=
  { src := src, dst := BitVec.ofNat 40 dst, asked := [], arrivals := [], partialSum := 0, partialHi := 0, settled := 0, done := false }

/-- A far address moved by `n` bytes within its home. -/
def farAdd (x : Word) (n : Nat) : Word := x.extractLsb' 40 24 ++ (x.setWidth 40 + BitVec.ofNat 40 n : BitVec 40)

/-- The 256 transfers of a channel are outstanding (R238). -/
def State.chanFull (s : State) (ch : Fin 16) : Bool := 256 ≤ (s.chan ch).xfers.length

/-- The class of a pull (R385): the instruction's, and P1 for a time-triggered launch. -/
def Core.pullClass (c : Core) (cls : BitVec 2) : BitVec 2 := if c.task.timed then 1 else cls

/-- The transfer takes the channel's next ID; the ID and the promise are pushed (R253). -/
def State.startXfer (s : State) (ch : Fin 16) (cls : BitVec 2) (d : NDst) (kind : XferKind) (lines : List PullLine)
    (fault : Option (Byte × Nat)) (homes : List (BitVec 17)) (ranges : List (Nat × Nat × Bool)) : State :=
  let c := s.chan ch
  let cls := s.core.pullClass cls
  let id := c.next
  let word := BitVec.ofNat 64 id
  let t : Transfer :=
    { xid := id, cmd := s.id, kind := kind, cls := cls, lines := lines, fault := fault, dstFault := none, gens := [], flags := 0,
      owner := s.core.num, firing := s.core.number, lostHome := false, start := s.dev.clk + 8 }
  let p := s.promise cls homes (lineCount lines)
  let sb := ranges.map fun r => ({ id := s.id, firing := s.core.number, lo := r.1, hi := r.2.1, write := r.2.2 } : Range)
  let k := { s.core with sb := s.core.sb ++ sb, pulls := s.core.pulls ++ [(ch.val, id)] }
  let k := ((k.setOpt (dstOf d) word).push (.arrived word)).push (.arrived p)
  let c' : Chan := { c with next := id + 1, xfers := c.xfers ++ [t], faulted := c.faulted.filter fun x => id < x + 256 }
  let s := (s.takeId.setCore k).setChan ch c'
  s.count .pullTransfers 1

/-- The destination checks of a pull (R253): R166 checks 2 and 3 and the channel area. -/
def State.destCheck (s : State) (rows : List (Nat × Nat)) : Option (Byte × Word) := s.issueCheck 1 true rows

/-- Rows of a destination; one that passes the top of the offsets goes on from 0. -/
def destRows (dst rows pitch len : Nat) : List (Nat × Nat) :=
  (List.range rows).flatMap fun r =>
    let a := (dst + r * pitch) % 2 ^ 40
    if a + len ≤ 2 ^ 40 then [(a, len)] else [(a, 2 ^ 40 - a), (0, a + len - 2 ^ 40)]

/-- The scoreboard entry of a destination (R248). -/
def destRange (rows : List (Nat × Nat)) : List (Nat × Nat × Bool) :=
  match rows with
  | [] => []
  | r :: _ => [(rows.foldl (fun m x => min m x.1) r.1, rows.foldl (fun m x => max m (x.1 + x.2)) 0, true)]

/-- IMM as TVAL records it. -/
def immWord (i : Instr) : Word :=
  match encode i with
  | some w => (w.extractLsb' 0 48).setWidth 64
  | none => 0

/-- PULL (R253). -/
def execPull (cls : BitVec 2) (ch : Fin 16) (d : NDst) (a b : Src) (rows : Option (Fin 8)) (len pitch : BitVec 24)
    (s : State) : Out :=
  let i := Instr.pull cls ch d a b rows len pitch
  let dst := (s.src a).toNat % 2 ^ 40
  let src := s.src b
  let n := match rows with
    | some k => s.core.view.lc[k].toNat
    | none => 1
  let dests := destRows dst n pitch.toNat len.toNat
  let check : Option (Byte × Word) :=
    if dst % 64 ≠ 0 then some (0x06, BitVec.ofNat 64 dst)
    else
      match s.farCheck src with
      | some c => some (c, src)
      | none =>
        if src.extractLsb' 0 6 ≠ 0#6 then some (0x06, src)
        else if 1 < n && pitch.toNat < len.toNat then some (0x01, immWord i)
        else if 2 ^ 40 + pitch.toNat < (offOf src).toNat + n * pitch.toNat + len.toNat then some (0x09, src)
        else s.destCheck dests
  gate i s
    (match check with
     | some (c, v) => .next (s.trap c v)
     | none =>
       let range := destRange dests
       if s.core.acquiring || s.chanFull ch || !s.core.sbFree range.length then stall s
       else
         let lines := (List.range n).flatMap fun r => (List.range (len.toNat / 64)).map fun l =>
           PullLine.new [farAdd src (r * pitch.toNat + 64 * l)] (dst + r * pitch.toNat + 64 * l)
         .next (s.startXfer ch cls d .copy lines none [homeOf src] range))

/-! ## Reads that an engine instruction makes as it issues -/

/-- Earlier accesses of the firing, far reads of its own home among them, or of its engine commands, to the bytes are still to be
performed (R170, R229, R248). -/
def State.readHeld (s : State) (off n : Nat) : Bool :=
  (s.core.acc.any fun a => anyOverlap a.kind.ranges [(off, n)]) ||
    (s.core.far.any fun f => homeOf f.addr == s.home && f.reply.isNone && anyOverlap [((offOf f.addr).toNat, f.w)] [(off, n)]) ||
    s.core.rangeHeld { id := s.id, firing := s.core.number, lo := off, hi := off + n, write := false }

/-- A failed read of an index list or address table (R151): charged to its instruction. -/
def State.failRead (s : State) (off : Nat) (f : AccFail) : Out :=
  match f with
  | .trap c _ => .next (s.trap c (BitVec.ofNat 64 off))
  | .unmapped =>
    if !s.abortable then .next (s.trap 0x08 (BitVec.ofNat 64 off))
    else if s.core.undecided s.id then stall s
    else .next (s.abortUnmapped (farAddr s.home (BitVec.ofNat 40 off)))
  | .notResident _ _ =>
    if !s.abortable then .next (s.trap 0x08 (BitVec.ofNat 64 off))
    else if s.core.undecided s.id then stall s
    else
      match s.withTicket s.core.task.space (s.lineVa off) f with
      | (s, .notResident w t) => .next (s.abortForPage w t)
      | (s, _) => .next s

/-- Lines grouped by their first source home, the homes in the order in which the list names them (R254). -/
def byHome (ls : List PullLine) : List PullLine :=
  let hs := (ls.map fun l => l.src.head?.map homeOf)
  (hs.reverse.dedup.reverse).flatMap fun h => ls.filter fun l => l.src.head?.map homeOf == h

/-- PULLG (R254): the engine reads the index list, and each entry is checked for its row. -/
def execPullg (cls : BitVec 2) (ch : Fin 16) (d : NDst) (a b : Src) (count : CountSrc) (len : BitVec 24) (s : State) : Out :=
  let i := Instr.pullg cls ch d a b count len
  let dst := (s.src a).toNat % 2 ^ 40
  let list := (s.src b).toNat % 2 ^ 40
  let n := match count with
    | .lc k => s.core.view.lc[k].toNat
    | .imm c => c.toNat
  let dests := destRows dst n len.toNat len.toNat
  let listRange := if n = 0 then [] else [(list, 8 * n)]
  let check : Option (Byte × Word) :=
    if dst % 64 ≠ 0 then some (0x06, BitVec.ofNat 64 dst)
    else if list % 8 ≠ 0 then some (0x06, BitVec.ofNat 64 list)
    else (s.issueCheck 8 false listRange) <|> s.destCheck dests
  gate i s
    (match check with
     | some (c, v) => .next (s.trap c v)
     | none =>
       let range := destRange dests ++ listRange.map fun r => (r.1, r.1 + r.2, false)
       if s.core.acquiring || s.chanFull ch || !s.core.sbFree range.length || s.readHeld list (8 * n) then stall s
       else
         match s.checkLines s.core.task.space .load (granules list (8 * n)) with
         | (s, some f) => s.failRead list f
         | (s, none) =>
           let (s, bs) := s.readAt s.core.task.space list (8 * n) false
           let entries := wordsOf n bs
           let bad (x : Word) : Option Byte := (s.farCheck x) <|> if x.extractLsb' 0 6 ≠ 0#6 then some 0x06 else none
           let lines := entries.zipIdx.flatMap fun e => (List.range (len.toNat / 64)).map fun l =>
             let at' := dst + e.2 * len.toNat + 64 * l
             match bad e.1 with
             | none => PullLine.new [farAdd e.1 (64 * l)] at'
             | some c => { PullLine.new [] at' with arrivals := [{ member := 0, failed := some c }] }
           let fault := (entries.findSome? bad).map fun c => (c, 0)
           .next (s.startXfer ch cls d .gather (byHome lines) fault ((entries.filter fun x => (bad x).isNone).map homeOf) range))

/-- AGSET (R255). -/
def execAgset (g : Fin 4) (a : Src) (count : AgCount) (s : State) : Out :=
  let off := (s.src a).toNat % 2 ^ 40
  let v : Word := match count with
    | .reg b => s.src b
    | .imm c => c.setWidth 64
  let n := v.toNat
  gate (.agset g a count) s
    (if n < 1 || 32 < n then .next (s.trap 0x01 v)
     else
       match s.issueCheck 8 false [(off, 8 * n)] with
       | some (c, x) => .next (s.trap c x)
       | none =>
         if s.core.acquiring || s.readHeld off (8 * n) then stall s
         else
           match s.checkLines s.core.task.space .load (granules off (8 * n)) with
           | (s, some f) => s.failRead off f
           | (s, none) =>
             match s.firstPoison s.core.task.space off (granules off (8 * n)) with
             | (s, some x) => .next (s.trap 0x0C (BitVec.ofNat 64 x))
             | (s, none) =>
               let (s, bs) := s.readAt s.core.task.space off (8 * n) false
               let es := wordsOf n bs
               let bad (x : Word) : Option Byte := (s.farCheck x) <|> if x.extractLsb' 0 6 ≠ 0#6 then some 0x06 else none
               match es.find? fun x => (bad x).isSome with
               | some x => .next (s.trap ((bad x).getD 0x07) x)
               | none => .next (s.setCore { s.core with ag := s.core.ag.set g es }))

/-- FN of a PULLR. -/
def pullrFn (cls : BitVec 2) (ch : Fin 16) (obf16 : Bool) : Word :=
  BitVec.ofNat 64 (cls.toNat + 4 * ch.val + if obf16 then 64 else 0)

/-- PULLR (R256). -/
def execPullr (f : RFmt) (obf16 : Bool) (cls : BitVec 2) (ch : Fin 16) (d : NDst) (a b : Src) (n : BitVec 24) (g : Fin 4)
    (s : State) : Out :=
  let i := Instr.pullr f obf16 cls ch d a b n g
  let members := s.core.ag[g]
  let dst := (s.src a).toNat % 2 ^ 40
  let soff := (s.src b).toNat % 2 ^ 40
  let size := match f with
    | .bf16 => 2
    | .fp32 => 4
    | .int32 => 4
  let srcLines := n.toNat * size / 64
  let outBytes := n.toNat * (if obf16 then 2 else 4)
  let step := outBytes / max 1 srcLines
  let dests := destRows dst 1 0 outBytes
  let check : Option (Byte × Word) :=
    if members.isEmpty then some (0x01, BitVec.ofNat 64 g.val)
    else if f = .int32 && obf16 then some (0x01, pullrFn cls ch obf16)
    else if dst % 64 ≠ 0 then some (0x06, BitVec.ofNat 64 dst)
    else if soff % 64 ≠ 0 then some (0x06, BitVec.ofNat 64 soff)
    else s.destCheck dests
  gate i s
    (match check with
     | some (c, v) => .next (s.trap c v)
     | none =>
       let range := destRange dests
       if s.core.acquiring || s.chanFull ch || !s.core.sbFree range.length then stall s
       else
         let lines := (List.range srcLines).map fun l =>
           PullLine.new (members.map fun m => farAdd m (soff + 64 * l)) (dst + step * l)
         .next (s.startXfer ch cls d (.reduce f obf16 n.toNat) lines none (members.map homeOf) range))

/-! ## WAITP, LCSET, EQUERY -/

/-- A transfer is complete when the completion word is above its ID (R240). -/
def State.xferDone (s : State) (ch : Fin 16) (xid : Nat) : Bool := (s.xfer ch xid).isNone

/-- What WAITP pushes of a complete transfer (R257). -/
def State.waitpValue (s : State) (ch : Fin 16) (id : Word) : Word :=
  let c := s.chan ch
  let fw := s.chanWord ch 1
  let named := fw ≠ 0 && fw.extractLsb' 0 48 == id.extractLsb' 0 48
  let recent := c.next ≤ id.toNat + 256
  if named && (!recent || c.faulted.contains id.toNat) then fw
  else if recent && c.faulted.contains id.toNat then (0xFF00#16 ++ id.extractLsb' 0 48 : BitVec 64)
  else 0

/-- A wait on a complete transfer whose promise has passed ends: the acquires, the flags and the value. -/
def State.finishWaitp (s : State) (w : Wait) : State :=
  match w with
  | .waitp _ xid ch _ _ id _ _ =>
    let s := s.observe ch xid.toNat
    let c := s.core.deliver id (.scalar (s.waitpValue ch xid))
    s.setCore { c with wait := c.wait.filter fun x => x != w }
  | _ => s

/-- The wait may end. -/
def State.waitpMet (s : State) : Wait → Bool
  | .waitp p xid ch _ _ _ _ _ => p.toNat ≤ s.dev.clk && s.xferDone ch xid.toNat
  | _ => false

/-- The promise has passed, the transfer is incomplete, and the miss is not counted yet; in a replay, the miss is the next
entry of the firing's log (R401). -/
def State.waitpMissed (s : State) (c : Core) : Wait → Bool
  | .waitp p xid ch _ missed _ _ _ =>
    !missed && !c.resuming &&
      if s.replaying then (s.replayNext c.task.key).any fun e => e.1.type == 0x06 && e.1.data == [xid]
      else decide (p.toNat ≤ s.dev.clk) && !s.xferDone ch xid.toNat
  | _ => false

/-- In a replay, the loss of a watch that comes next in some firing's log. -/
def State.replayLost (s : State) (c : Core) : Option Instr :=
  (s.replayNext c.task.key).bind fun e =>
    ((List.finRange 16).find? fun k => c.slots[k].st.open && e.1.type == 0x05 && e.1.data == [k.val.cast]).map fun k =>
      .watchAnswer c.num k c.slots[k].tag .lost

/-- The transfers of the firing on a core. -/
def State.pullsOf (s : State) (c : Core) : List (Fin 16 × Transfer) :=
  (List.finRange 16).flatMap fun ch =>
    ((s.chan ch).xfers.filter fun t => t.owner == c.num && t.firing == c.number).map fun t => (ch, t)

/-- A wait that only the firing's own replies, results and engine commands can end. -/
def Wait.inward : Wait → Bool
  | .fence _ _ _ | .waitp _ _ _ _ _ _ _ _ | .mwait _ _ _ | .ending | .transfers => true
  | .sqwait _ | .wsleep _ _ | .held _ | .committing | .joined _ _ => false

/-- Nothing but an input of the log can let the firing on this core go on: it issues nothing, no result, access or command of its
own is under way, and the replies that it waits for are all of the log. -/
def State.starved (s : State) (c : Core) : Bool :=
  c.status == .running && !c.grp.live && (c.mark == .stalled || !c.wait.isEmpty) && c.wait.all Wait.inward &&
    c.pend.isEmpty && c.acc.isEmpty && c.vq.isEmpty && c.mq.isEmpty &&
    (c.far.all fun f => !f.sent || (f.reply.isNone && s.logged (homeOf f.addr))) &&
    (s.pullsOf c).all fun x => x.2.unposted.isNone && x.2.open.all fun y => s.logged (homeOf y.2.2) || !s.replayTurn x.1 x.2 y.1 y.2.1

/-- An input of the firing that its log is to give: a read, a line, a line's turn. -/
def State.awaitsLog (s : State) (c : Core) : Bool :=
  (c.far.any fun f => f.sent && f.reply.isNone && s.logged (homeOf f.addr)) || (s.pullsOf c).any fun x => !x.2.open.isEmpty

/-- The kill of a replayed firing whose inputs differ from its next logged entry: none of them is the next entry, and it can ask
for nothing more before one comes; or the log holds no entry for it any more (R401, log 37). -/
def State.replayKill (s : State) (c : Core) : Option Instr :=
  if s.awaitsLog c && (s.starved c || ((s.replayNext c.task.key).isNone && c.far.any fun f => f.sent && f.reply.isNone && s.logged (homeOf f.addr)))
  then some (.kill (s.mismatch c.task.key))
  else none

/-- What a replay gives next: a logged read, line or loss, or the kill. -/
def State.replayDue (s : State) : Option Instr :=
  if !s.replaying then none
  else
    (s.cores.findSome? fun c => if c.status == .running then s.replayFar c <|> s.replayLost c else none) <|>
      ((List.finRange 16).findSome? fun ch => (s.chan ch).xfers.findSome? fun t => s.replayLine ch t) <|>
      s.cores.findSome? s.replayKill

/-- WAITP (R257): its position is taken as it issues, and stays pending while it sleeps. -/
def execWaitp (sq : Bool) (ch : Fin 16) (d : NDst) (a b : Src) (s : State) : Out :=
  let p := s.src a
  let id := s.src b
  gate (.waitp sq ch d a b) s
    (if (s.chan ch).next ≤ id.toNat then .next (s.trap 0x09 id)
     else if p.toNat ≤ s.dev.clk && s.xferDone ch id.toNat then
       .next ((s.observe ch id.toNat).result d (s.waitpValue ch id))
     else
       let w : Wait := .waitp p id ch sq false s.id s.core.pc s.core.grp.off
       let s := s.owe true (dstOf d).toList
       .next (s.setCore { s.core with wait := s.core.wait ++ [w] }))

/-- WAITP_PROMISE_EXPIRY (R257): the miss is counted; WAITP.S traps, taking its position back. -/
def execWaitpPromiseExpiry (s : State) : Out :=
  match s.focus fun c => c.wait.any (s.waitpMissed c) with
  | none => .next s
  | some s =>
    match s.core.wait.find? (s.waitpMissed s.core) with
    | some (.waitp p xid ch sq m id ret off) =>
      let w : Wait := .waitp p xid ch sq m id ret off
      let s := ((s.setChanWord ch 3 (s.chanWord ch 3 + 1)).count .promiseMisses 1).input 0x06 s.core.task.key [xid]
      if sq then
        let c := s.core.takeBack id
        .next (takeTrap (s.setCore { c with wait := c.wait.filter fun x => x != w }) 0x0F xid ret off 0)
      else
        .next (s.setCore { s.core with wait := s.core.wait.map fun x => if x = w then .waitp p xid ch sq true id ret off else x })
    | _ => .next s

/-- LCSET (R258). -/
def execLcset (d : Fin 8) (v : LcVal) (s : State) : Out :=
  gate (.lcset d v) s
    (.next (s.setCore (s.core.setLc d (match v with
      | .reg a => (s.src a).setWidth 32
      | .imm x => x))))

/-- The byte of a channel's record that a selector of EQUERY reads from (R239, R259); the next ID and the state stand in the
engine. -/
def eqWord : EqSel → Option Nat
  | .done => some 0
  | .fault => some 8
  | .faultClr => some 8
  | .nextId => none
  | .stat => none

/-- EQUERY (R259): a read, and a clear, of a channel word, after what orders it behind an acquire or an access to its bytes
(R229). -/
def execEquery (q : EqSel) (ch : Fin 16) (d : NDst) (s : State) : Out :=
  let c := s.chan ch
  let left := (c.xfers.map Transfer.destLeft).sum
  let v : Word :=
    match q with
    | .done => s.chanWord ch 0
    | .nextId => BitVec.ofNat 64 c.next
    | .fault => s.chanWord ch 1
    | .faultClr => s.chanWord ch 1
    | .stat => BitVec.ofNat 64 (min c.xfers.length 256 + 65536 * min left 2048)
  let s' := if q = .faultClr then s.setChanWord ch 1 0 else s
  gate (.equery q ch d) s
    (if s.core.acquiring || (eqWord q).any fun k => s.readHeld (s.chanAt ch + k) 8 then stall s
     else .next (s'.resultAt d .fixed v 0 (s.dev.clk + 4)))

end Sys2Proof.Machine
end

