-- ==== Sys2Proof/Machine/Trans.lean ====
section
/-! DEFINITION. The functions of R300: 2^a, log2 a, 1/a and 1/sqrt a, each the exact value rounded once. The irrational
values are computed in fixed point with 320 fraction bits and a sticky bit, which no FP32 or BF16 operand brings close
enough to a rounding boundary to matter (log 6). -/

namespace Sys2Proof.Machine

/-- Fraction bits of the fixed-point work. -/
def fixBits : Nat := 320

/-- The sum of 2^fixBits / (k * 2^k) for k = n, n-1, …, 1: ln 2 in fixed point. -/
def ln2Go : Nat → Nat
  | 0 => 0
  | n + 1 => 2 ^ fixBits / ((n + 1) * 2 ^ (n + 1)) + ln2Go n

def ln2 : Nat := ln2Go 330

/-- The exponential series: the term, its index and the terms left. -/
def expGo : Nat → Nat → Nat → Nat → Nat
  | 0, _, _, _ => 0
  | k + 1, n, x, t => t + expGo k (n + 1) x (t * x / ((n + 1) * 2 ^ fixBits))

/-- 2^f in fixed point for a fraction f in fixed point. -/
def exp2Frac (f : Nat) : Nat := expGo 100 0 (f * ln2 / 2 ^ fixBits) (2 ^ fixBits)

/-- The series of atanh: the power of z, its index and the terms left. -/
def atanhGo : Nat → Nat → Nat → Nat → Nat
  | 0, _, _, _ => 0
  | k + 1, n, z2, t => t / (2 * n + 1) + atanhGo k (n + 1) z2 (t * z2 / 2 ^ fixBits)

/-- log2 of y in [1, 2), in fixed point. -/
def log2Frac (y : Nat) : Nat :=
  let z := (y - 2 ^ fixBits) * 2 ^ fixBits / (y + 2 ^ fixBits)
  2 * atanhGo 120 0 (z * z / 2 ^ fixBits) z * 2 ^ fixBits / ln2

/-- 2^a (R300). -/
def Val.exp2 : Val → Val × BitVec 5
  | .nan => (.nan, 0)
  | .inf s => (if s then .fin false 0 0 else .inf false, 0)
  | .fin s m e =>
    if m = 0 then (.fin false 1 0, 0)
    else if 9 < leadExp m e then (if s then .fin false 3 (-1000) else .fin false 3 1000, 0)
    else
      let i := scaledInt s m e (min e (-(fixBits : Int)))
      let d : Int := 2 ^ (-(min e (-(fixBits : Int)))).toNat
      let n := i / d
      let f := (i - n * d).toNat * 2 ^ fixBits / d.toNat
      if i - n * d = 0 then (.fin false 1 n, 0) else (.fin false (2 * exp2Frac f + 1) (n - fixBits - 1), 0)

/-- log2 a (R300). -/
def Val.log2 : Val → Val × BitVec 5
  | .nan => (.nan, 0)
  | .inf s => if s then (.nan, fNV) else (.inf false, 0)
  | .fin s m e =>
    if m = 0 then (.inf true, fDZ)
    else if s then (.nan, fNV)
    else
      let l := leadExp m e
      if m = 2 ^ m.log2 then (intVal l, 0)
      else
        let i := l * 2 ^ fixBits + log2Frac (m * 2 ^ fixBits / 2 ^ m.log2)
        (.fin (decide (i < 0)) (2 * i.natAbs + 1) (-(fixBits : Int) - 1), 0)

/-- 1/a (R300). -/
def Val.rcp : Val → Val × BitVec 5
  | .nan => (.nan, 0)
  | .inf s => (.fin s 0 0, 0)
  | .fin s m e =>
    if m = 0 then (.inf s, fDZ)
    else
      let (q, d) := quotient 1 m
      (.fin s q (d - e), 0)

/-- 1/sqrt a (R300). -/
def Val.rsq : Val → Val × BitVec 5
  | .nan => (.nan, 0)
  | .inf s => if s then (.nan, fNV) else (.fin false 0 0, 0)
  | .fin s m e =>
    if m = 0 then (.inf s, fDZ)
    else if s then (.nan, fNV)
    else
      let odd := e % 2
      let n := m * 2 ^ odd.toNat
      let x := 2 ^ 320
      let r := isqrt (x / n)
      (.fin false (2 * r + (if r * r * n = x then 0 else 1)) (-((e - odd) / 2) - 161), 0)

def fpExp2 (f : Fmt) (a : Nat) : Nat × BitVec 5 := rounded f (codeVal f false a).exp2
def fpLog2 (f : Fmt) (a : Nat) : Nat × BitVec 5 := rounded f (codeVal f false a).log2
def fpRcp (f : Fmt) (a : Nat) : Nat × BitVec 5 := rounded f (codeVal f false a).rcp
def fpRsq (f : Fmt) (a : Nat) : Nat × BitVec 5 := rounded f (codeVal f false a).rsq

end Sys2Proof.Machine
end

