-- ==== Sys2Proof/Machine/FloatScalar.lean ====
section
/-! DEFINITION. The scalar floating-point instructions (chapter 6). -/

namespace Sys2Proof.Machine

/-- The operand bits of the format (R98). -/
def fbitsOf (f : SFmt) (x : Word) : Nat := x.toNat % 2 ^ f.fmt.bits

/-- A result and its flags, `lat` clk from issue (R99). -/
def fpLater (i : Instr) (s : State) (d : NDst) (r : Nat × BitVec 5) (lat : Nat) : Out :=
  gate i s (.next (s.resultAt d .fp (BitVec.ofNat 64 r.1) r.2 (s.dev.clk + lat)))

def execFadd (f : SFmt) (d : NDst) (a : Src) (b : SrcImm) (s : State) : Out :=
  fpLater (.fadd f d a b) s d (fpAdd f.fmt (fbitsOf f (s.src a)) (fbitsOf f (s.srcBits b))) 4

def execFsub (f : SFmt) (d : NDst) (a : Src) (b : SrcImm) (s : State) : Out :=
  fpLater (.fsub f d a b) s d (fpSub f.fmt (fbitsOf f (s.src a)) (fbitsOf f (s.srcBits b))) 4

def execFmul (f : SFmt) (d : NDst) (a : Src) (b : SrcImm) (s : State) : Out :=
  fpLater (.fmul f d a b) s d (fpMul f.fmt (fbitsOf f (s.src a)) (fbitsOf f (s.srcBits b))) 4

def execFfma (f : SFmt) (d : NDst) (a b : Src) (c : SrcImm) (s : State) : Out :=
  fpLater (.ffma f d a b c) s d
    (fpFma f.fmt (fbitsOf f (s.src a)) (fbitsOf f (s.src b)) (fbitsOf f (s.srcBits c))) 4

/-- The floating-point divider: at most two pending, in program order (R99). -/
def fpDivide (i : Instr) (s : State) (d : NDst) (r : Nat × BitVec 5) (lat : Nat) : Out :=
  gate i s
    (if 2 ≤ (s.core.onDivider .fdiv).length then stall s
     else .next (s.resultAt d .fdiv (BitVec.ofNat 64 r.1) r.2 (s.core.divDue .fdiv s.dev.clk lat)))

/-- Divide and root times (R99). -/
def fdivLatency : SFmt → Nat
  | .fp32 => 14 | .bf16 => 8

def fsqrtLatency : SFmt → Nat
  | .fp32 => 16 | .bf16 => 9

def execFdiv (f : SFmt) (d : NDst) (a : Src) (b : SrcImm) (s : State) : Out :=
  fpDivide (.fdiv f d a b) s d (fpDiv f.fmt (fbitsOf f (s.src a)) (fbitsOf f (s.srcBits b))) (fdivLatency f)

def execFsqrt (f : SFmt) (d : NDst) (a : Src) (s : State) : Out :=
  fpDivide (.fsqrt f d a) s d (fpSqrt f.fmt (fbitsOf f (s.src a))) (fsqrtLatency f)

def execFminmax (f : SFmt) (mx num : Bool) (d : NDst) (a : Src) (b : SrcImm) (s : State) : Out :=
  fpLater (.fminmax f mx num d a b) s d
    (fpMinMax f.fmt mx num (fbitsOf f (s.src a)) (fbitsOf f (s.srcBits b)), 0) 2

def execFcmp (f : SFmt) (c : FCond) (d : NDst) (a : Src) (b : SrcImm) (s : State) : Out :=
  let r := fpCond f.fmt c (fbitsOf f (s.src a)) (fbitsOf f (s.srcBits b))
  fpLater (.fcmp f c d a b) s d (if r.1 then 1 else 0, r.2) 2

/-- The extension of a converted code: sign for a signed integer destination, else zero (R105). -/
def cvtExtend (dst : Fmt) (dstU : Bool) (code : Nat) : Nat :=
  if dst.isInt && !dstU then (sx dst.bits (BitVec.ofNat 64 code)).toNat else code

/-- FCVT (R105). -/
def execFcvt (dst src : Fmt) (dstU srcU : Bool) (d : NDst) (a : Src) (s : State) : Out :=
  let r := convert dst dstU src srcU ((s.src a).toNat % 2 ^ src.bits)
  fpLater (.fcvt dst src dstU srcU d a) s d (cvtExtend dst dstU r.1, r.2) 2

end Sys2Proof.Machine
end

