-- ==== Sys2Proof/Machine/Vector.lean ====
section
/-! DEFINITION. The shared vector unit (chapter 16). A vector instruction enters its core's dispatch queue at issue
(R288); what it computes (`vecResult`) is read and computed at its grant and written later (R289, R290). -/

namespace Sys2Proof.Machine

/-! ## Elements and lanes (R286, R287) -/

/-- The elements of a register, each `w` bits. -/
def elems (w : Nat) (v : VReg) : List Nat := (List.range (2048 / w)).map (elemCode w v)

/-- The number with the given `w`-bit digits, lowest first. -/
def packNat (w : Nat) : List Nat → Nat
  | [] => 0
  | x :: r => x % 2 ^ w + 2 ^ w * packNat w r

def packElems (w : Nat) (xs : List Nat) : VReg := BitVec.ofNat 2048 (packNat w xs)

/-- A result element with its flags. -/
abbrev El := Nat × BitVec 5

/-- The flags of a list of results. -/
def elFlags (xs : List El) : BitVec 5 := xs.foldl (fun g x => g ||| x.2) 0

/-- Elements written where `active` says so; the others keep their value and are not computed. -/
def writeElems (w : Nat) (active : Nat → Bool) (old : VReg) (f : Nat → El) : VReg × BitVec 5 :=
  let xs := (List.range (2048 / w)).map fun j => if active j then f j else (elemCode w old j, 0)
  (packElems w (xs.map (·.1)), elFlags xs)

/-! ## Operands at the grant -/

/-- What an instruction in the queue reads: the registers as they stand, and its captured operands. -/
structure VEnv where
  regs : Regs
  caps : List (Dest × VReg)
  scalars : List Word

/-- The value captured of a register. -/
def capOf (d : Dest) (l : List (Dest × VReg)) : Option VReg := (l.find? fun x => x.1 == d).map (·.2)

/-- An operand register. -/
def VEnv.v (e : VEnv) (r : Fin 32) : VReg := (capOf (.v r) e.caps).getD e.regs.v[r]

/-- The destination as it stands. -/
def VEnv.old (e : VEnv) (r : Fin 32) : VReg := e.regs.v[r]

/-- A mask operand. -/
def VEnv.m (e : VEnv) (k : Fin 8) : Word := ((capOf (.m k) e.caps).map (·.setWidth 64)).getD e.regs.m[k]

/-- Element `j` of a destination of `w`-bit elements is active. -/
def VEnv.active (e : VEnv) (m : VMask) (w j : Nat) : Bool :=
  match m with
  | some k => (e.m k).getLsbD (j * w / 32)
  | none => true

/-- Captured scalar `i`. -/
def VEnv.scalar (e : VEnv) (i : Nat) : Word := e.scalars.getD i 0

/-- Element `j` of a bop (R296). -/
def VEnv.bop (e : VEnv) (w : Nat) (b : VB) (j : Nat) : Nat :=
  match b with
  | .v r => elemCode w (e.v r) j
  | .reg _ => (e.scalar 0).toNat % 2 ^ w
  | .imm x => x.toNat % 2 ^ w

/-! ## What one element becomes -/

/-- VADD and VSUB (R297). -/
def velAdd (f : VFmt) (fn : VAddFn) (neg : Bool) (a b : Nat) : El :=
  let w := f.fmt.bits
  let sgn : Int := if neg then -1 else 1
  if f.fmt.isInt then
    match fn with
    | .wrap => (((a : Int) + sgn * b) % 2 ^ w |>.toNat, 0)
    | .sat => (clampCode w false (signedOf w a + sgn * signedOf w b), 0)
    | .satu => (clampCode w true ((a : Int) + sgn * b), 0)
  else if neg then fpSub f.fmt a b
  else fpAdd f.fmt a b

/-- VMUL and the product of VFMA (R297). -/
def velMul (f : VFmt) (a b : Nat) : El := if f.fmt.isInt then (a * b % 2 ^ f.fmt.bits, 0) else fpMul f.fmt a b

def velFma (f : VFmt) (a b c : Nat) : El :=
  if f.fmt.isInt then ((a * b + c) % 2 ^ f.fmt.bits, 0) else fpFma f.fmt a b c

/-- VMIN and VMAX (R298). -/
def velMinMax (f : VFmt) (mx alt : Bool) (a b : Nat) : El :=
  let w := f.fmt.bits
  if f.fmt.isInt then
    let lt (x y : Nat) : Bool := if alt then decide (x < y) else decide (signedOf w x < signedOf w y)
    (if (if mx then lt a b else lt b a) then b else a, 0)
  else (fpMinMax f.fmt mx alt a b, 0)

/-- VABS and VNEG (R299). -/
def velSign (f : VFmt) (neg sat : Bool) (a : Nat) : El :=
  let w := f.fmt.bits
  if f.fmt.isInt then
    let x := signedOf w a
    let y : Int := if neg then -x else x.natAbs
    (if sat then clampCode w false y else (y % 2 ^ w).toNat, 0)
  else
    match codeVal f.fmt false a with
    | .nan => ((roundTo f.fmt false .nan).1, 0)
    | .inf _ => (if neg then (a + 2 ^ (w - 1)) % 2 ^ w else a % 2 ^ (w - 1), 0)
    | .fin _ _ _ => (if neg then (a + 2 ^ (w - 1)) % 2 ^ w else a % 2 ^ (w - 1), 0)

/-- An element of a packed source, or of a format (R301, R302). -/
def cvtVal (src : CvtSrc) (srcU : Bool) (v : VReg) (j : Nat) : Val :=
  match src with
  | .fmt f => codeVal f srcU (elemCode f.bits v j)
  | .e3m2 => floatVal shE3m2 (elemCode 6 v j)
  | .e2m3 => floatVal shE2m3 (elemCode 6 v j)
  | .int4 => intVal (signedOf 4 (elemCode 4 v j))

/-- VCVT of element `j` (R301). -/
def velCvt (dst : Fmt) (dstU : Bool) (src : CvtSrc) (srcU : Bool) (v : VReg) (j : Nat) : El :=
  match src with
  | .fmt f => convert dst dstU f srcU (elemCode f.bits v j)
  | .e3m2 | .e2m3 | .int4 => roundTo dst dstU (cvtVal src srcU v j)

/-- VCMP's condition (R303). -/
def velCond (f : VFmt) (c : VCond) (a b : Nat) : Bool × BitVec 5 :=
  match c with
  | .i k => (icond k f.fmt.bits (BitVec.ofNat 64 a) (BitVec.ofNat 64 b), 0)
  | .f k => fpCond f.fmt k a b

/-- VSHL and VSHR (R306). -/
def velShift (w : Nat) (left arith : Bool) (a n : Nat) : El :=
  if left then (a * 2 ^ min n w % 2 ^ w, 0)
  else if arith then ((signedOf w a / 2 ^ min n w % 2 ^ w).toNat, 0)
  else (a / 2 ^ min n w, 0)

/-! ## Reduction (R307) -/

/-- MIN, MAX and ADD extend and return signed values. -/
def redSigned : RedOp → Bool
  | .add | .min | .max => true
  | .minu | .maxu | .and | .or | .xor => false

/-- The width and format in which the tree works. -/
def redFmt (f : VFmt) (wide : Bool) : VFmt :=
  if wide then
    match f with
    | .bf16 => .fp32
    | .int8 => .int32
    | .int16 => .int32
    | .fp32 => .fp32
    | .int32 => .int32
  else f

/-- An element widened exactly. -/
def redWiden (f : VFmt) (op : RedOp) (wide : Bool) (a : Nat) : Nat :=
  if !wide then a
  else if f.fmt.isInt then if redSigned op then (signedOf f.fmt.bits a % 2 ^ 32).toNat else a
  else a * 2 ^ 16

/-- The identity of an operation. -/
def redId (f : VFmt) (op : RedOp) : Nat :=
  let w := f.fmt.bits
  if f.fmt.isInt then
    match op with
    | .add => 0
    | .min => 2 ^ (w - 1) - 1
    | .max => 2 ^ (w - 1)
    | .minu => 2 ^ w - 1
    | .maxu => 0
    | .and => 2 ^ w - 1
    | .or => 0
    | .xor => 0
  else
    match op with
    | .add => 2 ^ (w - 1)
    | .min => (roundTo f.fmt false (.inf false)).1
    | .max => (roundTo f.fmt false (.inf true)).1
    | .minu | .maxu | .and | .or | .xor => 0

/-- One combination, lower-index operand first. -/
def redOp (f : VFmt) (op : RedOp) (a b : Nat) : El :=
  match op with
  | .add => velAdd f .wrap false a b
  | .min => velMinMax f false false a b
  | .max => velMinMax f true false a b
  | .minu => velMinMax f false true a b
  | .maxu => velMinMax f true true a b
  | .and => (Nat.land a b, 0)
  | .or => (Nat.lor a b, 0)
  | .xor => (Nat.xor a b, 0)

/-- One stage of the pairwise tree (R95). -/
def redStage (g : Nat → Nat → El) : List Nat → List El
  | a :: b :: r => g a b :: redStage g r
  | [a] => [(a, 0)]
  | [] => []

/-- The tree, `n` stages. -/
def redTree (g : Nat → Nat → El) : Nat → List Nat → El
  | 0, xs => (xs.getD 0 0, 0)
  | n + 1, xs =>
    let ys := redStage g xs
    let z := redTree g n (ys.map (·.1))
    (z.1, elFlags ys ||| z.2)

/-- VRED's result as it is pushed. -/
def VEnv.reduce (e : VEnv) (f : VFmt) (op : RedOp) (wide : Bool) (m : VMask) (a : Fin 32) : Word × BitVec 5 :=
  let g := redFmt f wide
  let w := f.fmt.bits
  let xs := (List.range (2048 / w)).map fun j =>
    if e.active m w j then redWiden f op wide (elemCode w (e.v a) j) else redId g op
  let r := redTree (redOp g op) (2048 / w).log2 xs
  let v := BitVec.ofNat 64 r.1
  (if g.fmt.isInt && redSigned op then sx g.fmt.bits v else v, r.2)

/-! ## MX blocks (R313, R314) -/

/-- Blocks of 32 elements in the source of VMXQ. -/
def mxBlocks (bf : Bool) : Nat := if bf then 4 else 2

def mxSide (bf : Bool) : Fmt := if bf then .bf16 else .fp32

/-- Each block of A quantized. -/
def mxQuantAll (f : MxFmt) (bf : Bool) (v : VReg) : List (Nat × List Nat × BitVec 5) :=
  (List.range (mxBlocks bf)).map fun i =>
    mxQuantize f ((List.range 32).map fun t => codeVal (mxSide bf) false (elemCode (mxSide bf).bits v (32 * i + t)))

/-- The elements of D with blocks b0 onward replaced. -/
def mxPutElems (f : MxFmt) (b0 : Nat) (qs : List (Nat × List Nat × BitVec 5)) (old : VReg) : VReg :=
  let w := f.fmt.bits
  packElems w ((List.range (2048 / w)).map fun j =>
    match qs[j / 32 - b0]? with
    | some q => if b0 ≤ j / 32 then q.2.1.getD (j % 32) 0 else elemCode w old j
    | none => elemCode w old j)

/-- The bytes of C with scales s0 onward replaced. -/
def mxPutScales (s0 : Nat) (qs : List (Nat × List Nat × BitVec 5)) (old : VReg) : VReg :=
  packElems 8 ((List.range 256).map fun j =>
    match qs[j - s0]? with
    | some q => if s0 ≤ j then q.1 else elemCode 8 old j
    | none => elemCode 8 old j)

/-- Bytes [lo, lo + n) taken from another register. -/
def putBytes (lo n : Nat) (x old : VReg) : VReg :=
  packElems 8 ((List.range 256).map fun j => if lo ≤ j ∧ j < lo + n then elemCode 8 x j else elemCode 8 old j)

/-- VMXQ's two registers. Where D and C name one register and the scales fall on the element bytes, those bytes are free
(log 13). -/
def VEnv.quantize (e : VEnv) (f : MxFmt) (bf : Bool) (d a c : Fin 32) (b0 s0 : Nat) (free : VReg) : List VReg × BitVec 5 :=
  let qs := mxQuantAll f bf (e.v a)
  let flags := qs.foldl (fun g q => g ||| q.2.2) 0
  let els := mxPutElems f b0 qs (e.old d)
  if d = c then
    let nb := mxBlocks bf
    let lo := b0 * (4 * f.fmt.bits)
    let hi := (b0 + nb) * (4 * f.fmt.bits)
    let x := mxPutScales s0 qs els
    let x := if s0 < hi ∧ lo < s0 + nb then putBytes (max lo s0) (min hi (s0 + nb) - max lo s0) free x else x
    ([x, x], flags)
  else ([els, mxPutScales s0 qs (e.old c)], flags)

/-- VMXD's register. -/
def VEnv.dequantize (e : VEnv) (f : MxFmt) (bf : Bool) (a c : Fin 32) (b0 s0 : Nat) : VReg × BitVec 5 :=
  let xs := (List.range (32 * mxBlocks bf)).map fun j =>
    roundTo (mxSide bf) false
      (mxVal f (elemCode 8 (e.v c) (s0 + j / 32)) (elemCode f.fmt.bits (e.v a) (32 * b0 + j)))
  (packElems (mxSide bf).bits (xs.map (·.1)), elFlags xs)

/-! ## Results -/

/-- A result of one vector register. -/
def vone (r : VReg × BitVec 5) : PVal × BitVec 5 := (.vec [r.1], r.2)

/-- Element by element over A (and a bop). -/
def VEnv.map1 (e : VEnv) (w : Nat) (m : VMask) (d a : Fin 32) (f : Nat → El) : PVal × BitVec 5 :=
  vone (writeElems w (e.active m w) (e.old d) fun j => f (elemCode w (e.v a) j))

def VEnv.map2 (e : VEnv) (w : Nat) (m : VMask) (d a : Fin 32) (b : VB) (f : Nat → Nat → El) : PVal × BitVec 5 :=
  vone (writeElems w (e.active m w) (e.old d) fun j => f (elemCode w (e.v a) j) (e.bop w b j))

/-- VCVT (R301): widening reads part p of A, narrowing writes part p of D. -/
def VEnv.cvt (e : VEnv) (dst : Fmt) (src : CvtSrc) (dstU srcU : Bool) (p : Nat) (m : VMask) (d a : Fin 32) :
    VReg × BitVec 5 :=
  let ns := src.count
  let nd := 2048 / dst.bits
  let n := min ns nd
  writeElems dst.bits
    (fun j => e.active m dst.bits j && (decide (nd ≤ ns) || (decide (p * n ≤ j) && decide (j < p * n + n)))) (e.old d)
    fun j => velCvt dst dstU src srcU (e.v a) (if nd < ns then p * n + j else if ns < nd then j - p * n else j)

/-- The lane of VEXT, VINS: the scalar captured at `i`, or IMM. -/
def VEnv.lane (e : VEnv) (i : Nat) : LaneSrc → Nat
  | .reg _ => (e.scalar i).toNat
  | .imm l => l.toNat

/-- The value VBCAST writes (R309). -/
def VEnv.bcast (e : VEnv) (w : Nat) : BcSrc → Nat
  | .reg _ => (e.scalar 0).toNat % 2 ^ w
  | .imm v => v.toNat % 2 ^ w
  | .lane r l => elemCode w (e.v r) (l.toNat % (2048 / w))

/-- The start of VIOTA (R310). -/
def VEnv.start (e : VEnv) (w : Nat) : SrcImm → Nat
  | .reg _ => (e.scalar 0).toNat % 2 ^ w
  | .imm v => v.toNat % 2 ^ w

/-- VCMP into a mask (R303): lane bits, and the bits written. -/
def VEnv.cmpMask (e : VEnv) (f : VFmt) (c : VCond) (m : VMask) (a : Fin 32) (b : VB) : PVal × BitVec 5 :=
  let xs := (List.range 64).map fun j =>
    if e.active m 32 j then
      let r := velCond f c (elemCode 32 (e.v a) j) (e.bop 32 b j)
      ((if r.1 then 1 else 0, r.2), 1)
    else (((0 : Nat), (0 : BitVec 5)), 0)
  (.mask (BitVec.ofNat 64 (packNat 1 (xs.map (·.1.1)))) (BitVec.ofNat 64 (packNat 1 (xs.map (·.2)))), elFlags (xs.map (·.1)))

/-- VSEL (R304). -/
def VEnv.sel (e : VEnv) (a b : Fin 32) (k : Fin 8) : VReg :=
  packElems 32 ((List.range 64).map fun i =>
    if (e.m k).getLsbD i then elemCode 32 (e.v a) i else elemCode 32 (e.v b) i)

/-- What a vector instruction writes, with its flags; `free` supplies a value the manual leaves open. -/
def vecResult (e : VEnv) (free : VReg) : Instr → Option (PVal × BitVec 5)
  | .vadd f fn m d a b => some (e.map2 f.fmt.bits m d a b (velAdd f fn false))
  | .vsub f fn m d a b => some (e.map2 f.fmt.bits m d a b (velAdd f fn true))
  | .vmul f m d a b => some (e.map2 f.fmt.bits m d a b (velMul f))
  | .vfma f m d a b c =>
    let w := f.fmt.bits
    some (vone (writeElems w (e.active m w) (e.old d) fun j =>
      velFma f (elemCode w (e.v a) j) (elemCode w (e.v b) j) (e.bop w c j)))
  | .vmin f alt m d a b => some (e.map2 f.fmt.bits m d a b (velMinMax f false alt))
  | .vmax f alt m d a b => some (e.map2 f.fmt.bits m d a b (velMinMax f true alt))
  | .vabs f sat m d a => some (e.map1 f.fmt.bits m d a (velSign f false sat))
  | .vneg f sat m d a => some (e.map1 f.fmt.bits m d a (velSign f true sat))
  | .vexp2 f m d a => some (e.map1 f.fmt.bits m d a (fpExp2 f.fmt))
  | .vlog2 f m d a => some (e.map1 f.fmt.bits m d a (fpLog2 f.fmt))
  | .vrcp f m d a => some (e.map1 f.fmt.bits m d a (fpRcp f.fmt))
  | .vrsq f m d a => some (e.map1 f.fmt.bits m d a (fpRsq f.fmt))
  | .vcvt dst src dstU srcU p m d a => some (vone (e.cvt dst src dstU srcU p.toNat m d a))
  | .vcmp f c m (.v d) a b =>
    some (e.map2 f.fmt.bits m d a b fun x y =>
      let r := velCond f c x y
      (if r.1 then 2 ^ f.fmt.bits - 1 else 0, r.2))
  | .vcmp f c m (.m _) a b => some (e.cmpMask f c m a b)
  | .vsel _ a b k => some (vone (e.sel a b k, 0))
  | .vand f m d a b => some (e.map2 f.fmt.bits m d a b fun x y => (Nat.land x y, 0))
  | .vor f m d a b => some (e.map2 f.fmt.bits m d a b fun x y => (Nat.lor x y, 0))
  | .vxor f m d a b => some (e.map2 f.fmt.bits m d a b fun x y => (Nat.xor x y, 0))
  | .vshl f m d a b => some (e.map2 f.fmt.bits m d a b (velShift f.fmt.bits true false))
  | .vshr f ar m d a b => some (e.map2 f.fmt.bits m d a b (velShift f.fmt.bits false ar))
  | .vred f op wide m _ a =>
    let r := e.reduce f op wide m a
    some (.scalar r.1, r.2)
  | .vperm f m d a b =>
    let w := f.fmt.bits
    some (vone (writeElems w (e.active m w) (e.old d) fun j =>
      (elemCode w (e.v a) (elemCode w (e.v b) j % (2048 / w)), 0)))
  | .vbcast f m d x =>
    let w := f.fmt.bits
    some (vone (writeElems w (e.active m w) (e.old d) fun _ => (e.bcast w x, 0)))
  | .viota f m d a =>
    let w := f.fmt.bits
    some (vone (writeElems w (e.active m w) (e.old d) fun j => ((e.start w a + j) % 2 ^ w, 0)))
  | .vext f sext _ a l =>
    let w := f.fmt.bits
    let v := BitVec.ofNat 64 (elemCode w (e.v a) (e.lane 0 l % (2048 / w)))
    some (.scalar (if sext then sx w v else v), 0)
  | .vins f d _ l =>
    let w := f.fmt.bits
    some (vone (writeElems w (fun j => j == e.lane 1 l % (2048 / w)) (e.old d) fun _ => ((e.scalar 0).toNat % 2 ^ w, 0)))
  | .vmxq f bf d a c b0 s0 =>
    let r := e.quantize f bf d a c b0.toNat s0.toNat free
    some (.vec r.1, r.2)
  | .vmxd f bf _ a c b0 s0 => some (vone (e.dequantize f bf a c b0.toNat s0.toNat))
  | _ => none

/-! ## Dispatch (R288) -/

/-- A register of a file as a VReg. -/
def Regs.vm (r : Regs) : Dest → VReg
  | .v x => r.v[x]
  | .m k => (r.m[k]).setWidth 2048
  | .n _ => 0
  | .tm _ => 0
  | .lc _ => 0
  | .gone => 0

/-- The vector and mask operands as they stood before the group, which no slot of it changes for this one (R26); one that the
vector unit still owes is read at the grant (R288, R290), and a slot of another class that would write it stalls the group
(R292). -/
def Core.captured (c : Core) (i : Instr) : List (Dest × VReg) :=
  ((reads i).filterMap Rd.dest).filterMap fun d => if d.isVm && !c.vecOwes d then some (d, c.view.vm d) else none

/-- The clk from which an instruction that enters the queue may be granted, as far as granted ones decide it (R290): its
own core's last grant has ended, and the results that it reads are written. -/
def State.eligibleFrom (s : State) (i : Instr) : Nat :=
  let own := if s.quad.lastGrant = s.core.num then s.quad.vecFreeAt else 0
  let srcs := (reads i).filterMap Rd.dest
  let due := (s.core.pend.filter fun p => p.kind == .vec && (s.core.owedTo p.id).any srcs.contains).map (·.due)
  due.foldl max (max (s.dev.clk + 1) own)

/-- A vector instruction takes a queue entry with its captured scalars; VEXT and VRED take their queue position. -/
def vecIssue (i : Instr) (s : State) (scalars : List Word) (push : Bool) : Out :=
  gate i s
    (if 8 ≤ s.core.vq.length then
       let s := if s.core.vqFull then s else s.count .vecQueueFull 1
       .next (s.setCore { s.core with mark := .stalled, vqFull := true })
     else
       let x : VCmd :=
         { id := s.id, instr := i, scalars := scalars, caps := s.core.captured i, eligible := s.eligibleFrom i }
       .next ((s.setCore { s.core with vq := s.core.vq ++ [x], vqFull := false }).owe push (dests i)))

/-- The scalar of a bop. -/
def State.vbScalar (s : State) : VB → List Word
  | .v _ => []
  | .reg r => [s.src r]
  | .imm _ => []

/-- The scalar of a lane. -/
def State.laneScalar (s : State) : LaneSrc → List Word
  | .reg r => [s.src r]
  | .imm _ => []

/-! ## The instructions -/

def execVadd (f : VFmt) (fn : VAddFn) (m : VMask) (d a : Fin 32) (b : VB) (s : State) : Out :=
  vecIssue (.vadd f fn m d a b) s (s.vbScalar b) false

def execVsub (f : VFmt) (fn : VAddFn) (m : VMask) (d a : Fin 32) (b : VB) (s : State) : Out :=
  vecIssue (.vsub f fn m d a b) s (s.vbScalar b) false

def execVmul (f : VFmt) (m : VMask) (d a : Fin 32) (b : VB) (s : State) : Out :=
  vecIssue (.vmul f m d a b) s (s.vbScalar b) false

def execVfma (f : VFmt) (m : VMask) (d a b : Fin 32) (c : VB) (s : State) : Out :=
  vecIssue (.vfma f m d a b c) s (s.vbScalar c) false

def execVmin (f : VFmt) (alt : Bool) (m : VMask) (d a : Fin 32) (b : VB) (s : State) : Out :=
  vecIssue (.vmin f alt m d a b) s (s.vbScalar b) false

def execVmax (f : VFmt) (alt : Bool) (m : VMask) (d a : Fin 32) (b : VB) (s : State) : Out :=
  vecIssue (.vmax f alt m d a b) s (s.vbScalar b) false

def execVabs (f : VFmt) (sat : Bool) (m : VMask) (d a : Fin 32) (s : State) : Out :=
  vecIssue (.vabs f sat m d a) s [] false

def execVneg (f : VFmt) (sat : Bool) (m : VMask) (d a : Fin 32) (s : State) : Out :=
  vecIssue (.vneg f sat m d a) s [] false

def execVexp2 (f : SFmt) (m : VMask) (d a : Fin 32) (s : State) : Out := vecIssue (.vexp2 f m d a) s [] false

def execVlog2 (f : SFmt) (m : VMask) (d a : Fin 32) (s : State) : Out := vecIssue (.vlog2 f m d a) s [] false

def execVrcp (f : SFmt) (m : VMask) (d a : Fin 32) (s : State) : Out := vecIssue (.vrcp f m d a) s [] false

def execVrsq (f : SFmt) (m : VMask) (d a : Fin 32) (s : State) : Out := vecIssue (.vrsq f m d a) s [] false

def execVcvt (dst : Fmt) (src : CvtSrc) (dstU srcU : Bool) (part : BitVec 4) (m : VMask) (d a : Fin 32) (s : State) :
    Out :=
  vecIssue (.vcvt dst src dstU srcU part m d a) s [] false

def execVcmp (f : VFmt) (c : VCond) (m : VMask) (d : VMDst) (a : Fin 32) (b : VB) (s : State) : Out :=
  vecIssue (.vcmp f c m d a b) s (s.vbScalar b) false

def execVsel (d a b : Fin 32) (c : Fin 8) (s : State) : Out := vecIssue (.vsel d a b c) s [] false

def execVand (f : IFmt) (m : VMask) (d a : Fin 32) (b : VB) (s : State) : Out :=
  vecIssue (.vand f m d a b) s (s.vbScalar b) false

def execVor (f : IFmt) (m : VMask) (d a : Fin 32) (b : VB) (s : State) : Out :=
  vecIssue (.vor f m d a b) s (s.vbScalar b) false

def execVxor (f : IFmt) (m : VMask) (d a : Fin 32) (b : VB) (s : State) : Out :=
  vecIssue (.vxor f m d a b) s (s.vbScalar b) false

def execVshl (f : IFmt) (m : VMask) (d a : Fin 32) (b : VB) (s : State) : Out :=
  vecIssue (.vshl f m d a b) s (s.vbScalar b) false

def execVshr (f : IFmt) (arith : Bool) (m : VMask) (d a : Fin 32) (b : VB) (s : State) : Out :=
  vecIssue (.vshr f arith m d a b) s (s.vbScalar b) false

def execVred (f : VFmt) (op : RedOp) (wide : Bool) (m : VMask) (d : NDst) (a : Fin 32) (s : State) : Out :=
  vecIssue (.vred f op wide m d a) s [] true

def execVperm (f : PFmt) (m : VMask) (d a b : Fin 32) (s : State) : Out := vecIssue (.vperm f m d a b) s [] false

def execVbcast (f : PFmt) (m : VMask) (d : Fin 32) (x : BcSrc) (s : State) : Out :=
  vecIssue (.vbcast f m d x) s
    (match x with
     | .reg a => [s.src a]
     | .imm _ => []
     | .lane _ _ => []) false

def execViota (f : IFmt) (m : VMask) (d : Fin 32) (a : SrcImm) (s : State) : Out :=
  vecIssue (.viota f m d a) s [s.srcImm a] false

def execVext (f : PFmt) (sext : Bool) (d : NDst) (a : Fin 32) (l : LaneSrc) (s : State) : Out :=
  vecIssue (.vext f sext d a l) s (s.laneScalar l) true

def execVins (f : PFmt) (d : Fin 32) (a : Src) (l : LaneSrc) (s : State) : Out :=
  vecIssue (.vins f d a l) s (s.src a :: s.laneScalar l) false

def execVmxq (f : MxFmt) (bf : Bool) (d a c : Fin 32) (b0 : BitVec 5) (s0 : Byte) (s : State) : Out :=
  vecIssue (.vmxq f bf d a c b0 s0) s [] false

def execVmxd (f : MxFmt) (bf : Bool) (d a c : Fin 32) (b0 : BitVec 5) (s0 : Byte) (s : State) : Out :=
  vecIssue (.vmxd f bf d a c b0 s0) s [] false

/-! ## VECTOR_GRANT (R289, R290) -/

/-- Grant length. -/
def grantClk : Instr → Nat
  | .vexp2 _ _ _ _ | .vlog2 _ _ _ _ | .vrcp _ _ _ _ | .vrsq _ _ _ _ => 4
  | .vperm _ _ _ _ _ => 2
  | _ => 1

/-- Clk from the grant to the results. -/
def grantLatency : Instr → Nat
  | .vred _ _ _ _ _ _ => 8
  | .vexp2 _ _ _ _ | .vlog2 _ _ _ _ | .vrcp _ _ _ _ | .vrsq _ _ _ _ => 8
  | .vperm _ _ _ _ _ => 5
  | _ => 4

/-- The head of a core's queue may be granted: what it reads has been written. -/
def Core.headReady (c : Core) (clk : Nat) : Bool :=
  match c.vq with
  | [] => false
  | x :: _ =>
    decide (x.eligible ≤ clk) &&
      !(reads x.instr).any fun r =>
        match r.dest with
        | some d => d.isVm && (capOf d x.caps).isNone && c.owed.any fun y => y.2 == d && decide (y.1 < x.id)
        | none => false

/-- The core that the unit grants: the first after the last granted, cyclically, whose head is eligible. -/
def State.grantTo (s : State) : Option (BitVec 2) :=
  if s.dev.clk < s.quad.vecFreeAt then none
  else
    ((List.range 4).map fun i => s.quad.lastGrant + BitVec.ofNat 2 (i + 1)).find? fun k =>
      s.cores.any fun c => c.num == k && c.headReady s.dev.clk

/-- Later entries of the queue count from the clk after this grant, and from the writing of what they read. -/
def VCmd.after (x : VCmd) (freeAt due : Nat) (ds : List Dest) : VCmd :=
  let reads' := (reads x.instr).filterMap Rd.dest
  { x with eligible := max (max x.eligible freeAt) (if reads'.any ds.contains then due else 0) }

/-- The queue count `vec_head_wait_max`. -/
def State.headWait (s : State) (n : Nat) : State :=
  let m := countOf .vecHeadWaitMax s.cl.counts
  (s.count .vecHeadWait n).count .vecHeadWaitMax (n - m)

/-- One grant, to the core in focus. -/
def State.grantHead (s : State) : State :=
  match s.core.vq with
  | [] => s
  | x :: rest =>
    let clk := s.dev.clk
    let len := grantClk x.instr
    let due := clk + grantLatency x.instr
    let e : VEnv := { regs := s.core.regs, caps := x.caps, scalars := x.scalars }
    match vecResult e (Config.freeRow s.free) x.instr with
    | none => s.setCore { s.core with vq := rest }
    | some r =>
      let p : Pend := { id := x.id, kind := .vec, value := r.1, flags := r.2, due := due }
      let c := { s.core with
        vq := rest.map fun y => y.after (clk + len) due (dests x.instr), vqFull := false, pend := s.core.pend ++ [p] }
      let s := { s.setCore c with quad := { s.quad with lastGrant := c.num, vecFreeAt := clk + len } }
      (((s.takeFree.count .vecGrants 1).count .vecBusyClk len).headWait (clk - x.eligible))

/-- VECTOR_GRANT: no grant is made in a clk in which no head is eligible. -/
def execVectorGrant (s : State) : Out :=
  match s.grantTo with
  | none => .next s
  | some k => .next (s.onCore (fun c => c.num == k) State.grantHead)

end Sys2Proof.Machine
end

