-- ==== Sys2Proof/Machine/Firing.lean ====
section
/-! DEFINITION. How a firing ends, spawns, yields, is pre-empted, saved and resumed (R127-R135, R329, R331, R332). -/

namespace Sys2Proof.Machine

/-! ## END, SPAWN, YIELD (R130, R131) -/

/-- END (R132): ended at TL0 when its group has issued. -/
def execEndFiring (s : State) : Out :=
  gate .endFiring s
    (if s.core.level ≠ 0 then .next (s.privilege .endFiring)
     else .next (s.setXfer (.endFiring s.core.pc s.core.grp.off)))

/-- SPAWN (R129, R131). -/
def execSpawn (code frame : QN) (home : Option QN) (actor wide : Bool) (prio : BitVec 2) (join : BitVec 7) (s : State) :
    Out :=
  let r : ContRec :=
    { ContRec.none with
      code := s.qn code, frame := s.qn frame, join := join.toNat, prio := prio, wide := wide, actor := actor,
      graph := s.core.task.graph, space := s.core.task.space }
  let h := home.map s.qn
  let refused : Option Word := h.bind fun x =>
    if x.extractLsb' 17 47 ≠ 0#47 || !((s.cl.bound.map (·.exports)).getD []).contains (x.setWidth 17) then some x else none
  gate (.spawn code frame home actor wide prio join) s
    (match refused with
     | some x => .next (s.trap 0x09 x)
     | none =>
       if s.core.commitFull then .next (s.trap 0x11 32)
       else .next (s.defer (.spawn r (h.map fun x => x.setWidth 17))))

/-- YIELD (R134). -/
def execYield (s : State) : Out :=
  gate .yield s (if s.core.level ≠ 0 then .next (s.privilege .yield) else .next (s.setXfer .yield))

/-! ## END's waits (R132) -/

/-- The cores of the firing in focus, lowest first. -/
def State.members (s : State) : List Core :=
  if s.core.task.wide then (List.finRange 4).filterMap fun k => s.cores.find? fun c => c.num.toNat == k.val else [s.core]

/-- Results, accesses and engine commands of the firing on this core are done. -/
def State.endQuiet (s : State) (c : Core) : Bool :=
  c.pend.isEmpty && c.far.isEmpty && c.vq.isEmpty && c.pgreqs.isEmpty && (c.acc.all fun a => a.orphan || (a.kind.cls == .hint && !a.kind.ordered)) &&
    s.engineDone c s.id

/-- Only END is waited for. -/
def Core.ending (c : Core) : Bool := c.wait == [.ending]

/-- The core's own END waits are over. -/
def State.endDone (s : State) (c : Core) : Bool := c.ending && s.endQuiet c && c.prtResolved

/-- A core at END has nothing to trap or abort for. -/
def State.endClean (s : State) (c : Core) : Bool :=
  s.endDone c && c.allFaults.isEmpty && c.oldestStruck.isNone && c.writeFault.isNone

/-- END has released its watch slots, and may wait for its gang (R132). -/
def State.endReady (s : State) (c : Core) : Bool := s.endClean c && c.slotsFree

/-- END performs its deferred effects. -/
def Core.committing (c : Core) : Bool := c.wait == [.committing]

/-- END of this core may go on: to its trap, its abort, the release of its slots, its firing's commit, or the next deferred
effect. -/
def State.commitDue (s : State) (c : Core) : Bool :=
  c.mark == .none && c.status == .running && !c.resuming &&
    ((c.ending && (c.writeFault.isSome || (s.endDone c && !s.endReady c) ||
      (s.endReady c && (!c.task.wide || s.cores.all fun d => s.endReady d && d.mark == .none)))) ||
      (c.committing && decide (c.issueAt ≤ s.dev.clk) && (!c.task.wide || s.cores.all fun d => d.mark == .none)))

/-- END is left: the core goes on from its slot. -/
def Core.unend (c : Core) : Core := { c with wait := c.wait.filter fun w => w != .ending, ended := none }

/-- END's group taken back as far as the core holds it, for a fault that arrives in END's wait: the trap is charged to the group's
first slot (R218), with the queue and the commit buffer as they stood before the group, so that TRET's second run of it pushes and
defers once (DESIGN CHOICE, log 63). -/
def Core.regroup (c : Core) : Core :=
  { c.unend.setBank c.level ((c.bank c.level).drop (c.grp.off - c.grp.off0)) with
    pc := c.grp.first, commit := c.commit.take c.grp.commits, grp := { Grp.none with off := c.grp.off0 } }

/-- The trap of a write that failed in open mode (R167). -/
def State.writeTrap (s : State) (f : FaultInfo) (ret : Word) (off : Nat) : State :=
  takeTrap ((s.countPoison f.cause).setCore { s.core with writeFault := none }) f.cause f.tval ret off flagWrite

/-- A struck entry at END (R132, R133). -/
def State.strike (s : State) (x : Word) : State :=
  if s.restartable then s.abort fun r s => s.join r
  else (s.setCore { s.core.unend with prt := [] }).trap 0x10 x

/-! ## Deferred effects (R128, R129, R197) -/

/-- How a deferred effect ends. -/
inductive Performed where
  | done (s : State)
  | stuck (s : State)
  | killed (s : State)

/-- The launch is killed by an effect that fails at commit (R421). -/
def State.commitKill (s : State) (cause : Byte) (tval : Word) : State :=
  let k := s.plainKill s.core.task.graph 3 cause true tval
  (s.askKill k).mapFiring fun c => { c with status := .stopping, grp := Grp.none, wait := [], mark := .none }

/-- The first deferred advance has asked for its page. -/
def askedEffect : List Effect → List Effect
  | .advance off inc check _ :: es => .advance off inc check true :: es
  | .spawn r t :: es => .spawn r t :: es
  | [] => []

/-- A deferred advance waits: for its page, for the block of a final pass (R156), for its pool bank, or for the home's next
release (R188). -/
def State.advanceHeld (s : State) (off : BitVec 40) (inc : Word) : Bool :=
  s.migBlocked s.core.task.space (.advance off inc) || !s.mayRelease || !s.banksFree [(off.toNat, 8)]

/-- A deferred advance: its checks again, then the advance. One whose page is not resident asks for it, once (R418). -/
def State.performAdvance (s : State) (off : BitVec 40) (inc : Word) (asked : Bool) : Performed :=
  let sp := s.core.task.space
  let tval : Word := off.setWidth 64
  if s.advanceHeld off inc then .stuck s
  else
    match s.checkLines sp .store (granules off.toNat 8) with
    | (s, some (.trap c _)) => .killed (s.commitKill c tval)
    | (s, some .unmapped) => .killed (s.commitKill 0x08 tval)
    | (s, some (.notResident _ _)) =>
      .stuck (if asked then s
        else (s.setCore { s.core with commit := askedEffect s.core.commit }).send
          (.pageInWanted sp (s.lineVa off.toNat &&& ~~~0xFFF)))
    | (s, none) =>
      match s.poisonIn sp [(off.toNat, 8)] with
      | (s, some _) => .killed (s.commitKill 0x0C tval)
      | (s, none) => .done ((s.useBanks [(off.toNat, 8)]).advance sp off.toNat inc).1

/-- A spawn performed (R129, R400): the record takes its task key by its ordinal within the parent. -/
def State.performSpawn (s : State) (r : ContRec) (target : Option (BitVec 17)) : Performed :=
  let r := { r with key := taskKey s.core.task.key s.core.spawned }
  let counted (s : State) : State := s.mapFiring fun c => { c with spawned := c.spawned + 1 }
  match target with
  | none => .done ((counted s).createRecord r true)
  | some h =>
    if h = s.home then .done ((counted s).createRecord r true)
    else if s.laneFull h then .stuck s
    else .done ((counted s).laneSpawn h r)

def State.perform (s : State) : Effect → Performed
  | .spawn r t => s.performSpawn r t
  | .advance off inc _ asked => s.performAdvance off inc asked

/-- The next effect of the core in focus, in program order; one that must wait stays. -/
def State.performNext (s : State) : Performed :=
  match s.core.commit with
  | [] => .done s
  | e :: es =>
    match s.perform e with
    | .done s => .done (s.setCore { s.core with commit := es })
    | .stuck s => .stuck (s.setCore { s.core with mark := .stalled })
    | .killed s => .killed s

/-- The members that still have effects, in the order k0 to k3 (R116). -/
def State.undone (s : State) : List (BitVec 2) := (s.members.filter fun c => !c.commit.isEmpty).map (·.num)

/-- END's waits are over: the firing's effects are performed from the next clk, one a clk (R132, R197); with none the firing
ends, a clk after END at the earliest. -/
def State.startCommit (s : State) : State :=
  let clk := if s.undone = [] then (s.members.map (·.issueAt)).foldl max 0 else s.dev.clk + 1
  s.mapFiring fun c => { c with wait := [.committing], issueAt := clk }

/-- ACTOR_RETIRE (R126): the firing is counted; the record retires or is armed again, also where its region is full (DESIGN CHOICE,
log 74). -/
def State.actorDone (s : State) (sid : Nat) : State :=
  match s.waitRec sid with
  | none => s
  | some w =>
    let n := w.firings + 1
    let limit := ((w.desc.headD 0).extractLsb' 32 32).toNat
    if limit ≠ 0 && limit ≤ n then s.dropWait sid
    else (s.putWait { w with firings := n }).armActor { w with firings := n } w.desc

/-- The firing ends: slots and cores are free. -/
def State.endFiring (s : State) : State :=
  let r := s.core.task
  let s := (s.leave).refill
  if r.actor then s.actorDone r.sid else s

/-- The firing's next effect; after the last, its end. -/
def State.commitFiring (s : State) : State :=
  match s.undone with
  | [] => s.endFiring
  | k :: _ =>
    match s.focus fun c => c.num == k with
    | none => s.endFiring
    | some s =>
      match s.performNext with
      | .stuck s => s
      | .killed s => s
      | .done s => if s.undone = [] then s.endFiring else s.mapFiring fun c => { c with issueAt := s.dev.clk + 1 }

/-- COMMIT. -/
def execCommit (s : State) : Out :=
  match s.focus s.commitDue with
  | none => .next s
  | some s =>
    if s.core.committing then .next s.commitFiring
    else
      match s.core.writeFault with
      | some (f, ret, off) => .next ((s.setCore s.core.unend).writeTrap f ret off)
      | none =>
        match oldest s.core.allFaults with
        | some f => .next ((s.setCore s.core.regroup).deferredTrap f)
        | none =>
          match s.core.oldestStruck with
          | some x => .next (s.strike x)
          | none =>
            if s.core.slotsFree then .next s.startCommit
            else .next ((s.closeSlots s.core).setCore s.core.freeSlots)

/-! ## The context store (R331) -/

/-- Bytes of one member's sections of a context image, less the latch record, whose size the manual does not give
(log 14). -/
def State.imageBytes (s : State) (c : Core) : Nat :=
  6672 + 24 * c.far.length + 256 * partN s.cl.part + 16384 * partA s.cl.part + (c.spbase - c.sp).toNat

/-- Bytes of the images in the store. -/
def State.storeUsed (s : State) : Nat := ((s.cl.images.flatMap (·.cores)).map s.imageBytes).sum

/-- The status block's ctx_store_used, in KiB (R336). -/
def State.ctxStoreUsed (s : State) : BitVec 32 := BitVec.ofNat 32 ((s.storeUsed + 1023) / 1024)

/-- The store has room for the image of the firing in focus. -/
def State.imageRoom (s : State) : Bool := s.storeUsed + (s.members.map s.imageBytes).sum ≤ 2 ^ 28

/-! ## Pre-emption (R134, R135) -/

/-- YIELD takes effect: a record of the firing's level or a higher one waits that this core, which a reserved quad keeps from
narrow records (R122), or this gang's quad could serve. -/
def State.yieldWanted (s : State) : Bool :=
  s.imageRoom &&
    (List.finRange 4).any fun q =>
      decide (q.val ≤ s.core.task.prio.toNat) && (s.head q).any fun x => if x.1.wide then s.core.task.wide else !s.heldQuad

/-- YIELD after its group: the firing goes on 2 clk later, or stops to be saved. -/
def State.yieldNow (s : State) : State :=
  if s.yieldWanted then
    let s := s.mapFiring fun c => { c with preempt := true }
    s.setCore { s.core with status := .stopped }
  else s.setCore { s.core with issueAt := s.dev.clk + 2 }

/-- BRKPT after its group, under a debug unlock (R329). -/
def State.breakNow (s : State) (tag : BitVec 16) : State :=
  let s := s.mapFiring fun c => { c with preempt := true, brk := some tag }
  s.setCore { s.core with status := .stopped }

/-- The launch-table entry that a record's instance came from. -/
def State.timedBy (s : State) (r : ContRec) : Option (Fin 256) :=
  (s.dev.launches.find? fun l => l.graph == r.graph).bind (·.timed)

/-- A core whose firing may be pre-empted for the head of list `q`; the cores of a reserved quad serve no narrow record
(R122). For a wide head one firing of lower priority is asked at a time, also while another core of the quad runs a firing of equal
or higher priority, which keeps the gang from starting: R135 names no such condition (DESIGN CHOICE, log 74). -/
def State.victim (s : State) (q : Fin 4) (r : ContRec) (c : Core) : Bool :=
  c.status == .running && !c.preempt && decide (q.val < c.task.prio.toNat) && (r.wide || !s.heldQuad) &&
    !(r.timed && c.task.timed && (s.timedBy r).isSome && s.timedBy r == s.timedBy c.task)

/-- The lower base priority, then the later start. -/
def worse (a b : Core) : Bool :=
  decide (b.task.prio.toNat < a.task.prio.toNat) || (a.task.prio == b.task.prio && decide (b.started < a.started))

/-- The core that a pre-emption request of the scheduler picks. -/
def State.preemptPick (s : State) : Option (BitVec 2) :=
  if s.cores.any fun c => c.preempt then none
  else
    (List.finRange 4).findSome? fun q =>
      match s.head q with
      | none => none
      | some (r, _) =>
        if s.servable r then none
        else
          ((s.cores.filter (s.victim q r)).foldl (fun (b : Option Core) c =>
            match b with
            | none => some c
            | some x => if worse c x then some c else some x) none).map (·.num)

/-- PREEMPTION_REQUEST: of the scheduler, or of the stokers for the firing on core `core`, asleep or not. -/
def execPreemptionRequest (stokers : Bool) (s : State) (core : BitVec 2 := 0) : Out :=
  if stokers then
    .next (s.onCore (fun c => c.num == core && c.status == .running) fun s => s.mapFiring fun c => { c with preempt := true })
  else
    match s.preemptPick with
    | none => .next s
    | some k =>
      .next (s.onCore (fun c => c.num == k) fun s =>
        if s.imageRoom then s.mapFiring fun c => { c with preempt := true } else s)

/-- Every engine command of the core is complete or at a split-granule boundary (R135, R250, R276). -/
def State.atBoundary (s : State) (c : Core) : Bool :=
  (match c.mq with
   | [] => true
   | [m] => m.isMma && m.cut
   | _ => false) &&
    s.cl.chans.toList.all fun ch => ch.xfers.all fun t =>
      t.owner != c.num || t.firing != c.number || t.unposted.isNone

/-- At a group boundary, or asleep in a slot that has issued, a firing asked to stop does. -/
def State.stopsHere (s : State) (c : Core) : Bool :=
  c.preempt && c.status == .running && c.between && c.wait.all Wait.keeps && !c.ending && s.atBoundary c && s.imageRoom

/-- A member is stopped and what a save waits for is done (R331). A member at END waits there. -/
def State.saveReady (s : State) (c : Core) : Bool :=
  (c.status == .stopped || (c.status == .running && c.ending)) && c.pend.isEmpty && c.vq.isEmpty &&
    (c.acc.all fun a => a.orphan || a.kind.waits || a.kind.cls == .hint) && s.atBoundary c

/-- The firing of a stopped core may be saved. -/
def State.saveDue (s : State) : Bool :=
  s.core.preempt && s.core.status == .stopped && s.imageRoom && s.members.all s.saveReady

/-! ## CONTEXT_SAVE and RESUME -/

/-- A member as its image holds it, with the faulted reads that its resume meets (R218). The words of its spill region are
kept whole: what stands above a SPBASE that a handler has lowered is there again if SPBASE is raised after the resume, where
the manual does not say what is (log 62). -/
def imageOf (c : Core) : Core :=
  { c with
    acc := c.acc.filter fun a => a.kind.waits && !a.orphan
    savedFaults := c.allFaults.map fun f => (f, c.level)
    heldMma := none, preempt := false, brk := none, mark := .none }

/-- The requests of a core's far reads that a reply from outside may still answer (R225). -/
def State.lateReqs (s : State) (c : Core) : List Nat :=
  (c.far.filter fun f => f.sent && !s.readsHere (homeOf f.addr)).map (·.req)

/-- The far reads of a core that are served here and in flight: their replies, which come after the save, find no firing and are
counted as it is made (R225, R336). -/
def State.lateHere (s : State) (c : Core) : Nat := (c.far.filter fun f => f.sent && s.readsHere (homeOf f.addr)).length

/-- The accesses that stay with the core: those that no firing waits for. -/
def Core.dropWaits (c : Core) : Core := { c with acc := c.acc.filter fun a => !(a.kind.waits && !a.orphan) }

/-- The firing in focus is saved and leaves its cores; its record rejoins its list, or is held for the debug agent, which is no
pre-emption (R119, R329). -/
def State.save (s : State) : State :=
  let ms := s.members
  let image : Image := { id := s.id, cores := ms.map imageOf, held := s.core.brk }
  let r := { s.core.task with resumable := true, image := s.id }
  let s := s.takeId
  let s := s.mapFiring Core.dropWaits
  let late := ms.flatMap s.lateReqs
  let s := s.count .lateReplies (ms.map s.lateHere).sum
  let s := s.leave
  let s := (s.setCl { s.cl with images := s.cl.images ++ [image], lateReads := late ++ s.cl.lateReads }).count .contextsSaved 1
  if image.held.isSome then s else (s.count .preemptions 1).join r

/-- The first core whose firing may be saved. -/
def State.savePick (s : State) : Option State :=
  (s.cores.map (·.num)).findSome? fun k => (s.focus fun c => c.num == k).bind fun t => if t.saveDue then some t else none

/-- CONTEXT_SAVE. -/
def execContextSave (s : State) : Out :=
  match s.savePick with
  | none => .next s
  | some s => .next s.save

/-- A saved member on the core that it resumes on: the core keeps its watch tags and the accesses that still go on. -/
def Core.restore (c : Core) (m : Core) (now issueAt : Nat) : Core :=
  { m with
    num := c.num, status := .running, issueAt := issueAt, started := now
    slots := Vector.ofFn fun k => { m.slots[k] with tag := c.slots[k].tag }
    acc := c.acc ++ m.acc.map fun a => { a with due := now }
    sb := c.sb ++ m.mq.filterMap fun q => (q.op.readRange).map fun r => { id := q.id, firing := m.number, lo := r.1, hi := r.2.1, write := r.2.2 }
    mq := m.mq.map fun q => { q with due := now, cut := false }
    wait := (m.wait.filter fun w => w != .transfers) ++ if m.pulls.isEmpty then [] else [.transfers] }

/-- The page request goes to the home at P0. -/
def State.askPage (s : State) (x : Word) (k : Fin 16) : State :=
  let t := s.core.slots[k].tag
  let h := homeOf x
  if s.lostDev (devOf h) then s.queue (.pageRequestReply s.core.num k t .lost)
  else if h.extractLsb' 0 7 = 126#7 then s.queue (.pageRequestReply s.core.num k t (.fault 0x09))
  else if s.served h then
    s.queue (.pageRequest s.core.task.space x (2 ^ 32 + 256 * s.core.num.toNat + 16 * k.val + t.toNat))
  else s.request (watchReq (s.slotWho s.core k)) h s.core.task.space 0x0B (.pageReq x k t)

/-- Watch slot `k` is registered again with a new tag (R204). -/
def State.rewatch (s : State) (k : Fin 16) : State :=
  let w := s.core.slots[k]
  if !w.st.open then s
  else
    let s := s.openSlot k w.addr w.thr w.page
    if w.page.isSome then
      let t := s.core.slots[k].tag
      let c := s.core
      (s.setCore { c with pgreqs := c.pgreqs.map fun x => if some x.1 = w.page then (x.1, k, t, x.2.2.2) else x }).askPage w.addr k
    else s.watchWord s.core.task.space w.addr w.thr (s.slotWho s.core k)

/-- The validation of a PENDING entry is sent again, under a number of its own (R225). -/
def State.revalidate (s : State) (e : PrtEntry) : State :=
  if e.struck then s
  else
    let e' := { e with id := s.id }
    let s := s.takeId
    (s.setCore { s.core with prt := s.core.prt.map fun x => if x.id = e.id then e' else x }).askValid e'

/-- A pending far load is issued again, under a number of its own: a reply to the request that the save dropped finds no read
(R225, R332). -/
def State.refar (s : State) (f : FarRead) : State :=
  if !f.sent then s
  else
    let f' := { f with req := s.id, due := s.dev.clk + (s.farTimes f.addr).1, reply := none }
    let s := s.takeId
    ((s.setCore { s.core with far := s.core.far.map fun g => if g.id = f.id then f' else g }).startFar f').wakeFar f.addr

/-- The steps of R332 on a restored member in focus. -/
def State.revive (s : State) : State :=
  let w := s.core.slice.hist.foldl (fun w r => s.latch w r) Slice.zero
  let s := s.setCore { s.core with slice := w }
  let s := (List.finRange 16).foldl State.rewatch s
  let s := s.core.prt.foldl State.revalidate s
  s.core.far.foldl State.refar s

/-- The member of an image that a reserved core takes. -/
def Image.memberFor (g : Image) (wide : Bool) (c : Core) : Option Core :=
  if wide then g.cores.find? fun m => m.num == c.num else g.cores.head?

/-- RESUME (R332): the image is restored on the cores that its record was assigned to. -/
def execResume (image : Nat) (s : State) : Out :=
  let here (c : Core) : Bool := c.status == .stopped && c.task.resumable && c.task.image == image && !c.preempt
  match s.cl.images.find? fun g => g.id == image with
  | none => .next s
  | some g =>
    match s.focus here with
    | none => .next s
    | some s =>
      let wide := s.core.task.wide
      let at' := s.dev.clk + max 8 (partN s.cl.part)
      let put (c : Core) : Core :=
        if here c then
          match g.memberFor wide c with
          | some m => c.restore m s.dev.clk at'
          | none => c
        else c
      let s := (s.mapCores put).setCl { s.cl with images := s.cl.images.filter fun x => x.id != image }
      let s := (s.members.map (·.num)).foldl (fun s k => s.onCore (fun c => c.num == k) State.revive) s
      .next (s.count .contextsResumed 1)

/-- A 64-bit word of a row or vector register. -/
def vword (v : VReg) (w : Fin 32) : Word := v.extractLsb' (64 * w.val) 64

/-- A row or vector register with one 64-bit word replaced. -/
def setVword (v : VReg) (w : Fin 32) (x : Word) : VReg :=
  let mask : VReg := (0xFFFFFFFFFFFFFFFF : Word).setWidth 2048 <<< (64 * w.val)
  (v &&& ~~~mask) ||| (x.setWidth 2048 <<< (64 * w.val))

/-- The value of a queue entry as the debug agent reads it: a pending or faulted one reads as 0 (log 41). -/
def QEntry.seen : QEntry → Word
  | .arrived v => v
  | .pending _ => 0
  | .faulted _ => 0

/-- A word of a firing's state (R378). -/
def Core.debugRead (c : Core) : DebugReg → Word
  | .n r => c.regs.n[r]
  | .v r w => vword c.regs.v[r] w
  | .m k => c.regs.m[k]
  | .lc k => c.regs.lc[k].setWidth 64
  | .q bank k => QEntry.seen ((c.bank bank.val).getD k.val (.arrived 0))
  | .acc row w => vword (c.accRow row.val).data w
  | .spill off => Mem.word c.spill off.toNat
  | .pc => c.pc
  | .sp => c.sp
  | .spbase => c.spbase
  | .splim => c.splim
  | .fstat => c.fstat.setWidth 64

/-- A word of a firing's state written (R378). -/
def Core.debugWrite (c : Core) (r : DebugReg) (x : Word) : Core :=
  match r with
  | .n r => { c with regs := { c.regs with n := c.regs.n.set r x } }
  | .v r w => { c with regs := { c.regs with v := c.regs.v.set r (setVword c.regs.v[r] w x) } }
  | .m k => { c with regs := { c.regs with m := c.regs.m.set k x } }
  | .lc k => { c with regs := { c.regs with lc := c.regs.lc.set k (x.setWidth 32) } }
  | .q bank k => c.setBank bank.val ((c.bank bank.val).set k.val (.arrived x))
  | .acc row w => c.setAcc { c.accRow row.val with data := setVword (c.accRow row.val).data w x }
  | .spill off => { c with spill := Mem.setWord c.spill off.toNat x }
  | .pc => { c with pc := x }
  | .sp => { c with sp := x }
  | .spbase => { c with spbase := x }
  | .splim => { c with splim := x }
  | .fstat => { c with fstat := x.setWidth 5 }

/-- A core or a saved core holds a firing. -/
def Core.holds (c : Core) (firing : BitVec 32) (core : BitVec 2) : Bool := c.num == core && c.number == firing && c.status != .idle

/-- The saved cores of the cluster's context store. -/
def State.saved (s : State) : List Core := s.cl.images.flatMap (·.cores)

/-- The debug agent's access to a firing, on a core or in its saved context, under a debug unlock (R378). -/
def State.debugAccess (s : State) (a : DebugAccess) : State :=
  if !s.dev.debug then s
  else
    match a with
    | .read n k r =>
      match (s.cores ++ s.saved).find? fun c => c.holds n k with
      | some c => s.send (.report [c.debugRead r])
      | none => s
    | .write n k r x =>
      let put (c : Core) : Core := if c.holds n k then c.debugWrite r x else c
      (s.setCl { s.cl with images := s.cl.images.map fun g => { g with cores := g.cores.map put } }).mapCores put

/-- DEBUG_RESUME (R329): the first held record rejoins its list; or the debug agent reads or writes a firing's state (R378). -/
def execDebugResume (s : State) (access : Option DebugAccess := none) : Out :=
  match access with
  | some a => .next (s.debugAccess a)
  | none =>
    match s.cl.images.find? fun g => g.held.isSome with
    | none => .next s
    | some g =>
      let s := s.setCl { s.cl with images := s.cl.images.map fun x => if x.id = g.id then { x with held := none } else x }
      match g.cores.head? with
      | some m => .next (s.join { m.task with resumable := true, image := g.id })
      | none => .next s

end Sys2Proof.Machine
end

