-- ==== Sys2Proof/Machine/Registers.lean ====
section
/-! DEFINITION. The register-management instructions (R50-R55) and the spill stack (R48, R49). Spill offsets are 64-bit
and signed; each instruction checks its bounds before it changes a word or %sp. -/

namespace Sys2Proof.Machine

/-- The mask or named register of MOV and MOVI as a destination. -/
def NM.dest : NM → Dest
  | .n r => .n r
  | .m k => .m k

/-- A result of MOV or MOVI: pushed, and written to D (R51, R52). -/
def State.resultNM (s : State) (d : Option NM) (v : Word) : State :=
  s.setCore ((s.core.setOpt (d.map NM.dest) v).push (.arrived v))

def execMov (d : Option NM) (a : MovSrc) (s : State) : Out :=
  gate (.mov d a) s (.next (s.resultNM d (s.movSrc a)))

def execMovi (d : Option NM) (v : Word) (s : State) : Out :=
  gate (.movi d v) s (.next (s.resultNM d v))

/-- A 64-bit word of the spill region. -/
def Core.spillWord (c : Core) (off : Word) : Word := Mem.word c.spill off.toNat

/-- A 64-bit word of the spill region written. -/
def Core.setSpillWord (c : Core) (off v : Word) : Core := { c with spill := Mem.setWord c.spill off.toNat v }

/-- Words written to consecutive spill offsets. -/
def Core.spillWords (c : Core) (off : Word) : List Word → Core
  | [] => c
  | v :: vs => (c.setSpillWord off v).spillWords (off + 8) vs

/-- %sp below SPLIM, both signed (R53). -/
def Core.belowLim (c : Core) (new : Word) : Bool := new.slt c.splim

/-- %sp above SPBASE, both signed (R54). -/
def Core.aboveBase (c : Core) (new : Word) : Bool := c.spbase.slt new

/-- The group's pending CALL or RET, which stacks or takes one word more at the group's end, would break the bounds of %sp
from an %sp of `new`: the refused value (R27, R48, log 62). -/
def Core.xferBad (c : Core) (new : Word) : Option Word :=
  match c.grp.xfer with
  | some (.call _) => if c.belowLim (new - 8) then some (new - 8) else none
  | some (.ret _) => if c.aboveBase (new + 8) then some (new + 8) else none
  | _ => none

/-- %sp moves to `new`, which is refused where `bad` says so, or for the group's pending CALL or RET; `move` is what else it does
to the core. -/
def State.moveSp (s : State) (bad : Bool) (new : Word) (move : Core → Core) : Out :=
  if bad then .next (s.trap 0x12 new)
  else
    match s.core.xferBad new with
    | some x => .next (s.trap 0x12 x)
    | none => .next (s.setCore { move s.core with sp := new })

/-- PUSHM (R53). -/
def execPushm (first last : Fin 32) (s : State) : Out :=
  let rs := ngroup first last
  let new := s.core.sp - BitVec.ofNat 64 (8 * rs.length)
  gate (.pushm first last) s
    (s.moveSp (s.core.belowLim new) new fun c => c.spillWords new (rs.map fun r => s.core.view.n[r]))

/-- Named registers loaded from consecutive spill offsets. -/
def Core.loadWords (c : Core) (off : Word) : List (Fin 32) → Core
  | [] => c
  | r :: rs => (c.setN r (c.spillWord off)).loadWords (off + 8) rs

/-- POPM (R54). -/
def execPopm (first last : Fin 32) (s : State) : Out :=
  let rs := ngroup first last
  let new := s.core.sp + BitVec.ofNat 64 (8 * rs.length)
  gate (.popm first last) s
    (s.moveSp (s.core.aboveBase new) new fun c => c.loadWords s.core.sp rs)

/-- Words reserved from `new` upward read as zero, and the port is taken at 64 bytes a clk (R55). -/
def Core.zeroFill (c : Core) (new : Word) (n clk : Nat) : Core :=
  { c.spillWords new (List.replicate n 0) with spillAt := clk + (n + 7) / 8 }

/-- SPADJ (R55). -/
def execSpadj (adj : BitVec 48) (s : State) : Out :=
  let x := simm adj
  let new := s.core.sp + x
  gate (.spadj adj) s
    (if x.extractLsb' 0 3 ≠ 0#3 then .next (s.trap 0x06 x)
     else
       s.moveSp (s.core.belowLim new || s.core.aboveBase new) new fun c =>
         if x.msb then c.zeroFill new ((s.core.sp - new).toNat / 8) s.dev.clk else c)

end Sys2Proof.Machine
end

