-- ==== Sys2Proof/Machine/System.lean ====
section
/-! DEFINITION. The system instructions (chapter 17) and the system registers (R321). -/

namespace Sys2Proof.Machine

/-! ## TRAP and TRET (R319, R320, R324) -/

/-- TRAP: RET is the following slot (R316). -/
def execTrap (cause : Byte) (a : Option Src) (s : State) : Out :=
  gate (.trap cause a) s
    (.next (takeTrap s cause ((a.map s.src).getD 0) (nextPtr s.core.pc) s.core.grp.off 0))

/-- TRET of either form: a RET that SYSWR wrote is checked as a JMPI target (R110, R319). -/
def tretIssue (s : State) (v : Option Word) : Out :=
  let t := s.core.trapRegs s.core.level
  if t.written then transfer s t.ret none (.tret v) else .next (s.setXfer (.tret v))

def execTret (s : State) : Out :=
  gate .tret s (if s.core.level = 0 then .next (s.privilege .tret) else tretIssue s none)

def execTretV (a : Src) (s : State) : Out :=
  gate (.tretV a) s (if s.core.level = 0 then .next (s.privilege (.tretV a)) else tretIssue s (some (s.src a)))

/-- Queue positions that an instruction takes. -/
def pushes : Instr → Nat
  | .pull _ _ _ _ _ _ _ _ | .pullg _ _ _ _ _ _ _ | .pullr _ _ _ _ _ _ _ _ _ => 2
  | .add _ _ _ _ _ | .sub _ _ _ _ _ | .mul _ _ _ _ | .mulh _ _ _ _ _ | .div _ _ _ _ | .divu _ _ _ _ | .rem _ _ _ _
  | .remu _ _ _ _ | .and _ _ _ _ | .or _ _ _ _ | .xor _ _ _ _ | .andn _ _ _ _ | .shl _ _ _ _ | .shr _ _ _ _
  | .sar _ _ _ _ | .rot _ _ _ _ | .min _ _ _ _ | .max _ _ _ _ | .minu _ _ _ _ | .maxu _ _ _ _ | .clz _ _ _
  | .popc _ _ _ | .ext _ _ _ _ | .bitf _ _ _ _ _ | .cmp _ _ _ _ _ | .sel _ _ _ _ | .lea _ _ _ _ _ _ | .far _ _ _
  | .homeof _ _ _ | .mov _ _ | .movi _ _ => 1
  | .fadd _ _ _ _ | .fsub _ _ _ _ | .fmul _ _ _ _ | .ffma _ _ _ _ _ | .fdiv _ _ _ _ | .fsqrt _ _ _
  | .fminmax _ _ _ _ _ _ | .fcmp _ _ _ _ _ | .fcvt _ _ _ _ _ _ => 1
  | .ld _ _ _ _ _ | .amo _ _ _ _ _ _ | .acas _ _ _ _ _ _ | .ldf _ _ _ _ _ | .ldfa _ _ _ _ _ | .ldfp _ _ _ _ _
  | .pchk _ _ | .sqwait _ _ _ | .wsleep _ _ | .wpoll _ _ _ | .waitp _ _ _ _ _ | .equery _ _ _ => 1
  | .sqadv now _ _ _ => if now then 1 else 0
  | .fence sc _ => if sc = .p then 1 else 0
  | .vred _ _ _ _ _ _ | .vext _ _ _ _ _ | .sysrd _ _ | .pgreq _ _ _ => 1
  | _ => 0

/-- Queue positions that an opcode's entry takes, for a word that does not decode (R39, R320). -/
def wordPushes (w : IWord) : Nat :=
  let op := (w.extractLsb' 88 8).toNat
  let fn := (w.extractLsb' 48 8).toNat
  if op = 0x60 || op = 0x61 || op = 0x62 then 2
  else if op = 0x58 then fn % 2
  else if op = 0x5E then if fn = 2 then 1 else 0
  else if (0x10 ≤ op && op ≤ 0x2C) || op = 0x30 || op = 0x31 || (0x38 ≤ op && op ≤ 0x40) || op = 0x44 || op = 0x4B || op = 0x4C ||
      (0x50 ≤ op && op ≤ 0x53) || op = 0x59 || op = 0x5C || op = 0x5D || op = 0x64 || op = 0x66 || op = 0x94 || op = 0x98 ||
      op = 0xC2 || op = 0xC4 then 1
  else 0

/-- The register that such a word's D names: a named register, or a mask where the entry allows one. -/
def wordDest (w : IWord) : Option Dest :=
  let op := (w.extractLsb' 88 8).toNat
  let d := (w.extractLsb' 77 7).toNat
  if 0x10 ≤ d && d < 0x30 then some (.n (Fin.ofNat 32 (d - 0x10)))
  else if (op = 0x30 || op = 0x31) && 0x60 ≤ d && d < 0x68 then some (.m (Fin.ofNat 8 (d - 0x60)))
  else none


/-- The positions that a word takes and the registers it writes: those of its instruction, or, where it does not decode,
what its opcode's entry says. -/
def wordTakes (w : IWord) : Nat × List Dest :=
  match decode w with
  | .ok i => (pushes i, dests i)
  | .error _ => (wordPushes w, (wordDest w).toList)

/-- Registers written with a value in program order: what is still on its way to them comes too late (R26, R41). -/
def Core.putDests (c : Core) (id : Nat) (ds : List Dest) (v : Word) : Core := ds.foldl (fun c d => c.setDest d v) (c.outdate id ds)

/-- The value of TRET.V for a word of `k` positions: pushed `k` times and written to its D (R320). -/
def State.supply (s : State) (w : IWord) (v : Word) : State :=
  let c := (List.range (wordTakes w).1).foldl (fun c _ => c.push (.arrived v)) s.core
  s.setCore (if (wordTakes w).1 = 0 then c else c.putDests s.id (wordTakes w).2 v)

/-- The value of TRET.V for a deferred fault: the faulted entry, if it is still in the queue, and the registers (R320). -/
def State.replaceFaulted (s : State) (t : TrapRegs) (off : Nat) (v : Word) : State :=
  let c := s.core
  let c :=
    if t.cause.getLsbD 20 then
      c.setBank c.level ((c.bank c.level).set ((t.cause.extractLsb' 16 4).toNat + off) (.arrived v))
    else c
  s.setCore (c.putDests s.id t.dsts v)

/-- A firing whose write failed in open mode leaves its handler: aborted, or killed when it is not restartable (R319). -/
def State.tretWrite (s : State) (t : TrapRegs) : State :=
  if s.restartable then s.abort fun r s => s.join r
  else
    (s.askKill (s.levelKill (BitVec.ofNat 8 s.core.level) 0x17 (t.cause.setWidth 8) t.tval)).mapFiring fun c =>
      { c with status := .stopping, grp := Grp.none, wait := [], mark := .none }

/-- The bounds of %sp for a CALL or RET that the firing still owes its group, as the handler has left them (R48, R49): where they
no longer hold, trap 0x12 is taken at once, charged to the slot at which the group would go on, so that nothing is changed; its
handler's TRET goes on there with the transfer still pending (DESIGN CHOICE, log 62). -/
def State.recheck (s : State) : State :=
  match s.core.xferBad s.core.sp with
  | some x => s.trap 0x12 x
  | none => s

/-- The group that TRET.V returns to is complete: the slot that it supplies is the last one, and an earlier slot's transfer
waits for it (R27, log 62). -/
def TrapRegs.completes (t : TrapRegs) (v : Option Word) : Bool :=
  v.isSome && t.last && t.xfer.isSome && !t.cause.getLsbD 11 && !t.cause.getLsbD 12 && !t.cause.getLsbD 13 &&
    decide ((t.cause.extractLsb' 0 8).toNat < 0x80)

/-- TRET after its group (R319, R320): bank and level are left, and the firing continues at RET with its group offset and
the transfer that its group has passed (R27). A trap at firing start retries its pointer, with no check of the mask (R22,
R111). -/
def State.tretNow (s : State) (v : Option Word) : State :=
  let l := s.core.level
  let t := s.core.trapRegs l
  if t.cause.getLsbD 13 then s.tretWrite t
  else
    let off := (t.cause.extractLsb' 8 3).toNat
    let c := s.core.setBank l zeroBank
    let s := s.setCore
      { c with level := l - 1, pc := t.ret, entry := if t.cause.getLsbD 11 then some .retried else none,
               issueAt := s.dev.clk + 4, grp := { Grp.none with off := off, xfer := t.xfer } }
    match v with
    | none => s.recheck
    | some v =>
      if t.cause.getLsbD 12 then (s.replaceFaulted t off v).recheck
      else if t.cause.getLsbD 11 || 0x80 ≤ (t.cause.extractLsb' 0 8).toNat then s.recheck
      else
        let s :=
          match t.word with
          | some w => s.supply w v
          | none => s
        (s.setCore { s.core with pc := nextPtr t.ret }).recheck

/-! ## System registers (R321) -/

/-- The lowest level that may read a register. -/
def sysReadLevel (n : Nat) : Nat :=
  if 0x100 ≤ n then (n - 0x100) / 16
  else if n = 0 || n = 2 || n = 4 then 1
  else if n = 1 || n = 3 || n = 5 then 2
  else 0

/-- The lowest level that may write a register; none is never. -/
def sysWriteLevel (n : Nat) : Option Nat :=
  match n with
  | 0x02 => some 1
  | 0x03 => some 2
  | 0x04 => some 1
  | 0x05 => some 2
  | 0x08 => some 0
  | 0x09 => some 1
  | 0x0A => some 1
  | 0x0F => some 1
  | 0x11 => some 0
  | 0x12 => some 2
  | 0x13 => some 2
  | 0x14 => some 2
  | _ => none

/-- COMMITCNT (R127). -/
def Core.commitCnt (c : Core) : Word :=
  BitVec.ofNat 64 (c.commit.length + (if c.nonRestart then 256 else 0) + 512 * c.task.restarts.toNat)

/-- PRTSTAT (R214). -/
def Core.prtStat (c : Core) : Word :=
  let struck := (c.prt.filter (·.struck)).length
  (c.fallbacks ++ (0 : BitVec 48) : Word) |||
    BitVec.ofNat 64 (c.prt.length + 256 * (c.prt.length - struck) + 65536 * struck)

/-- The space of the firing is test-flagged (R142). -/
def State.testSpace (s : State) : Bool := ((s.space? s.core.task.space).map (·.test)).getD false

/-- The bank of another level, or one's own as MOV names it (R321). -/
def Core.bankEntry (c : Core) (b k : Nat) : QEntry :=
  if b = c.level then c.entryAt (k + 1) else (c.bank b).getD k (.arrived 0)

/-- The value of a system register below 0x100. -/
def State.sysValue (s : State) (n : Nat) : Word :=
  let c := s.core
  match n with
  | 0x00 => c.trap1.cause
  | 0x01 => c.trap2.cause
  | 0x02 => c.trap1.ret
  | 0x03 => c.trap2.ret
  | 0x04 => c.trap1.tval
  | 0x05 => c.trap2.tval
  | 0x06 => BitVec.ofNat 64 c.level
  | 0x07 => s.tvec
  | 0x08 => c.fstatWord
  | 0x09 => c.spbase
  | 0x0A => c.splim
  | 0x0B => s.special .clk
  | 0x0C => BitVec.ofNat 64 s.dev.time
  | 0x0D => s.cl.part.setWidth 64
  | 0x0E => c.prtStat
  | 0x0F => c.commitCnt
  | 0x10 => s.dev.capbase
  | 0x11 => 0
  | 0x12 => s.cl.aging[1]
  | 0x13 => s.cl.aging[2]
  | 0x14 => s.cl.aging[3]
  | 0x15 => ofBool s.testSpace
  | _ => 0

/-- SYSRD (R326): a pending bank entry stalls, and a faulted one reads 0. FSTAT waits for every scalar floating-point slot
that has issued; whether a slot of its own group counts as one the manual does not say: the earlier slot issues, and the
SYSRD or SYSWR behind it then stalls in the middle of its group until that result arrives (DESIGN CHOICE, log 62; R100). -/
def execSysrd (d : NDst) (num : BitVec 12) (s : State) : Out :=
  let n := num.toNat
  let i := Instr.sysrd d num
  gate i s
    (if s.core.level < sysReadLevel n then .next (s.privilege i)
     else if 0x100 ≤ n then
       match s.core.bankEntry ((n - 0x100) / 16) (n % 16) with
       | .pending _ => stall s
       | .arrived v => .next (s.resultAt d .fixed v 0 (s.dev.clk + 2))
       | .faulted _ => .next (s.resultAt d .fixed 0 0 (s.dev.clk + 2))
     else if n = 0x08 && !s.core.fstatReady then stall s
     else .next (s.resultAt d .fixed (s.sysValue n) 0 (s.dev.clk + 2)))

/-- RET written: CAUSE bits [20:8] of the level clear (R322). -/
def TrapRegs.putRet (t : TrapRegs) (v : Word) : TrapRegs :=
  { t with
    ret := v, cause := t.cause &&& ~~~0x1FFF00, written := true, dsts := [], word := none, last := false, xfer := none }

/-- The spill-stack bounds are legal (R48). -/
def State.boundsOk (s : State) (lim base : Word) : Bool :=
  lim.extractLsb' 0 3 == 0#3 && base.extractLsb' 0 3 == 0#3 && decide (lim.toNat ≤ s.core.sp.toNat) &&
    decide (s.core.sp.toNat ≤ base.toNat) && decide (base.toNat ≤ 4096 * partS s.cl.part)

/-- What a permitted SYSWR does (R48, R86, R121, R127, R322). -/
def State.sysWrite (s : State) (n : Nat) (v : Word) : State :=
  let c := s.core
  match n with
  | 0x02 => s.setCore { c with trap1 := c.trap1.putRet v }
  | 0x03 => s.setCore { c with trap2 := c.trap2.putRet v }
  | 0x04 => s.setCore { c with trap1 := { c.trap1 with tval := v } }
  | 0x05 => s.setCore { c with trap2 := { c.trap2 with tval := v } }
  | 0x08 => s.setCore { c with fstat := v.setWidth 5 }
  | 0x09 =>
    if s.boundsOk c.splim v && (({ c with spbase := v } : Core).xferBad c.sp).isNone then s.setCore { c with spbase := v }
    else s.trap 0x12 v
  | 0x0A =>
    if s.boundsOk v c.spbase && (({ c with splim := v } : Core).xferBad c.sp).isNone then s.setCore { c with splim := v }
    else s.trap 0x12 v
  | 0x0F => if v.extractLsb' 0 16 = 0#16 then s.setCore { c with commit := [] } else s.trap 0x12 v
  | 0x12 => s.setCl { s.cl with aging := s.cl.aging.set 1 v }
  | 0x13 => s.setCl { s.cl with aging := s.cl.aging.set 2 v }
  | 0x14 => s.setCl { s.cl with aging := s.cl.aging.set 3 v }
  | _ => s

/-- SYSWR (R326). -/
def execSyswr (a : Src) (num : BitVec 12) (s : State) : Out :=
  let n := num.toNat
  let i := Instr.syswr a num
  gate i s
    (match sysWriteLevel n with
     | none => .next (s.privilege i)
     | some l =>
       if s.core.level < l then .next (s.privilege i)
       else if n = 0x08 && !s.core.fstatReady then stall s
       else .next (s.sysWrite n (s.src a)))

/-! ## PGREQ (R327) -/

def execPgreq (k : Fin 16) (d : NDst) (a : Src) (s : State) : Out :=
  let x := s.src a
  let i := Instr.pgreq k d a
  gate i s
    (if s.core.level = 0 then .next (s.privilege i)
     else
       match s.farCheck x with
       | some c => .next (s.trap c x)
       | none =>
         let id := s.id
         let s := (s.owe true (dstOf d).toList).closeSlot k
         let s := s.openSlot k x 0 (some id)
         let s := s.setCore { s.core with pgreqs := s.core.pgreqs ++ [(id, k, s.core.slots[k].tag, x)] }
         .next (s.askPage x k))

/-- A page request at home 127 of this device. -/
def State.serviceWant (s : State) (sp : BitVec 16) (off : Nat) : State × PageReply :=
  let va := farAddr s.service (BitVec.ofNat 40 off)
  if isNear off then (s, .fault 0x09)
  else
    match s.serviceTranslate sp va .load with
    | (s, .unmapped) => (s, .fault 0x08)
    | (s, .trap c) => (s, .fault c)
    | (s, .notResident) =>
      let (s, word, t) := s.serviceTicket sp off
      (s.send (.pageInWanted sp (va &&& ~~~0xFFF)), .ticket word t)
    | (s, .ok _ _) => (s, .ticket (farAddr s.service pageWordOff) s.dev.svc.pageWord)

/-- The reply that a home of the model gives to a page request (R152, R327, R418): a ticket, whose threshold is already met
where the page is resident. -/
def State.servePage (s : State) (sp : BitVec 16) (x : Word) : State × PageReply :=
  let off := (offOf x).toNat
  if homeOf x = s.service then s.serviceWant sp off
  else if meetsReserved off 1 then (s, .fault 0x09)
  else if isNear off then (s, if s.nearOk sp off 1 then .ticket s.pageWordAt s.cl.pageWord else .fault 0x09)
  else
    match s.translate sp (s.lineVa off) .load with
    | (s, .unmapped) => (s, .fault 0x08)
    | (s, .trap c) => (s, .fault c)
    | (s, .notResident) =>
      let (s, t) := s.ticket sp (s.lineVa off)
      ((s.send (.pageInWanted sp (s.lineVa off &&& ~~~0xFFF))), .ticket s.pageWordAt t)
    | (s, .ok _ _) => (s, .ticket s.pageWordAt s.cl.pageWord)

/-- PAGE_REQUEST at a home of the model: one of the modelled quad is answered by a step of its own. -/
def execPageRequest (sp : BitVec 16) (addr : Word) (tag : Nat) (s : State) (hdr : Option NysilHdr := none) : Out :=
  receive hdr true s (fun s =>
    let (s, r) := s.servePage sp addr
    if hdr.isNone && decide (2 ^ 32 ≤ tag) then
      .next (s.queue (.pageRequestReply (BitVec.ofNat 2 (tag / 256)) (Fin.ofNat 16 (tag / 16)) (BitVec.ofNat 4 tag) r))
    else .next (s.respond hdr 0x0C (.pageReply tag r))) (some (0x0C, .pageReply tag (.fault 0x09)))

/-- The slot of a page request takes the reply, if it still stands on it. -/
def State.pageSlot (s : State) (k : Fin 16) (id : Nat) (r : PageReply) : State :=
  let w := s.core.slots[k]
  if w.page ≠ some id then s
  else
    match r with
    | .ticket word thr =>
      let s := s.setCore (s.core.setSlot k { w with addr := word, thr := thr, page := none })
      s.watchWord s.core.task.space word thr (s.slotWho s.core k)
    | .fault c => s.setCore (s.core.setSlot k { w with st := .fault, cause := c, page := none })
    | .lost => s.setCore (s.core.setSlot k { w with st := .lost, page := none }).countLost

/-- The request ID that PGREQ pushes. -/
def pageReplyValue : PageReply → Word
  | .ticket _ thr => thr
  | .fault _ => 0
  | .lost => 0

/-- PAGE_REQUEST_REPLY. -/
def execPageRequestReply (core : BitVec 2) (k : Fin 16) (tag : BitVec 4) (r : PageReply) (s : State) (hdr : Option NysilHdr := none) :
    Out :=
  let hit (x : Nat × Fin 16 × BitVec 4 × Word) : Bool := x.2.1 == k && x.2.2.1 == tag
  receive hdr false s fun s => .next (s.onCore (fun c => c.num == core && c.pgreqs.any hit) fun s =>
    match s.core.pgreqs.find? hit with
    | none => s
    | some x =>
      let s := s.untrack (watchReq (.slot s.home s.quadNo core k tag))
      let c := s.core.deliver x.1 (.scalar (pageReplyValue r))
      let s := (s.setCore { c with pgreqs := c.pgreqs.filter fun y => y.1 != x.1 }).pageSlot k x.1 r
      s.core.wait.foldl State.wake s)

/-! ## BASINCLR, BRKPT, TESTINJ (R328-R330) -/

def execBasinclr (a : Option Src) (s : State) : Out :=
  gate (.basinclr a) s
    (match a with
     | none => .next (s.setCl { s.cl with basin := [] })
     | some x =>
       let v := s.src x
       if v.extractLsb' 17 47 ≠ 0#47 then .next (s.trap 0x07 v) else .next (s.dropHome (v.setWidth 17)))

def execBrkpt (tag : BitVec 16) (s : State) : Out :=
  let t := s.count .brkptSeen 1
  gate (.brkpt tag) s (.next (if s.dev.debug then t.setXfer (.brkpt tag) else t))

def execTestinj (a : Src) (disp : BitVec 48) (s : State) : Out :=
  let off := s.localOff a disp
  let i := Instr.testinj a disp
  gate i s
    (if !s.testSpace then .next (s.privilege i)
     else
       match s.issueCheck 64 true [(off.toNat, 64)] with
       | some (c, v) => .next (s.trap c v)
       | none =>
         if isNear off.toNat then .next (s.trap 0x09 (off.setWidth 64))
         else if s.core.acquiring then stall s
         else .next (s.addAccess (.testinj off) false [] (s.dev.clk + s.accessTime off.toNat)))

end Sys2Proof.Machine
end

