-- ==== Sys2Proof/Machine/EvCore.lean ====
section
/-! DEFINITION. Steps of the quad's own units: results that arrive (R40, R59, R99), code lines (R24), and soft errors
(R174). -/

namespace Sys2Proof.Machine

/-! ## Results -/

/-- The result of a core that is due. -/
def State.pendDue (s : State) (p : Pend) : Bool := p.due ≤ s.dev.clk

/-- The oldest due result of a kind. -/
def State.kindDue (s : State) (k : PendKind) (c : Core) : Option Pend := c.pend.find? fun p => p.kind == k && s.pendDue p

/-- RESULT_ARRIVAL: the result `id`, at its time (R40, R59). -/
def execResultArrival (id : Nat) (s : State) : Out :=
  let hit (p : Pend) : Bool := p.id == id && s.pendDue p
  .next (s.onCore (fun c => c.pend.any hit) fun s =>
    match s.core.pend.find? hit with
    | some p => s.setCore (s.core.arrive s.dev.clk p)
    | none => s)

/-- The oldest result of a divider of some core. -/
def State.dividerArrives (s : State) (k : PendKind) : State :=
  s.onCore (fun c => (s.kindDue k c).isSome) fun s =>
    match s.kindDue k s.core with
    | some p => s.setCore (s.core.arrive s.dev.clk p)
    | none => s

/-- DIVISION_RESULT (R59). -/
def execDivisionResult (s : State) : Out := .next (s.dividerArrives .idiv)

/-- FLOAT_DIVIDE_RESULT (R99). -/
def execFloatDivideResult (s : State) : Out := .next (s.dividerArrives .fdiv)

/-! ## Code lines (R24) -/

/-- Lines of the 64 KiB instruction cache. -/
def icacheLines : Nat := 1024

/-- A line of the instruction cache. -/
def State.putCode (s : State) (a : Word) (l : Line) : State :=
  { s with icache := ((a, l) :: s.icache.filter fun x => x.1 != a).take icacheLines }

/-- Every core that asked for a line is told of its failure. -/
def State.failCode (s : State) (a : Word) (r : LineReply) : State :=
  { s with
    quad := { s.quad with
      icBad := s.quad.icBad ++ ((s.quad.icMiss.filter fun x => x.2 == a).map fun x => (x.1, x.2, r)) } }

/-- LINE_FETCH: a requested line arrives and is kept, or its request fails: a poisoned line is cause 0x0C (R173). -/
def execLineFetch (addr : Word) (r : LineReply) (s : State) (hdr : Option NysilHdr := none) : Out :=
  receive hdr false s fun s =>
  if !(s.quad.icMiss.any fun x => x.2 == addr) then .next s
  else
    let s := (s.untrack (codeReq addr)).endPcie (codeReq addr)
    let s :=
      match r with
      | .data _ l poison => if poison then s.failCode addr (.fault 0x0C) else s.putCode addr l
      | .fault c => s.failCode addr (.fault c)
      | .notResident w t => s.failCode addr (.notResident w t)
      | .lost => s.failCode addr .lost
    let left := s.quad.icMiss.filter fun x => x.2 != addr
    .next { s with quad := { s.quad with icMiss := left, icDue := s.quad.icDue.filter fun x => x.1 != addr } }

/-- The modelled home's reply to a fetch (R139 check 5, R141, R142, R151). -/
def State.serveCode (s : State) (sp : BitVec 16) (off : Nat) : State × LineReply :=
  let va := farAddr s.home (BitVec.ofNat 40 off)
  let r : State × Option AccFail :=
    if isNear off then (s, if s.nearOk sp off 64 then none else some (.trap 0x09 va))
    else if (s.space? sp).isNone then (s, some (.trap 0x09 va))
    else s.checkLines sp .fetch (granules off 64)
  match r with
  | (s, some .unmapped) => (s, .fault 0x08)
  | (s, some (.trap c _)) => (s, .fault c)
  | (s, some (.notResident _ _)) =>
    let (s, t) := s.ticket sp va
    (s, .notResident s.pageWordAt t)
  | (s, none) =>
    let p := (s.granulePoison sp off).2
    let (s, bs) := s.readAt sp off 64 false
    (s, .data s.cl.gen (lineOfBytes bs) p)

/-- A line of a home that the model serves is delivered at its time (R113). -/
def State.codeReady (s : State) (a : Word) : Bool :=
  s.served (homeOf a) && !(s.quad.icDue.any fun x => x.1 == a && decide (s.dev.clk < x.2))

/-- A line of one's own home, or of home 127, that the quad has asked for, at the time of a far read of it, and the state in
which the home has served it. -/
def State.codeDue (s : State) : Option (State × Instr) :=
  (s.quad.icMiss.find? fun x => s.codeReady x.2).map fun x =>
    let off := (offOf x.2).toNat
    let r := if homeOf x.2 = s.service then s.serviceLine s.engineSpace off .fetch else s.serveCode s.engineSpace off
    (r.1, .lineFetch x.2 r.2)

/-! ## Soft errors (R174) -/

/-- A granule of a pool beside near memory is poisoned: an accumulator row's, which ARD, AST and MMA meet (R282-R284); or one of
vector registers or of the spill region, for which the manual states no reader's outcome: it is noted, and no read looks at it
(log 67). -/
def State.poisonCell (s : State) : ErrAt → State
  | .accumulator k r =>
    s.onCore (fun c => c.num == k) fun s =>
      s.setCore (s.core.setAcc { (s.core.accRow r) with poison := true })
  | .register k r => s.setCl { s.cl with cellPoison := .register k r :: s.cl.cellPoison.filter fun x => x != .register k r }
  | .spill k o =>
    s.setCl { s.cl with cellPoison := .spill k (o / 64 * 64) :: s.cl.cellPoison.filter fun x => x != .spill k (o / 64 * 64) }
  | .pool _ | .nearCache _ _ => s

/-- SOFT_ERROR: a single-bit error is corrected and counted; a double-bit error poisons its granule. -/
def execSoftError (place : ErrAt) (double : Bool) (s : State) : Out :=
  match place with
  | .pool off =>
    if !isNear off then .next s
    else .next (if double then (s.setPoison off true).count .poolUe 1 else s.count .poolCe 1)
  | .nearCache sp line =>
    match s.ncFind sp line with
    | none => .next s
    | some n => .next (if double then (s.ncPut { n with poison := true }).count .ncUe 1 else s.count .ncCe 1)
  | .register _ _ | .accumulator _ _ | .spill _ _ =>
    .next (if double then (s.poisonCell place).count .poolUe 1 else s.count .poolCe 1)

end Sys2Proof.Machine
end

