-- ==== Sys2Proof/Machine/EvMemory.lean ====
section
/-! DEFINITION. What reaches the modelled home's memory from outside: reads and validations of other requesters (R139, R212),
and what the stokers do to its pages: table changes (R153, R154), migrations (R156), page-ins (R158). -/

namespace Sys2Proof.Machine

/-! ## Reads and validations -/

/-- READ_REQUEST (R139, R341): a request that is accepted is served at the ordering point; a lane read with the records that stand
in the reader's lane (R129). -/
def execReadRequest (hdr : Option NysilHdr) (r : ReadReq) (s : State) : Out :=
  receive hdr true s (fun s =>
    match r.lane with
    | some h => .next (s.respond hdr 0x02 (.laneReply r.tag (s.lane h).1 (s.lane h).2))
    | none =>
      let (s, reply) := s.serveRead r.space r.off.toNat r.bytes
      .next (s.respond hdr 0x02 (.readReply r.tag reply)))
    (some (0x02, match r.lane with
      | some _ => .laneReply r.tag 0 []
      | none => .readReply r.tag (.fault 0x09)))

/-- The answer of R212 and the count it raises: whether the copy is struck. -/
def State.validate (s : State) (sp : BitVec 16) (off : Nat) (fill : BitVec 48) : Bool × Cnt :=
  let tag := s.sectorTag sp off
  if (s.serveCheck sp off 32).2.isSome then (true, .valStrikeFault)
  else if 2 ^ 15 ≤ (s.cl.gen - fill).toNat then (true, .valStrikeAge)
  else
    match tag with
    | some t => if (t - fill.setWidth 16).toNat < 2 ^ 15 then (true, .valStrikeTag) else (false, .valConfirms)
    | none => if older s.cl.evFloor fill then (false, .valConfirms) else (true, .valStrikeFloor)

/-- VALIDATION_REQUEST (R212). -/
def execValidationRequest (sp : BitVec 16) (off : BitVec 40) (fill : BitVec 48) (tag : Nat) (s : State) (hdr : Option NysilHdr := none) :
    Out :=
  receive hdr true s (fun s =>
    let r := s.validate sp off.toNat fill
    .next ((s.count r.2 1).respond hdr 0x07 (.validationAnswer tag r.1))) (some (0x07, .validationAnswer tag true))

/-! ## Translation generations (R153) -/

/-- A space's generation word is advanced, a release of home 127: the word stands in home 127's memory where it is mapped, the TLBs
are answered, and a watch that was refused may be asked for again (log 68). -/
def State.advanceGen (s : State) (sp : BitVec 16) : State :=
  match s.dev.spaces.find? fun d => d.space == sp with
  | none => s
  | some d =>
    let g := d.gen + 1
    let s := s.setDev
      { s.dev with
        spaces := s.dev.spaces.map fun x => if x.space = sp then { x with gen := g } else x
        svc := { s.dev.svc with gen := s.dev.svc.gen + 1, tlbRefused := s.dev.svc.tlbRefused.filter fun x => x != sp } }
    let s := s.setCl { s.cl with tlbRefused := s.cl.tlbRefused.filter fun x => x != sp }
    let s := match s.genPlace d with
      | some pa => s.setMem (Mem.setWord s.mem (hbmKey pa) g)
      | none => s
    (s.queue (.tlbGenerationAnswer sp (.answer g s.dev.svc.gen))).serviceNotify

/-- The entries of a space that are below a generation leave a TLB. -/
def tlbFrom (sp : BitVec 16) (v : Word) (l : List TlbEntry) : List TlbEntry :=
  l.filter fun e => !(e.space == sp && decide (e.gen.toNat < v.toNat))

/-- TLB_GENERATION_ANSWER: entries of an older generation are no longer used, in the cluster's TLB and in home 127's; a watch
that the sluice refuses with status full leaves the space with no entry, each of its misses walked (R153). -/
def execTlbGenerationAnswer (sp : BitVec 16) (e : WatchEnd) (s : State) : Out :=
  match e with
  | .answer v _ =>
    .next ((s.setCl
      { s.cl with
        tlbGens := s.cl.tlbGens.map fun x => if x.1 = sp then (sp, v) else x
        tlb := tlbFrom sp v s.cl.tlb }).setSvc
      { s.dev.svc with
        tlbGens := s.dev.svc.tlbGens.map fun x => if x.1 = sp then (sp, v) else x
        tlb := tlbFrom sp v s.dev.svc.tlb })
  | .full =>
    .next (s.setCl
      { s.cl with
        tlbGens := s.cl.tlbGens.filter fun x => x.1 != sp, tlb := s.cl.tlb.filter fun x => x.space != sp
        tlbRefused := sp :: s.cl.tlbRefused.filter fun x => x != sp })
  | .armed => .next s
  | .fault _ => .next s
  | .lost => .next s

/-- A space descriptor as its 32 bytes give it (R142). The manual states no fate for a descriptor whose reserved bits are not
zero (word 0 [59:44], byte 17, bytes 20-23 [31:2], bytes 24-31): such a space is not valid (DESIGN CHOICE, log 62; R6). So is one whose root table lies outside every
control carve-out, of which R142 says only that it must not (DESIGN CHOICE, log 75). -/
def descOf (sp : BitVec 16) (w0 w1 w2 w3 gen : Word) : SpaceDesc :=
  { space := sp, mode := w0.extractLsb' 60 4, root := w0.extractLsb' 0 44, genWord := w1, slot := w2.extractLsb' 0 6,
    slotGen := w2.extractLsb' 16 16, test := w2.getLsbD 33, gen := gen,
    valid := w2.getLsbD 32 && w0.extractLsb' 44 16 == 0#16 && w2.extractLsb' 6 10 == 0#10 && w2.extractLsb' 34 30 == 0#30 &&
      w3 == 0 && inCarveOut (bits w0 0 44 * 4096) 4096 }

/-- The interface of a hearth's slot (R384). -/
def State.interface (s : State) (slot : BitVec 6) : Tdisp :=
  ((s.dev.tdisp.find? fun x => x.1 == slot).map (·.2)).getD .configUnlocked

/-- The descriptors of a slot are frozen (R384). -/
def State.frozen (s : State) (slot : BitVec 6) : Bool := s.interface slot == .configLocked || s.interface slot == .run

/-- Lists in home 127 that a scheduler waits for are read again. -/
def State.serviceLists (s : State) : State :=
  (s.cl.waiting.filter fun w => w.reading && w.desc.isEmpty && homeOf w.cr.frame == s.service).foldl State.readList s

/-- A record that waits for a page goes on: an actor whose descriptor has been read is armed, and a list in the modelled home is
read. -/
def State.relist (s : State) (w : WaitRec) : State :=
  if w.cr.actor && !w.desc.isEmpty then s.armActor w w.desc
  else if homeOf w.cr.frame = s.home then s.readList w
  else s

/-- A registration at the modelled home no longer waits for its page. -/
def State.regComes (s : State) (e : SluiceEntry) : Bool := !((s.serveCheck e.space e.off.toNat 8).2.any AccFail.away)

/-- What waits at the modelled home for a page that has come goes on: tickets are met, registrations handled and lists read (R152,
R191, R418). -/
def State.pagesCame (s : State) : State :=
  let left := s.cl.tickets.filter fun t => s.lineAway s.home t.1 (offOf t.2.1).toNat
  let word := pageWordAfter left s.cl.sluice s.cl.ticketNext s.cl.pageWord
  let s := if left.length = s.cl.tickets.length then s
    else (s.setCl { s.cl with pageWord := word, tickets := left.filter fun t => decide (word.toNat < t.2.2.toNat) }).answerAll
      (s.cl.sluice.filter fun e => e.off == pageWordOff)
  let regs := s.cl.pendingRegs.filter s.regComes
  let s := s.setCl { s.cl with pendingRegs := s.cl.pendingRegs.filter fun e => !regs.contains e }
  let s := regs.foldl State.sluiceAgain s
  (s.cl.waiting.filter fun w => w.reading && homeOf w.cr.frame == s.home).foldl State.relist s

/-- PAGE_TABLE_CHANGE: an entry in a control carve-out, a frame that is free again (R154), or a descriptor. -/
def execPageTableChange (c : TableChange) (s : State) : Out :=
  match c with
  | .entry sp pa pte =>
    if inCarveOut pa 8 && pa % 8 = 0 then .next ((s.setMem (Mem.setWord s.mem (hbmKey pa) pte)).advanceGen sp).serviceLists.pagesCame
    else .next s
  | .freeFrame sp frame =>
    .next ((s.setCl { s.cl with modes := s.cl.modes.filter fun x => x.1 != frame / 4096 }).advanceGen sp)
  | .descriptor sp w0 w1 w2 w3 =>
    let old := s.dev.spaces.find? fun d => d.space == sp
    let d := descOf sp w0 w1 w2 w3 ((old.map (·.gen)).getD 0)
    if s.frozen d.slot || (old.map fun o => s.frozen o.slot).getD false then .next s
    else .next ((s.setDev { s.dev with spaces := d :: s.dev.spaces.filter fun x => x.space != sp }).advanceGen sp)

/-! ## Pages that leave and come back -/

/-- The place of a page's 4 KiB leaf entry. -/
def leafPlace (m : List Host.Cell) (va : Word) : Nat → Nat → Option Nat
  | 0, _ => none
  | level + 1, table =>
    let a := table + 8 * bits va (12 + 9 * level) 9
    let p := Mem.word m (hbmKey a)
    if level = 0 then some a
    else if p.getLsbD 0 && bits p 1 3 = 0 then leafPlace m va level (bits p 10 44 * 4096)
    else none

/-- A page of the modelled home, its leaf's place and its leaf. -/
def State.leafAt (s : State) (sp : BitVec 16) (page : Word) : Option (Nat × Word) :=
  if homeOf page ≠ s.home then none
  else
    (s.space? sp).bind fun d => (leafPlace s.mem page 5 (d.root.toNat * 4096)).map fun a => (a, Mem.word s.mem (hbmKey a))

/-- The key, the nonce and the authenticated data of a page (R158): a clear space uses slot 63. -/
def State.pageKey (s : State) (sp : BitVec 16) (page : Word) : Option (BitVec 256 × BitVec 128) :=
  let slot := if s.slotOf sp = 0 then 63 else s.slotOf sp
  (s.keysOf slot).map fun k => (k.1, sp ++ page.extractLsb' 12 45 ++ (s.dev.slots[slot.toNat]'(slot.isLt)).gen ++ 0#51)

/-- The next page nonce of a slot. -/
def State.pageNonce (s : State) (sp : BitVec 16) : State × BitVec 96 :=
  let slot := if s.slotOf sp = 0 then 63 else s.slotOf sp
  let n := ((s.dev.nonces.find? fun x => x.1 == slot).map (·.2)).getD 0
  (s.setDev { s.dev with nonces := (slot, n + 1) :: s.dev.nonces.filter fun x => x.1 != slot },
   n ++ (s.dev.id.setWidth 32))

/-! ## Migration (R156) -/

/-- A sector's tag by which its grain is dirty. -/
def State.dirtySector (s : State) (sp : BitVec 16) (g0 : BitVec 48) (off : Nat) : Bool :=
  match s.sectorTag sp off with
  | some t => (t - g0.setWidth 16).toNat < 2 ^ 15
  | none => !older s.cl.evFloor g0

/-- A grain of some bytes is dirty when one of its sectors is. -/
def State.dirtyGrain (s : State) (sp : BitVec 16) (g0 : BitVec 48) (grain off : Nat) : Bool :=
  (List.range (grain / 32)).any fun k => s.dirtySector sp g0 (off + 32 * k)

/-- The grains of a page that a recopy pass copies again: all of them when the pass before ran for 2^15 GENs. -/
def State.dirtyGrains (s : State) (m : Mig) (grain : Nat) : Nat :=
  let off := (offOf m.page).toNat
  let all := (List.range (4096 / grain)).map fun k => off + k * grain
  if 2 ^ 15 ≤ (s.cl.gen - m.g0).toNat then all.length else (all.filter (s.dirtyGrain m.space m.g0 grain)).length

/-- The page's lines leave the near cache and the LLC. -/
def State.dropPage (s : State) (sp : BitVec 16) (page : Word) : State :=
  let here (line : Word) : Bool := line &&& ~~~0xFFF == page
  let s := (s.cl.nc.filter fun n => n.space == sp && here n.line).foldl State.ncDrop s
  let out := s.cl.llc.filter fun l => l.space == sp && here l.line
  let s := s.setCl { s.cl with llc := s.cl.llc.filter fun l => !(l.space == sp && here l.line) }
  out.foldl (fun s l => (s.raiseEvFloor l.tag0).raiseEvFloor l.tag1) s

/-- Bits of a leaf that a trailer keeps: PPN and V are zero. -/
def leafKept (p : Word) : Word := p &&& ~~~(0x003FFFFFFFFFFC01 : Word)

/-- The final pass: the page is read, encrypted and sent out; its lines are dropped; its leaf becomes not resident. -/
def State.finalPass (s : State) (m : Mig) (place : Nat) (leaf : Word) (tier : BitVec 2) (handle : BitVec 44) : State :=
  match s.pageKey m.space m.page with
  | none => s
  | some (key, aad) =>
    let off := (offOf m.page).toNat
    let flags := s.poisonMap m.space off 64 64
    let bad := (List.range 64).filter fun k => flags.getD k false
    let (s, bs) := s.readAt m.space off 4096 false
    let (s, nonce) := s.pageNonce m.space
    let ct := gcmCrypt key nonce 256 2 bs
    let t : Trailer :=
      { space := m.space, page := m.page, handle := handle.setWidth 64, nonce := nonce, leaf := leafKept leaf,
        tag := gcmTag key nonce aad 77 256 ct, poison := bad,
        drive := if tier = 2#2 then some (handle.toNat / 2 ^ 40) else none }
    let s := (s.dropPage m.space m.page).setDev { s.dev with trailers := s.dev.trailers ++ [t] }
    let entry : Word := (handle.setWidth 64 <<< 10) ||| (tier.setWidth 64 <<< 1)
    let s := (s.setMem (Mem.setWord s.mem (hbmKey place) entry)).setCl { s.cl with mig := some { m with blocked := some s.dev.clk } }
    (s.send (.pageOut m.space m.page ct)).advanceGen m.space

/-- An access that is past its checks is still to meet its bytes in the page: the final pass waits for it (R156, R167). -/
def State.pageInUse (s : State) (sp : BitVec 16) (page : Word) : Bool :=
  s.cores.any fun c => c.acc.any fun a =>
    a.known.isSome && a.space == sp && a.kind.lines.any fun g => !isNear g && s.lineVa g &&& ~~~0xFFF == page

/-- MIGRATION: one pass. `copy` begins with a resident, unpinned 4 KiB page; `recopy` counts what is dirty; `final` needs a
pass that found at most eight dirty grains. A home has one page in migration at a time: a copy while one is in progress changes
nothing, R156 giving no number (DESIGN CHOICE, log 75). -/
def execMigration (sp : BitVec 16) (addr : Word) (step : MigStep) (tier : BitVec 2) (handle : BitVec 44) (s : State) : Out :=
  let page := addr &&& ~~~0xFFF
  match s.leafAt sp page with
  | none => .next s
  | some (place, leaf) =>
    if !(leaf.getLsbD 0) || leaf.getLsbD 54 then .next s
    else
      match step, s.cl.mig with
      | .copy, none =>
        let lines := (List.range 64).map fun k => (offOf page).toNat + 64 * k
        match s.checkLines sp .load lines with
        | (_, some _) => .next s
        | (s, none) =>
          let g0 := s.cl.gen
          let s := (s.readAt sp (offOf page).toNat 4096 false).1
          .next (s.setCl { s.cl with mig := some { space := sp, page := page, g0 := g0, passes := 0, ready := false, blocked := none } })
      | .recopy, some m =>
        if m.space ≠ sp || m.page ≠ page || m.blocked.isSome || m.ready then .next s
        else
          let d := s.dirtyGrains m (grainBytes (pteGrain leaf))
          if d ≤ 8 then .next (s.setCl { s.cl with mig := some { m with g0 := s.cl.gen, passes := m.passes + 1, ready := true } })
          else if 4 ≤ m.passes + 1 then .next ((s.setCl { s.cl with mig := none }).count .abandonedMigrations 1)
          else .next (s.setCl { s.cl with mig := some { m with g0 := s.cl.gen, passes := m.passes + 1 } })
      | .final, some m =>
        if m.space ≠ sp || m.page ≠ page || m.blocked.isSome || !m.ready || !(tier == 1#2 || tier == 2#2) || s.pageInUse sp page then .next s
        else
          match s.checkLines sp .load ((List.range 64).map fun k => (offOf page).toNat + 64 * k) with
          | (_, some _) => .next s
          | (s, none) => .next (s.finalPass m place leaf tier handle)
      | .copy, some _ => .next s
      | .recopy, none => .next s
      | .final, none => .next s

/-- The block of the final pass may end: 200 clk have passed (R153). -/
def State.blockOver (s : State) : Bool := s.cl.mig.any fun m => m.blocked.any fun c => c + 200 ≤ s.dev.clk

/-- MIGRATION_BLOCK_END. -/
def execMigrationBlockEnd (s : State) : Out := .next (if s.blockOver then s.setCl { s.cl with mig := none } else s)

/-! ## Page-in (R158) -/

/-- The plaintext of a page that arrives: none where its tag fails or its drive has. -/
def State.pagePlain (s : State) (t : Trailer) (d : PageData) : Option (List Byte) :=
  match d with
  | .failed => none
  | .good ct =>
    if t.drive.any fun x => s.dev.badDrives.contains x then none
    else
      match s.pageKey t.space t.page with
      | none => none
      | some (key, aad) =>
        if ct.length = 4096 && gcmTag key t.nonce aad 77 256 ct == t.tag then some (gcmCrypt key t.nonce 256 2 ct) else none

/-- HBM poison set on lines of a frame. -/
def State.poisonLines (s : State) (pa : Nat) (ks : List Nat) : State := ks.foldl (fun s k => s.setHbmPoison (pa + 64 * k) true) s

/-- A page's lines written through the port. -/
def State.fillPage (s : State) (sp : BitVec 16) (page : Word) (pa : Nat) (mode : BitVec 2) : Nat → Nat → List Byte → State
  | 0, _, _ => s
  | n + 1, k, bs =>
    (s.portWrite sp (page + BitVec.ofNat 64 (64 * k)) (pa + 64 * k) mode (bs.take 64) false).fillPage sp page pa mode n (k + 1)
      (bs.drop 64)

/-- A page's data stands in its new frame, or every line of it is poisoned. -/
def State.placePage (s : State) (t : Trailer) (pa : Nat) (data : Option (List Byte)) : State :=
  let mode := pteMode t.leaf
  let all := List.range 64
  let bs := data.getD (List.replicate 4096 0)
  let bad := if data.isSome then t.poison else all
  if mode = 2#2 then
    match s.sealedInit t.space (s.frameOf pa) t.page bs with
    | (s, .done) => s.poisonLines pa bad
    | (s, .refused) => s.poisonLines pa all
    | (s, .pathFailed) => s.poisonLines pa all
    | (s, .exhausted) => s.poisonLines pa all
  else (s.fillPage t.space t.page pa mode 64 0 bs).poisonLines pa bad

/-- Requests that waited for a page go on: registrations, tickets and lists (R152, R191, R418). -/
def State.pageArrived (s : State) (sp : BitVec 16) (page : Word) : State :=
  let left := s.cl.tickets.filter fun t => !(t.1 == sp && t.2.1 == page)
  let word := pageWordAfter left s.cl.sluice s.cl.ticketNext s.cl.pageWord
  let s := s.setCl { s.cl with pageWord := word, tickets := left.filter fun t => decide (word.toNat < t.2.2.toNat) }
  let s := s.answerAll (s.cl.sluice.filter fun e => e.off == pageWordOff)
  let here (e : SluiceEntry) : Bool := e.space == sp && farAddr s.home e.off &&& ~~~0xFFF == page
  let regs := s.cl.pendingRegs.filter here
  let s := s.setCl { s.cl with pendingRegs := s.cl.pendingRegs.filter fun e => !here e }
  let s := regs.foldl State.sluiceAgain s
  (s.cl.waiting.filter (·.reading)).foldl State.relist s

/-- PAGE_IN. -/
def execPageIn (sp : BitVec 16) (addr : Word) (frame : Nat) (d : PageData) (s : State) : Out :=
  let page := addr &&& ~~~0xFFF
  let pa := frame / 4096 * 4096
  match s.dev.trailers.find? fun t => t.space == sp && t.page == page with
  | none => .next s
  | some t =>
    match s.leafAt sp page with
    | none => .next s
    | some (place, _) =>
      if pa < s.base || s.base + reservedTop < pa + 4096 || (s.frameMode pa).isSome then .next s
      else
        let leaf : Word := t.leaf ||| (BitVec.ofNat 64 (pa / 4096) <<< 10) ||| 1
        let s := (s.setFrameMode pa (pteMode t.leaf)).placePage t pa (s.pagePlain t d)
        let s := s.setMem (Mem.setWord s.mem (hbmKey place) leaf)
        let s := s.setDev { s.dev with trailers := s.dev.trailers.filter fun x => x != t }
        .next ((s.advanceGen sp).pageArrived sp page)

/-- DRIVE_FAILURE (R397): every page on the drive comes back poisoned. -/
def execDriveFailure (drive : Nat) (s : State) : Out := .next (s.setDev { s.dev with badDrives := drive :: s.dev.badDrives })

end Sys2Proof.Machine
end

