-- ==== Sys2Proof/Machine/EvFabric.lean ====
section
/-! DEFINITION. The pod's fabric from this device's side (chapters 18 and 20): retries, repeats, probes and loss; members;
key phases; PCIe completions of the quad's reads (R348). -/

namespace Sys2Proof.Machine

/-! ## Retry and repeat (R342, R343) -/

def State.outReq (s : State) (id : Nat) : Option OutReq := s.dev.reqs.find? fun r => r.id == id

def State.putReq (s : State) (r : OutReq) : State :=
  s.setDev { s.dev with reqs := s.dev.reqs.map fun x => if x.id = r.id then r else x }

/-- A request of a pull line: its repeats follow R242. -/
def isPullReq (id : Nat) : Bool := 2 ^ 67 ≤ id && id < 2 ^ 120

/-- RETRY (R342): the request is sent again after 2 µs. A retry carries no tag; one of a lost peer is dropped (R346), and any
other is a message received of its peer (R345). -/
def execRetry (hdr : NysilHdr) (req : Nat) (s : State) : Out :=
  if s.badHeader hdr then .next (s.count .nysilDropped 1)
  else if s.lostDev hdr.src then .next s
  else
    let s := s.heard hdr.src
    match s.outReq req with
    | none => .next s
    | some r => if r.dev = hdr.src then .next (s.putReq { r with retryAt := some (s.dev.clk + 2 * clkPerUs) }) else .next s

/-- A request goes out again, with repeat set, under a number of its own; a line of a transfer is counted as one too (R251,
R350). -/
def State.sendAgain (s : State) (r : OutReq) : State :=
  let s := ((s.putReq { r with sent := s.dev.clk, retryAt := none }).sendNysil r.dev r.slot r.type true (.again r.id)).count .repeatsSent 1
  if isPullReq r.id then (s.count .pullLines 1).count .pullRepeats 1 else s

/-- A retried request is due. -/
def State.retryDue (s : State) (r : OutReq) : Bool := r.retryAt.any fun t => t ≤ s.dev.clk

/-- REPEAT_AFTER_RETRY. -/
def execRepeatAfterRetry (req : Nat) (s : State) : Out :=
  match s.outReq req with
  | none => .next s
  | some r => if s.retryDue r then .next (s.sendAgain r) else .next s

/-- A request has gone 8 µs without its response; a registration's is its answer. -/
def State.repeatReq (s : State) (r : OutReq) : Bool := !isPullReq r.id && !r.oneWay && decide (r.sent + 8 * clkPerUs ≤ s.dev.clk)

/-- REQUEST_REPEAT (R343). -/
def execRequestRepeat (req : Nat) (s : State) : Out :=
  match s.outReq req with
  | none => .next s
  | some r => if s.repeatReq r then .next (s.sendAgain r) else .next s

/-! ## Probes (R345) -/

/-- What this device knows of a peer. -/
def State.peer (s : State) (d : BitVec 10) : Peer :=
  (s.dev.peers.find? fun p => p.dev == d).getD { dev := d, lastMsg := 0, probed := 0, lost := false }

def State.putPeer (s : State) (p : Peer) : State :=
  s.setDev { s.dev with peers := p :: s.dev.peers.filter fun x => x.dev != p.dev }

/-- PROBE: a probe of a peer arrives and is answered. -/
def execProbe (hdr : NysilHdr) (s : State) : Out :=
  receive (some hdr) true s fun s => .next (s.sendNysil hdr.src hdr.slot 0x0A false (.probeAnswer hdr.src))

/-- PROBE_ANSWER: a message received. -/
def execProbeAnswer (hdr : NysilHdr) (s : State) : Out := receive (some hdr) false s .next

/-- A request has been outstanding for 8 µs with nothing heard, and the last probe is 8 µs old. -/
def State.probeDue (s : State) (r : OutReq) : Bool :=
  let p := s.peer r.dev
  !p.lost && !r.oneWay && decide (max (max r.issued p.lastMsg) p.probed + 8 * clkPerUs ≤ s.dev.clk)

/-- PROBE_TIMER: the probe goes out in the session of the request that waits. -/
def execProbeTimer (dev : BitVec 10) (s : State) : Out :=
  match s.dev.reqs.find? fun r => r.dev == dev && s.probeDue r with
  | some r => .next ((s.putPeer { s.peer dev with probed := s.dev.clk }).sendNysil dev r.slot 0x09 false (.probe dev))
  | none => .next s

/-! ## Loss (R237, R345, R346) -/

/-- A request's window has run out: max(s, m) + T, with T in ns and two clk in three. -/
def State.lossDue (s : State) (r : OutReq) : Bool :=
  let p := s.peer r.dev
  !p.lost && !r.oneWay && decide (3 * r.timeout ≤ 2 * (s.dev.clk - max r.issued p.lastMsg))

/-- A session has carried 2^48 messages under one key (R376). -/
def Session.spent (x : Session) : Bool := 2 ^ 48 ≤ x.sinceFlip

/-- The device of a far address. -/
def devAt (x : Word) : BitVec 10 := devOf (homeOf x)

/-- What a core waits for from a lost device ends. -/
def State.loseCore (s : State) (d : BitVec 10) (c : Core) : State :=
  let s := (c.far.filter fun f => f.sent && devAt f.addr == d).foldl (fun s f => s.queue (.readResponse none f.req .lost)) s
  let s := (c.pgreqs.filter fun x => devAt x.2.2.2 == d).foldl
    (fun s x => s.queue (.pageRequestReply c.num x.2.1 x.2.2.1 .lost)) s
  let s := (c.openSlots.filter fun k => devAt c.slots[k].addr == d && c.slots[k].page.isNone).foldl
    (fun s k => s.queue (.watchAnswer c.num k c.slots[k].tag .lost)) s
  (c.prt.filter fun e => !e.struck && devOf (e.sector.extractLsb' 35 17) == d).foldl
    (fun s e => s.queue (.validationAnswer none e.id true)) s

/-- Lines of transfers outstanding at a lost device fail. -/
def State.losePulls (s : State) (d : BitVec 10) : State :=
  let hits := (List.finRange 16).flatMap fun ch => (s.chan ch).xfers.flatMap fun t => t.lines.zipIdx.flatMap fun l =>
    ((List.range l.1.src.length).filter fun m => l.1.outstanding m && devAt (l.1.src.getD m 0) == d).map fun m => (ch, t.xid, l.2, m)
  hits.foldl (fun s x => s.queue (.pullLineResponse x.1 x.2.1 x.2.2.1 x.2.2.2 .lost)) s

/-- The scheduler's watches, lists and code requests at a lost device end. -/
def State.loseSched (s : State) (d : BitVec 10) : State :=
  let s := (s.cl.watches.filter fun w => w.sent && devAt w.addr == d).foldl
    (fun s w => s.queue (.schedulerWatchAnswer w.id .lost [])) s
  let s := (s.cl.waiting.filter fun w => w.reading && w.desc.isEmpty && devAt w.cr.frame == d).foldl
    (fun s w => s.queue (.edgeListRead w.id (.fail 0x14))) s
  ((s.quad.icMiss.map (·.2)).dedup.filter fun a => devAt a == d).foldl (fun s a => s.queue (.lineFetch a .lost)) s

/-- The device of a requester. -/
def whoDev : Requester → BitVec 10
  | .slot h _ _ _ _ => devOf h
  | .sched h _ => devOf h
  | .tlb h _ => devOf h

/-- A launch has clusters bound on a device other than this (R337, R346, log 52). -/
def Launch.onDev (l : Launch) (d : BitVec 10) : Bool := l.elsewhere.contains d

def Launch.live (l : Launch) : Bool := l.st == .selected || l.st == .bound

/-- A peer is lost, or its sessions end as a lost peer's do (R338, R346). -/
def State.losePeer (s : State) (d : BitVec 10) : State :=
  let s := s.putPeer { s.peer d with lost := true }
  let s := s.setDev { s.dev with reqs := s.dev.reqs.filter fun r => r.dev != d }
  let s := s.setCl
    { s.cl with
      sluice := s.cl.sluice.filter fun e => whoDev e.who != d
      pendingRegs := s.cl.pendingRegs.filter fun e => whoDev e.who != d }
  let s := ((s.cores.foldl (fun s c => s.loseCore d c) s).losePulls d).loseSched d
  (s.dev.launches.filter fun l => l.live && l.onDev d).foldl
    (fun s l => s.askKill (s.plainKill l.graph 3 0x14 false 0)) s

/-- PEER_LOSS: a request's window has run out, or a session is spent. -/
def execPeerLoss (dev : BitVec 10) (s : State) : Out :=
  if s.dev.reqs.any (fun r => r.dev == dev && s.lossDue r) ||
      (!s.lostDev dev && s.dev.sessions.any fun x => x.dev == dev && x.spent) then .next ((s.count .peersLost 1).losePeer dev)
  else .next s

/-- A member's entry with its bit set and a session epoch (R338); a device that had none gets one. -/
def State.admitted (s : State) (dev : BitVec 10) (epoch : BitVec 4) : Member :=
  { (s.memberEntry dev).getD { dev := dev, member := true, ethernet := false, epoch := 0, pathBound := 0 } with
    member := true, epoch := epoch }

/-- PEER_READMIT (R338, R346): the stokers admit a device that was lost, or whose bit is clear, with a new session epoch under
fresh keys. -/
def execPeerReadmit (dev : BitVec 10) (epoch : BitVec 4) (s : State) : Out :=
  if !s.lostDev dev && s.member dev then .next s
  else
    .next (s.setDev
      { s.dev with
        peers := s.dev.peers.filter fun p => p.dev != dev
        sessions := s.dev.sessions.filter fun x => x.dev != dev
        members := s.admitted dev epoch :: s.dev.members.filter fun m => m.dev != dev })

/-- MEMBER_REMOVAL (R337, R338): the device's bit is cleared. The launches with clusters bound there are cancelled, all of them
where it is this device; another's sessions end as a lost peer's do. -/
def execMemberRemoval (dev : BitVec 10) (s : State) : Out :=
  if !s.member dev then .next s
  else
    let s := s.setDev { s.dev with members := s.dev.members.map fun m => if m.dev = dev then { m with member := false } else m }
    let s := (s.dev.launches.filter fun l => l.live && (dev == s.dev.id || l.onDev dev)).foldl
      (fun s l => s.askKill (s.plainKill l.graph 4 0x18 false 0)) s
    .next (if dev = s.dev.id then s else s.losePeer dev)

/-- UALINK_REQUEST (R339): an error completion, counted. -/
def execUalinkRequest (s : State) : Out := .next ((s.send .uaError).count .uaRejected 1)

/-! ## Keys of a session (R374-R376) -/

/-- A session's next key in its idle register, once the old one has been erased; it is acknowledged (R375, R376, log 44). -/
def State.nextKey (s : State) (x : Session) (key : BitVec 512) : State :=
  if (x.key !x.phase).isSome || !x.erased then s
  else (s.putSession { x.setKey (!x.phase) (some key) with idleAcked := false }).send (.keyAck x.dev x.slot)

/-- The 64 bytes of key that an agreed secret is expanded into (R374). -/
def agreedKey (secret : List Byte) : BitVec 512 := BitVec.ofNat 512 (leNat (sm3Kdf secret 2))

/-- A session is due for a rotation (R376): 2^32 messages under one key, or 60 s since the last flip. -/
def State.rotateDue (s : State) (x : Session) : Bool :=
  x.cached && !x.asked && x.erased && (x.key x.phase).isSome && !s.lostDev x.dev &&
    (decide (2 ^ 32 ≤ x.sinceFlip) || decide (x.flipAt + 60000000 * clkPerUs ≤ s.dev.clk))

/-- KEY_ROTATION (R374-R376): a rotation that is due is asked of the stokers; the next key is installed and acknowledged; the
sender flips when the peer has acknowledged. -/
def execKeyRotation (dev : BitVec 10) (slot : BitVec 6) (r : RotStep) (s : State) : Out :=
  match s.session dev slot with
  | none => .next s
  | some x =>
    match r with
    | .wanted => .next (if s.rotateDue x then (s.putSession { x with asked := true }).send (.rotate dev slot) else s)
    | .install key => .next (s.nextKey x key)
    | .agreed secret => .next (s.nextKey x (agreedKey secret))
    | .acknowledged =>
      if (x.key !x.phase).isNone || !x.erased then .next s
      else
        .next (s.putSession
          { x with phase := !x.phase, idleAcked := true, flipAt := s.dev.clk, erased := false, sinceFlip := 0, asked := false })

/-- The old phase of a session is due to be erased: 200 µs after the flip. -/
def State.eraseDue (s : State) (x : Session) : Bool := !x.erased && decide (x.flipAt + 200 * clkPerUs ≤ s.dev.clk)

/-- OLD_PHASE_ERASE. -/
def execOldPhaseErase (dev : BitVec 10) (slot : BitVec 6) (s : State) : Out :=
  match s.session dev slot with
  | none => .next s
  | some x =>
    if s.eraseDue x then .next (s.putSession { x.setKey (!x.phase) none with erased := true, idleAcked := false }) else .next s

/-! ## PCIe completions (R348) -/

/-- The channel, transfer, line and member of a pull request's number. -/
def pullOf (req : Nat) : Fin 16 × Nat × Nat × Nat :=
  let x := req - 2 ^ 67
  (Fin.ofNat 16 (x / 2 ^ 102), x / 2 ^ 38 % 2 ^ 64, x / 64 % 2 ^ 32, x % 64)

/-- The bytes of a host read as a far read's reply: home 126 has no GEN. -/
def hostReply (x : Word) (l : Line) : Reply :=
  .data 0 .g32 [((l.setWidth 256) <<< (8 * (x.toNat % 32)), false)]

/-- A PCIe read of the quad's ends: a code line, a pull line or a far read. One that has ended already is dropped; of a pull line
that is a duplicate (R251). -/
def State.hostRead (s : State) (req : Nat) (line : LineReply) (far : Word → Reply) : Out :=
  if !s.pcieOpen req then
    if isPullReq req then
      let p := pullOf req
      execPullLineResponse p.1 p.2.1 p.2.2.1 p.2.2.2 line s
    else .next (s.lateReply req)
  else
    let s := s.endPcie req
    if 2 ^ 120 ≤ req then execLineFetch (BitVec.ofNat 64 (req - 2 ^ 120)) line s
    else if isPullReq req then
      let p := pullOf req
      execPullLineResponse p.1 p.2.1 p.2.2.1 p.2.2.2 line s
    else
      let x := (s.cores.findSome? fun c => (c.far.find? fun f => f.req == req).map (·.addr)).getD 0
      readReply req (far x) s

end Sys2Proof.Machine
end

