-- ==== Sys2Proof/Machine/EvHost.lean ====
section
/-! DEFINITION. The host's side of the part: launch rings and records (R391-R393), the launch table (R389, R390), selection
and binding (R136, R164), completion, kill and cancel (R333-R335, R394, R395), the time servo (R388), the registers that
the stokers write, and boot (R396). -/

namespace Sys2Proof.Machine

/-! ## Completion records (R334, R394) -/

/-- The 64 bytes of a completion or kill record. -/
def recordBytes (completion : Word) (r : KillReq) (b11 : Byte) (clk : Word) : List Byte :=
  leBytes 8 completion.toNat ++ [r.cause, r.origin, r.undelivered, b11] ++ leBytes 4 r.graph.toNat ++
    leBytes 4 r.firing.toNat ++ leBytes 4 r.loc.toNat ++ leBytes 8 r.tval.toNat ++ leBytes 8 r.tval1.toNat ++
    leBytes 8 r.tval2.toNat ++ leBytes 8 r.ret.toNat ++ leBytes 8 clk.toNat

/-- A normal end: cause 0, origin 5 and the instance; zeros elsewhere. -/
def normalEnd (graph : BitVec 32) : KillReq :=
  { graph := graph, cause := 0, origin := 5, undelivered := 0, firing := 0, loc := 0, tval := 0, tval1 := 0, tval2 := 0, ret := 0 }

/-- The chunk's request number of a distributor's read. -/
def ringReq (fn : Fin 63) (timed : Option (Fin 256)) (k : Nat) : Nat :=
  2 ^ 130 + (fn.val + 64 * ((timed.map fun i => i.val + 1).getD 0)) * 2 ^ 32 + k

/-- Chunks asked for, from address `a`. -/
def State.askChunks (s : State) (fn : Fin 63) (timed : Option (Fin 256)) (a : Word) (k n : Nat) : State :=
  (List.range n).foldl (fun s i => s.askPcie fn.val (ringReq fn timed (k + i)) (a + BitVec.ofNat 64 (64 * i))) s

def State.putEntry (s : State) (e : LaunchEntry) : State :=
  s.setDev { s.dev with table := e :: s.dev.table.filter fun x => x.idx != e.idx }

def State.entry (s : State) (i : Fin 256) : Option LaunchEntry := s.dev.table.find? fun e => e.idx == i

/-- A new instance of an entry enters: the distributor reads its template in home 127, under space 0 (R389, log 36). -/
def State.enterTimed (s : State) (i : Fin 256) : State :=
  match s.entry i with
  | none => s
  | some e =>
    match s.serviceBytes 0 (offOf e.template).toNat 128 .load with
    | (s, .ok (bs, false)) =>
      let r : RingRead :=
        { fn := 0, timed := some i, launch := none, roots := 0, exports := 0, want := 2, prio := e.prio
          chunks := [(0, lineOfBytes (bs.take 64)), (1, lineOfBytes (bs.drop 64))] }
      s.setDev { s.dev with reads := s.dev.reads ++ [r] }
    | (s, .ok (_, true)) => s
    | (s, .error _) => s

/-- An instance of an entry has ended: a pending one enters (R390). -/
def State.timedEnd (s : State) (timed : Option (Fin 256)) : State :=
  match timed.bind s.entry with
  | none => s
  | some e => if e.pending then (s.putEntry { e with pending := false }).enterTimed e.idx else s

/-- A launch as it stands in the device's list. -/
def State.launch (s : State) (g : BitVec 32) : Option Launch := s.dev.launches.find? fun l => l.graph == g

def State.putLaunch (s : State) (l : Launch) : State :=
  s.setDev { s.dev with launches := l :: s.dev.launches.filter fun x => x.graph != l.graph }

/-- The 64 bytes of a launch's completion area in home 127 take its record, where a table maps the area: that of the launch's space,
or else of space 0 (R394, log 36). -/
def State.recordMem (s : State) (l : Launch) (bs : List Byte) : List Host.Cell :=
  let off := (offOf (Config.completionArea l.graph)).toNat
  match (s.serviceAt l.space off 64 .load).2 with
  | .ok pa => Mem.writeBytes s.mem (hbmKey pa) bs
  | .error _ =>
    match (s.serviceAt 0 off 64 .load).2 with
    | .ok pa => Mem.writeBytes s.mem (hbmKey pa) bs
    | .error _ => s.mem

/-- The record of a launch is published: it is written to the completion area and the completion word advances, a release at home 127
(R333), then the mirror is written and the function's interrupt raised (R394). -/
def State.publish (s : State) (l : Launch) (r : KillReq) (clk : Word) : State :=
  let b11 : Byte := if l.capture && s.dev.logFull.contains l.logAt then 1 else 0
  let bs := recordBytes (l.completion + 1) r b11 clk
  let s := s.putLaunch { l with st := .done, completion := l.completion + 1, record := some bs }
  let s := ((s.setSvc { s.dev.svc with gen := s.dev.svc.gen + 1 }).setMem (s.recordMem l bs)).serviceNotify
  ((s.send (.mirror l.mirror bs)).send (.msix l.fn)).timedEnd l.timed

/-- A refusal by the distributor, or the removal of a queued launch: origin 5. -/
def State.refuse (s : State) (l : Launch) (cause : Byte) (tval : Word) : State :=
  s.publish l (s.plainKill l.graph 5 cause false tval) s.clk

/-! ## Launch records (R393) -/

/-- Bytes [k, k + n) of a record as a number. -/
def recField (bs : List Byte) (k n : Nat) : Nat := leNat ((bs.drop k).take n)

/-- The first field of a record that breaks its limits, by byte offset; the sequence number, the partition word and the
tables are judged elsewhere. -/
def State.badField (s : State) (fn : Fin 63) (bs : List Byte) : Option Nat :=
  let f := recField bs
  let sp := BitVec.ofNat 16 (f 20 2)
  let flags := f 23 1
  let logs := flags % 4 ≠ 0
  let place := BitVec.ofNat 64 (f 96 8)
  let bad : List (Nat × Bool) := [
    (8, (pointerCheck (BitVec.ofNat 64 (f 8 8))).isSome),
    (20, (s.space? sp).isNone || (fn.val != 0 && (s.slotOf sp).toNat != fn.val)),
    (22, decide (3 < f 22 1)),
    (23, decide (3 ≤ flags)),
    (24, decide (127 < f 24 1)),
    (25, decide (f 25 1 < 1 ∨ 64 < f 25 1)),
    (26, f 26 6 != 0),
    (32, f 32 9 == 0),
    (41, f 41 7 != 0),
    (48, f 48 8 % 8 != 0 || decide (f 80 8 < f 48 8 + 24 * f 25 1)),
    (56, decide (0 < f 64 2 ∧ f 80 8 < f 56 8 + 4 * f 64 2)),
    (64, decide (1152 < f 64 2)),
    (66, f 66 6 != 0),
    (72, f 72 8 % 4096 != 0),
    (80, f 80 8 % 4096 != 0),
    (88, f 88 8 % 64 != 0),
    (96, if logs then !canonical place || homeOf place != s.dev.id ++ 127#7 || (flags == 2 && s.dev.logFull.contains place) else place != 0),
    (104, f 104 8 % 4096 != 0),
    (112, f 112 16 != 0)]
  (bad.find? (·.2)).map (·.1)

/-- The launch that a record describes, its tables still empty. -/
def launchOf (fn : Fin 63) (timed : Option (Fin 256)) (prio : BitVec 2) (graph : BitVec 32) (bs : List Byte) : Launch :=
  let f := recField bs
  { graph := graph, fn := fn, seqNo := f 0 8, st := .queued, tvec := BitVec.ofNat 64 (f 8 8), part := BitVec.ofNat 32 (f 16 4),
    space := BitVec.ofNat 16 (f 20 2), queue := BitVec.ofNat 2 (f 22 1), capture := f 23 1 % 2 == 1, replay := f 23 1 / 2 % 2 == 1,
    limit := if f 24 1 = 0 then 64 else f 24 1, clusters := BitVec.ofNat 72 (f 32 9), roots := [], exports := [],
    hwbase := BitVec.ofNat 64 (f 72 8), wlen := BitVec.ofNat 64 (f 80 8), mirror := BitVec.ofNat 64 (f 88 8),
    logAt := BitVec.ofNat 64 (f 96 8), logSize := f 104 8, prio := prio, timed := timed,
    completion := 0, record := none, killing := none, elsewhere := [], sources := [] }

/-- The next graph instance number (R394). -/
def nextGraph (g : BitVec 32) : BitVec 32 := if g = 0xFFFFFFFF#32 then 1 else g + 1

/-- A capture begins: the log holds the launch record alone (R399). -/
def State.openLog (s : State) (l : Launch) (bs : List Byte) : State :=
  if !l.capture then s
  else
    let s := s.setDev
      { s.dev with
        log := s.dev.log.filter fun e => e.place != l.logAt
        logFull := s.dev.logFull.filter fun a => a != l.logAt
        logBlocks := s.dev.logBlocks.filter fun x => x.place != l.logAt }
    let e : LogEntry := { graph := l.graph, place := l.logAt, type := 0x01, key := 0, attempt := 0, ordinal := 0, data := wordsOf 16 bs }
    if l.logSize < 144 then s.setDev { s.dev with logFull := s.dev.logFull ++ [l.logAt] }
    else s.setDev { s.dev with log := s.dev.log ++ [e] }

def State.putRead (s : State) (r : RingRead) : State :=
  s.setDev { s.dev with reads := s.dev.reads.map fun x => if x.fn == r.fn && x.timed == r.timed then r else x }

def State.dropRead (s : State) (r : RingRead) : State :=
  s.setDev { s.dev with reads := s.dev.reads.filter fun x => !(x.fn == r.fn && x.timed == r.timed) }

/-- The bytes of a read whose chunks have all arrived. -/
def RingRead.bytes (r : RingRead) : List Byte :=
  (List.range r.want).flatMap fun k => lineBytes (((r.chunks.find? fun c => c.1 == k).map (·.2)).getD 0)

/-! ## Rings (R391, R392) -/

def State.ring (s : State) (fn : Fin 63) : Ring := s.dev.rings[fn]
def State.setRing (s : State) (fn : Fin 63) (r : Ring) : State := s.setDev { s.dev with rings := s.dev.rings.set fn r }

/-- The last record that the newest NOTIFY lets the distributor read: no record past those that the ring can hold (R392). -/
def Ring.bounded (r : Ring) : Ring := { r with upTo := min r.notify (r.consumed + r.entries) }

/-- RING_STATUS (R391): enabled, held at boot, and the refused records. -/
def State.ringStatus (s : State) (fn : Fin 63) : Word :=
  BitVec.ofNat 64 (s.ring fn).refused <<< 32 ||| (if s.dev.booted then 1 else 2)

/-! ## The capability chain (R398) -/

/-- The entries of the chain, by ID, with their bodies. -/
def capEntries (dev : BitVec 10) : List (Nat × List Byte) := (List.range 8).map fun k => (k + 1, Config.capBody (k + 1) dev)

/-- The chain from an offset of `off` on: each entry's header gives its ID, version 1, its length in 16-byte units and the offset of
the next entry, 0 at the end. -/
def capFrom : Nat → List (Nat × List Byte) → List Byte
  | _, [] => []
  | off, e :: r =>
    let n := (8 + e.2.length + 15) / 16
    let header := leBytes 2 e.1 ++ [1, BitVec.ofNat 8 n] ++ leBytes 4 (if r.isEmpty then 0 else off + 16 * n)
    (header ++ e.2 ++ List.replicate (16 * n - 8 - e.2.length) 0) ++ capFrom (off + 16 * n) r

/-- The capability chain as the stokers publish it at boot, at CAPBASE and in the mirror of BAR0. -/
def State.capChain (s : State) : List Byte := capFrom 0 (capEntries s.dev.id)

/-- A 64-bit read of a function's BAR0 (R391): none where no readable register stands. -/
def State.barRead (s : State) (fn : Fin 63) (off : Nat) : Option Word :=
  if off < 0x1000 then
    if s.dev.booted then some (BitVec.ofNat 64 (leNat ((s.capChain.drop off).take 8))) else some 0
  else if off = 0x1008 then some (s.ring fn).base
  else if off = 0x1010 then some (BitVec.ofNat 64 (s.ring fn).entries)
  else if off = 0x1018 then some (BitVec.ofNat 64 (s.ring fn).consumed)
  else if off = 0x1028 then some (s.ringStatus fn)
  else none

/-- The distributor reads the ring's next record, if one is notified. -/
def State.ringGo (s : State) (fn : Fin 63) : State :=
  let r := s.ring fn
  if !s.dev.booted || r.upTo ≤ r.consumed || s.dev.reads.any (fun x => x.fn == fn && x.timed.isNone) then s
  else
    let x : RingRead := { fn := fn, timed := none, launch := none, roots := 0, exports := 0, want := 2, chunks := [], prio := 0 }
    (s.setDev { s.dev with reads := s.dev.reads ++ [x] }).askChunks fn none
      (r.base + BitVec.ofNat 64 ((r.consumed + 1) % r.entries * 128)) 0 2

/-- Held register writes take effect once CONSUMED has reached the last NOTIFY. -/
def Ring.settled (r : Ring) : Ring :=
  if r.consumed < r.notify then r
  else { r with base := r.heldBase.getD r.base, entries := r.heldEntries.getD r.entries, heldBase := none, heldEntries := none }

/-- A record has been taken: CONSUMED advances, and the next one is read. -/
def State.consume (s : State) (x : RingRead) (refused : Bool) : State :=
  let s := s.dropRead x
  if x.timed.isSome then s
  else
    let r := s.ring x.fn
    let r := { r with consumed := r.consumed + 1, refused := if refused then (r.refused + 1) % 2 ^ 32 else r.refused }
    (s.setRing x.fn r.settled).ringGo x.fn

/-- Chunks that `n` bytes take. -/
def chunksOf (n : Nat) : Nat := (n + 63) / 64

/-- A record has been read: it is not launched, refused, or its tables are read. -/
def State.recordRead (s : State) (x : RingRead) : State :=
  let bs := x.bytes
  let seqBad := x.timed.isNone && recField bs 0 8 != (s.ring x.fn).consumed + 1
  if seqBad then s.consume x true
  else
    let l := launchOf x.fn x.timed x.prio s.dev.graphNext bs
    let s := s.setDev { s.dev with graphNext := nextGraph s.dev.graphNext }
    match s.badField x.fn bs with
    | some off => (s.consume x false).refuse l 0x01 (BitVec.ofNat 64 off)
    | none =>
      let s := s.openLog l bs
      let roots := recField bs 25 1
      let exports := recField bs 64 2
      let nr := chunksOf (24 * roots)
      let ne := chunksOf (4 * exports)
      let s := s.putRead { x with launch := some l, roots := roots, exports := exports, want := nr + ne, chunks := [] }
      let s := s.askChunks x.fn x.timed (l.hwbase + BitVec.ofNat 64 (recField bs 48 8)) 2 nr
      s.askChunks x.fn x.timed (l.hwbase + BitVec.ofNat 64 (recField bs 56 8)) (2 + nr) ne

/-- The root table's entries: code pointer, frame pointer, cluster, width; none where one breaks its limits. -/
def rootEntries (mask : BitVec 72) : Nat → List Byte → Option (List (Word × Word × BitVec 7 × Bool))
  | 0, _ => some []
  | n + 1, bs =>
    let c := recField bs 16 1
    let w := recField bs 17 1
    if c < 72 && mask.getLsbD c && (w == 1 || w == 4) && recField bs 18 6 == 0 then
      (rootEntries mask n (bs.drop 24)).map fun r =>
        (BitVec.ofNat 64 (recField bs 0 8), BitVec.ofNat 64 (recField bs 8 8), BitVec.ofNat 7 c, w == 4) :: r
    else none

/-- The export table's entries; none where one breaks its limits (R129). -/
def exportEntries (mask : BitVec 72) : Nat → List Byte → Option (List (BitVec 7 × BitVec 17))
  | 0, _ => some []
  | n + 1, bs =>
    let v := recField bs 0 4
    let t := v / 128 % 2 ^ 17
    if v % 128 < 72 && mask.getLsbD (v % 128) && t % 128 < 72 && v < 2 ^ 24 then
      (exportEntries mask n (bs.drop 4)).map fun r => (BitVec.ofNat 7 v, BitVec.ofNat 17 t) :: r
    else none

/-- At most 16 targets of a cluster, and 64 sources of a target. -/
def exportLimits (es : List (BitVec 7 × BitVec 17)) : Bool :=
  es.all fun e => (es.filter fun x => x.1 == e.1).length ≤ 16 && (es.filter fun x => x.2 == e.2).length ≤ 64

/-- A launch enters its queue. -/
def State.enqueue (s : State) (l : Launch) : State :=
  let q : Fin 4 := l.queue.toFin
  s.setDev { s.dev with queues := s.dev.queues.set q (s.dev.queues[q] ++ [l]) }

/-- The tables have been read. -/
def State.tablesRead (s : State) (x : RingRead) (l : Launch) : State :=
  let bs := x.bytes
  match rootEntries l.clusters x.roots bs, exportEntries l.clusters x.exports (bs.drop (64 * chunksOf (24 * x.roots))) with
  | none, _ => (s.consume x false).refuse l 0x01 48
  | some _, none => (s.consume x false).refuse l 0x01 56
  | some r, some e =>
    if !exportLimits e || e.any (fun y => !s.member (devOf y.2)) then (s.consume x false).refuse l 0x01 56
    else (s.enqueue { l with roots := r, exports := e }).consume x false

/-- The distributor's read that a request number names, and the number of its chunk. -/
def State.readOf (s : State) (req : Nat) : Option (RingRead × Nat) :=
  s.dev.reads.findSome? fun x =>
    let base := ringReq x.fn x.timed 0 + if x.launch.isSome then 2 else 0
    if base ≤ req && req < base + x.want && !(x.chunks.any fun c => c.1 == req - base) then some (x, req - base) else none

/-- A chunk has arrived. -/
def State.chunk (s : State) (req : Nat) (l : Line) : State :=
  match s.readOf req with
  | none => s
  | some (x, k) =>
    let x := { x with chunks := x.chunks ++ [(k, l)] }
    if x.chunks.length < x.want then s.putRead x
    else
      match x.launch with
      | none => s.recordRead x
      | some g => s.tablesRead x g

/-- A read of the distributor has failed: a record is not launched; a table refuses its launch. -/
def State.chunkFails (s : State) (req : Nat) : State :=
  match s.readOf req with
  | none => s
  | some (x, k) =>
    match x.launch with
    | none => (s.consume x true).timedEnd x.timed
    | some l => (s.consume x false).refuse l 0x01 (if k < chunksOf (24 * x.roots) then 48 else 56)

/-- PCIE_COMPLETION (R348, R392). -/
def execPcieCompletion (req : Nat) (e : PcieEnd) (s : State) : Out :=
  if 2 ^ 130 ≤ req then
    let s := s.endPcie req
    .next (match e with
      | .data l => s.chunk req l
      | .abort => s.chunkFails req
      | .poisoned => s.chunkFails req)
  else
    match e with
    | .data l => s.hostRead req (.data 0 l false) fun x => hostReply x l
    | .abort => s.hostRead req (.fault 0x09) fun _ => .fault 0x09
    | .poisoned => s.hostRead req (.fault 0x0C) fun _ => .fault 0x0C

/-- A host read has gone the session timeout without its completion (R348). -/
def State.pcieDue (s : State) (x : Nat × Nat) : Bool := decide (x.2 ≤ s.dev.clk)

/-- COMPLETION_TIMEOUT (R348). -/
def execCompletionTimeout (req : Nat) (s : State) : Out :=
  if !(s.dev.pcie.any fun x => x.1 == req && s.pcieDue x) then .next s
  else if 2 ^ 130 ≤ req then .next ((s.endPcie req).chunkFails req)
  else s.hostRead req (.fault 0x14) fun _ => .fault 0x14

/-- NOTIFY: held until boot's step 6; a value at or below CONSUMED has no effect; one that IDE refuses is an unsupported request
(R373). -/
def execNotify (fn : Fin 63) (v : Word) (s : State) : Out :=
  let r := s.ring fn
  if s.ideRefuses fn.val || decide (v.toNat ≤ r.consumed) then .next s
  else
    let r := { r with notify := v.toNat }
    .next ((s.setRing fn (if s.dev.booted then r.bounded else r)).ringGo fn)

/-- RING_BASE. -/
def execRingBase (fn : Fin 63) (v : Word) (s : State) : Out :=
  let r := s.ring fn
  if s.ideRefuses fn.val || v.extractLsb' 0 7 != 0#7 then .next s else .next (s.setRing fn { r with heldBase := some v }.settled)

/-- RING_ENTRIES. -/
def execRingEntries (fn : Fin 63) (v : Word) (s : State) : Out :=
  let r := s.ring fn
  if !s.ideRefuses fn.val && ((List.range 17).map fun k => 2 ^ k).contains v.toNat then .next (s.setRing fn { r with heldEntries := some v.toNat }.settled)
  else .next s

/-! ## Selection and binding (R136, R164, R354) -/

/-- The clusters of a launch are free. -/
def State.clustersFree (s : State) (mask : BitVec 72) : Bool := s.dev.launches.all fun l => !l.live || l.clusters &&& mask == 0

/-- A hearth's launch waits for its interface to run (R384). -/
def State.interfaceReady (s : State) (sp : BitVec 16) : Bool :=
  let k := s.slotOf sp
  k == 0 || k == 63 || (s.dev.slots[k.toNat]'(k.isLt)).st != .kindled || s.interface k == .run

/-- The priority at which a queue's head is selected. -/
def State.headPrio (s : State) (q : Fin 4) (l : Launch) : BitVec 2 := if l.timed.isSome then l.prio else s.dev.queuePrio[q]

/-- The eligible head of the highest priority, the lowest queue among equals. -/
def State.selectable (s : State) : Option (Fin 4 × Launch) :=
  let heads := (List.finRange 4).filterMap fun q => (s.dev.queues[q].head?).bind fun l =>
    if s.clustersFree l.clusters && s.interfaceReady l.space then some (q, l) else none
  [0, 1, 2, 3].findSome? fun p => heads.find? fun x => (s.headPrio x.1 x.2).toNat == p

/-- The refusals of R161 and R354: cause and kill TVAL. -/
def State.bindCheck (s : State) (l : Launch) : Option (Byte × Word) :=
  let k := s.slotOf l.space
  let slot := s.dev.slots[k.toNat]'(k.isLt)
  if !partOk l.part then some (0x01, l.part.setWidth 64)
  else if l.space = 0 || k = 63 || (k ≠ 0 && (slot.st ≠ .kindled || l.clusters &&& ~~~slot.clusters ≠ 0)) then
    some (0x09, l.space.setWidth 64)
  else none

/-- Clk that zeroing takes: the scratch and the accumulators of each pool at 256 bytes a clk, the pools at once (R164). -/
def zeroClk (part : BitVec 32) : Nat := (partP part + 16384 * partA part) / 256

/-- Scratch and accumulators of the modelled cluster zeroed (R164, R210). -/
def State.zeroSram (s : State) : State :=
  let s := (s.setMem (s.mem.filter fun c => decide (0x2000000 ≤ c.1))).setCl { s.cl with poison := [], tagBase := s.tagNow, nearTags := [] }
  s.mapCores fun c => { c with accum := [], wild := [] }

/-- Zeroing begins: it goes on until `zeroAt`, behind one that is not yet done, at R164's rate (the bytes read as zero at once;
nothing of the cluster uses them before it is done). -/
def State.beginZero (s : State) (part : BitVec 32) : State :=
  s.zeroSram.setCl { s.zeroSram.cl with zeroAt := max s.dev.clk s.cl.zeroAt + zeroClk part }

/-- Scheduler watches of an instance, and of its lanes, are cancelled. -/
def State.stopWatches (s : State) (g : BitVec 32) : State :=
  let out := s.cl.watches.filter fun w => s.watchGraph w == g
  let s := out.foldl (fun s w =>
    (if w.sent then s.unregister ((s.cl.bound.map (·.space)).getD 0) w.addr (.sched s.home w.id) else s).untrack (watchReq (.sched s.home w.id))) s
  s.setCl { s.cl with watches := s.cl.watches.filter fun w => !out.contains w }

/-- The root record i of a launch (R393, R400). -/
def rootRecord (l : Launch) (prio : BitVec 2) (i : Nat) (r : Word × Word × BitVec 7 × Bool) : ContRec :=
  { ContRec.none with
    code := r.1, frame := r.2.1, prio := prio, wide := r.2.2.2, timed := l.timed.isSome, graph := l.graph, space := l.space,
    key := BitVec.ofNat 64 i }

/-- A launch bound to the modelled cluster: its memories are zeroed, and its root records are placed when that is done (R164). -/
def State.bindHere (s : State) (l : Launch) : State :=
  let s := s.stopWatches ((s.cl.bound.map (·.graph)).getD 0)
  let b : Binding :=
    { graph := l.graph, space := l.space, tvec := l.tvec, limit := l.limit, hwbase := l.hwbase, wlen := l.wlen,
      exports := (l.exports.filter fun e => e.1 == s.clusterNo).map (·.2), capture := l.capture, replay := l.replay,
      timed := l.timed.isSome }
  let s := s.beginZero l.part
  let s := s.setCl
    { s.cl with
      part := l.part, bound := some b, chans := Vector.replicate 16 Chan.zero, lanes := [], consumed := [], reserved := false
      replayed := [], placing := some l.graph }
  { s with icache := [], quad := { s.quad with lastGrant := 3, icMiss := [], icDue := [], icBad := [] } }

/-- The homes whose clusters name the modelled one as an export target: this device's by the export table, those of other devices
as their distributors give them (R129, log 52). -/
def State.laneSources (s : State) (l : Launch) : List (BitVec 17) :=
  ((l.exports.filter fun e => e.2 == s.home && e.1 != s.clusterNo).map fun e => (s.dev.id ++ e.1 : BitVec 17)) ++ l.sources

/-- The zeroing that a binding has begun is done. -/
def State.placeDue (s : State) : Option (BitVec 32) := if s.cl.zeroAt ≤ s.dev.clk then s.cl.placing else none

/-- The root records of a bound launch are placed, and the scheduler watches the lanes that name it; what an access of a launch
that is gone has still stored meanwhile is zeroed with the rest (R129, R164). -/
def State.placeRoots (s : State) (g : BitVec 32) : State :=
  let s := s.zeroSram
  let s := s.setCl { s.cl with placing := none }
  match s.launch g with
  | none => s
  | some l =>
    let s := (l.roots.zipIdx.filter fun r => r.1.2.2.1 == s.clusterNo).foldl (fun s r => s.join (rootRecord l l.prio r.2 r.1)) s
    (s.laneSources l).foldl (fun s h => s.addWatch s.id (.inLane h) (farAddr h laneWordOff) 1) s

/-- LAUNCH_SELECTION: the selected launch is bound, or refused; `elsewhere` are the other devices whose distributors bind
clusters to the same instance, `sources` the clusters there whose lanes name the modelled cluster (log 52). -/
def execLaunchSelection (s : State) (elsewhere : List (BitVec 10) := []) (sources : List (BitVec 17) := []) : Out :=
  match s.selectable with
  | none => .next s
  | some (q, l) =>
    let prio := s.headPrio q l
    let s := s.setDev { s.dev with queues := s.dev.queues.set q (s.dev.queues[q].drop 1) }
    match s.bindCheck l with
    | some (c, v) => .next (s.refuse l c v)
    | none =>
      let l := { l with st := .bound, prio := prio, elsewhere := elsewhere, sources := sources }
      let s := s.putLaunch l
      .next (if l.clusters.getLsbD s.clusterNo.toNat then s.bindHere l else s)

/-! ## The launch table (R389, R390) -/

/-- An entry within its limits and enabled. -/
def LaunchEntry.ok (e : LaunchEntry) : Bool := e.enable && decide (1000 ≤ e.period.toNat) && decide (e.phase.toNat < e.period.toNat)

/-- An entry's template stands at a far address of home 127; an entry without one is treated as disabled (R389). -/
def State.templateOk (s : State) (e : LaunchEntry) : Bool := canonical e.template && homeOf e.template == s.service

/-- The TIME of an entry's next slot (R390). -/
def LaunchEntry.slotTime (e : LaunchEntry) : Nat := e.phase.toNat + e.next * e.period.toNat

/-- The next slot of an entry has been reached. -/
def State.slotDue (s : State) (e : LaunchEntry) : Bool := e.ok && s.templateOk e && decide (e.slotTime ≤ s.dev.time)

/-- An instance of an entry has entered the distributor and not ended. -/
def State.entryRuns (s : State) (i : Fin 256) : Bool :=
  s.dev.reads.any (fun x => x.timed == some i) || s.dev.launches.any (fun l => l.timed == some i && l.live) ||
    s.dev.queues.toList.any fun q => q.any fun l => l.timed == some i

/-- LAUNCH_SLOT: one slot of an entry is decided. -/
def execLaunchSlot (i : Fin 256) (s : State) : Out :=
  match s.entry i with
  | none => .next s
  | some e =>
    if !s.slotDue e then .next s
    else
      let e := { e with next := e.next + 1 }
      if !s.entryRuns i then .next ((s.putEntry e).enterTimed i)
      else if e.policy && !e.pending then .next (s.putEntry { e with pending := true })
      else .next (s.putEntry { e with skips := if e.skips = 0xFFFFFFFF#32 then e.skips else e.skips + 1 })

/-! ## Completion and kill (R333-R335, R394) -/

/-- A core runs, or is to resume, a firing of the instance. -/
def Core.serves (c : Core) (g : BitVec 32) : Bool := c.status != .idle && c.task.graph == g

/-- A record of the instance remains in the modelled cluster, its roots that are still to be placed among them. -/
def State.recordsLeft (s : State) (g : BitVec 32) : Bool :=
  s.cl.placing == some g ||
  s.cl.lists.toList.any (fun l => l.any fun x => x.1.graph == g) || s.cl.waiting.any (fun w => w.cr.graph == g) ||
    s.cl.overflow.any (fun r => r.graph == g) || s.cl.lanes.any (fun l => l.2.2.any fun r => r.graph == g) ||
    s.cl.images.any (fun x => x.cores.any fun c => c.task.graph == g) ||
    s.cl.watches.any fun w => match w.use with
      | .residency r => r.graph == g
      | .edge _ _ => false
      | .channel _ _ => false
      | .lane _ => false
      | .inLane _ => false

/-- The modelled cluster has nothing left of a bound launch. -/
def State.launchQuiet (s : State) (l : Launch) : Bool :=
  l.st == .bound && l.killing.isNone && !(s.cores.any fun c => c.serves l.graph) && !s.recordsLeft l.graph

/-- LAUNCH_COMPLETION. -/
def execLaunchCompletion (graph : BitVec 32) (s : State) : Out :=
  match s.launch graph with
  | none => .next s
  | some l => if s.launchQuiet l then .next ((s.stopWatches graph).publish l (normalEnd graph) s.clk) else .next s

/-- Nothing waits for the lines of transfers that are gone (R250). -/
def State.prunePulls (s : State) : State :=
  let keeps (id : Nat) : Bool := !isPullReq id || (s.xfer (pullOf id).1 (pullOf id).2.1).isSome
  s.setDev { s.dev with reqs := s.dev.reqs.filter (fun r => keeps r.id), pcie := s.dev.pcie.filter fun x => keeps x.1 }

/-- The transfers that pass `p` are cancelled: their lines are posted no more, responses to them are dropped, and their scoreboard
entries are freed, on a core that their firing has left too. -/
def State.cancelPulls (s : State) (p : Transfer → Bool) : State :=
  let gone := (s.cl.chans.toList.flatMap fun c => c.xfers.filter p).map (·.cmd)
  ((s.setCl { s.cl with chans := s.cl.chans.map fun c => { c with xfers := c.xfers.filter fun t => !p t } }).mapCores fun c =>
    { c with sb := c.sb.filter fun r => !gone.contains r.id }).prunePulls

/-- The firing of a core is gone: the core in focus leaves it alone, its engine commands stopped, the transfers that it has
issued among them (R250, R277, R333). -/
def State.dropCore (s : State) : State :=
  let c := s.core
  let s := (s.cancelSlots c).cancelPulls fun t => t.owner == c.num && t.firing == c.number
  let s := s.setCore { s.core.release s.dev.clk with sb := [] }
  { s with quad := { s.quad with icBad := s.quad.icBad.filter fun x => x.1 != s.core.num } }

/-- A core of the instance stops: in the middle of a group, at its end, but for one that sleeps there. -/
def State.stopCore (s : State) (k : BitVec 2) : State :=
  s.onCore (fun c => c.num == k) fun s =>
    if s.core.between then s.dropCore else s.setCore { s.core with status := .stopping }

/-- The instance is the one bound to the modelled cluster. -/
def State.boundHere (s : State) (g : BitVec 32) : Bool := s.cl.bound.map (·.graph) == some g

/-- Steps 1-3 of R333 in the modelled cluster; records of other instances in the overflow area then find room (R119), and a
reservation for a record that is gone lapses (R122). -/
def State.stopInstance (s : State) (g : BitVec 32) : State :=
  let s := ((s.cores.filter fun c => c.serves g).map (·.num)).foldl State.stopCore s
  let s := s.stopWatches g
  let other (r : ContRec) : Bool := r.graph != g
  let s := if s.boundHere g then s.cancelPulls fun _ => true else s
  let s := s.setCl
    { s.cl with
      lists := s.cl.lists.map fun l => l.filter fun x => other x.1
      waiting := s.cl.waiting.filter fun w => other w.cr
      overflow := s.cl.overflow.filter other
      lanes := s.cl.lanes.map fun l => (l.1, l.2.1, l.2.2.filter other)
      images := s.cl.images.filter fun x => x.cores.all fun c => other c.task
      placing := s.cl.placing.filter fun p => p != g }
  s.lapse.refill

/-- The kill sequencer: the first request for a launch is performed; later ones are counted and dropped. The cluster counts the
kill of the launch that is bound to it (R336). -/
def State.killNow (s : State) (r : KillReq) : State :=
  match s.launch r.graph with
  | none => s
  | some l =>
    if !l.live || l.killing.isSome then s.count .killsDropped 1
    else
      let s := s.putLaunch { l with killing := some (r, s.clk) }
      (if s.boundHere l.graph then s.count .kills 1 else s).stopInstance r.graph

/-- KILL. -/
def execKill (r : KillReq) (s : State) : Out := .next (s.killNow r)

/-- Every firing of a killed instance has stopped. -/
def State.killQuiet (s : State) (l : Launch) : Bool := l.live && l.killing.isSome && !(s.cores.any fun c => c.serves l.graph)

/-- KILL_RECORD (R334): the record is written and the completion word advances. -/
def execKillRecord (graph : BitVec 32) (s : State) : Out :=
  match s.launch graph with
  | none => .next s
  | some l =>
    match l.killing with
    | none => .next s
    | some (r, clk) => if s.killQuiet l then .next (s.publish l r clk) else .next s

/-- CANCEL (R395). -/
def execCancel (fn : Fin 63) (seqNo : Word) (s : State) : Out :=
  let hit (l : Launch) : Bool := l.fn == fn && l.seqNo == seqNo.toNat && l.timed.isNone
  match s.dev.reads.find? fun x => x.timed.isNone && x.launch.any hit with
  | some x =>
    match x.launch with
    | some l => .next ((s.consume x false).refuse l 0x18 0)
    | none => .next s
  | none =>
    match (s.dev.queues.toList.flatten).find? hit with
    | some l =>
      let s := s.setDev { s.dev with queues := s.dev.queues.map fun q => q.filter fun x => x.graph != l.graph }
      .next (s.refuse l 0x18 0)
    | none =>
      match s.dev.launches.find? fun l => hit l && l.live with
      | some l => .next (s.askKill (s.plainKill l.graph 4 0x18 false 0))
      | none => .next s

/-! ## Logs (R402) -/

/-- An entry of a log with its 16-byte header: type, length in bytes, task key and ordinal (R399). -/
def LogEntry.bytes (e : LogEntry) : List Byte :=
  [e.type] ++ leBytes 3 (8 * e.data.length) ++ leBytes 8 e.key.toNat ++ leBytes 4 e.ordinal ++ e.data.flatMap fun w => leBytes 8 w.toNat

/-- The bytes of the log at a place. -/
def State.placeBytes (s : State) (place : Word) : List Byte := (s.dev.log.filter fun e => e.place == place).flatMap LogEntry.bytes

/-- Blocks of a log that have been written. -/
def State.logStored (s : State) (place : Word) : Nat := (s.dev.logBlocks.filter fun x => x.place == place).length

/-- A launch whose log has a 4 KiB block to be encrypted and written: a full one, or the last one once the launch has ended (R399). -/
def State.logDue (s : State) (l : Launch) : Bool :=
  l.capture && (s.keysOf (s.slotFor l.space)).isSome &&
    decide (s.logStored l.logAt < ((s.placeBytes l.logAt).length + if l.st = .done then 4095 else 0) / 4096)

/-- The next block of a log, encrypted under the slot's Kenc as a page is (R158), stands at its place in home 127, where a table maps
it (log 35). -/
def State.storeLog (s : State) (l : Launch) : State :=
  let k := s.logStored l.logAt
  let va := l.logAt + BitVec.ofNat 64 (4096 * k)
  match s.pageKey l.space va with
  | none => s
  | some (key, aad) =>
    let (s, nonce) := s.pageNonce l.space
    let plain := ((s.placeBytes l.logAt).drop (4096 * k)).take 4096
    let ct := gcmCrypt key nonce 256 2 (plain ++ List.replicate (4096 - plain.length) 0)
    let s := s.setDev
      { s.dev with logBlocks := s.dev.logBlocks ++ [{ place := l.logAt, idx := k, nonce := nonce, tag := gcmTag key nonce aad 77 256 ct }] }
    match (s.serviceAt l.space (offOf va).toNat 64 .load).2 with
    | .ok pa => s.writeHbm (pa / 4096 * 4096) ct
    | .error _ => s

/-- LOG_EXPORT: the log of a hearth's instance, before its quench, encrypted again under the key that the tenant has installed, goes
to host memory; it is the hearth's own VF that may ask for it (log 35). -/
def execLogExport (graph : BitVec 32) (key : BitVec 256) (addr : Word) (s : State) (vf : Option (Fin 63) := none) : Out :=
  let es := s.dev.log.filter fun e => e.graph == graph
  match s.launch graph with
  | none => .next s
  | some l =>
    let k := s.slotOf l.space
    if es.isEmpty || k == 0 || k == 63 || (s.dev.slots[k.toNat]'(k.isLt)).st != .kindled || vf.any (fun v => v.val != k.toNat) then .next s
    else
      let (s, nonce) := s.pageNonce l.space
      let c := gcmSeal key nonce [] (es.flatMap LogEntry.bytes)
      .next (s.send (.log addr nonce c.1 c.2))

/-! ## The time servo (R388) -/

/-- An offset as the status block holds it. -/
def satOffset (x : Int) : Int := max (-(2 ^ 31 - 1)) (min x (2 ^ 31 - 1))

/-- PTP_CORRECTION of an offset in ns: a forward step past 1 ms; else slewing, in units of 1/3000 ns. -/
def execPtpCorrection (offset : Int) (s : State) : Out :=
  let v := { s.dev.servo with lock := true, offset := satOffset offset }
  if 1000000 < offset then
    .next (s.setDev { s.dev with time := s.dev.time + offset.toNat, servo := { v with left := 0, slew := false } })
  else .next (s.setDev { s.dev with servo := { v with left := 3000 * offset, slew := decide (offset < -1000000) } })

/-- LOCK_LOSS: TIME keeps its last rate, without end. -/
def execLockLoss (s : State) : Out :=
  let v := s.dev.servo
  if !v.lock then .next s
  else .next (s.setDev { s.dev with servo := { v with lock := false, losses := (v.losses + 1) % 2 ^ 32, left := v.left * 2 ^ 200, slew := false } })

/-! ## Registers that the stokers write -/

/-- The first slot of an entry after TIME. -/
def nextSlot (time : Nat) (period phase : Word) : Nat :=
  if time < phase.toNat || period = 0 then 0 else (time - phase.toNat) / period.toNat + 1

/-- A count cleared. -/
def State.clearCount (s : State) (k : Cnt) : State := s.setCl { s.cl with counts := s.cl.counts.filter fun x => x.1 != k }

/-- An entry of the launch table is written (R389). -/
def State.writeEntry (s : State) (i : Fin 256) (period phase template : Word) (flags : BitVec 32) : State :=
  let old := s.entry i
  let on := flags.getLsbD 3 && flags &&& 0xFFFFFEF0 == 0
  s.putEntry
    { idx := i, period := period, phase := phase, template := template, enable := on, policy := flags.getLsbD 2,
      prio := flags.extractLsb' 0 2, pending := flags.getLsbD 3 && (old.map (·.pending)).getD false,
      skips := (old.map (·.skips)).getD 0, next := nextSlot s.dev.time period phase }

/-- REGISTER_WRITE. A launch-table entry's bytes 24-27 come as one word; one whose reserved bits are not zero is treated as
disabled, and its pending bit is the distributor's (R389). The slots of the entry that have been reached are decided first, one step
each: the write takes effect at the next slot (R388, R390). -/
def execRegisterWrite (r : StokerReg) (v : Word) (s : State) : Out :=
  match r with
  | .aging k => .next (if k = 0 then s else s.setCl { s.cl with aging := s.cl.aging.set k v })
  | .sessionTimeout =>
    .next (if 1 ≤ v.toNat ∧ v.toNat ≤ 1000 then s.setDev { s.dev with timeout := 1000 * v.toNat } else s)
  | .queuePrio q => .next (s.setDev { s.dev with queuePrio := s.dev.queuePrio.set q (v.setWidth 2) })
  | .ptpDomain => .next (s.setDev { s.dev with servo := { s.dev.servo with domain := v.setWidth 8 } })
  | .sluicePeakClear => .next (s.clearCount .sluicePeak)
  | .vecHeadWaitMaxClear => .next (s.clearCount .vecHeadWaitMax)
  | .launchEntry i period phase template flags =>
    if (s.entry i).any s.slotDue then
      match execLaunchSlot i s with
      | .next t => .next { t with agenda := .registerWrite r v :: t.agenda }
      | .fault x => .fault x
      | .refused x => .refused x
    else .next (s.writeEntry i period phase template flags)
  | .ethPath dev =>
    .next (s.setDev { s.dev with members := s.dev.members.map fun m => if m.dev = dev then { m with pathBound := v.setWidth 16 } else m })

/-! ## Boot (R338, R351, R379, R396) -/

/-- The members that the stokers find when they join the pod, this device among them (R338). -/
def joined (own : BitVec 10) (members : List (BitVec 10 × Bool × BitVec 4 × BitVec 16)) : List Member :=
  let ms : List Member := members.map fun m =>
    { dev := m.1, member := true, ethernet := m.2.1, epoch := m.2.2.1, pathBound := m.2.2.2 }
  if ms.any fun m => m.dev == own then ms
  else { dev := own, member := true, ethernet := false, epoch := 0, pathBound := 0 } :: ms

/-- An image is run (R379): its signature is right and its security version is not below the fused minimum. -/
def FwImage.ok (k : Nat) (x : FwImage) : Bool := Config.sigOk k (sm3 x.bytes) x.sig && decide (Config.minVersion k ≤ x.version)

/-- The images of a staged update take the place of those that the part holds (R403). -/
def State.bootImages (s : State) (images : List FwImage) : List FwImage :=
  match s.dev.staged with
  | none => images
  | some b => (Config.unpack b).map fun x => { bytes := x.1, sig := x.2.1, version := x.2.2 }

/-- Gorsoica's firmware, the control kernel and the distributor microcode, measurements 2 to 4, verify; images that are not given
are judged by what is told of them (log 42). -/
def imagesPass (images : List FwImage) : Bool :=
  images.isEmpty || (images.length == 3 && images.zipIdx.all fun x => FwImage.ok (x.2 + 2) x.1)

/-- A measurement of the part (R379, R380). -/
def State.measure (s : State) (n : Nat) : BitVec 256 :=
  if n = 1 then Config.measurement 1
  else if n = 5 then Config.fusedMeasure s.dev.versions (s.dev.bootLog.map fun p => (p.1.val, p.2.val))
  else (s.dev.measured[n - 2]?).getD (Config.measurement n)

/-- Package reset: what no rule keeps is as after reset; the flash with its staged update, the certificates, the drives and the
place of the modelled cluster stay, and the random bit generator goes on (log 4). -/
def State.packageReset (s : State) : State :=
  { State.reset with
    quadNo := s.quadNo, clusterNo := s.clusterNo, outbox := s.outbox, agenda := s.agenda, free := s.free
    dev := { Device.reset with
      staged := s.dev.staged, certs := s.dev.certs, badDrives := s.dev.badDrives, drawn := s.dev.drawn } }

/-- CAPBASE is a 16-byte-aligned far address in this device's home 127 (R398). -/
def capOk (dev : BitVec 10) (capbase : Word) : Bool :=
  homeOf capbase == dev ++ 127#7 && (pointerCheck capbase).isNone && capbase.extractLsb' 0 4 == 0#4

/-- The capability chain stands at CAPBASE, where a table of the stokers maps it (R398, log 73). -/
def State.publishCaps (s : State) : State :=
  match (s.serviceAt 0 (offOf s.dev.capbase).toNat 16 .load).2 with
  | .ok pa => s.writeHbm pa s.capChain
  | .error _ => s

/-- BOOT after package reset (R396): images or links that fail leave the package inert, a failed link in the boot log (R372); else
the images are measured, the device's keys derived (R381), slot 63 installed (R351), the pod joined the capability chain published (R398)
and the rings act on the newest held NOTIFY. -/
def State.bootNow (s : State) (imagesOk linksOk : Bool) (deviceId : BitVec 10) (capbase : Word)
    (members : List (BitVec 10 × Bool × BitVec 4 × BitVec 16)) (images : List FwImage) (failed : Option (Fin 9 × Fin 9)) : State :=
  let images := s.bootImages images
  if !imagesOk || !imagesPass images then s.setDev { s.dev with inert := true }
  else if !linksOk then s.setDev { s.dev with inert := true, bootLog := s.dev.bootLog ++ failed.toList }
  else
    let slot := { s.dev.slots[63] with kenc := some (Config.freeKey s.dev.drawn), kmac := some (Config.freeKey (s.dev.drawn + 1)) }
    let id := Config.deviceIdKey Config.fusedSecret
    let s := s.setDev
      { s.dev with
        measured := images.map fun x => keyOf (sm3 x.bytes), versions := images.map (·.version), staged := none }
    let second := Config.aliasKey id (s.measure 2) (s.measure 3)
    let s := s.setDev
      { s.dev with
        deviceKey := some id, aliasKey := some second, certs := s.dev.certs.set 0 (Config.kolrothChain id second)
        booted := true, id := deviceId, capbase := capbase, members := joined deviceId members, slots := s.dev.slots.set 63 slot
        drawn := s.dev.drawn + 2 }
    let s := s.publishCaps
    let s := s.setDev { s.dev with rings := s.dev.rings.map Ring.bounded }
    (List.finRange 63).foldl State.ringGo s

/-- BOOT: a package that has booted or is inert is reset first; a CAPBASE that the stokers could not choose is no boot (R398). -/
def execBoot (imagesOk linksOk : Bool) (deviceId : BitVec 10) (capbase : Word)
    (members : List (BitVec 10 × Bool × BitVec 4 × BitVec 16)) (s : State) (images : List FwImage := [])
    (failed : Option (Fin 9 × Fin 9) := none) : Out :=
  if !capOk deviceId capbase then .next s
  else
    .next ((if s.dev.booted || s.dev.inert then s.packageReset else s).bootNow imagesOk linksOk deviceId capbase members images failed)

end Sys2Proof.Machine
end

