-- ==== Sys2Proof/Machine/EvTrust.lean ====
section
/-! DEFINITION. Gorsoica's command sequencer (R377): kindle and quench (R352-R355), debug unlock (R378), session and IDE
keys, certificates (R382, R383), measurements (R380), TDISP interfaces (R384), link training (R371, R372), and management
(R403). -/

namespace Sys2Proof.Machine

/-- A key slot. -/
def State.slot (s : State) (k : BitVec 6) : KeySlot := s.dev.slots[k.toNat]'(k.isLt)
def State.setSlotOf (s : State) (k : BitVec 6) (x : KeySlot) : State :=
  s.setDev { s.dev with slots := s.dev.slots.set k.toNat x k.isLt }

def State.setInterface (s : State) (k : BitVec 6) (t : Tdisp) : State :=
  s.setDev { s.dev with tdisp := (k, t) :: s.dev.tdisp.filter fun x => x.1 != k }

/-- A command completes with a status (R377). -/
def State.status (s : State) (code : Byte) : State := s.send (.status code)

/-! ## Kindle (R351-R354) -/

/-- The slots of hearths. -/
def hearthSlots : List (BitVec 6) := (List.range 62).map fun k => BitVec.ofNat 6 (k + 1)

/-- KINDLE: the lowest FREE slot takes fresh keys under its next generation. It is accepted from PF0 and from the stokers; a command
from where it is not accepted is none (R377, log 41). -/
def execKindle (test : Bool) (clusters : BitVec 72) (s : State) (src : CmdSrc := .pf0) : Out :=
  if src ≠ .pf0 ∧ src ≠ .stokers then .next s
  else if s.dev.debug then .next (s.status 2)
  else
    match hearthSlots.find? fun k => (s.slot k).st == .free with
    | none => .next (s.status 1)
    | some k =>
      let gen := (s.slot k).gen + 1
      let keys := slotKeys (Config.freeKey s.dev.drawn) k gen
      let s := s.setSlotOf k
        { st := .kindled, gen := gen, test := test, clusters := clusters, kindleTime := BitVec.ofNat 64 s.dev.time,
          kenc := some keys.1, kmac := some keys.2 }
      let s := s.setDev { s.dev with drawn := s.dev.drawn + 1 }
      let s := (s.setMajorSource k 0).setInterface k .configUnlocked
      .next ((if clusters.getLsbD s.clusterNo.toNat then s.beginZero s.cl.part else s).status 0)

/-! ## Quench (R355) -/

/-- The spaces of a key slot. -/
def State.spacesOf (s : State) (k : BitVec 6) : List (BitVec 16) := (s.dev.spaces.filter fun d => d.slot == k).map (·.space)

/-- Near-cache lines of the spaces are discarded without write-back; a grain that no level tracks any more raises the
floor. -/
def State.discardLines (s : State) (sps : List (BitVec 16)) : State :=
  let out := s.cl.nc.filter fun n => sps.contains n.space
  let s := s.setCl { s.cl with nc := s.cl.nc.filter fun n => !sps.contains n.space }
  out.foldl (fun s n =>
    if (s.llcFind n.space n.line).isSome then s else (s.raiseEvFloor n.tag0).raiseEvFloor n.tag1) s

/-- QUENCH: steps 1-5. The command completes with them; steps 6 and 7 follow the kills, while the sequencer goes on to its next
command (R355, R377, log 41). -/
def execQuench (slot : BitVec 6) (who : QuenchBy) (s : State) : Out :=
  if (s.slot slot).st ≠ .kindled then .next (s.status 5)
  else
    let sps := s.spacesOf slot
    let s := s.setSlotOf slot { s.slot slot with st := .quenching, kenc := none, kmac := none }
    let s := s.setDev { s.dev with quenchBy := (slot, who) :: s.dev.quenchBy.filter fun x => x.1 != slot }
    let s := if who = .interface then s else s.setInterface slot .error
    let s := (s.dev.launches.filter fun l => l.live && sps.contains l.space).foldl
      (fun s l => s.askKill (s.plainKill l.graph 4 0x18 false 0)) s
    let s := s.setCl
      { s.cl with
        tlb := s.cl.tlb.filter fun e => e.slot != slot
        basin := s.cl.basin.filter fun b => !sps.contains b.space
        metaCache := [] }
    let s := s.discardLines sps
    let hearth (l : Launch) : Bool := sps.contains l.space
    let gs := ((s.dev.launches ++ s.dev.queues.toList.flatten ++ s.dev.reads.filterMap (·.launch)).filter hearth).map (·.graph)
    .next ((s.setDev
      { s.dev with
        sessions := s.dev.sessions.filter fun x => x.slot != slot
        logBlocks := s.dev.logBlocks.filter fun x => !(s.dev.log.any fun e => e.place == x.place && gs.contains e.graph)
        log := s.dev.log.filter fun e => !gs.contains e.graph }).status 0)

/-- A report of an interface: slot, generation, clusters, state and the function's MMIO ranges (R384). -/
def State.report (s : State) (slot : BitVec 6) : State :=
  let k := s.slot slot
  let st : Word := match s.interface slot with
    | .configUnlocked => 0 | .configLocked => 1 | .run => 2 | .error => 3
  s.send (.report ([slot.setWidth 64, k.gen.setWidth 64, k.clusters.setWidth 64, (k.clusters.extractLsb' 64 8).setWidth 64, st] ++
    Config.mmio slot.toNat))

/-- QUENCH_RELEASE: steps 6 and 7, once no launch of the hearth's spaces is left. -/
def execQuenchRelease (slot : BitVec 6) (s : State) : Out :=
  let sps := s.spacesOf slot
  if (s.slot slot).st ≠ .quenching || s.dev.launches.any (fun l => l.live && sps.contains l.space) then .next s
  else
    let k := s.slot slot
    let who := (s.dev.quenchBy.find? fun x => x.1 == slot).map (·.2)
    let s := if k.clusters.getLsbD s.clusterNo.toNat then s.beginZero s.cl.part else s
    let s := s.setDev
      { s.dev with
        spaces := s.dev.spaces.map fun d => if d.slot = slot then { d with valid := false } else d
        trailers := s.dev.trailers.filter fun t => !sps.contains t.space
        quenchBy := s.dev.quenchBy.filter fun x => x.1 != slot }
    let s := s.setCl { s.cl with mig := s.cl.mig.filter fun m => !sps.contains m.space }
    let s := s.setSlotOf slot { k with st := if k.gen = 0xFFFF#16 then .retired else .free, clusters := 0, test := false }
    let s := if who == some .interface then s.setInterface slot .configUnlocked else s
    let due := s.dev.reports.filter fun r => r == slot
    let s := s.setDev { s.dev with reports := s.dev.reports.filter fun r => r != slot }
    .next (due.foldl State.report s)

/-! ## Debug (R378) -/

/-- The device ID and the fuse serial that a debug token names are this part's; what is told of a token without them holds of both
(R377). -/
def State.tokenOk (s : State) (names : Option (BitVec 10 × Word)) : Bool :=
  names.all fun n => n.1 == s.dev.id && n.2 == Config.fuseSerial

/-- DEBUG_UNLOCK, accepted from PF0. -/
def execDebugUnlock (sigOk : Bool) (s : State) (names : Option (BitVec 10 × Word) := none) (src : CmdSrc := .pf0) : Out :=
  if src ≠ .pf0 then .next s
  else if !sigOk || !s.tokenOk names then .next (s.status 4)
  else if hearthSlots.any fun k => (s.slot k).st == .kindled || (s.slot k).st == .quenching then .next (s.status 3)
  else .next ((s.setDev { s.dev with debug := true }).status 0)

/-! ## Session and IDE keys (R373, R376, R377) -/

/-- NYSIL_INSTALL: refused where it would be a third key; a session's first key counts as its last flip (log 44). -/
def execNysilInstall (dev : BitVec 10) (slot : BitVec 6) (phase : Bool) (key : BitVec 512) (s : State)
    (src : CmdSrc := .stokers) : Out :=
  let x := (s.session dev slot).getD (Session.fresh s.dev.id dev slot)
  if src ≠ .stokers then .next s
  else if x.key0.isSome && x.key1.isSome then .next (s.status 5)
  else
    let x := if x.key0.isNone && x.key1.isNone then { x with flipAt := s.dev.clk } else x
    .next ((s.cacheSession (x.setKey phase (some key))).status 0)

/-- NYSIL_ERASE. -/
def execNysilErase (dev : BitVec 10) (slot : BitVec 6) (phase : Bool) (s : State) (src : CmdSrc := .stokers) : Out :=
  if src ≠ .stokers then .next s
  else
  match s.session dev slot with
  | none => .next (s.status 0)
  | some x => .next ((s.putSession (x.setKey phase none)).status 0)

/-- The key of a set of a stream is programmed. -/
def State.ideKeyed (s : State) (stream : Fin 64) (set1 : Bool) : Bool := s.dev.ide.any fun x => x.1 == stream && x.2.1 == set1

/-- IDE_KEY (R373): a key set of a stream is programmed; the stream is switched to a set, from which on it is in the secure state; or
it is stopped. A switch to a set without a key gets the error response (R377, log 41). -/
def execIdeKey (stream : Fin 64) (set1 : Bool) (key : BitVec 256) (s : State) (km : IdeKm := .program) (src : CmdSrc := .spdm) : Out :=
  if src ≠ .spdm then .next s
  else
    match km with
    | .program =>
      .next ((s.setDev
        { s.dev with ide := (stream, set1, key) :: s.dev.ide.filter fun x => !(x.1 == stream && x.2.1 == set1) }).status 0)
    | .go =>
      .next (if s.ideKeyed stream set1 then
        (s.setDev { s.dev with ideOn := (stream, set1) :: s.dev.ideOn.filter fun x => x.1 != stream }).status 0
      else s.send (.ideError stream))
    | .stop => .next ((s.setDev { s.dev with ideOn := s.dev.ideOn.filter fun x => !(x.1 == stream && x.2 == set1) }).status 0)

/-! ## Certificates and measurements (R380-R383) -/

def State.writeCert (s : State) (slot : Fin 8) (cert : List Byte) : State :=
  s.setDev { s.dev with certs := s.dev.certs.set slot cert }

/-- A challenge that names a slot is pending (R383). -/
def State.challenged (s : State) (slot : Fin 8) : Bool := s.dev.challenges.any fun c => c.1 == slot

/-- CERT_WRITE: slot 0 is refused; a slot that a pending challenge names is held. -/
def execCertWrite (slot : Fin 8) (cert : List Byte) (s : State) (src : CmdSrc := .spdm) : Out :=
  if src ≠ .spdm then .next s
  else if slot = 0 then .next (s.status 6)
  else if s.challenged slot then
    .next (s.setDev { s.dev with heldCerts := s.dev.heldCerts ++ [{ slot := slot, cert := cert }] })
  else .next ((s.writeCert slot cert).status 0)

/-- The oldest challenge of a slot is over; with the last one, the writes that were held are performed, in order. -/
def State.endChallenge (s : State) (slot : Fin 8) : State :=
  let s := s.setDev { s.dev with challenges := s.dev.challenges.eraseP fun c => c.1 == slot }
  if s.challenged slot then s
  else
    let held := s.dev.heldCerts.filter fun h => h.slot == slot
    let s := s.setDev { s.dev with heldCerts := s.dev.heldCerts.filter fun h => h.slot != slot }
    held.foldl (fun s h => (s.writeCert h.slot h.cert).status 0) s

/-- CHALLENGE: it is pending from its receipt to its answer, which is a step of its own, from the slot as it stood. -/
def execChallenge (slot : Fin 8) (s : State) (answer : Bool := false) : Out :=
  if answer then
    match s.dev.challenges.find? fun c => c.1 == slot with
    | none => .next s
    | some c => .next ((s.send (.challengeAnswer slot c.2)).endChallenge slot)
  else .next ((s.setDev { s.dev with challenges := s.dev.challenges ++ [(slot, s.dev.certs[slot])] }).queue (.challenge slot true))

/-- CHALLENGE_TIMEOUT: the oldest challenge of the slot is answered no more. -/
def execChallengeTimeout (slot : Fin 8) (s : State) : Out :=
  .next (if s.challenged slot then ({ s with agenda := s.agenda.erase (.challenge slot true) } : State).endChallenge slot else s)

/-- GET_MEASUREMENTS (R380): an empty report is the error answer. -/
def execGetMeasurements (idx : Byte) (s : State) : Out :=
  let n := idx.toNat
  let hash := s.measure n
  .next (s.send (.report (
    if 1 ≤ n ∧ n ≤ 5 then idx.setWidth 64 :: (List.range 4).map fun k => hash.extractLsb' (64 * k) 64
    else if n = 6 then [6, if s.dev.debug then 1 else 0]
    else [])))

/-! ## TDISP (R384) -/

/-- LOCK_INTERFACE_REQUEST. -/
def execLockInterfaceRequest (slot : BitVec 6) (s : State) : Out :=
  .next (if (s.slot slot).st = .kindled ∧ s.interface slot = .configUnlocked then s.setInterface slot .configLocked else s)

/-- START_INTERFACE_REQUEST. -/
def execStartInterfaceRequest (slot : BitVec 6) (s : State) : Out :=
  .next (if (s.slot slot).st = .kindled ∧ s.interface slot = .configLocked then s.setInterface slot .run else s)

/-- STOP_INTERFACE_REQUEST: a quench that the interface starts. -/
def execStopInterfaceRequest (slot : BitVec 6) (s : State) : Out := execQuench slot .interface s

/-- DEVICE_INTERFACE_REPORT: one requested during a quench waits for its end. -/
def execDeviceInterfaceReport (slot : BitVec 6) (s : State) : Out :=
  if (s.slot slot).st = .quenching then .next (s.setDev { s.dev with reports := s.dev.reports ++ [slot] })
  else .next (s.report slot)

/-! ## Links (R371, R372) -/

/-- The record of a killed launch, published at once. -/
def State.recordKill (s : State) (g : BitVec 32) : State :=
  match s.launch g with
  | none => s
  | some l =>
    match l.killing with
    | none => s
    | some (r, clk) => s.publish l r clk

/-- A launch that has not been bound is cancelled: one whose tables are being read, or that stands in a queue. -/
def State.cancelWaiting (s : State) : State :=
  let ls := s.dev.reads.filterMap (·.launch) ++ s.dev.queues.toList.flatten
  let s := s.setDev { s.dev with reads := [], queues := Vector.replicate 4 [], table := s.dev.table.map fun e => { e with pending := false } }
  ls.foldl (fun s l => s.refuse l 0x18 0) s

/-- Every cluster halts and every launch is cancelled. -/
def State.haltAll (s : State) : State :=
  let gs := (s.dev.launches.filter (·.live)).map (·.graph)
  let s := gs.foldl (fun s g => s.killNow (s.plainKill g 4 0x18 false 0)) s
  let s := (s.cores.map (·.num)).foldl (fun s k => s.onCore (fun c => c.num == k) State.dropCore) s
  (gs.foldl State.recordKill s).cancelWaiting

/-- What the HMAC of a training covers: both nonces and both die numbers, the lower die's first (R371). -/
def linkMac (a b : Nat) (p : LinkProof) : List Byte :=
  hmacSm3 (leBytes 32 (Config.diePairKey (min a b) (max a b)).toNat)
    (p.nonceLow ++ p.nonceHigh ++ [BitVec.ofNat 8 (min a b), BitVec.ofNat 8 (max a b)])

/-- Both checks of a training pass; those of a training whose exchange is not given, as told. -/
def linkPasses (a b : Nat) (authOk : Bool) (proof : Option LinkProof) : Bool :=
  match proof with
  | none => authOk
  | some p => p.nonceLow.length == 32 && p.nonceHigh.length == 32 && p.macLow == linkMac a b p && p.macHigh == linkMac a b p

/-- LINK_TRAINING: a link comes up when both checks pass. A failed check holds it down; at power-on the package does not boot, and
at a retraining every launch is cancelled and the device leaves the pod and is inert. -/
def execLinkTraining (dieA dieB : Fin 9) (authOk atBoot : Bool) (s : State) (proof : Option LinkProof := none) : Out :=
  let rest := s.dev.linksUp.filter fun x => x != (dieA, dieB)
  if linkPasses dieA.val dieB.val authOk proof then .next (s.setDev { s.dev with linksUp := (dieA, dieB) :: rest })
  else
    let s := s.setDev { s.dev with linksUp := rest }
    if atBoot then .next (s.setDev { s.dev with bootLog := s.dev.bootLog ++ [(dieA, dieB)], inert := true })
    else
      let s := s.haltAll
      .next (s.setDev { s.dev with members := [], inert := true })

/-! ## Management (R403) -/

/-- PLDM_FIRMWARE_UPDATE: the image is staged until the next package reset. -/
def execPldmFirmwareUpdate (image : List Byte) (s : State) : Out := .next (s.setDev { s.dev with staged := some image })

/-- PLDM_PLATFORM_MONITORING: the throttled slots, the boot log's die pairs (R372), and what the sensors read (log 42). -/
def execPldmPlatformMonitoring (s : State) : Out :=
  .next (s.send (.report (BitVec.ofNat 64 s.dev.throttle ::
    (s.dev.bootLog.map fun p => BitVec.ofNat 64 (p.1.val + 16 * p.2.val)) ++ Config.sensors s.dev.clk)))

end Sys2Proof.Machine
end

