-- ==== Sys2Proof/Machine/Dispatch.lean ====
section
/-! DEFINITION. The dispatch: one arm per constructor of `Instr`. -/

namespace Sys2Proof.Machine

/-- What one instruction, or one step of the machine's own, does. -/
def exec (i : Instr) (s : State) : Host.Outcome State Fault Refusal :=
  match i with
  | .nop => Sys2Proof.Machine.execNop s
  | .hint op rest => Sys2Proof.Machine.execHint op rest s
  | .br t => Sys2Proof.Machine.execBr t s
  | .bc w c a t => Sys2Proof.Machine.execBc w c a t s
  | .call t => Sys2Proof.Machine.execCall t s
  | .ret => Sys2Proof.Machine.execRet s
  | .jmpi a => Sys2Proof.Machine.execJmpi a s
  | .endFiring => Sys2Proof.Machine.execEndFiring s
  | .spawn code frame home actor wide prio join => Sys2Proof.Machine.execSpawn code frame home actor wide prio join s
  | .yield => Sys2Proof.Machine.execYield s
  | .add f w d a b => Sys2Proof.Machine.execAdd f w d a b s
  | .sub f w d a b => Sys2Proof.Machine.execSub f w d a b s
  | .mul w d a b => Sys2Proof.Machine.execMul w d a b s
  | .mulh f w d a b => Sys2Proof.Machine.execMulh f w d a b s
  | .div w d a b => Sys2Proof.Machine.execDiv w d a b s
  | .divu w d a b => Sys2Proof.Machine.execDivu w d a b s
  | .rem w d a b => Sys2Proof.Machine.execRem w d a b s
  | .remu w d a b => Sys2Proof.Machine.execRemu w d a b s
  | .and w d a b => Sys2Proof.Machine.execAnd w d a b s
  | .or w d a b => Sys2Proof.Machine.execOr w d a b s
  | .xor w d a b => Sys2Proof.Machine.execXor w d a b s
  | .andn w d a b => Sys2Proof.Machine.execAndn w d a b s
  | .shl w d a b => Sys2Proof.Machine.execShl w d a b s
  | .shr w d a b => Sys2Proof.Machine.execShr w d a b s
  | .sar w d a b => Sys2Proof.Machine.execSar w d a b s
  | .rot w d a b => Sys2Proof.Machine.execRot w d a b s
  | .min w d a b => Sys2Proof.Machine.execMin w d a b s
  | .max w d a b => Sys2Proof.Machine.execMax w d a b s
  | .minu w d a b => Sys2Proof.Machine.execMinu w d a b s
  | .maxu w d a b => Sys2Proof.Machine.execMaxu w d a b s
  | .clz w d a => Sys2Proof.Machine.execClz w d a s
  | .popc w d a => Sys2Proof.Machine.execPopc w d a s
  | .ext z form d a => Sys2Proof.Machine.execExt z form d a s
  | .bitf form d a pos len => Sys2Proof.Machine.execBitf form d a pos len s
  | .cmp c w d a b => Sys2Proof.Machine.execCmp c w d a b s
  | .sel d a b c => Sys2Proof.Machine.execSel d a b c s
  | .lea keep sh d a b disp => Sys2Proof.Machine.execLea keep sh d a b disp s
  | .far d a b => Sys2Proof.Machine.execFar d a b s
  | .homeof sel d a => Sys2Proof.Machine.execHomeof sel d a s
  | .mov d a => Sys2Proof.Machine.execMov d a s
  | .movi d v => Sys2Proof.Machine.execMovi d v s
  | .pushm first last => Sys2Proof.Machine.execPushm first last s
  | .popm first last => Sys2Proof.Machine.execPopm first last s
  | .spadj adj => Sys2Proof.Machine.execSpadj adj s
  | .fadd f d a b => Sys2Proof.Machine.execFadd f d a b s
  | .fsub f d a b => Sys2Proof.Machine.execFsub f d a b s
  | .fmul f d a b => Sys2Proof.Machine.execFmul f d a b s
  | .ffma f d a b c => Sys2Proof.Machine.execFfma f d a b c s
  | .fdiv f d a b => Sys2Proof.Machine.execFdiv f d a b s
  | .fsqrt f d a => Sys2Proof.Machine.execFsqrt f d a s
  | .fminmax f max num d a b => Sys2Proof.Machine.execFminmax f max num d a b s
  | .fcmp f c d a b => Sys2Proof.Machine.execFcmp f c d a b s
  | .fcvt dst src dstU srcU d a => Sys2Proof.Machine.execFcvt dst src dstU srcU d a s
  | .ld w sext d a disp => Sys2Proof.Machine.execLd w sext d a disp s
  | .st w a b disp => Sys2Proof.Machine.execSt w a b disp s
  | .ldv g d a disp => Sys2Proof.Machine.execLdv g d a disp s
  | .stv g a b disp => Sys2Proof.Machine.execStv g a b disp s
  | .ldx w x m d a disp => Sys2Proof.Machine.execLdx w x m d a disp s
  | .stx w x m a c disp => Sys2Proof.Machine.execStx w x m a c disp s
  | .pref f a disp => Sys2Proof.Machine.execPref f a disp s
  | .amo f word32 d a b disp => Sys2Proof.Machine.execAmo f word32 d a b disp s
  | .acas word32 d a b c disp => Sys2Proof.Machine.execAcas word32 d a b c disp s
  | .ldf w sext d a disp => Sys2Proof.Machine.execLdf w sext d a disp s
  | .ldfa w sext d a disp => Sys2Proof.Machine.execLdfa w sext d a disp s
  | .ldfp w sext d a disp => Sys2Proof.Machine.execLdfp w sext d a disp s
  | .pchk d t => Sys2Proof.Machine.execPchk d t s
  | .pdrop a => Sys2Proof.Machine.execPdrop a s
  | .sqadv now d a b => Sys2Proof.Machine.execSqadv now d a b s
  | .sqwait d a b => Sys2Proof.Machine.execSqwait d a b s
  | .watch k a b => Sys2Proof.Machine.execWatch k a b s
  | .wunwatch m => Sys2Proof.Machine.execWunwatch m s
  | .wsleep d m => Sys2Proof.Machine.execWsleep d m s
  | .wpoll st k d => Sys2Proof.Machine.execWpoll st k d s
  | .fence sc d => Sys2Proof.Machine.execFence sc d s
  | .pull cls ch d a b rows len pitch => Sys2Proof.Machine.execPull cls ch d a b rows len pitch s
  | .pullg cls ch d a b count len => Sys2Proof.Machine.execPullg cls ch d a b count len s
  | .pullr f obf16 cls ch d a b n g => Sys2Proof.Machine.execPullr f obf16 cls ch d a b n g s
  | .agset g a count => Sys2Proof.Machine.execAgset g a count s
  | .waitp s0 ch d a b => Sys2Proof.Machine.execWaitp s0 ch d a b s
  | .lcset d v => Sys2Proof.Machine.execLcset d v s
  | .equery s0 ch d => Sys2Proof.Machine.execEquery s0 ch d s
  | .wld f src c0 count => Sys2Proof.Machine.execWld f src c0 count s
  | .mma f src gran row0 rows => Sys2Proof.Machine.execMma f src gran row0 rows s
  | .azero row0 rows => Sys2Proof.Machine.execAzero row0 rows s
  | .ard g d row0 => Sys2Proof.Machine.execArd g d row0 s
  | .awr g b row0 => Sys2Proof.Machine.execAwr g b row0 s
  | .ast f a row0 rows pitch => Sys2Proof.Machine.execAst f a row0 rows pitch s
  | .mwait row0 rows => Sys2Proof.Machine.execMwait row0 rows s
  | .tmapset d a disp => Sys2Proof.Machine.execTmapset d a disp s
  | .vadd f fn m d a b => Sys2Proof.Machine.execVadd f fn m d a b s
  | .vsub f fn m d a b => Sys2Proof.Machine.execVsub f fn m d a b s
  | .vmul f m d a b => Sys2Proof.Machine.execVmul f m d a b s
  | .vfma f m d a b c => Sys2Proof.Machine.execVfma f m d a b c s
  | .vmin f alt m d a b => Sys2Proof.Machine.execVmin f alt m d a b s
  | .vmax f alt m d a b => Sys2Proof.Machine.execVmax f alt m d a b s
  | .vabs f sat m d a => Sys2Proof.Machine.execVabs f sat m d a s
  | .vneg f sat m d a => Sys2Proof.Machine.execVneg f sat m d a s
  | .vexp2 f m d a => Sys2Proof.Machine.execVexp2 f m d a s
  | .vlog2 f m d a => Sys2Proof.Machine.execVlog2 f m d a s
  | .vrcp f m d a => Sys2Proof.Machine.execVrcp f m d a s
  | .vrsq f m d a => Sys2Proof.Machine.execVrsq f m d a s
  | .vcvt dst src dstU srcU part m d a => Sys2Proof.Machine.execVcvt dst src dstU srcU part m d a s
  | .vcmp f c m d a b => Sys2Proof.Machine.execVcmp f c m d a b s
  | .vsel d a b c => Sys2Proof.Machine.execVsel d a b c s
  | .vand f m d a b => Sys2Proof.Machine.execVand f m d a b s
  | .vor f m d a b => Sys2Proof.Machine.execVor f m d a b s
  | .vxor f m d a b => Sys2Proof.Machine.execVxor f m d a b s
  | .vshl f m d a b => Sys2Proof.Machine.execVshl f m d a b s
  | .vshr f arith m d a b => Sys2Proof.Machine.execVshr f arith m d a b s
  | .vred f op wide m d a => Sys2Proof.Machine.execVred f op wide m d a s
  | .vperm f m d a b => Sys2Proof.Machine.execVperm f m d a b s
  | .vbcast f m d x => Sys2Proof.Machine.execVbcast f m d x s
  | .viota f m d a => Sys2Proof.Machine.execViota f m d a s
  | .vext f sext d a l => Sys2Proof.Machine.execVext f sext d a l s
  | .vins f d a l => Sys2Proof.Machine.execVins f d a l s
  | .vmxq f bf d a c b0 s0 => Sys2Proof.Machine.execVmxq f bf d a c b0 s0 s
  | .vmxd f bf d a c b0 s0 => Sys2Proof.Machine.execVmxd f bf d a c b0 s0 s
  | .trap cause a => Sys2Proof.Machine.execTrap cause a s
  | .tret => Sys2Proof.Machine.execTret s
  | .tretV a => Sys2Proof.Machine.execTretV a s
  | .sysrd d num => Sys2Proof.Machine.execSysrd d num s
  | .syswr a num => Sys2Proof.Machine.execSyswr a num s
  | .pgreq k d a => Sys2Proof.Machine.execPgreq k d a s
  | .basinclr a => Sys2Proof.Machine.execBasinclr a s
  | .brkpt tag => Sys2Proof.Machine.execBrkpt tag s
  | .testinj a disp => Sys2Proof.Machine.execTestinj a disp s
  | .registerWrite r v => Sys2Proof.Machine.execRegisterWrite r v s
  | .lineFetch addr r hdr => Sys2Proof.Machine.execLineFetch addr r s hdr
  | .divisionResult => Sys2Proof.Machine.execDivisionResult s
  | .floatDivideResult => Sys2Proof.Machine.execFloatDivideResult s
  | .localAccessPerformed k => Sys2Proof.Machine.execLocalAccessPerformed k s
  | .translation k => Sys2Proof.Machine.execTranslation k s
  | .sealedFill space line => Sys2Proof.Machine.execSealedFill space line s
  | .sealedWriteBack space line => Sys2Proof.Machine.execSealedWriteBack space line s
  | .softError place double => Sys2Proof.Machine.execSoftError place double s
  | .commit => Sys2Proof.Machine.execCommit s
  | .edgeListRead rec r hdr => Sys2Proof.Machine.execEdgeListRead rec r s hdr
  | .schedulerWatchAnswer id e recs hdr => Sys2Proof.Machine.execSchedulerWatchAnswer id e recs s hdr
  | .watchRetry id => Sys2Proof.Machine.execWatchRetry id s
  | .schedulerAssignment => Sys2Proof.Machine.execSchedulerAssignment s
  | .aging => Sys2Proof.Machine.execAging s
  | .quadReservation => Sys2Proof.Machine.execQuadReservation s
  | .preemptionRequest stokers core => Sys2Proof.Machine.execPreemptionRequest stokers s core
  | .contextSave => Sys2Proof.Machine.execContextSave s
  | .resume image => Sys2Proof.Machine.execResume image s
  | .debugResume access => Sys2Proof.Machine.execDebugResume s access
  | .vectorGrant => Sys2Proof.Machine.execVectorGrant s
  | .matrixCommandCompletion => Sys2Proof.Machine.execMatrixCommandCompletion s
  | .powerGovernor slots => Sys2Proof.Machine.execPowerGovernor slots s
  | .pullLineResponse ch id line member r hdr => Sys2Proof.Machine.execPullLineResponse ch id line member r s hdr
  | .lineRerequest ch id line member => Sys2Proof.Machine.execLineRerequest ch id line member s
  | .waitpPromiseExpiry => Sys2Proof.Machine.execWaitpPromiseExpiry s
  | .readRequest hdr r => Sys2Proof.Machine.execReadRequest hdr r s
  | .readResponse hdr id r => Sys2Proof.Machine.execReadResponse hdr id r s
  | .watchRegistration space off thr who hdr => Sys2Proof.Machine.execWatchRegistration space off thr who s hdr
  | .watchAnswer core k tag e hdr => Sys2Proof.Machine.execWatchAnswer core k tag e s hdr
  | .watchCancel who hdr => Sys2Proof.Machine.execWatchCancel who s hdr
  | .tlbGenerationAnswer space e => Sys2Proof.Machine.execTlbGenerationAnswer space e s
  | .validationRequest space off fill tag hdr => Sys2Proof.Machine.execValidationRequest space off fill tag s hdr
  | .validationAnswer hdr id struck => Sys2Proof.Machine.execValidationAnswer hdr id struck s
  | .pageRequest space addr tag hdr => Sys2Proof.Machine.execPageRequest space addr tag s hdr
  | .pageRequestReply core k tag r hdr => Sys2Proof.Machine.execPageRequestReply core k tag r s hdr
  | .pageIn space addr frame d => Sys2Proof.Machine.execPageIn space addr frame d s
  | .migration space addr step tier handle => Sys2Proof.Machine.execMigration space addr step tier handle s
  | .migrationBlockEnd => Sys2Proof.Machine.execMigrationBlockEnd s
  | .retry hdr req => Sys2Proof.Machine.execRetry hdr req s
  | .repeatAfterRetry req => Sys2Proof.Machine.execRepeatAfterRetry req s
  | .requestRepeat req => Sys2Proof.Machine.execRequestRepeat req s
  | .probe hdr => Sys2Proof.Machine.execProbe hdr s
  | .probeAnswer hdr => Sys2Proof.Machine.execProbeAnswer hdr s
  | .probeTimer dev => Sys2Proof.Machine.execProbeTimer dev s
  | .peerLoss dev => Sys2Proof.Machine.execPeerLoss dev s
  | .peerReadmit dev epoch => Sys2Proof.Machine.execPeerReadmit dev epoch s
  | .memberRemoval dev => Sys2Proof.Machine.execMemberRemoval dev s
  | .ualinkRequest => Sys2Proof.Machine.execUalinkRequest s
  | .pcieCompletion req e => Sys2Proof.Machine.execPcieCompletion req e s
  | .keyRotation dev slot s0 => Sys2Proof.Machine.execKeyRotation dev slot s0 s
  | .oldPhaseErase dev slot => Sys2Proof.Machine.execOldPhaseErase dev slot s
  | .kindle test clusters src => Sys2Proof.Machine.execKindle test clusters s src
  | .quench slot who => Sys2Proof.Machine.execQuench slot who s
  | .quenchRelease slot => Sys2Proof.Machine.execQuenchRelease slot s
  | .debugUnlock sigOk names src => Sys2Proof.Machine.execDebugUnlock sigOk s names src
  | .nysilInstall dev slot phase key src => Sys2Proof.Machine.execNysilInstall dev slot phase key s src
  | .nysilErase dev slot phase src => Sys2Proof.Machine.execNysilErase dev slot phase s src
  | .ideKey stream set1 key km src => Sys2Proof.Machine.execIdeKey stream set1 key s km src
  | .certWrite slot cert src => Sys2Proof.Machine.execCertWrite slot cert s src
  | .challenge slot answer => Sys2Proof.Machine.execChallenge slot s answer
  | .getMeasurements idx => Sys2Proof.Machine.execGetMeasurements idx s
  | .lockInterfaceRequest slot => Sys2Proof.Machine.execLockInterfaceRequest slot s
  | .startInterfaceRequest slot => Sys2Proof.Machine.execStartInterfaceRequest slot s
  | .stopInterfaceRequest slot => Sys2Proof.Machine.execStopInterfaceRequest slot s
  | .deviceInterfaceReport slot => Sys2Proof.Machine.execDeviceInterfaceReport slot s
  | .linkTraining dieA dieB authOk atBoot proof => Sys2Proof.Machine.execLinkTraining dieA dieB authOk atBoot s proof
  | .boot imagesOk linksOk deviceId capbase members images failed => Sys2Proof.Machine.execBoot imagesOk linksOk deviceId capbase members s images failed
  | .notify fn v => Sys2Proof.Machine.execNotify fn v s
  | .ringBase fn v => Sys2Proof.Machine.execRingBase fn v s
  | .ringEntries fn v => Sys2Proof.Machine.execRingEntries fn v s
  | .cancel fn seqNo => Sys2Proof.Machine.execCancel fn seqNo s
  | .launchSelection elsewhere sources => Sys2Proof.Machine.execLaunchSelection s elsewhere sources
  | .launchSlot idx => Sys2Proof.Machine.execLaunchSlot idx s
  | .launchCompletion graph => Sys2Proof.Machine.execLaunchCompletion graph s
  | .kill r => Sys2Proof.Machine.execKill r s
  | .killRecord graph => Sys2Proof.Machine.execKillRecord graph s
  | .ptpCorrection offset => Sys2Proof.Machine.execPtpCorrection offset s
  | .lockLoss => Sys2Proof.Machine.execLockLoss s
  | .logExport graph key addr vf => Sys2Proof.Machine.execLogExport graph key addr s vf
  | .driveFailure drive => Sys2Proof.Machine.execDriveFailure drive s
  | .pldmFirmwareUpdate image => Sys2Proof.Machine.execPldmFirmwareUpdate image s
  | .pldmPlatformMonitoring => Sys2Proof.Machine.execPldmPlatformMonitoring s
  | .ill w => Sys2Proof.Machine.execIll w s
  | .resultArrival id => Sys2Proof.Machine.execResultArrival id s
  | .splitGranuleBoundary => Sys2Proof.Machine.execSplitGranuleBoundary s
  | .pageTableChange c => Sys2Proof.Machine.execPageTableChange c s
  | .completionTimeout req => Sys2Proof.Machine.execCompletionTimeout req s
  | .challengeTimeout slot => Sys2Proof.Machine.execChallengeTimeout slot s
  | .sessionContextFetch dev slot => Sys2Proof.Machine.execSessionContextFetch dev slot s

end Sys2Proof.Machine
end

