-- ==== Sys2Proof/Machine/Issue.lean ====
section
/-! DEFINITION. Issue: how a core that may go on fetches a line, checks its entry and its group (R22-R32, R107, R111, R316),
issues the group slot by slot (R26-R28), and what a transfer does when every slot of its group has issued (R27). -/

namespace Sys2Proof.Machine

/-! ## The classes of R25 -/

/-- The opcode of a word (R12). -/
def opcodeOf (w : IWord) : Nat := (w.extractLsb' 88 8).toNat

/-- An opcode lies in a range. -/
def opIn (lo hi op : Nat) : Bool := decide (lo ≤ op) && decide (op ≤ hi)

def isControlOp (op : Nat) : Bool := opIn 0x02 0x09 op || op == 0x53 || opIn 0xC0 0xC7 op

def isMemoryOp (op : Nat) : Bool := opIn 0x32 0x33 op || opIn 0x44 0x4C op || opIn 0x50 0x54 op || opIn 0x58 0x5E op

def isEngineOp (op : Nat) : Bool := opIn 0x60 0x66 op || opIn 0x70 0x77 op

def isVectorOp (op : Nat) : Bool := opIn 0x80 0x9B op

def isScalarOp (op : Nat) : Bool := opIn 0x10 0x2C op || opIn 0x30 0x31 op || op == 0x34 || opIn 0x38 0x40 op

/-- At most `n` of the opcodes are of a class. -/
def atMost (n : Nat) (p : Nat → Bool) (ops : List Nat) : Bool := decide ((ops.filter p).length ≤ n)

/-- A group keeps the limits of R25. -/
def limitsOk (ops : List Nat) : Bool :=
  atMost 1 isControlOp ops && atMost 1 isMemoryOp ops && atMost 1 isEngineOp ops && atMost 1 isVectorOp ops &&
    atMost 2 isScalarOp ops

/-- The integer divider's instructions (R59). -/
def onIntDivider : Instr → Bool
  | .div _ _ _ _ | .divu _ _ _ _ | .rem _ _ _ _ | .remu _ _ _ _ => true
  | _ => false

/-- The floating-point divider's instructions (R99). -/
def onFloatDivider : Instr → Bool
  | .fdiv _ _ _ _ | .fsqrt _ _ _ => true
  | _ => false

/-- The clk from which `n` further divisions find room on a divider: at most two are pending, and a group that stalls for
room issues in the clk after enough have arrived (R59, R99). -/
def Core.dividerFrom (c : Core) (n : Nat) (k : PendKind) : Nat :=
  let ps := c.pend.filter fun p => p.kind == k
  if n = 0 || n + ps.length ≤ 2 then 0 else ((ps.take (n + ps.length - 2)).map (·.due)).foldl max 0 + 1

/-- The clk from which both dividers have room for a group. -/
def Core.roomFrom (c : Core) (is : List Instr) : Nat :=
  max (c.dividerFrom (is.filter onIntDivider).length .idiv) (c.dividerFrom (is.filter onFloatDivider).length .fdiv)

/-- An instruction waits for one of some registers of the vector unit's: it reads or writes it (R290). -/
def Core.touches (c : Core) (i : Instr) (ds : List Dest) : Bool :=
  (c.readsOf i).any (fun r => r.dest.any ds.contains) || (dests i).any ds.contains

/-- The queue positions that an instruction reads, by `bankPos`: those of its operands, and the bank entry of a SYSRD (R321). -/
def Core.readsPos (c : Core) (i : Instr) : List Nat :=
  match i with
  | .sysrd _ num =>
    let b := (num.toNat - 0x100) / 16
    let k := num.toNat % 16
    if num.toNat < 0x100 then [] else [bankPos b (if b = c.level then k + c.grp.off else k)]
  | _ => (c.readsOf i).filterMap fun r =>
    match r with
    | .q k => some (bankPos c.level (k.val + c.grp.off))
    | .n _ | .m _ | .v _ | .tm _ | .lc _ => none

/-- SYSRD and SYSWR of FSTAT wait for every result of the vector unit (R291). -/
def onFstat : Instr → Bool
  | .sysrd _ num => num == 0x08
  | .syswr _ num => num == 0x08
  | _ => false

/-- An instruction waits for a result that is on its way from the vector unit. -/
def Core.awaitsVec (c : Core) (p : Pend) (i : Instr) : Bool :=
  !isVector i && (c.touches i (c.owedTo p.id) || onFstat i || (c.readsPos i).any (c.positions p.id).contains)

/-- An instruction waited for what the vector unit writes in this clk (R290). -/
def Core.sawVec (c : Core) (clk : Nat) (i : Instr) : Bool :=
  c.vecNew.1 == clk && c.vecNew.2 != ([], []) && !isVector i &&
    (c.touches i c.vecNew.2.1 || onFstat i || (c.readsPos i).any c.vecNew.2.2.contains)

/-- The clk after the vector unit's write of a result that a non-vector instruction waits for, once it is on its way
(R290). -/
def Core.vecFrom (c : Core) (clk : Nat) (is : List Instr) : Nat :=
  ((c.pend.filter fun p => p.kind == .vec && is.any (c.awaitsVec p)).map fun p => p.due + 1).foldl max
    (if is.any (c.sawVec clk) then clk + 1 else 0)

/-- A group stalls on an operand (R26). -/
def State.stallFor (s : State) (is : List Instr) : Out :=
  stall (s.setCore { s.core with issueAt := max s.core.issueAt (s.core.vecFrom s.dev.clk is) })

/-! ## The line at the code pointer -/

/-- The slot that a core is at. -/
def Core.slot (c : Core) : Nat := slotOf c.pc

/-- The slots from a code pointer to the end of its group. -/
def groupSlots (w : BitVec 32) (k : Nat) : List Nat := (List.range (lastSlot w k + 1)).drop k

/-- The code pointer of a slot of the line that a core is in. -/
def Core.slotPtr (c : Core) (k : Nat) : Word := codePtr (lineOf c.pc) (BitVec.ofNat 3 k)

/-- A failed request for a line has been met. -/
def State.dropBad (s : State) (a : Word) : State :=
  { s with quad := { s.quad with icBad := s.quad.icBad.filter fun x => !(x.1 == s.core.num && x.2.1 == a) } }

/-- An atomic of the firing is undecided (R184). -/
def Core.anyUndecided (c : Core) : Bool := c.acc.any fun a => a.kind.spoils && !a.orphan && a.bad.isNone

/-- The line's fetch failed (R24, R151): a restartable firing at TL0 is aborted for a translation fault; any other failure
is a trap charged to the slot at the code pointer. -/
def State.lineFailure (s : State) (a : Word) (r : LineReply) : Out :=
  let t := s.dropBad a
  let aborting (k : State) : Out :=
    if !s.abortable then .next (t.trap 0x08 a) else if s.core.anyUndecided then stall s else .next k
  match r with
  | .fault c => if c = 0x08 then aborting (t.abortUnmapped a) else .next (t.trap c a)
  | .notResident w thr => aborting (t.abortForPage w thr)
  | .lost => .next (t.trap 0x14 a)
  | .data _ _ _ => stall t

/-- What follows when the line at the code pointer is in the instruction cache; it is asked for when it is not. -/
def State.withLine (s : State) (k : Line → Out) : Out :=
  match s.codeLine (lineOf s.core.pc) with
  | some l => k l
  | none =>
    match s.codeFailed (lineOf s.core.pc) with
    | some r => s.lineFailure (lineOf s.core.pc) r
    | none => stall (s.askLine (lineOf s.core.pc))

/-- The instruction of a slot, where it decodes. -/
def instrOf (l : Line) (k : Nat) : Option Instr :=
  match decode (slotWord l k) with
  | .ok i => some i
  | .error _ => none

/-! ## Entry (R107, R111, R316, R318) -/

/-- A failed entry check: at firing start a trap whose RET and TVAL are the code pointer; at trap entry a trap of the level
above, or the end of the launch. -/
def State.entryFails (s : State) (cause : Byte) : State :=
  let pc := s.core.pc
  match s.core.entry with
  | some .start | some .retried => takeTrap s cause pc pc 0 flagStart
  | some .trap => if s.core.level = 1 then takeTrap s cause pc pc 0 0 else undeliverable s 1 cause pc
  | none => s

/-- Steps 4 and 5 of R107 for a core that enters at its code pointer; checks 2 and 3 of R30 otherwise. A line that fails
its own checks is fetched again when it is next wanted (R107). -/
def State.lineTrap (s : State) (l : Line) : Option State :=
  match s.core.entry, lineCheck (lineOf s.core.pc) l with
  | some .retried, none => none
  | some _, some x => some ((s.entryFails x.1).dropLine (lineOf s.core.pc))
  | some _, none => if (lineWord l).getLsbD (s.core.slot) then none else some (s.entryFails 0x02)
  | none, some x => some ((s.trap x.1 x.2).dropLine (lineOf s.core.pc))
  | none, none => none

/-! ## The checks of a group (R30, R32) -/

/-- A slot fails one of checks 6-8: what it leaves. An instruction whose own registers fail, or that is illegal, is asked
for its trap. -/
def State.badSlot (s : State) (l : Line) (k : Nat) : Option Out :=
  let t := s.setCore { s.core with pc := s.core.slotPtr k }
  match decode (slotWord l k) with
  | .error _ => some (.next (t.trap 0x01 ((slotWord l k).extractLsb' 32 64)))
  | .ok i =>
    match i with
    | .ill _ => some (exec i t)
    | _ => if (regCheck (partN s.cl.part) i).isSome then some (exec i t) else none

/-- A group begins: its slots read the registers, %sp and CLK as they stand (R26). A group that TRET resumes in its middle
keeps its offset and its pending transfer (R27, R28); its other registers are read as they stand at the resume (log 62). -/
def State.beginGroup (s : State) (l : Line) : State :=
  let c := s.core
  s.setCore
    { c with
      pre := c.regs, entry := none, mark := .none
      grp := { c.grp with live := true, issued := false, first := c.pc, line := some l, sp := c.sp, clk := s.clk, off0 := c.grp.off, commits := c.commit.length } }

/-- The last slot tried waits for its target's line, its group issuing (R113). -/
def Core.fetching (c : Core) : Bool := c.mark == .fetching

/-- The last slot tried stalls. -/
def Core.stalledNow (c : Core) : Bool := c.mark == .stalled || c.mark == .again

/-- A stalled core waits for something to change, but for one that is tried again in the same clk. -/
def Core.retry (c : Core) : Core := if c.mark = .again then { c with mark := .none } else c

/-- A later slot of the group would stall: the group issues nothing, and the state is kept that the stall leaves (a request
for a line, an MMA at the barrier). -/
def State.trial (s : State) (l : Line) (k : Nat) : Option State :=
  match instrOf l k with
  | none => none
  | some i =>
    let g := s.beginGroup l
    match exec i (g.setCore { g.core with pc := s.core.slotPtr k }) with
    | .next t =>
      if t.core.stalledNow then
        some (t.setCore { t.core.retry with pc := s.core.pc, entry := s.core.entry, grp := s.core.grp })
      else none
    | .fault _ => none
    | .refused _ => none

/-- A slot holds an MMA. -/
def isMmaSlot (l : Line) (k : Nat) : Bool :=
  match instrOf l k with
  | some (.mma _ _ _ _ _) => true
  | _ => false

/-- The slots that are tried before a group issues: the later ones; an MMA among them last, after every other slot of the group,
so that no member joins while another slot of its group stalls (R26, R271). -/
def trialOrder (l : Line) (ks : List Nat) : List Nat :=
  if (ks.drop 1).any (isMmaSlot l) then ks.filter (fun k => !isMmaSlot l k) ++ ks.filter (isMmaSlot l) else ks.drop 1

/-! ## The end of a group (R27) -/

/-- The core goes on at a code pointer. -/
def State.continueAt (s : State) (pc : Word) (wait : Nat) : State :=
  s.setCore { s.core with pc := pc, issueAt := s.dev.clk + wait, grp := Grp.none }

/-- The transfer of a group takes effect, or the core goes on at `next`. The next group issues a clk later, two after a
transfer, three after a RET (R113). CALL and RET commit from %sp as the group leaves it (R27, log 62). -/
def State.makeXfer (s : State) (next : Word) : State :=
  let c := s.core
  match c.grp.xfer with
  | none => s.continueAt next 1
  | some (.jump t) => s.continueAt t 2
  | some (.call t) =>
    let sp := c.sp - 8
    (s.setCore { c with spill := Mem.setWord c.spill sp.toNat next, sp := sp }).continueAt t 2
  | some (.ret t) => (s.setCore { c with sp := c.sp + 8 }).continueAt t 3
  | some (.endFiring ret off) =>
    let g := c.grp
    let first := if g.live then g.first else ret
    let off0 := if g.live then g.off0 else off
    s.setCore { c with pc := ret, grp := { Grp.none with off := off, first := first, off0 := off0, commits := if g.live then g.commits else c.commit.length }, wait := c.wait ++ [.ending], ended := some s.dev.clk,
                       issueAt := s.dev.clk + 1 }
  | some .yield => (s.continueAt next 1).yieldNow
  | some (.tret v) => s.tretNow v
  | some (.brkpt tag) => (s.continueAt next 1).breakNow tag

/-- Every slot of a group has issued. A TRET.V that completes the group it returns to makes that group's transfer too, at
most once for each level it leaves (R27). -/
def State.finishAt : Nat → State → Word → State
  | 0, s, next => s.makeXfer next
  | n + 1, s, next =>
    match s.core.grp.xfer with
    | some (.tret v) =>
      let t := s.core.trapRegs s.core.level
      if t.completes v && (s.tretNow v).core.entry.isNone then finishAt n (s.tretNow v) (nextPtr t.ret) else s.tretNow v
    | _ => s.makeXfer next

/-- The last slot of a group has issued. -/
def State.finishGroup (s : State) : State := State.finishAt 2 s (nextPtr s.core.pc)

/-- The slot at the code pointer has issued: the next slot of the group is up, or the group is over. -/
def State.advanceSlot (s : State) (l : Line) : State :=
  let c := s.core
  let k := c.slot
  if k < lastSlot (lineWord l) k then s.setCore { c with pc := nextPtr c.pc, grp := { c.grp with issued := false } }
  else s.finishGroup

/-- An access in held mode (R167), and a WAITP, a WSLEEP or a SQWAIT that waits, hold the later slots of their group: what
follows an acquire is performed after it (R229, R257). A fence lets its group go on (R195). -/
def Core.holding (c : Core) : Bool :=
  c.wait.any fun w =>
    match w with
    | .held _ | .waitp _ _ _ _ _ _ _ _ | .wsleep _ _ | .sqwait _ => true
    | .fence _ _ _ | .ending | .committing | .transfers | .joined _ _ | .mwait _ _ _ => false

/-- An access in held mode is not performed yet (R167). -/
def Core.heldAccess (c : Core) : Bool :=
  c.wait.any fun w =>
    match w with
    | .held _ => true
    | _ => false

/-- The slot at the code pointer is the last of its group. -/
def Core.atLast (c : Core) (l : Line) : Bool := decide (lastSlot (lineWord l) c.slot ≤ c.slot)

/-- What follows an issued slot of a group in progress. A first slot that stalls leaves its group not begun; a group whose
last slot is asleep is over, and its firing may be saved there (R331). -/
def State.afterSlot (s : State) (l : Line) (off : Nat) : State :=
  let c := s.core
  if c.fetching then s
  else if c.stalledNow then
    if c.pc = c.grp.first then s.setCore { c.retry with grp := { Grp.none with off := off, xfer := c.grp.xfer } } else s
  else if !c.grp.live then s
  else if c.holding && (c.heldAccess || !c.atLast l) then s.setCore { c with grp := { c.grp with issued := true } }
  else s.advanceSlot l

/-- Registers that a slot has written at once are no longer those of a pending result of an earlier slot of its group (R26). -/
def Core.overwrite (c : Core) (i : Instr) (id : Nat) : Core :=
  c.outdate id ((dests i).filter fun d => !(c.owed.any fun x => decide (id ≤ x.1) && x.2 == d))

/-- ISSUE: the slot at the code pointer of a group in progress. -/
def State.issueSlot (s : State) (l : Line) (i : Instr) : Out :=
  match exec i s with
  | .next t =>
    let t := if t.core.stalledNow || t.core.fetching || !t.core.grp.live then t else t.setCore (t.core.overwrite i s.id)
    .next (t.afterSlot l s.core.grp.off)
  | .fault f => .fault f
  | .refused r => .refused r

/-- The group in progress goes on, with the line that it began with. -/
def State.continueGroup (s : State) : Out :=
  let go (l : Line) : Out :=
    if s.core.grp.issued then .next (s.advanceSlot l)
    else
      match instrOf l s.core.slot with
      | some i => s.issueSlot l i
      | none => .next s
  match s.core.grp.line with
  | some l => go l
  | none => s.withLine go

/-- A fault that came back from a context image (R218); then checks 5-8 of R30, the deferred faults of R218 and the stalls
of R26 for a group; then its first slot. -/
def State.startGroup (s : State) (l : Line) : Out :=
  let k := s.core.slot
  let ks := groupSlots (lineWord l) k
  let is := ks.filterMap (instrOf l)
  if let some f := oldest s.core.resumeFaults then .next (s.deferredTrap f)
  else if !limitsOk (ks.map fun j => opcodeOf (slotWord l j)) then .next (s.trap 0x01 s.core.pc)
  else
    match ks.findSome? (s.badSlot l) with
    | some o => o
    | none =>
      if s.dev.clk < s.core.roomFrom is then stall (s.setCore { s.core with issueAt := s.core.roomFrom is })
      else if is.any s.core.stalls || is.any s.portHeld || is.any (s.core.sawVec s.dev.clk) then s.stallFor is
      else
        match oldest (is.flatMap s.core.concerned) with
        | some f => .next (s.deferredTrap f)
        | none =>
          match (trialOrder l ks).findSome? (s.trial l) with
          | some t => .next t
          | none =>
            match instrOf l k with
            | some i => (s.beginGroup l).issueSlot l i
            | none => .next s

/-- A slot that begins a group has no entry pushed before it (R28). -/
def State.groupOff (s : State) (l : Line) : State :=
  if begins (lineWord l) s.core.slot then s.setCore { s.core with grp := Grp.none } else s

/-- A trap whose entry has passed its checks is delivered, and counted (R316, R336). -/
def State.delivered (s : State) : State :=
  match s.core.entry with
  | some .trap => (s.setCore { s.core with entry := none }).count (if s.core.level = 1 then .trapsTl1 else .trapsTl2) 1
  | some .start | some .retried => s
  | none => s

/-- A core tries its next group: a write that failed in open mode (R167), its entry, its line, its group. -/
def State.tryGroup (s : State) : Out :=
  match s.core.writeFault with
  | some (f, ret, off) => .next ((s.setCore { s.core with heldMma := none }).writeTrap f ret off)
  | none =>
    match s.core.entry.bind fun _ => pointerCheck s.core.pc with
    | some c => .next (s.entryFails c)
    | none =>
      let c := s.core
      let s := s.setCore { c with heldMma := none, grp := if c.slot = 0 then Grp.none else c.grp }
      s.withLine fun l =>
        let s := s.groupOff l
        match s.lineTrap l with
        | some t => .next t
        | none => s.delivered.startGroup l

end Sys2Proof.Machine
end

