-- ==== Sys2Proof/Machine/Advance.lean ====
section
/-! DEFINITION. What the machine does of its own: which of its steps is due, which wait is over, and how a clk passes. -/

namespace Sys2Proof.Machine

/-! ## Marks -/

/-- A core may try again what it stalled on. -/
def Core.unmark (c : Core) : Core := { c with mark := .none }

def State.clearMarks (s : State) : State := s.mapCores Core.unmark

/-! ## Steps that are due

Each answers the step of the opcode table that is due, with the state in which it is made. -/

/-- A step made in the state as it stands. -/
def State.does (s : State) (i : Instr) : State × Instr := (s, i)

/-- A result is due. -/
def State.resultDue (s : State) : Option (State × Instr) :=
  s.cores.findSome? fun c => (c.pend.find? s.pendDue).map fun p =>
    s.does (match p.kind with
      | .idiv => .divisionResult
      | .fdiv => .floatDivideResult
      | .fixed => .resultArrival p.id
      | .fp => .resultArrival p.id
      | .vec => .resultArrival p.id)

/-- The step that an access of a core makes next. -/
def State.accessStep (s : State) (c : Core) (a : Access) : Option Instr :=
  if a.bad.isSome then if c.undecided a.id then none else some (.translation a.id)
  else if !s.mayPerform c a then none
  else if (s.missing a.space a.kind).isSome then some (.translation a.id)
  else
    match s.sealedMiss a.space a.kind with
    | some g => some (.sealedFill a.space (s.lineVa g))
    | none =>
      if s.reached a.space a.kind || c.wait.contains (.held a.id) || (s.lateCheck a.space a).2.isSome then
        some (.localAccessPerformed a.id)
      else none

/-- The cores in the order in which this clk's arbiters serve them: all firings of a cluster have one class, and within a class the
first place goes round (R385, log 53). -/
def State.turns (s : State) : List Core :=
  (List.range 4).filterMap fun i => s.cores.find? fun c => c.num == BitVec.ofNat 2 (s.dev.clk + i)

def State.accessDue (s : State) : Option (State × Instr) :=
  s.turns.findSome? fun c => c.acc.findSome? fun a => (s.accessStep c a).map s.does

def State.farReadDue (s : State) : Option (State × Instr) := s.turns.findSome? s.farDue

/-- The vector unit and the array. -/
def State.unitDue (s : State) : Option (State × Instr) :=
  if s.grantTo.isSome then some (s.does .vectorGrant)
  else if s.cores.any (fun c => (s.cmdDue c).isSome) || s.mmaDue then some (s.does .matrixCommandCompletion)
  else if s.splitDue then some (s.does .splitGranuleBoundary)
  else none

/-- The pull engine's replies, its repeats, and a promise that has passed. -/
def State.engineDue (s : State) : Option (State × Instr) :=
  s.pullDue <|> (s.replayDue.map s.does) <|> (s.repeatDue.map s.does) <|>
    if s.cores.any fun c => c.wait.any (s.waitpMissed c) then some (s.does .waitpPromiseExpiry) else none

/-- The scheduler: a refused watch, an assignment, an aged record, a reservation, a pre-emption, a save. -/
def State.schedDue (s : State) : Option (State × Instr) :=
  match s.cl.watches.find? fun w => w.sent && w.retryAt.any fun t => decide (t ≤ s.dev.clk) with
  | some w => some (s.does (.watchRetry w.id))
  | none =>
    if s.assignable.isSome then some (s.does .schedulerAssignment)
    else if s.ageDue.isSome then some (s.does .aging)
    else if s.reserveDue then some (s.does .quadReservation)
    else if s.preemptPick.any fun k => (s.focus fun c => c.num == k).any State.imageRoom then
      some (s.does (.preemptionRequest false))
    else if s.savePick.isSome then some (s.does .contextSave)
    else none

/-- Requests to other devices (R343, R345, R376). -/
def State.fabricDue (s : State) : Option (State × Instr) :=
  let lost := (s.dev.reqs.find? s.lossDue).map (·.dev) <|>
    (s.dev.sessions.find? fun x => x.spent && !s.lostDev x.dev).map (·.dev)
  (lost.map fun d => s.does (.peerLoss d)) <|>
    ((s.dev.reqs.find? s.retryDue).map fun r => s.does (.repeatAfterRetry r.id)) <|>
    ((s.dev.reqs.find? s.repeatReq).map fun r => s.does (.requestRepeat r.id)) <|>
    ((s.dev.reqs.find? s.probeDue).map fun r => s.does (.probeTimer r.dev)) <|>
    ((s.dev.pcie.find? s.pcieDue).map fun x => s.does (.completionTimeout x.1)) <|>
    ((s.dev.sessions.find? s.eraseDue).map fun x => s.does (.oldPhaseErase x.dev x.slot)) <|>
    ((s.dev.sessions.find? s.rotateDue).map fun x => s.does (.keyRotation x.dev x.slot .wanted))

/-- The mask of the modelled cluster alone. -/
def State.onlyHere (s : State) : BitVec 72 := BitVec.ofNat 72 (2 ^ s.clusterNo.toNat)

/-- A launch that has clusters nowhere but here. -/
def State.isHere (s : State) (l : Launch) : Bool := l.clusters == s.onlyHere && l.elsewhere.isEmpty

/-- The distributor. A launch whose clusters are more than the modelled one ends when all of them report (log 16). -/
def State.launchDue (s : State) : Option (State × Instr) :=
  (if s.selectable.isSome then some (s.does .launchSelection) else none) <|>
    ((s.dev.launches.find? fun l => s.killQuiet l && s.isHere l).map fun l => s.does (.killRecord l.graph)) <|>
    ((s.dev.launches.find? fun l => s.launchQuiet l && s.isHere l).map fun l => s.does (.launchCompletion l.graph))

/-- A quench whose hearth has only the modelled cluster and no launch left. -/
def State.quenchDue (s : State) : Option (State × Instr) :=
  (hearthSlots.find? fun k =>
    (s.slot k).st == .quenching && (s.slot k).clusters == s.onlyHere &&
      !(s.dev.launches.any fun l => l.live && (s.spacesOf k).contains l.space)).map fun k => s.does (.quenchRelease k)

/-- The first step that is due, of those that let a stalled core try again. -/
def State.due (s : State) : Option (State × Instr) :=
  s.resultDue <|> s.pullDue s.urgent <|> s.accessDue <|> s.farReadDue <|> s.codeDue <|> s.unitDue <|> s.engineDue <|>
    (if s.blockOver then some (s.does .migrationBlockEnd) else none) <|>
    s.fabricDue <|> s.launchDue <|> s.schedDue <|> s.quenchDue

/-- The first of several works that finds something to do. -/
def firstWork (s : State) (works : List (State → Option State)) : Option State := works.findSome? fun w => w s

/-- A destination line of a transfer is settled. -/
def State.settleWork (s : State) : Option State := s.settleDue.map fun x => s.settle x.1 x.2.1 x.2.2.1 x.2.2.2

/-- Transfers that are complete advance their channel's word. -/
def State.advanceWork (s : State) : Option State := s.completeDue.map s.advanceChan

/-- A line is posted. -/
def State.postWork (s : State) : Option State := s.postDue.map fun x => s.postNext x.1 x.2.1 x.2.2.1 x.2.2.2

/-- An activation row enters the array. -/
def State.rowWork (s : State) : Option State := if s.rowDue then some s.enterRow else none

/-- The core of a killed firing is freed, at its group's end or asleep in it. -/
def State.dropWork (s : State) : Option State :=
  (s.focus fun c => c.status == .stopping && c.between).map State.dropCore

/-- A firing asked to stop stops at its boundary. -/
def State.stopWork (s : State) : Option State :=
  (s.focus s.stopsHere).map fun t => t.setCore { t.core with status := .stopped, heldMma := none }

/-- A bound launch's root records are placed. -/
def State.placeWork (s : State) : Option State := s.placeDue.map s.placeRoots

/-- A destination line of a class P1 transfer is settled before the accesses of P2 firings (R385, R386). -/
def State.urgentWork (s : State) : Option State := (s.settleDue s.urgent).map fun x => s.settle x.1 x.2.1 x.2.2.1 x.2.2.2

/-- The template of a slot's instance has been read: the launch enters (R389, R390). -/
def State.templateWork (s : State) : Option State :=
  (s.dev.reads.find? fun r => r.timed.isSome && r.launch.isNone && decide (r.want ≤ r.chunks.length)).map s.recordRead

/-- A block of a capture log is written, at class P3 (R399). -/
def State.logWork (s : State) : Option State := (s.dev.launches.find? s.logDue).map s.storeLog

/-- Unnamed work of the units: root records are placed; a pull line settles, a channel advances, a line is posted; a matrix command does a row of its
own, or a row enters the array; the core of a killed firing is freed; a firing asked to stop stops; a slot's template
is taken; a log's block is written. -/
def State.unitWork (s : State) : Option State :=
  firstWork s [State.placeWork, State.settleWork, State.advanceWork, State.postWork, State.cmdUnit, State.rowWork, State.dropWork, State.stopWork,
    State.templateWork, State.logWork]

/-! ## Waits that are over -/

/-- One wait of the core in focus, if it is over; a resumed firing's own waits go on once its listed transfers have completed
(R332). -/
def State.endWait (s : State) (w : Wait) : Option State :=
  if s.core.resuming && w != .transfers then none
  else
  match w with
  | .fence sc id lost => if s.fenceMet s.core sc id then some (s.finishFence sc id lost) else none
  | .mwait lo hi id => if s.core.mwaitMet lo hi id then some (s.setCore (s.core.finishMwait lo hi id)) else none
  | .waitp _ _ _ _ _ _ _ _ => if s.waitpMet w then some (s.finishWaitp w) else none
  | .wsleep m _ => if (s.core.lowSlot m WState.terminal).isSome then some (s.wake w) else none
  | .transfers =>
    if s.core.pulls.all fun x => s.xferDone (Fin.ofNat 16 x.1) x.2 then
      some (s.setCore { s.core with wait := s.core.wait.filter fun x => x != .transfers })
    else none
  | .sqwait id =>
    if s.core.acc.any (fun a => a.id == id) || s.core.pend.any (fun p => p.id == id) then none
    else some (s.setCore { s.core with wait := s.core.wait.filter fun x => x != .sqwait id })
  | .held _ | .ending | .committing | .joined _ _ => none

/-- The first wait of a running core that is over; the groups it held issue in the next clk (R275). -/
def State.waitOver (s : State) : Option State :=
  (s.cores.map (·.num)).findSome? fun k =>
    (s.focus fun c => c.num == k && c.status != .stopped).bind fun t => (t.core.wait.findSome? t.endWait).map fun u =>
      u.setCore { u.core with issueAt := max u.core.issueAt (s.dev.clk + 1) }

/-! ## Cores that may issue -/

/-- A core is in the middle of a group that may go on. -/
def Core.inGroup (c : Core) (clk : Nat) : Bool :=
  c.grp.live && (c.status == .running || c.status == .stopping) && c.mark == .none && !(c.grp.issued && c.holding) &&
    decide (c.issueAt ≤ clk)

/-- A wait that holds back no group. -/
def Wait.isJoined : Wait → Bool
  | .joined _ _ => true
  | .sqwait _ | .wsleep _ _ | .waitp _ _ _ _ _ _ _ _ | .fence _ _ _ | .held _ | .ending | .committing | .mwait _ _ _ | .transfers => false

/-- A core may try its next group. -/
def State.mayTry (s : State) (c : Core) : Bool :=
  c.status == .running && !c.grp.live && c.mark == .none && c.wait.all Wait.isJoined && decide (c.issueAt ≤ s.dev.clk)

/-! ## A clk passes (R388) -/

/-- What slewing adds in a clk: at most 2 of 2,000 parts. -/
def slewStep (left : Int) : Int := max (-2) (min left 2)

/-- The thirds of a ps by which TIME rises in a clk, with those left over from the clk before. -/
def State.timeStep (s : State) : Nat := (s.dev.third + 2000 + slewStep s.dev.servo.left).toNat

/-- The launch-table slot that is decided next, in slot order: one that has been reached, at the last clk of its TIME, so that an
end at the same TIME comes first (R388, R390). -/
def State.slotPick (s : State) : Option (Fin 256) :=
  let due := s.dev.table.filter fun e => s.slotDue e && (decide (e.slotTime < s.dev.time) || decide (3000 ≤ s.timeStep))
  match due with
  | [] => none
  | e :: r => some (r.foldl (fun m x => if x.slotTime < m.slotTime ∨ (x.slotTime = m.slotTime ∧ x.idx < m.idx) then x else m) e).idx

/-- CLK rises by one and TIME by 2/3 ns, slewed; a core that waits at a barrier counts; stalled cores may try again. -/
def State.tick (s : State) : State :=
  let v := s.dev.servo
  let d := slewStep v.left
  let t := s.timeStep
  let left := v.left - d
  let held := (s.cores.filter fun c => c.heldMma.isSome).length
  let s := if held = 0 then s else s.count .barrierClk held
  s.clearMarks.setDev
    { s.dev with
      clk := s.dev.clk + 1, third := t % 3000, time := s.dev.time + t / 3000
      servo := { v with left := left, slew := v.slew && decide (left ≠ 0) } }

end Sys2Proof.Machine
end

