-- ==== Sys2Proof/Machine/Step.lean ====
section
/-! DEFINITION. The step: a core in the middle of a group goes on; else the next step on the agenda is made; else the first
of the machine's own steps that is due; else a core tries its next group; else a slot of the launch table is decided; else a clk
passes. -/

namespace Sys2Proof.Machine

/-- What the machine does when no group is in progress and nothing is on the agenda. -/
def State.idleStep (s : State) : Out :=
  match s.urgentWork with
  | some t => .next t.clearMarks
  | none =>
  match s.due with
  | some (t, i) => exec i t.clearMarks
  | none =>
    match s.unitWork with
    | some t => .next t.clearMarks
    | none =>
      if s.cores.any s.commitDue then exec .commit s
      else
        match s.waitOver with
        | some t => .next t.clearMarks
        | none =>
          match s.focus s.mayTry with
          | some t => t.tryGroup
          | none =>
            match s.slotPick with
            | some i => exec (.launchSlot i) s.clearMarks
            | none => .next s.tick

/-- An inert package answers management, by which its boot log is read, and stands until it is reset (R372). -/
def State.inertStep (s : State) : Out :=
  match s.agenda with
  | .pldmPlatformMonitoring :: rest => exec .pldmPlatformMonitoring { s with agenda := rest }
  | .boot a b d c m i f :: rest => exec (.boot a b d c m i f) { s with agenda := rest }
  | _ => .fault .inertPackage

/-- ONE STEP. -/
def step (s : State) : Out :=
  if s.dev.inert then s.inertStep
  else
    match s.focus fun c => c.inGroup s.dev.clk with
    | some t => t.continueGroup
    | none =>
      match s.agenda with
      | i :: rest => exec i (({ s with agenda := rest } : State).clearMarks)
      | [] => s.idleStep

/-! ## A program from outside -/

/-- A line whose slot 0 holds a word, each slot a group of its own, slot 0 a target (R19-R22). -/
def lineOfWord (w : IWord) : Line :=
  let nop : IWord := 0x010FFFFFFF00000000000000
  let body : Line := w.setWidth 512 ||| (nop.setWidth 512 <<< 96) ||| (nop.setWidth 512 <<< 192) ||| (nop.setWidth 512 <<< 288) |||
    (nop.setWidth 512 <<< 384)
  let word : BitVec 32 := 0x010001E1 ||| ((lineParity body).setWidth 32 <<< 16)
  body ||| (word.setWidth 512 <<< 480)

/-- The core in focus at the first slot of its line, about to issue it. -/
def Core.placed (c : Core) : Core :=
  { c with
    status := .running, pc := lineOf c.pc, entry := none, mark := .none, grp := Grp.none, wait := [], writeFault := none
    issueAt := 0, preempt := false }

/-- The state with an instruction where the core in focus fetches next: its line is in the quad's instruction cache (R24). -/
def State.withFetchWord (s : State) (nbits w : Nat) : State :=
  let c := s.core.placed
  { s with
    core := c, agenda := [], icache := [(c.pc, lineOfWord (BitVec.ofNat 96 (w % 2 ^ nbits)))],
    dev := { s.dev with inert := false } }

end Sys2Proof.Machine
end

