-- ==== Sys2Proof/Safety.lean ====
section
/-! DEFINITION. What the statements say of a step, in plain terms: exact values of results at a width, what a result, a
later result, an access, a vector instruction, a matrix command or a trap changes and that it changes nothing else, and
the invariant that every step keeps. -/

namespace Sys2Proof.Machine

/-! ## Values at a width (R57) -/

/-- The low `w` bits of a word, unsigned. -/
def lowU (w : Nat) (x : Word) : Nat := x.toNat % 2 ^ w

/-- The low `w` bits of a word, in two's complement. -/
def lowS (w : Nat) (x : Word) : Int := (x.toNat : Int).bmod (2 ^ w)

/-- `v` is SX of the low `w` bits of the exact integer `i`. -/
def IsSx (w : Nat) (v : Word) (i : Int) : Prop := v.toInt = i.bmod (2 ^ w)

/-- `v` is ZX of the low `w` bits of the exact integer `i`. -/
def IsZx (w : Nat) (v : Word) (i : Int) : Prop := (v.toNat : Int) = i % 2 ^ w

/-! ## A result (R39, R51, R59) -/

/-- A bank after one more entry. -/
def pushedBank (b : List QEntry) (e : QEntry) : List QEntry := (e :: b).take bankDepth

/-- The bank of the current level, and no other, has one more entry. -/
structure Pushed (c d : Core) (e : QEntry) : Prop where
  low : d.bank0 = if c.level = 0 then pushedBank c.bank0 e else c.bank0
  mid : d.bank1 = if c.level = 1 then pushedBank c.bank1 e else c.bank1
  high : d.bank2 = if 2 ≤ c.level then pushedBank c.bank2 e else c.bank2
  grp : d.grp = { c.grp with off := c.grp.off + 1 }

/-- The named register `r`, if there is one, holds `v`; every other register is as before. -/
structure Wrote (c d : Core) (r : NDst) (v : Word) : Prop where
  named : ∀ k : Fin 32, d.regs.n[k] = if r = some k then v else c.regs.n[k]
  vectors : d.regs.v = c.regs.v
  masks : d.regs.m = c.regs.m
  maps : d.regs.tm = c.regs.tm
  counts : d.regs.lc = c.regs.lc

/-- A result pushed and written, with the frame: nothing else of the machine changes. -/
structure ScalarResult (s t : State) (r : NDst) (v : Word) : Prop where
  pushed : Pushed s.core t.core (.arrived v)
  wrote : Wrote s.core t.core r v
  frame : t = { s with
    core := { s.core with
      bank0 := t.core.bank0, bank1 := t.core.bank1, bank2 := t.core.bank2, regs := t.core.regs, grp := t.core.grp
      faults := s.core.faults.filter fun x => r.map Dest.n != some x.1 } }

/-- A result that arrives at `due`: its queue position and its register are pending under one id, and nothing else of the
machine changes (R40, R41). -/
structure LaterResult (s t : State) (r : NDst) (kind : PendKind) (v : Word) (flags : BitVec 5) (due : Nat) : Prop where
  pushed : Pushed s.core t.core (.pending s.cl.nextId)
  frame : t = { s with
    core := { s.core with
      bank0 := t.core.bank0, bank1 := t.core.bank1, bank2 := t.core.bank2, grp := t.core.grp
      pend := s.core.pend ++ [{ id := s.cl.nextId, kind := kind, value := .scalar v, flags := flags, due := due }]
      owed := s.core.owed ++ r.toList.map fun k => (s.cl.nextId, Dest.n k) }
    cl := { s.cl with nextId := s.cl.nextId + 1 } }

/-! ## Accesses (R166, R167) -/

/-- An access joins the firing's list with its place in the queue, and nothing else of the machine changes: no register,
no byte of memory. In held mode its later slots wait for it, unless its checks are decided as it issues, which is the model's
choice (log 18). -/
structure AccessIssued (s t : State) (kind : AccKind) (ds : List Dest) (due : Nat) (push : Bool) : Prop where
  joined : ∃ a, t.core.acc = s.core.acc ++ [a] ∧ a.id = s.cl.nextId ∧ a.kind = kind ∧ a.due = s.dev.clk + due ∧
    a.space = s.core.task.space ∧ a.ret = s.core.pc ∧ a.firing = s.core.number ∧ a.known = s.known kind
  queue : if push then Pushed s.core t.core (.pending s.cl.nextId)
    else t.core.bank0 = s.core.bank0 ∧ t.core.bank1 = s.core.bank1 ∧ t.core.bank2 = s.core.bank2 ∧ t.core.grp = s.core.grp
  waits : t.core.wait = s.core.wait ++ (if (s.core.level ≠ 0 ∨ s.core.nonRestart = true) ∧ s.decided kind = false ∧ kind.cls ≠ .hint ∧
    (kind.reads = true ∨ ∃ e ∈ kind.ranges, 0x2000000 ≤ e.1) then [.held s.cl.nextId] else [])
  frame : t = { s with
    core := { s.core with
      bank0 := t.core.bank0, bank1 := t.core.bank1, bank2 := t.core.bank2, grp := t.core.grp, acc := t.core.acc
      owed := s.core.owed ++ ds.map fun d => (s.cl.nextId, d), wait := t.core.wait }
    cl := { s.cl with nextId := s.cl.nextId + 1 } }

/-- The conditions, on the state and the operands alone, on which an access passes the checks that it makes at issue:
aligned, no byte in the reserved range or past the live window, none in the channel area for a write; no acquire of the
firing is open, and a store buffer entry is free (R166, R170, R220, R239). -/
structure IssueOk (s : State) (align : Nat) (writes : Bool) (kind : AccKind) : Prop where
  aligned : ∀ e ∈ kind.ranges, e.1 % align = 0
  mapped : ∀ e ∈ kind.ranges, ¬(e.1 < 0x4000000 ∧ 0x2000000 < e.1 + e.2) ∧ (e.1 < 0x2000000 → e.1 + e.2 ≤ s.liveNear)
  channels : writes = true → ∀ e ∈ kind.ranges, ¬(e.1 < s.liveNear ∧ s.liveNear - 1024 < e.1 + e.2)
  acquire : s.core.acquiring = false
  room : kind.stores = true → s.core.bufferFull = false

/-! ## The units -/

/-- A vector instruction takes an entry of the dispatch queue, and its results are owed; nothing else changes
(R288, R291). -/
structure VectorIssued (s t : State) (i : Instr) (scalars : List Word) (push : Bool) : Prop where
  queued : ∃ x, t.core.vq = s.core.vq ++ [x] ∧ x.id = s.cl.nextId ∧ x.instr = i ∧ x.scalars = scalars
  queue : if push then Pushed s.core t.core (.pending s.cl.nextId)
    else t.core.bank0 = s.core.bank0 ∧ t.core.bank1 = s.core.bank1 ∧ t.core.bank2 = s.core.bank2 ∧ t.core.grp = s.core.grp
  frame : t = { s with
    core := { s.core with
      bank0 := t.core.bank0, bank1 := t.core.bank1, bank2 := t.core.bank2, grp := t.core.grp, vq := t.core.vq, vqFull := false
      owed := s.core.owed ++ (dests i).map fun d => (s.cl.nextId, d) }
    cl := { s.cl with nextId := s.cl.nextId + 1 } }

/-- A matrix command takes its place in the core's queue, its scratch range in the scoreboard; nothing else changes
(R248, R270). -/
structure CommandQueued (s t : State) (op : MOp) (due : Nat) (range : Option (Nat × Nat × Bool)) (ds : List Dest) : Prop where
  frame : t = { s with
    core := { s.core with
      mq := s.core.mq ++ [MCmd.new s.cl.nextId op (s.dev.clk + due)]
      sb := s.core.sb ++ range.toList.map fun r => { id := s.cl.nextId, firing := s.core.number, lo := r.1, hi := r.2.1, write := r.2.2 }
      owed := s.core.owed ++ ds.map fun d => (s.cl.nextId, d) }
    cl := { s.cl with nextId := s.cl.nextId + 1 } }

/-- A group's transfer stands by until its group has issued (R27); nothing else changes. -/
def TransferSet (s t : State) (x : Xfer) : Prop :=
  t = { s with core := { s.core with grp := { s.core.grp with xfer := some x } } }

/-- The core in focus alone changes, and of it neither the registers nor the spill region nor the trap registers. -/
structure RegistersKept (s t : State) : Prop where
  regs : t.core.regs = s.core.regs
  spill : t.core.spill = s.core.spill ∧ t.core.sp = s.core.sp ∧ t.core.spbase = s.core.spbase ∧ t.core.splim = s.core.splim
  traps : t.core.trap1 = s.core.trap1 ∧ t.core.trap2 = s.core.trap2
  fstat : t.core.fstat = s.core.fstat
  mates : t.mates = s.mates
  mem : t.mem = s.mem

/-! ## A trap (R316) -/

/-- What CAUSE holds: bits [7:0] the cause, [10:8] the group offset, [20:11] the flags. -/
def IsCause (x : Word) (cause : Byte) (off : Nat) : Prop :=
  x.extractLsb' 0 8 = cause ∧ (x.extractLsb' 8 3).toNat = off % 8 ∧ x.extractLsb' 11 53 = 0

/-- The core in focus has entered level `l` + 1 with the three trap registers of that level written. -/
structure Entered (s t : State) (l : Nat) (cause : Byte) (tval ret : Word) (off : Nat) : Prop where
  level : t.core.level = l + 1
  cause : IsCause (t.core.trapRegs (l + 1)).cause cause off
  ret : (t.core.trapRegs (l + 1)).ret = ret
  tval : (t.core.trapRegs (l + 1)).tval = tval
  pc : t.core.pc = if l = 0 then s.tvec else s.tvec + 64
  bank : t.core.bank (l + 1) = zeroBank
  below : (l = 1 → t.core.bank0 = s.core.bank0 ∧ t.core.bank1 = s.core.bank1 ∧ t.core.trap1 = s.core.trap1) ∧
    (l = 0 → t.core.bank0 = s.core.bank0 ∧ t.core.bank2 = s.core.bank2 ∧ t.core.trap2 = s.core.trap2)
  regs : t.core.regs = s.core.regs ∧ t.core.sp = s.core.sp ∧ t.core.spill = s.core.spill ∧ t.core.fstat = s.core.fstat
  mem : t.mem = s.mem
  mates : t.mates = s.mates

/-! ## Words used by the statements -/

/-- What a step leaves when the slot at the code pointer, with instruction `i` of line `l`, has taken `s` to `t`: a slot that
stalls or leaves its group is as `exec` left it; one that issues outdates the results of earlier slots for the registers that
it has written at once (R26), and the core goes on in its group (R27). -/
def State.slotOver (s t : State) (l : Line) (i : Instr) : State :=
  (if t.core.stalledNow || t.core.fetching || !t.core.grp.live then t else t.setCore (t.core.overwrite i s.cl.nextId)).afterSlot l s.core.grp.off

/-- The state in which the first slot of a group of line `l` is issued: the group's registers, %sp and CLK are those before
it. -/
def State.atGroup (s : State) (l : Line) : State :=
  (s.setCore { s.core with heldMma := none, grp := Grp.none }).beginGroup l

/-- ADD and SUB of R61. -/
def AddSpec (f : AddFn) (w : Nat) (v : Word) (wrapped signed unsigned : Int) (carry : Bool) : Prop :=
  match f with
  | .wrap => IsSx w v wrapped
  | .sat => IsSx w v (max (-(2 ^ (w - 1))) (min (2 ^ (w - 1) - 1) signed))
  | .satu => IsZx w v (max 0 (min (2 ^ w - 1) unsigned))
  | .carry => v = if carry then 1 else 0

/-- What a division of R63 leaves: the exact quotient or remainder by a non-zero divisor, or trap 0x0A with the dividend as
TVAL by zero. -/
def DivSpec (s : State) (i : Instr) (w : Width) (d : NDst) (a b : Word) (is : Word → Prop) : Prop :=
  (lowU (wbits w) b ≠ 0 → (s.core.onDivider .idiv).length < 2 →
    ∃ v t, exec i s = .next t ∧
      LaterResult s t d .idiv v 0 (s.core.divDue .idiv s.dev.clk
        (match w with | .w8 => 6 | .w16 => 10 | .w32 => 18 | .w64 => 34)) ∧ is v) ∧
  (lowU (wbits w) b = 0 → exec i s = .next (takeTrap s 0x0A (zx (wbits w) a) s.core.pc s.core.grp.off 0))

/-- The truth of a condition of R69 on the exact operands. -/
def CondHolds (c : ICond) (w : Nat) (a b : Word) : Prop :=
  match c with
  | .eq => lowU w a = lowU w b
  | .ne => lowU w a ≠ lowU w b
  | .lt => lowS w a < lowS w b
  | .ge => lowS w b ≤ lowS w a
  | .ltu => lowU w a < lowU w b
  | .geu => lowU w b ≤ lowU w a
  | .gt => lowS w b < lowS w a
  | .le => lowS w a ≤ lowS w b
  | .gtu => lowU w b < lowU w a
  | .leu => lowU w a ≤ lowU w b

/-! ## The invariant -/

/-- The memory, and the spill region of every core and of every saved context, are in canonical form, so that equal memories
are equal data. -/
structure Inv (s : State) : Prop where
  mem : Memory.wf s.mem = true
  spill : ∀ c ∈ s.cores, Memory.wf c.spill = true
  images : ∀ g ∈ s.cl.images, ∀ c ∈ g.cores, Memory.wf c.spill = true

/-! ## The spill region (R48) -/

/-- Words stand at consecutive spill offsets from `off`. -/
def SpillHolds (m : List Host.Cell) (off : Word) (vs : List Word) : Prop :=
  ∀ (k : Nat) (v : Word), vs[k]? = some v → Mem.word m (off + BitVec.ofNat 64 (8 * k)).toNat = v

/-- Every byte outside `n` words from `off` reads as before. -/
def SpillKept (m m' : List Host.Cell) (off : Word) (n : Nat) : Prop :=
  ∀ a : Nat, (∀ k < n, a < (off + BitVec.ofNat 64 (8 * k)).toNat ∨ (off + BitVec.ofNat 64 (8 * k)).toNat + 8 ≤ a) →
    Mem.read m' a = Mem.read m a

/-- %sp moves to `new`, and the spill port is busy until `port`; of the machine only the spill region changes with them. -/
structure SpMoved (s t : State) (new : Word) (port : Nat := s.core.spillAt) : Prop where
  frame : t = { s with core := { s.core with sp := new, spill := t.core.spill, spillAt := port } }

/-! ## Moves (R51, R52) -/

/-- A result pushed and written to a named or a mask register; nothing else of the machine changes. -/
structure MoveResult (s t : State) (d : Option NM) (v : Word) : Prop where
  pushed : Pushed s.core t.core (.arrived v)
  named : ∀ k : Fin 32, t.core.regs.n[k] = if d = some (.n k) then v else s.core.regs.n[k]
  masks : ∀ k : Fin 8, t.core.regs.m[k] = if d = some (.m k) then v else s.core.regs.m[k]
  others : t.core.regs.v = s.core.regs.v ∧ t.core.regs.tm = s.core.regs.tm ∧ t.core.regs.lc = s.core.regs.lc
  frame : t = { s with
    core := { s.core with
      bank0 := t.core.bank0, bank1 := t.core.bank1, bank2 := t.core.bank2, regs := t.core.regs, grp := t.core.grp
      faults := s.core.faults.filter fun x => d.map NM.dest != some x.1 } }

/-! ## Transfers (R107) -/

/-- Steps 2, 4 and 5 of R107 pass for a target whose line is in the cache. -/
structure GoodTarget (s : State) (p : Word) : Prop where
  pointer : pointerCheck p = none
  line : ∃ l, s.codeLine (lineOf p) = some l ∧ (lineWord l).getLsbD (slotOf p) = true

/-- Steps 2 and 4 pass, and step 5 finds a slot that is no target. -/
structure NoTarget (s : State) (p : Word) : Prop where
  pointer : pointerCheck p = none
  line : ∃ l, s.codeLine (lineOf p) = some l ∧ lineCheck (lineOf p) l = none ∧ (lineWord l).getLsbD (slotOf p) = false

/-! ## Accesses performed (R167-R172) -/

/-- Access `k` of the core in focus may be performed: it is its turn, its bytes lie in the near window, none of its granules
is poisoned, and no watch is registered on them. -/
structure NearTurn (s : State) (k : Nat) (a : Access) : Prop where
  mine : s.core.access k = some a
  turn : s.mayPerform s.core a = true
  near : ∀ e ∈ a.kind.ranges, e.1 + e.2 ≤ 0x2000000
  clean : ∀ g ∈ a.kind.lines, s.cl.poison.contains (g / 64) = false
  unwatched : ∀ e ∈ a.kind.ranges, ∀ w ∈ s.cl.sluice, ¬(w.off.toNat < e.1 + e.2 ∧ e.1 < w.off.toNat + 8)

/-- The access is over: it has left the list and nothing waits for it any more, its result is on its way, and the firing
may have become non-restartable; nothing else of the core changes. -/
def AccessOver (s t : State) (k : Nat) (result : Option (PVal × Nat)) : Prop :=
  t.core = { s.core with
    acc := s.core.acc.filter fun x => x.id != k
    wait := s.core.wait.filter fun w => w != .held k
    pend := s.core.pend ++ result.toList.map fun r =>
      { id := k, kind := .fixed, value := r.1, flags := 0, due := s.dev.clk + r.2 }
    nonRestart := t.core.nonRestart }

/-- `bs` stands at `off`, and every byte outside it reads as before. -/
def Stored (m m' : List Host.Cell) (off : Nat) (bs : List Byte) : Prop :=
  Mem.bytes m' off bs.length = bs ∧ ∀ a : Nat, a < off ∨ off + bs.length ≤ a → Mem.read m' a = Mem.read m a

/-! ## Far reads (R217) -/

/-- A far read takes its queue position and joins the list; nothing else changes. -/
structure FarIssued (s u : State) (f : FarRead) (d : NDst) : Prop where
  pushed : Pushed s.core u.core (.pending s.cl.nextId)
  frame : u = { s with
    core := { s.core with
      bank0 := u.core.bank0, bank1 := u.core.bank1, bank2 := u.core.bank2, grp := u.core.grp, far := s.core.far ++ [f]
      owed := s.core.owed ++ d.toList.map fun k => (s.cl.nextId, Dest.n k) }
    cl := { s.cl with nextId := s.cl.nextId + 1 } }

/-! ## Pulls (R253) -/

/-- A transfer takes the channel's next ID and pushes it and its promise; the ID goes to D, and nothing else changes. A time-triggered
firing's transfer is of class P1 (R385). -/
structure PullStarted (s u : State) (ch : Fin 16) (cls : BitVec 2) (d : NDst) (kind : XferKind) (lines : List PullLine)
    (fault : Option (Byte × Nat)) (promise : Word) (ranges : List (Nat × Nat × Bool)) : Prop where
  queue : ∃ c : Core, Pushed s.core c (.arrived (BitVec.ofNat 64 s.cl.chans[ch].next)) ∧ Pushed c u.core (.arrived promise)
  wrote : Wrote s.core u.core d (BitVec.ofNat 64 s.cl.chans[ch].next)
  frame : u = { s with
    core := { s.core with
      bank0 := u.core.bank0, bank1 := u.core.bank1, bank2 := u.core.bank2, grp := u.core.grp, regs := u.core.regs
      faults := s.core.faults.filter fun x => d.map Dest.n != some x.1
      sb := s.core.sb ++ ranges.map fun r => { id := s.cl.nextId, firing := s.core.number, lo := r.1, hi := r.2.1, write := r.2.2 }
      pulls := s.core.pulls ++ [(ch.val, s.cl.chans[ch].next)] }
    cl := { s.cl with
      nextId := s.cl.nextId + 1, counts := addCount .pullTransfers 1 s.cl.counts
      chans := s.cl.chans.set ch { s.cl.chans[ch] with
        next := s.cl.chans[ch].next + 1, faulted := s.cl.chans[ch].faulted.filter fun x => s.cl.chans[ch].next < x + 256
        xfers := s.cl.chans[ch].xfers ++ [{
          xid := s.cl.chans[ch].next, cmd := s.cl.nextId, kind := kind, cls := if s.core.task.timed then 1 else cls, lines := lines, fault := fault
          dstFault := none, gens := [], flags := 0, owner := s.core.num, firing := s.core.number, lostHome := false
          start := s.dev.clk + 8 }] } } }

/-- The destination rows of a pull: the address modulo 2^40 and the bytes of each; a row that passes 2^40 goes on from 0. -/
def pullRows (dst rows pitch len : Nat) : List (Nat × Nat) := (List.range rows).flatMap fun r =>
  let a := (dst + r * pitch) % 2 ^ 40
  if a + len ≤ 2 ^ 40 then [(a, len)] else [(a, 2 ^ 40 - a), (0, a + len - 2 ^ 40)]

/-- A pull finds room: a transfer of its channel, and its entries of the scoreboard (R238, R249). -/
structure PullRoom (s : State) (ch : Fin 16) (ranges : Nat) : Prop where
  acquire : s.core.acquiring = false
  channel : s.cl.chans[ch].xfers.length < 256
  board : s.core.sb.length + ranges ≤ 16

/-! ## The joint array (R248, R262, R270) -/

/-- A matrix command finds room: an entry of the core's queue, and its entries of the scoreboard. -/
structure CommandRoom (s : State) (ranges : Nat) : Prop where
  acquire : s.core.acquiring = false
  queue : s.core.mq.length < 8
  board : s.core.sb.length + ranges ≤ 16

/-- A scratch operand of one tile meets R262: first register [39:0] base, [43:40] rotation; second [23:0] pitch, [55:24]
tile stride. -/
structure OperandOk (f : MFmt) (first second : Word) (rows live : Nat) : Prop where
  rotation : first.toNat / 2 ^ 40 < 4
  unused : second.toNat < 2 ^ 56
  base : first.toNat % 2 ^ 40 % 32 = 0
  tile : second.toNat / 2 ^ 24 % 32 = 0
  pitch : second.toNat % 2 ^ 24 % 32 = 0
  rotated : first.toNat / 2 ^ 40 ≠ 0 → first.toNat % 2 ^ 40 % 256 = 0 ∧ second.toNat % 2 ^ 24 % 256 = 0
  apart : 1 < rows → 256 + f.s ≤ second.toNat % 2 ^ 24
  below : ∀ i < rows, (first.toNat % 2 ^ 40 + i * (second.toNat % 2 ^ 24)) % 2 ^ 40 + 256 + f.s ≤ live

/-! ## Vector lanes (R286) -/

/-- Element `j` of a register of `w`-bit elements. -/
def lane (w : Nat) (v : VReg) (j : Nat) : Nat := v.toNat / 2 ^ (w * j) % 2 ^ w

/-- A vector instruction computes one register whose element `j` is `f j` where `j` is active, and as before elsewhere, and
raises no flag. -/
def LanesAre (e : VEnv) (i : Instr) (w : Nat) (m : VMask) (d : Fin 32) (f : Nat → Nat) : Prop :=
  ∀ free, ∃ r, vecResult e free i = some (.vec [r], 0) ∧ ∀ j < 2048 / w,
    lane w r j = if (match m with
      | some k => (e.m k).getLsbD (j * w / 32)
      | none => true) then f j % 2 ^ w else lane w (e.old d) j

/-! ## System registers (R322) -/

/-- Bits [95:32] of an instruction's word, which TVAL of trap 0x16 holds (R315). -/
def wordBits (i : Instr) : Word := ((encode i).map fun w => w.extractLsb' 32 64).getD 0

/-! ## The machine's own steps -/

/-- No core of the quad changes, and no byte of memory. -/
structure Kept (s t : State) : Prop where
  core : t.core = s.core
  mates : t.mates = s.mates
  mem : t.mem = s.mem

/-- No core of the quad changes. -/
def CoresKept (s t : State) : Prop := t.core = s.core ∧ t.mates = s.mates

/-- A due result `p` has reached its core: its queue entry, where it is still there, and the registers owed to it are
written, and its flags are merged; of the machine only the core in focus changes (R40, R87). -/
structure ResultIn (s t : State) (p : Pend) : Prop where
  frame : t = { s with
    core := { s.core with
      pend := s.core.pend.filter fun x => x.id != p.id
      owed := (s.core.owed.filter fun x => x.1 != p.id).map fun x =>
        if x.1 < p.id ∧ (p.id, x.2) ∈ s.core.owed then (x.1, .gone) else x
      fstat := s.core.fstat ||| p.flags, vecNew := t.core.vecNew
      bank0 := t.core.bank0, bank1 := t.core.bank1, bank2 := t.core.bank2, regs := t.core.regs, faults := t.core.faults } }
  scalar : ∀ v, p.value = .scalar v →
    let put (b : List QEntry) : List QEntry := b.map fun e => if e = .pending p.id then .arrived v else e
    t.core.bank0 = put s.core.bank0 ∧ t.core.bank1 = put s.core.bank1 ∧ t.core.bank2 = put s.core.bank2 ∧
    (∀ k : Fin 32, t.core.regs.n[k] = if (p.id, Dest.n k) ∈ s.core.owed then v else s.core.regs.n[k]) ∧
    t.core.regs.v = s.core.regs.v ∧ t.core.regs.tm = s.core.regs.tm
  vector : ∀ x r, p.value = .vec [x] → (s.core.owed.filter fun y => y.1 == p.id) = [(p.id, .v r)] →
    t.core.bank0 = s.core.bank0 ∧ t.core.bank1 = s.core.bank1 ∧ t.core.bank2 = s.core.bank2 ∧
    t.core.regs.n = s.core.regs.n ∧ t.core.regs.m = s.core.regs.m ∧
    (∀ k : Fin 32, t.core.regs.v[k] = if k = r then x else s.core.regs.v[k])
  mask : ∀ x w, p.value = .mask x w →
    t.core.bank0 = s.core.bank0 ∧ t.core.bank1 = s.core.bank1 ∧ t.core.bank2 = s.core.bank2 ∧
    t.core.regs.n = s.core.regs.n ∧ t.core.regs.v = s.core.regs.v ∧
    (∀ k : Fin 8, t.core.regs.m[k] =
      if (p.id, Dest.m k) ∈ s.core.owed then (s.core.regs.m[k] &&& ~~~w) ||| (x &&& w) else s.core.regs.m[k])

/-- A requested code line is answered: nobody waits for it any more, and no core, no cluster state and no byte of memory
changes. -/
structure CodeAnswered (s t : State) (addr : Word) : Prop where
  kept : Kept s t
  cl : t.cl = s.cl
  asked : t.quad.icMiss = s.quad.icMiss.filter fun x => x.2 != addr

/-- A command of the core in focus is over: it has left the queue, and its entry the scoreboard; the MMAs that
waited for it may not enter before the next clk, nor may an END that waited for it end its firing (R275): of a core this
changes nothing but when those are due. -/
def State.popped (s : State) (m : MCmd) : State :=
  ({ s with core := { s.core with
      mq := s.core.mq.filter fun x => x.id != m.id, sb := s.core.sb.filter fun r => r.id != m.id } } : State).entersAfter m.op

/-- Columns `c0` to `c0 + n - 1` of a slice are written with `col` and `scale`; the others stay, or are the 0 and 0x7F
bytes that a change of format leaves (R264). -/
structure ColumnsLatched (w w' : Slice) (f : MFmt) (c0 n : Nat) (col : Nat → VReg) (scale : Nat → BitVec 128) : Prop where
  fmt : w'.fmt = f
  cols : ∀ c : Fin 64, w'.cols[c] = if c0 ≤ c.val ∧ c.val < c0 + n then col (c.val - c0) else if w.fmt = f then w.cols[c] else 0
  scales : ∀ c : Fin 64, w'.scales[c] =
    if c0 ≤ c.val ∧ c.val < c0 + n then scale (c.val - c0)
    else if w.fmt = f then w.scales[c] else 0x7F7F7F7F7F7F7F7F7F7F7F7F7F7F7F7F

/-! ## Page tables (R153) -/

/-- Of the memory at most one word of HBM has changed, a generation word, which holds `g` now. -/
def Stamped (m t : List Host.Cell) (g : Word) : Prop := t = m ∨ ∃ pa, t = Mem.setWord m (hbmKey pa) g

/-! ## The scheduler (R120) -/

/-- Record `r` has joined the tail of its run list; the other lists are as before. -/
def Joined (s t : State) (r : ContRec) : Prop :=
  ∀ q : Fin 4, t.cl.lists[q] = s.cl.lists[q] ++ if q.val = r.prio.toNat then [(r, s.dev.clk)] else []

/-- The core in focus has been left by its firing: it is idle, its registers as at a firing's start, its accumulators as
they were, no access of it waits. -/
structure LeftIdle (s t : State) : Prop where
  status : t.core.status = .idle
  num : t.core.num = s.core.num
  regs : t.core.regs = Regs.zero
  accum : t.core.accum = s.core.accum
  waits : t.core.wait = [] ∧ t.core.pend = [] ∧ t.core.commit = []
  mates : t.mates = s.mates

/-- The core in focus starts the firing of record `r` (R37, R48, R111). -/
structure FiringStarted (s t : State) (r : ContRec) : Prop where
  running : t.core.status = .running ∧ t.core.num = s.core.num
  task : t.core.task = { r with key := s.firingKey r } ∧ t.core.number = s.cl.nextFiring
  pc : t.core.pc = r.code ∧ t.core.level = 0 ∧ t.core.entry = some .start
  banks : t.core.bank0 = zeroBank ∧ t.core.bank1 = zeroBank ∧ t.core.bank2 = zeroBank
  regs : t.core.regs = Regs.zero ∧ t.core.fstat = 0 ∧ t.core.commit = [] ∧ t.core.nonRestart = false
  stack : t.core.sp = BitVec.ofNat 64 (4096 * partS s.cl.part) ∧ t.core.spbase = t.core.sp ∧ t.core.splim = 0
  accum : t.core.accum = s.core.accum

/-- What a provisional table entry holds, but for the number under which its validation is asked. -/
def PrtEntry.held (e : PrtEntry) : BitVec 59 × BitVec 16 × BitVec 48 × Bool := (e.sector, e.space, e.fill, e.struck)

/-- A saved member stands on the core in focus again: all that its firing has is as it was saved (R332). Its open watch slots are
registered again, its provisional table is validated again, its weight slice latched again from the columns that it took; its
commands and accesses go on at once, and a wait for its transfers comes first. -/
structure Restored (s t : State) (m : Core) : Prop where
  running : t.core.status = .running
  task : t.core.task = m.task ∧ t.core.number = m.number
  flow : t.core.pc = m.pc ∧ t.core.level = m.level ∧ t.core.grp = m.grp
  banks : t.core.bank0 = m.bank0 ∧ t.core.bank1 = m.bank1 ∧ t.core.bank2 = m.bank2
  regs : t.core.regs = m.regs ∧ t.core.fstat = m.fstat ∧ t.core.accum = m.accum ∧ t.core.wild = m.wild
  stack : t.core.sp = m.sp ∧ t.core.spbase = m.spbase ∧ t.core.splim = m.splim ∧ t.core.spill = m.spill
  traps : t.core.trap1 = m.trap1 ∧ t.core.trap2 = m.trap2
  commit : t.core.commit = m.commit ∧ t.core.nonRestart = m.nonRestart ∧ t.core.spawned = m.spawned
  owed : t.core.pend = m.pend ∧ t.core.owed = m.owed ∧ t.core.faults = m.faults ∧ t.core.savedFaults = m.savedFaults ∧
    t.core.vq = m.vq
  table : t.core.prt.map PrtEntry.held = m.prt.map PrtEntry.held ∧ t.core.fallbacks = m.fallbacks
  pulls : t.core.ag = m.ag ∧ t.core.pulls = m.pulls
  matrix : t.core.mq = m.mq.map (fun q => { q with due := s.dev.clk, cut := false }) ∧ t.core.mmaCount = m.mmaCount ∧
    t.core.mflags = m.mflags ∧ t.core.owned = m.owned
  slice : t.core.slice = m.slice.hist.foldl (fun w r => s.latch w r) Slice.zero
  slots : ∀ k : Fin 16, t.core.slots[k] = if m.slots[k].st.open then
      { m.slots[k] with st := .sent, tag := s.core.slots[k].tag + 1, value := 0, gen := 0, cause := 0 }
    else { m.slots[k] with tag := s.core.slots[k].tag }
  accesses : t.core.acc = s.core.acc ++ m.acc.map fun a => { a with due := s.dev.clk }
  waits : t.core.wait = (m.wait.filter fun w => w != .transfers) ++ if m.pulls = [] then [] else [.transfers]

/-- All of a firing that its saved context keeps of its core (R331): an SQWAIT that waits, but no access that is performed on;
its deferred faults, which it meets before it issues anything more (R218). -/
structure SavedAs (c g : Core) : Prop where
  task : g.task = c.task ∧ g.number = c.number
  flow : g.pc = c.pc ∧ g.level = c.level ∧ g.grp = c.grp ∧ g.wait = c.wait
  banks : g.bank0 = c.bank0 ∧ g.bank1 = c.bank1 ∧ g.bank2 = c.bank2
  regs : g.regs = c.regs ∧ g.fstat = c.fstat ∧ g.accum = c.accum ∧ g.wild = c.wild
  stack : g.sp = c.sp ∧ g.spbase = c.spbase ∧ g.splim = c.splim ∧ g.spill = c.spill
  traps : g.trap1 = c.trap1 ∧ g.trap2 = c.trap2
  commit : g.commit = c.commit ∧ g.nonRestart = c.nonRestart ∧ g.spawned = c.spawned
  table : g.prt = c.prt ∧ g.fallbacks = c.fallbacks ∧ g.slots = c.slots
  pulls : g.ag = c.ag ∧ g.pulls = c.pulls ∧ g.far = c.far
  matrix : g.mq = c.mq ∧ g.mmaCount = c.mmaCount ∧ g.mflags = c.mflags ∧ g.owned = c.owned ∧ g.slice = c.slice
  accesses : g.acc = c.acc.filter fun a => a.kind.waits && !a.orphan
  faults : g.faults = c.faults ∧ g.savedFaults = c.allFaults.map fun f => (f, c.level)

/-! ## Replies (R40, R218) -/

/-- A pending result `id` has become `e`: the queue entries under it, and nothing else of the banks. -/
def Settled (c d : Core) (id : Nat) (e : QEntry) : Prop :=
  let put (b : List QEntry) : List QEntry := b.map fun x => if x = .pending id then e else x
  d.bank0 = put c.bank0 ∧ d.bank1 = put c.bank1 ∧ d.bank2 = put c.bank2

/-- The named registers owed to `id` hold `v`; the other registers are as before. -/
def OwedWritten (c d : Core) (id : Nat) (v : Word) : Prop :=
  (∀ k : Fin 32, d.regs.n[k] = if (id, Dest.n k) ∈ c.owed then v else c.regs.n[k]) ∧
    d.regs.v = c.regs.v ∧ d.regs.tm = c.regs.tm

/-- A near-window access of the bound launch's space, whose descriptor is valid, that lies in the live window. -/
structure NearServed (s : State) (sp : BitVec 16) (off n : Nat) : Prop where
  valid : (s.space? sp).isSome = true
  space : s.cl.bound.map Binding.space = some sp
  live : off + n ≤ s.liveNear
  window : s.liveNear ≤ 0x2000000

/-! ## Launches (R334, R394) -/

/-- The 64 bytes of a completion or kill record. -/
structure IsRecord (bs : List Byte) (completion : Word) (cause origin : Byte) (graph : BitVec 32) (tval clk : Word) : Prop where
  length : bs.length = 64
  completion : recField bs 0 8 = completion.toNat
  cause : bs.getD 8 0 = cause
  origin : bs.getD 9 0 = origin
  graph : recField bs 12 4 = graph.toNat
  tval : recField bs 24 8 = tval.toNat
  clk : recField bs 56 8 = clk.toNat

/-- Launch `l` has ended: its record stands in its completion area, where a table maps that, its completion word is one higher,
and the mirror and the interrupt go out. No core changes, and no byte of memory outside the area. -/
def Published (s t : State) (l : Launch) (cause origin : Byte) (tval clk : Word) : Prop :=
  CoresKept s t ∧ ∃ bs e, IsRecord bs (l.completion + 1) cause origin l.graph tval clk ∧ t.mem = s.recordMem l bs ∧
    t.launch l.graph = some e ∧ e.st = .done ∧ e.completion = l.completion + 1 ∧ e.record = some bs ∧
    .mirror l.mirror bs ∈ t.outbox ∧ .msix l.fn ∈ t.outbox

end Sys2Proof.Machine
end

