-- ==== Sys2Proof/Certificates/Slice0/Obligations.lean ====
section
/-! DEFINITION. The statements about the model, for the provers. An instruction's statement says what it completes with on
states that meet conditions on the state and the operands alone, and its frame: what stays as it was. -/

open Sys2Proof Sys2Proof.Machine

/-! ## Encoding -/

/-- R12's layout, word by word: OP, FM, D, A, B, C, FN, IMM from bit 95 down, with the operand codes of R17, for one word
or more of every chapter's encoding table. -/
def Obligations.DecodedWordsOfEveryFamily : Prop :=
  decode (0x01#8 ++ 0#4 ++ 0x7F#7 ++ 0x7F#7 ++ 0x7F#7 ++ 0x7F#7 ++ 0#8 ++ 0#48) = .ok .nop ∧
  decode (0x03#8 ++ 1#4 ++ 0x7F#7 ++ 0x00#7 ++ 0x7F#7 ++ 0x7F#7 ++ 2#8 ++ 0x0A#48) = .ok (.bc .w32 .lt (.q 0) 0x0A) ∧
  decode (0x08#8 ++ 0#4 ++ 0x7F#7 ++ 0x11#7 ++ 0x12#7 ++ 0x7F#7 ++ 6#8 ++ 3#48) =
    .ok (.spawn (.n 1) (.n 2) none false true 2 3) ∧
  decode (0x10#8 ++ 0#4 ++ 0x12#7 ++ 0x00#7 ++ 0x01#7 ++ 0x7F#7 ++ 0#8 ++ 0#48) =
    .ok (.add .wrap .w64 (some 2) (.q 0) (.reg (.q 1))) ∧
  decode (0x28#8 ++ 3#4 ++ 0x7F#7 ++ 0x3A#7 ++ 0x7F#7 ++ 0x7F#7 ++ 9#8 ++ 0xFFFFFFFFFFFF#48) =
    .ok (.cmp .leu .w8 none (.special .tl) (.imm 0xFFFFFFFFFFFF)) ∧
  decode (0x31#8 ++ 0#4 ++ 0x7F#7 ++ 0#13 ++ 5#64) = .ok (.movi none 5) ∧
  decode (0x3B#8 ++ 1#4 ++ 0x10#7 ++ 0x00#7 ++ 0x01#7 ++ 0x7F#7 ++ 0#8 ++ 0x3F80#48) =
    .ok (.ffma .bf16 (some 0) (.q 0) (.q 1) (.imm 0x3F80)) ∧
  decode (0x44#8 ++ 2#4 ++ 0x14#7 ++ 0x36#7 ++ 0x7F#7 ++ 0x7F#7 ++ 1#8 ++ 0x10#48) =
    .ok (.ld .w16 true (some 4) (.special .frame) 0x10) ∧
  decode (0x51#8 ++ 0#4 ++ 0x7F#7 ++ 0x0F#7 ++ 0x7F#7 ++ 0x7F#7 ++ 0#8 ++ 0#48) = .ok (.ldfa .w64 false none (.q 15) 0) ∧
  decode (0x5E#8 ++ 0#4 ++ 0x11#7 ++ 0x7F#7 ++ 0x7F#7 ++ 0x7F#7 ++ 2#8 ++ 0#48) = .ok (.fence .p (some 1)) ∧
  decode (0x60#8 ++ 0#4 ++ 0x7F#7 ++ 0x10#7 ++ 0x11#7 ++ 0x72#7 ++ 0x0D#8 ++ (0x80#24 ++ 0x40#24)) =
    .ok (.pull 1 3 none (.n 0) (.n 1) (some 2) 0x40 0x80) ∧
  decode (0x73#8 ++ 0#4 ++ 0x44#7 ++ 0x7F#7 ++ 0x7F#7 ++ 0x7F#7 ++ 1#8 ++ 8#48) = .ok (.ard 1 4 8) ∧
  decode (0x83#8 ++ 0xC#4 ++ 0x41#7 ++ 0x42#7 ++ 0x43#7 ++ 0x5F#7 ++ 0xB0#8 ++ 0#48) =
    .ok (.vfma .int32 (some 3) 1 2 3 (.v 31)) ∧
  decode (0xC2#8 ++ 0#4 ++ 0x12#7 ++ 0x7F#7 ++ 0x7F#7 ++ 0x7F#7 ++ 0#8 ++ 6#48) = .ok (.sysrd (some 2) 6) ∧
  decode (0x0A#8 ++ 0#88) = .ok (.ill (0x0A#8 ++ 0#88))

/-- The encoder drops no bit: the word of a well-formed instruction, with every operand at every value that its encoding
admits, decodes to that instruction. -/
def Obligations.DecodeOfEncodeIsIdentity : Prop :=
  ∀ (i : Instr) (w : IWord), i.wellFormed = true → encode i = some w → decode w = .ok i

/-- No two words stand for one instruction: a word that decodes is the encoding of what it decodes to, which is well
formed. In particular every field and bit that the instruction does not use holds the value that R13 requires. -/
def Obligations.EncodeOfDecodeIsIdentity : Prop :=
  ∀ (i : Instr) (w : IWord), decode w = .ok i → i.wellFormed = true ∧ encode i = some w

/-! ## The step -/

/-- A step runs the decoded instruction. In the middle of a group, the slot at the code pointer is decoded from the group's
line and run by `exec`. With nothing else to do, a core at a group of one slot begins it, once its operands are ready, and runs
its instruction the same way. After the last slot of a group without a transfer the core goes on at the next code pointer a
clk later; a slot that is not the last makes the next slot current. That the steps of the agenda and those that are due come
before a group's start is the model's choice (logs 2 and 9). -/
def Obligations.StepRunsDecodedInstruction : Prop :=
  (∀ (s t : State) (l : Line) (i : Instr), s.dev.inert = false → s.core.inGroup s.dev.clk = true → s.core.grp.issued = false →
    s.core.grp.line = some l → decode (slotWord l s.core.slot) = .ok i → exec i s = .next t →
    step s = .next (s.slotOver t l i)) ∧
  (∀ (s t : State) (l : Line) (i : Instr), s.dev.inert = false → (∀ c ∈ s.cores, c.inGroup s.dev.clk = false) →
    s.agenda = [] → s.urgentWork = none → s.due = none → s.unitWork = none → s.cores.any s.commitDue = false → s.waitOver = none →
    s.mayTry s.core = true → s.core.writeFault = none → s.core.entry = none → s.core.savedFaults = [] →
    s.codeLine (lineOf s.core.pc) = some l → lineCheck (lineOf s.core.pc) l = none →
    begins (lineWord l) s.core.slot = true → lastSlot (lineWord l) s.core.slot = s.core.slot →
    decode (slotWord l s.core.slot) = .ok i → (∀ w, i ≠ .ill w) →
    s.core.roomFrom [i] ≤ s.dev.clk → s.core.vecNew.1 ≠ s.dev.clk →
    ready i (s.setCore { s.core with heldMma := none, grp := Grp.none }) = true → exec i (s.atGroup l) = .next t →
    step s = .next ((s.atGroup l).slotOver t l i)) ∧
  (∀ (t : State) (l : Line) (off : Nat), t.core.mark = .none → t.core.grp.live = true → t.core.holding = false →
    (t.core.slot < lastSlot (lineWord l) t.core.slot → (t.afterSlot l off).core.pc = nextPtr t.core.pc ∧
      (t.afterSlot l off).core.grp.live = true) ∧
    (¬ t.core.slot < lastSlot (lineWord l) t.core.slot → t.core.grp.xfer = none →
      (t.afterSlot l off).core.pc = nextPtr t.core.pc ∧ (t.afterSlot l off).core.issueAt = t.dev.clk + 1 ∧
      (t.afterSlot l off).core.grp = Grp.none))

/-- When every slot of a group has issued, its transfer takes effect (R27): the firing goes on at the target, a CALL first
storing the next code pointer below %sp, a RET releasing it; the group after a transfer issues two clk later, after a RET three. -/
def Obligations.TransferTakesEffectAfterItsGroup : Prop :=
  ∀ (s : State) (p : Word), Inv s →
    (s.core.grp.xfer = some (.jump p) → s.finishGroup.core.pc = p ∧ s.finishGroup.core.sp = s.core.sp ∧
      s.finishGroup.core.spill = s.core.spill ∧ s.finishGroup.core.issueAt = s.dev.clk + 2) ∧
    (s.core.grp.xfer = some (.call p) → s.finishGroup.core.pc = p ∧ s.finishGroup.core.sp = s.core.sp - 8 ∧
      Mem.word s.finishGroup.core.spill (s.core.sp - 8).toNat = nextPtr s.core.pc ∧
      s.finishGroup.core.issueAt = s.dev.clk + 2) ∧
    (s.core.grp.xfer = some (.ret p) → s.finishGroup.core.pc = p ∧ s.finishGroup.core.sp = s.core.sp + 8 ∧
      s.finishGroup.core.spill = s.core.spill ∧ s.finishGroup.core.issueAt = s.dev.clk + 3)

/-- The invariant that every step keeps: the memory stays in canonical form. -/
def Obligations.EveryStepKeepsCanonicalMemory : Prop :=
  ∀ s t : State, Inv s → step s = .next t → Inv t

/-- Right after reset: the invariant holds, nothing is listed in memory, no launch is bound, the run lists, the waiting
list and the lanes are empty, and so are the near and cluster caches, the instruction cache, the TLB, the basin, the metadata
cache and the sluice; GEN and the eviction floor are 0, the first firing number is 1, aging bounds are 0, 4,000,000, 4,000,000
and 0 ns, every key slot is free under generation 0, the part is not booted, and the first graph instance number is 1. What the
spec states of a bind or a boot is taken of reset; that GEN is 0 and that memory lists nothing are the model's choice (logs 5
and 3). -/
def Obligations.ResetState : Prop :=
  Inv State.reset ∧ State.reset.mem = [] ∧ State.reset.cl.bound = none ∧ State.reset.cl.nc = [] ∧ State.reset.cl.llc = [] ∧
  (∀ q : Fin 4, State.reset.cl.lists[q] = []) ∧ State.reset.cl.waiting = [] ∧ State.reset.cl.overflow = [] ∧ State.reset.cl.lanes = [] ∧
  State.reset.icache = [] ∧ State.reset.cl.tlb = [] ∧ State.reset.cl.basin = [] ∧ State.reset.cl.metaCache = [] ∧
  State.reset.cl.sluice = [] ∧ State.reset.cl.watches = [] ∧
  State.reset.cl.gen = 0 ∧ State.reset.cl.evFloor = 0 ∧ State.reset.cl.nextFiring = 1 ∧
  State.reset.cl.aging = #v[0, 4000000, 4000000, 0] ∧ (∀ k : Fin 64, State.reset.dev.slots[k] = KeySlot.reset) ∧
  State.reset.dev.booted = false ∧ State.reset.dev.inert = false ∧ State.reset.dev.graphNext = 1

/-- What an operand reads outside a group: the k-th newest result, a named register, zero, the level; and in a group, the
registers as they stood before it, with queue entries counted from before it. -/
def Obligations.OperandsReadAsBeforeTheGroup : Prop :=
  (∀ (s : State) (k : Fin 16) (r : Fin 32), s.core.grp.live = false → s.core.grp.off = 0 →
    (∀ v, (s.core.bank s.core.level)[k.val]? = some (.arrived v) → s.src (.q k) = v) ∧ s.src (.n r) = s.core.regs.n[r]) ∧
  (∀ (s : State) (k : Fin 16) (r : Fin 32), s.core.grp.live = true →
    (∀ v, (s.core.bank s.core.level)[k.val + s.core.grp.off]? = some (.arrived v) → s.src (.q k) = v) ∧
      s.src (.n r) = s.core.pre.n[r]) ∧
  (∀ s : State, s.src (.special .zero) = 0 ∧ s.src (.special .tl) = BitVec.ofNat 64 s.core.level ∧
    s.src (.special .home) = (s.dev.id ++ s.clusterNo : BitVec 17).setWidth 64)

/-! ## Integer and address -/

/-- ADD and SUB complete with the value of R61, at every width and with every FN, whatever their destination. -/
def Obligations.AddAndSubPushTheirSums : Prop :=
  (∀ (s : State) (f : AddFn) (w : Width) (d : NDst) (a : Src) (b : SrcImm), ready (.add f w d a b) s = true →
    ∃ v t, exec (.add f w d a b) s = .next t ∧ ScalarResult s t d v ∧
      AddSpec f (wbits w) v ((s.src a).toInt + (s.srcImm b).toInt) (lowS (wbits w) (s.src a) + lowS (wbits w) (s.srcImm b))
        (lowU (wbits w) (s.src a) + lowU (wbits w) (s.srcImm b))
        (decide (2 ^ wbits w ≤ lowU (wbits w) (s.src a) + lowU (wbits w) (s.srcImm b)))) ∧
  (∀ (s : State) (f : AddFn) (w : Width) (d : NDst) (a : Src) (b : SrcImm), ready (.sub f w d a b) s = true →
    ∃ v t, exec (.sub f w d a b) s = .next t ∧ ScalarResult s t d v ∧
      AddSpec f (wbits w) v ((s.src a).toInt - (s.srcImm b).toInt) (lowS (wbits w) (s.src a) - lowS (wbits w) (s.srcImm b))
        ((lowU (wbits w) (s.src a) : Int) - lowU (wbits w) (s.srcImm b))
        (decide (lowU (wbits w) (s.src a) < lowU (wbits w) (s.srcImm b))))

/-- MUL and MULH complete with a result that arrives three clk after issue: the low half of the product, or the high half
of the exact product of the operands as FN reads them. -/
def Obligations.MultiplicationsArriveAfterThreeClk : Prop :=
  (∀ (s : State) (w : Width) (d : NDst) (a : Src) (b : SrcImm), ready (.mul w d a b) s = true →
    ∃ v t, exec (.mul w d a b) s = .next t ∧ LaterResult s t d .fixed v 0 (s.dev.clk + 3) ∧
      IsSx (wbits w) v ((s.src a).toInt * (s.srcImm b).toInt)) ∧
  (∀ (s : State) (f : MulhFn) (w : Width) (d : NDst) (a : Src) (b : SrcImm), ready (.mulh f w d a b) s = true →
    ∃ v t, exec (.mulh f w d a b) s = .next t ∧ LaterResult s t d .fixed v 0 (s.dev.clk + 3) ∧
      match f with
      | .ss => IsSx (wbits w) v (lowS (wbits w) (s.src a) * lowS (wbits w) (s.srcImm b) / 2 ^ wbits w)
      | .uu => IsZx (wbits w) v (lowU (wbits w) (s.src a) * lowU (wbits w) (s.srcImm b) / 2 ^ wbits w)
      | .su => IsSx (wbits w) v (lowS (wbits w) (s.src a) * lowU (wbits w) (s.srcImm b) / 2 ^ wbits w))

/-- DIV, REM, DIVU and REMU: the quotient truncated toward zero and the remainder with the dividend's sign, signed or
unsigned, the most negative value by -1 included; a zero divisor traps. -/
def Obligations.DivisionsTruncateTowardZero : Prop :=
  ∀ (s : State) (w : Width) (d : NDst) (a : Src) (b : SrcImm),
    (ready (.div w d a b) s = true → DivSpec s (.div w d a b) w d (s.src a) (s.srcImm b) fun v =>
      IsSx (wbits w) v ((lowS (wbits w) (s.src a)).tdiv (lowS (wbits w) (s.srcImm b)))) ∧
    (ready (.rem w d a b) s = true → DivSpec s (.rem w d a b) w d (s.src a) (s.srcImm b) fun v =>
      IsSx (wbits w) v ((lowS (wbits w) (s.src a)).tmod (lowS (wbits w) (s.srcImm b)))) ∧
    (ready (.divu w d a b) s = true → DivSpec s (.divu w d a b) w d (s.src a) (s.srcImm b) fun v =>
      IsZx (wbits w) v (lowU (wbits w) (s.src a) / lowU (wbits w) (s.srcImm b))) ∧
    (ready (.remu w d a b) s = true → DivSpec s (.remu w d a b) w d (s.src a) (s.srcImm b) fun v =>
      IsZx (wbits w) v (lowU (wbits w) (s.src a) % lowU (wbits w) (s.srcImm b)))

/-- AND, OR, XOR and ANDN, bit by bit within the width; the bits above it are zero. The shifts take the whole second operand
as their count; a count of the width or more gives zero, or for SAR the sign. ROT turns left by the count modulo the width. -/
def Obligations.LogicAndShifts : Prop :=
  ∀ (s : State) (w : Width) (d : NDst) (a : Src) (b : SrcImm),
    (ready (.and w d a b) s = true → ∃ v t, exec (.and w d a b) s = .next t ∧ ScalarResult s t d v ∧
      ∀ j, v.getLsbD j = (decide (j < wbits w) && ((s.src a).getLsbD j && (s.srcImm b).getLsbD j))) ∧
    (ready (.or w d a b) s = true → ∃ v t, exec (.or w d a b) s = .next t ∧ ScalarResult s t d v ∧
      ∀ j, v.getLsbD j = (decide (j < wbits w) && ((s.src a).getLsbD j || (s.srcImm b).getLsbD j))) ∧
    (ready (.xor w d a b) s = true → ∃ v t, exec (.xor w d a b) s = .next t ∧ ScalarResult s t d v ∧
      ∀ j, v.getLsbD j = (decide (j < wbits w) && ((s.src a).getLsbD j ^^ (s.srcImm b).getLsbD j))) ∧
    (ready (.andn w d a b) s = true → ∃ v t, exec (.andn w d a b) s = .next t ∧ ScalarResult s t d v ∧
      ∀ j, v.getLsbD j = (decide (j < wbits w) && ((s.src a).getLsbD j && !(s.srcImm b).getLsbD j))) ∧
    (ready (.shl w d a b) s = true → ∃ v t, exec (.shl w d a b) s = .next t ∧ ScalarResult s t d v ∧
      v.toNat = if (s.srcImm b).toNat < wbits w then lowU (wbits w) (s.src a) * 2 ^ (s.srcImm b).toNat % 2 ^ wbits w else 0) ∧
    (ready (.shr w d a b) s = true → ∃ v t, exec (.shr w d a b) s = .next t ∧ ScalarResult s t d v ∧
      v.toNat = if (s.srcImm b).toNat < wbits w then lowU (wbits w) (s.src a) / 2 ^ (s.srcImm b).toNat else 0) ∧
    (ready (.sar w d a b) s = true → ∃ v t, exec (.sar w d a b) s = .next t ∧ ScalarResult s t d v ∧
      v.toInt = if (s.srcImm b).toNat < wbits w then lowS (wbits w) (s.src a) / 2 ^ (s.srcImm b).toNat
        else if lowS (wbits w) (s.src a) < 0 then -1 else 0) ∧
    (ready (.rot w d a b) s = true → ∃ v t, exec (.rot w d a b) s = .next t ∧ ScalarResult s t d v ∧
      ∀ j, v.getLsbD j = (decide (j < wbits w) &&
        (s.src a).getLsbD ((j + wbits w - (s.srcImm b).toNat % wbits w) % wbits w)))

/-- MIN, MAX, MINU and MAXU: the smaller or larger of the operands at the width, signed or unsigned. CMP pushes 1 where its
condition holds, else 0; SEL picks by all 64 bits of its first operand. -/
def Obligations.OrderAndSelection : Prop :=
  (∀ (s : State) (w : Width) (d : NDst) (a : Src) (b : SrcImm),
    (ready (.min w d a b) s = true → ∃ v t, exec (.min w d a b) s = .next t ∧ ScalarResult s t d v ∧
      v.toInt = min (lowS (wbits w) (s.src a)) (lowS (wbits w) (s.srcImm b))) ∧
    (ready (.max w d a b) s = true → ∃ v t, exec (.max w d a b) s = .next t ∧ ScalarResult s t d v ∧
      v.toInt = max (lowS (wbits w) (s.src a)) (lowS (wbits w) (s.srcImm b))) ∧
    (ready (.minu w d a b) s = true → ∃ v t, exec (.minu w d a b) s = .next t ∧ ScalarResult s t d v ∧
      v.toNat = min (lowU (wbits w) (s.src a)) (lowU (wbits w) (s.srcImm b))) ∧
    (ready (.maxu w d a b) s = true → ∃ v t, exec (.maxu w d a b) s = .next t ∧ ScalarResult s t d v ∧
      v.toNat = max (lowU (wbits w) (s.src a)) (lowU (wbits w) (s.srcImm b)))) ∧
  (∀ (s : State) (c : ICond) (w : Width) (d : NDst) (a : Src) (b : SrcImm), ready (.cmp c w d a b) s = true →
    ∃ v t, exec (.cmp c w d a b) s = .next t ∧ ScalarResult s t d v ∧
      (CondHolds c (wbits w) (s.src a) (s.srcImm b) → v = 1) ∧ (¬ CondHolds c (wbits w) (s.src a) (s.srcImm b) → v = 0)) ∧
  (∀ (s : State) (d : NDst) (a b : Src) (c : SrcImm), ready (.sel d a b c) s = true →
    ∃ t, exec (.sel d a b c) s = .next t ∧ ScalarResult s t d (if s.src a = 0 then s.srcImm c else s.src b))

/-- CLZ and POPC at a width; EXT from any width; BITF's fields. -/
def Obligations.CountsExtensionsAndFields : Prop :=
  (∀ (s : State) (w : Width) (d : NDst) (a : Src), ready (.clz w d a) s = true →
    ∃ n t, exec (.clz w d a) s = .next t ∧ ScalarResult s t d (BitVec.ofNat 64 n) ∧ n ≤ wbits w ∧
      (∀ j, wbits w - n ≤ j → j < wbits w → (s.src a).getLsbD j = false) ∧
      (n < wbits w → (s.src a).getLsbD (wbits w - n - 1) = true)) ∧
  (∀ (s : State) (w : Width) (d : NDst) (a : Src), ready (.popc w d a) s = true →
    ∃ t, exec (.popc w d a) s = .next t ∧
      ScalarResult s t d (BitVec.ofNat 64 ((List.range (wbits w)).filter fun j => (s.src a).getLsbD j).length)) ∧
  (∀ (s : State) (z : Bool) (w : Width) (d : NDst) (a : Src), ready (.ext z (.fixed w) d a) s = true →
    ∃ v t, exec (.ext z (.fixed w) d a) s = .next t ∧ ScalarResult s t d v ∧
      if z then IsZx (wbits w) v (s.src a).toNat else IsSx (wbits w) v (s.src a).toInt) ∧
  (∀ (s : State) (z : Bool) (b : SrcImm) (d : NDst) (a : Src), ready (.ext z (.operand b) d a) s = true →
    ∃ v t, exec (.ext z (.operand b) d a) s = .next t ∧ ScalarResult s t d v ∧
      if (s.srcImm b).toNat = 0 then v = 0
      else if 64 ≤ (s.srcImm b).toNat then v = s.src a
      else if z then IsZx (s.srcImm b).toNat v (s.src a).toNat else IsSx (s.srcImm b).toNat v (s.src a).toInt) ∧
  (∀ (s : State) (d : NDst) (a : Src) (p : BitVec 6) (l : BitVec 7), 1 ≤ l.toNat → p.toNat + l.toNat ≤ 64 →
    (ready (.bitf .x d a p l) s = true → ∃ v t, exec (.bitf .x d a p l) s = .next t ∧ ScalarResult s t d v ∧
      ∀ j, v.getLsbD j = (decide (j < l.toNat) && (s.src a).getLsbD (p.toNat + j))) ∧
    (ready (.bitf .xs d a p l) s = true → ∃ v t, exec (.bitf .xs d a p l) s = .next t ∧ ScalarResult s t d v ∧
      ∀ j, j < 64 → v.getLsbD j = (s.src a).getLsbD (p.toNat + min j (l.toNat - 1))) ∧
    (∀ y : Src, ready (.bitf (.ins y) d a p l) s = true →
      ∃ v t, exec (.bitf (.ins y) d a p l) s = .next t ∧ ScalarResult s t d v ∧
        ∀ j, v.getLsbD j = if p.toNat ≤ j ∧ j < p.toNat + l.toNat then (s.src y).getLsbD (j - p.toNat) else (s.src a).getLsbD j))

/-- LEA, FAR and HOMEOF: addresses, and trap 0x07 for a base, home or address that is not legal. -/
def Obligations.AddressArithmetic : Prop :=
  (∀ (s : State) (keep : Bool) (sh : BitVec 4) (d : NDst) (a : Src) (b : Option Src) (disp : BitVec 48),
    ready (.lea keep sh d a b disp) s = true →
    (keep = false → ∃ v t, exec (.lea keep sh d a b disp) s = .next t ∧ ScalarResult s t d v ∧
      (v.toNat : Int) = ((s.src a).toNat + (s.optSrc b).toNat * 2 ^ sh.toNat + disp.toInt) % 2 ^ 40) ∧
    (keep = true → canonical (s.src a) = true → ∃ v t, exec (.lea keep sh d a b disp) s = .next t ∧ ScalarResult s t d v ∧
      ((v.toNat % 2 ^ 40 : Nat) : Int) = ((s.src a).toNat + (s.optSrc b).toNat * 2 ^ sh.toNat + disp.toInt) % 2 ^ 40 ∧
      v.toNat / 2 ^ 40 = (s.src a).toNat / 2 ^ 40) ∧
    (keep = true → canonical (s.src a) = false →
      exec (.lea keep sh d a b disp) s = .next (takeTrap s 0x07 (s.src a) s.core.pc s.core.grp.off 0))) ∧
  (∀ (s : State) (d : NDst) (a : Src) (b : SrcImm), ready (.far d a b) s = true →
    ((s.src a).toNat < 2 ^ 17 → ∃ v t, exec (.far d a b) s = .next t ∧ ScalarResult s t d v ∧ canonical v = true ∧
      (homeOf v).toNat = (s.src a).toNat ∧ (offOf v).toNat = (s.srcImm b).toNat % 2 ^ 40) ∧
    (2 ^ 17 ≤ (s.src a).toNat → exec (.far d a b) s = .next (takeTrap s 0x07 (s.src a) s.core.pc s.core.grp.off 0))) ∧
  (∀ (s : State) (sel : HomeSel) (d : NDst) (a : Src), ready (.homeof sel d a) s = true →
    (canonical (s.src a) = true → ∃ v t, exec (.homeof sel d a) s = .next t ∧ ScalarResult s t d v ∧
      match sel with
      | .home => v.toNat = (s.src a).toNat / 2 ^ 40 % 2 ^ 17
      | .off => v.toNat = (s.src a).toNat % 2 ^ 40
      | .dev => v.toNat = (s.src a).toNat / 2 ^ 47 % 2 ^ 10
      | .cl => v.toNat = (s.src a).toNat / 2 ^ 40 % 2 ^ 7
      | .isLocal => v = if homeOf (s.src a) = s.home then 1 else 0) ∧
    (canonical (s.src a) = false →
      exec (.homeof sel d a) s = .next (takeTrap s 0x07 (s.src a) s.core.pc s.core.grp.off 0)))


/-! ## Registers and the spill stack -/

/-- MOV and MOVI complete with their operand, pushed and written to a named or a mask register. -/
def Obligations.MovesPushAndWriteTheirOperand : Prop :=
  (∀ (s : State) (d : Option NM) (a : MovSrc), ready (.mov d a) s = true →
    ∃ t, exec (.mov d a) s = .next t ∧ MoveResult s t d (match a with
      | .scalar r => s.src r
      | .m k => s.core.view.m[k]
      | .lc k => BitVec.ofNat 64 (s.core.view.lc[k]).toNat)) ∧
  (∀ (s : State) (d : Option NM) (v : Word), ready (.movi d v) s = true →
    ∃ t, exec (.movi d v) s = .next t ∧ MoveResult s t d v)

/-- PUSHM, POPM and SPADJ move %sp within its signed bounds, with their words; a step outside them traps and moves
nothing. A negative SPADJ keeps the spill port busy for a clk per 64 bytes that it zeroes. A step after which the group's CALL
or RET would leave the bounds is refused as well (the model's choice, log 62). -/
def Obligations.SpillStackMoves : Prop :=
  (∀ (s : State) (first last : Fin 32), Inv s → ready (.pushm first last) s = true →
    let rs := ngroup first last
    let new := s.core.sp - BitVec.ofNat 64 (8 * rs.length)
    (s.core.splim.toInt ≤ new.toInt → s.core.xferBad new = none → ∃ t, exec (.pushm first last) s = .next t ∧ SpMoved s t new ∧
      SpillHolds t.core.spill new (rs.map fun r => s.core.view.n[r]) ∧ SpillKept s.core.spill t.core.spill new rs.length) ∧
    (∀ x, s.core.splim.toInt ≤ new.toInt → s.core.xferBad new = some x →
      exec (.pushm first last) s = .next (takeTrap s 0x12 x s.core.pc s.core.grp.off 0)) ∧
    (new.toInt < s.core.splim.toInt → exec (.pushm first last) s = .next (takeTrap s 0x12 new s.core.pc s.core.grp.off 0))) ∧
  (∀ (s : State) (first last : Fin 32), first ≤ last → ready (.popm first last) s = true →
    let rs := ngroup first last
    let new := s.core.sp + BitVec.ofNat 64 (8 * rs.length)
    (new.toInt ≤ s.core.spbase.toInt → s.core.xferBad new = none → ∃ t, exec (.popm first last) s = .next t ∧
      (∀ r : Fin 32, t.core.regs.n[r] = if first ≤ r ∧ r ≤ last then
        Mem.word s.core.spill (s.core.sp + BitVec.ofNat 64 (8 * (r.val - first.val))).toNat else s.core.regs.n[r]) ∧
      t = { s with core := { s.core with
        sp := new, regs := { s.core.regs with n := t.core.regs.n }
        faults := s.core.faults.filter fun x => !(rs.map Dest.n).contains x.1 } }) ∧
    (∀ x, new.toInt ≤ s.core.spbase.toInt → s.core.xferBad new = some x →
      exec (.popm first last) s = .next (takeTrap s 0x12 x s.core.pc s.core.grp.off 0)) ∧
    (s.core.spbase.toInt < new.toInt → exec (.popm first last) s = .next (takeTrap s 0x12 new s.core.pc s.core.grp.off 0))) ∧
  (∀ (s : State) (adj : BitVec 48), Inv s → ready (.spadj adj) s = true →
    let new := s.core.sp + simm adj
    (adj.toNat % 8 = 0 → s.core.splim.toInt ≤ new.toInt → new.toInt ≤ s.core.spbase.toInt → s.core.xferBad new = none →
      ∃ t, exec (.spadj adj) s = .next t ∧
        (0 ≤ adj.toInt → SpMoved s t new ∧ t.core.spill = s.core.spill) ∧
        (adj.toInt < 0 → SpMoved s t new (s.dev.clk + (adj.toInt.natAbs / 8 + 7) / 8) ∧
          SpillHolds t.core.spill new (List.replicate (adj.toInt.natAbs / 8) 0) ∧
          SpillKept s.core.spill t.core.spill new (adj.toInt.natAbs / 8))) ∧
    (∀ x, adj.toNat % 8 = 0 → s.core.splim.toInt ≤ new.toInt → new.toInt ≤ s.core.spbase.toInt → s.core.xferBad new = some x →
      exec (.spadj adj) s = .next (takeTrap s 0x12 x s.core.pc s.core.grp.off 0)) ∧
    (adj.toNat % 8 = 0 → new.toInt < s.core.splim.toInt ∨ s.core.spbase.toInt < new.toInt →
      exec (.spadj adj) s = .next (takeTrap s 0x12 new s.core.pc s.core.grp.off 0)) ∧
    (adj.toNat % 8 ≠ 0 → exec (.spadj adj) s = .next (takeTrap s 0x06 (simm adj) s.core.pc s.core.grp.off 0)))

/-! ## Scalar floating point -/

/-- The scalar floating-point instructions complete with the once-rounded value of their operation on the low bits of their
operands, at the times of R99, with its flags; a division waits its turn on the divider. -/
def Obligations.FloatResultsArriveAtTheirTimes : Prop :=
  (∀ (s : State) (f : SFmt) (d : NDst) (a : Src) (b : SrcImm),
    let x := (s.src a).toNat % 2 ^ f.fmt.bits
    let y := (s.srcBits b).toNat % 2 ^ f.fmt.bits
    let later (i : Instr) (r : Nat × BitVec 5) (lat : Nat) : Prop :=
      ready i s = true → ∃ t, exec i s = .next t ∧ LaterResult s t d .fp (BitVec.ofNat 64 r.1) r.2 (s.dev.clk + lat)
    later (.fadd f d a b) (fpAdd f.fmt x y) 4 ∧ later (.fsub f d a b) (fpSub f.fmt x y) 4 ∧
    later (.fmul f d a b) (fpMul f.fmt x y) 4 ∧
    (∀ b' : Src, later (.ffma f d a b' b) (fpFma f.fmt x ((s.src b').toNat % 2 ^ f.fmt.bits) y) 4) ∧
    (∀ mx num : Bool, later (.fminmax f mx num d a b) (fpMinMax f.fmt mx num x y, 0) 2) ∧
    (∀ c : FCond, later (.fcmp f c d a b) (if (fpCond f.fmt c x y).1 then 1 else 0, (fpCond f.fmt c x y).2) 2) ∧
    (ready (.fdiv f d a b) s = true → (s.core.onDivider .fdiv).length < 2 →
      ∃ t, exec (.fdiv f d a b) s = .next t ∧ LaterResult s t d .fdiv (BitVec.ofNat 64 (fpDiv f.fmt x y).1)
        (fpDiv f.fmt x y).2 (s.core.divDue .fdiv s.dev.clk (match f with | .fp32 => 14 | .bf16 => 8))) ∧
    (ready (.fsqrt f d a) s = true → (s.core.onDivider .fdiv).length < 2 →
      ∃ t, exec (.fsqrt f d a) s = .next t ∧ LaterResult s t d .fdiv (BitVec.ofNat 64 (fpSqrt f.fmt x).1)
        (fpSqrt f.fmt x).2 (s.core.divDue .fdiv s.dev.clk (match f with | .fp32 => 16 | .bf16 => 9)))) ∧
  (∀ (s : State) (dst src : Fmt) (dstU srcU : Bool) (d : NDst) (a : Src), ready (.fcvt dst src dstU srcU d a) s = true →
    let r := convert dst dstU src srcU ((s.src a).toNat % 2 ^ src.bits)
    ∃ t, exec (.fcvt dst src dstU srcU d a) s = .next t ∧
      LaterResult s t d .fp (BitVec.ofNat 64 (cvtExtend dst dstU r.1)) r.2 (s.dev.clk + 2))

/-- Special cases of R101-R103 in FP32: a NaN operand gives the default NaN, FMINMAX's NaN rule, division of a finite
non-zero number by zero, and the root of a negative number. -/
def Obligations.FloatSpecialCases : Prop :=
  ∀ a b : BitVec 32,
    let nan (x : BitVec 32) : Prop := x.toNat / 2 ^ 23 % 2 ^ 8 = 255 ∧ x.toNat % 2 ^ 23 ≠ 0
    let finite (x : BitVec 32) : Prop := x.toNat / 2 ^ 23 % 2 ^ 8 ≠ 255
    let zero (x : BitVec 32) : Prop := x.toNat % 2 ^ 31 = 0
    (nan a ∨ nan b → fpAdd .fp32 a.toNat b.toNat = (0x7FC00000, 0) ∧ fpSub .fp32 a.toNat b.toNat = (0x7FC00000, 0) ∧
      fpMul .fp32 a.toNat b.toNat = (0x7FC00000, 0) ∧ fpDiv .fp32 a.toNat b.toNat = (0x7FC00000, 0) ∧
      (∀ mx, fpMinMax .fp32 mx false a.toNat b.toNat = 0x7FC00000) ∧ (fpCond .fp32 .un a.toNat b.toNat).1 = true) ∧
    (nan a → ¬ nan b → ∀ mx, fpMinMax .fp32 mx true a.toNat b.toNat = b.toNat) ∧
    (nan b → ¬ nan a → ∀ mx, fpMinMax .fp32 mx true a.toNat b.toNat = a.toNat) ∧
    (finite a → ¬ zero a → zero b →
      fpDiv .fp32 a.toNat b.toNat = (0x7F800000 + if a.msb = b.msb then 0 else 0x80000000, 2)) ∧
    (a.msb = true → ¬ zero a → ¬ nan a → fpSqrt .fp32 a.toNat = (0x7FC00000, 1)) ∧
    (zero a → fpSqrt .fp32 a.toNat = (a.toNat, 0))

/-! ## Control -/

/-- NOP and the hints have no effect of their own: the step only passes their slot. An ILL or unassigned code, which has no
operands, takes trap 0x01 with bits [95:32] of its word. -/
def Obligations.NopHintsAndIllegalCodes : Prop :=
  (∀ (s : State) (op : BitVec 4) (rest : BitVec 88), exec .nop s = .next s ∧ exec (.hint op rest) s = .next s) ∧
  (∀ (s : State) (w : IWord), exec (.ill w) s = .next (takeTrap s 0x01 (w.extractLsb' 32 64) s.core.pc s.core.grp.off 0))

/-- BR, BC, CALL, RET and JMPI set their group's transfer when their target passes the checks of R107, in order: the target
itself, the stack, the slot. A BC whose condition fails goes on. A failed check traps. -/
def Obligations.BranchesCheckTheirTargets : Prop :=
  ∀ (s : State) (imm : BitVec 48) (w : Width) (c : ICond) (a : QN),
    let p := s.branchTarget imm
    let trapped (i : Instr) (cause : Byte) (tval : Word) : Prop :=
      exec i s = .next (takeTrap s cause tval s.core.pc s.core.grp.off 0)
    let goes (i : Instr) (q : Word) (x : Xfer) : Prop :=
      (GoodTarget s q → ∃ t, exec i s = .next t ∧ TransferSet s t x) ∧ (NoTarget s q → trapped i 0x02 q)
    let pointed (i : Instr) (q : Word) : Prop := ∀ cause, pointerCheck q = some cause → trapped i cause q
    let down := s.core.sp - 8
    let up := s.core.sp + 8
    let back := Mem.word s.core.spill s.core.sp.toNat
    (p.toNat % 64 = imm.toNat % 8 ∧
      ((p.toNat / 64 : Nat) : Int) = ((s.core.pc.toNat / 64 : Nat) + imm.toInt / 8) % 2 ^ 58) ∧
    (ready (.br imm) s = true → goes (.br imm) p (.jump p) ∧ pointed (.br imm) p) ∧
    (ready (.bc w c a imm) s = true →
      (CondHolds c (wbits w) (s.qn a) 0 → goes (.bc w c a imm) p (.jump p) ∧ pointed (.bc w c a imm) p) ∧
      (¬ CondHolds c (wbits w) (s.qn a) 0 → exec (.bc w c a imm) s = .next s)) ∧
    (ready (.call imm) s = true → pointed (.call imm) p ∧
      (s.core.splim.toInt ≤ down.toInt → goes (.call imm) p (.call p)) ∧
      (pointerCheck p = none → down.toInt < s.core.splim.toInt → trapped (.call imm) 0x12 down)) ∧
    (ready .ret s = true →
      (up.toInt ≤ s.core.spbase.toInt → goes .ret back (.ret back) ∧ pointed .ret back) ∧
      (s.core.spbase.toInt < up.toInt → trapped .ret 0x12 up)) ∧
    (ready (.jmpi a) s = true → goes (.jmpi a) (s.qn a) (.jump (s.qn a)) ∧ pointed (.jmpi a) (s.qn a))

/-- END and YIELD take effect after their group at TL0, and trap at a trap level. SPAWN puts its record in the commit
buffer; a full buffer, or a home that the launch does not export to, traps. -/
def Obligations.EndYieldAndSpawn : Prop :=
  (∀ s : State,
    (ready .endFiring s = true → s.core.level = 0 →
      ∃ t, exec .endFiring s = .next t ∧ TransferSet s t (.endFiring s.core.pc s.core.grp.off)) ∧
    (ready .yield s = true → s.core.level = 0 → ∃ t, exec .yield s = .next t ∧ TransferSet s t .yield) ∧
    (∀ i ∈ [Instr.endFiring, .yield], ready i s = true → s.core.level ≠ 0 →
      exec i s = .next (takeTrap s 0x16 (wordBits i) s.core.pc s.core.grp.off 0)) ∧
    (s.core.grp.xfer = some (.endFiring s.core.pc s.core.grp.off) → s.finishGroup.core.ended = some s.dev.clk ∧
      s.finishGroup.core.wait = s.core.wait ++ [.ending] ∧ s.finishGroup.core.commit = s.core.commit)) ∧
  (∀ (s : State) (code frame : QN) (home : Option QN) (actor wide : Bool) (prio : BitVec 2) (join : BitVec 7),
    let i := Instr.spawn code frame home actor wide prio join
    let r : ContRec := { ContRec.none with
      code := s.qn code, frame := s.qn frame, join := join.toNat, prio := prio, wide := wide, actor := actor
      graph := s.core.task.graph, space := s.core.task.space }
    ready i s = true →
    (home = none → s.core.commit.length < 32 →
      exec i s = .next { s with core := { s.core with commit := s.core.commit ++ [.spawn r none] } }) ∧
    (∀ (q : QN) (b : Binding), home = some q → s.cl.bound = some b → (s.qn q).toNat < 2 ^ 17 →
      (s.qn q).setWidth 17 ∈ b.exports → s.core.commit.length < 32 →
      exec i s = .next { s with core := { s.core with commit := s.core.commit ++ [.spawn r (some ((s.qn q).setWidth 17))] } }) ∧
    (∀ (q : QN) (b : Binding), home = some q → s.cl.bound = some b →
      (2 ^ 17 ≤ (s.qn q).toNat ∨ (s.qn q).setWidth 17 ∉ b.exports) →
      exec i s = .next (takeTrap s 0x09 (s.qn q) s.core.pc s.core.grp.off 0)) ∧
    ((home = none ∨ ∃ (q : QN) (b : Binding), home = some q ∧ s.cl.bound = some b ∧ (s.qn q).toNat < 2 ^ 17 ∧
        (s.qn q).setWidth 17 ∈ b.exports) → 32 ≤ s.core.commit.length → exec i s = .next (takeTrap s 0x11 32 s.core.pc s.core.grp.off 0)))

/-! ## Local memory -/

/-- Every local access, on an aligned offset of the live window or the paged region, joins the firing's list with its place
in the queue; it changes no register and no byte; TMAPSET, one of the 8 matrix commands, where there is room for one. A
PREF below the paged region has no effect. That a held-mode access whose checks are decided as it issues holds no later group
is the model's choice (log 18). -/
def Obligations.LocalAccessesIssue : Prop :=
  (∀ (s : State) (a : Src) (disp : BitVec 48),
    ((s.localOff a disp).toNat : Int) = ((s.src a).toNat + disp.toInt) % 2 ^ 40) ∧
  (∀ (s : State) (a b c : Src) (disp : BitVec 48) (d : NDst) (v : Fin 32) (k : Fin 8) (w : Width) (g : BitVec 2) (x : XIdx)
      (m : VMask),
    let off := s.localOff a disp
    let time := s.accessTime off.toNat
    let n := 2 ^ g.toNat
    let issues (i : Instr) (align : Nat) (writes : Bool) (kind : AccKind) (ds : List Dest) (due : Nat) (push : Bool) : Prop :=
      ready i s = true → IssueOk s align writes kind → ∃ t, exec i s = .next t ∧ AccessIssued s t kind ds due push
    let es := s.elements w x m off
    let stores := es.zipIdx.filterMap fun e =>
      e.1.map fun o => (o, leBytes (wbytes w) ((s.core.view.v[v]).toNat / 2 ^ (8 * wbytes w * e.2)))
    let named := d.toList.map Dest.n
    (∀ sext, issues (.ld w sext d a disp) (wbytes w) false (.ld off (wbytes w) sext) named time true) ∧
    issues (.st w a b disp) (wbytes w) true (.st off (leBytes (wbytes w) (s.src b).toNat)) [] time false ∧
    issues (.ldv g v a disp) 64 false (.ldv off n v) ((vgroup v n).map .v) (s.rangeTime off.toNat (256 * n) + wideExtra off.toNat n) false ∧
    issues (.stv g a v disp) 64 true (.stv off (s.groupBytes v n)) [] (s.rangeTime off.toNat (256 * n) + wideExtra off.toNat n) false ∧
    issues (.ldx w x m v a disp) (wbytes w) false (.ldx es (wbytes w) v) [.v v]
      (s.latest (AccKind.ldx es (wbytes w) v).ranges) false ∧
    issues (.stx w x m a v disp) (wbytes w) true (.stx stores) [] (s.latest (AccKind.stx stores).ranges) false ∧
    (∀ f word32, issues (.amo f word32 d a b disp) (if word32 then 4 else 8) true
      (.amo f off (if word32 then 4 else 8) (s.src b)) named time true) ∧
    (∀ word32, issues (.acas word32 d a b c disp) (if word32 then 4 else 8) true
      (.acas off (if word32 then 4 else 8) (s.src b) (s.src c)) named time true) ∧
    (s.core.mqFull = false → issues (.tmapset k a disp) 8 false (.tmapset off k) [.tm k] time false)) ∧
  (∀ (s : State) (f : PrefFn) (a : Src) (disp : BitVec 48), ready (.pref f a disp) s = true →
    let off := s.localOff a disp
    (off.toNat < 0x4000000 → exec (.pref f a disp) s = .next s) ∧
    (0x4000000 ≤ off.toNat → s.core.acquiring = false → ∃ t, exec (.pref f a disp) s = .next t ∧
      AccessIssued s t (match f with | .touch => .touch off | .na => .noAlloc off | .wb => .writeBack off) [] (s.accessTime off.toNat) false))

/-- Checks 1-3 of R166 at issue, in order, with the offset as TVAL, and the channel area for a store. -/
def Obligations.BadOffsetsTrapAtIssue : Prop :=
  ∀ (s : State) (a b c : Src) (disp : BitVec 48) (d : NDst) (v : Fin 32) (k : Fin 8) (w : Width) (g : BitVec 2),
    let off := (s.localOff a disp).toNat
    let trapped (i : Instr) (cause : Byte) (tval : Nat) : Prop :=
      exec i s = .next (takeTrap s cause (BitVec.ofNat 64 tval) s.core.pc s.core.grp.off 0)
    let checks (i : Instr) (align n : Nat) (writes : Bool) : Prop := ready i s = true →
      let reserved := off < 0x4000000 ∧ 0x2000000 < off + n
      let past := off < 0x2000000 ∧ s.liveNear < off + n
      (off % align ≠ 0 → trapped i 0x06 off) ∧
      (off % align = 0 → reserved → trapped i 0x09 off) ∧
      (off % align = 0 → ¬ reserved → past → trapped i 0x09 off) ∧
      (writes = true → off % align = 0 → ¬ reserved → ¬ past → off < s.liveNear → s.liveNear - 1024 < off + n →
        trapped i 0x09 (max off (s.liveNear - 1024)))
    (∀ sext, checks (.ld w sext d a disp) (wbytes w) (wbytes w) false) ∧ checks (.st w a b disp) (wbytes w) (wbytes w) true ∧
    checks (.ldv g v a disp) 64 (256 * 2 ^ g.toNat) false ∧ checks (.stv g a v disp) 64 (256 * 2 ^ g.toNat) true ∧
    (∀ f, checks (.amo f true d a b disp) 4 4 true ∧ checks (.amo f false d a b disp) 8 8 true) ∧
    checks (.acas true d a b c disp) 4 4 true ∧ checks (.acas false d a b c disp) 8 8 true ∧
    checks (.tmapset k a disp) 8 64 false

/-- LOCAL_ACCESS_PERFORMED in the near window: a load's value is its bytes, extended, and arrives at its time; a store's
bytes stand, and only they change; AMO and ACAS push the old value and write in one step; a release advances GEN and the
word. -/
def Obligations.NearAccessesAreIndivisible : Prop :=
  (∀ (s : State) (sp : BitVec 16) (off n : Nat) (atomic : Bool), off + n ≤ 0x2000000 →
    s.readAt sp off n atomic = (s, Mem.bytes s.mem off n)) ∧
  ∀ (s : State) (k : Nat) (a : Access), Inv s → NearTurn s k a →
    let done (t : State) (result : Option (PVal × Nat)) : Prop :=
      exec (.localAccessPerformed k) s = .next t ∧ AccessOver s t k result
    let word (off : BitVec 40) (n : Nat) : Word := BitVec.ofNat 64 (Mem.nat s.mem off.toNat n)
    (∀ off w sext, a.kind = .ld off w sext → ∃ t, t.mem = s.mem ∧
      done t (some (.scalar (extend sext w (word off w)), s.resultTime off.toNat false))) ∧
    (∀ off bs, a.kind = .st off bs → ∃ t, done t none ∧ Stored s.mem t.mem off.toNat bs) ∧
    (∀ off g d, a.kind = .ldv off g d → ∃ t, t.mem = s.mem ∧
      done t (some (.vec (vregsOf g (Mem.bytes s.mem off.toNat (256 * g))), s.resultTime off.toNat false))) ∧
    (∀ off bs, a.kind = .stv off bs → ∃ t, done t none ∧ Stored s.mem t.mem off.toNat bs) ∧
    (∀ f off w b, a.kind = .amo f off w b → ∃ t,
      done t (some (.scalar (word off w), s.resultTime off.toNat true)) ∧
      Stored s.mem t.mem off.toNat (leBytes w (amoNew f w (word off w) b).toNat)) ∧
    (∀ off w e n, a.kind = .acas off w e n → ∃ t,
      done t (some (.scalar (word off w), s.resultTime off.toNat true)) ∧
      (word off w = zx (8 * w) e → Stored s.mem t.mem off.toNat (leBytes w n.toNat)) ∧
      (word off w ≠ zx (8 * w) e → t.mem = s.mem)) ∧
    (∀ off inc, a.kind = .advance off inc → ∃ t,
      done t (some (.scalar (word off 8 + inc), s.resultTime off.toNat true)) ∧ t.cl.gen = s.cl.gen + 1 ∧
      Stored s.mem t.mem off.toNat (leBytes 8 (word off 8 + inc).toNat))

/-! ## Sequence words, far reads, watches -/

/-- SQADV, deferred or .NOW, and SQWAIT: their accesses, their waits, and their traps. That a full commit buffer is met before
checks 4 and 5, that a deferred SQADV makes those a clk before its access time, and what a held-mode access holds is the model's
choice (logs 23, 49 and 18). -/
def Obligations.SequenceInstructions : Prop :=
  (∀ (s : State) (d : NDst) (a : Src) (b : SrcImm),
    let off : BitVec 40 := (s.src a).setWidth 40
    let time := s.accessTime off.toNat
    let named := d.toList.map Dest.n
    (ready (.sqadv false none a b) s = true → IssueOk s 8 true (.advCheck off) →
      (s.core.commit.length < 32 → ∃ t, exec (.sqadv false none a b) s = .next t ∧
        AccessIssued { s with core := { s.core with commit := s.core.commit ++ [.advance off (s.srcImm b) s.cl.nextId false] } } t
          (.advCheck off) [] (time - 1) false) ∧
      (32 ≤ s.core.commit.length →
        exec (.sqadv false none a b) s = .next (takeTrap s 0x11 32 s.core.pc s.core.grp.off 0))) ∧
    (ready (.sqadv true d a b) s = true → IssueOk s 8 true (.advance off (s.srcImm b)) → s.core.storesLeft = false →
      s.core.wait.any Wait.awaitsEngine = false →
      (s.core.prt = [] → ∃ t, exec (.sqadv true d a b) s = .next t ∧
        AccessIssued s t (.advance off (s.srcImm b)) named time true) ∧
      (∀ e r, s.core.prt = e :: r → (∀ x ∈ s.core.prt, x.struck = true) →
        exec (.sqadv true d a b) s = .next (takeTrap s 0x10 (e.sector ++ 0#5) s.core.pc s.core.grp.off 0))) ∧
    (∀ now, ready (.sqadv now d a b) s = true → off.toNat % 8 ≠ 0 →
      exec (.sqadv now d a b) s = .next (takeTrap s 0x06 (BitVec.ofNat 64 off.toNat) s.core.pc s.core.grp.off 0)) ∧
    (ready (.sqwait d a b) s = true → IssueOk s 8 false (.sqwait off (s.srcImm b)) →
      ∃ u t, exec (.sqwait d a b) s = .next t ∧ AccessIssued s u (.sqwait off (s.srcImm b)) named time true ∧
        t = { u with core := { u.core with wait := u.core.wait ++ [.sqwait s.cl.nextId] } }))

/-- LDF, LDFA and LDFP: x keeps A's home; a bad address traps and sends nothing; else the read takes its queue position,
and is held only behind an earlier read of its sector, an LDFA or a read that is served here never (the latter is the model's
choice, log 72). A read of one's own home waits in the list; a fresh copy of the basin is taken with its result at issue + 12, whether or not its device is lost; else the home is
asked. -/
def Obligations.FarLoadsIssue : Prop :=
  (∀ (s : State) (a : Src) (disp : BitVec 48), (s.farAt a disp).toNat / 2 ^ 40 = (s.src a).toNat / 2 ^ 40 ∧
    (((s.farAt a disp).toNat % 2 ^ 40 : Nat) : Int) = ((s.src a).toNat + disp.toInt) % 2 ^ 40) ∧
  (∀ (s : State) (w : Width) (sext : Bool) (d : NDst) (a : Src) (disp : BitVec 48) (kind : FarKind),
    let i : Instr := match kind with
      | .ldf => .ldf w sext d a disp | .ldfa => .ldfa w sext d a disp | .ldfp => .ldfp w sext d a disp
    let x := s.farAt a disp
    let trapped (cause : Byte) : Prop := exec i s = .next (takeTrap s cause x s.core.pc s.core.grp.off 0)
    let held := kind ≠ .ldfa ∧ s.readsHere (homeOf x) = false ∧ s.core.sectorBusy s.cl.nextId x = true
    let f : FarRead := { id := s.cl.nextId, req := s.cl.nextId, kind := kind, addr := x, w := wbytes w, sext := sext
                         sent := !s.waitsFill kind x
                         due := s.dev.clk + (s.farTimes x).1, reply := none }
    ready i s = true →
    (∀ cause, s.farCheck x = some cause → trapped cause) ∧
    (s.farCheck x = none → x.toNat % wbytes w ≠ 0 → trapped 0x06) ∧
    (s.farCheck x = none → x.toNat % wbytes w = 0 → s.core.acquiring = false →
      ∃ u, FarIssued s u f d ∧
        (held → exec i s = .next u) ∧
        (¬ held → homeOf x = s.home → exec i s = .next u) ∧
        (¬ held → homeOf x ≠ s.home → (homeOf x).toNat % 128 < 72 →
          (kind = .ldfa ∨ s.basinSector s.core.task.space x = none → s.lostDev (devOf (homeOf x)) = false →
            s.replaying = false → exec i s = .next
              (u.request s.cl.nextId (homeOf x) s.core.task.space 0x01 (.readReq s.cl.nextId x s.core.task.space))) ∧
          (∀ c, kind ≠ .ldfa → s.basinSector s.core.task.space x = some c → s.stale (homeOf x) c = false → c.poison = false →
            ∃ t, exec i s = .next t ∧ t.core.pend = s.core.pend ++ [{
              id := s.cl.nextId, kind := .fixed, value := .scalar (sectorValue f c.data), flags := 0, due := s.dev.clk + 12 }] ∧
              t.core.far = s.core.far.filter (fun g => g.id != s.cl.nextId) ∧ t.core.regs = s.core.regs ∧ t.mem = s.mem))))

/-- PCHK pushes 0 where the table holds nothing struck, else the oldest struck address, empties the table and goes to its
label. PDROP frees every entry, or those of a sector. -/
def Obligations.ProvisionalTable : Prop :=
  (∀ (s : State) (d : NDst) (imm : BitVec 48), ready (.pchk d imm) s = true →
    let p := s.branchTarget imm
    (s.core.prt = [] → ∃ t, exec (.pchk d imm) s = .next t ∧ ScalarResult s t d 0) ∧
    (∀ e r, s.core.prt = e :: r → (∀ x ∈ s.core.prt, x.struck = true) → GoodTarget s p →
      ∃ u t, exec (.pchk d imm) s = .next t ∧
        ScalarResult { s with core := { s.core with prt := [] } } u d (e.sector ++ 0#5) ∧ TransferSet u t (.jump p))) ∧
  (∀ s : State, ready (.pdrop none) s = true → exec (.pdrop none) s = .next { s with core := { s.core with prt := [] } }) ∧
  (∀ (s : State) (a : Src), ready (.pdrop (some a)) s = true → exec (.pdrop (some a)) s = .next { s with
    core := { s.core with prt := s.core.prt.filter fun e => e.sector.toNat != (s.src a).toNat / 32 } })

/-- WATCH makes its slot SENT under the next tag and asks the word's home; WUNWATCH frees slots; WSLEEP reports the lowest
terminal slot of its mask, or sleeps while one is open; WPOLL reads a slot. -/
def Obligations.WatchSlots : Prop :=
  (∀ (s : State) (k : Fin 16) (a : Src) (b : SrcImm), ready (.watch k a b) s = true →
    let x := s.src a
    let trapped (cause : Byte) : Prop := exec (.watch k a b) s = .next (takeTrap s cause x s.core.pc s.core.grp.off 0)
    (∀ cause, s.farCheck x = some cause → trapped cause) ∧
    (s.farCheck x = none → x.toNat % 8 ≠ 0 → trapped 0x06) ∧
    (s.farCheck x = none → x.toNat % 8 = 0 → s.core.acquiring = false → ∃ t, exec (.watch k a b) s = .next t ∧
      t.core.slots[k].st = (if (homeOf x).toNat % 128 = 126 then .fault else .sent) ∧ t.core.slots[k].addr = x ∧
      t.core.slots[k].thr = s.srcImm b ∧ t.core.slots[k].tag = s.core.slots[k].tag + 1 ∧
      (∀ j : Fin 16, j ≠ k → t.core.slots[j] = s.core.slots[j]) ∧
      t.core = { s.core with slots := t.core.slots } ∧
      (s.core.slots[k].st.open = false → homeOf x ≠ s.home → (homeOf x).toNat % 128 ≠ 126 →
        homeOf x ≠ s.service → s.lostDev (devOf (homeOf x)) = false →
        let m := Msg.register x (s.srcImm b) (.slot s.home s.quadNo s.core.num k (s.core.slots[k].tag + 1))
        (devOf (homeOf x) = s.dev.id → m ∈ t.outbox) ∧
          (devOf (homeOf x) ≠ s.dev.id → ∃ hdr port, Msg.nysil hdr port m ∈ t.outbox)))) ∧
  (∀ (s : State) (m : BitVec 16), ready (.wunwatch m) s = true → ∃ t, exec (.wunwatch m) s = .next t ∧
    (∀ k : Fin 16, t.core.slots[k] =
      if m.getLsbD k.val then { WSlot.free with tag := s.core.slots[k].tag } else s.core.slots[k]) ∧
    t.core = { s.core with slots := t.core.slots } ∧ t.mem = s.mem) ∧
  (∀ (s : State) (d : NDst) (m : MaskSrc), ready (.wsleep d m) s = true →
    let hit (k : Fin 16) (p : WState → Bool) : Prop := (s.maskSrc m).getLsbD k.val = true ∧ p s.core.slots[k].st = true
    (∀ k : Fin 16, hit k WState.terminal → (∀ j < k, ¬ hit j WState.terminal) →
      ∃ t, exec (.wsleep d m) s = .next t ∧ ScalarResult (s.reportSlot s.core.slots[k]) t d (s.core.slots[k].status k)) ∧
    (∀ k : Fin 16, (∀ j, ¬ hit j WState.terminal) → hit k WState.open → ∃ t, exec (.wsleep d m) s = .next t ∧
      Pushed s.core t.core (.pending s.cl.nextId) ∧ t.core.wait = s.core.wait ++ [.wsleep (s.maskSrc m) s.cl.nextId] ∧
      t.core.regs = s.core.regs ∧ t.core.slots = s.core.slots ∧ t.mem = s.mem) ∧
    ((∀ j, ¬ hit j WState.terminal) → (∀ j, ¬ hit j WState.open) →
      ∃ t, exec (.wsleep d m) s = .next t ∧ ScalarResult s t d (BitVec.ofNat 64 (lowBit (s.maskSrc m))))) ∧
  (∀ (s : State) (st : Bool) (k : Fin 16) (d : NDst), ready (.wpoll st k d) s = true →
    ∃ t, exec (.wpoll st k d) s = .next t ∧ ScalarResult (s.reportSlot s.core.slots[k]) t d
      (if st then s.core.slots[k].status k else if s.core.slots[k].st = .fired then s.core.slots[k].value else 0))

/-- A FENCE issues at once and no later group issues until it completes; FENCE.P takes a queue position. Completing, FENCE.F
changes nothing but its wait. -/
def Obligations.FencesWait : Prop :=
  (∀ (s : State) (sc : Scope) (d : NDst), ready (.fence sc d) s = true → ∃ t, exec (.fence sc d) s = .next t ∧
    t.core.wait = s.core.wait ++ [.fence sc s.cl.nextId 0] ∧ s.mayTry t.core = false ∧
    (sc = .p → Pushed s.core t.core (.pending s.cl.nextId) ∧
      t.core.owed = s.core.owed ++ d.toList.map fun k => (s.cl.nextId, Dest.n k)) ∧
    (sc ≠ .p → t = { s with
      core := { s.core with wait := s.core.wait ++ [.fence sc s.cl.nextId 0] }, cl := { s.cl with nextId := s.cl.nextId + 1 } }) ∧
    t.core.regs = s.core.regs ∧ t.mem = s.mem ∧ t.mates = s.mates) ∧
  (∀ (s : State) (id lost : Nat), s.finishFence .f id lost =
    { s with core := { s.core with wait := s.core.wait.filter fun w => w != .fence .f id lost } })

/-! ## The pull engine -/

/-- PULL, PULLG and PULLR take the channel's next ID, push it and then the promise, and list their lines, row by row from the
source to the destination, those of a PULLG grouped by home; each bad value traps, and then no ID is taken and nothing is
pushed. With no transfer ahead, the promise is CLK + 8 + the path bound + the lines. That PULLG reads its list at issue, and
takes a poisoned entry of it as it stands, is the model's choice (logs 19 and 22). -/
def Obligations.PullsTakeIds : Prop :=
  ∀ (s : State) (cls : BitVec 2) (ch : Fin 16) (d : NDst) (a b : Src) (rows : Option (Fin 8)) (len pitch : BitVec 24),
    let dst := (s.src a).toNat % 2 ^ 40
    let starts (i : Instr) (kind : XferKind) (lines : List PullLine) (fault : Option (Byte × Nat)) (homes : List (BitVec 17))
        (ranges : List (Nat × Nat × Bool)) : Prop :=
      ∃ u, exec i s = .next u ∧ PullStarted s u ch cls d kind lines fault
        (s.promise (s.core.pullClass cls) homes (lines.map fun l => max 1 l.src.length).sum) ranges
    let trapped (i : Instr) (cause : Byte) (tval : Word) : Prop :=
      exec i s = .next (takeTrap s cause tval s.core.pc s.core.grp.off 0)
    (let i := Instr.pull cls ch d a b rows len pitch
     let src := s.src b
     let n := (rows.map fun k => (s.core.view.lc[k]).toNat).getD 1
     let dests := pullRows dst n pitch.toNat len.toNat
     let lines := (List.range n).flatMap fun r => (List.range (len.toNat / 64)).map fun l =>
       PullLine.new [farAdd src (r * pitch.toNat + 64 * l)] (dst + r * pitch.toNat + 64 * l)
     ready i s = true →
     (dst % 64 ≠ 0 → trapped i 0x06 (BitVec.ofNat 64 dst)) ∧
     (∀ c, dst % 64 = 0 → s.farCheck src = some c → trapped i c src) ∧
     (dst % 64 = 0 → s.farCheck src = none → src.toNat % 64 ≠ 0 → trapped i 0x06 src) ∧
     (dst % 64 = 0 → s.farCheck src = none → src.toNat % 64 = 0 →
       let apart := 1 < n → len.toNat ≤ pitch.toNat
       let inside := src.toNat % 2 ^ 40 + n * pitch.toNat + len.toNat ≤ 2 ^ 40 + pitch.toNat
       (¬ apart → trapped i 0x01 (immWord i)) ∧ (apart → ¬ inside → trapped i 0x09 src) ∧
       (∀ c v, apart → inside → s.issueCheck 1 true dests = some (c, v) → trapped i c v) ∧
       (apart → inside → s.issueCheck 1 true dests = none → PullRoom s ch (destRange dests).length →
         starts i .copy lines none [homeOf src] (destRange dests)))) ∧
    (∀ count : CountSrc,
     let i := Instr.pullg cls ch d a b count len
     let list := (s.src b).toNat % 2 ^ 40
     let n := match count with
       | .lc k => (s.core.view.lc[k]).toNat
       | .imm c => c.toNat
     let dests := pullRows dst n len.toNat len.toNat
     let read := if n = 0 then [] else [(list, 8 * n)]
     let range := destRange dests ++ read.map fun r => (r.1, r.1 + r.2, false)
     let entries := (List.range n).map fun k => Mem.word s.mem (list + 8 * k)
     let bad (x : Word) : Option Byte := (s.farCheck x) <|> if x.toNat % 64 ≠ 0 then some 0x06 else none
     let lines := entries.zipIdx.flatMap fun e => (List.range (len.toNat / 64)).map fun l =>
       match bad e.1 with
       | none => PullLine.new [farAdd e.1 (64 * l)] (dst + e.2 * len.toNat + 64 * l)
       | some c => { PullLine.new [] (dst + e.2 * len.toNat + 64 * l) with arrivals := [{ member := 0, failed := some c }] }
     ready i s = true →
     (dst % 64 ≠ 0 → trapped i 0x06 (BitVec.ofNat 64 dst)) ∧
     (dst % 64 = 0 → list % 8 ≠ 0 → trapped i 0x06 (BitVec.ofNat 64 list)) ∧
     (∀ c v, dst % 64 = 0 → list % 8 = 0 → s.issueCheck 8 false read = some (c, v) → trapped i c v) ∧
     (∀ c v, dst % 64 = 0 → list % 8 = 0 → s.issueCheck 8 false read = none → s.issueCheck 1 true dests = some (c, v) →
       trapped i c v) ∧
     (dst % 64 = 0 → list % 8 = 0 → s.issueCheck 8 false read = none → s.issueCheck 1 true dests = none →
       PullRoom s ch range.length → s.readHeld list (8 * n) = false → list + 8 * n ≤ 0x2000000 →
       starts i .gather (byHome lines) ((entries.findSome? bad).map fun c => (c, 0))
         ((entries.filter fun x => (bad x).isNone).map homeOf) range)) ∧
    (∀ (f : RFmt) (obf16 : Bool) (n : BitVec 24) (g : Fin 4),
     let i := Instr.pullr f obf16 cls ch d a b n g
     let members := s.core.ag[g]
     let soff := (s.src b).toNat % 2 ^ 40
     let count := n.toNat * (if f = .bf16 then 2 else 4) / 64
     let out := n.toNat * (if obf16 then 2 else 4)
     let dests := pullRows dst 1 0 out
     let lines := (List.range count).map fun l =>
       PullLine.new (members.map fun m => farAdd m (soff + 64 * l)) (dst + out / max 1 count * l)
     ready i s = true →
     (members = [] → trapped i 0x01 (BitVec.ofNat 64 g.val)) ∧
     (members ≠ [] → f = .int32 → obf16 = true → trapped i 0x01 (BitVec.ofNat 64 (cls.toNat + 4 * ch.val + 64))) ∧
     (members ≠ [] → (f ≠ .int32 ∨ obf16 = false) → dst % 64 ≠ 0 → trapped i 0x06 (BitVec.ofNat 64 dst)) ∧
     (members ≠ [] → (f ≠ .int32 ∨ obf16 = false) → dst % 64 = 0 → soff % 64 ≠ 0 → trapped i 0x06 (BitVec.ofNat 64 soff)) ∧
     (∀ c v, members ≠ [] → (f ≠ .int32 ∨ obf16 = false) → dst % 64 = 0 → soff % 64 = 0 →
       s.issueCheck 1 true dests = some (c, v) → trapped i c v) ∧
     (members ≠ [] → (f ≠ .int32 ∨ obf16 = false) → dst % 64 = 0 → soff % 64 = 0 → s.issueCheck 1 true dests = none →
       PullRoom s ch (destRange dests).length →
       starts i (.reduce f obf16 n.toNat) lines none (members.map homeOf) (destRange dests))) ∧
    (∀ (h : BitVec 17) (n : Nat), (∀ c : Fin 16, s.cl.chans[c].xfers = []) → s.core.grp.live = false →
      s.promise cls [h] n = BitVec.ofNat 64 (s.dev.clk + 8 + s.pathBound h + n))

/-- AGSET loads a group from memory or traps on its first bad entry; WAITP of a complete transfer whose promise has passed
pushes its value, and otherwise takes its position and sleeps; LCSET writes a loop count; EQUERY reads its channel, once no
access of the firing is outstanding on the word that it reads, and .CLR zeroes the fault word. That AGSET and EQUERY read
memory at issue is the model's choice (log 19). -/
def Obligations.PullRegisters : Prop :=
  (∀ (s : State) (g : Fin 4) (a : Src) (count : AgCount),
    let i := Instr.agset g a count
    let off := (s.src a).toNat % 2 ^ 40
    let v : Word := match count with
      | .reg b => s.src b
      | .imm c => c.setWidth 64
    let n := v.toNat
    let entries := (List.range n).map fun k => Mem.word s.mem (off + 8 * k)
    let bad (x : Word) : Option Byte := (s.farCheck x) <|> if x.toNat % 64 ≠ 0 then some 0x06 else none
    let trapped (cause : Byte) (tval : Word) : Prop := exec i s = .next (takeTrap s cause tval s.core.pc s.core.grp.off 0)
    ready i s = true →
    (n < 1 ∨ 32 < n → trapped 0x01 v) ∧
    (1 ≤ n → n ≤ 32 → off % 8 ≠ 0 → trapped 0x06 (BitVec.ofNat 64 off)) ∧
    (1 ≤ n → n ≤ 32 → s.issueCheck 8 false [(off, 8 * n)] = none → s.core.acquiring = false → s.readHeld off (8 * n) = false →
      off + 8 * n ≤ 0x2000000 → (∀ p ∈ granules off (8 * n), s.cl.poison.contains (p / 64) = false) →
      ((∀ x ∈ entries, bad x = none) →
        exec i s = .next { s with core := { s.core with ag := s.core.ag.set g entries } }) ∧
      (∀ pre x post c, entries = pre ++ x :: post → (∀ y ∈ pre, bad y = none) → bad x = some c → trapped c x))) ∧
  (∀ (s : State) (sq : Bool) (ch : Fin 16) (d : NDst) (a b : Src), ready (.waitp sq ch d a b) s = true →
    let p := s.src a
    let id := s.src b
    let complete := ∀ x ∈ s.cl.chans[ch].xfers, x.xid ≠ id.toNat
    (s.cl.chans[ch].next ≤ id.toNat →
      exec (.waitp sq ch d a b) s = .next (takeTrap s 0x09 id s.core.pc s.core.grp.off 0)) ∧
    (id.toNat < s.cl.chans[ch].next → p.toNat ≤ s.dev.clk → complete →
      ∃ t, exec (.waitp sq ch d a b) s = .next t ∧
        ScalarResult (s.observe ch id.toNat) t d ((s.observe ch id.toNat).waitpValue ch id) ∧
        (s.cl.chans[ch].faulted.contains id.toNat = false → Mem.word s.mem (s.liveNear - 1024 + 64 * ch.val + 8) = 0 →
          (s.observe ch id.toNat).waitpValue ch id = 0)) ∧
    (id.toNat < s.cl.chans[ch].next → (s.dev.clk < p.toNat ∨ ¬ complete) →
      ∃ t, exec (.waitp sq ch d a b) s = .next t ∧ Pushed s.core t.core (.pending s.cl.nextId) ∧
        t.core.wait = s.core.wait ++ [.waitp p id ch sq false s.cl.nextId s.core.pc s.core.grp.off] ∧
        t.core.owed = s.core.owed ++ d.toList.map (fun r => (s.cl.nextId, Dest.n r)) ∧
        t.core.regs = s.core.regs ∧ t.mem = s.mem ∧ t.mates = s.mates)) ∧
  (∀ (s : State) (k : Fin 8) (v : LcVal), ready (.lcset k v) s = true →
    exec (.lcset k v) s = .next { s with core := { s.core with regs := { s.core.regs with
      lc := s.core.regs.lc.set k (match v with
        | .reg a => (s.src a).setWidth 32
        | .imm x => x) } } }) ∧
  (∀ (s : State) (q : EqSel) (ch : Fin 16) (d : NDst), ready (.equery q ch d) s = true → s.core.acquiring = false →
    (∀ k, eqWord q = some k → s.readHeld (s.liveNear - 1024 + 64 * ch.val + k) 8 = false) →
    let word (k : Nat) : Word := Mem.word s.mem (s.liveNear - 1024 + 64 * ch.val + 8 * k)
    let left := (s.cl.chans[ch].xfers.map Transfer.destLeft).sum
    ∃ u t, exec (.equery q ch d) s = .next t ∧
      LaterResult u t d .fixed (match q with
        | .done => word 0
        | .nextId => BitVec.ofNat 64 s.cl.chans[ch].next
        | .fault => word 1
        | .faultClr => word 1
        | .stat => BitVec.ofNat 64 (min s.cl.chans[ch].xfers.length 256 + 65536 * min left 2048)) 0 (s.dev.clk + 4) ∧
      u.core = s.core ∧ (q ≠ .faultClr → u = s) ∧ (q = .faultClr → u = s.setChanWord ch 1 0))

/-! ## The joint array -/

/-- WLD, AZERO, ARD, AWR and AST take a place in the core's command queue with what they read at issue and the time to their
first row or column (to their end, of a WLD from registers), MWAIT holds the later groups. WLD traps outside a gang; AST on a
misaligned offset, and on the first row that meets the channel area; AZERO, ARD, AWR, AST and MWAIT on rows past the space. -/
def Obligations.MatrixCommandsQueue : Prop :=
  ∀ (s : State) (a b : Src) (v : Fin 32) (g : BitVec 2) (row0 rows : BitVec 12),
    let queues (i : Instr) (op : MOp) (due : Nat) (range : Option (Nat × Nat × Bool)) (ds : List Dest) : Prop :=
      ready i s = true → CommandRoom s range.toList.length → ∃ t, exec i s = .next t ∧ CommandQueued s t op due range ds
    let trapped (i : Instr) (cause : Byte) (tval : Nat) : Prop :=
      exec i s = .next (takeTrap s cause (BitVec.ofNat 64 tval) s.core.pc s.core.grp.off 0)
    let space := 64 * partA s.cl.part
    let n := 2 ^ g.toNat
    (∀ (f : MFmt) (c0 : BitVec 6) (count : BitVec 7),
      (s.core.task.wide = true → 1 ≤ count.toNat → OperandOk f (s.src a) (s.src b) count.toNat s.liveNear →
        let e := extent f (s.src a) (s.src b) count.toNat 1
        queues (.wld f (.scratch a b) c0 count) (.wldScratch f (s.src a) (s.src b) c0.toNat count.toNat) 4
          (some (e.1, e.2, false)) []) ∧
      (∀ sc : Option (Fin 32), s.core.task.wide = true →
        queues (.wld f (.vec v g sc) c0 count) (.wldVec f ((vgroup v n).map fun r => s.core.view.v[r])
          (sc.map fun r => s.core.view.v[r]) c0.toNat) (2 + count.toNat) none []) ∧
      (∀ src, s.core.task.wide = false → ready (.wld f src c0 count) s = true → trapped (.wld f src c0 count) 0x0E 0)) ∧
    (row0.toNat + rows.toNat ≤ space → queues (.azero row0 rows) (.azero row0.toNat rows.toNat) 1 none []) ∧
    (row0.toNat + n ≤ space → queues (.ard g v row0) (.ard row0.toNat n) 1 none ((vgroup v n).map .v)) ∧
    (row0.toNat + n ≤ space →
      queues (.awr g v row0) (.awr row0.toNat ((vgroup v n).map fun r => s.core.view.v[r])) 1 none []) ∧
    (∀ (f : AFmt) (pitch : BitVec 24),
      let off := (s.src a).toNat % 2 ^ 40
      let p := if pitch = 0 then f.rowBytes else pitch.toNat
      off % 32 = 0 → (∀ j < rows.toNat, off + j * p + f.rowBytes ≤ s.liveNear - 1024) → row0.toNat + rows.toNat ≤ space →
        queues (.ast f a row0 rows pitch) (.ast f (BitVec.ofNat 40 off) row0.toNat rows.toNat p) 4
          (some (off, off + (rows.toNat - 1) * p + f.rowBytes, true)) []) ∧
    (∀ (f : AFmt) (pitch : BitVec 24),
      let off := (s.src a).toNat % 2 ^ 40
      let p := if pitch = 0 then f.rowBytes else pitch.toNat
      let area := s.liveNear - 1024
      let i := Instr.ast f a row0 rows pitch
      ready i s = true →
      (off % 32 ≠ 0 → trapped i 0x06 off) ∧
      (∀ j < rows.toNat, off % 32 = 0 → area < off + j * p + f.rowBytes → (∀ k < j, off + k * p + f.rowBytes ≤ area) →
        trapped i 0x09 (max (off + j * p) area)) ∧
      (off % 32 = 0 → (∀ j < rows.toNat, off + j * p + f.rowBytes ≤ area) → space < row0.toNat + rows.toNat →
        trapped i 0x09 (max row0.toNat space))) ∧
    (ready (.mwait row0 rows) s = true →
      (row0.toNat + rows.toNat ≤ space ∨ rows = 0 → ∃ lo hi, exec (.mwait row0 rows) s = .next { s with
        core := { s.core with wait := s.core.wait ++ [.mwait lo hi s.cl.nextId] }
        cl := { s.cl with nextId := s.cl.nextId + 1 } } ∧
        (rows = 0 → lo = 0 ∧ hi = space) ∧ (rows ≠ 0 → lo = row0.toNat ∧ hi = row0.toNat + rows.toNat)) ∧
      (rows ≠ 0 → space < row0.toNat + rows.toNat → trapped (.mwait row0 rows) 0x09 (max row0.toNat space))) ∧
    (ready (.azero row0 rows) s = true → space < row0.toNat + rows.toNat →
      trapped (.azero row0 rows) 0x09 (max row0.toNat space)) ∧
    (ready (.ard g v row0) s = true → space < row0.toNat + n → trapped (.ard g v row0) 0x09 (max row0.toNat space)) ∧
    (ready (.awr g v row0) s = true → space < row0.toNat + n → trapped (.awr g v row0) 0x09 (max row0.toNat space))

/-- An MMA is held until all four members of its gang have one; the last to arrive joins them, and each then issues the
command that the join left it, owning its rows, or takes the trap that the join found. Outside a gang and at a trap level it
traps with 0, and with members gone at their END with the mask of those. -/
def Obligations.MmaJoins : Prop :=
  ∀ (s : State) (f : MFmt) (src : MmaSrc) (gran : BitVec 2) (row0 rows : BitVec 12),
    let i := Instr.mma f src gran row0 rows
    let waits := s.core.wait.filter fun w => match w with
      | .joined _ _ => false
      | _ => true
    let trapped (s : State) (cause : Byte) (tval : Word) : Prop :=
      exec i s = .next (takeTrap s cause tval s.core.pc s.core.grp.off 0)
    ready i s = true →
    (∀ op, s.core.joinedWait = some (none, some op) → ∃ t,
      exec i s = .next t ∧
      CommandQueued { s with core := { s.core with
        wait := waits, mmaCount := s.core.mmaCount + 1
        owned := s.core.owned ++ op.rows.toList.map fun r => (r.1, r.2, s.cl.nextId) } } t op 4 op.readRange []) ∧
    (∀ c v op, s.core.joinedWait = some (some (c, v), op) →
      exec i s = .next (takeTrap { s with core := { s.core with wait := waits } } c v s.core.pc s.core.grp.off 0)) ∧
    (s.core.joinedWait = none → s.core.level ≠ 0 ∨ s.core.task.wide = false → trapped s 0x0E 0) ∧
    (let gone (k : BitVec 2) : Prop := ∃ t, (s.coreNo k).ended = some t ∧ t < s.dev.clk
     s.core.joinedWait = none → s.core.level = 0 → s.core.task.wide = true → (∃ k, gone k) → ∃ m : Word, trapped s 0x0E m ∧
        ∀ k < 64, m.getLsbD k = true ↔ k < 4 ∧ gone (BitVec.ofNat 2 k)) ∧
    (s.core.joinedWait = none → s.core.level = 0 → s.core.task.wide = true → (∀ k t, (s.coreNo k).ended = some t → s.dev.clk ≤ t) →
      CommandRoom s 1 →
      ((∃ c ∈ s.mates, c.heldMma = none) →
        exec i s = .next { s with core := { s.core with heldMma := some i, mark := .stalled } }) ∧
      ((∀ c ∈ s.mates, c.heldMma ≠ none) → ∃ t, exec i s = .next t ∧ t.core.mark = .again ∧ t.mem = s.mem ∧
        (∀ c ∈ t.cores, c.heldMma = none ∧ ∃ fail op, (fail = none ↔ op ≠ none) ∧ Wait.joined fail op ∈ c.wait)))

/-! ## The vector unit -/

/-- Every vector instruction takes an entry of its core's dispatch queue with the scalars it captures; VEXT and VRED alone
take a queue position. -/
def Obligations.VectorQueue : Prop :=
  ∀ (s : State) (f : VFmt) (i : IFmt) (p : PFmt) (sf : SFmt) (mf : MxFmt) (m : VMask) (d a b c : Fin 32) (k : Fin 8) (vb : VB)
      (r : Src) (x y : Bool),
    let issues (j : Instr) (scalars : List Word) (push : Bool) : Prop :=
      ready j s = true → s.core.vq.length < 8 → ∃ t, exec j s = .next t ∧ VectorIssued s t j scalars push
    let one := s.vbScalar vb
    (∀ z, s.vbScalar (.reg z) = [s.src z]) ∧ (∀ fn, issues (.vadd f fn m d a vb) one false ∧ issues (.vsub f fn m d a vb) one false) ∧
    issues (.vmul f m d a vb) one false ∧ issues (.vfma f m d a b vb) one false ∧
    issues (.vmin f x m d a vb) one false ∧ issues (.vmax f x m d a vb) one false ∧
    issues (.vabs f x m d a) [] false ∧ issues (.vneg f x m d a) [] false ∧
    issues (.vexp2 sf m d a) [] false ∧ issues (.vlog2 sf m d a) [] false ∧ issues (.vrcp sf m d a) [] false ∧
    issues (.vrsq sf m d a) [] false ∧
    (∀ dst src part, issues (.vcvt dst src x y part m d a) [] false) ∧
    (∀ cond dest, issues (.vcmp f cond m dest a vb) one false) ∧
    issues (.vsel d a b k) [] false ∧
    issues (.vand i m d a vb) one false ∧ issues (.vor i m d a vb) one false ∧ issues (.vxor i m d a vb) one false ∧
    issues (.vshl i m d a vb) one false ∧ issues (.vshr i x m d a vb) one false ∧
    (∀ op dst, issues (.vred f op x m dst a) [] true) ∧
    issues (.vperm p m d a b) [] false ∧
    (issues (.vbcast p m d (.reg r)) [s.src r] false ∧ (∀ v, issues (.vbcast p m d (.imm v)) [] false) ∧
      ∀ l, issues (.vbcast p m d (.lane a l)) [] false) ∧
    (∀ start, issues (.viota i m d start) [s.srcImm start] false) ∧
    (∀ dst, issues (.vext p x dst a (.reg r)) [s.src r] true ∧ ∀ l, issues (.vext p x dst a (.imm l)) [] true) ∧
    (∀ z, issues (.vins p d z (.reg r)) [s.src z, s.src r] false ∧ ∀ l, issues (.vins p d z (.imm l)) [s.src z] false) ∧
    (∀ b0 s0, issues (.vmxq mf x d a c b0 s0) [] false ∧ issues (.vmxd mf x d a c b0 s0) [] false)

/-- VECTOR_GRANT grants the first eligible head: its result is computed from the registers as they stand and from what it
captured, and arrives at the grant + its latency; the unit is free again after the grant's length. -/
def Obligations.VectorGrants : Prop :=
  ∀ (s : State) (x : VCmd) (rest : List VCmd) (r : PVal × BitVec 5), s.core.vq = x :: rest → s.grantTo = some s.core.num →
    vecResult { regs := s.core.regs, caps := x.caps, scalars := x.scalars } (Config.freeRow s.free) x.instr = some r →
    ∃ t, exec .vectorGrant s = .next t ∧
      t.core = { s.core with
        vq := t.core.vq, vqFull := false
        pend := s.core.pend ++ [{
          id := x.id, kind := .vec, value := r.1, flags := r.2, due := s.dev.clk + grantLatency x.instr }] } ∧
      t.core.vq.map VCmd.id = rest.map VCmd.id ∧
      t.quad = { s.quad with lastGrant := s.core.num, vecFreeAt := s.dev.clk + grantClk x.instr } ∧
      t.mates = s.mates ∧ t.mem = s.mem ∧ t.dev = s.dev

/-- What integer and bit instructions of the vector unit compute, lane by lane: the active elements take the result modulo
2^w, the others keep their value. -/
def Obligations.VectorLanes : Prop :=
  ∀ (e : VEnv) (f : VFmt) (i : IFmt) (p : PFmt) (m : VMask) (d a b c : Fin 32) (k : Fin 8),
    let w := f.fmt.bits
    let x (j : Nat) : Nat := lane f.fmt.bits (e.v a) j
    let y (j : Nat) : Nat := lane f.fmt.bits (e.v b) j
    let ix (j : Nat) : Nat := lane i.fmt.bits (e.v a) j
    let iy (j : Nat) : Nat := lane i.fmt.bits (e.v b) j
    (f.fmt.isInt = true →
      LanesAre e (.vadd f .wrap m d a (.v b)) w m d (fun j => x j + y j) ∧
      LanesAre e (.vsub f .wrap m d a (.v b)) w m d (fun j => x j + 2 ^ w - y j) ∧
      LanesAre e (.vadd f .satu m d a (.v b)) w m d (fun j => min (2 ^ w - 1) (x j + y j)) ∧
      LanesAre e (.vsub f .satu m d a (.v b)) w m d (fun j => x j - y j) ∧
      LanesAre e (.vmul f m d a (.v b)) w m d (fun j => x j * y j) ∧
      LanesAre e (.vfma f m d a b (.v c)) w m d (fun j => x j * y j + lane w (e.v c) j) ∧
      LanesAre e (.vmin f true m d a (.v b)) w m d (fun j => min (x j) (y j)) ∧
      LanesAre e (.vmax f true m d a (.v b)) w m d (fun j => max (x j) (y j)) ∧
      LanesAre e (.vneg f false m d a) w m d (fun j => 2 ^ w - x j)) ∧
    LanesAre e (.vand i m d a (.v b)) i.fmt.bits m d (fun j => Nat.land (ix j) (iy j)) ∧
    LanesAre e (.vor i m d a (.v b)) i.fmt.bits m d (fun j => Nat.lor (ix j) (iy j)) ∧
    LanesAre e (.vxor i m d a (.v b)) i.fmt.bits m d (fun j => Nat.xor (ix j) (iy j)) ∧
    LanesAre e (.vshl i m d a (.v b)) i.fmt.bits m d (fun j => ix j * 2 ^ min (iy j) i.fmt.bits) ∧
    LanesAre e (.vshr i false m d a (.v b)) i.fmt.bits m d (fun j => ix j / 2 ^ min (iy j) i.fmt.bits) ∧
    LanesAre e (.vperm p m d a b) p.fmt.bits m d
      (fun j => lane p.fmt.bits (e.v a) (lane p.fmt.bits (e.v b) j % (2048 / p.fmt.bits))) ∧
    (∀ l, LanesAre e (.vbcast p m d (.lane a l)) p.fmt.bits m d
      (fun _ => lane p.fmt.bits (e.v a) (l.toNat % (2048 / p.fmt.bits)))) ∧
    (∀ v, LanesAre e (.viota i m d (.imm v)) i.fmt.bits m d (fun j => v.toNat + j)) ∧
    LanesAre e (.vsel d a b k) 32 none d (fun j => if (e.m k).getLsbD j then lane 32 (e.v a) j else lane 32 (e.v b) j)

/-- END, YIELD and SPAWN, PULL, PULLG and PULLR, WLD, MMA, AZERO, ARD, AWR, AST and MWAIT complete: where the state and the
operands meet the conditions of each, a transfer stands by, a record or a command takes its place, an ID is taken, or the
later groups are held. -/
def Obligations.GroupEndsPullsAndMatrixFormsComplete : Prop :=
  (∀ s : State, s.core.level = 0 →
    (ready .endFiring s = true → ∃ t x, exec .endFiring s = .next t ∧ TransferSet s t x) ∧
    (ready .yield s = true → ∃ t, exec .yield s = .next t ∧ TransferSet s t .yield)) ∧
  (∀ (s : State) (code frame : QN) (actor wide : Bool) (prio : BitVec 2) (join : BitVec 7),
    ready (.spawn code frame none actor wide prio join) s = true → s.core.commit.length < 32 →
    ∃ t r, exec (.spawn code frame none actor wide prio join) s = .next t ∧
      t = { s with core := { s.core with commit := s.core.commit ++ [.spawn r none] } }) ∧
  (∀ (s : State) (cls : BitVec 2) (ch : Fin 16) (d : NDst) (a b : Src) (len : BitVec 24),
    let taken (i : Instr) : Prop := ∃ t, exec i s = .next t ∧ t.cl.chans[ch].next = s.cl.chans[ch].next + 1 ∧
      t.core.pulls = s.core.pulls ++ [(ch.val, s.cl.chans[ch].next)] ∧ t.mem = s.mem ∧ t.mates = s.mates
    let dst := (s.src a).toNat % 2 ^ 40
    let src := s.src b
    let off := src.toNat % 2 ^ 40
    dst % 64 = 0 →
    (∀ pitch, let dests := pullRows dst 1 pitch.toNat len.toNat
      ready (.pull cls ch d a b none len pitch) s = true → s.farCheck src = none → src.toNat % 64 = 0 →
      off + len.toNat ≤ 2 ^ 40 → s.issueCheck 1 true dests = none → PullRoom s ch (destRange dests).length →
      taken (.pull cls ch d a b none len pitch)) ∧
    (∀ n : BitVec 24, let dests := pullRows dst n.toNat len.toNat len.toNat
      let read := if n = 0 then [] else [(off, 8 * n.toNat)]
      ready (.pullg cls ch d a b (.imm n) len) s = true → off % 8 = 0 → s.issueCheck 8 false read = none →
      s.issueCheck 1 true dests = none → PullRoom s ch ((destRange dests).length + read.length) →
      s.readHeld off (8 * n.toNat) = false → off + 8 * n.toNat ≤ 0x2000000 → taken (.pullg cls ch d a b (.imm n) len)) ∧
    (∀ (f : RFmt) (n : BitVec 24) (g : Fin 4), let dests := pullRows dst 1 0 (n.toNat * 4)
      ready (.pullr f false cls ch d a b n g) s = true → s.core.ag[g] ≠ [] → off % 64 = 0 → s.issueCheck 1 true dests = none →
      PullRoom s ch (destRange dests).length → taken (.pullr f false cls ch d a b n g))) ∧
  (∀ (s : State) (a b : Src) (v : Fin 32) (g : BitVec 2) (row0 rows : BitVec 12),
    let queued (i : Instr) : Prop := ∃ t op due, exec i s = .next t ∧ t.core.mq = s.core.mq ++ [MCmd.new s.cl.nextId op due] ∧
      t.core.regs = s.core.regs ∧ t.mem = s.mem ∧ t.mates = s.mates
    let space := 64 * partA s.cl.part
    (CommandRoom s 0 →
      (ready (.azero row0 rows) s = true → row0.toNat + rows.toNat ≤ space → queued (.azero row0 rows)) ∧
      (ready (.ard g v row0) s = true → row0.toNat + 2 ^ g.toNat ≤ space → queued (.ard g v row0)) ∧
      (ready (.awr g v row0) s = true → row0.toNat + 2 ^ g.toNat ≤ space → queued (.awr g v row0)) ∧
      (∀ f sc c0 count, ready (.wld f (.vec v g sc) c0 count) s = true → s.core.task.wide = true →
        queued (.wld f (.vec v g sc) c0 count))) ∧
    (∀ f, let off := (s.src a).toNat % 2 ^ 40
      CommandRoom s 1 → ready (.ast f a row0 rows 0) s = true → off % 32 = 0 →
      (∀ j < rows.toNat, off + j * f.rowBytes + f.rowBytes ≤ s.liveNear - 1024) → row0.toNat + rows.toNat ≤ space →
      queued (.ast f a row0 rows 0)) ∧
    (∀ f src gran op, ready (.mma f src gran row0 rows) s = true → s.core.joinedWait = some (none, some op) →
      queued (.mma f src gran row0 rows)) ∧
    (ready (.mwait row0 rows) s = true → row0.toNat + rows.toNat ≤ space → ∃ t lo hi,
      exec (.mwait row0 rows) s = .next t ∧ t.core.wait = s.core.wait ++ [.mwait lo hi s.cl.nextId] ∧
      t.core.regs = s.core.regs ∧ t.mem = s.mem ∧ t.mates = s.mates))

/-! ## Traps and system registers -/

/-- TRAP takes its trap: at TL0 or TL1 the next level is entered with CAUSE, RET the following slot, and TVAL, and the
handler's address in the code pointer; at TL2 the trap cannot be delivered, and the launch is killed. -/
def Obligations.TrapEntry : Prop :=
  (∀ (s : State) (cause : Byte) (a : Option Src), ready (.trap cause a) s = true →
    let tval := (a.map s.src).getD 0
    (s.core.level < 2 → ∃ t, exec (.trap cause a) s = .next t ∧
      Entered s t s.core.level cause tval (nextPtr s.core.pc) s.core.grp.off) ∧
    (s.core.level = 2 → ∃ t r, exec (.trap cause a) s = .next t ∧ t.agenda = s.agenda ++ [.kill r] ∧ r.cause = 0x17 ∧
      r.undelivered = cause ∧ r.tval = tval ∧ r.graph = s.core.task.graph ∧ t.core.status = .stopping ∧
      t.core.regs = s.core.regs ∧ t.mem = s.mem ∧ t.mates = s.mates)) ∧
  (∀ (s : State) (cause : Byte) (tval ret : Word) (off : Nat), s.core.level < 2 →
    Entered s (takeTrap s cause tval ret off 0) s.core.level cause tval ret off)

/-- TRET and TRET.V stand by until their group has issued, after a check of a RET that SYSWR wrote; at TL0 they trap. Then
the bank is discarded and the firing continues at RET with its group offset and its pending transfer one level lower;
TRET.V's value takes the position of the instruction at RET, and the firing continues at the slot after it, or, where that
instruction was the last of its group, makes the group's pending transfer. A pending CALL or RET that the handler's %sp
or bounds no longer allow traps at the return. That the transfer of a completed group is made at once, and that a pending one is
checked again at the return, is the model's choice (log 62). -/
def Obligations.TretReturns : Prop :=
  ∀ (s : State) (a : Src),
    let l := s.core.level
    let r := s.core.trapRegs l
    let pending : Option Word := ({ s.core with grp := { s.core.grp with xfer := r.xfer } } : Core).xferBad s.core.sp
    let stands (i : Instr) (v : Option Word) : Prop := ready i s = true →
      (l = 0 → exec i s = .next (takeTrap s 0x16 (wordBits i) s.core.pc s.core.grp.off 0)) ∧
      (l ≠ 0 → r.written = false → ∃ t, exec i s = .next t ∧ TransferSet s t (.tret v)) ∧
      (l ≠ 0 → r.written = true → GoodTarget s r.ret → ∃ t, exec i s = .next t ∧ TransferSet s t (.tret v)) ∧
      (∀ c, l ≠ 0 → r.written = true → pointerCheck r.ret = some c →
        exec i s = .next (takeTrap s c r.ret s.core.pc s.core.grp.off 0))
    stands .tret none ∧ stands (.tretV a) (some (s.src a)) ∧
    (l = 1 ∨ l = 2 → r.cause.getLsbD 13 = false →
      (∀ x, s.core.grp.xfer = some (.tret none) → pending = some x →
        let t := s.finishGroup
        t.core.level = l ∧ IsCause (t.core.trapRegs l).cause 0x12 (r.cause.extractLsb' 8 3).toNat ∧
        (t.core.trapRegs l).ret = r.ret ∧ (t.core.trapRegs l).tval = x ∧ t.core.bank (l - 1) = s.core.bank (l - 1) ∧
        t.core.regs = s.core.regs ∧ t.core.sp = s.core.sp ∧ t.core.spill = s.core.spill ∧ t.mem = s.mem) ∧
      (s.core.grp.xfer = some (.tret none) → pending = none →
        let t := s.finishGroup
        t.core.level = l - 1 ∧ t.core.pc = r.ret ∧ t.core.grp.off = (r.cause.extractLsb' 8 3).toNat ∧
        t.core.grp.xfer = r.xfer ∧ t.core.issueAt = s.dev.clk + 4 ∧ t.core.bank l = zeroBank ∧ t.core.bank (l - 1) = s.core.bank (l - 1) ∧
        t.core.regs = s.core.regs ∧ t.core.trap1 = s.core.trap1 ∧ t.core.trap2 = s.core.trap2 ∧ t.mem = s.mem) ∧
      (∀ v w j, s.core.grp.xfer = some (.tret (some v)) → r.cause.getLsbD 12 = false → r.cause.getLsbD 11 = false →
        (r.cause.extractLsb' 0 8).toNat < 0x80 → r.word = some w → decode w = .ok j → pushes j = 1 →
        r.last = false ∨ r.xfer = none → pending = none →
        let t := s.finishGroup
        t.core.level = l - 1 ∧ t.core.pc = nextPtr r.ret ∧ t.core.grp.off = (r.cause.extractLsb' 8 3).toNat + 1 ∧
        t.core.grp.xfer = r.xfer ∧ t.core.bank (l - 1) = pushedBank (s.core.bank (l - 1)) (.arrived v) ∧
        (∀ k : Fin 32, t.core.regs.n[k] = if Dest.n k ∈ dests j then v else s.core.regs.n[k]) ∧ t.mem = s.mem) ∧
      (∀ v p, s.core.grp.xfer = some (.tret (some v)) → r.cause.getLsbD 12 = false → r.cause.getLsbD 11 = false →
        (r.cause.extractLsb' 0 8).toNat < 0x80 → r.last = true → r.xfer = some (.jump p) →
        s.finishGroup.core.level = l - 1 ∧ s.finishGroup.core.pc = p))

/-- SYSRD's value for every register of the table, which arrives 2 clk after issue; an entry of a lower bank; and trap 0x16
below the level that may read the register. -/
def Obligations.SysrdReads : Prop :=
  ∀ (s : State) (d : NDst) (num : BitVec 12), ready (.sysrd d num) s = true →
    let reads (v : Word) : Prop := ∃ t, exec (.sysrd d num) s = .next t ∧ LaterResult s t d .fixed v 0 (s.dev.clk + 2)
    let trapped : Prop := exec (.sysrd d num) s = .next (takeTrap s 0x16 (wordBits (.sysrd d num)) s.core.pc s.core.grp.off 0)
    let at' (n level : Nat) (v : Word) : Prop := num.toNat = n → (level ≤ s.core.level → reads v) ∧ (s.core.level < level → trapped)
    let struck := (s.core.prt.filter PrtEntry.struck).length
    at' 0x00 1 s.core.trap1.cause ∧ at' 0x01 2 s.core.trap2.cause ∧ at' 0x02 1 s.core.trap1.ret ∧
    at' 0x03 2 s.core.trap2.ret ∧ at' 0x04 1 s.core.trap1.tval ∧ at' 0x05 2 s.core.trap2.tval ∧
    at' 0x06 0 (BitVec.ofNat 64 s.core.level) ∧ at' 0x07 0 ((s.cl.bound.map Binding.tvec).getD 0) ∧
    (s.core.fstatReady = true → at' 0x08 0 (s.core.fstat.setWidth 64)) ∧ at' 0x09 0 s.core.spbase ∧ at' 0x0A 0 s.core.splim ∧
    (s.core.grp.live = false → at' 0x0B 0 (BitVec.ofNat 64 s.dev.clk)) ∧ at' 0x0C 0 (BitVec.ofNat 64 s.dev.time) ∧
    at' 0x0D 0 (s.cl.part.setWidth 64) ∧
    (∀ v : Word, v.extractLsb' 48 16 = s.core.fallbacks → (v.extractLsb' 0 48).toNat =
      s.core.prt.length + 2 ^ 8 * (s.core.prt.length - struck) + 2 ^ 16 * struck → s.core.prt.length ≤ 64 → at' 0x0E 0 v) ∧
    at' 0x0F 0 (BitVec.ofNat 64 (s.core.commit.length + (if s.core.nonRestart then 2 ^ 8 else 0) +
      2 ^ 9 * s.core.task.restarts.toNat)) ∧
    at' 0x10 0 s.dev.capbase ∧ at' 0x11 0 0 ∧ at' 0x12 0 s.cl.aging[1] ∧ at' 0x13 0 s.cl.aging[2] ∧ at' 0x14 0 s.cl.aging[3] ∧
    at' 0x15 0 (if s.testSpace then 1 else 0) ∧
    (∀ b k : Nat, b < 3 → k < 16 → num.toNat = 0x100 + 16 * b + k →
      (s.core.level < b → trapped) ∧
      (∀ v, b < s.core.level → (s.core.bank b)[k]? = some (.arrived v) → reads v) ∧
      (∀ v, b = s.core.level → s.core.grp.off = 0 → (s.core.bank b)[k]? = some (.arrived v) → reads v) ∧
      (∀ f, b < s.core.level → (s.core.bank b)[k]? = some (.faulted f) → reads 0))

/-- SYSWR writes its register and nothing else; a value that R48 or R127 refuses traps, and so does a level that may not
write. A bound that would forbid the CALL or RET that the group still owes is refused as well (the model's choice, log 62). -/
def Obligations.SyswrWrites : Prop :=
  ∀ (s : State) (a : Src) (num : BitVec 12), ready (.syswr a num) s = true →
    let v := s.src a
    let i := Instr.syswr a num
    let trapped : Prop := exec i s = .next (takeTrap s 0x16 (wordBits i) s.core.pc s.core.grp.off 0)
    let refused : Prop := exec i s = .next (takeTrap s 0x12 v s.core.pc s.core.grp.off 0)
    let level (n l : Nat) (done : Prop) : Prop := num.toNat = n → (l ≤ s.core.level → done) ∧ (s.core.level < l → trapped)
    let writes (c : Core) : Prop := exec i s = .next { s with core := c }
    let bounds (lim base : Word) : Prop := lim.toNat % 8 = 0 ∧ base.toNat % 8 = 0 ∧ lim.toNat ≤ s.core.sp.toNat ∧
      s.core.sp.toNat ≤ base.toNat ∧ base.toNat ≤ 4096 * partS s.cl.part
    let base : Prop := bounds s.core.splim v ∧ ({ s.core with spbase := v } : Core).xferBad s.core.sp = none
    let lim : Prop := bounds v s.core.spbase ∧ ({ s.core with splim := v } : Core).xferBad s.core.sp = none
    let cleared (c : Word) : Word := c &&& ~~~0x1FFF00
    (∀ n ∈ [0x00, 0x01, 0x06, 0x07, 0x0B, 0x0C, 0x0D, 0x0E, 0x10, 0x15], num.toNat = n → trapped) ∧
    (0x100 ≤ num.toNat → trapped) ∧
    level 0x02 1 (writes { s.core with trap1 :=
      { s.core.trap1 with
        ret := v, cause := cleared s.core.trap1.cause, written := true, dsts := [], word := none, last := false, xfer := none } }) ∧
    level 0x03 2 (writes { s.core with trap2 :=
      { s.core.trap2 with
        ret := v, cause := cleared s.core.trap2.cause, written := true, dsts := [], word := none, last := false, xfer := none } }) ∧
    level 0x04 1 (writes { s.core with trap1 := { s.core.trap1 with tval := v } }) ∧
    level 0x05 2 (writes { s.core with trap2 := { s.core.trap2 with tval := v } }) ∧
    (s.core.fstatReady = true → level 0x08 0 (writes { s.core with fstat := v.setWidth 5 })) ∧
    (base → level 0x09 1 (writes { s.core with spbase := v })) ∧ (¬ base → level 0x09 1 refused) ∧
    (lim → level 0x0A 1 (writes { s.core with splim := v })) ∧ (¬ lim → level 0x0A 1 refused) ∧
    (v = 0 → level 0x0F 1 (writes { s.core with commit := [] })) ∧ (v.toNat % 2 ^ 16 ≠ 0 → level 0x0F 1 refused) ∧
    level 0x11 0 (writes s.core) ∧
    (∀ k : Fin 4, 0 < k.val → level (0x11 + k.val) 2 (exec i s = .next { s with cl := { s.cl with aging := s.cl.aging.set k v } }))

/-- PGREQ takes a queue position, makes its slot SENT and asks for the page, above TL0 only; BASINCLR drops every line of the
basin, or those of a home; BRKPT stops nothing unless a debug unlock is in force; TESTINJ joins the firing's accesses in a
test-flagged space only. Whether the later groups of TESTINJ's firing wait for it is decided by log 18. -/
def Obligations.SystemEffects : Prop :=
  (∀ (s : State) (k : Fin 16) (d : NDst) (a : Src), ready (.pgreq k d a) s = true →
    let x := s.src a
    (s.core.level = 0 →
      exec (.pgreq k d a) s = .next (takeTrap s 0x16 (wordBits (.pgreq k d a)) s.core.pc s.core.grp.off 0)) ∧
    (∀ c, s.core.level ≠ 0 → s.farCheck x = some c →
      exec (.pgreq k d a) s = .next (takeTrap s c x s.core.pc s.core.grp.off 0)) ∧
    (s.core.level ≠ 0 → s.farCheck x = none → ∃ t, exec (.pgreq k d a) s = .next t ∧
      Pushed s.core t.core (.pending s.cl.nextId) ∧ t.core.owed = s.core.owed ++ d.toList.map (fun r => (s.cl.nextId, Dest.n r)) ∧
      t.core.slots[k].st = .sent ∧ t.core.slots[k].addr = x ∧ t.core.slots[k].tag = s.core.slots[k].tag + 1 ∧
      (∀ j : Fin 16, j ≠ k → t.core.slots[j] = s.core.slots[j]) ∧ t.core.nonRestart = s.core.nonRestart ∧
      t.core.regs = s.core.regs ∧ t.mem = s.mem)) ∧
  (∀ s : State, ready (.basinclr none) s = true →
    exec (.basinclr none) s = .next { s with cl := { s.cl with basin := [] } }) ∧
  (∀ (s : State) (a : Src), ready (.basinclr (some a)) s = true →
    ((s.src a).toNat < 2 ^ 17 → exec (.basinclr (some a)) s = .next { s with cl := { s.cl with
      basin := s.cl.basin.filter fun b => b.home != (s.src a).setWidth 17 } }) ∧
    (2 ^ 17 ≤ (s.src a).toNat →
      exec (.basinclr (some a)) s = .next (takeTrap s 0x07 (s.src a) s.core.pc s.core.grp.off 0))) ∧
  (∀ (s : State) (tag : BitVec 16), ready (.brkpt tag) s = true →
    let u : State := { s with cl := { s.cl with counts := addCount .brkptSeen 1 s.cl.counts } }
    (s.dev.debug = false → exec (.brkpt tag) s = .next u) ∧
    (s.dev.debug = true → ∃ t, exec (.brkpt tag) s = .next t ∧ TransferSet u t (.brkpt tag))) ∧
  (∀ (s : State) (a : Src) (disp : BitVec 48), ready (.testinj a disp) s = true →
    let off := s.localOff a disp
    (s.testSpace = false →
      exec (.testinj a disp) s = .next (takeTrap s 0x16 (wordBits (.testinj a disp)) s.core.pc s.core.grp.off 0)) ∧
    (s.testSpace = true → off.toNat % 64 ≠ 0 →
      exec (.testinj a disp) s = .next (takeTrap s 0x06 (BitVec.ofNat 64 off.toNat) s.core.pc s.core.grp.off 0)) ∧
    (s.testSpace = true → off.toNat % 64 = 0 → 0x4000000 ≤ off.toNat → s.core.acquiring = false →
      s.liveNear ≤ 0x2000000 →
      ∃ t, exec (.testinj a disp) s = .next t ∧ AccessIssued s t (.testinj off) [] (s.accessTime off.toNat) false))

/-! ## The machine's own steps -/

/-- A result that is due reaches its core, by its id or as the oldest of its divider; a result that is not due stays. -/
def Obligations.ResultsArrive : Prop :=
  ∀ s : State,
    (∀ p, s.core.pend.find? (fun x => x.id == p.id && decide (x.due ≤ s.dev.clk)) = some p →
      ∃ t, exec (.resultArrival p.id) s = .next t ∧ ResultIn s t p) ∧
    (∀ p, s.core.pend.find? (fun x => x.kind == .idiv && decide (x.due ≤ s.dev.clk)) = some p →
      ∃ t, exec .divisionResult s = .next t ∧ ResultIn s t p) ∧
    (∀ p, s.core.pend.find? (fun x => x.kind == .fdiv && decide (x.due ≤ s.dev.clk)) = some p →
      ∃ t, exec .floatDivideResult s = .next t ∧ ResultIn s t p) ∧
    (∀ id, (∀ c ∈ s.cores, ∀ x ∈ c.pend, x.id = id → s.dev.clk < x.due) → exec (.resultArrival id) s = .next s)

/-- A code line that a core asked for is kept in the instruction cache, 1,024 lines at most, or its failure is told to
every core that asked, poison as cause 0x0C; a soft error is counted, and a double-bit one poisons its 64 bytes. Which line a
full instruction cache loses, and that a soft error counts as a use of its near-cache line, is the model's choice (log 54). -/
def Obligations.CodeLinesAndSoftErrors : Prop :=
  (∀ (s : State) (addr : Word), (∃ x ∈ s.quad.icMiss, x.2 = addr) →
    let told (r : LineReply) : List (BitVec 2 × Word × LineReply) :=
      (s.quad.icMiss.filter fun x => x.2 == addr).map fun x => (x.1, x.2, r)
    let fails (sent seen : LineReply) : Prop := ∃ t, exec (.lineFetch addr sent) s = .next t ∧ CodeAnswered s t addr ∧
      t.icache = s.icache ∧ t.quad.icBad = s.quad.icBad ++ told seen
    (∀ g l, ∃ t, exec (.lineFetch addr (.data g l false)) s = .next t ∧ CodeAnswered s t addr ∧
      t.icache = ((addr, l) :: s.icache.filter fun x => x.1 != addr).take 1024 ∧ t.quad.icBad = s.quad.icBad) ∧
    (∀ g l, fails (.data g l true) (.fault 0x0C)) ∧ (∀ c, fails (.fault c) (.fault c)) ∧
    (∀ w g, fails (.notResident w g) (.notResident w g)) ∧ fails .lost .lost) ∧
  (∀ (s : State) (off : Nat) (double : Bool), off < 0x2000000 →
    ∃ t, exec (.softError (.pool off) double) s = .next t ∧
      (∀ g, g ∈ t.cl.poison ↔ (double = true ∧ g = off / 64) ∨ g ∈ s.cl.poison) ∧
      t = { s with cl := { s.cl with
        poison := t.cl.poison, counts := addCount (if double then .poolUe else .poolCe) 1 s.cl.counts } }) ∧
  (∀ (s : State) (sp : BitVec 16) (line : Word) (n : NcLine) (double : Bool), s.ncFind sp line = some n →
    ((s.ncRest n).filter fun x => ncSet x.line == ncSet line).length < 16 → ∃ t, exec (.softError (.nearCache sp line) double) s = .next t ∧
      t.ncFind sp line = some { n with poison := n.poison || double } ∧
      (∀ q l, (q, l) ≠ (sp, line) → t.ncFind q l = s.ncFind q l) ∧
      t = { s with cl := { s.cl with nc := t.cl.nc, counts := addCount (if double then .ncUe else .ncCe) 1 s.cl.counts } })

/-- A line that misses both levels is translated by the home's tables: the outcomes of R151 in their order. The access
then finds its line in the LLC, or, in held mode, takes the trap of its failure at its own slot. A held-mode access whose
checks were decided at issue is not translated again, and the TVAL of an access of several elements is that of the first in the
line that failed, which are the model's choices (logs 18 and 61); so is it that an access which is not there changes nothing
(log 58). -/
def Obligations.TranslationOutcomes : Prop :=
  (∀ (s : State) (sp : BitVec 16) (va : Word) (need : Need),
    let out := (s.translate sp va need).2
    (s.space? sp = none → out = .trap 0x09) ∧
    ∀ d, s.space? sp = some d → s.tlbHit d.space va = none →
      let w := walk s.mem (some s.base) (d.slot == 0) va 5 (d.root.toNat * 4096)
      (w = .unmapped → out = .unmapped) ∧ (w = .notResident → out = .notResident) ∧
      (∀ l, w = .leaf l →
        let granted := (match need with
          | .load => l.pte.getLsbD 1
          | .store => l.pte.getLsbD 2
          | .fetch => l.pte.getLsbD 3) = true
        (¬ granted → out = .trap 0x09) ∧ (s.keyOk d.slot d.slotGen = false → out = .trap 0x09) ∧
        (granted → s.keyOk d.slot d.slotGen = true → out = .ok (l.frame + va.toNat % l.size) l.pte))) ∧
  (∀ (s : State) (k g : Nat) (a : Access), s.core.access k = some a → a.bad = none → s.mayPerform s.core a = true →
    a.known = none → s.missing a.space a.kind = some g →
    let r := s.fetchLine a.space (s.lineVa g) a.kind.need
    (r.2 = none → exec (.translation k) s = .next r.1 ∧ r.1.lineHere a.space (s.lineVa g) = true ∧
      r.1.core = s.core ∧ r.1.mates = s.mates) ∧
    (∀ c, (r.2 = some (.trap c (s.lineVa g)) ∨ ((r.2 = some .unmapped ∨ r.2 = some (.notResident 0 0)) ∧ c = 0x08)) →
      a.held = true → a.orphan = false → a.kind.cls ≠ .hint → s.core.level < 2 →
      ∃ t, exec (.translation k) s = .next t ∧ t.core.level = s.core.level + 1 ∧
        IsCause (t.core.trapRegs t.core.level).cause c a.off ∧ (t.core.trapRegs t.core.level).ret = a.ret ∧
        (t.core.trapRegs t.core.level).tval = a.tval g ∧ t.core.access k = none ∧ t.core.regs = s.core.regs ∧
        t.mates = s.mates)) ∧
  (∀ (s : State) (k : Nat), (∀ c ∈ s.cores, c.access k = none) → exec (.translation k) s = .next s)

/-- A sealed line is filled into the near cache, where its set has room, as its port delivers it: its plaintext, or poisoned
where its keys are gone or its counter block fails; one that is there already is the most recently used. A dirty sealed line
that is written back under verified metadata leaves the near cache, its minor counter and every version on its path one higher,
the other versions as they were, and the port then reads the same bytes again; where the path fails, nothing is written, and
the line is poisoned in HBM. The sets of the near cache and the order in which they lose lines are the model's choice (log 54),
and that a step which names no line changes nothing (log 58). -/
def Obligations.SealedLines : Prop :=
  (∀ (s : State) (sp : BitVec 16) (line : Word) (n : NcLine), s.ncFind sp line = some n →
    exec (.sealedFill sp line) s = .next { s with cl := { s.cl with nc := n :: s.ncRest n } }) ∧
  (∀ (s : State) (sp : BitVec 16) (line : Word), s.ncFind sp line = none → s.llcFind sp line = none →
    exec (.sealedFill sp line) s = .next s) ∧
  (∀ (s : State) (sp : BitVec 16) (line : Word) (l : LlcLine), s.ncFind sp line = none → s.llcFind sp line = some l →
    (s.cl.nc.filter fun x => ncSet x.line == ncSet line).length < 16 →
    let read := s.portRead sp line l.pa l.mode
    (∃ t n, exec (.sealedFill sp line) s = .next t ∧ t.ncFind sp line = some n ∧ n.data = lineOfBytes read.2.1 ∧
      n.poison = read.2.2 ∧ n.dirty = false ∧ (n.r, n.w, n.x) = (l.r, l.w, l.x) ∧ n.pa = l.pa ∧ Kept s t) ∧
    (l.mode = 2#2 → s.keysOf (s.slotOf sp) = none → read.2 = (List.replicate 64 0, true)) ∧
    (l.mode = 2#2 → (s.keysOf (s.slotOf sp)).isSome = true → (s.block (s.frameOf l.pa)).2 = none →
      read.2 = (List.replicate 64 0, true) ∧ read.1.cl.counts = addCount .treeFailures 1 s.cl.counts)) ∧
  (∀ (s : State) (sp : BitVec 16) (line : Word) (n : NcLine), Inv s → s.ncFind sp line = some n → n.dirty = true →
    n.mode = 2#2 → n.poison = false → (s.keysOf (s.slotOf sp)).isSome = true → s.base ≤ n.pa → n.pa < s.base + reservedTop →
    n.pa % 64 = 0 →
    let f := s.frameOf n.pa
    let j := n.pa % 4096 / 64
    (∀ u p, s.path f = (u, some p) → u.versionsOk f p = true → minorOf p.cb j ≠ 127#7 →
      ∃ t top mid cb, exec (.sealedWriteBack sp line) s = .next t ∧ t.ncFind sp line = none ∧
        t.cached (pathKey f 1) = some cb ∧ t.cached (pathKey f 2) = some mid ∧ t.cached (pathKey f 3) = some top ∧
        (∀ k < 64, minorOf cb k = if k = j then minorOf p.cb j + 1 else minorOf p.cb k) ∧ majorOf cb = majorOf p.cb ∧
        (∀ k < 8, versionIn mid k = if k = f % 8 then versionIn p.mid k + 1 else versionIn p.mid k) ∧
        (∀ k < 8, versionIn top k = if k = f / 8 % 8 then versionIn p.top k + 1 else versionIn p.top k) ∧
        t.rootOf (f / 64) = s.rootOf (f / 64) + 1 ∧ (t.portRead sp line n.pa 2#2).2 = (lineBytes n.data, false) ∧
        t.core = s.core ∧ t.mates = s.mates ∧ (∀ a : Nat, a < 2 ^ 70 → Mem.read t.mem a = Mem.read s.mem a)) ∧
    ((s.path f).2 = none → ∃ t, exec (.sealedWriteBack sp line) s = .next t ∧ t.ncFind sp line = none ∧
      t.hbmPoisoned n.pa = true ∧ Kept s t)) ∧
  (∀ (s : State) (sp : BitVec 16) (line : Word), (∀ n, s.ncFind sp line = some n → n.dirty = false) →
    exec (.sealedWriteBack sp line) s = .next s)

/-- The matrix commands of a core, row by row, and their ends. AZERO and AWR write their next row, AST stores its next row as
memory bytes, ARD reads its rows, WLD from scratch reads its next column. A command with nothing left to do leaves the queue:
ARD's registers, WLD's columns and AST's flags stand then. Each leaves all else as it was. The pace at which the commands
interleave, and when a WLD's columns are latched, is the model's choice (log 24). -/
def Obligations.MatrixCommandsComplete : Prop :=
  (∀ (s : State) (m : MCmd),
    let row (r : Nat) : AccRow := s.core.accRow r
    let put (x : MCmd) : List MCmd := s.core.mq.map fun y => if y.id = m.id then x else y
    let next (n : Nat) : MCmd := { m with
      done := m.done + 1, due := if m.done + 1 < n then s.dev.clk + 1 else s.dev.clk }
    let t := s.doUnit m
    let wrote (r n : Nat) (v : VReg) : Prop :=
      t = { s with core := { s.core with accum := t.core.accum, wild := s.core.wild.filter (fun x => x != r), mq := put (next n) } } ∧
        ∀ k, t.core.accRow k = if k = r then { row := r, data := v, poison := false } else row k
    (∀ row0 n, m.op = .azero row0 n → s.core.ownsRow m.id (row0 + m.done) = false → wrote (row0 + m.done) n 0) ∧
    (∀ row0 rs v, m.op = .awr row0 rs → rs[m.done]? = some v → s.core.ownsRow m.id (row0 + m.done) = false →
      wrote (row0 + m.done) rs.length v) ∧
    (∀ row0 g, m.op = .ard row0 g → (∀ k < g, s.core.ownsRow m.id (row0 + k) = false) →
      t = { s with core := { s.core with mq := put { m with
        got := (List.range g).map fun k => ((row (row0 + k)).data, 0, (row (row0 + k)).poison), due := s.dev.clk + 3 + g } } }) ∧
    (∀ f first second c0 n, m.op = .wldScratch f first second c0 n → first.toNat < 2 ^ 40 →
      let a := (first.toNat + m.got.length * (second.toNat % 2 ^ 24)) % 2 ^ 40
      t.mem = s.mem ∧ t.mates = s.mates ∧ ∃ p, t.core = { s.core with mq := put { m with
        got := m.got ++ [(vregOf (Mem.bytes s.mem a 256), BitVec.ofNat 128 (leNat (Mem.bytes s.mem (a + 256) f.s)), p)]
        due := if m.got.length + 1 < n then s.dev.clk + 1 else s.dev.clk + 4 } }) ∧
    (∀ f base row0 n pitch, m.op = .ast f base row0 n pitch → s.core.ownsRow m.id (row0 + m.done) = false → Inv s →
      let a := base.toNat + m.done * pitch
      let x := astRow f (row (row0 + m.done)).data
      a + 8 * f.fmt.bits ≤ 0x2000000 → s.cl.sluice = [] →
      t.core = { s.core with mq := put { next n with
        flags := m.flags ||| (if s.core.wild.contains (row0 + m.done) then 0 else x.2) } } ∧ t.mates = s.mates ∧
        Stored s.mem t.mem a x.1)) ∧
  (∀ (s : State) (m : MCmd), s.cmdDue s.core = some m →
    let done (t : State) : Prop := exec .matrixCommandCompletion s = .next t
    let u := s.popped m
    (∀ row0 n, m.op = .azero row0 n → done u) ∧ (∀ row0 rs, m.op = .awr row0 rs → done u) ∧
    (∀ f base row0 n pitch, m.op = .ast f base row0 n pitch →
      done { u with core := { u.core with mflags := s.core.mflags ++ [(m.id, row0, n, m.flags)] } }) ∧
    (∀ row0 n (vs : List (Fin 32)), m.op = .ard row0 n → s.core.owedTo m.id = vs.map Dest.v → vs.Nodup →
      m.got.length = vs.length → (∀ x ∈ m.got, x.2.2 = false) →
      ∃ t, done t ∧ t = { u with core := { u.core with regs := t.core.regs, faults := t.core.faults, owed := t.core.owed } } ∧
        (∀ (k : Nat) (r : Fin 32) (x : VReg × BitVec 128 × Bool), vs[k]? = some r → m.got[k]? = some x → t.core.regs.v[r] = x.1) ∧
        (∀ r : Fin 32, r ∉ vs → t.core.regs.v[r] = s.core.regs.v[r]) ∧ t.core.regs.n = s.core.regs.n ∧
        t.core.regs.m = s.core.regs.m ∧ t.core.regs.tm = s.core.regs.tm ∧ t.core.regs.lc = s.core.regs.lc) ∧
    (∀ f cols sc c0, m.op = .wldVec f cols sc c0 →
      ∃ t, done t ∧ t = { u with core := { u.core with slice := t.core.slice }
                                 cl := { u.cl with counts := addCount .wldColumns cols.length u.cl.counts } } ∧
        ColumnsLatched s.core.slice t.core.slice f c0 cols.length (fun k => cols.getD k 0)
          (fun k => BitVec.ofNat 128 (((sc.getD 0).toNat / 2 ^ (8 * f.s * k)) % 2 ^ (8 * f.s)))) ∧
    (∀ f first second c0 n, m.op = .wldScratch f first second c0 n →
      ∃ t, done t ∧ t = { u with core := { u.core with slice := t.core.slice }
                                 cl := { u.cl with counts := addCount .wldColumns n u.cl.counts } } ∧
        ColumnsLatched s.core.slice t.core.slice f c0 m.got.length (fun k => ((m.got.getD k (0, 0, false)).1))
          (fun k => (m.got.getD k (0, 0, false)).2.1)))

/-- The gang's MMA: its next row enters every member's accumulators with that member's slice, and no register, no slice and no
byte of memory changes. It leaves the queues when its last row has been written; where a pre-emption waits at a split granule
it is cut there; a power-governor slot delays its later rows by one clk each, and no other command. That a row's sum stands in
the accumulators in the clk at which it enters is the model's choice (log 24). -/
def Obligations.MmaRowsAdvance : Prop :=
  (∀ (s : State) (m x : MCmd) (f : MFmt) (row0 rows tiles : Nat) (gr : BitVec 2) (a b : Word) (mp : Option Line) (l : Bool)
      (d : Nat) (fl : BitVec 5),
    s.gangMma = some m → s.core.enterMma = some x → x.op = .mma f row0 rows tiles gr a b mp l d fl →
    let t := s.enterRow
    let act := s.actRow m.op m.op.entered
    let old := s.core.accRow (row0 + d)
    t.mem = s.mem ∧ t.cores.map (fun c => c.regs) = s.cores.map (fun c => c.regs) ∧
      t.cores.map (fun c => c.slice) = s.cores.map (fun c => c.slice) ∧
      ∀ r, t.core.accRow r = if r = row0 + d then
        { row := r, data := (rowSum f act s.core.slice old.data).1, poison := old.poison || act.poison || s.core.slice.poisoned }
        else s.core.accRow r) ∧
  (∀ s : State,
    let same (t : State) : Prop := t.mem = s.mem ∧ t.cores.map (fun c => c.regs) = s.cores.map (fun c => c.regs) ∧
      t.cores.map (fun c => c.slice) = s.cores.map (fun c => c.slice) ∧
      t.cores.map (fun c => c.accum) = s.cores.map fun c => c.accum
    ((∀ c ∈ s.cores, s.cmdDue c = none) →
      (s.mmaDue = false → exec .matrixCommandCompletion s = .next s) ∧
      (s.mmaDue = true → ∃ t, exec .matrixCommandCompletion s = .next t ∧ same t ∧
        t.cores.map (fun c => c.mq) = s.cores.map fun c => c.mq.filter fun y => some y.id != c.headMma.map fun z => z.id)) ∧
    (s.splitDue = false → exec .splitGranuleBoundary s = .next s) ∧
    (s.splitDue = true → ∃ t, exec .splitGranuleBoundary s = .next t ∧ same t ∧
      ∀ c ∈ t.cores, ∀ y ∈ c.mq, y.isMma = true → y.cut = true) ∧
    (∀ n : Nat, ∃ t, exec (.powerGovernor n) s = .next t ∧ t.mem = s.mem ∧ t.icache = s.icache ∧
      t.dev = { s.dev with throttle := s.dev.throttle + n } ∧
      t.cl = { s.cl with counts := addCount .throttleSlots n s.cl.counts } ∧ t.core = { s.core with mq := t.core.mq } ∧
      (s.gangMma = none → t.core.mq = s.core.mq) ∧
      ∀ m, s.gangMma = some m →
        (m.op.entered = 0 → s.dev.clk < m.due → t.core.mq = s.core.mq) ∧
        (m.op.entered ≠ 0 ∨ m.due ≤ s.dev.clk → t.core.mq = s.core.mq.map fun y =>
          if some y.id = s.core.enterMma.map (fun z => z.id) then { y with due := max y.due s.dev.clk + n } else y)))

/-- The first response of a line is kept with its contribution, later ones are dropped and counted. A line of a copy that has
come is written where its row says, and only there; a channel whose oldest transfer has all its lines advances its completion
word by one, a release. A line asked again goes to its home again. A promise that passes is counted as a miss, and WAITP.S
takes trap 0x0F. -/
def Obligations.PullLinesArrive : Prop :=
  (∀ (s : State) (ch : Fin 16) (id line member : Nat) (r : LineReply),
    let dropped : State := { s with cl := { s.cl with counts := addCount .pullDuplicates 1 s.cl.counts } }
    (s.xfer ch id = none → (s.pullEnd ch id).isSome = true →
      exec (.pullLineResponse ch id line member r) s = .next dropped) ∧
    (s.xfer ch id = none → s.pullEnd ch id = none → exec (.pullLineResponse ch id line member r) s = .next s) ∧
    (∀ t l, s.xfer ch id = some t → t.lines[line]? = some l → l.outstanding member = false →
      exec (.pullLineResponse ch id line member r) s = .next dropped)) ∧
  (∀ (s : State) (ch : Fin 16) (id line member : Nat) (t : Transfer) (l : PullLine) (x : Word),
    s.xfer ch id = some t → t.kind = .copy → t.lines[line]? = some l → l.src[member]? = some x → l.outstanding member = true →
    let came (r : LineReply) (t' : Transfer) : Prop := ∃ u, exec (.pullLineResponse ch id line member r) s = .next u ∧
      Kept s u ∧ u.xfer ch id = some t'
    (∀ g d, came (.data g d false) { t.putLine line { l with
      arrivals := l.arrivals ++ [{ member := member, failed := none }], partialSum := d } with gens := newestGen (homeOf x) g t.gens }) ∧
    (∀ c, came (.fault c) ((t.putLine line { l with
      arrivals := l.arrivals ++ [{ member := member, failed := some c }] }).fail c member))) ∧
  (∀ (s : State) (ch : Fin 16) (id line : Nat) (t : Transfer) (l : PullLine), Inv s →
    s.xfer ch id = some t → t.kind = .copy → t.lines[line]? = some l → (∀ a ∈ l.arrivals, a.failed = none) →
    l.dst.toNat % 64 = 0 → l.dst.toNat + 64 ≤ 0x2000000 → s.destEnd t l 0 = .write → s.cl.sluice = [] →
    let u := s.settle ch id line 0
    Stored s.mem u.mem l.dst.toNat (lineBytes l.partialSum) ∧ CoresKept s u ∧
      (u.xfer ch id).bind (fun t' => t'.lines[line]?.map fun x => x.done) = some true) ∧
  (∀ (s : State) (ch : Fin 16) (t : Transfer), Inv s → (s.chan ch).xfers = [t] → (∀ l ∈ t.lines, l.done = true) →
    t.failure = none → s.cl.sluice = [] → 1024 ≤ s.liveNear → s.liveNear ≤ 0x2000000 →
    let u := s.advanceChan ch
    u.chanWord ch 0 = s.chanWord ch 0 + 1 ∧ (u.chan ch).xfers = [] ∧ u.cl.gen = s.cl.gen + 1 ∧
      ∀ a : Nat, a < s.chanAt ch ∨ s.chanAt ch + 8 ≤ a → Mem.read u.mem a = Mem.read s.mem a) ∧
  (∀ (s : State) (ch : Fin 16) (id line member : Nat) (t : Transfer) (l : PullLine) (x : Word),
    s.xfer ch id = some t → t.lines[line]? = some l → l.src[member]? = some x →
    (l.outstanding member = false → exec (.lineRerequest ch id line member) s = .next s) ∧
    (l.outstanding member = true → s.served (homeOf x) = false → (homeOf x).extractLsb' 0 7 ≠ 126#7 → s.farCheck x = none →
      s.lostDev (devOf (homeOf x)) = false → s.logged (homeOf x) = false →
      ∃ u, exec (.lineRerequest ch id line member) s = .next u ∧ Kept s u ∧ u.cl.sluice = s.cl.sluice ∧
        (devOf (homeOf x) = s.dev.id → u.outbox = s.outbox ++ [.pullReq ch id line member x]) ∧
        (devOf (homeOf x) ≠ s.dev.id → ∃ hdr port, u.outbox = s.outbox ++ [.nysil hdr port (.pullReq ch id line member x)]))) ∧
  (∀ (s : State) (p xid : Word) (ch : Fin 16) (sq : Bool) (id : Nat) (ret : Word) (off : Nat), Inv s →
    s.core.wait.find? (s.waitpMissed s.core) = some (.waitp p xid ch sq false id ret off) → s.cl.sluice = [] →
    1024 ≤ s.liveNear → s.liveNear ≤ 0x2000000 →
    ∃ u, exec .waitpPromiseExpiry s = .next u ∧ u.chanWord ch 3 = s.chanWord ch 3 + 1 ∧ u.core.regs = s.core.regs ∧
      u.mates = s.mates ∧ (∀ a : Nat, a < s.chanAt ch + 24 ∨ s.chanAt ch + 32 ≤ a → Mem.read u.mem a = Mem.read s.mem a) ∧
      (sq = false → u.core.level = s.core.level ∧ u.core.wait = s.core.wait.map fun w =>
        if w = .waitp p xid ch sq false id ret off then .waitp p xid ch sq true id ret off else w) ∧
      (sq = true → s.core.level < 2 → u.core.level = s.core.level + 1 ∧
        IsCause (u.core.trapRegs u.core.level).cause 0x0F off ∧ (u.core.trapRegs u.core.level).ret = ret ∧
        (u.core.trapRegs u.core.level).tval = xid))

/-- COMMIT performs the deferred effects, one a clk, and frees the core; the scheduler's reads, watches and answers move records towards
their run lists; one head starts its firing on the lowest-numbered idle core, or on the whole quad; a record that has
waited past its bound moves up one list. That slots keep their tags and are released at END as here, how spawns are counted into
task keys, that the effects take a clk each, and when a reservation lapses is the model's choice (logs 26, 28, 49, 50 and 74);
that a step with nothing to do changes nothing is too (log 58). -/
def Obligations.SchedulerSteps : Prop :=
  (∀ s : State, s.commitDue s.core = true → s.core.wait = [.ending] → s.core.writeFault = none → s.core.allFaults = [] →
    s.core.oldestStruck = none → s.core.task.wide = false →
    (s.core.slotsFree = true → exec .commit s = .next { s with core := { s.core with
      wait := [.committing], issueAt := if s.core.commit = [] then s.core.issueAt else s.dev.clk + 1 } }) ∧
    (s.core.slotsFree = false → ∃ t, exec .commit s = .next t ∧ t.mates = s.mates ∧ t.mem = s.mem ∧
      t.core = { s.core with slots := s.core.slots.map fun w => { WSlot.free with tag := w.tag } })) ∧
  (∀ s : State, Inv s → s.commitDue s.core = true → s.core.wait = [.committing] → s.core.task.wide = false →
    s.core.task.actor = false → s.cl.overflow = [] →
    let done (t : State) : Prop := exec .commit s = .next t ∧ LeftIdle s t
    (s.core.commit = [] → ∃ t, done t ∧ t.mem = s.mem ∧ t.cl.lists = s.cl.lists) ∧
    (∀ r, s.core.commit = [.spawn r none] → r.join = 0 → r.actor = false → s.regionUse < 65536 →
      ∃ t, done t ∧ t.mem = s.mem ∧ Joined s t { r with key := taskKey s.core.task.key s.core.spawned }) ∧
    (∀ r e es, s.core.commit = .spawn r none :: e :: es → r.join = 0 → r.actor = false → s.regionUse < 65536 →
      ∃ t, exec .commit s = .next t ∧ t.mem = s.mem ∧ t.mates = s.mates ∧
        Joined s t { r with key := taskKey s.core.task.key s.core.spawned } ∧
        t.core = { s.core with commit := e :: es, issueAt := s.dev.clk + 1, spawned := s.core.spawned + 1 }) ∧
    (∀ off inc check asked, s.core.commit = [.advance off inc check asked] → off.toNat + 8 ≤ 0x2000000 →
      s.advanceHeld off inc = false → s.cl.sluice = [] → s.cl.poison = [] →
      ∃ t, done t ∧ t.cl.lists = s.cl.lists ∧ t.cl.gen = s.cl.gen + 1 ∧
        Mem.word t.mem off.toNat = Mem.word s.mem off.toNat + inc ∧
        (∀ a : Nat, a < off.toNat ∨ off.toNat + 8 ≤ a → Mem.read t.mem a = Mem.read s.mem a))) ∧
  (∀ s : State, (∀ c ∈ s.cores, s.commitDue c = false) → exec .commit s = .next s) ∧
  (∀ (s : State) (w : WaitRec) (g : BitVec 48) (ws : List Word), s.waitRec w.id = some w → w.reading = true → w.desc = [] →
    w.cr.actor = false →
    let edges := pairs (ws.take (2 * w.cr.join))
    ((∀ e ∈ edges, s.edgeCheck e.1 = none) → ∃ t, exec (.edgeListRead w.id (.words g ws)) s = .next t ∧ CoresKept s t ∧
      ∀ e ∈ edges, ∃ x ∈ t.cl.watches, x.use = .edge w.id e.1 ∧ x.addr = e.1 ∧ x.thr = e.2) ∧
    (∀ e c, edges.find? (fun y => (s.edgeCheck y.1).isSome) = some e → s.edgeCheck e.1 = some c →
      ∃ t k, exec (.edgeListRead w.id (.words g ws)) s = .next t ∧ Kept s t ∧ t.agenda = s.agenda ++ [.kill k] ∧ k.cause = c ∧
        k.tval = e.1 ∧ k.graph = w.cr.graph) ∧
    (∀ c, ∃ t k, exec (.edgeListRead w.id (.fail c)) s = .next t ∧ Kept s t ∧ t.agenda = s.agenda ++ [.kill k] ∧ k.cause = c ∧
      k.tval = w.cr.frame ∧ k.graph = w.cr.graph)) ∧
  (∀ (s : State) (w : SchedWatch) (recs : List LaneRec), s.schedWatch w.id = some w →
    let answered (e : WatchEnd) (t : State) : Prop := exec (.schedulerWatchAnswer w.id e recs) s = .next t ∧ CoresKept s t
    (∃ t, answered .armed t ∧ t.cl = s.cl) ∧
    (∀ v g r, w.use = .residency r → w.thr.toNat ≤ v.toNat → ∃ t, answered (.answer v g) t ∧ Joined s t r ∧
      ∀ x ∈ t.cl.watches, x.id ≠ w.id) ∧
    (∀ v g r x a, w.use = .edge r x → w.thr.toNat ≤ v.toNat → s.waitRec r = some a → 2 ≤ a.cr.join →
      ∃ t b, answered (.answer v g) t ∧ t.waitRec r = some b ∧ b.cr.join = a.cr.join - 1 ∧ t.cl.lists = s.cl.lists) ∧
    (∀ v g r x a, w.use = .edge r x → w.thr.toNat ≤ v.toNat → s.waitRec r = some a → a.cr.join = 1 → a.cr.actor = false →
      ∃ t, answered (.answer v g) t ∧ Joined s t { a.cr with join := 0 } ∧ ∀ y ∈ t.cl.waiting, y.id ≠ r) ∧
    (∃ t, answered .full t ∧ t.cl = { s.cl with watches := s.cl.watches.map fun x =>
      if x.id = w.id then { w with refused := w.refused + 1, retryAt := some (s.dev.clk +
        (if 16 ≤ w.refused + 1 then 64 else min (2 ^ w.refused) 64) * 1500) } else x }) ∧
    (∀ c, ∃ t k, answered (.fault c) t ∧ k.cause = c ∧ k.tval = w.addr ∧ .kill k ∈ t.agenda ∧
      ∀ x ∈ t.cl.watches, x.id ≠ w.id)) ∧
  (∀ (s : State) (w : SchedWatch), s.schedWatch w.id = some w →
    (w.retryAt = none → exec (.watchRetry w.id) s = .next s) ∧
    (w.retryAt.isSome = true → s.served (homeOf w.addr) = false → s.lostDev (devOf (homeOf w.addr)) = false →
      let m := if w.refused < 16 then Msg.register w.addr w.thr (.sched s.home w.id)
        else Msg.readReq (watchReq (.sched s.home w.id)) w.addr ((s.cl.bound.map Binding.space).getD 0)
      ∃ t, exec (.watchRetry w.id) s = .next t ∧ Kept s t ∧
        t.cl.watches = s.cl.watches.map (fun x => if x.id = w.id then { w with retryAt := none } else x) ∧
        (devOf (homeOf w.addr) = s.dev.id → t.outbox = s.outbox ++ [m]) ∧
        (devOf (homeOf w.addr) ≠ s.dev.id → ∃ hdr port, t.outbox = s.outbox ++ [.nysil hdr port m]))) ∧
  (∀ (s : State) (q : Fin 4) (r : ContRec) (joined : Nat), s.assignable = some q → s.head q = some (r, joined) →
    s.cl.overflow = [] → ∃ t, exec .schedulerAssignment s = .next t ∧ t.mem = s.mem ∧
      (∀ p : Fin 4, t.cl.lists[p] = if p = q then s.cl.lists[p].tail else s.cl.lists[p]) ∧
      (r.resumable = false → r.wide = true → FiringStarted s t r ∧ ∀ c ∈ t.mates, c.status = .running ∧ c.pc = r.code) ∧
      (r.resumable = false → r.wide = false → s.idleCore = some s.core.num → (∀ c ∈ s.mates, c.num ≠ s.core.num) →
        FiringStarted s t r ∧ t.mates = s.mates ∧
        t.cl.nextFiring = if s.cl.nextFiring = 0xFFFFFFFF then 1 else s.cl.nextFiring + 1) ∧
      (r.resumable = true → t.agenda = s.agenda ++ [.resume r.image])) ∧
  (∀ s : State, s.assignable = none → exec .schedulerAssignment s = .next s) ∧
  (∀ (s : State) (q : Fin 4) (x : ContRec × Nat), s.ageDue = some (q, x) →
    ∃ t, exec .aging s = .next t ∧ Kept s t ∧ ∀ p : Fin 4, t.cl.lists[p] =
      if p = q then s.cl.lists[p].erase x else if p.val + 1 = q.val then s.cl.lists[p] ++ [(x.1, s.dev.clk)] else s.cl.lists[p]) ∧
  (∀ s : State, exec .quadReservation s =
    .next (if s.reserveDue then { s with cl := { s.cl with reserved := true } } else s))

/-- A firing that is asked to stop is saved at its boundary with all its state, and its record rejoins its list, or is held
for the debug agent; resumed, its core holds again all of it. Under a debug unlock the agent reads and writes the state of a
firing, on its core or saved; without one its accesses have no effect. Which firing is pre-empted for a head of width 4, and
that a resumed record joins however full its region is, is the model's choice (log 74); that an event which finds nothing to do
changes nothing is too (log 58). -/
def Obligations.PreemptionSaveAndResume : Prop :=
  (∀ s : State, s.core.task.wide = false →
    ((∀ c ∈ s.mates, c.num ≠ s.core.num) → exec (.preemptionRequest true s.core.num) s =
      .next (if s.core.status = .running then { s with core := { s.core with preempt := true } } else s)) ∧
    (s.preemptPick = none → exec (.preemptionRequest false) s = .next s) ∧
    (s.preemptPick = some s.core.num → exec (.preemptionRequest false) s =
      .next (if s.imageRoom then { s with core := { s.core with preempt := true } } else s))) ∧
  (∀ s : State, s.saveDue = true → s.core.task.wide = false →
    ∃ t, exec .contextSave s = .next t ∧ LeftIdle s t ∧ t.mem = s.mem ∧
      t.cl.images = s.cl.images ++ [{ id := s.cl.nextId, cores := [imageOf s.core], held := s.core.brk }] ∧
      (s.core.brk = none → Joined s t { s.core.task with resumable := true, image := s.cl.nextId }) ∧
      (s.core.brk ≠ none → t.cl.lists = s.cl.lists)) ∧
  (∀ c : Core, SavedAs c (imageOf c)) ∧
  (∀ s : State, (∀ c ∈ s.cores, c.status ≠ .stopped) → exec .contextSave s = .next s) ∧
  (∀ (s : State) (g : Image) (m : Core) (ms : List Core), s.cl.images.find? (fun x => x.id == g.id) = some g → g.cores = m :: ms →
    s.core.status = .stopped → s.core.task.resumable = true → s.core.task.image = g.id → s.core.preempt = false →
    s.core.task.wide = false → m.task.wide = false → (∀ c ∈ s.mates, c.task.image ≠ g.id) →
    ∃ t, exec (.resume g.id) s = .next t ∧ (m.far = [] →
      (m.prt.map PrtEntry.id).Nodup → (∀ e ∈ m.prt, e.id < s.cl.nextId) → Restored s t m ∧ t.core.num = s.core.num ∧ t.mates = s.mates ∧
      t.core.issueAt = s.dev.clk + max 8 (partN s.cl.part) ∧ ∀ x ∈ t.cl.images, x.id ≠ g.id)) ∧
  (∀ (s : State) (image : Nat), (∀ g ∈ s.cl.images, g.id ≠ image) → exec (.resume image) s = .next s) ∧
  (∀ (s : State) (g : Image) (m : Core) (ms : List Core), s.cl.images.find? (fun x => x.held.isSome) = some g → g.cores = m :: ms →
    ∃ t, exec .debugResume s = .next t ∧ Kept s t ∧ Joined s t { m.task with resumable := true, image := g.id } ∧
      ∀ x ∈ t.cl.images, x.id = g.id → x.held = none) ∧
  (∀ s : State, (∀ g ∈ s.cl.images, g.held = none) → exec .debugResume s = .next s) ∧
  (∀ (s : State) (r : DebugReg) (x : Word),
    (∀ a, s.dev.debug = false → exec (.debugResume (some a)) s = .next s) ∧
    (s.dev.debug = true → s.core.status ≠ .idle →
      exec (.debugResume (some (.read s.core.number s.core.num r))) s =
        .next { s with outbox := s.outbox ++ [.report [s.core.debugRead r]] } ∧
      ∃ t, exec (.debugResume (some (.write s.core.number s.core.num r x))) s = .next t ∧ t.core = s.core.debugWrite r x ∧
        t.mem = s.mem)) ∧
  (∀ (c : Core) (x : Word), (∀ k : Fin 32, (c.debugWrite (.n k) x).debugRead (.n k) = x) ∧
    (∀ k : Fin 8, (c.debugWrite (.m k) x).debugRead (.m k) = x) ∧ (c.debugWrite .pc x).debugRead .pc = x ∧
    (c.debugWrite .sp x).debugRead .sp = x ∧ (c.debugWrite (.n 0) x).pc = c.pc)

/-- What reaches the modelled home and its requesters: reads are served at their ordering point with the home's GEN, a lane
read with its lane's count and records,
registrations are answered, entered or refused, validations are confirmed or struck by R212, page requests get a ticket;
and replies settle the reads, slots, table entries and page requests that wait for them. How a lane read is answered is the
model's choice (log 12), and that an answer nobody waits for changes nothing (log 58). -/
def Obligations.HomeServesRequests : Prop :=
  (∀ (s : State) (r : ReadReq),
    let off := r.off.toNat
    let lo := off / 32 * 32
    (r.lane = none → NearServed s r.space off r.bytes → lo + 32 ≤ s.liveNear →
      exec (.readRequest none r) s = .next { s with outbox := s.outbox ++ [.readReply r.tag
        (.data s.cl.gen .g32 [(BitVec.ofNat 256 (Mem.nat s.mem lo 32), s.cl.poison.contains (lo / 64))])] }) ∧
    (∀ h, r.lane = some h → exec (.readRequest none r) s =
      .next { s with outbox := s.outbox ++ [.laneReply r.tag (s.lane h).1 (s.lane h).2] }) ∧
    (r.lane = none → off < 0x4000000 → 0x2000000 < off + r.bytes →
      exec (.readRequest none r) s = .next { s with outbox := s.outbox ++ [.readReply r.tag (.fault 0x09)] }) ∧
    (∀ h, s.badHeader h = true → exec (.readRequest (some h) r) s =
      .next { s with cl := { s.cl with counts := addCount .nysilDropped 1 s.cl.counts } })) ∧
  (∀ (s : State) (f : FarRead), s.core.far.find? (fun g => g.req == f.req && g.sent) = some f →
    (∀ g ∈ s.core.far, g.sent = true) → s.readsHere (homeOf f.addr) = false →
    (∀ g grain ds,
      let d := ds.getD (f.addr.toNat / 32 % (grainBytes grain / 32)) (0, false)
      ∃ t, exec (.readResponse none f.req (.data g grain ds)) s = .next t ∧ t.mates = s.mates ∧ t.mem = s.mem ∧
        t.core.far = s.core.far.filter (fun x => x.id != f.id) ∧
        (d.2 = false → Settled s.core t.core f.id (.arrived (sectorValue f d.1)) ∧
          OwedWritten s.core t.core f.id (sectorValue f d.1)) ∧
        (d.2 = true → Settled s.core t.core f.id (.faulted { id := f.id, cause := 0x0C, tval := f.addr }) ∧
          t.core.regs = s.core.regs)) ∧
    (∀ c : Byte, c ≠ 0x08 → ∃ t, exec (.readResponse none f.req (.fault c)) s = .next t ∧ t.mates = s.mates ∧ t.mem = s.mem ∧
      t.core.far = s.core.far.filter (fun x => x.id != f.id) ∧
      Settled s.core t.core f.id (.faulted { id := f.id, cause := c, tval := f.addr }) ∧ t.core.regs = s.core.regs)) ∧
  (∀ (s : State) (id : Nat) (r : Reply), (∀ c ∈ s.cores, ∀ f ∈ c.far, f.req ≠ id) →
    ∃ t, exec (.readResponse none id r) s = .next t ∧ Kept s t ∧ (id ∉ s.cl.lateReads → t.cl = s.cl) ∧
      (id ∈ s.cl.lateReads → t.cl = { s.cl with
        lateReads := s.cl.lateReads.filter fun x => x != id, counts := addCount .lateReplies 1 s.cl.counts })) ∧
  (∀ (s : State) (sp : BitVec 16) (off : BitVec 40) (thr : Word) (h : BitVec 17) (q : BitVec 3) (c : BitVec 2) (k : Fin 16)
    (tag : BitVec 4), NearServed s sp off.toNat 8 → h ≠ s.home → devOf h = s.dev.id →
    let who := Requester.slot h q c k tag
    (∀ x ∈ s.cl.sluice ++ s.cl.pendingRegs, x.who ≠ who) →
    let told (e : WatchEnd) (sluice : List SluiceEntry) : Prop := ∃ t, exec (.watchRegistration sp off thr who) s = .next t ∧
      Kept s t ∧ t.outbox = s.outbox ++ [.watchEnd who e] ∧ t.cl.sluice = sluice
    let v := Mem.word s.mem off.toNat
    (thr.toNat ≤ v.toNat → told (.answer v s.cl.gen) s.cl.sluice) ∧
    (v.toNat < thr.toNat → s.cl.sluice.length < 4096 →
      told .armed (s.cl.sluice ++ [{ off := off, space := sp, thr := thr, who := who }])) ∧
    (v.toNat < thr.toNat → 4096 ≤ s.cl.sluice.length → told .full s.cl.sluice)) ∧
  (∀ (s : State) (k : Fin 16) (e : WatchEnd),
    let w := s.core.slots[k]
    (w.st = .sent ∨ w.st = .armed) → s.core.wait = [] →
    ∃ t, exec (.watchAnswer s.core.num k w.tag e) s = .next t ∧ t.core.regs = s.core.regs ∧ t.mates = s.mates ∧ t.mem = s.mem ∧
      (∀ j : Fin 16, j ≠ k → t.core.slots[j] = s.core.slots[j]) ∧
      t.core.slots[k] = (match e with
        | .armed => { w with st := .armed }
        | .answer v g => { w with st := .fired, value := v, gen := g }
        | .full => { w with st := .full }
        | .fault c => { w with st := .fault, cause := c }
        | .lost => { w with st := .lost })) ∧
  (∀ (s : State) (core : BitVec 2) (k : Fin 16) (tag : BitVec 4) (e : WatchEnd),
    (∀ c ∈ s.cores, c.num = core → c.slots[k].tag ≠ tag) → exec (.watchAnswer core k tag e) s = .next s) ∧
  (∀ (s : State) (who : Requester), exec (.watchCancel who) s = .next { s with cl := { s.cl with
    sluice := s.cl.sluice.filter fun e => e.who != who, pendingRegs := s.cl.pendingRegs.filter fun e => e.who != who } }) ∧
  (∀ (s : State) (sp : BitVec 16) (value : Word) (g : BitVec 48), ∃ t,
    exec (.tlbGenerationAnswer sp (.answer value g)) s = .next t ∧ Kept s t ∧
    (∀ e, e ∈ t.cl.tlb ↔ e ∈ s.cl.tlb ∧ ¬(e.space = sp ∧ e.gen.toNat < value.toNat)) ∧
    (∀ x ∈ t.cl.tlbGens, x.1 = sp → x.2 = value)) ∧
  (∀ (s : State) (sp : BitVec 16) (off : BitVec 40) (fill : BitVec 48) (tag : Nat), NearServed s sp off.toNat 32 →
    let age := (s.cl.gen - fill).toNat
    let delta := (s.nearTag off.toNat - fill.setWidth 16).toNat
    ∃ t, exec (.validationRequest sp off fill tag) s = .next t ∧ Kept s t ∧
      t.outbox = s.outbox ++ [.validationAnswer tag (decide (2 ^ 15 ≤ age) || decide (delta < 2 ^ 15))]) ∧
  (∀ (s : State) (id : Nat) (struck : Bool), (∃ e ∈ s.core.prt, e.id = id ∧ e.struck = false) →
    let hit (e : PrtEntry) : Bool := e.id == id && !e.struck
    ∃ t, exec (.validationAnswer none id struck) s = .next t ∧ t.mates = s.mates ∧ t.mem = s.mem ∧
      t.core = { s.core with prt := if struck then s.core.prt.map fun e => if hit e then { e with struck := true } else e
        else s.core.prt.filter fun e => !hit e }) ∧
  (∀ (s : State) (sp : BitVec 16) (addr : Word) (tag : Nat), tag < 2 ^ 32 → homeOf addr ≠ s.service →
    (offOf addr).toNat < 0x2000000 →
    exec (.pageRequest sp addr tag) s = .next { s with outbox := s.outbox ++ [.pageReply tag
      (if s.nearOk sp (offOf addr).toNat 1 then .ticket s.pageWordAt s.cl.pageWord else .fault 0x09)] }) ∧
  (∀ (s : State) (id : Nat) (k : Fin 16) (tag : BitVec 4) (x : Word) (r : PageReply),
    s.core.pgreqs.find? (fun y => y.2.1 == k && y.2.2.1 == tag) = some (id, k, tag, x) → s.core.wait = [] →
    ∃ t, exec (.pageRequestReply s.core.num k tag r) s = .next t ∧ t.mates = s.mates ∧
      Settled s.core t.core id (.arrived (match r with
        | .ticket _ thr => thr
        | .fault _ => 0
        | .lost => 0)) ∧
      t.core.pgreqs = s.core.pgreqs.filter (fun y => y.1 != id) ∧
      (s.core.slots[k].page = some id → t.core.slots[k].page = none ∧ (match r with
        | .ticket word thr => t.core.slots[k].addr = word ∧ t.core.slots[k].thr = thr
        | .fault c => t.core.slots[k].st = .fault ∧ t.core.slots[k].cause = c
        | .lost => t.core.slots[k].st = .lost)))

/-- The home's pages: a change of a table entry stands in its carve-out and advances its space's generation, whose word in
home 127's memory takes it; a migration goes through copy, recopy and final pass, whose page leaves the caches and whose leaf
becomes not resident; a page that comes in gets its frame, its mode and its leaf, its bytes where its tag verifies and poison
where it does not. Where the generation word stands, that a final pass waits for an access that was decided at issue, and that
an event which names nothing present changes nothing is the model's choice (logs 68, 18 and 58). -/
def Obligations.PagesComeAndGo : Prop :=
  (∀ (s : State) (sp : BitVec 16) (d : SpaceDesc), s.dev.spaces.find? (fun x => x.space == sp) = some d →
    Inv s →
    let advanced (t : State) : Prop :=
      .tlbGenerationAnswer sp (.answer (d.gen + 1) (s.dev.svc.gen + 1)) ∈ t.agenda ∧ CoresKept s t
    (∀ pa pte, inCarveOut pa 8 = true → pa % 8 = 0 → s.cl.pendingRegs = [] → s.cl.waiting = [] →
      ∃ t u, exec (.pageTableChange (.entry sp pa pte)) s = .next t ∧ advanced t ∧ Stamped u t.mem (d.gen + 1) ∧
        Mem.word u (hbmKey pa) = pte ∧
        ∀ a : Nat, a < hbmKey pa ∨ hbmKey pa + 8 ≤ a → Mem.read u a = Mem.read s.mem a) ∧
    (∀ pa pte, inCarveOut pa 8 = false ∨ pa % 8 ≠ 0 → exec (.pageTableChange (.entry sp pa pte)) s = .next s) ∧
    (∀ frame, ∃ t, exec (.pageTableChange (.freeFrame sp frame)) s = .next t ∧ advanced t ∧ Stamped s.mem t.mem (d.gen + 1) ∧
      ∀ x, x ∈ t.cl.modes ↔ x ∈ s.cl.modes ∧ x.1 ≠ frame / 4096) ∧
    (∀ w0 w1 w2 w3, s.frozen (w2.extractLsb' 0 6) = false → s.frozen d.slot = false →
      ∃ t e, exec (.pageTableChange (.descriptor sp w0 w1 w2 w3)) s = .next t ∧ advanced t ∧
        Stamped s.mem t.mem (d.gen + 1) ∧
        t.dev.spaces.find? (fun x => x.space == sp) = some e ∧ e.root = w0.extractLsb' 0 44 ∧ e.slot = w2.extractLsb' 0 6 ∧
        e.slotGen = w2.extractLsb' 16 16 ∧ e.gen = d.gen + 1) ∧
    (∀ w0 w1 w2 w3, s.frozen (w2.extractLsb' 0 6) = true ∨ s.frozen d.slot = true →
      exec (.pageTableChange (.descriptor sp w0 w1 w2 w3)) s = .next s)) ∧
  (∀ (s : State) (sp : BitVec 16) (d : SpaceDesc) (page : Word) (place : Nat) (leaf : Word) (tier : BitVec 2)
      (handle : BitVec 44), s.dev.spaces.find? (fun x => x.space == sp) = some d → page &&& 0xFFF = 0 → Inv s → s.leafAt sp page = some (place, leaf) → leaf.getLsbD 0 = true → leaf.getLsbD 54 = false →
    let lines := (List.range 64).map fun k => (offOf page).toNat + 64 * k
    let run (step : MigStep) (t : State) : Prop := exec (.migration sp page step tier handle) s = .next t
    (s.cl.mig = none → (s.checkLines sp .load lines).2 = none → ∃ t, run .copy t ∧ CoresKept s t ∧
      t.cl.mig.map (fun m => (m.space, m.page, m.passes, m.ready, m.blocked)) = some (sp, page, 0, false, none)) ∧
    (∀ m, s.cl.mig = some m → m.space = sp → m.page = page → m.blocked = none →
      let dirty := s.dirtyGrains m (grainBytes (pteGrain leaf))
      (m.ready = false → dirty ≤ 8 → run .recopy { s with cl := { s.cl with
        mig := some { m with g0 := s.cl.gen, passes := m.passes + 1, ready := true } } }) ∧
      (m.ready = false → 8 < dirty → m.passes < 3 → run .recopy { s with cl := { s.cl with
        mig := some { m with g0 := s.cl.gen, passes := m.passes + 1 } } }) ∧
      (m.ready = false → 8 < dirty → 3 ≤ m.passes → run .recopy { s with cl := { s.cl with
        mig := none, counts := addCount .abandonedMigrations 1 s.cl.counts } }) ∧
      (m.ready = true → (tier = 1 ∨ tier = 2) → s.pageInUse sp page = false → (s.checkLines sp .load lines).2 = none →
        (s.pageKey sp page).isSome = true →
        ∃ t u, run .final t ∧ CoresKept s t ∧ Stamped u t.mem (d.gen + 1) ∧
          Mem.word u (hbmKey place) = BitVec.ofNat 64 (handle.toNat * 2 ^ 10 + tier.toNat * 2) ∧
          t.cl.mig = some { m with blocked := some s.dev.clk } ∧
          (∀ n ∈ t.cl.nc, n.space = sp → n.line &&& ~~~0xFFF ≠ page) ∧
          (∀ n ∈ t.cl.llc, n.space = sp → n.line &&& ~~~0xFFF ≠ page) ∧
          ∃ x, t.dev.trailers = s.dev.trailers ++ [x] ∧ x.space = sp ∧ x.page = page ∧ x.handle = handle.setWidth 64))) ∧
  (∀ s : State, exec .migrationBlockEnd s =
    .next (if s.cl.mig.any (fun m => m.blocked.any fun c => decide (c + 200 ≤ s.dev.clk)) then { s with cl := { s.cl with mig := none } } else s)) ∧
  (∀ (s : State) (sp : BitVec 16) (e : SpaceDesc) (page : Word) (frame place : Nat) (leaf : Word) (x : Trailer) (d : PageData),
    s.dev.spaces.find? (fun y => y.space == sp) = some e → page &&& 0xFFF = 0 → Inv s → s.dev.trailers.find? (fun t => t.space == sp && t.page == page) = some x →
    s.leafAt sp page = some (place, leaf) → frame % 4096 = 0 → s.base ≤ frame → frame + 4096 ≤ s.base + reservedTop →
    s.frameMode frame = none → (place + 8 ≤ frame ∨ frame + 4096 ≤ place) → s.cl.pendingRegs = [] → s.cl.waiting = [] →
    s.cl.sluice = [] →
    ∃ t u, exec (.pageIn sp page frame d) s = .next t ∧ CoresKept s t ∧ t.frameMode frame = some (pteMode x.leaf) ∧
      Stamped u t.mem (e.gen + 1) ∧ Mem.word u (hbmKey place) = x.leaf ||| BitVec.ofNat 64 (frame / 4096 * 2 ^ 10) ||| 1 ∧
      t.dev.trailers = s.dev.trailers.filter (fun y => y != x) ∧
      (∀ bs, pteMode x.leaf = 0 → s.pagePlain x d = some bs → bs.length = 4096 → Mem.bytes u (hbmKey frame) 4096 = bs) ∧
      (s.pagePlain x d = none → ∀ k < 64, frame / 64 + k ∈ t.cl.hbmPoison)) ∧
  (∀ (s : State) (sp : BitVec 16) (addr : Word) (frame : Nat) (d : PageData),
    s.dev.trailers.find? (fun t => t.space == sp && t.page == addr &&& ~~~0xFFF) = none →
    exec (.pageIn sp addr frame d) s = .next s) ∧
  (∀ (s : State) (drive : Nat), exec (.driveFailure drive) s =
    .next { s with dev := { s.dev with badDrives := drive :: s.dev.badDrives } })

/-- The fabric from this device's side: a retried request goes out again after 2 µs, an unanswered one after 8 µs; a message
under a good header is heard, and a probe answered; a peer whose window has run out is lost, with all that waits for it, and
comes back under a new epoch; and a read of host memory ends as its PCIe completion says, or at its timeout. How a header's
tag is judged, which devices a launch reaches, and that an event which names nothing outstanding changes nothing is the model's
choice (logs 33, 52 and 58). -/
def Obligations.FabricSteps : Prop :=
  (∀ (s : State) (h : NysilHdr) (r : OutReq), s.outReq r.id = some r →
    let sent : OutReq := { r with sent := s.dev.clk, retryAt := none }
    let again (i : Instr) : Prop := ∃ t hdr port, exec i s = .next t ∧ Kept s t ∧
      t.outbox = s.outbox ++ [.nysil hdr port (.again r.id)] ∧ hdr.dst = r.dev ∧ hdr.again = true ∧
      t.dev.reqs = s.dev.reqs.map fun x => if x.id = r.id then sent else x
    (s.badHeader h = true → exec (.retry h r.id) s =
      .next { s with cl := { s.cl with counts := addCount .nysilDropped 1 s.cl.counts } }) ∧
    (s.badHeader h = false → s.lostDev h.src = true → exec (.retry h r.id) s = .next s) ∧
    (s.badHeader h = false → s.lostDev h.src = false → ∃ t, exec (.retry h r.id) s = .next t ∧ Kept s t ∧
      t.outbox = s.outbox ∧ t.dev.reqs = s.dev.reqs.map fun x =>
        if x.id = r.id ∧ r.dev = h.src then { r with retryAt := some (s.dev.clk + 3000) } else x) ∧
    ((∃ c, r.retryAt = some c ∧ c ≤ s.dev.clk) → again (.repeatAfterRetry r.id)) ∧
    ((∀ c, r.retryAt = some c → s.dev.clk < c) → exec (.repeatAfterRetry r.id) s = .next s) ∧
    (isPullReq r.id = false → r.oneWay = false → r.sent + 12000 ≤ s.dev.clk → again (.requestRepeat r.id)) ∧
    (s.dev.clk < r.sent + 12000 → exec (.requestRepeat r.id) s = .next s)) ∧
  (∀ (s : State) (h : NysilHdr) (x y : Session),
    (s.badHeader h = true → ∀ i ∈ [Instr.probe h, .probeAnswer h], exec i s =
      .next { s with cl := { s.cl with counts := addCount .nysilDropped 1 s.cl.counts } }) ∧
    (s.badHeader h = false → s.lostDev h.src = true → ∀ i ∈ [Instr.probe h, .probeAnswer h], exec i s = .next s) ∧
    (s.badHeader h = false → s.lostDev h.src = false → h.src ≠ s.dev.id → s.session h.src h.slot = some x → x.cached = true →
      x.verifies h = true → x.receive h.seqNo.toNat = some y →
      let heard (t : State) : Prop := Kept s t ∧
        t.peer h.src = { dev := h.src, lastMsg := s.dev.clk, probed := s.dev.clk, lost := false }
      (∃ t hdr port, exec (.probe h) s = .next t ∧ heard t ∧ t.outbox = s.outbox ++ [.nysil hdr port (.probeAnswer h.src)]) ∧
      ∃ t, exec (.probeAnswer h) s = .next t ∧ heard t ∧ t.outbox = s.outbox)) ∧
  (∀ (s : State) (d : BitVec 10),
    ((∃ r ∈ s.dev.reqs, r.dev = d ∧ s.probeDue r = true) → ∃ t hdr port, exec (.probeTimer d) s = .next t ∧ Kept s t ∧
      t.outbox = s.outbox ++ [.nysil hdr port (.probe d)] ∧ t.peer d = { s.peer d with probed := s.dev.clk }) ∧
    ((∀ r ∈ s.dev.reqs, r.dev = d → s.probeDue r = false) → exec (.probeTimer d) s = .next s)) ∧
  (∀ (s : State) (d : BitVec 10),
    let lost (t : State) : Prop := Kept s t ∧ t.lostDev d = true ∧ (∀ r ∈ t.dev.reqs, r.dev ≠ d) ∧
      (∀ e ∈ t.cl.sluice, whoDev e.who ≠ d) ∧
      (∀ c ∈ s.cores, ∀ f ∈ c.far, f.sent = true → devAt f.addr = d → .readResponse none f.req .lost ∈ t.agenda) ∧
      (∀ l ∈ s.dev.launches, l.live = true → l.onDev d = true → ∃ k, .kill k ∈ t.agenda ∧ k.graph = l.graph ∧ k.cause = 0x14)
    let cancelled (t : State) : Prop := t.member d = false ∧ ∀ l ∈ s.dev.launches, l.live = true → d = s.dev.id ∨ l.onDev d = true →
      ∃ k, .kill k ∈ t.agenda ∧ k.graph = l.graph ∧ k.cause = 0x18 ∧ k.origin = 4
    ((∃ r ∈ s.dev.reqs, r.dev = d ∧ s.lossDue r = true) → ∃ t, exec (.peerLoss d) s = .next t ∧ lost t) ∧
    ((∀ r ∈ s.dev.reqs, r.dev = d → s.lossDue r = false) → (∀ x ∈ s.dev.sessions, x.dev = d → x.sinceFlip < 2 ^ 48) →
      exec (.peerLoss d) s = .next s) ∧
    (s.member d = true → d ≠ s.dev.id → ∃ t, exec (.memberRemoval d) s = .next t ∧ lost t ∧ cancelled t) ∧
    (s.member d = true → d = s.dev.id → ∃ t, exec (.memberRemoval d) s = .next t ∧ Kept s t ∧ cancelled t) ∧
    (s.member d = false → exec (.memberRemoval d) s = .next s) ∧
    (∀ epoch, s.lostDev d = true ∨ s.member d = false → ∃ t, exec (.peerReadmit d epoch) s = .next t ∧ Kept s t ∧
      t.lostDev d = false ∧ t.member d = true ∧ (t.memberEntry d).map (fun m => m.epoch) = some epoch ∧
      ∀ x ∈ t.dev.sessions, x.dev ≠ d) ∧
    (∀ epoch, s.lostDev d = false → s.member d = true → exec (.peerReadmit d epoch) s = .next s)) ∧
  (∀ s : State, exec .ualinkRequest s = .next { s with
    outbox := s.outbox ++ [.uaError], cl := { s.cl with counts := addCount .uaRejected 1 s.cl.counts } }) ∧
  (∀ (s : State) (f : FarRead), s.core.far.find? (fun g => g.req == f.req && g.sent) = some f →
    (∀ g ∈ s.core.far, g.sent = true) → f.req < 2 ^ 67 → s.readsHere (homeOf f.addr) = false → s.pcieOpen f.req = true →
    let faults (i : Instr) (c : Byte) : Prop := ∃ t, exec i s = .next t ∧ t.mates = s.mates ∧ t.mem = s.mem ∧
      t.core.far = s.core.far.filter (fun x => x.id != f.id) ∧
      Settled s.core t.core f.id (.faulted { id := f.id, cause := c, tval := f.addr }) ∧ t.core.regs = s.core.regs
    (∀ l : Line, f.addr.toNat % 32 + f.w ≤ 32 →
      let v := extend f.sext f.w (l.setWidth 64)
      ∃ t, exec (.pcieCompletion f.req (.data l)) s = .next t ∧ t.mates = s.mates ∧ t.mem = s.mem ∧
        Settled s.core t.core f.id (.arrived v) ∧ OwedWritten s.core t.core f.id v) ∧
    faults (.pcieCompletion f.req .abort) 0x09 ∧ faults (.pcieCompletion f.req .poisoned) 0x0C ∧
    ((∃ x ∈ s.dev.pcie, x.1 = f.req ∧ x.2 ≤ s.dev.clk) → faults (.completionTimeout f.req) 0x14) ∧
    ((∀ x ∈ s.dev.pcie, x.1 = f.req → s.dev.clk < x.2) → exec (.completionTimeout f.req) s = .next s))

/-- The command sequencer: hearths are kindled on the lowest free slot and quenched, their keys gone at once; session keys
rotate, a challenge is answered from its slot as it stood, certificates are held while one is pending, interfaces go from
unlocked to locked to running, and a link that fails its check leaves the package inert. That a command from where it is not
accepted has no effect, that QUENCH completes with step 5, how many challenges may be pending, that a session's first key counts
as its last flip, and that an event which names nothing present changes nothing is the model's choice (logs 41, 42, 44, 45 and
58). -/
def Obligations.KeysAndTrust : Prop :=
  let answers (s : State) (i : Instr) (code : Byte) : Prop := exec i s = .next { s with outbox := s.outbox ++ [.status code] }
  (∀ (s : State) (test : Bool) (clusters : BitVec 72),
    (s.dev.debug = true → answers s (.kindle test clusters) 2) ∧
    (s.dev.debug = false → (∀ k : BitVec 6, 1 ≤ k.toNat → k.toNat ≤ 62 → (s.slot k).st ≠ .free) →
      answers s (.kindle test clusters) 1) ∧
    (∀ k : BitVec 6, s.dev.debug = false → 1 ≤ k.toNat → k.toNat ≤ 62 → (s.slot k).st = .free →
      (∀ j : BitVec 6, 1 ≤ j.toNat → j.toNat < k.toNat → (s.slot j).st ≠ .free) →
      ∃ t, exec (.kindle test clusters) s = .next t ∧ t.outbox = s.outbox ++ [.status 0] ∧ t.core.regs = s.core.regs ∧
        (t.slot k).st = .kindled ∧ (t.slot k).gen = (s.slot k).gen + 1 ∧ (t.slot k).clusters = clusters ∧
        (t.slot k).test = test ∧ (t.slot k).kenc.isSome = true ∧ (t.slot k).kmac.isSome = true ∧
        t.interface k = .configUnlocked ∧ t.dev.drawn = s.dev.drawn + 1 ∧ (∀ j, j ≠ k → t.slot j = s.slot j)) ∧
    (∀ src, src ≠ .pf0 → src ≠ .stokers → exec (.kindle test clusters src) s = .next s)) ∧
  (∀ (s : State) (k : BitVec 6) (who : QuenchBy),
    let quenched (t : State) (who : QuenchBy) : Prop := CoresKept s t ∧ (t.slot k).st = .quenching ∧ (t.slot k).kenc = none ∧
      (t.slot k).kmac = none ∧ (∀ e ∈ t.cl.tlb, e.slot ≠ k) ∧ (∀ n ∈ t.cl.nc, n.space ∉ s.spacesOf k) ∧
      (∀ x ∈ t.dev.sessions, x.slot ≠ k) ∧ t.mem = s.mem ∧ t.outbox.getLast? = some (.status 0) ∧ (who ≠ .interface → t.interface k = .error) ∧
      ∀ l ∈ s.dev.launches, l.live = true → l.space ∈ s.spacesOf k → ∃ r, .kill r ∈ t.agenda ∧ r.graph = l.graph
    ((s.slot k).st ≠ .kindled → answers s (.quench k who) 5 ∧ answers s (.stopInterfaceRequest k) 5) ∧
    ((s.slot k).st = .kindled → (∃ t, exec (.quench k who) s = .next t ∧ quenched t who) ∧
      ∃ t, exec (.stopInterfaceRequest k) s = .next t ∧ quenched t .interface) ∧
    ((s.slot k).st ≠ .quenching ∨ (∃ l ∈ s.dev.launches, l.live = true ∧ l.space ∈ s.spacesOf k) →
      exec (.quenchRelease k) s = .next s) ∧
    ((s.slot k).st = .quenching → (∀ l ∈ s.dev.launches, l.live = true → l.space ∉ s.spacesOf k) →
      ∃ t, exec (.quenchRelease k) s = .next t ∧ t.core.regs = s.core.regs ∧
        (t.slot k).st = (if (s.slot k).gen = 0xFFFF then .retired else .free) ∧
        (∀ x ∈ t.dev.trailers, x.space ∉ s.spacesOf k) ∧ (∀ d ∈ t.dev.spaces, d.slot = k → d.valid = false) ∧
        ((∀ r ∈ s.dev.reports, r ≠ k) → t.outbox = s.outbox)) ∧
    ((s.slot k).st = .kindled → s.interface k = .configUnlocked → ∃ t, exec (.lockInterfaceRequest k) s = .next t ∧
      Kept s t ∧ t.interface k = .configLocked) ∧
    ((s.slot k).st = .kindled → s.interface k = .configLocked → ∃ t, exec (.startInterfaceRequest k) s = .next t ∧
      Kept s t ∧ t.interface k = .run) ∧
    ((s.slot k).st ≠ .kindled ∨ s.interface k ≠ .configUnlocked → exec (.lockInterfaceRequest k) s = .next s) ∧
    ((s.slot k).st ≠ .kindled ∨ s.interface k ≠ .configLocked → exec (.startInterfaceRequest k) s = .next s) ∧
    ((s.slot k).st = .quenching → exec (.deviceInterfaceReport k) s =
      .next { s with dev := { s.dev with reports := s.dev.reports ++ [k] } }) ∧
    ((s.slot k).st ≠ .quenching → exec (.deviceInterfaceReport k) s = .next { s with outbox := s.outbox ++ [.report
      ([k.setWidth 64, (s.slot k).gen.setWidth 64, (s.slot k).clusters.setWidth 64,
        ((s.slot k).clusters.extractLsb' 64 8).setWidth 64, (match s.interface k with
          | .configUnlocked => 0 | .configLocked => 1 | .run => 2 | .error => 3)] ++ Config.mmio k.toNat)] })) ∧
  (∀ s : State, answers s (.debugUnlock false) 4 ∧
    (∀ d w, d ≠ s.dev.id ∨ w ≠ Config.fuseSerial → answers s (.debugUnlock true (some (d, w))) 4) ∧
    (∀ ok names src, src ≠ .pf0 → exec (.debugUnlock ok names src) s = .next s) ∧
    ((∃ k : BitVec 6, 1 ≤ k.toNat ∧ k.toNat ≤ 62 ∧ ((s.slot k).st = .kindled ∨ (s.slot k).st = .quenching)) →
      answers s (.debugUnlock true) 3) ∧
    ((∀ k : BitVec 6, 1 ≤ k.toNat → k.toNat ≤ 62 → (s.slot k).st ≠ .kindled ∧ (s.slot k).st ≠ .quenching) →
      ∀ names ∈ [none, some (s.dev.id, Config.fuseSerial)], exec (.debugUnlock true names) s =
        .next { s with dev := { s.dev with debug := true }, outbox := s.outbox ++ [.status 0] })) ∧
  (∀ (s : State) (d : BitVec 10) (k : BitVec 6) (phase : Bool) (key : BitVec 512),
    let now : Session := (s.session d k).getD (Session.fresh s.dev.id d k)
    (now.key0.isSome = true → now.key1.isSome = true → answers s (.nysilInstall d k phase key) 5) ∧
    (now.key0 = none ∨ now.key1 = none → ∃ t x, exec (.nysilInstall d k phase key) s = .next t ∧ Kept s t ∧
      t.session d k = some x ∧ x.key phase = some key ∧ x.key (!phase) = now.key (!phase) ∧
      t.outbox = s.outbox ++ [.status 0]) ∧
    (∃ t, exec (.nysilErase d k phase) s = .next t ∧ Kept s t ∧ t.outbox = s.outbox ++ [.status 0] ∧
      ∀ x, t.session d k = some x → x.key phase = none) ∧
    (∀ x, s.session d k = some x →
      (x.key (!x.phase) = none → x.erased = true → ∃ t y, exec (.keyRotation d k (.install key)) s = .next t ∧ Kept s t ∧
        t.session d k = some y ∧ y.key (!x.phase) = some key ∧ y.phase = x.phase ∧ y.key x.phase = x.key x.phase ∧
        t.outbox = s.outbox ++ [.keyAck d k]) ∧
      (∀ secret, exec (.keyRotation d k (.agreed secret)) s = exec (.keyRotation d k (.install (agreedKey secret))) s) ∧
      (s.rotateDue x = true → ∃ t, exec (.keyRotation d k .wanted) s = .next t ∧ Kept s t ∧
        t.outbox = s.outbox ++ [.rotate d k] ∧ t.session d k = some { x with asked := true }) ∧
      (s.rotateDue x = false → exec (.keyRotation d k .wanted) s = .next s) ∧
      ((x.key (!x.phase)).isSome = true ∨ x.erased = false → exec (.keyRotation d k (.install key)) s = .next s) ∧
      ((x.key (!x.phase)).isSome = true → x.erased = true → ∃ t y, exec (.keyRotation d k .acknowledged) s = .next t ∧
        Kept s t ∧ t.session d k = some y ∧ y.phase = (!x.phase) ∧ y.flipAt = s.dev.clk ∧ y.erased = false ∧ y.sinceFlip = 0 ∧
        y.key0 = x.key0 ∧ y.key1 = x.key1) ∧
      (x.erased = false → x.flipAt + 300000 ≤ s.dev.clk → ∃ t y, exec (.oldPhaseErase d k) s = .next t ∧ Kept s t ∧
        t.session d k = some y ∧ y.key (!x.phase) = none ∧ y.key x.phase = x.key x.phase ∧ y.erased = true) ∧
      (x.erased = true ∨ s.dev.clk < x.flipAt + 300000 → exec (.oldPhaseErase d k) s = .next s) ∧
      ((s.dev.sessions.filter Session.cached).length < 4096 → ∃ t, exec (.sessionContextFetch d k) s = .next t ∧ Kept s t ∧
        t.session d k = some { x with cached := true })) ∧
    (s.session d k = none → exec (.sessionContextFetch d k) s = .next s)) ∧
  (∀ (s : State) (stream : Fin 64) (set1 : Bool) (key : BitVec 256),
    exec (.ideKey stream set1 key) s = .next { s with
      dev := { s.dev with ide := (stream, set1, key) :: s.dev.ide.filter fun x => !(x.1 == stream && x.2.1 == set1) }
      outbox := s.outbox ++ [.status 0] } ∧
    (s.ideKeyed stream set1 = true → exec (.ideKey stream set1 key .go) s = .next { s with
      dev := { s.dev with ideOn := (stream, set1) :: s.dev.ideOn.filter fun x => x.1 != stream }
      outbox := s.outbox ++ [.status 0] }) ∧
    (s.ideKeyed stream set1 = false →
      exec (.ideKey stream set1 key .go) s = .next { s with outbox := s.outbox ++ [.ideError stream] }) ∧
    exec (.ideKey stream set1 key .stop) s = .next { s with
      dev := { s.dev with ideOn := s.dev.ideOn.filter fun x => !(x.1 == stream && x.2 == set1) }
      outbox := s.outbox ++ [.status 0] }) ∧
  (∀ (s : State) (k : Fin 8) (cert : List Byte),
    answers s (.certWrite 0 cert) 6 ∧
    (k ≠ 0 → s.challenged k = true → exec (.certWrite k cert) s = .next { s with dev := { s.dev with
      heldCerts := s.dev.heldCerts ++ [{ slot := k, cert := cert }] } }) ∧
    (k ≠ 0 → s.challenged k = false → exec (.certWrite k cert) s = .next { s with
      dev := { s.dev with certs := s.dev.certs.set k cert }, outbox := s.outbox ++ [.status 0] }) ∧
    exec (.challenge k) s = .next { s with
      dev := { s.dev with challenges := s.dev.challenges ++ [(k, s.dev.certs[k])] }, agenda := s.agenda ++ [.challenge k true] } ∧
    (s.challenged k = false → exec (.challengeTimeout k) s = .next s ∧ exec (.challenge k true) s = .next s) ∧
    (∀ c, s.dev.challenges.find? (fun x => x.1 == k) = some (k, c) → (∀ h ∈ s.dev.heldCerts, h.slot ≠ k) →
      let ended : Device := { s.dev with challenges := s.dev.challenges.eraseP fun x => x.1 == k }
      exec (.challengeTimeout k) s = .next { s with dev := ended, agenda := s.agenda.erase (.challenge k true) } ∧
      exec (.challenge k true) s = .next { s with dev := ended, outbox := s.outbox ++ [.challengeAnswer k c] }) ∧
    (∀ c, s.dev.challenges = [(k, c)] → s.dev.heldCerts = [{ slot := k, cert := cert }] →
      ∃ t, exec (.challenge k true) s = .next t ∧ Kept s t ∧ t.dev.certs[k] = cert ∧ t.dev.heldCerts = [] ∧
        t.dev.challenges = [] ∧ t.outbox = s.outbox ++ [.challengeAnswer k c, .status 0])) ∧
  (∀ (s : State) (idx : Byte), ∃ ws : List Word, exec (.getMeasurements idx) s = .next { s with outbox := s.outbox ++ [.report ws] } ∧
    (1 ≤ idx.toNat → idx.toNat ≤ 5 → ws.length = 5 ∧ ws.head? = some (idx.setWidth 64)) ∧
    (idx = 6 → ws = [6, if s.dev.debug then 1 else 0]) ∧ (idx = 0 ∨ 7 ≤ idx.toNat → ws = [])) ∧
  (∀ (s : State) (a b : Fin 9),
    let rest := s.dev.linksUp.filter fun x => x != (a, b)
    let up : State := { s with dev := { s.dev with linksUp := (a, b) :: rest } }
    (∀ atBoot, exec (.linkTraining a b true atBoot) s = .next up) ∧
    (∀ p ok atBoot, p.nonceLow.length = 32 → p.nonceHigh.length = 32 → p.macLow = linkMac a b p → p.macHigh = linkMac a b p →
      exec (.linkTraining a b ok atBoot (some p)) s = .next up) ∧
    (∀ p ok, p.macLow ≠ linkMac a b p ∨ p.macHigh ≠ linkMac a b p →
      exec (.linkTraining a b ok true (some p)) s = exec (.linkTraining a b false true) s) ∧
    exec (.linkTraining a b false true) s = .next { s with dev := { s.dev with
      linksUp := rest, bootLog := s.dev.bootLog ++ [(a, b)], inert := true } } ∧
    ∃ t, exec (.linkTraining a b false false) s = .next t ∧ t.dev.inert = true ∧ t.dev.members = [] ∧
      (a, b) ∉ t.dev.linksUp) ∧
  (∀ (s : State) (image : List Byte),
    exec (.pldmFirmwareUpdate image) s = .next { s with dev := { s.dev with staged := some image } } ∧
    exec .pldmPlatformMonitoring s = .next { s with outbox := s.outbox ++ [.report (BitVec.ofNat 64 s.dev.throttle ::
      (s.dev.bootLog.map fun p => BitVec.ofNat 64 (p.1.val + 16 * p.2.val)) ++ Config.sensors s.dev.clk)] })

/-- From boot to a launch's end: boot runs images that verify, joins the pod, installs slot 63 and publishes the capability
chain; a NOTIFY above CONSUMED makes the distributor read the next record, up to those that the ring can hold; the eligible head
of the highest priority is bound, the cluster's scratch and accumulators zeroed at their rate and its root records placed then,
or refused with a record; a launch of which nothing is left completes, with its record in its completion area; a cancel reaches
a launch wherever it is. What a reset keeps, where template, completion area and capability chain stand in home 127, what is
told of images that are not given and of other devices' lanes, and that an event which names nothing present changes nothing is
the model's choice (logs 4, 35, 36, 40, 42, 52, 58, 70, 71 and 73). -/
def Obligations.LaunchesEnterAndEnd : Prop :=
  (∀ (s : State) (id : BitVec 10) (cap : Word) (ms : List (BitVec 10 × Bool × BitVec 4 × BitVec 16)) (images links : Bool)
      (imgs : List FwImage) (failed : Option (Fin 9 × Fin 9)),
    (capOk id cap = false → exec (.boot images links id cap ms imgs failed) s = .next s) ∧
    (capOk id cap = true → s.dev.booted = true ∨ s.dev.inert = true →
      exec (.boot images links id cap ms imgs failed) s = exec (.boot images links id cap ms imgs failed) s.packageReset) ∧
    (capOk id cap = true → s.dev.booted = false → s.dev.inert = false →
      let judged := s.bootImages imgs
      let inert (t : State) : Prop := exec (.boot images links id cap ms imgs failed) s = .next t
      (images = false ∨ imagesPass judged = false → inert { s with dev := { s.dev with inert := true } }) ∧
      (images = true → imagesPass judged = true → links = false →
        inert { s with dev := { s.dev with inert := true, bootLog := s.dev.bootLog ++ failed.toList } }) ∧
      (imagesPass judged = true → ∃ t, exec (.boot true true id cap ms imgs failed) s = .next t ∧ CoresKept s t ∧
        (t.mem = s.mem ∨ ∃ pa, t.mem = Mem.writeBytes s.mem (hbmKey pa) t.capChain) ∧
        t.dev.booted = true ∧ t.dev.id = id ∧ t.dev.capbase = cap ∧ t.dev.staged = none ∧
        t.dev.measured = judged.map (fun x => keyOf (sm3 x.bytes)) ∧ t.dev.versions = judged.map FwImage.version ∧
        (∀ m ∈ ms, { dev := m.1, member := true, ethernet := m.2.1, epoch := m.2.2.1, pathBound := m.2.2.2 } ∈ t.dev.members) ∧
        (∃ m ∈ t.dev.members, m.dev = id) ∧ t.dev.deviceKey.isSome = true ∧ t.dev.aliasKey.isSome = true ∧
        t.dev.slots[63].kenc.isSome = true ∧ t.dev.slots[63].kmac.isSome = true ∧ t.dev.drawn = s.dev.drawn + 2 ∧
        ∀ fn, t.ring fn = (s.ring fn).bounded))) ∧
  (∀ (s : State) (fn : Fin 63) (v : Word),
    let r := s.ring fn
    let put (r : Ring) : State := { s with dev := { s.dev with rings := s.dev.rings.set fn r } }
    (s.ideRefuses fn.val = true → ∀ i ∈ [Instr.notify fn v, .ringBase fn v, .ringEntries fn v], exec i s = .next s) ∧
    (v.toNat ≤ r.consumed → exec (.notify fn v) s = .next s) ∧
    (s.ideRefuses fn.val = false →
      (r.consumed < v.toNat → s.dev.booted = false → exec (.notify fn v) s = .next (put { r with notify := v.toNat })) ∧
      (r.consumed < v.toNat → s.dev.booted = true → 0 < r.entries → (∀ x ∈ s.dev.reads, x.fn = fn → x.timed ≠ none) →
        let at' := r.base + BitVec.ofNat 64 ((r.consumed + 1) % r.entries * 128)
        ∃ t, exec (.notify fn v) s = .next t ∧ Kept s t ∧
          t.ring fn = { r with notify := v.toNat, upTo := min v.toNat (r.consumed + r.entries) } ∧
          t.outbox = s.outbox ++ [.pcieRead (ringReq fn none 0) at', .pcieRead (ringReq fn none 1) (at' + 64)]) ∧
      (v.toNat % 128 = 0 → r.consumed < r.notify → exec (.ringBase fn v) s = .next (put { r with heldBase := some v })) ∧
      (v.toNat % 128 = 0 → r.notify ≤ r.consumed → r.heldEntries = none →
        exec (.ringBase fn v) s = .next (put { r with base := v, heldBase := none })) ∧
      (∀ k ≤ 16, v.toNat = 2 ^ k → r.consumed < r.notify →
        exec (.ringEntries fn v) s = .next (put { r with heldEntries := some v.toNat })) ∧
      (∀ k ≤ 16, v.toNat = 2 ^ k → r.notify ≤ r.consumed → r.heldBase = none →
        exec (.ringEntries fn v) s = .next (put { r with entries := v.toNat, heldEntries := none }))) ∧
    (v.toNat % 128 ≠ 0 → exec (.ringBase fn v) s = .next s) ∧
    ((∀ k ≤ 16, v.toNat ≠ 2 ^ k) → exec (.ringEntries fn v) s = .next s)) ∧
  (∀ (s : State) (req k : Nat) (x : RingRead), s.readOf req = some (x, k) → 2 ^ 130 ≤ req → x.timed = none → x.launch = none →
    let r := s.ring x.fn
    r.upTo ≤ r.consumed + 1 →
    let skips (i : Instr) : Prop := ∃ t, exec i s = .next t ∧ Kept s t ∧ (t.ring x.fn).consumed = r.consumed + 1 ∧
      (t.ring x.fn).refused = (r.refused + 1) % 2 ^ 32 ∧ t.dev.launches = s.dev.launches ∧ t.outbox = s.outbox
    skips (.pcieCompletion req .abort) ∧ skips (.pcieCompletion req .poisoned) ∧
      ((∃ y ∈ s.dev.pcie, y.1 = req ∧ y.2 ≤ s.dev.clk) → skips (.completionTimeout req)) ∧
      ((∀ y ∈ s.dev.pcie, y.1 = req → s.dev.clk < y.2) → exec (.completionTimeout req) s = .next s)) ∧
  (∀ (s : State) (elsewhere : List (BitVec 10)) (sources : List (BitVec 17)) (q : Fin 4) (l : Launch),
    s.selectable = some (q, l) → l.timed = none →
    let i := Instr.launchSelection elsewhere sources
    (∀ c v, s.bindCheck l = some (c, v) → ∃ t, exec i s = .next t ∧
      Published s t l c 5 v (BitVec.ofNat 64 s.dev.clk) ∧ t.dev.queues[q] = s.dev.queues[q].tail) ∧
    (s.bindCheck l = none → ∃ t, exec i s = .next t ∧ t.dev.queues[q] = s.dev.queues[q].tail ∧
      (∃ e, t.launch l.graph = some e ∧ e.st = .bound ∧ e.elsewhere = elsewhere ∧ e.sources = sources ∧ e.prio = s.headPrio q l) ∧
      (l.clusters.getLsbD s.clusterNo.toNat = false → Kept s t ∧ t.cl = s.cl) ∧
      (l.clusters.getLsbD s.clusterNo.toNat = true →
        t.cl.bound.map (fun b => (b.graph, b.space, b.tvec)) = some (l.graph, l.space, l.tvec) ∧ t.cl.part = l.part ∧
        (∀ c ∈ t.cores, c.accum = []) ∧ t.icache = [] ∧ (∀ a < 0x2000000, Mem.read t.mem a = 0) ∧
        t.cl.lists = s.cl.lists ∧ t.cl.placing = some l.graph ∧
        t.cl.zeroAt = max s.dev.clk s.cl.zeroAt + (partP l.part + 16384 * partA l.part) / 256))) ∧
  (∀ (s : State) (g : BitVec 32) (l : Launch), s.cl.placing = some g →
    (s.dev.clk < s.cl.zeroAt → s.placeDue = none) ∧ (s.cl.zeroAt ≤ s.dev.clk → s.placeDue = some g) ∧
    (s.launch g = some l → s.laneSources l = [] → (s.placeRoots g).cl.placing = none ∧
      ∀ i r, l.roots[i]? = some r → r.2.2.1 = s.clusterNo →
        ∃ p : Fin 4, p.val = l.prio.toNat ∧ (rootRecord l l.prio i r, s.dev.clk) ∈ (s.placeRoots g).cl.lists[p])) ∧
  (∀ (s : State) (elsewhere : List (BitVec 10)), s.selectable = none → exec (.launchSelection elsewhere) s = .next s) ∧
  (∀ (s : State) (i : Fin 256) (e : LaunchEntry), s.entry i = some e →
    let e' := { e with next := e.next + 1 }
    let put (x : LaunchEntry) : State := { s with dev := { s.dev with table := x :: s.dev.table.filter fun y => y.idx != x.idx } }
    let read := (s.serviceBytes 0 (offOf e.template).toNat 128 .load).2
    let enters (reads : List RingRead) : Prop := ∃ t, exec (.launchSlot i) s = .next t ∧ Kept s t ∧ t.entry i = some e' ∧
      t.dev.reads = s.dev.reads ++ reads
    (s.slotDue e = false → exec (.launchSlot i) s = .next s) ∧
    (s.slotDue e = true → s.entryRuns i = false →
      (∀ bs, read = .ok (bs, false) → enters [{
        fn := 0, timed := some i, launch := none, roots := 0, exports := 0, want := 2, prio := e.prio
        chunks := [(0, lineOfBytes (bs.take 64)), (1, lineOfBytes (bs.drop 64))] }]) ∧
      ((∀ bs, read ≠ .ok (bs, false)) → enters [])) ∧
    (s.slotDue e = true → s.entryRuns i = true → e.policy = true → e.pending = false →
      exec (.launchSlot i) s = .next (put { e' with pending := true })) ∧
    (s.slotDue e = true → s.entryRuns i = true → e.policy = false ∨ e.pending = true →
      exec (.launchSlot i) s = .next (put { e' with skips := if e.skips = 0xFFFFFFFF then e.skips else e.skips + 1 }))) ∧
  (∀ (s : State) (l : Launch), s.launch l.graph = some l →
    (s.launchQuiet l = true → ∃ t, exec (.launchCompletion l.graph) s = .next t ∧
      Published s t l 0 5 0 (BitVec.ofNat 64 s.dev.clk)) ∧
    (s.launchQuiet l = false → exec (.launchCompletion l.graph) s = .next s)) ∧
  (∀ (s : State) (fn : Fin 63) (n : Word),
    let named (l : Launch) : Prop := l.fn = fn ∧ l.seqNo = n.toNat ∧ l.timed = none
    (∀ (x : RingRead) (l : Launch), s.dev.reads = [x] → x.timed = none → x.launch = some l → named l → ∃ t,
      exec (.cancel fn n) s = .next t ∧ Published s t l 0x18 5 0 (BitVec.ofNat 64 s.dev.clk) ∧
      ∀ y ∈ t.dev.reads, y.launch = none) ∧
    ((∀ x ∈ s.dev.reads, x.launch = none) →
    (∀ (q : Fin 4) (l : Launch) (ls : List Launch), s.dev.queues = (Vector.replicate 4 []).set q (l :: ls) → named l → ∃ t,
      exec (.cancel fn n) s = .next t ∧ Published s t l 0x18 5 0 (BitVec.ofNat 64 s.dev.clk) ∧
      ∀ p : Fin 4, ∀ x ∈ t.dev.queues[p], x.graph ≠ l.graph) ∧
    (s.dev.queues = Vector.replicate 4 [] → (∀ l ls, s.dev.launches = l :: ls → named l → l.live = true →
        ∃ t k, exec (.cancel fn n) s = .next t ∧ Kept s t ∧ t.agenda = s.agenda ++ [.kill k] ∧ k.graph = l.graph ∧
          k.cause = 0x18 ∧ k.origin = 4) ∧
      ((∀ l ∈ s.dev.launches, ¬ named l) → exec (.cancel fn n) s = .next s))))

/-- A kill stops a launch once: its firings, its records, its transfers; later requests are counted. Its record is written
when every firing has stopped. The log of a hearth's launch is exported, encrypted under the tenant's key, while the hearth's keys
stand. The time servo steps or slews as R388 says, and the registers that the stokers write hold what they wrote, an entry of
the launch table once its slots that have been reached are decided. How a log is laid out and asked for, and that an event which
names nothing present changes nothing, is the model's choice (logs 35, 37 and 58). -/
def Obligations.KillsTimeAndRegisters : Prop :=
  (∀ (s : State) (r : KillReq),
    (s.launch r.graph = none → exec (.kill r) s = .next s) ∧
    (∀ l, s.launch r.graph = some l → (l.live = false ∨ l.killing.isSome = true → exec (.kill r) s =
        .next { s with cl := { s.cl with counts := addCount .killsDropped 1 s.cl.counts } }) ∧
      (l.live = true → l.killing = none → (s.cores.map fun c => c.num).Nodup → (∀ x ∈ s.cl.overflow, x.graph = r.graph) →
        ∃ t e, exec (.kill r) s = .next t ∧ t.mem = s.mem ∧ t.launch r.graph = some e ∧
          e.killing = some (r, BitVec.ofNat 64 s.dev.clk) ∧
          (∀ c ∈ t.cores, c.serves r.graph = true → c.status = .stopping) ∧
          (∀ q : Fin 4, ∀ x ∈ t.cl.lists[q], x.1.graph ≠ r.graph) ∧ (∀ w ∈ t.cl.waiting, w.cr.graph ≠ r.graph) ∧
          t.cl.overflow = [] ∧
          (s.cl.bound.map (fun b => b.graph) = some r.graph → ∀ ch : Fin 16, t.cl.chans[ch].xfers = []) ∧
          (∀ q : Fin 4, ∀ x ∈ s.cl.lists[q], x.1.graph ≠ r.graph → x ∈ t.cl.lists[q])))) ∧
  (∀ (s : State) (l : Launch) (r : KillReq) (clk : Word), s.launch l.graph = some l → l.killing = some (r, clk) →
    r.graph = l.graph →
    (s.killQuiet l = true → ∃ t, exec (.killRecord l.graph) s = .next t ∧ Published s t l r.cause r.origin r.tval clk) ∧
    (s.killQuiet l = false → exec (.killRecord l.graph) s = .next s)) ∧
  (∀ (s : State) (l : Launch) (key : BitVec 256) (addr : Word) (vf : Option (Fin 63)),
    let es := s.dev.log.filter fun e => e.graph == l.graph
    let k := s.slotOf l.space
    let may : Prop := es ≠ [] ∧ k ≠ 0 ∧ k ≠ 63 ∧ (s.slot k).st = .kindled ∧ ∀ v, vf = some v → v.val = k.toNat
    (s.launch l.graph = none → exec (.logExport l.graph key addr vf) s = .next s) ∧
    (s.launch l.graph = some l → ¬ may → exec (.logExport l.graph key addr vf) s = .next s) ∧
    (s.launch l.graph = some l → may → ∃ t nonce, exec (.logExport l.graph key addr vf) s = .next t ∧ Kept s t ∧
      let c := gcmSeal key nonce [] (es.flatMap LogEntry.bytes)
      t.outbox = s.outbox ++ [.log addr nonce c.1 c.2])) ∧
  (∀ (s : State) (offset : Int),
    let v := { s.dev.servo with lock := true, offset := max (-2147483647) (min offset 2147483647) }
    (1000000 < offset → exec (.ptpCorrection offset) s = .next { s with dev := { s.dev with
      time := s.dev.time + offset.toNat, servo := { v with left := 0, slew := false } } }) ∧
    (offset ≤ 1000000 → exec (.ptpCorrection offset) s = .next { s with dev := { s.dev with
      servo := { v with left := 3000 * offset, slew := decide (offset < -1000000) } } }) ∧
    (s.dev.servo.lock = false → exec .lockLoss s = .next s) ∧
    (s.dev.servo.lock = true → ∃ t, exec .lockLoss s = .next t ∧ Kept s t ∧ t.dev.time = s.dev.time ∧
      t.dev.servo.lock = false ∧ t.dev.servo.losses = (s.dev.servo.losses + 1) % 2 ^ 32) ∧
    s.tick.dev.clk = s.dev.clk + 1 ∧ s.dev.time ≤ s.tick.dev.time ∧
    (s.dev.servo.left = 0 → 3000 * s.tick.dev.time + s.tick.dev.third = 3000 * s.dev.time + s.dev.third + 2000)) ∧
  (∀ (s : State) (v : Word),
    (∀ k : Fin 4, exec (.registerWrite (.aging k) v) s =
      .next (if k = 0 then s else { s with cl := { s.cl with aging := s.cl.aging.set k v } })) ∧
    exec (.registerWrite .sessionTimeout v) s =
      .next (if 1 ≤ v.toNat ∧ v.toNat ≤ 1000 then { s with dev := { s.dev with timeout := 1000 * v.toNat } } else s) ∧
    (∀ q : Fin 4, exec (.registerWrite (.queuePrio q) v) s =
      .next { s with dev := { s.dev with queuePrio := s.dev.queuePrio.set q (v.setWidth 2) } }) ∧
    exec (.registerWrite .ptpDomain v) s =
      .next { s with dev := { s.dev with servo := { s.dev.servo with domain := v.setWidth 8 } } } ∧
    (∃ t, exec (.registerWrite .sluicePeakClear v) s = .next t ∧ Kept s t ∧ ∀ n, (.sluicePeak, n) ∉ t.cl.counts) ∧
    (∃ t, exec (.registerWrite .vecHeadWaitMaxClear v) s = .next t ∧ Kept s t ∧ ∀ n, (.vecHeadWaitMax, n) ∉ t.cl.counts) ∧
    (∀ (i : Fin 256) (period phase template : Word) (flags : BitVec 32) (e : LaunchEntry), s.entry i = some e →
      s.slotDue e = true → ∃ t, exec (.launchSlot i) s = .next t ∧
        exec (.registerWrite (.launchEntry i period phase template flags) v) s =
          .next { t with agenda := .registerWrite (.launchEntry i period phase template flags) v :: t.agenda }) ∧
    (∀ (i : Fin 256) (period phase template : Word) (flags : BitVec 32), (∀ e, s.entry i = some e → s.slotDue e = false) → ∃ t e,
      exec (.registerWrite (.launchEntry i period phase template flags) v) s = .next t ∧ Kept s t ∧ t.entry i = some e ∧
      e.period = period ∧ e.phase = phase ∧ e.template = template ∧ e.prio = flags.extractLsb' 0 2 ∧
      e.policy = flags.getLsbD 2 ∧
      (e.enable = true ↔ flags.getLsbD 3 = true ∧ ∀ k < 32, 4 ≤ k → k ≠ 8 → flags.getLsbD k = false)) ∧
    (∀ d : BitVec 10, exec (.registerWrite (.ethPath d) v) s = .next { s with dev := { s.dev with
      members := s.dev.members.map fun m => if m.dev = d then { m with pathBound := v.setWidth 16 } else m } }))

/-- Each event of the quad, of its scheduler and of its home completes where it has something to do: under the conditions of
each on the state and the operands, the machine goes on with the event's first effect. The log rows named at the statements
of these events say what of it is the model's choice (logs 12, 18, 24, 49, 54 and 68). -/
def Obligations.QuadAndHomeEventsComplete : Prop :=
  let done (s : State) (i : Instr) (p : State → Prop) : Prop := ∃ t, exec i s = .next t ∧ p t
  (∀ (s : State) (p : Pend), p.due ≤ s.dev.clk →
    let leaves (t : State) : Prop := ∀ x ∈ t.core.pend, x.id ≠ p.id
    (s.core.pend.find? (fun x => x.id == p.id && decide (x.due ≤ s.dev.clk)) = some p → done s (.resultArrival p.id) leaves) ∧
    (s.core.pend.find? (fun x => x.kind == .idiv && decide (x.due ≤ s.dev.clk)) = some p → done s .divisionResult leaves) ∧
    (s.core.pend.find? (fun x => x.kind == .fdiv && decide (x.due ≤ s.dev.clk)) = some p → done s .floatDivideResult leaves)) ∧
  (∀ (s : State) (a : Word) (r : LineReply), (∃ x ∈ s.quad.icMiss, x.2 = a) →
    done s (.lineFetch a r) fun t => ∀ x ∈ t.quad.icMiss, x.2 ≠ a) ∧
  (∀ (s : State) (off : Nat), off < 0x2000000 → done s (.softError (.pool off) true) fun t => off / 64 ∈ t.cl.poison) ∧
  (∀ (s : State) (k : Nat) (a : Access) (off : BitVec 40) (w : Nat) (sext : Bool), NearTurn s k a → a.kind = .ld off w sext →
    done s (.localAccessPerformed k) fun t => t.core.access k = none ∧ t.mem = s.mem) ∧
  (∀ (s : State) (k g : Nat) (a : Access), s.core.access k = some a → a.bad = none → s.mayPerform s.core a = true →
    a.known = none → s.missing a.space a.kind = some g → (s.fetchLine a.space (s.lineVa g) a.kind.need).2 = none →
    done s (.translation k) fun t => t.lineHere a.space (s.lineVa g) = true) ∧
  (∀ (s : State) (sp : BitVec 16) (line : Word),
    (∀ l, s.ncFind sp line = none → s.llcFind sp line = some l →
      (s.cl.nc.filter fun x => ncSet x.line == ncSet line).length < 16 →
      done s (.sealedFill sp line) fun t => (t.ncFind sp line).isSome = true) ∧
    (∀ n, s.ncFind sp line = some n → n.dirty = true → done s (.sealedWriteBack sp line) fun t => t.ncFind sp line = none)) ∧
  (∀ s : State, s.commitDue s.core = true → s.core.wait = [.committing] → s.core.commit = [] → s.core.task.wide = false →
    s.core.task.actor = false → s.cl.overflow = [] → done s .commit (LeftIdle s)) ∧
  (∀ (s : State) (w : WaitRec) (g : BitVec 48) (ws : List Word), s.waitRec w.id = some w → w.reading = true → w.desc = [] →
    w.cr.actor = false → (∀ e ∈ pairs (ws.take (2 * w.cr.join)), s.edgeCheck e.1 = none) →
    done s (.edgeListRead w.id (.words g ws)) fun t =>
      ∀ e ∈ pairs (ws.take (2 * w.cr.join)), ∃ x ∈ t.cl.watches, x.use = .edge w.id e.1) ∧
  (∀ (s : State) (w : SchedWatch), s.schedWatch w.id = some w →
    (∀ v g r, w.use = .residency r → w.thr.toNat ≤ v.toNat →
      done s (.schedulerWatchAnswer w.id (.answer v g) []) fun t => Joined s t r) ∧
    (w.retryAt.isSome = true → s.served (homeOf w.addr) = false → s.lostDev (devOf (homeOf w.addr)) = false →
      done s (.watchRetry w.id) fun t => t.outbox ≠ s.outbox)) ∧
  (∀ s : State,
    (∀ (q : Fin 4) (x : ContRec × Nat), s.assignable = some q → s.head q = some x → s.cl.overflow = [] →
      done s .schedulerAssignment fun t => t.cl.lists[q] = s.cl.lists[q].tail) ∧
    (∀ q x, s.ageDue = some (q, x) → done s .aging fun t => t.cl.lists[q] = s.cl.lists[q].erase x) ∧
    (s.reserveDue = true → done s .quadReservation fun t => t.cl.reserved = true) ∧
    (s.core.task.wide = false → s.core.status = .running → (∀ c ∈ s.mates, c.num ≠ s.core.num) →
      done s (.preemptionRequest true s.core.num) fun t => t.core.preempt = true) ∧
    (s.saveDue = true → s.core.task.wide = false → done s .contextSave (LeftIdle s)) ∧
    (∀ g m ms, s.cl.images.find? (fun x => x.held.isSome) = some g → g.cores = m :: ms →
      done s .debugResume fun t => Joined s t { m.task with resumable := true, image := g.id })) ∧
  (∀ (s : State) (g : Image) (m : Core) (ms : List Core), s.cl.images.find? (fun x => x.id == g.id) = some g → g.cores = m :: ms →
    s.core.status = .stopped → s.core.task.resumable = true → s.core.task.image = g.id → s.core.preempt = false →
    s.core.task.wide = false → m.task.wide = false → (∀ c ∈ s.mates, c.task.image ≠ g.id) → m.far = [] →
    (m.prt.map PrtEntry.id).Nodup → (∀ e ∈ m.prt, e.id < s.cl.nextId) → done s (.resume g.id) fun t => Restored s t m) ∧
  (∀ (s : State) (x : VCmd) (rest : List VCmd) (r : PVal × BitVec 5), s.core.vq = x :: rest → s.grantTo = some s.core.num →
    vecResult { regs := s.core.regs, caps := x.caps, scalars := x.scalars } (Config.freeRow s.free) x.instr = some r →
    done s .vectorGrant fun t => t.core.vq.map VCmd.id = rest.map VCmd.id) ∧
  (∀ s : State,
    (∀ (m : MCmd) (row0 n : Nat), s.cmdDue s.core = some m → m.op = .azero row0 n →
      done s .matrixCommandCompletion fun t => t = s.popped m) ∧
    (s.splitDue = true → done s .splitGranuleBoundary fun t => ∀ c ∈ t.cores, ∀ y ∈ c.mq, y.isMma = true → y.cut = true) ∧
    (∀ n : Nat, done s (.powerGovernor n) fun t => t.dev.throttle = s.dev.throttle + n)) ∧
  (∀ (s : State) (ch : Fin 16) (id line member : Nat) (t : Transfer) (l : PullLine) (x : Word), s.xfer ch id = some t →
    t.lines[line]? = some l → l.src[member]? = some x → l.outstanding member = true →
    (∀ g d, t.kind = .copy → done s (.pullLineResponse ch id line member (.data g d false)) fun u =>
      (u.xfer ch id).map (fun y => y.lines) = some ((t.putLine line { l with
        arrivals := l.arrivals ++ [{ member := member, failed := none }], partialSum := d }).lines)) ∧
    (s.served (homeOf x) = false → (homeOf x).extractLsb' 0 7 ≠ 126#7 → s.farCheck x = none →
      s.lostDev (devOf (homeOf x)) = false → s.logged (homeOf x) = false →
      done s (.lineRerequest ch id line member) fun u => u.outbox ≠ s.outbox)) ∧
  (∀ (s : State) (p xid : Word) (ch : Fin 16) (id : Nat) (ret : Word) (off : Nat),
    s.core.wait.find? (s.waitpMissed s.core) = some (.waitp p xid ch false false id ret off) → s.cl.sluice = [] →
    done s .waitpPromiseExpiry fun t => t.core.wait = s.core.wait.map fun w =>
      if w = .waitp p xid ch false false id ret off then .waitp p xid ch false true id ret off else w) ∧
  (∀ (s : State) (r : ReadReq), r.lane = none → NearServed s r.space r.off.toNat r.bytes → r.off.toNat / 32 * 32 + 32 ≤ s.liveNear →
    done s (.readRequest none r) fun t => ∃ reply, t.outbox = s.outbox ++ [.readReply r.tag reply]) ∧
  (∀ (s : State) (f : FarRead) (c : Byte), s.core.far.find? (fun g => g.req == f.req && g.sent) = some f →
    (∀ g ∈ s.core.far, g.sent = true) → s.readsHere (homeOf f.addr) = false → c ≠ 0x08 →
    done s (.readResponse none f.req (.fault c)) fun t => t.core.far = s.core.far.filter fun x => x.id != f.id) ∧
  (∀ (s : State) (sp : BitVec 16) (off : BitVec 40) (thr : Word) (h : BitVec 17) (q : BitVec 3) (c : BitVec 2) (k : Fin 16)
    (tag : BitVec 4), NearServed s sp off.toNat 8 → h ≠ s.home → devOf h = s.dev.id →
    (∀ x ∈ s.cl.sluice ++ s.cl.pendingRegs, x.who ≠ .slot h q c k tag) → thr.toNat ≤ (Mem.word s.mem off.toNat).toNat →
    done s (.watchRegistration sp off thr (.slot h q c k tag)) fun t =>
      t.outbox = s.outbox ++ [.watchEnd (.slot h q c k tag) (.answer (Mem.word s.mem off.toNat) s.cl.gen)]) ∧
  (∀ (s : State) (k : Fin 16), s.core.slots[k].st = .sent → s.core.wait = [] →
    done s (.watchAnswer s.core.num k s.core.slots[k].tag .armed) fun t => t.core.slots[k].st = .armed) ∧
  (∀ (s : State) (who : Requester), done s (.watchCancel who) fun t => ∀ e ∈ t.cl.sluice, e.who ≠ who) ∧
  (∀ (s : State) (sp : BitVec 16) (v : Word) (g : BitVec 48), done s (.tlbGenerationAnswer sp (.answer v g)) fun t =>
    ∀ e ∈ t.cl.tlb, e.space = sp → v.toNat ≤ e.gen.toNat) ∧
  (∀ (s : State) (sp : BitVec 16) (off : BitVec 40) (fill : BitVec 48) (tag : Nat), NearServed s sp off.toNat 32 →
    done s (.validationRequest sp off fill tag) fun t => ∃ b, t.outbox = s.outbox ++ [.validationAnswer tag b]) ∧
  (∀ (s : State) (e : PrtEntry), e ∈ s.core.prt → e.struck = false →
    done s (.validationAnswer none e.id false) fun t => e ∉ t.core.prt) ∧
  (∀ (s : State) (sp : BitVec 16) (addr : Word) (tag : Nat), tag < 2 ^ 32 → homeOf addr ≠ s.service →
    (offOf addr).toNat < 0x2000000 →
    done s (.pageRequest sp addr tag) fun t => ∃ r, t.outbox = s.outbox ++ [.pageReply tag r]) ∧
  (∀ (s : State) (id : Nat) (k : Fin 16) (tag : BitVec 4) (x : Word) (r : PageReply),
    s.core.pgreqs.find? (fun y => y.2.1 == k && y.2.2.1 == tag) = some (id, k, tag, x) → s.core.wait = [] →
    done s (.pageRequestReply s.core.num k tag r) fun t => t.core.pgreqs = s.core.pgreqs.filter fun y => y.1 != id) ∧
  (∀ (s : State) (sp : BitVec 16) (page : Word) (frame place : Nat) (leaf : Word) (x : Trailer) (d : PageData),
    page &&& 0xFFF = 0 → s.dev.trailers.find? (fun t => t.space == sp && t.page == page) = some x →
    s.leafAt sp page = some (place, leaf) → frame % 4096 = 0 → s.base ≤ frame → frame + 4096 ≤ s.base + reservedTop →
    s.frameMode frame = none → done s (.pageIn sp page frame d) fun t => x ∉ t.dev.trailers) ∧
  (∀ (s : State) (sp : BitVec 16) (page : Word) (place : Nat) (leaf : Word) (tier : BitVec 2) (handle : BitVec 44),
    page &&& 0xFFF = 0 → s.leafAt sp page = some (place, leaf) → leaf.getLsbD 0 = true → leaf.getLsbD 54 = false →
    s.cl.mig = none → (s.checkLines sp .load ((List.range 64).map fun k => (offOf page).toNat + 64 * k)).2 = none →
    done s (.migration sp page .copy tier handle) fun t => t.cl.mig.map (fun m => (m.space, m.page)) = some (sp, page)) ∧
  (∀ s : State, (s.cl.mig.any fun m => m.blocked.any fun c => decide (c + 200 ≤ s.dev.clk)) = true →
    done s .migrationBlockEnd fun t => t.cl.mig = none) ∧
  (∀ (s : State) (sp : BitVec 16) (d : SpaceDesc) (frame : Nat), s.dev.spaces.find? (fun x => x.space == sp) = some d →
    done s (.pageTableChange (.freeFrame sp frame)) fun t => ∀ x ∈ t.cl.modes, x.1 ≠ frame / 4096)

/-- Each event of the device, of its fabric, its trust and its launches completes where it has something to do: under the
conditions of each on the state and the operands, the machine goes on with the event's first effect. The log rows named at the
statements of these events say what of it is the model's choice (logs 33, 35, 41, 44, 45 and 73). -/
def Obligations.DeviceEventsComplete : Prop :=
  let done (s : State) (i : Instr) (p : State → Prop) : Prop := ∃ t, exec i s = .next t ∧ p t
  (∀ (s : State) (h : NysilHdr) (r : OutReq), s.outReq r.id = some r →
    (s.badHeader h = false → s.lostDev h.src = false → r.dev = h.src →
      done s (.retry h r.id) fun t => (t.outReq r.id).bind (fun x => x.retryAt) = some (s.dev.clk + 3000)) ∧
    ((∃ c, r.retryAt = some c ∧ c ≤ s.dev.clk) → done s (.repeatAfterRetry r.id) fun t =>
      ∃ hdr port, t.outbox = s.outbox ++ [.nysil hdr port (.again r.id)]) ∧
    (isPullReq r.id = false → r.oneWay = false → r.sent + 12000 ≤ s.dev.clk → done s (.requestRepeat r.id) fun t =>
      ∃ hdr port, t.outbox = s.outbox ++ [.nysil hdr port (.again r.id)])) ∧
  (∀ (s : State) (h : NysilHdr) (x y : Session), s.badHeader h = false → s.lostDev h.src = false → h.src ≠ s.dev.id →
    s.session h.src h.slot = some x → x.cached = true → x.verifies h = true →
    x.receive h.seqNo.toNat = some y →
    (done s (.probe h) fun t => ∃ hdr port, t.outbox = s.outbox ++ [.nysil hdr port (.probeAnswer h.src)]) ∧
    done s (.probeAnswer h) fun t => (t.peer h.src).lastMsg = s.dev.clk) ∧
  (∀ (s : State) (d : BitVec 10),
    ((∃ r ∈ s.dev.reqs, r.dev = d ∧ s.probeDue r = true) → done s (.probeTimer d) fun t =>
      ∃ hdr port, t.outbox = s.outbox ++ [.nysil hdr port (.probe d)]) ∧
    ((∃ r ∈ s.dev.reqs, r.dev = d ∧ s.lossDue r = true) → done s (.peerLoss d) fun t => t.lostDev d = true) ∧
    (∀ epoch, s.lostDev d = true ∨ s.member d = false → done s (.peerReadmit d epoch) fun t => t.member d = true) ∧
    (s.member d = true → done s (.memberRemoval d) fun t => t.member d = false)) ∧
  (∀ s : State, done s .ualinkRequest fun t => t.outbox = s.outbox ++ [.uaError]) ∧
  (∀ (s : State) (f : FarRead), s.core.far.find? (fun g => g.req == f.req && g.sent) = some f →
    (∀ g ∈ s.core.far, g.sent = true) → f.req < 2 ^ 67 → s.readsHere (homeOf f.addr) = false → s.pcieOpen f.req = true →
    let leaves (t : State) : Prop := t.core.far = s.core.far.filter fun x => x.id != f.id
    done s (.pcieCompletion f.req .abort) leaves ∧
      ((∃ x ∈ s.dev.pcie, x.1 = f.req ∧ x.2 ≤ s.dev.clk) → done s (.completionTimeout f.req) leaves)) ∧
  (∀ (s : State) (d : BitVec 10) (k : BitVec 6) (phase : Bool) (key : BitVec 512),
    (s.session d k = none → done s (.nysilInstall d k phase key) fun t => t.outbox = s.outbox ++ [.status 0]) ∧
    (done s (.nysilErase d k phase) fun t => t.outbox = s.outbox ++ [.status 0]) ∧
    (∀ x, s.session d k = some x →
      (x.key (!x.phase) = none → x.erased = true → done s (.keyRotation d k (.install key)) fun t =>
        (t.session d k).bind (fun y => y.key (!x.phase)) = some key) ∧
      (x.erased = false → x.flipAt + 300000 ≤ s.dev.clk → done s (.oldPhaseErase d k) fun t =>
        (t.session d k).map (fun y => y.erased) = some true) ∧
      ((s.dev.sessions.filter Session.cached).length < 4096 → done s (.sessionContextFetch d k) fun t =>
        (t.session d k).map (fun y => y.cached) = some true))) ∧
  (∀ (s : State) (k : BitVec 6) (test : Bool) (clusters : BitVec 72),
    (s.dev.debug = false → 1 ≤ k.toNat → k.toNat ≤ 62 → (s.slot k).st = .free →
      (∀ j : BitVec 6, 1 ≤ j.toNat → j.toNat < k.toNat → (s.slot j).st ≠ .free) →
      done s (.kindle test clusters) fun t => (t.slot k).st = .kindled) ∧
    ((s.slot k).st = .kindled →
      (∀ who, done s (.quench k who) fun t => (t.slot k).st = .quenching) ∧
      (done s (.stopInterfaceRequest k) fun t => (t.slot k).st = .quenching) ∧
      (s.interface k = .configUnlocked → done s (.lockInterfaceRequest k) fun t => t.interface k = .configLocked) ∧
      (s.interface k = .configLocked → done s (.startInterfaceRequest k) fun t => t.interface k = .run) ∧
      done s (.deviceInterfaceReport k) fun t => ∃ ws, t.outbox = s.outbox ++ [.report ws]) ∧
    ((s.slot k).st = .quenching → (∀ l ∈ s.dev.launches, l.live = true → l.space ∉ s.spacesOf k) →
      done s (.quenchRelease k) fun t => (t.slot k).st = .free ∨ (t.slot k).st = .retired)) ∧
  (∀ s : State, (∀ k : BitVec 6, 1 ≤ k.toNat → k.toNat ≤ 62 → (s.slot k).st ≠ .kindled ∧ (s.slot k).st ≠ .quenching) →
    done s (.debugUnlock true) fun t => t.dev.debug = true) ∧
  (∀ (s : State) (stream : Fin 64) (set1 : Bool) (key : BitVec 256),
    done s (.ideKey stream set1 key) fun t => (stream, set1, key) ∈ t.dev.ide) ∧
  (∀ (s : State) (k : Fin 8) (cert : List Byte),
    (k ≠ 0 → s.challenged k = false → done s (.certWrite k cert) fun t => t.dev.certs[k] = cert) ∧
    (done s (.challenge k) fun t => (k, s.dev.certs[k]) ∈ t.dev.challenges) ∧
    (∀ c, s.dev.challenges = [(k, c)] → (done s (.challenge k true) fun t => t.dev.challenges = []) ∧
      done s (.challengeTimeout k) fun t => t.dev.challenges = [])) ∧
  (∀ (s : State) (idx : Byte), done s (.getMeasurements idx) fun t => ∃ ws, t.outbox = s.outbox ++ [.report ws]) ∧
  (∀ (s : State) (a b : Fin 9) (atBoot : Bool), done s (.linkTraining a b true atBoot) fun t => (a, b) ∈ t.dev.linksUp) ∧
  (∀ (s : State) (id : BitVec 10) (cap : Word) (ms : List (BitVec 10 × Bool × BitVec 4 × BitVec 16)),
    s.dev.booted = false → s.dev.inert = false → capOk id cap = true → s.dev.staged = none → done s (.boot true true id cap ms) fun t => t.dev.booted = true ∧ t.dev.id = id) ∧
  (∀ (s : State) (fn : Fin 63) (v : Word), s.ideRefuses fn.val = false →
    ((s.ring fn).consumed < v.toNat → done s (.notify fn v) fun t => (t.ring fn).notify = v.toNat) ∧
    ((s.ring fn).notify ≤ (s.ring fn).consumed → v.toNat % 128 = 0 → done s (.ringBase fn v) fun t => (t.ring fn).base = v) ∧
    (∀ k ≤ 16, (s.ring fn).notify ≤ (s.ring fn).consumed → v.toNat = 2 ^ k →
      done s (.ringEntries fn v) fun t => (t.ring fn).entries = v.toNat)) ∧
  (∀ (s : State) (elsewhere : List (BitVec 10)) (q : Fin 4) (l : Launch), s.selectable = some (q, l) →
    done s (.launchSelection elsewhere) fun t => t.dev.queues[q] = s.dev.queues[q].tail) ∧
  (∀ (s : State) (i : Fin 256) (e : LaunchEntry), s.entry i = some e → s.slotDue e = true →
    done s (.launchSlot i) fun t => (t.entry i).map (fun x => x.next) = some (e.next + 1)) ∧
  (∀ (s : State) (l : Launch), s.launch l.graph = some l →
    let ended (t : State) : Prop := (t.launch l.graph).map (fun x => x.st) = some .done
    (s.launchQuiet l = true → done s (.launchCompletion l.graph) ended) ∧ (s.killQuiet l = true → done s (.killRecord l.graph) ended) ∧
    (∀ r : KillReq, r.graph = l.graph → l.live = true → l.killing = none →
      done s (.kill r) fun t => (t.launch l.graph).map (fun x => x.killing.map fun y => y.1) = some (some r)) ∧
    (∀ (fn : Fin 63) (n : Word), s.dev.reads = [] → s.dev.queues = Vector.replicate 4 [] → s.dev.launches = [l] → l.live = true →
      l.fn = fn → l.seqNo = n.toNat → l.timed = none →
      done s (.cancel fn n) fun t => ∃ k, t.agenda = s.agenda ++ [.kill k] ∧ k.graph = l.graph)) ∧
  (∀ (s : State) (offset : Int), (done s (.ptpCorrection offset) fun t => t.dev.servo.lock = true) ∧
    done s .lockLoss fun t => t.dev.servo.lock = false) ∧
  (∀ (s : State) (l : Launch) (key : BitVec 256) (addr : Word) (e : LogEntry), s.launch l.graph = some l → e ∈ s.dev.log →
    e.graph = l.graph → s.slotOf l.space ≠ 0 → s.slotOf l.space ≠ 63 → (s.slot (s.slotOf l.space)).st = .kindled →
    done s (.logExport l.graph key addr) fun t => ∃ nonce ct tag, t.outbox = s.outbox ++ [.log addr nonce ct tag]) ∧
  (∀ (s : State) (drive : Nat), done s (.driveFailure drive) fun t => drive ∈ t.dev.badDrives) ∧
  (∀ (s : State) (image : List Byte), (done s (.pldmFirmwareUpdate image) fun t => t.dev.staged = some image) ∧
    done s .pldmPlatformMonitoring fun t => ∃ ws, t.outbox = s.outbox ++ [.report ws]) ∧
  (∀ (s : State) (q : Fin 4) (v : Word), done s (.registerWrite (.queuePrio q) v) fun t => t.dev.queuePrio[q] = v.setWidth 2)
end

