-- ==== Sys2Proof/Laws/Memory.lean ====
section
/-! SUPPORT. Memory: every operation keeps the canonical form, and what a read finds after a write. -/

namespace Sys2Proof.Machine

theorem Mem.wfFrom_mono {lo hi : Nat} {m : List Host.Cell} (h : lo ≤ hi) (w : Mem.wfFrom hi m = true) :
    Mem.wfFrom lo m = true := by
  cases m with
  | nil => rfl
  | cons x r =>
    obtain ⟨k, b⟩ := x
    simp only [Mem.wfFrom, Bool.and_eq_true, decide_eq_true_eq] at *
    exact ⟨⟨by omega, w.1.2⟩, w.2⟩

/-- A byte written keeps the canonical form from any bound at or below its key. -/
theorem Mem.write_wfFrom {m : List Host.Cell} {lo a : Nat} {x : Byte} (h : lo ≤ a) (w : Mem.wfFrom lo m = true) :
    Mem.wfFrom lo (Mem.write m a x) = true := by
  induction m generalizing lo with
  | nil =>
    simp only [Mem.write]
    split <;> simp_all [Mem.wfFrom]
  | cons y r ih =>
    obtain ⟨k, b⟩ := y
    simp only [Mem.wfFrom, Bool.and_eq_true, decide_eq_true_eq] at w
    simp only [Mem.write]
    split
    · split
      · simp [Mem.wfFrom, w]
      · simp_all [Mem.wfFrom]
    · split
      · split
        · exact Mem.wfFrom_mono (by omega) w.2
        · simp_all [Mem.wfFrom]
      · simp only [Mem.wfFrom, Bool.and_eq_true, decide_eq_true_eq]
        exact ⟨w.1, ih (by omega) w.2⟩

theorem Mem.write_wf {m : List Host.Cell} (a : Nat) (x : Byte) (w : Memory.wf m = true) : Memory.wf (Mem.write m a x) = true :=
  Mem.write_wfFrom (Nat.zero_le a) w

theorem Mem.writeBytes_wf {m : List Host.Cell} (a : Nat) (bs : List Byte) (w : Memory.wf m = true) :
    Memory.wf (Mem.writeBytes m a bs) = true := by
  induction bs generalizing m a with
  | nil => exact w
  | cons b bs ih => exact ih (a + 1) (Mem.write_wf a b w)

theorem Mem.setWord_wf {m : List Host.Cell} (a : Nat) (v : Word) (w : Memory.wf m = true) : Memory.wf (Mem.setWord m a v) = true :=
  Mem.writeBytes_wf a _ w

/-- Cells taken out keep the canonical form: SRAM is zeroed so. -/
theorem Mem.filter_wfFrom {m : List Host.Cell} (p : Host.Cell → Bool) {lo : Nat} (w : Mem.wfFrom lo m = true) :
    Mem.wfFrom lo (m.filter p) = true := by
  induction m generalizing lo with
  | nil => rfl
  | cons y r ih =>
    obtain ⟨k, b⟩ := y
    simp only [Mem.wfFrom, Bool.and_eq_true, decide_eq_true_eq] at w
    simp only [List.filter]
    split
    · simp only [Mem.wfFrom, Bool.and_eq_true, decide_eq_true_eq]
      exact ⟨w.1, ih w.2⟩
    · exact Mem.wfFrom_mono (by omega) (ih w.2)

theorem Mem.filter_wf {m : List Host.Cell} (p : Host.Cell → Bool) (w : Memory.wf m = true) : Memory.wf (m.filter p) = true :=
  Mem.filter_wfFrom p w

/-- A key below every listed one reads as an unlisted byte. -/
theorem Mem.read_below {m : List Host.Cell} {lo a : Nat} (w : Mem.wfFrom lo m = true) (h : a < lo) : Mem.read m a = unlisted := by
  cases m with
  | nil => rfl
  | cons y r =>
    obtain ⟨k, b⟩ := y
    simp only [Mem.wfFrom, Bool.and_eq_true, decide_eq_true_eq] at w
    simp only [Mem.read]
    rw [if_pos (by omega)]

/-- A byte written is read back. -/
theorem Mem.read_write_self {m : List Host.Cell} {lo : Nat} (a : Nat) (x : Byte) (w : Mem.wfFrom lo m = true) :
    Mem.read (Mem.write m a x) a = x := by
  induction m generalizing lo with
  | nil =>
    simp only [Mem.write]
    split
    · rename_i h; simp [Mem.read, h]
    · simp [Mem.read]
  | cons y r ih =>
    obtain ⟨k, b⟩ := y
    simp only [Mem.wfFrom, Bool.and_eq_true, decide_eq_true_eq] at w
    simp only [Mem.write]
    split
    · split
      · rename_i hk hx; simp [Mem.read, hk, hx]
      · simp [Mem.read]
    · split
      · split
        · rename_i _ hk hx
          subst hk
          rw [hx]
          exact Mem.read_below w.2 (Nat.lt_succ_self _)
        · simp [Mem.read]
      · rename_i h1 h2
        simp [Mem.read, h1, h2, ih w.2]

/-- Every other byte reads as before. -/
theorem Mem.read_write_other {m : List Host.Cell} {lo : Nat} {a b : Nat} (x : Byte) (w : Mem.wfFrom lo m = true) (h : b ≠ a) :
    Mem.read (Mem.write m a x) b = Mem.read m b := by
  induction m generalizing lo with
  | nil =>
    simp only [Mem.write]
    split
    · rfl
    · simp only [Mem.read]
      split <;> rfl
  | cons y r ih =>
    obtain ⟨k, c⟩ := y
    simp only [Mem.wfFrom, Bool.and_eq_true, decide_eq_true_eq] at w
    simp only [Mem.write]
    split
    · split
      · rfl
      · simp only [Mem.read]
        split <;> split <;> first | rfl | omega
    · split
      · rename_i _ hk
        subst hk
        have below : b < a → Mem.read r b = unlisted := fun hb => Mem.read_below w.2 (by omega)
        split
        · simp only [Mem.read, if_neg h]
          split
          · exact below ‹_›
          · rfl
        · simp only [Mem.read, if_neg h]
      · simp only [Mem.read]
        split
        · rfl
        · split
          · rfl
          · exact ih w.2

theorem Mem.read_writeBytes_other {m : List Host.Cell} {a b : Nat} (bs : List Byte) (w : Memory.wf m = true)
    (h : b < a ∨ a + bs.length ≤ b) : Mem.read (Mem.writeBytes m a bs) b = Mem.read m b := by
  induction bs generalizing m a with
  | nil => rfl
  | cons x xs ih =>
    simp only [List.length_cons] at h
    rw [Mem.writeBytes, ih (Mem.write_wf a x w) (by omega)]
    exact Mem.read_write_other x w (by omega)

/-- Bytes written are read back. -/
theorem Mem.bytes_writeBytes {m : List Host.Cell} (a : Nat) (bs : List Byte) (w : Memory.wf m = true) :
    Mem.bytes (Mem.writeBytes m a bs) a bs.length = bs := by
  induction bs generalizing m a with
  | nil => rfl
  | cons x xs ih =>
    have hw := Mem.write_wf a x w
    simp only [Mem.writeBytes, List.length_cons, Mem.bytes, ih (a + 1) hw]
    rw [Mem.read_writeBytes_other xs hw (Or.inl (by omega)), Mem.read_write_self a x w]

theorem Mem.leNat_leBytes (n v : Nat) : leNat (leBytes n v) = v % 256 ^ n := by
  induction n generalizing v with
  | zero => simp [leBytes, leNat, Nat.mod_one]
  | succ n ih =>
    have h : (BitVec.ofNat 8 v).toNat = v % 256 := rfl
    rw [leBytes, leNat, ih, h, Nat.pow_succ, Nat.mul_comm (256 ^ n) 256, Nat.mod_mul]

@[simp] theorem leBytes_length (n v : Nat) : (leBytes n v).length = n := by
  induction n generalizing v with
  | zero => rfl
  | succ n ih => simp [leBytes, ih]

/-- A word written is read back. -/
theorem Mem.word_setWord {m : List Host.Cell} (a : Nat) (v : Word) (w : Memory.wf m = true) : Mem.word (Mem.setWord m a v) a = v := by
  have h := Mem.bytes_writeBytes a (leBytes 8 v.toNat) w
  rw [leBytes_length] at h
  unfold Mem.word Mem.nat Mem.setWord
  rw [h, Mem.leNat_leBytes, Nat.mod_eq_of_lt (by simpa using v.isLt)]
  exact BitVec.ofNat_toNat _ _ |>.trans (by simp)

end Sys2Proof.Machine
end

