-- ==== Sys2Proof/Laws/State.lean ====
section
/-! SUPPORT. One lemma for each field of the state under each update of `Ops.lean`, so that no proof unfolds a record update;
and what each update of a core leaves of it, said once. -/

namespace Sys2Proof.Machine

/-! ### setCore -/

@[simp] theorem State.setCore_core (s : State) (c : Core) : (s.setCore c).core = c := rfl
@[simp] theorem State.setCore_mates (s : State) (c : Core) : (s.setCore c).mates = s.mates := rfl
@[simp] theorem State.setCore_quadNo (s : State) (c : Core) : (s.setCore c).quadNo = s.quadNo := rfl
@[simp] theorem State.setCore_clusterNo (s : State) (c : Core) : (s.setCore c).clusterNo = s.clusterNo := rfl
@[simp] theorem State.setCore_quad (s : State) (c : Core) : (s.setCore c).quad = s.quad := rfl
@[simp] theorem State.setCore_cl (s : State) (c : Core) : (s.setCore c).cl = s.cl := rfl
@[simp] theorem State.setCore_dev (s : State) (c : Core) : (s.setCore c).dev = s.dev := rfl
@[simp] theorem State.setCore_mem (s : State) (c : Core) : (s.setCore c).mem = s.mem := rfl
@[simp] theorem State.setCore_icache (s : State) (c : Core) : (s.setCore c).icache = s.icache := rfl
@[simp] theorem State.setCore_outbox (s : State) (c : Core) : (s.setCore c).outbox = s.outbox := rfl
@[simp] theorem State.setCore_agenda (s : State) (c : Core) : (s.setCore c).agenda = s.agenda := rfl
@[simp] theorem State.setCore_free (s : State) (c : Core) : (s.setCore c).free = s.free := rfl

/-! ### setCl -/

@[simp] theorem State.setCl_core (s : State) (c : Cluster) : (s.setCl c).core = s.core := rfl
@[simp] theorem State.setCl_mates (s : State) (c : Cluster) : (s.setCl c).mates = s.mates := rfl
@[simp] theorem State.setCl_quadNo (s : State) (c : Cluster) : (s.setCl c).quadNo = s.quadNo := rfl
@[simp] theorem State.setCl_clusterNo (s : State) (c : Cluster) : (s.setCl c).clusterNo = s.clusterNo := rfl
@[simp] theorem State.setCl_quad (s : State) (c : Cluster) : (s.setCl c).quad = s.quad := rfl
@[simp] theorem State.setCl_cl (s : State) (c : Cluster) : (s.setCl c).cl = c := rfl
@[simp] theorem State.setCl_dev (s : State) (c : Cluster) : (s.setCl c).dev = s.dev := rfl
@[simp] theorem State.setCl_mem (s : State) (c : Cluster) : (s.setCl c).mem = s.mem := rfl
@[simp] theorem State.setCl_icache (s : State) (c : Cluster) : (s.setCl c).icache = s.icache := rfl
@[simp] theorem State.setCl_outbox (s : State) (c : Cluster) : (s.setCl c).outbox = s.outbox := rfl
@[simp] theorem State.setCl_agenda (s : State) (c : Cluster) : (s.setCl c).agenda = s.agenda := rfl
@[simp] theorem State.setCl_free (s : State) (c : Cluster) : (s.setCl c).free = s.free := rfl

/-! ### setDev -/

@[simp] theorem State.setDev_core (s : State) (d : Device) : (s.setDev d).core = s.core := rfl
@[simp] theorem State.setDev_mates (s : State) (d : Device) : (s.setDev d).mates = s.mates := rfl
@[simp] theorem State.setDev_quadNo (s : State) (d : Device) : (s.setDev d).quadNo = s.quadNo := rfl
@[simp] theorem State.setDev_clusterNo (s : State) (d : Device) : (s.setDev d).clusterNo = s.clusterNo := rfl
@[simp] theorem State.setDev_quad (s : State) (d : Device) : (s.setDev d).quad = s.quad := rfl
@[simp] theorem State.setDev_cl (s : State) (d : Device) : (s.setDev d).cl = s.cl := rfl
@[simp] theorem State.setDev_dev (s : State) (d : Device) : (s.setDev d).dev = d := rfl
@[simp] theorem State.setDev_mem (s : State) (d : Device) : (s.setDev d).mem = s.mem := rfl
@[simp] theorem State.setDev_icache (s : State) (d : Device) : (s.setDev d).icache = s.icache := rfl
@[simp] theorem State.setDev_outbox (s : State) (d : Device) : (s.setDev d).outbox = s.outbox := rfl
@[simp] theorem State.setDev_agenda (s : State) (d : Device) : (s.setDev d).agenda = s.agenda := rfl
@[simp] theorem State.setDev_free (s : State) (d : Device) : (s.setDev d).free = s.free := rfl

/-! ### setMem -/

@[simp] theorem State.setMem_core (s : State) (m : List Host.Cell) : (s.setMem m).core = s.core := rfl
@[simp] theorem State.setMem_mates (s : State) (m : List Host.Cell) : (s.setMem m).mates = s.mates := rfl
@[simp] theorem State.setMem_quadNo (s : State) (m : List Host.Cell) : (s.setMem m).quadNo = s.quadNo := rfl
@[simp] theorem State.setMem_clusterNo (s : State) (m : List Host.Cell) : (s.setMem m).clusterNo = s.clusterNo := rfl
@[simp] theorem State.setMem_quad (s : State) (m : List Host.Cell) : (s.setMem m).quad = s.quad := rfl
@[simp] theorem State.setMem_cl (s : State) (m : List Host.Cell) : (s.setMem m).cl = s.cl := rfl
@[simp] theorem State.setMem_dev (s : State) (m : List Host.Cell) : (s.setMem m).dev = s.dev := rfl
@[simp] theorem State.setMem_mem (s : State) (m : List Host.Cell) : (s.setMem m).mem = m := rfl
@[simp] theorem State.setMem_icache (s : State) (m : List Host.Cell) : (s.setMem m).icache = s.icache := rfl
@[simp] theorem State.setMem_outbox (s : State) (m : List Host.Cell) : (s.setMem m).outbox = s.outbox := rfl
@[simp] theorem State.setMem_agenda (s : State) (m : List Host.Cell) : (s.setMem m).agenda = s.agenda := rfl
@[simp] theorem State.setMem_free (s : State) (m : List Host.Cell) : (s.setMem m).free = s.free := rfl

/-! ### send -/

@[simp] theorem State.send_core (s : State) (m : Msg) : (s.send m).core = s.core := rfl
@[simp] theorem State.send_mates (s : State) (m : Msg) : (s.send m).mates = s.mates := rfl
@[simp] theorem State.send_quadNo (s : State) (m : Msg) : (s.send m).quadNo = s.quadNo := rfl
@[simp] theorem State.send_clusterNo (s : State) (m : Msg) : (s.send m).clusterNo = s.clusterNo := rfl
@[simp] theorem State.send_quad (s : State) (m : Msg) : (s.send m).quad = s.quad := rfl
@[simp] theorem State.send_cl (s : State) (m : Msg) : (s.send m).cl = s.cl := rfl
@[simp] theorem State.send_dev (s : State) (m : Msg) : (s.send m).dev = s.dev := rfl
@[simp] theorem State.send_mem (s : State) (m : Msg) : (s.send m).mem = s.mem := rfl
@[simp] theorem State.send_icache (s : State) (m : Msg) : (s.send m).icache = s.icache := rfl
@[simp] theorem State.send_outbox (s : State) (m : Msg) : (s.send m).outbox = s.outbox ++ [m] := rfl
@[simp] theorem State.send_agenda (s : State) (m : Msg) : (s.send m).agenda = s.agenda := rfl
@[simp] theorem State.send_free (s : State) (m : Msg) : (s.send m).free = s.free := rfl

/-! ### queue -/

@[simp] theorem State.queue_core (s : State) (i : Instr) : (s.queue i).core = s.core := rfl
@[simp] theorem State.queue_mates (s : State) (i : Instr) : (s.queue i).mates = s.mates := rfl
@[simp] theorem State.queue_quadNo (s : State) (i : Instr) : (s.queue i).quadNo = s.quadNo := rfl
@[simp] theorem State.queue_clusterNo (s : State) (i : Instr) : (s.queue i).clusterNo = s.clusterNo := rfl
@[simp] theorem State.queue_quad (s : State) (i : Instr) : (s.queue i).quad = s.quad := rfl
@[simp] theorem State.queue_cl (s : State) (i : Instr) : (s.queue i).cl = s.cl := rfl
@[simp] theorem State.queue_dev (s : State) (i : Instr) : (s.queue i).dev = s.dev := rfl
@[simp] theorem State.queue_mem (s : State) (i : Instr) : (s.queue i).mem = s.mem := rfl
@[simp] theorem State.queue_icache (s : State) (i : Instr) : (s.queue i).icache = s.icache := rfl
@[simp] theorem State.queue_outbox (s : State) (i : Instr) : (s.queue i).outbox = s.outbox := rfl
@[simp] theorem State.queue_agenda (s : State) (i : Instr) : (s.queue i).agenda = s.agenda ++ [i] := rfl
@[simp] theorem State.queue_free (s : State) (i : Instr) : (s.queue i).free = s.free := rfl

/-! ### takeId -/

@[simp] theorem State.takeId_core (s : State) : (s.takeId).core = s.core := rfl
@[simp] theorem State.takeId_mates (s : State) : (s.takeId).mates = s.mates := rfl
@[simp] theorem State.takeId_quadNo (s : State) : (s.takeId).quadNo = s.quadNo := rfl
@[simp] theorem State.takeId_clusterNo (s : State) : (s.takeId).clusterNo = s.clusterNo := rfl
@[simp] theorem State.takeId_quad (s : State) : (s.takeId).quad = s.quad := rfl
@[simp] theorem State.takeId_cl (s : State) : (s.takeId).cl = { s.cl with nextId := s.cl.nextId + 1 } := rfl
@[simp] theorem State.takeId_dev (s : State) : (s.takeId).dev = s.dev := rfl
@[simp] theorem State.takeId_mem (s : State) : (s.takeId).mem = s.mem := rfl
@[simp] theorem State.takeId_icache (s : State) : (s.takeId).icache = s.icache := rfl
@[simp] theorem State.takeId_outbox (s : State) : (s.takeId).outbox = s.outbox := rfl
@[simp] theorem State.takeId_agenda (s : State) : (s.takeId).agenda = s.agenda := rfl
@[simp] theorem State.takeId_free (s : State) : (s.takeId).free = s.free := rfl

/-! ### takeFree -/

@[simp] theorem State.takeFree_core (s : State) : (s.takeFree).core = s.core := rfl
@[simp] theorem State.takeFree_mates (s : State) : (s.takeFree).mates = s.mates := rfl
@[simp] theorem State.takeFree_quadNo (s : State) : (s.takeFree).quadNo = s.quadNo := rfl
@[simp] theorem State.takeFree_clusterNo (s : State) : (s.takeFree).clusterNo = s.clusterNo := rfl
@[simp] theorem State.takeFree_quad (s : State) : (s.takeFree).quad = s.quad := rfl
@[simp] theorem State.takeFree_cl (s : State) : (s.takeFree).cl = s.cl := rfl
@[simp] theorem State.takeFree_dev (s : State) : (s.takeFree).dev = s.dev := rfl
@[simp] theorem State.takeFree_mem (s : State) : (s.takeFree).mem = s.mem := rfl
@[simp] theorem State.takeFree_icache (s : State) : (s.takeFree).icache = s.icache := rfl
@[simp] theorem State.takeFree_outbox (s : State) : (s.takeFree).outbox = s.outbox := rfl
@[simp] theorem State.takeFree_agenda (s : State) : (s.takeFree).agenda = s.agenda := rfl
@[simp] theorem State.takeFree_free (s : State) : (s.takeFree).free = s.free + 1 := rfl

/-! ### count -/

@[simp] theorem State.count_core (s : State) (k : Cnt) (n : Nat) : (s.count k n).core = s.core := rfl
@[simp] theorem State.count_mates (s : State) (k : Cnt) (n : Nat) : (s.count k n).mates = s.mates := rfl
@[simp] theorem State.count_quadNo (s : State) (k : Cnt) (n : Nat) : (s.count k n).quadNo = s.quadNo := rfl
@[simp] theorem State.count_clusterNo (s : State) (k : Cnt) (n : Nat) : (s.count k n).clusterNo = s.clusterNo := rfl
@[simp] theorem State.count_quad (s : State) (k : Cnt) (n : Nat) : (s.count k n).quad = s.quad := rfl
@[simp] theorem State.count_cl (s : State) (k : Cnt) (n : Nat) : (s.count k n).cl = { s.cl with counts := addCount k n s.cl.counts } := rfl
@[simp] theorem State.count_dev (s : State) (k : Cnt) (n : Nat) : (s.count k n).dev = s.dev := rfl
@[simp] theorem State.count_mem (s : State) (k : Cnt) (n : Nat) : (s.count k n).mem = s.mem := rfl
@[simp] theorem State.count_icache (s : State) (k : Cnt) (n : Nat) : (s.count k n).icache = s.icache := rfl
@[simp] theorem State.count_outbox (s : State) (k : Cnt) (n : Nat) : (s.count k n).outbox = s.outbox := rfl
@[simp] theorem State.count_agenda (s : State) (k : Cnt) (n : Nat) : (s.count k n).agenda = s.agenda := rfl
@[simp] theorem State.count_free (s : State) (k : Cnt) (n : Nat) : (s.count k n).free = s.free := rfl

/-! ### Updates of the same part in a row -/

@[simp] theorem State.setCore_setCore (s : State) (c d : Core) : (s.setCore c).setCore d = s.setCore d := rfl
@[simp] theorem State.setCl_setCl (s : State) (c d : Cluster) : (s.setCl c).setCl d = s.setCl d := rfl
@[simp] theorem State.setDev_setDev (s : State) (c d : Device) : (s.setDev c).setDev d = s.setDev d := rfl
@[simp] theorem State.setMem_setMem (s : State) (m n : List Host.Cell) : (s.setMem m).setMem n = s.setMem n := rfl
@[simp] theorem State.setCore_self (s : State) : s.setCore s.core = s := rfl

/-! ### Registers of a core: each update says all that it changes -/

theorem Core.setN_eq (c : Core) (r : Fin 32) (v : Word) :
    c.setN r v = { c with faults := c.faults.filter (fun x => x.1 != .n r), regs := { c.regs with n := c.regs.n.set r v } } := rfl

theorem Core.setM_eq (c : Core) (k : Fin 8) (v : Word) :
    c.setM k v = { c with faults := c.faults.filter (fun x => x.1 != .m k), regs := { c.regs with m := c.regs.m.set k v } } := rfl

theorem Core.setV_eq (c : Core) (r : Fin 32) (v : VReg) :
    c.setV r v = { c with faults := c.faults.filter (fun x => x.1 != .v r), regs := { c.regs with v := c.regs.v.set r v } } := rfl

theorem Core.setLc_eq (c : Core) (k : Fin 8) (v : BitVec 32) :
    c.setLc k v = { c with regs := { c.regs with lc := c.regs.lc.set k v } } := rfl

/-- What a scalar write to a register leaves: only the registers and the marks of faulted ones. -/
theorem Core.setDest_eq (c : Core) (d : Dest) (v : Word) :
    c.setDest d v = { c with faults := (c.setDest d v).faults, regs := (c.setDest d v).regs } := by
  cases d <;> rfl

theorem Core.setOpt_eq (c : Core) (d : Option Dest) (v : Word) :
    c.setOpt d v = { c with faults := (c.setOpt d v).faults, regs := (c.setOpt d v).regs } := by
  cases d with
  | none => rfl
  | some d => exact Core.setDest_eq c d v

/-- A bank's replacement leaves every field but the banks. -/
theorem Core.setBank_eq (c : Core) (l : Nat) (b : List QEntry) :
    c.setBank l b =
      { c with bank0 := (c.setBank l b).bank0, bank1 := (c.setBank l b).bank1, bank2 := (c.setBank l b).bank2 } := by
  unfold Core.setBank
  split <;> rfl

@[simp] theorem Core.bank_setBank (c : Core) (l : Nat) (b : List QEntry) : (c.setBank l b).bank l = b := by
  rcases l with _ | _ | l <;> rfl

/-- A push leaves every field but the banks and the group's offset. -/
theorem Core.push_eq (c : Core) (e : QEntry) :
    c.push e =
      { c with
        bank0 := (c.push e).bank0, bank1 := (c.push e).bank1, bank2 := (c.push e).bank2
        grp := { c.grp with off := c.grp.off + 1 } } := by
  unfold Core.push
  rw [Core.setBank_eq]

/-- A push puts its entry first. -/
theorem Core.push_bank (c : Core) (e : QEntry) : (c.push e).bank c.level = (e :: c.bank c.level).take bankDepth := by
  unfold Core.push
  generalize c.level = l
  rcases l with _ | _ | l <;> rfl

end Sys2Proof.Machine
end

