-- ==== Sys2Proof/Laws/Frames.lean ====
section
/-! SUPPORT. What the operations below an instruction leave: translation, the memory port, the near cache, the sluice, the
catch basin and the Nysil sessions change no core and no saved context, and keep the memory's canonical form. -/

namespace Sys2Proof.Machine

/-- From `s` to `t` no core and no saved context changes, and the memory keeps its canonical form. -/
structure Frame (s t : State) : Prop where
  core : t.core = s.core
  mates : t.mates = s.mates
  images : t.cl.images = s.cl.images
  clk : t.dev.clk = s.dev.clk
  home : t.home = s.home ∧ t.quadNo = s.quadNo
  bound : t.cl.bound = s.cl.bound
  mem : Memory.wf s.mem = true → Memory.wf t.mem = true

theorem Frame.rfl {s : State} : Frame s s := ⟨.refl _, .refl _, .refl _, .refl _, ⟨.refl _, .refl _⟩, .refl _, id⟩

theorem Frame.trans {s t u : State} (h : Frame s t) (g : Frame t u) : Frame s u :=
  ⟨g.core.trans h.core, g.mates.trans h.mates, g.images.trans h.images, g.clk.trans h.clk,
    ⟨g.home.1.trans h.home.1, g.home.2.trans h.home.2⟩, g.bound.trans h.bound, g.mem ∘ h.mem⟩

/-- The two branches of a choice. -/
theorem Frame.ite {s t u : State} {p : Prop} [Decidable p] (h : Frame s t) (g : Frame s u) :
    Frame s (if p then t else u) := by split <;> assumption

/-! ## Updates by part -/

theorem State.send_frame (s : State) (m : Msg) : Frame s (s.send m) :=
  ⟨.refl _, .refl _, .refl _, .refl _, ⟨.refl _, .refl _⟩, .refl _, fun w => w⟩
theorem State.queue_frame (s : State) (i : Instr) : Frame s (s.queue i) :=
  ⟨.refl _, .refl _, .refl _, .refl _, ⟨.refl _, .refl _⟩, .refl _, fun w => w⟩
theorem State.count_frame (s : State) (k : Cnt) (n : Nat) : Frame s (s.count k n) :=
  ⟨.refl _, .refl _, .refl _, .refl _, ⟨.refl _, .refl _⟩, .refl _, fun w => w⟩
theorem State.takeId_frame (s : State) : Frame s s.takeId :=
  ⟨.refl _, .refl _, .refl _, .refl _, ⟨.refl _, .refl _⟩, .refl _, fun w => w⟩

/-- The cluster changes, less its saved contexts and its binding. -/
theorem State.setCl_frame {s : State} {c : Cluster} (h : c.images = s.cl.images) (hb : c.bound = s.cl.bound) :
    Frame s (s.setCl c) := ⟨.refl _, .refl _, h, .refl _, ⟨.refl _, .refl _⟩, hb, fun w => w⟩

/-- The device changes, less its clock and number. -/
theorem State.setDev_frame {s : State} {d : Device} (h : d.clk = s.dev.clk) (hi : d.id = s.dev.id) : Frame s (s.setDev d) :=
  ⟨.refl _, .refl _, .refl _, h, ⟨by simp [State.home, State.setDev, hi], .refl _⟩, .refl _, fun w => w⟩

theorem State.setMem_frame {s : State} {m : List Host.Cell} (h : Memory.wf s.mem = true → Memory.wf m = true) :
    Frame s (s.setMem m) := ⟨.refl _, .refl _, .refl _, .refl _, ⟨.refl _, .refl _⟩, .refl _, h⟩

/-! ## Translation -/

theorem State.watchSpace_frame (s : State) (d : SpaceDesc) : Frame s (s.watchSpace d) := by
  unfold State.watchSpace
  exact Frame.ite .rfl (Frame.ite (setCl_frame rfl rfl) (setCl_frame rfl rfl))

theorem State.tlbFill_frame (s : State) (d : SpaceDesc) (va : Word) (l : Leaf) : Frame s (s.tlbFill d va l) := by
  unfold State.tlbFill; dsimp only; split
  · exact s.watchSpace_frame d
  · exact (s.watchSpace_frame d).trans (setCl_frame rfl rfl)

theorem State.setFrameMode_frame (s : State) (pa : Nat) (m : BitVec 2) : Frame s (s.setFrameMode pa m) := setCl_frame rfl rfl

theorem State.leafFor_frame (s : State) (d : SpaceDesc) (va : Word) : Frame s (s.leafFor d va).1 := by
  unfold State.leafFor; split
  · exact .rfl
  · split
    · exact s.tlbFill_frame ..
    · exact .rfl
    · exact .rfl

theorem State.translate_frame (s : State) (sp : BitVec 16) (va : Word) (n : Need) : Frame s (s.translate sp va n).1 := by
  unfold State.translate; split
  · exact .rfl
  · rename_i d _
    have h := s.leafFor_frame d va
    split <;> rename_i e <;> rw [e] at h
    · exact h
    · exact h
    · exact h

/-! ## Sealed memory -/

theorem State.setRoot_frame (s : State) (r v : Nat) : Frame s (s.setRoot r v) := setCl_frame rfl rfl
theorem State.cacheNode_frame (s : State) (k : MetaKey) (l : Line) : Frame s (s.cacheNode k l) := setCl_frame rfl rfl
theorem State.setMajorSource_frame (s : State) (k : BitVec 6) (v : Word) : Frame s (s.setMajorSource k v) := setCl_frame rfl rfl
theorem State.setHbmPoison_frame (s : State) (pa : Nat) (b : Bool) : Frame s (s.setHbmPoison pa b) := setCl_frame rfl rfl

theorem State.writeHbm_frame (s : State) (pa : Nat) (bs : List Byte) : Frame s (s.writeHbm pa bs) :=
  setMem_frame fun h => Mem.writeBytes_wf _ _ h

theorem State.obtain_frame (s : State) (f l v : Nat) : Frame s (s.obtain f l v).1 := by
  unfold State.obtain; dsimp only
  split
  · exact .rfl
  · split
    · exact s.cacheNode_frame ..
    · split
      · exact s.cacheNode_frame ..
      · exact s.count_frame ..

theorem State.parents_frame (s : State) (f : Nat) : Frame s (s.parents f).1 := by
  unfold State.parents
  have h := s.obtain_frame f 3 (s.rootOf (f / 64))
  split <;> rename_i e <;> rw [e] at h
  · exact h
  · rename_i s' n3
    have h2 := s'.obtain_frame f 2 (versionIn n3 (f / 8 % 8))
    split <;> rename_i e2 <;> rw [e2] at h2 <;> exact h.trans h2

theorem State.block_frame (s : State) (f : Nat) : Frame s (s.block f).1 := by
  unfold State.block
  split
  · exact s.count_frame ..
  · split
    · exact s.obtain_frame ..
    · have h := s.parents_frame f
      split <;> rename_i e <;> rw [e] at h
      · exact h
      · exact h.trans (obtain_frame ..)

theorem State.path_frame (s : State) (f : Nat) : Frame s (s.path f).1 := by
  unfold State.path; dsimp only
  have h := s.parents_frame f
  split <;> rename_i e <;> rw [e] at h
  · exact h
  · rename_i s' n3 n2
    have h2 := s'.obtain_frame f 1 (versionIn n2 (f % 8))
    split <;> rename_i e2 <;> rw [e2] at h2
    · exact h.trans h2
    · split
      · exact (h.trans h2).trans (count_frame ..)
      · exact h.trans h2

theorem State.updatePath_frame (s : State) (f : Nat) (p : Path) (cb : Line) : Frame s (s.updatePath f p cb) := by
  unfold State.updatePath; dsimp only
  exact (((((((((s.writeHbm_frame ..).trans (writeHbm_frame ..)).trans (writeHbm_frame ..)).trans (writeHbm_frame ..)).trans
    (setRoot_frame ..)).trans (cacheNode_frame ..)).trans (cacheNode_frame ..)).trans (cacheNode_frame ..)).trans (count_frame ..))

theorem State.putSealed_frame (s : State) (keys : BitVec 256 × BitVec 256) (f j : Nat) (va : Word) (major : BitVec 64)
    (minor : BitVec 7) (plain : List Byte) : Frame s (s.putSealed keys f j va major minor plain) :=
  (s.writeHbm_frame ..).trans (writeHbm_frame ..)

theorem State.putPage_frame (keys : BitVec 256 × BitVec 256) (f : Nat) (page : Word) (major : BitVec 64) (n : Nat) :
    ∀ (s : State) (j : Nat) (bs : List Byte), Frame s (s.putPage keys f page major n j bs) := by
  induction n with
  | zero => intro s j bs; exact .rfl
  | succ n ih => intro s j bs; exact (s.putSealed_frame ..).trans (ih ..)

theorem State.freshMajor_frame {s : State} {k : BitVec 6} {x : Word × State} (h : s.freshMajor k = some x) : Frame s x.2 := by
  unfold State.freshMajor at h; dsimp only at h
  split at h
  · cases h
  · cases h; exact s.setMajorSource_frame ..

theorem State.sealedInit_frame (s : State) (sp : BitVec 16) (f : Nat) (page : Word) (data : List Byte) :
    Frame s (s.sealedInit sp f page data).1 := by
  unfold State.sealedInit
  split
  · exact .rfl
  · have h := s.path_frame f
    split <;> rename_i e <;> rw [e] at h
    · exact h
    · split
      · exact h
      · split
        · exact h
        · rename_i hf
          exact ((h.trans (freshMajor_frame hf)).trans (putPage_frame ..)).trans ((updatePath_frame ..).trans (count_frame ..))

theorem State.recrypt_frame (keys : BitVec 256 × BitVec 256) (f : Nat) (page : Word) (old : Line) (major : BitVec 64) (n : Nat) :
    ∀ (s : State) (j : Nat), Frame s (s.recrypt keys f page old major n j) := by
  induction n with
  | zero => intro s j; exact .rfl
  | succ n ih =>
    intro s j
    unfold State.recrypt; dsimp only
    refine Frame.trans ?_ (ih ..)
    split
    · exact s.putSealed_frame ..
    · have h : Frame s (if s.hbmPoisoned (s.base + 4096 * f + 64 * j) then s else s.count .macFailures 1) := Frame.ite .rfl (s.count_frame ..)
      exact h.trans ((putSealed_frame ..).trans (setHbmPoison_frame ..))

theorem State.overflow_frame {s t : State} {slot : BitVec 6} {keys : BitVec 256 × BitVec 256} {f j : Nat} {page : Word}
    {plain : List Byte} {p : Path} (h : s.overflow slot keys f j page plain p = some t) : Frame s t := by
  unfold State.overflow at h; dsimp only at h
  obtain ⟨x, hx, rfl⟩ := Option.map_eq_some_iff.1 h
  have hs : Frame s x.2 := by
    split at hx
    · exact freshMajor_frame hx
    · cases hx; exact .rfl
  exact (hs.trans (recrypt_frame ..)).trans ((putSealed_frame ..).trans ((updatePath_frame ..).trans (count_frame ..)))

theorem State.sealWrite_frame (s : State) (sp : BitVec 16) (va : Word) (pa : Nat) (plain : List Byte) (p : Bool) :
    Frame s (s.sealWrite sp va pa plain p) := by
  unfold State.sealWrite; dsimp only
  split
  · exact s.count_frame ..
  · have h := s.path_frame (s.frameOf pa)
    split <;> rename_i e <;> rw [e] at h
    · exact h.trans (setHbmPoison_frame ..)
    · split
      · exact h.trans (setHbmPoison_frame ..)
      · split
        · split
          · rename_i ho; exact (h.trans (overflow_frame ho)).trans (setHbmPoison_frame ..)
          · exact h.trans (setHbmPoison_frame ..)
        · exact (h.trans (putSealed_frame ..)).trans ((updatePath_frame ..).trans (setHbmPoison_frame ..))

theorem State.sealRead_frame (s : State) (sp : BitVec 16) (va : Word) (pa : Nat) : Frame s (s.sealRead sp va pa).1 := by
  unfold State.sealRead; dsimp only
  split
  · exact s.count_frame ..
  · have h := s.block_frame (s.frameOf pa)
    split <;> rename_i e <;> rw [e] at h
    · exact h
    · split
      · exact h
      · split
        · exact h
        · exact h.trans (count_frame ..)

theorem State.portRead_frame (s : State) (sp : BitVec 16) (va : Word) (pa : Nat) (m : BitVec 2) :
    Frame s (s.portRead sp va pa m).1 := by
  unfold State.portRead; dsimp only
  split
  · exact .rfl
  · split
    · split
      · exact s.count_frame ..
      · exact .rfl
    · have h := s.sealRead_frame sp va pa
      split <;> rename_i e <;> rw [e] at h <;> exact h

theorem State.portWrite_frame (s : State) (sp : BitVec 16) (va : Word) (pa : Nat) (m : BitVec 2) (plain : List Byte) (p : Bool) :
    Frame s (s.portWrite sp va pa m plain p) := by
  unfold State.portWrite
  split
  · exact (s.writeHbm_frame ..).trans (setHbmPoison_frame ..)
  · split
    · split
      · exact s.count_frame ..
      · exact (s.writeHbm_frame ..).trans (setHbmPoison_frame ..)
    · exact s.sealWrite_frame ..

/-! ## The near cache and the LLC -/

theorem State.release_frame (s : State) : Frame s s.release := setCl_frame rfl rfl
theorem State.raiseEvFloor_frame (s : State) (t : BitVec 16) : Frame s (s.raiseEvFloor t) := setCl_frame rfl rfl
theorem State.ncFront_frame (s : State) (n : NcLine) : Frame s (s.ncFront n) := setCl_frame rfl rfl
theorem State.ncLast_frame (s : State) (n : NcLine) : Frame s (s.ncLast n) := setCl_frame rfl rfl

theorem State.llcPut_frame (s : State) (n : LlcLine) : Frame s (s.llcPut n) := by
  unfold State.llcPut; dsimp only
  have h (l : List LlcLine) : Frame s (s.setCl { s.cl with llc := l }) := setCl_frame rfl rfl
  split
  · exact h _
  · split
    · exact h _
    · exact (h _).trans ((raiseEvFloor_frame ..).trans (raiseEvFloor_frame ..))

theorem State.writeBack_frame (s : State) (n : NcLine) : Frame s (s.writeBack n) := by
  unfold State.writeBack; split
  · exact .rfl
  · exact (s.portWrite_frame ..).trans ((llcPut_frame ..).trans (ncFront_frame ..))

theorem State.ncDrop_frame (s : State) (n : NcLine) : Frame s (s.ncDrop n) := by
  unfold State.ncDrop; dsimp only
  have h : Frame s ((s.writeBack n).setCl
      { (s.writeBack n).cl with nc := (s.writeBack n).ncRest n }) :=
    (s.writeBack_frame n).trans (setCl_frame rfl rfl)
  split
  · exact h
  · exact h.trans ((raiseEvFloor_frame ..).trans (raiseEvFloor_frame ..))

theorem State.ncPut_frame (s : State) (n : NcLine) : Frame s (s.ncPut n) := by
  unfold State.ncPut; split
  · exact s.ncFront_frame n
  · exact (s.ncDrop_frame _).trans (ncFront_frame ..)

theorem State.fetchLine_frame (s : State) (sp : BitVec 16) (va : Word) (n : Need) : Frame s (s.fetchLine sp va n).1 := by
  have h := s.translate_frame sp va n
  unfold State.fetchLine
  split <;> rename_i e <;> rw [e] at h
  · exact h
  · exact h
  · exact h
  · dsimp only
    split
    · split
      · exact h.trans (llcPut_frame ..)
      · exact h
    · split
      · exact h.trans ((setFrameMode_frame ..).trans (llcPut_frame ..))
      · rename_i s' pa pte _ _ _
        have hi := (s'.setFrameMode pa (pteMode pte)).sealedInit_frame sp ((s'.setFrameMode pa (pteMode pte)).frameOf pa)
          (va - BitVec.ofNat 64 (pa % 4096)) (List.replicate 4096 0)
        have hs : Frame s (s'.setFrameMode pa (pteMode pte)) := h.trans (setFrameMode_frame ..)
        split <;> rename_i e' <;> rw [e'] at hi
        · exact hs.trans hi
        · exact hs.trans (hi.trans (llcPut_frame ..))
        · exact hs.trans (hi.trans ((setHbmPoison_frame ..).trans (llcPut_frame ..)))
        · exact hs.trans (llcPut_frame ..)

theorem State.getLine_frame (s : State) (sp : BitVec 16) (va : Word) (k : Bool) : Frame s (s.getLine sp va k).1 := by
  unfold State.getLine
  split
  · exact s.ncFront_frame _
  · split
    · exact .rfl
    · rename_i l _
      have h := s.portRead_frame sp va l.pa l.mode
      dsimp only
      split
      · exact h.trans (ncPut_frame ..)
      · exact h

theorem State.checkLines_frame (sp : BitVec 16) (need : Need) (gs : List Nat) :
    ∀ s : State, Frame s (s.checkLines sp need gs).1 := by
  induction gs with
  | nil => intro s; exact .rfl
  | cons g gs ih =>
    intro s
    unfold State.checkLines; dsimp only
    split
    · exact ih s
    · split
      · split
        · exact ih s
        · exact .rfl
      · have h := s.fetchLine_frame sp (s.lineVa g) need
        split <;> rename_i e <;> rw [e] at h
        · exact h
        · exact h.trans (ih _)

theorem State.readIn_frame (s : State) (sp : BitVec 16) (off n : Nat) (a : Bool) : Frame s (s.readIn sp off n a).1 := by
  unfold State.readIn
  split
  · exact .rfl
  · dsimp only
    generalize (a || !((s.llcFind sp (s.lineVa off)).map (·.na)).getD false) = k
    have h := s.getLine_frame sp (s.lineVa off) k
    split <;> rename_i e <;> rw [e] at h <;> exact h

theorem State.readGo_frame (sp : BitVec 16) (off n : Nat) (a : Bool) (gs : List Nat) :
    ∀ s : State, Frame s (s.readGo sp off n a gs).1 := by
  induction gs with
  | nil => intro s; exact .rfl
  | cons g gs ih => intro s; exact (s.readIn_frame ..).trans (ih _)

theorem State.readAt_frame (s : State) (sp : BitVec 16) (off n : Nat) (a : Bool) : Frame s (s.readAt sp off n a).1 :=
  readGo_frame ..

theorem State.granulePoison_frame (s : State) (sp : BitVec 16) (off : Nat) : Frame s (s.granulePoison sp off).1 := by
  unfold State.granulePoison
  split
  · exact .rfl
  · dsimp only
    generalize ((s.ncFind sp (s.lineVa off)).isSome || !((s.llcFind sp (s.lineVa off)).map (·.na)).getD false) = k
    have h := s.getLine_frame sp (s.lineVa off) k
    split <;> rename_i e <;> rw [e] at h
    · dsimp only
      exact Frame.ite h .rfl
    · exact h

theorem State.firstPoison_frame (sp : BitVec 16) (off : Nat) (gs : List Nat) :
    ∀ s : State, Frame s (s.firstPoison sp off gs).1 := by
  induction gs with
  | nil => intro s; exact .rfl
  | cons g gs ih =>
    intro s
    unfold State.firstPoison
    have h := s.granulePoison_frame sp g
    split <;> rename_i e <;> rw [e] at h
    · exact h
    · exact h.trans (ih _)

theorem State.setPoison_frame (s : State) (off : Nat) (b : Bool) : Frame s (s.setPoison off b) := setCl_frame rfl rfl

theorem State.poisonAt_frame (s : State) (sp : BitVec 16) (off : Nat) : Frame s (s.poisonAt sp off) := by
  unfold State.poisonAt
  split
  · exact s.setPoison_frame ..
  · have h := s.getLine_frame sp (s.lineVa off) true
    split <;> rename_i e <;> rw [e] at h
    · exact h.trans (ncPut_frame ..)
    · exact h

theorem State.stampNear_frame (s : State) (off n : Nat) : Frame s (s.stampNear off n) := setCl_frame rfl rfl
theorem State.stampPaged_frame (s : State) (sp : BitVec 16) (lo n : Nat) : Frame s (s.stampPaged sp lo n) := setCl_frame rfl rfl

theorem State.stampAt_frame (s : State) (sp : BitVec 16) (off : Nat) : Frame s (s.stampAt sp off) := by
  unfold State.stampAt; split
  · exact s.stampNear_frame ..
  · exact s.stampPaged_frame ..

theorem State.writeIn_frame (s : State) (sp : BitVec 16) (off : Nat) (bs : List Byte) (a c : Bool) :
    Frame s (s.writeIn sp off bs a c) := by
  unfold State.writeIn
  split
  · dsimp only
    have h : Frame s ((s.setMem (Mem.writeBytes s.mem off bs)).stampNear off bs.length) :=
      (setMem_frame fun w => Mem.writeBytes_wf _ _ w).trans (stampNear_frame ..)
    split
    · exact h.trans (setPoison_frame ..)
    · exact h
  · dsimp only
    generalize (a || (s.ncFind sp (s.lineVa off)).isSome || !((s.llcFind sp (s.lineVa off)).map (·.na)).getD false) = k
    have h := s.getLine_frame sp (s.lineVa off) k
    split <;> rename_i e <;> rw [e] at h
    · exact h
    · split
      · exact h.trans ((ncPut_frame ..).trans (stampPaged_frame ..))
      · exact h.trans ((portWrite_frame ..).trans (stampPaged_frame ..))

theorem State.writeGo_frame (sp : BitVec 16) (off : Nat) (bs : List Byte) (a c : Bool) (gs : List Nat) :
    ∀ s : State, Frame s (s.writeGo sp off bs a c gs) := by
  induction gs with
  | nil => intro s; exact .rfl
  | cons g gs ih => intro s; exact (s.writeIn_frame ..).trans (ih _)

theorem State.writeAt_frame (s : State) (sp : BitVec 16) (off : Nat) (bs : List Byte) (a c : Bool) :
    Frame s (s.writeAt sp off bs a c) := writeGo_frame ..

theorem State.serveCheck_frame (s : State) (sp : BitVec 16) (off n : Nat) : Frame s (s.serveCheck sp off n).1 := by
  unfold State.serveCheck
  split
  · exact .rfl
  · split
    · exact .rfl
    · dsimp only
      split
      · exact .rfl
      · exact checkLines_frame ..

/-! ## Nysil -/

theorem State.heard_frame (s : State) (d : BitVec 10) : Frame s (s.heard d) := Frame.ite .rfl (setDev_frame rfl rfl)
theorem State.putSession_frame (s : State) (x : Session) : Frame s (s.putSession x) := setDev_frame rfl rfl

theorem State.evictSession_frame (s : State) : Frame s s.evictSession := by
  unfold State.evictSession; dsimp only
  split
  · exact .rfl
  · split
    · exact .rfl
    · exact (setDev_frame (by rfl) (by rfl)).trans (count_frame ..)

theorem State.cacheSession_frame (s : State) (x : Session) : Frame s (s.cacheSession x) :=
  (s.putSession_frame _).trans (evictSession_frame _)

theorem State.sendNysil_frame (s : State) (d : BitVec 10) (k : BitVec 6) (t : BitVec 7) (a : Bool) (m : Msg) :
    Frame s (s.sendNysil d k t a m) := (s.cacheSession_frame _).trans (send_frame ..)

theorem State.sendHome_frame (s : State) (h : BitVec 17) (sp : BitVec 16) (t : BitVec 7) (m : Msg) :
    Frame s (s.sendHome h sp t m) := Frame.ite (s.send_frame m) (s.sendNysil_frame ..)

theorem State.sendBare_frame (s : State) (d : BitVec 10) (k : BitVec 6) (t : BitVec 7) (m : Msg) :
    Frame s (s.sendBare d k t m) := s.send_frame _

theorem State.sendRetry_frame (s : State) (d : BitVec 10) (k : BitVec 6) : Frame s (s.sendRetry d k) := s.sendBare_frame ..

theorem State.request_frame (s : State) (id : Nat) (h : BitVec 17) (sp : BitVec 16) (t : BitVec 7) (m : Msg) :
    Frame s (s.request id h sp t m) :=
  Frame.ite (s.send_frame m) (Frame.ite ((setDev_frame (by rfl) (by rfl)).trans ((sendNysil_frame ..).trans (count_frame ..)))
    ((setDev_frame (by rfl) (by rfl)).trans (sendNysil_frame ..)))

theorem State.cancelTo_frame (s : State) (id : Nat) (h : BitVec 17) (sp : BitVec 16) (m : Msg) :
    Frame s (s.cancelTo id h sp m) := (setDev_frame (by rfl) (by rfl)).trans (sendNysil_frame ..)

theorem State.untrack_frame (s : State) (id : Nat) : Frame s (s.untrack id) := setDev_frame rfl rfl

theorem State.endWatch_frame (s : State) (id : Nat) (e : WatchEnd) : Frame s (s.endWatch id e) :=
  Frame.ite .rfl (s.untrack_frame id)

theorem State.accepts_frame (s : State) (h : Option NysilHdr) (r : Bool) : Frame s (s.accepts h r).1 := by
  unfold State.accepts
  split
  · exact .rfl
  · split
    · exact s.count_frame ..
    · split
      · exact .rfl
      · split
        · split
          · exact (s.sendRetry_frame ..).trans ((count_frame ..).trans (queue_frame ..))
          · exact .rfl
        · split
          · exact (s.count_frame ..).trans (count_frame ..)
          · split
            · exact s.count_frame ..
            · dsimp only
              split
              · exact (s.cacheSession_frame _).trans ((heard_frame ..).trans (count_frame ..))
              · exact (s.cacheSession_frame _).trans (heard_frame ..)

/-! ## The sluice and the tickets -/

theorem State.ticket_frame (s : State) (sp : BitVec 16) (va : Word) : Frame s (s.ticket sp va).1 := by
  unfold State.ticket; dsimp only
  split
  · exact .rfl
  · exact setCl_frame rfl rfl

theorem State.withTicket_frame (s : State) (sp : BitVec 16) (va : Word) (f : AccFail) : Frame s (s.withTicket sp va f).1 := by
  unfold State.withTicket
  split
  · exact .rfl
  · exact .rfl
  · exact s.ticket_frame ..

theorem State.tell_frame (s : State) (sp : BitVec 16) (who : Requester) (e : WatchEnd) : Frame s (s.tell sp who e) := by
  unfold State.tell; dsimp only
  split
  · exact Frame.ite (s.queue_frame _) (s.sendHome_frame ..)
  · exact Frame.ite (s.queue_frame _) (s.sendHome_frame ..)
  · exact s.sendHome_frame ..

theorem State.answer_frame (s : State) (e : SluiceEntry) (v : Word) : Frame s (s.answer e v) :=
  (s.tell_frame ..).trans (count_frame ..)

theorem State.watchedWord_frame (s : State) (e : SluiceEntry) : Frame s (s.watchedWord e).1 := by
  unfold State.watchedWord
  split
  · exact .rfl
  · split
    · exact .rfl
    · exact s.readAt_frame ..

theorem State.sluiceTake_frame (s : State) (e : SluiceEntry) : Frame s (s.sluiceTake e) := by
  have h := s.watchedWord_frame e
  unfold State.sluiceTake; dsimp only
  split
  · exact h.trans ((answer_frame ..).trans (count_frame ..))
  · split
    · exact h.trans ((tell_frame ..).trans (count_frame ..))
    · exact h.trans ((setCl_frame (by rfl) (by rfl)).trans ((count_frame ..).trans (tell_frame ..)))

theorem State.askTicket_frame (s : State) (t : Word) : Frame s (s.askTicket t) := by
  unfold State.askTicket
  split
  · exact s.send_frame ..
  · exact .rfl

theorem State.sluiceRegister_frame (s : State) (e : SluiceEntry) : Frame s (s.sluiceRegister e) := by
  unfold State.sluiceRegister
  refine Frame.ite (s.tell_frame ..) (Frame.ite .rfl (Frame.ite
    ((Frame.ite .rfl (s.askTicket_frame _)).trans (sluiceTake_frame ..)) (Frame.ite (s.sluiceTake_frame e) ?_)))
  have h := s.serveCheck_frame e.space e.off.toNat 8
  split <;> rename_i x <;> rw [x] at h
  · exact h.trans (sluiceTake_frame ..)
  · exact h.trans (tell_frame ..)
  · exact h.trans (tell_frame ..)
  · exact h.trans ((setCl_frame (by rfl) (by rfl)).trans (send_frame ..))

theorem State.sluiceAgain_frame (s : State) (e : SluiceEntry) : Frame s (s.sluiceAgain e) :=
  (setDev_frame (by rfl) (by rfl)).trans ((sluiceRegister_frame ..).trans (setDev_frame (by rfl) (by rfl)))

theorem State.sluiceCancel_frame (s : State) (who : Requester) : Frame s (s.sluiceCancel who) := setCl_frame rfl rfl

theorem State.answerAll_frame (es : List SluiceEntry) : ∀ s : State, Frame s (s.answerAll es) := by
  induction es with
  | nil => intro s; exact .rfl
  | cons e es ih =>
    intro s
    have h := s.watchedWord_frame e
    unfold State.answerAll; dsimp only
    split
    · exact h.trans ((setCl_frame (by rfl) (by rfl)).trans ((answer_frame ..).trans (ih _)))
    · exact h.trans (ih _)

theorem State.notify_frame (s : State) (sp : BitVec 16) (off n : Nat) : Frame s (s.notify sp off n) := answerAll_frame ..

theorem State.notifyLane_frame (s : State) (off : BitVec 40) (h : BitVec 17) : Frame s (s.notifyLane off h) := answerAll_frame ..

theorem State.store_frame (s : State) (sp : BitVec 16) (off : Nat) (bs : List Byte) (a c : Bool) :
    Frame s (s.store sp off bs a c) := (s.writeAt_frame ..).trans (notify_frame ..)

theorem State.advance_frame (s : State) (sp : BitVec 16) (off : Nat) (inc : Word) : Frame s (s.advance sp off inc).1 := by
  have h := s.readAt_frame sp off 8 true
  unfold State.advance; dsimp only
  exact h.trans ((release_frame ..).trans (store_frame ..))

/-! ## Home 127 -/

theorem State.setSvc_frame (s : State) (v : Service) : Frame s (s.setSvc v) := setDev_frame rfl rfl

theorem State.serviceWatch_frame (s : State) (d : SpaceDesc) : Frame s (s.serviceWatch d) :=
  Frame.ite .rfl (Frame.ite (s.setSvc_frame _) (s.setSvc_frame _))

theorem State.serviceFill_frame (s : State) (d : SpaceDesc) (va : Word) (l : Leaf) : Frame s (s.serviceFill d va l) := by
  unfold State.serviceFill; dsimp only; split
  · exact s.serviceWatch_frame d
  · exact (s.serviceWatch_frame d).trans (setSvc_frame ..)

theorem State.askServiceTicket_frame (s : State) (e : SluiceEntry) : Frame s (s.askServiceTicket e) := by
  unfold State.askServiceTicket; split
  · split
    · exact s.send_frame _
    · exact .rfl
  · exact .rfl

theorem State.serviceTranslate_frame (s : State) (sp : BitVec 16) (va : Word) (n : Need) :
    Frame s (s.serviceTranslate sp va n).1 := by
  unfold State.serviceTranslate; split
  · exact .rfl
  · split
    · exact .rfl
    · split
      · exact .rfl
      · exact .rfl
      · exact s.serviceFill_frame ..

theorem State.serviceAt_frame (s : State) (sp : BitVec 16) (off n : Nat) (need : Need) :
    Frame s (s.serviceAt sp off n need).1 := by
  unfold State.serviceAt; dsimp only; split
  · exact .rfl
  · have h := s.serviceTranslate_frame sp (farAddr s.service (BitVec.ofNat 40 off)) need
    split <;> rename_i e <;> rw [e] at h <;> exact h

theorem State.serviceGo_frame (sp : BitVec 16) (off n : Nat) (need : Need) (gs : List Nat) :
    ∀ s : State, Frame s (s.serviceGo sp off n need gs).1 := by
  induction gs with
  | nil => intro s; exact .rfl
  | cons g gs ih =>
    intro s
    unfold State.serviceGo; dsimp only
    have h := s.serviceAt_frame sp (max g off) (min (g + 64) (off + n) - max g off) need
    split <;> rename_i e <;> rw [e] at h
    · exact h
    · rename_i t _
      have k := ih t
      split <;> rename_i e' <;> rw [e'] at k <;> exact h.trans k

theorem State.serviceBytes_frame (s : State) (sp : BitVec 16) (off n : Nat) (need : Need) :
    Frame s (s.serviceBytes sp off n need).1 := serviceGo_frame ..

theorem State.serviceWord_frame (s : State) (e : SluiceEntry) : Frame s (s.serviceWord e).1 := by
  unfold State.serviceWord; split
  · exact .rfl
  · have h := s.serviceBytes_frame e.space e.off.toNat 8 .load
    split <;> rename_i x <;> rw [x] at h <;> exact h

theorem State.serviceRegister_frame (s : State) (e : SluiceEntry) : Frame s (s.serviceRegister e) := by
  unfold State.serviceRegister
  refine Frame.ite (s.tell_frame ..) (Frame.ite .rfl ((s.askServiceTicket_frame e).trans ?_))
  generalize s.askServiceTicket e = t
  have h := t.serviceWord_frame e
  dsimp only
  split <;> rename_i x <;> rw [x] at h
  · exact h.trans (tell_frame ..)
  · exact h.trans (tell_frame ..)
  · exact h.trans ((setSvc_frame ..).trans (send_frame ..))
  · exact h.trans (Frame.ite (tell_frame ..) (Frame.ite (tell_frame ..) ((setSvc_frame ..).trans (tell_frame ..))))

theorem State.serviceCancel_frame (s : State) (who : Requester) : Frame s (s.serviceCancel who) := s.setSvc_frame _

theorem State.register_frame (s : State) (id : Nat) (sp : BitVec 16) (a t : Word) (who : Requester) :
    Frame s (s.register id sp a t who) :=
  Frame.ite (s.sluiceRegister_frame _) (Frame.ite (s.serviceRegister_frame _) ((s.untrack_frame _).trans (request_frame ..)))

theorem State.unregister_frame (s : State) (sp : BitVec 16) (a : Word) (who : Requester) :
    Frame s (s.unregister sp a who) :=
  Frame.ite (s.sluiceCancel_frame _) (Frame.ite (s.serviceCancel_frame _) (Frame.ite (s.send_frame _) (s.cancelTo_frame ..)))

/-! ## The basin -/

theorem State.dropHome_frame (s : State) (h : BitVec 17) : Frame s (s.dropHome h) := setCl_frame rfl rfl

theorem State.useFloor_frame (s : State) (h : BitVec 17) (g : BitVec 48) (r : Bool) : Frame s (s.useFloor h g r) := by
  unfold State.useFloor; dsimp only
  split
  · exact setCl_frame rfl rfl
  · split
    · exact (setCl_frame (by rfl) (by rfl)).trans ((dropHome_frame ..).trans (count_frame ..))
    · exact setCl_frame rfl rfl

theorem State.acquire_frame (s : State) (h : BitVec 17) (g : BitVec 48) : Frame s (s.acquire h g) :=
  Frame.ite .rfl (s.useFloor_frame ..)

theorem State.basinPut_frame (s : State) (b : BasinLine) : Frame s (s.basinPut b) := setCl_frame rfl rfl

theorem State.basinFill_frame (s : State) (sp : BitVec 16) (x : Word) (g : BitVec 48) (grain : Grain)
    (ds : List (BitVec 256 × Bool)) : Frame s (s.basinFill sp x g grain ds) :=
  (s.useFloor_frame ..).trans ((basinPut_frame ..).trans (count_frame ..))

end Sys2Proof.Machine
end

