-- ==== Sys2Proof/Laws/Near.lean ====
section
/-! SUPPORT. The near window at its ordering point: what a read of it gives and what a store leaves, whatever the granules
that it crosses. -/

namespace Sys2Proof.Machine

theorem Mem.bytes_add (m : List Host.Cell) (a x y : Nat) :
    Mem.bytes m a x ++ Mem.bytes m (a + x) y = Mem.bytes m a (x + y) := by
  induction x generalizing a with
  | zero => simp [Mem.bytes]
  | succ x ih =>
    have h := ih (a + 1)
    rw [show a + 1 + x = a + (x + 1) by omega] at h
    rw [show x + 1 + y = x + y + 1 by omega]
    simp only [Mem.bytes, List.cons_append, h]

theorem Mem.writeBytes_append (m : List Host.Cell) (a : Nat) (xs ys : List Byte) :
    Mem.writeBytes m a (xs ++ ys) = Mem.writeBytes (Mem.writeBytes m a xs) (a + xs.length) ys := by
  induction xs generalizing m a with
  | nil => rfl
  | cons x xs ih =>
    simp only [List.cons_append, Mem.writeBytes, ih, List.length_cons]
    congr 1; omega

/-- Consecutive granules. -/
theorem range_granules (g m : Nat) :
    (List.range (m + 1)).map (fun i => g + 64 * i) = g :: (List.range m).map fun i => g + 64 + 64 * i := by
  rw [List.range_succ_eq_map]
  simp only [List.map_cons, List.map_map, Nat.mul_zero, Nat.add_zero]
  congr 1
  apply List.map_congr_left
  intro i _
  simp only [Function.comp]; omega

theorem State.readGo_near (s : State) (sp : BitVec 16) (off n : Nat) (a : Bool) (ho : off < 0x2000000) (m : Nat) :
    ∀ g, off + n ≤ g + 64 * m ∨ off + n ≤ off → (0 < m → off < g + 64) → (∀ i < m, g + 64 * i < 0x2000000) →
      s.readGo sp off n a ((List.range m).map fun i => g + 64 * i) = (s, Mem.bytes s.mem (max g off) (off + n - max g off)) := by
  induction m with
  | zero =>
    intro g h0 _ _
    have : off + n - max g off = 0 := by omega
    rw [this]; rfl
  | succ m ih =>
    intro g h0 h1 h2
    have hg := h2 0 (by omega)
    have h1 := h1 (by omega)
    rw [range_granules]
    unfold State.readGo
    have hlo : isNear (max g off) = true := by simp [isNear]; omega
    have hr : s.readIn sp (max g off) (min (g + 64) (off + n) - max g off) a =
        (s, Mem.bytes s.mem (max g off) (min (g + 64) (off + n) - max g off)) := by
      unfold State.readIn; rw [if_pos hlo]
    dsimp only
    rw [hr]
    dsimp only
    rw [ih (g + 64) (by omega) (by omega) (fun i hi => by have := h2 (i + 1) (by omega); omega)]
    dsimp only
    rw [show max (g + 64) off = g + 64 by omega]
    congr 1
    by_cases he : g + 64 ≤ off + n
    · have h := Mem.bytes_add s.mem (max g off) (g + 64 - max g off) (off + n - (g + 64))
      rw [show max g off + (g + 64 - max g off) = g + 64 by omega,
        show g + 64 - max g off + (off + n - (g + 64)) = off + n - max g off by omega] at h
      rw [show min (g + 64) (off + n) = g + 64 by omega]
      exact h
    · rw [show off + n - (g + 64) = 0 by omega, show min (g + 64) (off + n) = off + n by omega]
      exact List.append_nil _

theorem granules_near {off n : Nat} (hn : off + n ≤ 0x2000000) : ∀ g ∈ granules off n, g < 0x2000000 := by
  intro g hg
  simp only [granules, List.mem_map, List.mem_range] at hg
  obtain ⟨i, hi, rfl⟩ := hg
  omega

/-- A read of the near window is its bytes, and changes nothing. -/
theorem State.readAt_near (s : State) (sp : BitVec 16) (off n : Nat) (a : Bool) (hn : off + n ≤ 0x2000000) :
    s.readAt sp off n a = (s, Mem.bytes s.mem off n) := by
  by_cases h0 : n = 0 ∧ off % 64 = 0
  · obtain ⟨rfl, h⟩ := h0
    unfold State.readAt granules
    rw [h]; rfl
  · have ho : off < 0x2000000 := by omega
    unfold State.readAt granules
    rw [readGo_near s sp off n a ho _ _ (by omega) (by omega) (by
      intro i hi; omega)]
    rw [show max (off / 64 * 64) off = off by omega, show off + n - off = n by omega]

theorem State.writeGo_near (sp : BitVec 16) (off : Nat) (bs : List Byte) (a c : Bool) (ho : off < 0x2000000) (m : Nat) :
    ∀ (s : State) (g : Nat), off + bs.length ≤ g + 64 * m ∨ bs = [] → (0 < m → off < g + 64) →
      (∀ i < m, g + 64 * i < 0x2000000) →
      (s.writeGo sp off bs a c ((List.range m).map fun i => g + 64 * i)).mem =
        Mem.writeBytes s.mem (max g off) (bs.drop (max g off - off)) ∧
      (s.writeGo sp off bs a c ((List.range m).map fun i => g + 64 * i)).cl.sluice = s.cl.sluice ∧
      (s.writeGo sp off bs a c ((List.range m).map fun i => g + 64 * i)).cl.gen = s.cl.gen := by
  induction m with
  | zero =>
    intro s g h0 _ _
    have : bs.drop (max g off - off) = [] := by
      rw [List.drop_eq_nil_iff]
      rcases h0 with h0 | rfl
      · omega
      · simp
    rw [this]; exact ⟨rfl, rfl, rfl⟩
  | succ m ih =>
    intro s g h0 h1 h2
    have hg := h2 0 (by omega)
    have h1 := h1 (by omega)
    rw [range_granules]
    unfold State.writeGo
    dsimp only
    have hlo : isNear (max g off) = true := by simp [isNear]; omega
    generalize hx : (bs.drop (max g off - off)).take (min (g + 64) (off + bs.length) - max g off) = x
    have hw : (s.writeIn sp (max g off) x a c).mem = Mem.writeBytes s.mem (max g off) x ∧
        (s.writeIn sp (max g off) x a c).cl.sluice = s.cl.sluice ∧ (s.writeIn sp (max g off) x a c).cl.gen = s.cl.gen := by
      unfold State.writeIn; rw [if_pos hlo]; dsimp only
      split <;> exact ⟨rfl, rfl, rfl⟩
    have hi := ih (s.writeIn sp (max g off) x a c) (g + 64) (by
      rcases h0 with h0 | h0
      · left; omega
      · right; exact h0) (by omega) (fun i hi => by have := h2 (i + 1) (by omega); omega)
    rw [hi.1, hi.2.1, hi.2.2, hw.1, hw.2.1, hw.2.2]
    refine ⟨?_, rfl, rfl⟩
    rw [show max (g + 64) off = g + 64 by omega]
    by_cases he : g + 64 ≤ off + bs.length
    · have hl : x.length = g + 64 - max g off := by
        rw [← hx, List.length_take, List.length_drop]; omega
      have h := Mem.writeBytes_append s.mem (max g off) x (bs.drop (g + 64 - off))
      rw [hl, show max g off + (g + 64 - max g off) = g + 64 by omega] at h
      rw [← h]
      congr 1
      rw [← hx, show bs.drop (g + 64 - off) = (bs.drop (max g off - off)).drop (min (g + 64) (off + bs.length) - max g off) by
        rw [List.drop_drop]; congr 1; omega]
      exact List.take_append_drop _ _
    · rw [show bs.drop (g + 64 - off) = [] by rw [List.drop_eq_nil_iff]; omega]
      show Mem.writeBytes s.mem (max g off) x = _
      rw [← hx, List.take_of_length_le]
      rw [List.length_drop]; omega

/-- A store to bytes of the near window that no watch covers: its bytes stand, and every byte outside them reads as
before. -/
theorem State.store_near (s : State) (sp : BitVec 16) (off : Nat) (bs : List Byte) (a c : Bool) (hw : Memory.wf s.mem = true)
    (hn : off + bs.length ≤ 0x2000000)
    (hu : ∀ w ∈ s.cl.sluice, ¬(w.off.toNat < off + bs.length ∧ off < w.off.toNat + 8)) :
    (s.store sp off bs a c).mem = Mem.writeBytes s.mem off bs ∧ (s.store sp off bs a c).cl.gen = s.cl.gen ∧
      Stored s.mem (s.store sp off bs a c).mem off bs := by
  have h : (s.writeAt sp off bs a c).mem = Mem.writeBytes s.mem off bs ∧
      (s.writeAt sp off bs a c).cl.sluice = s.cl.sluice ∧ (s.writeAt sp off bs a c).cl.gen = s.cl.gen := by
    by_cases h0 : bs = [] ∧ off % 64 = 0
    · obtain ⟨rfl, h⟩ := h0
      unfold State.writeAt granules
      rw [h]; exact ⟨rfl, rfl, rfl⟩
    · have ho : off < 0x2000000 := by
        by_cases hb : bs = []
        · have : off % 64 ≠ 0 := fun h => h0 ⟨hb, h⟩
          omega
        · have := List.length_pos_of_ne_nil hb
          omega
      have := writeGo_near sp off bs a c ho ((off % 64 + bs.length + 63) / 64) s (off / 64 * 64) (by left; omega) (by omega)
        (by intro i hi; omega)
      rw [show max (off / 64 * 64) off = off by omega, Nat.sub_self] at this
      exact this
  have hf : (s.writeAt sp off bs a c).notify sp off bs.length = s.writeAt sp off bs a c := by
    unfold State.notify
    rw [List.filter_eq_nil_iff.2, State.answerAll]
    intro w hw'
    rw [h.2.1] at hw'
    have := hu w hw'
    simp only [SluiceEntry.onBytes, Bool.and_eq_true, decide_eq_true_eq]
    omega
  unfold State.store
  rw [hf]
  refine ⟨h.1, h.2.2, ?_⟩
  rw [h.1]
  exact ⟨Mem.bytes_writeBytes _ _ hw, fun x hx => Mem.read_writeBytes_other _ hw hx⟩

/-! ## An access whose turn it is -/

theorem State.focus_self {s : State} {p : Core → Bool} (h : p s.core = true) : s.focus p = some s := by
  unfold State.focus; rw [if_pos h]

theorem NearTurn.lines {s : State} {k : Nat} {a : Access} (h : NearTurn s k a) : ∀ g ∈ a.kind.lines, g < 0x2000000 := by
  intro g hg
  simp only [AccKind.lines, List.mem_flatMap] at hg
  obtain ⟨e, he, hg⟩ := hg
  exact granules_near (h.near e he) g hg

theorem State.firstPoison_near (s : State) (sp : BitVec 16) (off : Nat) (gs : List Nat) (h : ∀ g ∈ gs, g < 0x2000000)
    (hc : ∀ g ∈ gs, s.cl.poison.contains (g / 64) = false) : s.firstPoison sp off gs = (s, none) := by
  induction gs with
  | nil => rfl
  | cons g gs ih =>
    unfold State.firstPoison
    have : s.granulePoison sp g = (s, false) := by
      unfold State.granulePoison
      rw [if_pos (by simp [isNear]; exact h g (by simp)), hc g (by simp)]
    rw [this]
    exact ih (fun x hx => h x (by simp [hx])) (fun x hx => hc x (by simp [hx]))

theorem State.poisonIn_near (s : State) (sp : BitVec 16) (es : List (Nat × Nat))
    (h : ∀ e ∈ es, ∀ g ∈ granules e.1 e.2, g < 0x2000000)
    (hc : ∀ e ∈ es, ∀ g ∈ granules e.1 e.2, s.cl.poison.contains (g / 64) = false) : s.poisonIn sp es = (s, none) := by
  induction es with
  | nil => rfl
  | cons e es ih =>
    unfold State.poisonIn
    rw [firstPoison_near s sp e.1 _ (h e (by simp)) (hc e (by simp))]
    exact ih (fun x hx => h x (by simp [hx])) (fun x hx => hc x (by simp [hx]))

/-- An access of the near window whose turn it is meets its late checks and is performed. -/
theorem NearTurn.performed {s : State} {k : Nat} {a : Access} (h : NearTurn s k a)
    (hk : match a.kind with
      | .testinj _ => False
      | .tmapset _ _ => False
      | .sqwait _ _ => False
      | _ => True) :
    exec (.localAccessPerformed k) s =
      .next (((s.dropAccess k).setCore ((s.dropAccess k).core.unheld k)).performAccess a.space a) := by
  show execLocalAccessPerformed k s = _
  unfold execLocalAccessPerformed
  rw [State.focus_self (by rw [h.mine]; rfl)]
  dsimp only
  rw [h.mine]
  dsimp only
  have hm : s.missing a.space a.kind = none := by
    unfold State.missing
    rw [List.find?_eq_none]
    intro g hg
    simp [isNear, h.lines g hg]
  have hl : s.lateCheck a.space a = (s, none) := by
    unfold State.lateCheck
    have : (a.kind.lines.find? fun g => !isNear g && !s.lineRights a.space (s.lineVa g) a.kind.need) = none := by
      rw [List.find?_eq_none]
      intro g hg
      simp [isNear, h.lines g hg]
    rw [this]
    dsimp only
    have hp : s.poisonIn a.space a.kind.ranges = (s, none) := State.poisonIn_near _ _ _
      (fun e he g hg => h.lines g (by simp only [AccKind.lines, List.mem_flatMap]; exact ⟨e, he, hg⟩))
      (fun e he g hg => h.clean g (by simp only [AccKind.lines, List.mem_flatMap]; exact ⟨e, he, hg⟩))
    rw [hp]
    revert hk
    cases a.kind <;> first | (intro h; exact h.elim) | (intro _; dsimp only; split <;> rfl)
  rw [h.turn, hm, hl]
  have hr : s.reached a.space a.kind = true := by
    revert hk
    cases a.kind <;> first | (intro h; exact h.elim) | (intro _; rfl)
  simp [hr]

end Sys2Proof.Machine
end

