-- ==== Sys2Proof/Laws/Ops.lean ====
section
/-! SUPPORT. What each shared operation can do, said once: the gate, a result, a stall, taking a trap, a transfer, and an
access joining the firing's list. -/

namespace Sys2Proof.Machine

/-! ## The gate -/

theorem ready_iff (i : Instr) (s : State) :
    ready i s = true ↔
      regCheck (partN s.cl.part) i = none ∧ s.core.metFault i = none ∧ s.core.stalls i = false ∧ s.portHeld i = false := by
  simp [ready, and_assoc]

/-- An instruction that is ready has its own effect. -/
theorem gate_ready {i : Instr} {s : State} (k : Out) (h : ready i s = true) : gate i s k = k := by
  obtain ⟨h1, h2, h3, h4⟩ := (ready_iff i s).1 h
  simp [gate, h1, h2, h3, h4]

/-- Everything the gate can do. -/
theorem gate_cases (i : Instr) (s : State) (k : Out) :
    (∃ c v, regCheck (partN s.cl.part) i = some (c, v) ∧ gate i s k = .next (s.trap c v)) ∨
    (regCheck (partN s.cl.part) i = none ∧ (s.core.stalls i || s.portHeld i) = true ∧ gate i s k = stall s) ∨
    (∃ f, regCheck (partN s.cl.part) i = none ∧ (s.core.stalls i || s.portHeld i) = false ∧ s.core.metFault i = some f ∧
      gate i s k = .next (s.deferredTrap f)) ∨
    (ready i s = true ∧ gate i s k = k) := by
  by_cases hr : ready i s = true
  · exact .inr (.inr (.inr ⟨hr, gate_ready k hr⟩))
  · unfold gate
    cases h1 : regCheck (partN s.cl.part) i with
    | some x => exact .inl ⟨x.1, x.2, rfl, rfl⟩
    | none =>
      cases h2 : (s.core.stalls i || s.portHeld i) with
      | true => exact .inr (.inl ⟨rfl, rfl, by simp⟩)
      | false =>
        cases h3 : s.core.metFault i with
        | some f => exact .inr (.inr (.inl ⟨f, rfl, rfl, rfl, by simp⟩))
        | none => exact absurd ((ready_iff i s).2 ⟨h1, h3, Bool.or_eq_false_iff.1 h2⟩) hr

/-- A stall changes the core's mark alone. -/
theorem stall_eq (s : State) : stall s = .next { s with core := { s.core with mark := .stalled } } := rfl

/-! ## Results -/

/-- A result leaves every part of the state but the core. -/
theorem State.result_eq (s : State) (d : NDst) (v : Word) : s.result d v = { s with core := (s.result d v).core } := rfl

/-- The entry that a result pushes is q1 of the next group. -/
theorem State.result_bank (s : State) (d : NDst) (v : Word) :
    (s.result d v).core.bank s.core.level = (.arrived v :: s.core.bank s.core.level).take bankDepth := by
  cases d with
  | none => exact Core.push_bank s.core _
  | some r =>
    have h := Core.push_bank (s.core.setN r v) (.arrived v)
    exact h

/-- A result written to a named register is read there. -/
theorem State.result_reg (s : State) (r : Fin 32) (v : Word) : (s.result (some r) v).core.regs.n[r] = v := by
  have h : (s.result (some r) v).core = (s.core.setN r v).push (.arrived v) := rfl
  rw [h, Core.push_eq]
  simp [Core.setN_eq]

/-- A result that arrives later leaves every register and the memory. -/
theorem State.resultAt_regs (s : State) (d : NDst) (k : PendKind) (v : Word) (f : BitVec 5) (due : Nat) :
    (s.resultAt d k v f due).core.regs = s.core.regs ∧ (s.resultAt d k v f due).mem = s.mem := by
  refine ⟨?_, rfl⟩
  unfold State.resultAt State.owe
  simp only [if_true, State.setCore_core]
  rw [Core.push_eq]
  rfl

/-! ## What the capture log and the kill sequencer leave -/

theorem State.capture_frame (s : State) (t : Byte) (k : Word) (d : List Word) :
    (s.capture t k d).core = s.core ∧ (s.capture t k d).mates = s.mates ∧ (s.capture t k d).cl = s.cl ∧
      (s.capture t k d).mem = s.mem := by
  unfold State.capture
  split
  · simp
  · split
    · simp
    · dsimp only
      split <;> simp

theorem State.input_frame (s : State) (t : Byte) (k : Word) (d : List Word) :
    (s.input t k d).core = s.core ∧ (s.input t k d).mates = s.mates ∧ (s.input t k d).mem = s.mem := by
  unfold State.input
  split
  · obtain ⟨h1, h2, _, h4⟩ := s.capture_frame t k d
    exact ⟨h1, h2, h4⟩
  · dsimp only
    split <;> simp [State.askKill]

/-! ## Taking a trap -/

/-- Entry to a level: its registers, its bank, the handler's address; the other registers and memory stay (R316). -/
theorem enterLevel_core (s : State) (l : Nat) (cause : Byte) (tval ret : Word) (off : Nat) (flags : Word) :
    (enterLevel s l cause tval ret off flags).core =
      { (s.core.setTrapRegs (l + 1)
          (s.trapState cause tval ret off flags)).setBank (l + 1) zeroBank with
        level := l + 1, pc := if l = 0 then s.tvec else s.tvec + 64, entry := some .trap, issueAt := s.dev.clk + 4
        grp := Grp.none, mark := .none } := by
  unfold enterLevel
  dsimp only
  rw [(State.input_frame _ _ _ _).1]
  rfl

theorem enterLevel_mem (s : State) (l : Nat) (cause : Byte) (tval ret : Word) (off : Nat) (flags : Word) :
    (enterLevel s l cause tval ret off flags).mem = s.mem := by
  unfold enterLevel
  dsimp only
  rw [(State.input_frame _ _ _ _).2.2]
  rfl

/-- No trap changes memory. -/
theorem takeTrap_mem (s : State) (cause : Byte) (tval ret : Word) (off : Nat) (flags : Word) :
    (takeTrap s cause tval ret off flags).mem = s.mem := by
  unfold takeTrap
  split
  · exact enterLevel_mem ..
  · exact enterLevel_mem ..
  · rfl

/-- The registers of the firing stay as they are when a trap is taken. -/
theorem takeTrap_regs (s : State) (cause : Byte) (tval ret : Word) (off : Nat) (flags : Word) :
    (takeTrap s cause tval ret off flags).core.regs = s.core.regs := by
  have h (l : Nat) : (enterLevel s l cause tval ret off flags).core.regs = s.core.regs := by
    rw [enterLevel_core, Core.setBank_eq]
    unfold Core.setTrapRegs
    split <;> rfl
  unfold takeTrap
  split
  · exact h 0
  · exact h 1
  · rfl

@[simp] theorem State.trap_mem (s : State) (c : Byte) (v : Word) : (s.trap c v).mem = s.mem := takeTrap_mem ..
@[simp] theorem State.trap_regs (s : State) (c : Byte) (v : Word) : (s.trap c v).core.regs = s.core.regs := takeTrap_regs ..

/-! ## Transfers -/

/-- Everything a transfer can do: trap on its pointer, on its stack check or on a slot that is no target; wait for its
line; or stand in the group's `xfer`. -/
theorem transfer_cases (s : State) (t : Word) (sp : Option (Byte × Word)) (x : Xfer) :
    (∃ c, pointerCheck t = some c ∧ transfer s t sp x = .next (s.trap c t)) ∨
    (∃ y, pointerCheck t = none ∧ sp = some y ∧ transfer s t sp x = .next (s.trap y.1 y.2)) ∨
    (pointerCheck t = none ∧ sp = none ∧
      (transfer s t sp x = awaitLine (s.askLine (lineOf t)) ∨ transfer s t sp x = .next (s.trap 0x02 t) ∨
        transfer s t sp x = .next (s.setXfer x))) := by
  unfold transfer
  split
  · rename_i c h; exact .inl ⟨c, h, rfl⟩
  · rename_i h
    split
    · rename_i y; exact .inr (.inl ⟨y, h, rfl, rfl⟩)
    · refine .inr (.inr ⟨h, rfl, ?_⟩)
      split
      · split
        · exact .inr (.inr rfl)
        · exact .inl rfl
      · split
        · exact .inr (.inr rfl)
        · exact .inr (.inl rfl)

/-! ## Accesses -/

/-- An access that issues changes the core and the next id, and nothing of memory. -/
theorem State.addAccess_frame (s : State) (k : AccKind) (push : Bool) (ds : List Dest) (due : Nat) :
    (s.addAccess k push ds due).mem = s.mem ∧ (s.addAccess k push ds due).mates = s.mates ∧
      (s.addAccess k push ds due).dev = s.dev := ⟨rfl, rfl, rfl⟩

/-- An access that issues writes no register. -/
theorem State.addAccess_regs (s : State) (k : AccKind) (push : Bool) (ds : List Dest) (due : Nat) :
    (s.addAccess k push ds due).core.regs = s.core.regs := by
  unfold State.addAccess State.owe
  cases push with
  | false => rfl
  | true =>
    simp only [if_true, State.setCore_core, State.takeId_core]
    rw [Core.push_eq]

/-- Everything an access instruction can do. -/
theorem issueAccess_ready {i : Instr} {s : State} {align : Nat} {writes : Bool} {kind : AccKind} {push : Bool} {ds : List Dest}
    {due : Nat} (h : ready i s = true) (hc : s.issueCheck align writes kind.ranges = none) (ha : s.core.acquiring = false)
    (hb : (kind.stores && s.core.bufferFull) = false) :
    issueAccess i s align writes kind push ds due = .next (s.addAccess kind push ds (s.dev.clk + due)) := by
  unfold issueAccess
  rw [gate_ready _ h, hc]
  simp [ha, hb]

end Sys2Proof.Machine
end

