-- ==== Sys2Proof/Laws/Results.lean ====
section
/-! SUPPORT. The shared operations as the statements describe them: a result, a later result, an access, a vector
instruction, a matrix command, a transfer and a trap, each with all that it leaves unchanged. -/

namespace Sys2Proof.Machine

/-! ## Results -/

theorem Core.push_pushed (c : Core) (e : QEntry) : Pushed c (c.push e) e := by
  constructor <;> unfold Core.push <;> rcases hl : c.level with _ | _ | l <;>
    simp [Core.setBank, Core.bank, pushedBank, hl]

theorem filter_none (l : List (Dest × FaultInfo)) : l.filter (fun x => (none : Option Dest) != some x.1) = l := by
  apply List.filter_eq_self.2
  intro x _; rfl

theorem filter_some (d : Dest) (l : List (Dest × FaultInfo)) :
    l.filter (fun x => some d != some x.1) = l.filter fun x => x.1 != d := by
  apply List.filter_congr
  intro x _
  by_cases h : x.1 = d
  · subst h; simp
  · have h' : d ≠ x.1 := fun e => h e.symm
    simp [bne, h, h']

/-- A result is exactly what `ScalarResult` says. -/
theorem State.result_spec (s : State) (d : NDst) (v : Word) : ScalarResult s (s.result d v) d v := by
  cases d with
  | none =>
    have h : s.result none v = s.setCore (s.core.push (.arrived v)) := rfl
    refine ⟨Core.push_pushed s.core _, ⟨?_, ?_, ?_, ?_, ?_⟩, ?_⟩
    all_goals first | (intro k) | skip
    all_goals rw [h]
    all_goals simp only [State.setCore_core]
    all_goals rw [Core.push_eq]
    · simp
    · simp only [State.setCore, Option.map_none, filter_none]
  | some r =>
    have h : s.result (some r) v = s.setCore ((s.core.setN r v).push (.arrived v)) := rfl
    have hp := Core.push_pushed (s.core.setN r v) (.arrived v)
    refine ⟨⟨hp.low, hp.mid, hp.high, hp.grp⟩, ⟨?_, ?_, ?_, ?_, ?_⟩, ?_⟩
    all_goals first | (intro k) | skip
    all_goals rw [h]
    all_goals simp only [State.setCore_core]
    all_goals rw [Core.push_eq]
    · simp [Core.setN, Core.clearFault, Vector.getElem_set, Fin.ext_iff]
    · rfl
    · rfl
    · rfl
    · rfl
    · simp only [State.setCore, Option.map_some, filter_some]
      rfl

/-- What `owe` leaves: the queue position, the registers owed, the next id. -/
theorem State.owe_eq (s : State) (push : Bool) (ds : List Dest) :
    s.owe push ds = { s with
      core := { s.core with
        bank0 := (s.owe push ds).core.bank0, bank1 := (s.owe push ds).core.bank1, bank2 := (s.owe push ds).core.bank2
        grp := (s.owe push ds).core.grp, owed := s.core.owed ++ ds.map fun d => (s.cl.nextId, d) }
      cl := { s.cl with nextId := s.cl.nextId + 1 } } := by
  cases push
  · rfl
  · simp only [State.owe, if_true, State.takeId, State.setCore]
    rw [Core.push_eq]
    rfl

theorem State.owe_pushed (s : State) (ds : List Dest) : Pushed s.core (s.owe true ds).core (.pending s.cl.nextId) := by
  have h := Core.push_pushed { s.core with owed := s.core.owed ++ ds.map fun d => (s.id, d) } (.pending s.id)
  exact ⟨h.low, h.mid, h.high, h.grp⟩

theorem State.owe_kept (s : State) (ds : List Dest) :
    (s.owe false ds).core.bank0 = s.core.bank0 ∧ (s.owe false ds).core.bank1 = s.core.bank1 ∧
      (s.owe false ds).core.bank2 = s.core.bank2 ∧ (s.owe false ds).core.grp = s.core.grp := ⟨rfl, rfl, rfl, rfl⟩

/-- A result that arrives later is exactly what `LaterResult` says. -/
theorem State.resultAt_spec (s : State) (d : NDst) (k : PendKind) (v : Word) (f : BitVec 5) (due : Nat) :
    LaterResult s (s.resultAt d k v f due) d k v f due := by
  have hp := (s.setCore { s.core with
    pend := s.core.pend ++ [{ id := s.id, kind := k, value := .scalar v, flags := f, due := due }] }).owe_pushed (dstOf d).toList
  refine ⟨⟨hp.low, hp.mid, hp.high, hp.grp⟩, ?_⟩
  show (s.setCore _).owe true (dstOf d).toList = _
  rw [State.owe_eq]
  cases d <;> rfl

/-! ## Accesses -/

/-- An access that issues is exactly what `AccessIssued` says. -/
theorem State.addAccess_spec (s : State) (k : AccKind) (push : Bool) (ds : List Dest) (due : Nat) :
    AccessIssued s (s.addAccess k push ds (s.dev.clk + due)) k ds due push := by
  refine ⟨?_, ?_, ?_, ?_⟩
  · let a : Access :=
      { id := s.id, firing := s.core.number, space := s.core.task.space, kind := k, held := s.heldMode, orphan := false
        ret := s.core.pc, off := s.core.grp.off, due := s.dev.clk + due, bad := none, known := s.known k }
    refine ⟨a, ?_, rfl, rfl, rfl, rfl, rfl, rfl, rfl⟩
    show ((s.owe push ds).core.acc ++ _) = _
    rw [State.owe_eq]
  · cases push
    · exact ⟨rfl, rfl, rfl, rfl⟩
    · have h := s.owe_pushed ds
      exact ⟨h.low, h.mid, h.high, h.grp⟩
  · have hc : (s.heldMode && !s.decided k && k.cls != .hint && (k.reads || k.ranges.any fun e => !isNear e.1)) = true ↔
        ((s.core.level ≠ 0 ∨ s.core.nonRestart = true) ∧ s.decided k = false ∧ k.cls ≠ .hint ∧ (k.reads = true ∨ ∃ e ∈ k.ranges, 0x2000000 ≤ e.1)) := by
      simp [State.heldMode, State.restartable, isNear, and_assoc]
    have hw : (s.addAccess k push ds (s.dev.clk + due)).core.wait = s.core.wait ++
        (if (s.heldMode && !s.decided k && k.cls != .hint && (k.reads || k.ranges.any fun e => !isNear e.1)) = true then [.held s.cl.nextId] else []) := by
      unfold State.addAccess
      simp only [State.setCore_core]
      rw [State.owe_eq]
      rfl
    rw [hw]
    exact congrArg (s.core.wait ++ ·) (if_congr hc rfl rfl)
  · show (s.owe push ds).setCore _ = _
    simp only [State.setCore, State.addAccess]
    rw [State.owe_eq]

/-- The issue checks pass exactly where `IssueOk` says. -/
theorem State.issueCheck_ok {s : State} {align : Nat} {writes : Bool} {kind : AccKind} (h : IssueOk s align writes kind) :
    s.issueCheck align writes kind.ranges = none := by
  have h1 : firstBad (fun e => decide (e.1 % align ≠ 0)) kind.ranges = none := by
    simp only [firstBad, Option.map_eq_none_iff, List.find?_eq_none]
    intro e he; simp [h.aligned e he]
  have h2 : firstBad (fun e => meetsReserved e.1 e.2) kind.ranges = none := by
    simp only [firstBad, Option.map_eq_none_iff, List.find?_eq_none]
    intro e he; have := (h.mapped e he).1; simp [meetsReserved]; omega
  have h3 : firstBad s.pastLive kind.ranges = none := by
    simp only [firstBad, Option.map_eq_none_iff, List.find?_eq_none]
    intro e he; have := (h.mapped e he).2; simp [State.pastLive, isNear]; omega
  unfold State.issueCheck
  rw [h1]; dsimp only
  rw [h2]; dsimp only
  rw [h3]; dsimp only
  cases writes with
  | false => rfl
  | true =>
    have h4 : kind.ranges.findSome? (fun e => s.chanHit e.1 e.2) = none := by
      rw [List.findSome?_eq_none_iff]
      intro e he
      have := h.channels rfl e he
      unfold State.chanHit State.chanArea
      rw [if_neg]
      simp only [Bool.and_eq_true, decide_eq_true_eq]
      exact this
    simp only [h4, Option.map_none, if_true]

/-- An access instruction that is ready and passes its issue checks issues its access. -/
theorem issueAccess_spec {i : Instr} {s : State} {align : Nat} {writes : Bool} {kind : AccKind} {push : Bool} {ds : List Dest}
    {due : Nat} (h : ready i s = true) (hk : IssueOk s align writes kind) :
    ∃ t, issueAccess i s align writes kind push ds due = .next t ∧ AccessIssued s t kind ds due push := by
  refine ⟨_, issueAccess_ready h (State.issueCheck_ok hk) hk.acquire ?_, State.addAccess_spec ..⟩
  cases hs : kind.stores with
  | false => rfl
  | true => simp [hk.room hs]

/-! ## The units -/

/-- A vector instruction that is ready and finds room takes its queue entry. -/
theorem vecIssue_spec {i : Instr} {s : State} {xs : List Word} {push : Bool} (h : ready i s = true)
    (hr : s.core.vq.length < 8) : ∃ t, vecIssue i s xs push = .next t ∧ VectorIssued s t i xs push := by
  unfold vecIssue
  rw [gate_ready _ h, if_neg (by omega)]
  let x : VCmd := { id := s.id, instr := i, scalars := xs, caps := s.core.captured i, eligible := s.eligibleFrom i }
  refine ⟨_, rfl, ⟨x, ?_, rfl, rfl, rfl⟩, ?_, ?_⟩
  · rw [State.owe_eq]; rfl
  · cases push
    · exact ⟨rfl, rfl, rfl, rfl⟩
    · have hp := (s.setCore { s.core with
        vq := s.core.vq ++ [{ id := s.id, instr := i, scalars := xs, caps := s.core.captured i, eligible := s.eligibleFrom i }]
        vqFull := false }).owe_pushed (dests i)
      exact ⟨hp.low, hp.mid, hp.high, hp.grp⟩
  · rw [State.owe_eq]; rfl

/-- A matrix command is exactly what `CommandQueued` says. -/
theorem State.pushCmd_spec (s : State) (op : MOp) (due : Nat) (range : Option (Nat × Nat × Bool)) (ds : List Dest) :
    CommandQueued s (s.pushCmd op due range ds) op due range ds := by
  constructor
  unfold State.pushCmd
  rw [State.owe_eq]
  cases range <;> rfl

/-- A matrix command that is ready, passes its checks and finds room is queued. -/
theorem issueCmd_spec {i : Instr} {s : State} {op : MOp} {due : Nat} {range : Option (Nat × Nat × Bool)} {ds : List Dest}
    (h : ready i s = true) (ha : s.core.acquiring = false) (hq : s.core.mqFull = false)
    (hb : s.core.sbFree range.toList.length = true) :
    ∃ t, issueCmd i s none op due range ds = .next t ∧ CommandQueued s t op due range ds := by
  unfold issueCmd
  rw [gate_ready _ h]
  refine ⟨_, ?_, State.pushCmd_spec ..⟩
  simp [ha, hq, hb]

theorem State.setXfer_spec (s : State) (x : Xfer) : TransferSet s (s.setXfer x) x := rfl

/-- A pull that starts is exactly what `PullStarted` says. -/
theorem State.startXfer_spec (s : State) (ch : Fin 16) (cls : BitVec 2) (d : NDst) (kind : XferKind) (lines : List PullLine)
    (fault : Option (Byte × Nat)) (homes : List (BitVec 17)) (ranges : List (Nat × Nat × Bool)) :
    PullStarted s (s.startXfer ch cls d kind lines fault homes ranges) ch cls d kind lines fault
      (s.promise (s.core.pullClass cls) homes (lineCount lines)) ranges := by
  unfold State.startXfer
  dsimp only
  unfold State.chan
  generalize s.promise (s.core.pullClass cls) homes (lineCount lines) = p
  generalize hid : BitVec.ofNat 64 s.cl.chans[ch].next = w
  let k : Core := { s.core with
    sb := s.core.sb ++ ranges.map fun r => { id := s.id, firing := s.core.number, lo := r.1, hi := r.2.1, write := r.2.2 }
    pulls := s.core.pulls ++ [(ch.val, s.cl.chans[ch].next)] }
  have h1 := Core.push_pushed (k.setOpt (dstOf d) w) (.arrived w)
  have h2 := Core.push_pushed ((k.setOpt (dstOf d) w).push (.arrived w)) (.arrived p)
  constructor
  · refine ⟨(k.setOpt (dstOf d) w).push (.arrived w), ?_, ?_⟩
    · rw [hid]
      cases d with
      | none => exact ⟨h1.low, h1.mid, h1.high, h1.grp⟩
      | some r => exact ⟨h1.low, h1.mid, h1.high, h1.grp⟩
    · exact ⟨h2.low, h2.mid, h2.high, h2.grp⟩
  · rw [hid]
    constructor
    · intro r
      show (((k.setOpt (dstOf d) w).push (.arrived w)).push (.arrived p)).regs.n[r] = _
      rw [Core.push_eq, Core.push_eq]
      cases d with
      | none => simp [dstOf, Core.setOpt, k]
      | some r => simp [dstOf, Core.setOpt, Core.setDest, Core.setN, Core.clearFault, Vector.getElem_set, Fin.ext_iff, k]
    · show (((k.setOpt (dstOf d) w).push (.arrived w)).push (.arrived p)).regs.v = _
      rw [Core.push_eq, Core.push_eq]; cases d <;> rfl
    · show (((k.setOpt (dstOf d) w).push (.arrived w)).push (.arrived p)).regs.m = _
      rw [Core.push_eq, Core.push_eq]; cases d <;> rfl
    · show (((k.setOpt (dstOf d) w).push (.arrived w)).push (.arrived p)).regs.tm = _
      rw [Core.push_eq, Core.push_eq]; cases d <;> rfl
    · show (((k.setOpt (dstOf d) w).push (.arrived w)).push (.arrived p)).regs.lc = _
      rw [Core.push_eq, Core.push_eq]; cases d <;> rfl
  · show State.count (State.setChan (State.setCore s.takeId (((k.setOpt (dstOf d) w).push (.arrived w)).push (.arrived p))) ch _) _ _ = _
    rw [Core.push_eq, Core.push_eq]
    cases d with
    | none => simp only [Option.map_none, filter_none]; rfl
    | some r => simp only [Option.map_some, filter_some]; rfl

/-! ## Traps -/

theorem causeWord_spec (cause : Byte) (off : Nat) : IsCause (causeWord cause off 0) cause off := by
  have h : off % 8 < 8 := Nat.mod_lt _ (by decide)
  unfold IsCause causeWord
  refine ⟨?_, ?_, ?_⟩
  · apply BitVec.eq_of_toNat_eq
    simp only [BitVec.extractLsb'_toNat, BitVec.toNat_or, BitVec.toNat_setWidth, BitVec.toNat_ofNat]
    interval_cases hh : off % 8 <;> revert cause <;> decide
  · simp only [BitVec.extractLsb'_toNat, BitVec.toNat_or, BitVec.toNat_setWidth, BitVec.toNat_ofNat]
    interval_cases hh : off % 8 <;> revert cause <;> decide
  · apply BitVec.eq_of_toNat_eq
    simp only [BitVec.extractLsb'_toNat, BitVec.toNat_or, BitVec.toNat_setWidth, BitVec.toNat_ofNat]
    interval_cases hh : off % 8 <;> revert cause <;> decide

theorem enterLevel_mates (s : State) (l : Nat) (cause : Byte) (tval ret : Word) (off : Nat) (flags : Word) :
    (enterLevel s l cause tval ret off flags).mates = s.mates := by
  unfold enterLevel
  dsimp only
  rw [(State.input_frame _ _ _ _).2.1]
  rfl

/-- Entry to level 1 or 2 is exactly what `Entered` says. -/
theorem enterLevel_spec (s : State) (l : Nat) (hl : l < 2) (cause : Byte) (tval ret : Word) (off : Nat) :
    Entered s (enterLevel s l cause tval ret off 0) l cause tval ret off := by
  have hc := enterLevel_core s l cause tval ret off 0
  have hw0 : IsCause (causeWord cause off 0#64) cause off := causeWord_spec cause off
  obtain rfl | rfl : l = 0 ∨ l = 1 := by omega
  · refine ⟨?_, ?_, ?_, ?_, ?_, ?_, ⟨?_, ?_⟩, ?_, enterLevel_mem .., enterLevel_mates ..⟩ <;>
      (rw [hc] <;> simp [Core.trapRegs, Core.setTrapRegs, Core.setBank, Core.bank, hw0, State.trapState])
  · refine ⟨?_, ?_, ?_, ?_, ?_, ?_, ⟨?_, ?_⟩, ?_, enterLevel_mem .., enterLevel_mates ..⟩ <;>
      (rw [hc] <;> simp [Core.trapRegs, Core.setTrapRegs, Core.setBank, Core.bank, hw0, State.trapState])

/-- A trap below the top level enters the next level. -/
theorem takeTrap_spec (s : State) (hl : s.core.level < 2) (cause : Byte) (tval ret : Word) (off : Nat) :
    Entered s (takeTrap s cause tval ret off 0) s.core.level cause tval ret off := by
  unfold takeTrap
  obtain h | h : s.core.level = 0 ∨ s.core.level = 1 := by omega
  · rw [h]; exact enterLevel_spec s 0 (by decide) cause tval ret off
  · rw [h]; exact enterLevel_spec s 1 (by decide) cause tval ret off

end Sys2Proof.Machine
end

