-- ==== Sys2Proof/Tests/Slice0.lean ====
section
/-! SUPPORT. Tests of the model, each one step on a small state with a result that the manual states, and witnesses that
the hypotheses of the statements can be met, clause by clause, at boundary values. -/

set_option exponentiation.threshold 4096
set_option maxRecDepth 100000

namespace Sys2Proof.Tests

open Sys2Proof Sys2Proof.Machine

/-! ## Helpers -/

/-- The instruction answers a next state that meets `p`. -/
def ran (i : Instr) (s : State) (p : State → Bool) : Bool :=
  match exec i s with
  | .next t => p t
  | .fault _ => false
  | .refused _ => false

/-- The instruction answers the state `t`. -/
def gives (i : Instr) (s t : State) : Bool := ran i s fun u => u == t

/-- The instruction takes a trap of the cause and TVAL at level 1. -/
def traps (i : Instr) (s : State) (cause : Byte) (tval : Word) : Bool :=
  ran i s fun t => t.core.level == 1 && t.core.trap1.cause.extractLsb' 0 8 == cause && t.core.trap1.tval == tval

/-- The newest entry of the bank of TL0. -/
def top (t : State) : Option QEntry := t.core.bank0.head?

/-- A pending result of a value, at a time, with flags. -/
def owes (t : State) (v : Word) (flags : BitVec 5) (due : Nat) : Bool :=
  t.core.pend.any fun p => p.value == .scalar v && p.flags == flags && p.due == due

/-- The launch that the small states run under: space 7, one export target. -/
def binding : Binding :=
  { graph := 3, space := 7, tvec := 0x0000000000001000, limit := 4, hwbase := 0, wlen := 0, exports := [0x0105#17],
    capture := false, replay := false, timed := false }

/-- The clear space 7. -/
def clear7 : SpaceDesc :=
  { space := 7, mode := 10, root := 0, genWord := 0, slot := 0, slotGen := 0, valid := true, test := false, gen := 0 }

/-- A member of the pod. -/
def member (d : BitVec 10) : Member := { dev := d, member := true, ethernet := false, epoch := 0, pathBound := 0 }

/-- A core that runs a firing of width 1 under a partition of N = 32, A = 8, S = 1 (live near window 28,966,912 bytes). -/
def base : State :=
  { State.reset with
    core := { State.reset.core with status := .running, sp := 4096, spbase := 4096 }
    cl := { State.reset.cl with part := 0x10820, bound := some binding }
    dev := { State.reset.dev with booted := true, clk := 100, members := [member 0], spaces := [clear7] } }

/-- The same with two named registers set. -/
def regs (a b : Word) (s : State) : State :=
  s.setCore { s.core with regs := { s.core.regs with n := (s.core.regs.n.set 1 a).set 2 b } }

/-- The same with a vector register set. -/
def vreg1 (x : VReg) (s : State) : State := s.setCore { s.core with regs := { s.core.regs with v := s.core.regs.v.set 1 x } }

/-- The same at a trap level. -/
def atLevel (l : Nat) (s : State) : State := s.setCore { s.core with level := l }

/-- n1 and n2 as operands. -/
def n1 : Src := .n 1
def n2 : SrcImm := .reg (.n 2)

/-! ## WellFormed refuses: one ill-formed term for each check -/

theorem test_wf_spawn_join : (Instr.spawn (.n 1) (.n 2) none false false 0 65).wellFormed = false := by decide
theorem test_wf_spawn_actor_join : (Instr.spawn (.n 1) (.n 2) none true false 0 1).wellFormed = false := by decide
theorem test_wf_bitf_len : (Instr.bitf .x none n1 0 0).wellFormed = false := by decide
theorem test_wf_bitf_end : (Instr.bitf .x none n1 60 5).wellFormed = false := by decide
theorem test_wf_lea_shift : (Instr.lea false 9 none n1 none 0).wellFormed = false := by decide
theorem test_wf_pushm_order : (Instr.pushm 9 4).wellFormed = false ∧ (Instr.popm 9 4).wellFormed = false := by decide
theorem test_wf_fp_imm : (Instr.fadd .bf16 none n1 (.imm 0x10000)).wellFormed = false := by decide
theorem test_wf_ffma_imm : (Instr.ffma .fp32 none n1 n1 (.imm 0x100000000)).wellFormed = false := by decide
theorem test_wf_fcvt_int_int : (Instr.fcvt .int8 .int16 false false none n1).wellFormed = false := by decide
theorem test_wf_fcvt_mx : (Instr.fcvt .fp32 .mxf4 false false none n1).wellFormed = false := by decide
theorem test_wf_fcvt_unsigned_float : (Instr.fcvt .fp32 .bf16 false true none n1).wellFormed = false := by decide
theorem test_wf_sqadv_d : (Instr.sqadv false (some 1) n1 (.imm 1)).wellFormed = false := by decide
theorem test_wf_negative_threshold : (Instr.sqwait none n1 (.imm (-1))).wellFormed = false := by decide
theorem test_wf_fence_d : (Instr.fence .f (some 1)).wellFormed = false := by decide
theorem test_wf_pull_class : (Instr.pull 0 0 none n1 n1 none 64 0).wellFormed = false := by decide
theorem test_wf_pull_len : (Instr.pull 1 0 none n1 n1 none 32 0).wellFormed = false := by decide
theorem test_wf_pullg_count : (Instr.pullg 1 0 none n1 n1 (.imm 0) 64).wellFormed = false := by decide
theorem test_wf_pullr_n : (Instr.pullr .fp32 false 1 0 none n1 n1 33 0).wellFormed = false := by decide
theorem test_wf_agset_count : (Instr.agset 0 n1 (.imm 33)).wellFormed = false := by decide
theorem test_wf_wld_columns : (Instr.wld .bf16 (.scratch n1 n1) 60 5).wellFormed = false := by decide
theorem test_wf_wld_scales : (Instr.wld .bf16 (.vec 0 0 (some 1)) 0 1).wellFormed = false := by decide
theorem test_wf_mma_rows : (Instr.mma .bf16 (.scratch n1 n1 none) 0 0 3073).wellFormed = false := by decide
theorem test_wf_azero_rows : (Instr.azero 0 0).wellFormed = false := by decide
theorem test_wf_ast_pitch : (Instr.ast .fp32 n1 0 1 33).wellFormed = false := by decide
theorem test_wf_mwait_all : (Instr.mwait 1 0).wellFormed = false := by decide
theorem test_wf_vadd_sat_float : (Instr.vadd .fp32 .sat none 0 1 (.v 2)).wellFormed = false := by decide
theorem test_wf_vneg_sat_float : (Instr.vneg .bf16 true none 0 1).wellFormed = false := by decide
theorem test_wf_vcvt_part : (Instr.vcvt .fp32 (.fmt .bf16) false false 2 none 0 1).wellFormed = false := by decide
theorem test_wf_vcvt_packed : (Instr.vcvt .fp32 .int4 false false 0 none 0 1).wellFormed = false := by decide
theorem test_wf_vcmp_mask : (Instr.vcmp .bf16 (.f .eq) none (.m 0) 1 (.v 2)).wellFormed = false := by decide
theorem test_wf_vcmp_cond : (Instr.vcmp .fp32 (.i .eq) none (.v 0) 1 (.v 2)).wellFormed = false := by decide
theorem test_wf_vred_float_and : (Instr.vred .fp32 .and false none none 1).wellFormed = false := by decide
theorem test_wf_vbcast_imm : (Instr.vbcast .f8a none 0 (.imm 0x100)).wellFormed = false := by decide
theorem test_wf_vext_float : (Instr.vext .fp32 true none 1 (.imm 0)).wellFormed = false := by decide
theorem test_wf_vmxq_block : (Instr.vmxq .mxf8a false 0 1 2 1 0).wellFormed = false := by decide
theorem test_wf_trap_cause : (Instr.trap 0x7F none).wellFormed = false := by decide
theorem test_wf_sysrd_number : (Instr.sysrd none 0x16).wellFormed = false ∧ (Instr.syswr n1 0x130).wellFormed = false := by decide
theorem test_wf_ill_assigned : (Instr.ill 0x010FFFFFFF00000000000000).wellFormed = false := by decide

/-! ## Decoding: words of the manual's text and tables (R14-R17 and each chapter's encoding table) -/

/-- The canonical NOP (R35). -/
theorem test_decode_nop : decode 0x010FFFFFFF00000000000000 = .ok .nop := by decide
/-- The word that R52 shows. -/
theorem test_decode_movi : decode 0x310FE0000000000000000005 = .ok (.movi none 5) := by decide
/-- The words of the example line of chapter 2. -/
theorem test_decode_add : decode 0x10024000FF00000000000000 = .ok (.add .wrap .w64 (some 2) (.q 0) (.reg (.q 1))) := by decide
theorem test_decode_sub : decode 0x110FE000FF00000000000000 = .ok (.sub .wrap .w64 none (.q 0) (.reg (.q 1))) := by decide
/-- R53's PUSHM n4, n9. -/
theorem test_decode_pushm : decode 0x320FE50CFF00000000000000 = .ok (.pushm 4 9) := by decide
/-- Chapter 6's FADD and FCVT. -/
theorem test_decode_fadd : decode 0x380264497F00000000000000 = .ok (.fadd .fp32 (some 3) (.n 1) (.reg (.n 2))) := by decide
theorem test_decode_fcvt : decode 0x4032447FFF00000000000000 = .ok (.fcvt .f8a .fp32 false false (some 2) (.n 1)) := by decide
/-- Chapter 7's CALL, BC and RET. -/
theorem test_decode_call : decode 0x040FFFFFFF00000000000009 = .ok (.call 9) := by decide
theorem test_decode_bc : decode 0x030FE47FFF01000000000002 = .ok (.bc .w64 .ne (.n 1) 2) := by decide
theorem test_decode_ret : decode 0x050FFFFFFF00000000000000 = .ok .ret := by decide
/-- R130's END, YIELD and SPAWN. -/
theorem test_decode_end : decode 0x070FFFFFFF00000000000000 = .ok .endFiring := by decide
theorem test_decode_yield : decode 0x090FFFFFFF00000000000000 = .ok .yield := by decide
theorem test_decode_spawn : decode 0x080FE4497F02000000000000 = .ok (.spawn (.n 1) (.n 2) none false false 2 0) := by decide
/-- Chapter 14's PULL and WAITP. -/
theorem test_decode_pull : decode 0x6002A48A7F02000000000200 =
    .ok (.pull 2 0 (some 5) (.n 2) (.n 4) none 512 0) := by decide
theorem test_decode_waitp : decode 0x6402C00AFF00000000000000 = .ok (.waitp false 0 (some 6) (.q 0) (.n 5)) := by decide
/-- Unused fields, a reserved specifier, a bad FM and an ILL code (R13, R17, R31). -/
theorem test_decode_unused_field : (decode 0x010FFFFFFE00000000000000).toOption = none := by decide
theorem test_decode_reserved_code : (decode 0x10024EC0FF00000000000000).toOption = none := by decide
theorem test_decode_bad_width : (decode 0x10424000FF00000000000000).toOption = none := by decide
theorem test_decode_ill : decode 0x000FFFFFFF00000000000000 = .ok (.ill 0x000FFFFFFF00000000000000) := by decide
/-- One instruction of every other family, field by field from its encoding table: OP, FM, D, A, B, C, FN, IMM. -/
theorem test_decode_ldx : decode (0x48#8 ++ 0#4 ++ 0x43#7 ++ 0x11#7 ++ 0x12#7 ++ 0x7F#7 ++ 0#8 ++ 0#48) =
    .ok (.ldx .w64 (.stride (.n 2)) none 3 (.n 1) 0) := by decide
theorem test_decode_amo : decode (0x4B#8 ++ 1#4 ++ 0x7F#7 ++ 0x11#7 ++ 0x12#7 ++ 0x7F#7 ++ 8#8 ++ 0#48) =
    .ok (.amo .xchg true none (.n 1) (.n 2) 0) := by decide
theorem test_decode_watch : decode (0x5A#8 ++ 0#4 ++ 0x7F#7 ++ 0x11#7 ++ 0x12#7 ++ 0x7F#7 ++ 5#8 ++ 0#48) =
    .ok (.watch 5 (.n 1) (.reg (.n 2))) := by decide
theorem test_decode_mma : decode (0x71#8 ++ 1#4 ++ 0x7F#7 ++ 0x11#7 ++ 0x12#7 ++ 0x7F#7 ++ 2#8 ++ (0#24 ++ 16#12 ++ 4#12)) =
    .ok (.mma .bf16 (.scratch (.n 1) (.n 2) none) 2 4 16) := by decide
theorem test_decode_vadd : decode (0x80#8 ++ 0xC#4 ++ 0x43#7 ++ 0x41#7 ++ 0x42#7 ++ 0x7F#7 ++ 0#8 ++ 0#48) =
    .ok (.vadd .int32 .wrap none 3 1 (.v 2)) := by decide
theorem test_decode_tret : decode (0xC1#8 ++ 0#4 ++ 0x7F#7 ++ 0x7F#7 ++ 0x7F#7 ++ 0x7F#7 ++ 0#8 ++ 0#48) = .ok .tret := by decide

/-! ## One step each: results from the manual's worked examples and rules -/

/-- The newest result is `v`. -/
def pushed (i : Instr) (s : State) (v : Word) : Bool := ran i s fun t => top t == some (.arrived v)

-- Chapter 4's worked values.
theorem test_add_wraps : pushed (.add .wrap .w32 none n1 n2) (regs 0x7FFFFFFF 1 base) 0xFFFFFFFF80000000 = true := by decide
theorem test_add_carry : pushed (.add .carry .w8 none n1 n2) (regs 0xFF 1 base) 1 = true := by decide
theorem test_sub_satu : pushed (.sub .satu .w16 none n1 n2) (regs 3 5 base) 0 = true := by decide
theorem test_mul_low : ran (.mul .w8 none n1 n2) (regs 0x10 0x18 base) (fun t => owes t 0xFFFFFFFFFFFFFF80 0 103) = true := by decide
theorem test_mulh_uu : ran (.mulh .uu .w64 none n1 n2) (regs 0xFFFFFFFFFFFFFFFF 0xFFFFFFFFFFFFFFFF base)
    (fun t => owes t 0xFFFFFFFFFFFFFFFE 0 103) = true := by decide
theorem test_mulh_ss : ran (.mulh .ss .w64 none n1 n2) (regs 0xFFFFFFFFFFFFFFFF 0xFFFFFFFFFFFFFFFF base)
    (fun t => owes t 0 0 103) = true := by decide
theorem test_div_truncates : ran (.div .w32 none n1 n2) (regs 0xFFFFFFF9 2 base)
    (fun t => owes t 0xFFFFFFFFFFFFFFFD 0 118) = true := by decide
theorem test_div_most_negative : ran (.div .w32 none n1 n2) (regs 0x80000000 0xFFFFFFFF base)
    (fun t => owes t 0xFFFFFFFF80000000 0 118) = true := by decide
theorem test_rem_sign : ran (.rem .w32 none n1 n2) (regs 0xFFFFFFF9 2 base)
    (fun t => owes t 0xFFFFFFFFFFFFFFFF 0 118) = true := by decide
theorem test_divu : ran (.divu .w32 none n1 n2) (regs 0xFFFFFFF9 2 base) (fun t => owes t 0x7FFFFFFC 0 118) = true := by decide
theorem test_remu_by_zero : traps (.remu .w32 none n1 n2) (regs 5 0 base) 0x0A 5 = true := by decide
theorem test_and : pushed (.and .w8 none n1 n2) (regs 0xFFF 0x3C3 base) 0xC3 = true := by decide
theorem test_andn : pushed (.andn .w8 none n1 n2) (regs 0xFF 0x0F base) 0xF0 = true := by decide
theorem test_or : pushed (.or .w16 none n1 n2) (regs 0x8000 1 base) 0x8001 = true := by decide
theorem test_xor : pushed (.xor .w64 none n1 n2) (regs 0xF0 0xFF base) 0x0F = true := by decide
theorem test_shl_by_width : pushed (.shl .w8 none n1 n2) (regs 0x81 8 base) 0 = true := by decide
theorem test_shr : pushed (.shr .w8 none n1 n2) (regs 0x1FF 4 base) 0x0F = true := by decide
theorem test_sar_past_width : pushed (.sar .w8 none n1 n2) (regs 0x80 100 base) 0xFFFFFFFFFFFFFFFF = true := by decide
theorem test_rot_negative : pushed (.rot .w8 none n1 (.imm (-1))) (regs 0x81 0 base) 0xC0 = true := by decide
theorem test_min_signed : pushed (.min .w8 none n1 n2) (regs 0x80 1 base) 0xFFFFFFFFFFFFFF80 = true := by decide
theorem test_minu : pushed (.minu .w8 none n1 n2) (regs 0x80 1 base) 1 = true := by decide
theorem test_max_signed : pushed (.max .w8 none n1 n2) (regs 0x80 1 base) 1 = true := by decide
theorem test_maxu : pushed (.maxu .w8 none n1 n2) (regs 0x80 1 base) 0x80 = true := by decide
theorem test_clz_of_zero : pushed (.clz .w16 none n1) (regs 0x10000 0 base) 16 = true := by decide
theorem test_popc : pushed (.popc .w8 none n1) (regs 0x1F1 0 base) 5 = true := by decide
theorem test_ext_signed : pushed (.ext false (.fixed .w16) none n1) (regs 0x18001 0 base) 0xFFFFFFFFFFFF8001 = true := by decide
theorem test_ext_width_operand : pushed (.ext true (.operand n2) none n1) (regs 0x18001 12 base) 1 = true := by decide
theorem test_bitf_signed : pushed (.bitf .xs none n1 8 4) (regs 0xF00 0 base) 0xFFFFFFFFFFFFFFFF = true := by decide
theorem test_bitf_insert : pushed (.bitf (.ins (.n 2)) none n1 8 4) (regs 0 5 base) 0x500 = true := by decide
theorem test_cmp_signed : pushed (.cmp .lt .w8 none n1 n2) (regs 0xFF 1 base) 1 = true := by decide
theorem test_cmp_unsigned : pushed (.cmp .ltu .w8 none n1 n2) (regs 0xFF 1 base) 0 = true := by decide
theorem test_sel_high_bit : pushed (.sel none n1 (.n 2) (.imm 7)) (regs 0x8000000000000000 5 base) 5 = true := by decide
theorem test_lea_modulo : pushed (.lea false 3 none n1 (some (.n 2)) (-8)) (regs 0xFFFFFFFFFF 2 base) 7 = true := by decide
theorem test_far : pushed (.far none n1 n2) (regs 0x38C 0x04001000 base) 0x00038C0004001000 = true := by decide
theorem test_far_sign : pushed (.far none n1 n2) (regs 0x12C03 0 base) 0xFF2C030000000000 = true := by decide
theorem test_homeof_device : pushed (.homeof .dev none n1) (regs 0xFF2C030000000000 0 base) 600 = true := by decide
theorem test_homeof_not_canonical : traps (.homeof .cl none n1) (regs 0x0200000000000000 0 base) 0x07 0x0200000000000000 = true := by decide

-- Chapter 3: registers and the spill stack (R48, R51-R54).
theorem test_mov_mask : ran (.mov (some (.m 3)) (.scalar n1)) (regs 9 0 base)
    (fun t => t.core.regs.m[3] == 9 && top t == some (.arrived 9)) = true := by decide
theorem test_movi : ran (.movi (some (.n 4)) 0x123456789) base (fun t => t.core.regs.n[4] == 0x123456789) = true := by decide
theorem test_pushm : ran (.pushm 1 2) (regs 7 8 base) (fun t => t.core.sp == 4080 &&
    Mem.word t.core.spill 4080 == 7 && Mem.word t.core.spill 4088 == 8) = true := by decide
theorem test_popm_past_spbase : traps (.popm 1 2) base 0x12 4112 = true := by decide
theorem test_popm : ran (.popm 1 2) (base.setCore { base.core with sp := 4080, spill := [(4081, 1), (4088, 5)] })
    (fun t => t.core.sp == 4096 && t.core.regs.n[1] == 0x100 && t.core.regs.n[2] == 5) = true := by decide
theorem test_spadj : ran (.spadj (-8)) base (fun t => t.core.sp == 4088) = true := by decide
theorem test_spadj_unaligned : traps (.spadj 4) base 0x06 4 = true := by decide

-- Chapter 6: scalar floating point.
theorem test_fadd : ran (.fadd .fp32 none n1 n2) (regs 0x3F800000 0x34000000 base) (fun t => owes t 0x3F800001 0 104) = true := by decide
theorem test_fsub_zero : ran (.fsub .bf16 none n1 n2) (regs 0x3F80 0x3F80 base) (fun t => owes t 0 0 104) = true := by decide
theorem test_fmul_overflow : ran (.fmul .fp32 none n1 n2) (regs 0x7F7FFFFF 0x40000000 base)
    (fun t => owes t 0x7F800000 0x14 104) = true := by decide
theorem test_ffma : ran (.ffma .fp32 none n1 n1 n2) (regs 0x3F800001 0xBF800002 base) (fun t => owes t 0x28800000 0 104) = true := by decide
theorem test_fdiv_by_zero : ran (.fdiv .fp32 none n1 n2) (regs 0xBF800000 0 base) (fun t => owes t 0xFF800000 2 114) = true := by decide
theorem test_fsqrt : ran (.fsqrt .fp32 none n1) (regs 0x40800000 0 base) (fun t => owes t 0x40000000 0 116) = true := by decide
theorem test_fminmax_num : ran (.fminmax .fp32 false true none n1 n2) (regs 0x7FC00000 0x3F800000 base)
    (fun t => owes t 0x3F800000 0 102) = true := by decide
theorem test_fcmp_unordered : ran (.fcmp .fp32 .un none n1 n2) (regs 0x7FC00000 0 base) (fun t => owes t 1 0 102) = true := by decide
theorem test_fcvt_saturates : ran (.fcvt .f8a .fp32 false false none n1) (regs 0x7F7FFFFF 0 base) (fun t => owes t 0x7F 0x14 102) = true := by decide

-- Chapter 7: control, on a line whose five slots are targets.
/-- The line of five NOPs with the stop and target bits `ctl` (R19), and its parity. -/
def nops (ctl : Nat) : Line :=
  let nop : Line := (0x010FFFFFFF00000000000000#96 : BitVec 96).setWidth 512
  let l : Line := nop ||| (nop <<< 96) ||| (nop <<< 192) ||| (nop <<< 288) ||| (nop <<< 384) |||
    (BitVec.ofNat 512 (0x01000000 + ctl) <<< 480)
  l ||| (((lineParity l).setWidth 512) <<< 496)
/-- Two such lines are cached; the core stands at slot 0 of the first. -/
def onLine (ctl : Nat) : State :=
  { base with
    core := { base.core with pc := 0x00007F0010000000 }
    icache := [(0x00007F0010000000, nops ctl), (0x00007F0010000040, nops ctl)] }
/-- Five groups, all targets. -/
def coded : State := onLine 0x1FF

theorem test_br : ran (.br 10) coded (fun t => t.core.grp.xfer == some (.jump 0x00007F0010000042)) = true := by decide
theorem test_bc_not_taken : gives (.bc .w64 .ne (.n 1) 10) coded coded = true := by decide
theorem test_call_without_room : traps (.call 8) (coded.setCore { coded.core with splim := 4096 }) 0x12 4088 = true := by decide
theorem test_ret_of_empty_stack : traps .ret coded 0x12 4104 = true := by decide
theorem test_jmpi_reserved_slot : traps (.jmpi (.n 1)) (regs 0x00007F0010000005 0 coded) 0x02 0x00007F0010000005 = true := by decide
theorem test_end_above_tl0 :
    ran .endFiring (atLevel 1 base) (fun t => t.core.trap2.cause.extractLsb' 0 8 == 0x16#8) = true := by decide
theorem test_spawn : ran (.spawn (.n 1) (.n 2) none false true 2 3) (regs 0x40 0x80 base)
    (fun t => t.core.commit == [.spawn { ContRec.none with code := 0x40, frame := 0x80, join := 3, prio := 2, wide := true } none]) = true := by decide
theorem test_spawn_full : traps (.spawn (.n 1) (.n 2) none false false 0 0)
    (base.setCore { base.core with commit := List.replicate 32 (.advance 0 1 0 false) }) 0x11 32 = true := by decide

-- Chapter 16: lanes of the vector instructions.
/-- Element `j` of the result of a vector instruction on v1 = `a`, v2 = `b`, v0 = 0, m1 = `m`, with the captured scalars `xs`. -/
def laneOf (i : Instr) (a b : VReg) (m : Word) (xs : List Word) (w j : Nat) : Option Nat :=
  let r := { Regs.zero with v := (Regs.zero.v.set 1 a).set 2 b, m := Regs.zero.m.set 1 m }
  match vecResult { regs := r, caps := [], scalars := xs } (Config.freeRow 0) i with
  | some (.vec (d :: _), _) => some (lane w d j)
  | some (.scalar v, _) => some v.toNat
  | some (.mask v _, _) => some v.toNat
  | some (.vec [], _) => none
  | some (.tmap _, _) => none
  | none => none

theorem test_vadd_sat : laneOf (.vadd .int8 .sat none 0 1 (.v 2)) 0x7F 0x01 0 [] 8 0 = some 0x7F := by decide
theorem test_vsub_satu : laneOf (.vsub .int16 .satu none 0 1 (.v 2)) 0x0003 0x0005 0 [] 16 0 = some 0 := by decide
theorem test_vmul_masked : laneOf (.vmul .int32 (some 1) 0 1 (.v 2)) 0x0000000500000005 0x0000000300000003 1 [] 32 0 = some 15 ∧
    laneOf (.vmul .int32 (some 1) 0 1 (.v 2)) 0x0000000500000005 0x0000000300000003 1 [] 32 1 = some 0 := by decide
theorem test_vfma : laneOf (.vfma .int32 none 0 1 2 (.v 1)) 5 3 0 [] 32 0 = some 20 := by decide
theorem test_vmin_unsigned : laneOf (.vmin .int8 true none 0 1 (.v 2)) 0x80 0x01 0 [] 8 0 = some 1 := by decide
theorem test_vmax_signed : laneOf (.vmax .int8 false none 0 1 (.v 2)) 0x80 0x01 0 [] 8 0 = some 1 := by decide
theorem test_vabs_sat : laneOf (.vabs .int8 true none 0 1) 0x80 0 0 [] 8 0 = some 0x7F := by decide
theorem test_vneg : laneOf (.vneg .int16 false none 0 1) 0x0001 0 0 [] 16 0 = some 0xFFFF := by decide
theorem test_vcvt_e2m3 : laneOf (.vcvt .f8b .e2m3 false false 0 none 0 1) 0x09 0 0 [] 8 0 = some 0x3C := by decide
theorem test_vcvt_int : laneOf (.vcvt .fp32 (.fmt .int32) false false 0 none 0 1) 3 0 0 [] 32 0 = some 0x40400000 := by decide
theorem test_vcmp_lane : laneOf (.vcmp .int32 (.i .lt) none (.v 0) 1 (.v 2)) 0xFFFFFFFF 0 0 [] 32 0 = some 0xFFFFFFFF := by decide
theorem test_vsel : laneOf (.vsel 0 1 2 1) 0x0000000500000005 0x0000000300000003 2 [] 32 0 = some 3 ∧
    laneOf (.vsel 0 1 2 1) 0x0000000500000005 0x0000000300000003 2 [] 32 1 = some 5 := by decide
theorem test_vand_imm : laneOf (.vand .int8 none 0 1 (.imm 0x0F)) 0xABCD 0 0 [] 8 1 = some 0x0B := by decide
theorem test_vor : laneOf (.vor .int16 none 0 1 (.v 2)) 0x8000 0x0001 0 [] 16 0 = some 0x8001 := by decide
theorem test_vxor : laneOf (.vxor .int32 none 0 1 (.v 2)) 0xFF 0xF0 0 [] 32 0 = some 0x0F := by decide
theorem test_vshl_by_width : laneOf (.vshl .int8 none 0 1 (.imm 8)) 0xFF 0 0 [] 8 0 = some 0 := by decide
theorem test_vshr_arithmetic : laneOf (.vshr .int8 true none 0 1 (.imm 200)) 0x80 0 0 [] 8 0 = some 0xFF := by decide
theorem test_vred_and_of_none : laneOf (.vred .int16 .and false (some 1) none 1) 0 0 0 [] 64 0 = some 0xFFFF := by decide
theorem test_vred_min_of_none : laneOf (.vred .int32 .max false (some 1) none 1) 0 0 0 [] 64 0 = some 0xFFFFFFFF80000000 := by decide
theorem test_vperm_modulo : laneOf (.vperm .int32 none 0 1 2) 0x0000000900000007 0x41 0 [] 32 0 = some 9 := by decide
theorem test_vbcast_imm : laneOf (.vbcast .int16 none 0 (.imm 0x1234)) 0 0 0 [] 16 127 = some 0x1234 := by decide
theorem test_viota_wraps : laneOf (.viota .int8 none 0 (.reg (.n 1))) 0 0 0 [0xFF] 8 1 = some 0 := by decide
theorem test_vext_signed : laneOf (.vext .int8 true none 1 (.imm 1)) 0x80FF 0 0 [] 64 0 = some 0xFFFFFFFFFFFFFF80 := by decide
theorem test_vins : laneOf (.vins .int8 1 (.n 1) (.imm 2)) 0xFFFFFF 0 0 [0x1234] 8 2 = some 0x34 := by decide
theorem test_vexp2 : laneOf (.vexp2 .fp32 none 0 1) 0x40400000 0 0 [] 32 0 = some 0x41000000 := by decide
theorem test_vlog2 : laneOf (.vlog2 .fp32 none 0 1) 0x41000000 0 0 [] 32 0 = some 0x40400000 := by decide
theorem test_vrcp_overflows : laneOf (.vrcp .fp32 none 0 1) 0x00000001 0 0 [] 32 0 = some 0x7F800000 := by decide
theorem test_vrsq : laneOf (.vrsq .fp32 none 0 1) 0x40800000 0 0 [] 32 0 = some 0x3F000000 := by decide

-- Chapter 10: local memory. A load issues, and its step reads the bytes.
/-- The only access of the core, performed. -/
def access (kind : AccKind) (s : State) : State :=
  s.setCore { s.core with acc := [{
    id := 9, firing := 0, space := 7, kind := kind, held := false, orphan := false, ret := 0, off := 0, due := 100, bad := none, known := none }] }

/-- Bytes 0xFE at 8, 0xFF at 9. -/
def two (s : State) : State := { s with mem := [(8, 0xFE), (9, 0xFF)] }

theorem test_ld_issue : ran (.ld .w16 true none n1 8) (regs 0 0 base)
    (fun t => t.core.acc.map (fun a => (a.kind, a.due)) == [(.ld 8 2 true, 102)]) = true := by decide
theorem test_ld_performed : ran (.localAccessPerformed 9) (access (.ld 8 2 true) (two base))
    (fun t => owes t 0xFFFFFFFFFFFFFFFE 0 102) = true := by decide
theorem test_ld_unaligned : traps (.ld .w32 false none n1 2) (regs 0 0 base) 0x06 2 = true := by decide
theorem test_st_channel_area : traps (.st .w64 n1 (.n 2) 0) (regs 28965888 0 base) 0x09 28965888 = true := by decide
theorem test_st_performed : ran (.localAccessPerformed 9) (access (.st 8 [0x11, 0]) (two base))
    (fun t => t.mem == [(8, 0x11)]) = true := by decide
theorem test_ldv_issue : ran (.ldv 1 4 n1 0) (regs 64 0 base)
    (fun t => t.core.acc.map (fun a => (a.kind, a.due)) == [(.ldv 64 2 4, 106)]) = true := by decide
theorem test_stv_unaligned : traps (.stv 0 n1 3 0) (regs 32 0 base) 0x06 32 = true := by decide
theorem test_ldx_inactive_lanes : ran (.ldx .w32 (.stride (.n 2)) (some 1) 3 n1 0) (regs 64 4 base)
    (fun t => t.core.acc.map (fun a => a.kind.ranges) == [[]]) = true := by decide
theorem test_stx_unaligned : traps (.stx .w32 (.stride (.n 2)) none n1 3 0) (regs 64 2 base) 0x06 66 = true := by decide
theorem test_pref_near_is_nothing : gives (.pref .touch n1 0) (regs 64 0 base) (regs 64 0 base) = true := by decide
theorem test_amo_min_signed : ran (.localAccessPerformed 9) (access (.amo .min 8 4 1) (two base))
    (fun t => owes t 0xFFFE 0 104 && t.mem == [(8, 1)]) = true := by decide
theorem test_acas_mismatch : ran (.localAccessPerformed 9) (access (.acas 8 4 0 5) (two base))
    (fun t => owes t 0xFFFE 0 104 && t.mem == [(8, 0xFE), (9, 0xFF)]) = true := by decide
theorem test_tmapset_unaligned : traps (.tmapset 0 n1 0) (regs 4 0 base) 0x06 4 = true := by decide

-- Chapters 11-13: far reads, sequence words, watches, fences. Home d0.c5 is 5.
theorem test_ldf_asks_the_home : ran (.ldf .w64 false none n1 8) (regs 0x0000050004000000 0 base)
    (fun t => t.outbox == [.readReq 0 0x0000050004000008 0]) = true := by decide
theorem test_ldfa_unaligned : traps (.ldfa .w64 false none n1 4) (regs 0x0000050004000000 0 base) 0x06 0x0000050004000004 = true := by decide
theorem test_ldfp_not_canonical : traps (.ldfp .w64 false none n1 0) (regs 0x0100000000000000 0 base) 0x07 0x0100000000000000 = true := by decide
theorem test_pchk_empty : pushed (.pchk none 8) base 0 = true := by decide
theorem test_pdrop_all : ran (.pdrop none)
    (base.setCore { base.core with prt := [{ id := 4, sector := 1, space := 7, fill := 0, struck := false }] }) (fun t => t.core.prt == []) = true := by decide
theorem test_sqadv_deferred : ran (.sqadv false none n1 (.imm 3)) (regs 64 0 base)
    (fun t => t.core.commit == [.advance 64 3 0 false] && t.core.bank0 == zeroBank) = true := by decide
theorem test_sqadv_now_performed : ran (.localAccessPerformed 9) (access (.advance 8 3) (two base))
    (fun t => owes t 0x10001 0 104 && t.cl.gen == 1) = true := by decide
theorem test_sqwait_waits : ran (.sqwait none n1 (.imm 1)) (regs 64 0 base)
    (fun t => t.core.wait == [.sqwait 0]) = true := by decide
theorem test_watch : ran (.watch 5 n1 n2) (regs 0x0000050004000000 3 base)
    (fun t => t.core.slots[5].st == .sent && t.core.slots[5].tag == 1 &&
      t.outbox == [.register 0x0000050004000000 3 (.slot 0 0 0 5 1)]) = true := by decide
theorem test_wunwatch : ran (.wunwatch 0x0020) (base.setCore
    { base.core with slots := base.core.slots.set 5 { WSlot.free with st := .fired, tag := 3 } })
    (fun t => t.core.slots[5] == { WSlot.free with tag := 3 }) = true := by decide
theorem test_wsleep_all_free : pushed (.wsleep none (.imm 0x0030)) base 4 = true := by decide
theorem test_wpoll_value : pushed (.wpoll false 5 none) (base.setCore
    { base.core with slots := base.core.slots.set 5 { WSlot.free with st := .fired, value := 77 } }) 77 = true := by decide
theorem test_fence_waits : ran (.fence .f none) base (fun t => t.core.wait == [.fence .f 0 0]) = true := by decide

-- Chapter 14: the pull engine.
theorem test_pull_promise : ran (.pull 1 3 (some 5) n1 (.n 2) none 512 0) (regs 0 0x0000050004000000 base)
    (fun t => t.core.regs.n[5] == 0 && t.core.bank0.getD 1 (.arrived 9) == .arrived 0 &&
      top t == some (.arrived (BitVec.ofNat 64 (100 + 8 + base.pathBound 5 + 8))) && t.cl.chans[3].next == 1) = true := by decide
theorem test_pull_unaligned_source : traps (.pull 1 3 none n1 (.n 2) none 64 0) (regs 0 0x0000050004000008 base) 0x06 0x0000050004000008 = true := by decide
theorem test_pullg_unaligned_list : traps (.pullg 1 3 none n1 (.n 2) (.imm 1) 64) (regs 0 4 base) 0x06 4 = true := by decide
theorem test_pullr_empty_group : traps (.pullr .fp32 false 1 3 none n1 (.n 2) 16 2) (regs 0 0 base) 0x01 2 = true := by decide
theorem test_agset_count : traps (.agset 0 n1 (.reg (.n 2))) (regs 0 33 base) 0x01 33 = true := by decide
theorem test_agset : ran (.agset 0 n1 (.imm 1)) ({ regs 0 0 base with mem := [(3, 0x04), (5, 0x05)] })
    (fun t => t.core.ag[0] == [0x0000050004000000]) = true := by decide
theorem test_waitp_unknown_id : traps (.waitp false 0 none n1 (.n 2)) (regs 0 1 base) 0x09 1 = true := by decide
theorem test_lcset : ran (.lcset 2 (.reg n1)) (regs 0x100000007 0 base) (fun t => t.core.regs.lc[2] == 7#32) = true := by decide
theorem test_equery_next : ran (.equery .nextId 3 none) base (fun t => owes t 0 0 104) = true := by decide

-- Chapter 15: the matrix array.
/-- The core of a gang member. -/
def wide (s : State) : State := s.setCore { s.core with task := { s.core.task with wide := true } }

theorem test_wld_outside_gang : traps (.wld .bf16 (.vec 0 0 none) 0 1) base 0x0E 0 = true := by decide
theorem test_wld_queues : ran (.wld .bf16 (.vec 4 0 none) 3 1) (wide base)
    (fun t => t.core.mq.map (fun m => (m.op, m.due)) == [(.wldVec .bf16 [0] none 3, 103)]) = true := by decide
theorem test_mma_above_tl0 : ran (.mma .bf16 (.scratch n1 (.n 2) none) 0 0 1) (atLevel 1 (wide base))
    (fun t => t.core.trap2.cause.extractLsb' 0 8 == 0x0E#8) = true := by decide
theorem test_azero_past_space : traps (.azero 500 20) base 0x09 512 = true := by decide
theorem test_azero_row : let m := MCmd.new 4 (.azero 2 1) 100
    let t := (base.setCore { base.core with mq := [m], accum := [{ row := 2, data := 5, poison := true }] }).doUnit m
    (t.core.accRow 2 == { row := 2, data := 0, poison := false } && t.core.mq.map (fun x => x.done) == [1]) = true := by decide
theorem test_azero_done : ran .matrixCommandCompletion (base.setCore { base.core with
    mq := [{ MCmd.new 4 (.azero 2 1) 100 with done := 1 }] }) (fun t => t.core.mq == []) = true := by decide
theorem test_ard_queues : ran (.ard 1 4 8) base
    (fun t => t.core.mq.map (fun m => (m.op, m.due)) == [(.ard 8 2, 101)] && t.core.owed == [(0, .v 4), (0, .v 5)]) = true := by decide
theorem test_awr_row : let m := MCmd.new 4 (.awr 2 [7]) 100
    (((base.setCore { base.core with mq := [m] }).doUnit m).core.accRow 2 == { row := 2, data := 7, poison := false }) = true := by decide
theorem test_ast_unaligned : traps (.ast .fp32 n1 0 1 0) (regs 16 0 base) 0x06 16 = true := by decide
theorem test_mwait : ran (.mwait 3 2) base (fun t => t.core.wait == [.mwait 3 5 0]) = true := by decide

-- Chapter 17: traps and system registers.
theorem test_trap_enters : traps (.trap 0xFF (some n1)) (regs 0x55 0 base) 0xFF 0x55 = true ∧
    ran (.trap 0xFF none) base (fun t => t.core.pc == 0x1000 && t.core.trap1.ret == 1) = true := by decide
theorem test_tret_at_tl0 : traps .tret base 0x16 0xC10FFFFFFF000000 = true ∧
    ran .tret base (fun t => t.core.trap1.tval == wordBits .tret) = true := by decide
theorem test_tretV_stands : ran (.tretV n1) (atLevel 1 (regs 6 0 base)) (fun t => t.core.grp.xfer == some (.tret (some 6))) = true := by decide
theorem test_sysrd_commitcnt : ran (.sysrd none 0x0F) (base.setCore { base.core with nonRestart := true, commit := [.advance 0 1 0 false] })
    (fun t => owes t 0x101 0 102) = true := by decide
theorem test_syswr_fstat : ran (.syswr n1 0x08) (regs 0xFF 0 base) (fun t => t.core.fstat == 0x1F#5) = true := by decide
theorem test_syswr_splim_bounds : ran (.syswr n1 0x0A) (atLevel 1 (regs 4104 0 base))
    (fun t => t.core.trap2.cause.extractLsb' 0 8 == 0x12#8 && t.core.trap2.tval == 4104) = true := by decide
theorem test_pgreq_at_tl0 : ran (.pgreq 3 none n1) base (fun t => t.core.trap1.cause.extractLsb' 0 8 == 0x16#8) = true := by decide
theorem test_basinclr_bad_home : traps (.basinclr (some n1)) (regs 0x20000 0 base) 0x07 0x20000 = true := by decide
theorem test_brkpt_locked : ran (.brkpt 7) base (fun t => t.core == base.core && t.cl.counts == [(.brkptSeen, 1)]) = true := by decide
theorem test_testinj_clear_space : ran (.testinj n1 0) base (fun t => t.core.trap1.cause.extractLsb' 0 8 == 0x16#8) = true := by decide

/-! ## The machine's own steps -/

theorem test_result_arrival : ran (.resultArrival 4) (base.setCore { base.core with
    bank0 := [.pending 4], owed := [(4, .n 6)], pend := [{ id := 4, kind := .fixed, value := .scalar 9, flags := 1, due := 100 }] })
    (fun t => top t == some (.arrived 9) && t.core.regs.n[6] == 9 && t.core.fstat == 1) = true := by decide
theorem test_division_result : ran .divisionResult (base.setCore { base.core with
    bank0 := [.pending 4], pend := [{ id := 4, kind := .idiv, value := .scalar 9, flags := 0, due := 100 }] })
    (fun t => top t == some (.arrived 9)) = true := by decide
theorem test_float_divide_result : ran .floatDivideResult (base.setCore { base.core with
    bank0 := [.pending 4], pend := [{ id := 4, kind := .fdiv, value := .scalar 9, flags := 2, due := 101 }] })
    (fun t => top t == some (.pending 4)) = true := by decide
theorem test_vector_grant : ran .vectorGrant (base.setCore { base.core with
    vq := [{ id := 3, instr := .viota .int32 none 0 (.imm 5), scalars := [5], caps := [], eligible := 100 }], owed := [(3, .v 0)] })
    (fun t => t.core.vq == [] && t.quad.vecFreeAt == 101 && t.core.pend.map (fun p => (p.id, p.due)) == [(3, 104)]) = true := by decide
theorem test_register_write_timeout : ran (.registerWrite .sessionTimeout 1001) base (fun t => t.dev.timeout == 50000) = true ∧
    ran (.registerWrite .sessionTimeout 1000) base (fun t => t.dev.timeout == 1000000) = true := by decide
theorem test_line_fetch_poison : ran (.lineFetch 0x40 (.data 0 0 true)) { base with quad := { base.quad with icMiss := [(0, 0x40)] } }
    (fun t => t.icache == [] && t.quad.icBad == [(0, 0x40, .fault 0x0C)]) = true := by decide
theorem test_soft_error_double : ran (.softError (.pool 100) true) base (fun t => t.cl.poison == [1]) = true := by decide
theorem test_commit_frees_core : ran .commit (base.setCore { base.core with ended := some 100, wait := [.committing] })
    (fun t => t.core.status == .idle && t.core.sp == 0) = true := by decide
theorem test_scheduler_assignment : ran .schedulerAssignment { base with
    core := Core.idle 0
    cl := { base.cl with lists := base.cl.lists.set 2 [({ ContRec.none with code := 0x40, graph := 3, space := 7 }, 100)] } }
    (fun t => t.core.status == .running && t.core.pc == 0x40 && t.core.number == 1 && t.core.sp == 4096 && t.cl.nextFiring == 2) = true := by decide
theorem test_aging : ran .aging { base with cl := { base.cl with lists := base.cl.lists.set 2 [({ ContRec.none with code := 0x40 }, 0)] }
                                            dev := { base.dev with clk := 6000001 } }
    (fun t => t.cl.lists[1] == [({ ContRec.none with code := 0x40 }, 6000001)] && t.cl.lists[2] == []) = true := by decide
theorem test_preemption_by_stokers : ran (.preemptionRequest true) base (fun t => t.core.preempt) = true := by decide
theorem test_read_request_near : ran (.readRequest none { space := 7, off := 40, bytes := 8, tag := 5 }) { base with mem := [(33, 1)] }
    (fun t => t.outbox == [.readReply 5 (.data 0 .g32 [(0x100, false)])]) = true := by decide
/-- A message of a type from a device, with a tag that verifies or not. -/
def header (dev : BitVec 10) (type : BitVec 7) (ok : Bool) : NysilHdr :=
  { src := dev, dst := 0, slot := 0, phase := false, type := type, entropy := 0, echo := false, again := false, zeros := true, seqNo := 0
    tagOk := ok, congested := false }
theorem test_read_request_bad_tag : ran (.readRequest (some (header 1 1 false)) { space := 7, off := 40, bytes := 8, tag := 5 }) base
    (fun t => t.outbox == []) = true := by decide
theorem test_watch_registration_armed : ran (.watchRegistration 7 64 1 (.slot 5 0 0 2 3)) base
    (fun t => t.outbox == [.watchEnd (.slot 5 0 0 2 3) .armed] && t.cl.sluice.length == 1) = true := by decide
theorem test_watch_answer_stale_tag : gives (.watchAnswer 0 5 2 .armed) base base = true := by decide
theorem test_watch_cancel : ran (.watchCancel (.sched 5 1)) { base with
    cl := { base.cl with sluice := [{ off := 64, space := 7, thr := 1, who := .sched 5 1 }] } } (fun t => t.cl.sluice == []) = true := by decide
theorem test_tlb_generation : ran (.tlbGenerationAnswer 7 (.answer 3 0)) { base with cl := { base.cl with
    tlb := [{ space := 7, va := 0, size := 4096, frame := 0, pte := 0, slot := 0, slotGen := 0, gen := 2 }] } }
    (fun t => t.cl.tlb == []) = true := by decide
theorem test_validation_age : ran (.validationRequest 7 64 0 5) { base with cl := { base.cl with gen := 0x8000 } }
    (fun t => t.outbox == [.validationAnswer 5 true]) = true := by decide
theorem test_validation_strikes : ran (.validationAnswer none 4 true)
    (base.setCore { base.core with prt := [{ id := 4, sector := 2, space := 7, fill := 0, struck := false }] })
    (fun t => t.core.prt.map (fun e => e.struck) == [true]) = true := by decide
theorem test_page_request_reserved : ran (.pageRequest 7 0x0000000003000000 5) base
    (fun t => t.outbox == [.pageReply 5 (.fault 0x09)]) = true := by decide
/-- The state at a clk. -/
def at' (clk : Nat) (s : State) : State := { s with dev := { s.dev with clk := clk } }
theorem test_migration_block_end : ran .migrationBlockEnd (at' 200 { base with cl := { base.cl with
    mig := some { space := 7, page := 0, g0 := 0, passes := 0, ready := true, blocked := some 0 } } })
    (fun t => t.cl.mig == none) = true := by decide
/-- A request to device 5, a member, sent at 0. -/
def asked : State :=
  { base with dev := { base.dev with
      members := [member 0, member 5]
      reqs := [{ id := 9, dev := 5, slot := 0, type := 1, oneWay := false, issued := 0, timeout := 50000, sent := 0, retryAt := none }] } }
theorem test_retry : ran (.retry (header 5 11 true) 9) asked (fun t => t.dev.reqs.map (fun r => r.retryAt) == [some 3100]) = true := by decide
theorem test_request_repeat : ran (.requestRepeat 9) (at' 12000 asked)
    (fun t => t.outbox.length == 1 && t.dev.reqs.map (fun r => r.sent) == [12000]) = true := by decide
theorem test_probe_of_stranger : ran (.probe (header 5 9 true)) base
    (fun t => t.outbox == [] && t.cl.counts == [(.nysilDropped, 1)]) = true := by decide
theorem test_ualink : ran .ualinkRequest base (fun t => t.outbox == [.uaError]) = true := by decide
theorem test_kindle_lowest : ran (.kindle false 0) { base with dev := { base.dev with slots := base.dev.slots.set 1 { KeySlot.reset with st := .retired } } }
    (fun t => (t.slot 2).st == .kindled && (t.slot 2).gen == 1 && t.outbox == [.status 0]) = true := by decide
theorem test_quench_free_slot : ran (.quench 3 .host) base (fun t => t.outbox == [.status 5]) = true := by decide
theorem test_debug_unlock_bad_signature : ran (.debugUnlock false) base (fun t => t.outbox == [.status 4] && !t.dev.debug) = true := by decide
theorem test_cert_slot_zero : ran (.certWrite 0 []) base (fun t => t.outbox == [.status 6]) = true := by decide
theorem test_measurement_seven : ran (.getMeasurements 7) base (fun t => t.outbox == [.report []]) = true := by decide
theorem test_boot_inert : ran (.boot false true 0 0x00007F0010000000 []) State.reset (fun t => t.dev.inert && !t.dev.booted) = true := by decide
theorem test_notify_reads_the_ring : ran (.notify 2 1) base (fun t => t.outbox.length == 2 && (t.ring 2).notify == 1) = true := by decide
theorem test_ptp_step : ran (.ptpCorrection 1000001) base (fun t => t.dev.time == 1000001 && !t.dev.servo.slew) = true := by decide
theorem test_power_governor : ran (.powerGovernor 3) base (fun t => t.dev.throttle == 3) = true := by decide
/-- An inert package stops, and nothing else does (R372). -/
theorem test_inert_stops : step { State.reset with dev := { State.reset.dev with inert := true } } = .fault .inertPackage := by rfl
/-- A clk that nothing uses passes. -/
theorem test_idle_clk : step State.reset = .next State.reset.tick := by rfl

/-! ## Witnesses: concrete states and operands that meet the hypotheses of each statement, every clause at a boundary value -/

/-- Every instruction of a list may issue. -/
def readyAll (is : List Instr) (s : State) : Bool := is.all fun i => ready i s

theorem witness_decodeOfEncode :
    (Instr.add .wrap .w64 (some 2) (.q 0) (.reg (.q 1))).wellFormed = true ∧
      encode (.add .wrap .w64 (some 2) (.q 0) (.reg (.q 1))) = some 0x10024000FF00000000000000 := by decide
theorem witness_encodeOfDecode : decode 0x10024000FF00000000000000 = .ok (.add .wrap .w64 (some 2) (.q 0) (.reg (.q 1))) := by decide

/-- The core stands at slot 0 of a line of one-slot groups. -/
def atNops : State := coded
/-- The same in the middle of a group. -/
def inNops : State := atNops.setCore { atNops.core with grp := { Grp.none with live := true, first := 0x00007F0010000000, line := some (nops 0x1FF) } }

theorem witness_step_in_group : inNops.dev.inert = false ∧ inNops.core.inGroup inNops.dev.clk = true ∧ inNops.core.grp.issued = false ∧
    inNops.core.grp.line = some (nops 0x1FF) ∧ decode (slotWord (nops 0x1FF) inNops.core.slot) = .ok .nop ∧
    exec .nop inNops = .next inNops := ⟨by decide, by decide, by decide, by decide, by decide, rfl⟩
theorem witness_step_begins : atNops.dev.inert = false ∧ (∀ c ∈ atNops.cores, c.inGroup atNops.dev.clk = false) ∧ atNops.agenda = [] ∧
    atNops.urgentWork = none ∧ atNops.due = none ∧ atNops.unitWork = none ∧ atNops.cores.any atNops.commitDue = false ∧ atNops.waitOver = none ∧
    atNops.mayTry atNops.core = true ∧ atNops.core.writeFault = none ∧ atNops.core.entry = none ∧ atNops.core.savedFaults = [] ∧
    atNops.codeLine (lineOf atNops.core.pc) = some (nops 0x1FF) ∧ lineCheck (lineOf atNops.core.pc) (nops 0x1FF) = none ∧
    begins (lineWord (nops 0x1FF)) atNops.core.slot = true ∧ lastSlot (lineWord (nops 0x1FF)) atNops.core.slot = atNops.core.slot ∧
    decode (slotWord (nops 0x1FF) atNops.core.slot) = .ok .nop ∧ (∀ w, Instr.nop ≠ .ill w) ∧
    atNops.core.roomFrom [.nop] ≤ atNops.dev.clk ∧ atNops.core.vecNew.1 ≠ atNops.dev.clk ∧
    ready .nop (atNops.setCore { atNops.core with heldMma := none, grp := Grp.none }) = true ∧
    exec .nop (atNops.atGroup (nops 0x1FF)) = .next (atNops.atGroup (nops 0x1FF)) :=
  ⟨by decide, by decide, by decide, by decide, by decide, by decide, ⟨by decide, by decide, by decide, ⟨by decide, by
    decide, by decide, by decide, by decide, ⟨by decide, by decide, ⟨by decide, nofun, by decide, by decide, by decide,
    rfl⟩⟩⟩⟩⟩
theorem witness_after_slot : inNops.core.mark = .none ∧ inNops.core.grp.live = true ∧ inNops.core.holding = false ∧
    inNops.core.slot < lastSlot 0x01000000 inNops.core.slot ∧
    ¬ inNops.core.slot < lastSlot (lineWord (nops 0x1FF)) inNops.core.slot ∧ inNops.core.grp.xfer = none := by decide

/-- A transfer stands by. -/
def standing (x : Xfer) : State := coded.setCore { coded.core with grp := { coded.core.grp with xfer := some x } }
theorem inv_base : Inv base := ⟨by decide, by decide, by decide⟩
theorem inv_coded : Inv coded := ⟨by decide, by decide, by decide⟩
theorem witness_transfer : Inv (standing (.jump 0)) ∧ (standing (.jump 0)).core.grp.xfer = some (.jump 0) ∧
    Inv (standing (.call 0)) ∧ (standing (.call 0)).core.grp.xfer = some (.call 0) ∧
    Inv (standing (.ret 0)) ∧ (standing (.ret 0)).core.grp.xfer = some (.ret 0) :=
  ⟨⟨by decide, by decide, by decide⟩, rfl, ⟨by decide, by decide, by decide⟩, rfl, ⟨by decide, by decide, by decide⟩, rfl⟩
theorem witness_step_next : Inv State.reset ∧ step State.reset = .next State.reset.tick := ⟨⟨by decide, by decide, by decide⟩, rfl⟩
theorem witness_operands : base.core.grp.live = false ∧ base.core.grp.off = 0 ∧ (base.core.bank base.core.level)[0]? = some (.arrived 0) ∧
    (base.core.bank base.core.level)[15]? = some (.arrived 0) ∧ inNops.core.grp.live = true ∧
    (inNops.core.bank inNops.core.level)[15 + inNops.core.grp.off]? = some (.arrived 0) := by decide

/-- Operand forms at their limits. -/
def srcs : List SrcImm := [.reg (.q 15), .reg (.n 31), .reg (.special .tl), .imm 0, .imm (-1)]
theorem witness_add_sub : readyAll (srcs.flatMap fun b => [.add .wrap .w64 none n1 b, .add .carry .w8 (some 31) n1 b,
    .sub .sat .w32 none n1 b, .sub .satu .w16 (some 0) n1 b]) base = true := by decide
theorem witness_mul : readyAll (srcs.flatMap fun b => [.mul .w64 none n1 b, .mulh .ss .w8 none n1 b, .mulh .uu .w64 (some 31) n1 b,
    .mulh .su .w32 none n1 b]) base = true := by decide
theorem witness_div : readyAll (srcs.flatMap fun b => [.div .w64 none n1 b, .rem .w8 none n1 b, .divu .w16 (some 31) n1 b,
    .remu .w32 none n1 b]) base = true ∧ lowU 8 (base.srcImm (.imm 1)) ≠ 0 ∧ lowU 8 (base.srcImm (.imm 0x100)) = 0 ∧
    (base.core.onDivider .idiv).length < 2 := by decide
theorem witness_logic : readyAll (srcs.flatMap fun b => [.and .w64 none n1 b, .or .w8 none n1 b, .xor .w16 (some 31) n1 b,
    .andn .w32 none n1 b]) base = true := by decide
theorem witness_shifts : readyAll (srcs.flatMap fun b => [.shl .w64 none n1 b, .shr .w8 none n1 b, .sar .w16 (some 31) n1 b,
    .rot .w32 none n1 b]) base = true ∧ (base.srcImm (.imm 7)).toNat < wbits .w8 ∧ ¬ (base.srcImm (.imm 8)).toNat < wbits .w8 ∧
    lowS 8 0x80 < 0 ∧ ¬ lowS 8 0x7F < 0 := by decide
theorem witness_min_max : readyAll (srcs.flatMap fun b => [.min .w64 none n1 b, .max .w8 none n1 b, .minu .w16 (some 31) n1 b,
    .maxu .w32 none n1 b]) base = true := by decide
theorem witness_cmp_sel : readyAll (srcs.flatMap fun b => [.cmp .leu .w8 none n1 b, .sel (some 31) n1 (.q 15) b]) base = true ∧
    CondHolds .leu 8 0 0 ∧ ¬ CondHolds .ltu 8 0 0 := ⟨by decide, by unfold CondHolds; decide, by unfold CondHolds; decide⟩
theorem witness_counts : readyAll ([.clz .w8 none n1, .popc .w64 (some 31) n1, .ext true (.fixed .w8) none n1,
    .bitf .x none n1 0 64, .bitf .xs none n1 63 1, .bitf (.ins (.q 15)) none n1 63 1] ++
    srcs.map fun b => .ext false (.operand b) none n1) base = true ∧
    1 ≤ (64#7).toNat ∧ (0#6).toNat + (64#7).toNat ≤ 64 ∧ 1 ≤ (1#7).toNat ∧ (63#6).toNat + (1#7).toNat ≤ 64 ∧
    (base.srcImm (.imm 0)).toNat = 0 ∧ (base.srcImm (.imm 63)).toNat ≠ 0 ∧ ¬ 64 ≤ (base.srcImm (.imm 63)).toNat ∧
    64 ≤ (base.srcImm (.imm 64)).toNat := by decide
theorem witness_addresses :
    readyAll [.lea false 8 none n1 none 0, .lea true 0 none n1 (some (.n 2)) (-1), .far none n1 (.reg (.n 2)), .homeof .isLocal none n1] base = true ∧
    canonical ((regs 0xFF80000000000000 0 base).src n1) = true ∧ canonical ((regs 0x0100000000000000 0 base).src n1) = false ∧
    ((regs 0x1FFFF 0 base).src n1).toNat < 2 ^ 17 ∧ 2 ^ 17 ≤ ((regs 0x20000 0 base).src n1).toNat := by decide
theorem witness_moves : readyAll [.mov (some (.m 7)) (.scalar (.q 15)), .mov (some (.n 31)) (.m 7), .mov none (.lc 7),
    .movi (some (.n 0)) 0, .movi none 5] base = true := by decide

/-- The stack pointer. -/
def stack (v : Word) : State := base.setCore { base.core with sp := v }
theorem witness_spill : Inv (stack 8) ∧ Inv (stack 0) ∧
    readyAll [.pushm 31 31, .popm 0 31, .popm 31 31, .spadj 8, .spadj (-8), .spadj 1] (stack 8) = true ∧
    readyAll [.pushm 31 31, .spadj (-8)] (stack 0) = true ∧ readyAll [.popm 31 31, .spadj 8] base = true ∧
    (stack 8).core.splim.toInt ≤ ((stack 8).core.sp - 8).toInt ∧ ((stack 0).core.sp - 8).toInt < (stack 0).core.splim.toInt ∧
    (31 : Fin 32) ≤ 31 ∧ ((stack 4088).core.sp + 8).toInt ≤ base.core.spbase.toInt ∧
    base.core.spbase.toInt < (base.core.sp + 8).toInt ∧ (8#48).toNat % 8 = 0 ∧ (-8#48).toNat % 8 = 0 ∧ (1#48).toNat % 8 ≠ 0 :=
  ⟨⟨by decide, by decide, by decide⟩, ⟨by decide, by decide, by decide⟩, by decide⟩

theorem witness_float : readyAll (srcs.flatMap fun b => [.fadd .fp32 none n1 b, .fsub .bf16 none n1 b, .fmul .fp32 (some 31) n1 b,
    .ffma .bf16 none n1 n1 b, .fdiv .fp32 none n1 b, .fminmax .bf16 true true none n1 b, .fcmp .fp32 .ord none n1 b]) base = true ∧
    readyAll [.fsqrt .bf16 none n1, .fcvt .fp32 .int64 false true none n1] base = true ∧ (base.core.onDivider .fdiv).length < 2 := by decide
theorem witness_float_special :
    (0x7F800001#32).toNat / 2 ^ 23 % 2 ^ 8 = 255 ∧ (0x7F800001#32).toNat % 2 ^ 23 ≠ 0 ∧
    ¬ ((0x7F800000#32).toNat / 2 ^ 23 % 2 ^ 8 = 255 ∧ (0x7F800000#32).toNat % 2 ^ 23 ≠ 0) ∧
    (0x00000001#32).toNat / 2 ^ 23 % 2 ^ 8 ≠ 255 ∧ (0x00000001#32).toNat % 2 ^ 31 ≠ 0 ∧ (0x80000000#32).toNat % 2 ^ 31 = 0 ∧
    (0xFF800000#32).msb = true ∧ (0xFF800000#32).toNat % 2 ^ 31 ≠ 0 ∧
    ¬ ((0xFF800000#32).toNat / 2 ^ 23 % 2 ^ 8 = 255 ∧ (0xFF800000#32).toNat % 2 ^ 23 ≠ 0) := by decide

theorem good_coded : GoodTarget coded 0x00007F0010000002 := ⟨by decide, _, rfl, by decide⟩
/-- Slot 2 is no target. -/
def closed : State := onLine 0x1FB
theorem no_closed : NoTarget closed 0x00007F0010000002 := ⟨by decide, _, rfl, by decide, by decide⟩
theorem witness_branches : readyAll [.br 2, .bc .w64 .eq (.n 1) 2, .bc .w64 .ne (.n 1) 2, .call 2, .ret, .jmpi (.n 1)] coded = true ∧
    coded.branchTarget 2 = 0x00007F0010000002 ∧ closed.branchTarget 2 = 0x00007F0010000002 ∧
    (regs 0x00007F0010000002 0 coded).qn (.n 1) = 0x00007F0010000002 ∧ pointerCheck (coded.branchTarget 5) = some 0x02 ∧
    CondHolds .eq 64 (coded.qn (.n 1)) 0 ∧ ¬ CondHolds .ne 64 (coded.qn (.n 1)) 0 ∧
    coded.core.splim.toInt ≤ (coded.core.sp - 8).toInt ∧ coded.core.spbase.toInt < (coded.core.sp + 8).toInt ∧
    (stack 0).core.splim.toInt > ((stack 0).core.sp - 8).toInt ∧ ((stack 4088).core.sp + 8).toInt ≤ (stack 4088).core.spbase.toInt := by
  refine ⟨by decide, by decide, by decide, by decide, by decide, by unfold CondHolds; decide, by unfold CondHolds; decide, by decide⟩

/-- A commit buffer of a length. -/
def owing (n : Nat) : State := base.setCore { base.core with commit := List.replicate n (.advance 0 1 0 false) }
theorem witness_end_yield_spawn :
    readyAll [.endFiring, .yield, .spawn (.n 1) (.n 2) none true false 0 0, .spawn (.n 1) (.n 2) (some (.q 15)) false true 3 64] base = true ∧
    base.core.level = 0 ∧ (owing 31).core.commit.length < 32 ∧ 32 ≤ (owing 32).core.commit.length ∧
    ready (.spawn (.n 1) (.n 2) none false false 0 0) (owing 32) = true ∧
    (standing (.endFiring coded.core.pc coded.core.grp.off)).core.grp.xfer = some (.endFiring coded.core.pc coded.core.grp.off) ∧
    base.cl.bound = some binding ∧ ((regs 0x105 0 base).qn (.n 1)).toNat < 2 ^ 17 ∧
    ((regs 0x105 0 base).qn (.n 1)).setWidth 17 ∈ binding.exports ∧ 2 ^ 17 ≤ ((regs 0x20105 0 base).qn (.n 1)).toNat ∧
    ((regs 0x106 0 base).qn (.n 1)).setWidth 17 ∉ binding.exports := by decide

-- Local accesses: the last word of the live window, the last below the channel area, the first and last of the paged region.
/-- n1 holds an offset. -/
def off (a : Word) : State := regs a 0 base
theorem witness_local_issue :
    IssueOk (off 28966904) 8 false (.ld 28966904 8 true) ∧ IssueOk (off 28965880) 8 true (.st 28965880 (leBytes 8 0)) ∧
    IssueOk (off 0xFFFFFFFFF8) 8 true (.st 0xFFFFFFFFF8 (leBytes 8 0)) ∧ IssueOk (off 0x4000000) 64 false (.ldv 0x4000000 8 24) ∧
    IssueOk (off 0) 64 true (.stv 0 ((off 0).groupBytes 24 8)) ∧ IssueOk (off 0) 4 true (.amo .xchg 0 4 0) ∧
    IssueOk (off 8) 8 true (.acas 8 8 0 0) ∧ IssueOk (off 28966848) 8 false (.tmapset 28966848 7) :=
  by constructorm* _ ∧ _, IssueOk _ _ _ _ <;> decide
theorem witness_map_room : (off 28966848).core.mqFull = false ∧
    ({ base.core with owed := (List.range 7).map fun k => (k, Dest.tm (Fin.ofNat 8 k)) } : Core).mqFull = false ∧
    ({ base.core with owed := (List.range 8).map fun k => (k, Dest.tm (Fin.ofNat 8 k)) } : Core).mqFull = true := by decide
theorem witness_local_issue_lanes :
    IssueOk (off 0) 1 false (.ldx ((off 0).elements .w8 (.stride (.n 1)) (some 0) 0) 1 31) ∧ IssueOk (off 0) 8 true (.stx []) :=
  by constructorm* _ ∧ _, IssueOk _ _ _ _ <;> decide
theorem witness_local_ready : readyAll [.ld .w64 true (some 31) n1 0, .st .w8 n1 (.q 15) 0, .ldv 3 24 n1 0, .stv 3 n1 24 0,
    .ldx .w8 (.stride (.n 1)) (some 0) 31 n1 0, .stx .w16 (.index 28) none n1 0 0, .amo .xchg true none n1 (.n 2) 0,
    .acas false (some 0) n1 (.n 2) (.q 0) 0, .tmapset 7 n1 0, .pref .wb n1 0] base = true ∧
    ((off 0x3FFFFFF).localOff n1 0).toNat < 0x4000000 ∧ 0x4000000 ≤ ((off 0x4000000).localOff n1 0).toNat ∧
    base.core.acquiring = false := by decide
/-- Each check of R166 at issue, with those before it passed, for a wide load and an 8-byte store. -/
theorem witness_bad_offsets :
    readyAll [.ldv 0 0 n1 0, .st .w64 n1 (.n 2) 0, .amo .add false none n1 (.n 2) 0, .acas true none n1 (.n 2) (.q 0) 0] base = true ∧
    1 % 8 ≠ 0 ∧ (0x1FFFFC0 % 64 = 0 ∧ 0x1FFFFC0 < 0x4000000 ∧ 0x2000000 < 0x1FFFFC0 + 256) ∧
    (28966848 % 64 = 0 ∧ ¬ (28966848 < 0x4000000 ∧ 0x2000000 < 28966848 + 256) ∧ 28966848 < 0x2000000 ∧
      base.liveNear < 28966848 + 256) ∧
    (28965888 % 8 = 0 ∧ ¬ (28965888 < 0x4000000 ∧ 0x2000000 < 28965888 + 8) ∧
      ¬ (28965888 < 0x2000000 ∧ base.liveNear < 28965888 + 8) ∧ 28965888 < base.liveNear ∧ base.liveNear - 1024 < 28965888 + 8) := by decide

/-- The near accesses that may be performed, each at the end of the near window. -/
def endKinds : List AccKind :=
  [.ld 0x1FFFFF8 8 true, .st 0x1FFFFFF [1], .ldv 0x1FFFF00 1 0, .stv 0x1FFFF00 (List.replicate 256 0), .amo .add 0x1FFFFF8 8 1,
   .acas 0x1FFFFF8 8 0 1, .acas 0x1FFFFF8 8 1 1, .advance 0x1FFFFF8 1]
theorem witness_near_turn : Inv (two base) ∧ ∀ k ∈ endKinds, (access k (two base)).core.access 9 =
      some ((access k (two base)).core.acc.headD { id := 0, firing := 0, space := 0, kind := k, held := false, orphan := false, ret := 0, off := 0, due := 0, bad := none, known := none }) ∧
    (access k (two base)).core.acc.any (fun a => (access k (two base)).mayPerform (access k (two base)).core a) = true ∧
    (∀ e ∈ k.ranges, e.1 + e.2 ≤ 0x2000000) ∧ (access k (two base)).cl.poison = [] ∧ (access k (two base)).cl.sluice = [] :=
  ⟨⟨by decide, by decide, by decide⟩, by decide⟩
theorem witness_near_read : 0 + 0 ≤ 0x2000000 ∧ 0x1FFFFFF + 1 ≤ 0x2000000 := by decide
theorem witness_acas_both : (BitVec.ofNat 64 (Mem.nat base.mem 0x1FFFFF8 8) = zx 64 0) ∧
    (BitVec.ofNat 64 (Mem.nat base.mem 0x1FFFFF8 8) ≠ zx 64 1) := by decide

theorem witness_sequence :
    readyAll [.sqadv false none n1 (.imm 1), .sqadv true (some 31) n1 (.imm 1), .sqwait none n1 (.imm 0)] (off 0x1FFFFF8) = true ∧
    IssueOk (off 28965880) 8 true (.advCheck 28965880) ∧ IssueOk (off 28965880) 8 true (.advance 28965880 1) ∧
    IssueOk (off 28966904) 8 false (.sqwait 28966904 0) ∧ (owing 31).core.commit.length < 32 ∧ 32 ≤ (owing 32).core.commit.length ∧
    ready (.sqadv false none n1 (.imm 1)) (owing 32) = true ∧ base.core.storesLeft = false ∧ base.core.prt = [] ∧
    ((off 4).src n1).toNat % 8 ≠ 0 :=
  ⟨by decide, ⟨by decide, by decide, by decide, by decide, by decide⟩, ⟨by decide, by decide, by decide, by decide, by decide⟩,
    ⟨by decide, by decide, by decide, by decide, by decide⟩, by decide⟩

/-- A struck entry of the provisional table. -/
def struck : PrtEntry := { id := 4, sector := 2, space := 7, fill := 0, struck := true }
/-- A base whose table is the struck entry. -/
def withPrt (s : State) : State := s.setCore { s.core with prt := [struck] }
theorem witness_provisional :
    readyAll [.pchk none 2, .pdrop none, .pdrop (some n1)] coded = true ∧ ready (.pchk none 2) (withPrt coded) = true ∧
    (withPrt coded).core.prt = [struck] ∧ (∀ x ∈ (withPrt coded).core.prt, x.struck = true) ∧
    GoodTarget (withPrt coded) ((withPrt coded).branchTarget 2) ∧
    ready (.sqadv true none n1 (.imm 1)) (withPrt base) = true :=
  ⟨by decide, by decide, rfl, by decide, ⟨by decide, _, rfl, by decide⟩, by decide⟩

/-- A fresh sector of home 5's line in the basin. -/
def filled : State :=
  { off 0x0000050004000000 with cl := { base.cl with basin := [{
      space := 0, line := BitVec.ofNat 55 (0x0000050004000000 / 512)
      sectors := (Vector.replicate 16 none).set 0 (some { data := 9, poison := false, fill := 0 }) }] } }
theorem witness_far_loads :
    readyAll [.ldf .w64 true none n1 0, .ldfa .w8 false (some 31) n1 0, .ldfp .w32 false none n1 0] (off 0x0000050004000000) = true ∧
    base.farCheck 0x0100000000000000 = some 0x07 ∧ base.farCheck 0x0000480000000000 = some 0x07 ∧
    base.farCheck 0x0000050002000000 = some 0x09 ∧ base.farCheck 0x0000050004000004 = none ∧ (0x0000050004000004 : Word).toNat % 8 ≠ 0 ∧
    base.farCheck 0x0000050004000000 = none ∧ base.core.acquiring = false ∧ (off 0).home = homeOf 0 ∧
    homeOf 0x0000470004000000 ≠ base.home ∧ (homeOf 0x0000470004000000).toNat % 128 < 72 ∧
    base.lostDev (devOf (homeOf 0x0000050004000000)) = false ∧ base.replaying = false ∧
    base.core.sectorBusy base.cl.nextId 0x0000050004000000 = false ∧ base.basinSector 0 0x0000050004000000 = none ∧
    filled.basinSector filled.core.task.space 0x0000050004000000 = some { data := 9, poison := false, fill := 0 } ∧
    filled.stale (homeOf 0x0000050004000000) { data := 9, poison := false, fill := 0 } = false ∧
    readyAll [.ldf .w64 true none n1 0] filled = true := by decide
/-- An earlier read of the same sector is outstanding. -/
def behind : State :=
  let s : State := { off 0x0000050004000008 with cl := { base.cl with nextId := 1 } }
  s.setCore { s.core with
    far := [{ id := 0, req := 0, kind := .ldf, addr := 0x0000050004000000, w := 8, sext := false, sent := true, due := 0, reply := none }] }
theorem witness_far_held : FarKind.ldf ≠ .ldfa ∧ homeOf (behind.farAt n1 0) ≠ behind.home ∧ (homeOf (behind.farAt n1 0)).toNat % 128 < 126 ∧
    behind.readsHere (homeOf (behind.farAt n1 0)) = false ∧
    behind.core.sectorBusy behind.cl.nextId (behind.farAt n1 0) = true ∧ ready (.ldf .w64 true none n1 0) behind = true := by decide

/-- Watch slot 5 in a state. -/
def slot5 (st : WState) : State :=
  base.setCore { base.core with slots := base.core.slots.set 5 { WSlot.free with st := st, addr := 0x0000050004000000, tag := 2 } }
theorem witness_watch :
    readyAll [.watch 15 n1 n2, .wunwatch 0, .wunwatch 0xFFFF, .wsleep none (.imm 0), .wsleep (some 3) (.reg n1), .wpoll false 15 none,
      .wpoll true 0 (some 0)] base = true ∧
    base.farCheck 0x0000050004000004 = none ∧ (0x0000050004000004 : Word).toNat % 8 ≠ 0 ∧ (0x0000050004000008 : Word).toNat % 8 = 0 ∧
    base.core.slots[15].st.open = false ∧ homeOf 0x0000050004000008 ≠ base.home ∧ (homeOf 0x0000050004000008).toNat % 128 ≠ 126 ∧
    base.lostDev (devOf (homeOf 0x0000050004000008)) = false ∧
    ((slot5 .full).maskSrc (.imm 0x20)).getLsbD 5 = true ∧ (slot5 .full).core.slots[5].st.terminal = true ∧
    (slot5 .sent).core.slots[5].st.open = true ∧ (slot5 .armed).core.slots[5].st.open = true ∧
    (∀ j : Fin 16, (slot5 .sent).core.slots[j].st.terminal = false) ∧ (∀ j : Fin 16, base.core.slots[j].st.open = false) := by decide
theorem witness_fences : readyAll [.fence .f none, .fence .c none, .fence .p (some 31)] base = true := by decide

-- The pull engine: the last row of a copy at the end of the address space, and one line further.
theorem witness_pulls :
    readyAll [.pull 1 15 (some 31) n1 (.n 2) none 64 0, .pull 3 0 none n1 (.n 2) (some 7) 64 64, .pullg 1 0 none n1 (.n 2) (.imm 1) 64,
      .pullg 1 0 none n1 (.n 2) (.lc 7) 64, .pullr .int32 false 1 0 none n1 (.n 2) 16 3, .pullr .bf16 true 1 0 none n1 (.n 2) 32 3] base = true ∧
    63 % 64 ≠ 0 ∧ base.farCheck 0x0000050004000000 = none ∧ base.farCheck 0x0000050002000000 = some 0x09 ∧
    (0x0000050004000020 : Word).toNat % 64 ≠ 0 ∧
    (0x000005FFFFFFFFC0 : Word).toNat % 2 ^ 40 + 1 * 0 + 64 ≤ 2 ^ 40 + 0 ∧
    base.issueCheck 1 true (pullRows 28965824 1 0 64) = none ∧ PullRoom base 15 (destRange (pullRows 28965824 1 0 64)).length ∧
    base.issueCheck 8 false [(28966904, 8)] = none ∧ base.readHeld 28966904 8 = false ∧ 28966904 + 8 ≤ 0x2000000 ∧
    base.core.ag[3] = [] ∧ RFmt.int32 ≠ .bf16 ∧ (∀ c : Fin 16, base.cl.chans[c].xfers = []) ∧ base.core.grp.live = false := by
  refine ⟨by decide, by decide, by decide, by decide, by decide, by decide, by decide, ⟨by decide, by decide, by decide⟩, by decide⟩
/-- A full scoreboard has no room for another range. -/
theorem witness_pull_room : PullRoom base 0 16 ∧ ¬ PullRoom base 0 17 := ⟨⟨by decide, by decide, by decide⟩, fun h => absurd h.board (by decide)⟩
/-- A group of one member. -/
def grouped : State := base.setCore { base.core with ag := base.core.ag.set 3 [0x0000050004000000] }
theorem witness_pullr : grouped.core.ag[3] ≠ [] ∧ readyAll [.pullr .int32 true 1 0 none n1 (.n 2) 16 3] grouped = true := by decide
theorem witness_agset :
    readyAll [.agset 3 n1 (.reg (.n 2)), .agset 0 n1 (.imm 32)] (off 64) = true ∧ (off 0).issueCheck 8 false [(28966904, 8)] = none ∧
    (off 64).issueCheck 8 false [(64, 8 * 32)] = none ∧ base.readHeld 64 256 = false ∧ 64 + 8 * 32 ≤ 0x2000000 ∧
    (∀ p ∈ granules 64 256, base.cl.poison.contains (p / 64) = false) ∧
    (base.farCheck 0 <|> if (0 : Word).toNat % 64 ≠ 0 then some 0x06 else none) = none ∧
    (base.farCheck 32 <|> if (32 : Word).toNat % 64 ≠ 0 then some 0x06 else none) = some (0x06 : Byte) := by decide
/-- Channel 15 has started transfer 0, and it is complete. -/
def onePull : State := { base with cl := { base.cl with chans := base.cl.chans.set 15 { Chan.zero with next := 1 } } }
theorem witness_pull_registers :
    readyAll [.waitp true 15 none n1 (.n 2), .waitp false 15 (some 31) n1 (.n 2), .lcset 7 (.imm 0xFFFFFFFF), .lcset 0 (.reg n1),
      .equery .stat 15 none, .equery .faultClr 0 (some 31)] onePull = true ∧
    onePull.cl.chans[15].next ≤ (1 : Word).toNat ∧ (0 : Word).toNat < onePull.cl.chans[15].next ∧ (100 : Word).toNat ≤ onePull.dev.clk ∧
    onePull.dev.clk < (101 : Word).toNat ∧ (∀ x ∈ onePull.cl.chans[15].xfers, x.xid ≠ 0) ∧
    onePull.core.acquiring = false ∧ ([.done, .nextId, .fault, .faultClr, .stat] : List EqSel).all (fun q => (eqWord q).all fun k =>
      !onePull.readHeld (onePull.liveNear - 1024 + 64 * 15 + k) 8) = true ∧
    onePull.cl.chans[15].faulted.contains 0 = false ∧ Mem.word onePull.mem (onePull.liveNear - 1024 + 64 * 15 + 8) = 0 := by decide

-- The joint array. A = 8: the accumulator space has 512 rows.
theorem witness_matrix_ready :
    readyAll [.wld .mxf4 (.scratch n1 (.n 2)) 63 1, .wld .bf16 (.vec 24 3 none) 56 8, .wld .mxf8a (.vec 0 0 (some 31)) 0 1, .azero 511 1,
      .ard 3 24 504, .awr 0 31 511, .ast .fp32 n1 511 1 0, .mwait 0 0, .mwait 511 1, .mwait 512 1, .azero 512 1, .ard 0 0 512,
      .awr 3 0 505] (wide base) = true ∧ ready (.wld .bf16 (.vec 0 0 none) 0 1) base = true ∧
    CommandRoom (wide base) 1 ∧ CommandRoom base 0 ∧ (wide base).core.task.wide = true ∧ base.core.task.wide = false ∧
    (511#12).toNat + (1#12).toNat ≤ 64 * partA base.cl.part ∧ 64 * partA base.cl.part < (512#12).toNat + (1#12).toNat ∧
    (504#12).toNat + 2 ^ (3#2).toNat ≤ 64 * partA base.cl.part ∧ 64 * partA base.cl.part < (505#12).toNat + 2 ^ (3#2).toNat ∧
    (511#12).toNat + (0#12).toNat ≤ 64 * partA base.cl.part ∧
    ((28964864 : Word).toNat % 2 ^ 40) % 32 = 0 ∧ (∀ j < 1, 28964864 + j * 256 + AFmt.fp32.rowBytes ≤ base.liveNear - 1024) :=
  ⟨by decide, by decide, ⟨by decide, by decide, by decide⟩, ⟨by decide, by decide, by decide⟩, by decide⟩
/-- A one-row operand that ends with the live window, and a rotated operand of two rows. -/
theorem witness_operand : OperandOk .bf16 28966656 0 1 base.liveNear ∧ OperandOk .bf16 0x30000000000 0x100 2 base.liveNear :=
  ⟨⟨by decide, by decide, by decide, by decide, by decide, by decide, by decide, by decide⟩,
    ⟨by decide, by decide, by decide, by decide, by decide, by decide, by decide, by decide⟩⟩

/-- An MMA of one row. -/
def oneMma : Instr := .mma .bf16 (.scratch n1 (.n 2) none) 0 0 1
/-- Its command, as a join leaves it. -/
def oneOp : MOp := .mma .bf16 0 1 1 0 0 0 none true 0 0
/-- The gang, whose mates hold their MMAs or not. -/
def gang (held : Bool) : State :=
  { wide base with mates := base.mates.map fun c => { c with status := .running, task := { c.task with wide := true }
                                                             heldMma := if held then some oneMma else none } }
/-- The join has left an answer at the core. -/
def joined (fail : Option (Byte × Word)) (op : Option MOp) : State :=
  (gang true).setCore { (gang true).core with wait := [.joined fail op] }
theorem witness_mma :
    ready oneMma (gang false) = true ∧ ready oneMma (gang true) = true ∧ ready oneMma base = true ∧
    ready oneMma (joined none (some oneOp)) = true ∧ (joined none (some oneOp)).core.joinedWait = some (none, some oneOp) ∧
    ready oneMma (joined (some (0x0E, 0)) none) = true ∧
    (joined (some (0x0E, 0)) none).core.joinedWait = some (some (0x0E, 0), none) ∧ base.core.joinedWait = none ∧
    base.core.task.wide = false ∧ (gang true).core.joinedWait = none ∧ (gang true).core.level = 0 ∧
    (gang true).core.task.wide = true ∧ (∀ k, ((gang true).coreNo k).ended = none) ∧ CommandRoom (gang true) 1 ∧
    (∀ c ∈ (gang true).mates, c.heldMma ≠ none) ∧ (gang false).core.joinedWait = none ∧ (gang false).core.level = 0 ∧
    (gang false).core.task.wide = true ∧ (∀ k, ((gang false).coreNo k).ended = none) ∧ CommandRoom (gang false) 1 ∧
    (∃ c ∈ (gang false).mates, c.heldMma = none) := by
  refine ⟨by decide, by decide, by decide, by decide, by decide, by decide, by decide, by decide, by decide, by decide, by decide,
    by decide, by decide, ⟨by decide, by decide, by decide⟩, by decide, by decide, by decide, by decide, by decide,
    ⟨by decide, by decide, by decide⟩, by decide⟩

theorem witness_vector_queue :
    readyAll [.vadd .fp32 .wrap none 0 1 (.v 2), .vsub .int8 .sat (some 0) 0 1 (.reg n1), .vmul .bf16 (some 7) 31 1 (.imm 0),
      .vfma .int16 none 0 1 2 (.v 31), .vmin .fp32 true none 0 1 (.v 2), .vmax .int8 true none 0 1 (.v 2), .vabs .bf16 false none 0 1,
      .vneg .int32 true none 0 1, .vexp2 .fp32 none 0 1, .vlog2 .bf16 none 0 1, .vrcp .fp32 none 0 1, .vrsq .bf16 none 0 1,
      .vcvt .fp32 (.fmt .int8) false true 3 none 0 1, .vcmp .fp32 (.f .ord) none (.m 7) 1 (.v 2), .vsel 0 1 2 7, .vand .int8 none 0 1 (.v 2),
      .vor .int16 none 0 1 (.imm 1), .vxor .int32 none 0 1 (.reg n1), .vshl .int8 none 0 1 (.v 2), .vshr .int8 true none 0 1 (.v 2),
      .vred .bf16 .add true (some 7) (some 31) 1] base = true ∧
    readyAll [.vperm .f8a none 0 1 2, .vbcast .f8b none 0 (.reg n1), .vbcast .bf16 none 0 (.imm 1), .vbcast .int8 none 0 (.lane 1 511),
      .viota .int16 none 0 (.imm 0), .vext .fp32 false (some 31) 1 (.reg n1), .vext .int8 true none 1 (.imm 511), .vins .f8a 0 n1 (.reg (.n 2)),
      .vins .int32 0 n1 (.imm 63), .vmxq .mxf4 true 0 1 2 12 252, .vmxd .mxf8a false 0 1 2 6 254] base = true ∧
    base.core.vq.length < 8 := by decide
/-- A queued VIOTA. -/
def queuedIota : VCmd := { id := 3, instr := .viota .int32 none 0 (.imm 5), scalars := [5], caps := [], eligible := 100 }
/-- It is at the head of the core's queue. -/
def granting : State := base.setCore { base.core with vq := [queuedIota], owed := [(3, .v 0)] }
theorem witness_grant : granting.core.vq = queuedIota :: [] ∧ granting.grantTo = some granting.core.num ∧
    (vecResult { regs := granting.core.regs, caps := [], scalars := [5] } (Config.freeRow granting.free) queuedIota.instr).isSome = true := by decide
theorem witness_lanes : VFmt.int8.fmt.isInt = true ∧ VFmt.int32.fmt.isInt = true := by decide

-- Traps and system registers, at each level.
/-- A level whose RET SYSWR has written. -/
def rewritten (ret : Word) : State :=
  coded.setCore { coded.core with level := 2, trap2 := { coded.core.trap2 with ret := ret, written := true } }
theorem witness_trap : ready (.trap 0x80 (some n1)) base = true ∧ ready (.trap 0xFF none) (atLevel 2 base) = true ∧ base.core.level < 2 ∧
    (atLevel 1 base).core.level < 2 ∧ (atLevel 2 base).core.level = 2 := by decide
theorem witness_tret :
    readyAll [.tret, .tretV n1] base = true ∧ readyAll [.tret, .tretV n1] (atLevel 1 base) = true ∧
    readyAll [.tret, .tretV n1] (rewritten 0x00007F0010000004) = true ∧ base.core.level = 0 ∧ (atLevel 1 base).core.level ≠ 0 ∧
    ((atLevel 1 base).core.trapRegs 1).written = false ∧ ((rewritten 5).core.trapRegs 2).written = true ∧
    GoodTarget (rewritten 0x00007F0010000004) 0x00007F0010000004 ∧ pointerCheck 5 = some 0x02 ∧
    ((atLevel 1 base).core.trapRegs 1).cause.getLsbD 13 = false ∧ ((atLevel 2 base).core.trapRegs 2).cause.getLsbD 13 = false :=
  ⟨by decide, by decide, by decide, by decide, by decide, by decide, by decide, ⟨by decide, _, rfl, by decide⟩, by decide⟩
/-- A handler whose group of TL0 still owes a transfer, with %sp at a value. -/
def owingXfer (x : Option Xfer) (sp : Word) : State :=
  coded.setCore { coded.core with level := 1, sp := sp, trap1 := { coded.core.trap1 with xfer := x }
                                  grp := { coded.core.grp with xfer := some (.tret none) } }
/-- What the transfer would leave outside the bounds, as the return looks at it. -/
def pendingBad (s : State) : Option Word :=
  ({ s.core with grp := { s.core.grp with xfer := (s.core.trapRegs 1).xfer } } : Core).xferBad s.core.sp
theorem witness_tret_pending :
    (owingXfer none 0).core.grp.xfer = some (.tret none) ∧ (owingXfer none 0).core.level = 1 ∧
    ((owingXfer none 0).core.trapRegs 1).cause.getLsbD 13 = false ∧ pendingBad (owingXfer none 0) = none ∧
    pendingBad (owingXfer (some (.call 0)) 8) = none ∧ pendingBad (owingXfer (some (.call 0)) 0) = some (-8) ∧
    pendingBad (owingXfer (some (.ret 0)) 4096) = some 4104 := by decide
/-- A handler whose RET is a MOVI in the cache, and whose TRET.V stands by. -/
def returning : State :=
  let movi : Line := (0x310FE0000000000000000005#96 : BitVec 96).setWidth 512
  let l : Line := movi ||| (BitVec.ofNat 512 0x01000001 <<< 480)
  let l : Line := l ||| (((lineParity l).setWidth 512) <<< 496)
  { base with
    core := { base.core with level := 1, trap1 := { base.core.trap1 with ret := 0x00007F0010000000, cause := 0x0C, word := some 0x310FE0000000000000000005 }
                             grp := { Grp.none with live := true, xfer := some (.tret (some 6)) } }
    icache := [(0x00007F0010000000, l)] }
theorem witness_tretV : returning.core.level = 1 ∧ returning.core.grp.xfer = some (.tret (some 6)) ∧
    (returning.core.trapRegs 1).cause.getLsbD 13 = false ∧ (returning.core.trapRegs 1).cause.getLsbD 12 = false ∧
    (returning.core.trapRegs 1).cause.getLsbD 11 = false ∧ ((returning.core.trapRegs 1).cause.extractLsb' 0 8).toNat < 0x80 ∧
    (returning.core.trapRegs 1).word = some 0x310FE0000000000000000005 ∧ decode 0x310FE0000000000000000005 = .ok (.movi none 5) ∧
    pushes (.movi none 5) = 1 ∧ pendingBad returning = none ∧ (returning.core.trapRegs 1).last = false ∧ (returning.core.trapRegs 1).xfer = none ∧
    (standing (.tret none)).core.grp.xfer = some (.tret none) := by decide
/-- The trapped instruction was the last of a group whose transfer waits. -/
def returningLast : State :=
  returning.setCore { returning.core with trap1 := { returning.core.trap1 with last := true, xfer := some (.jump 0x00007F0010000040) } }
theorem witness_tretV_last : returningLast.core.grp.xfer = some (.tret (some 6)) ∧ (returningLast.core.trapRegs 1).last = true ∧
    (returningLast.core.trapRegs 1).xfer = some (.jump 0x00007F0010000040) ∧ (returningLast.core.trapRegs 1).cause.getLsbD 13 = false ∧
    (returningLast.core.trapRegs 1).cause.getLsbD 12 = false ∧ (returningLast.core.trapRegs 1).cause.getLsbD 11 = false ∧
    ((returningLast.core.trapRegs 1).cause.extractLsb' 0 8).toNat < 0x80 := by decide
theorem witness_sysrd :
    ((List.range 22).all fun n => ready (.sysrd (some 31) (BitVec.ofNat 12 n)) (atLevel 2 base)) = true ∧
    readyAll [.sysrd none 0x100, .sysrd none 0x10F, .sysrd none 0x120, .sysrd none 0x12F, .sysrd none 0] base = true ∧
    (∀ n ∈ [1, 2], n ≤ (atLevel 2 base).core.level) ∧ base.core.level < 1 ∧ (atLevel 1 base).core.level < 2 ∧
    base.core.fstatReady = true ∧ base.core.grp.live = false ∧ base.core.prt.length ≤ 64 ∧ base.core.grp.off = 0 ∧
    0 < (atLevel 1 base).core.level ∧ ((atLevel 1 base).core.bank 0)[15]? = some (.arrived 0) := by decide
/-- Bank 0 holds a faulted read. -/
theorem witness_sysrd_faulted : let f : FaultInfo := { id := 0, cause := 0x0C, tval := 0 }
    let s := (atLevel 1 base).setCore { (atLevel 1 base).core with bank0 := [.faulted f] }
    ready (.sysrd none 0x100) s = true ∧ (s.core.bank 0)[0]? = some (.faulted f) := by decide
theorem witness_syswr :
    ((List.range 22).all fun n => ready (.syswr n1 (BitVec.ofNat 12 n)) (atLevel 2 (off 4096))) = true ∧
    readyAll [.syswr n1 0, .syswr n1 0x100, .syswr n1 2] base = true ∧ 0x100 ≤ (0x100#12).toNat ∧ base.core.fstatReady = true ∧
    ((0 : Word).toNat % 8 = 0 ∧ (4096 : Word).toNat % 8 = 0 ∧ (0 : Word).toNat ≤ base.core.sp.toNat ∧
      base.core.sp.toNat ≤ (4096 : Word).toNat ∧ (4096 : Word).toNat ≤ 4096 * partS base.cl.part) ∧
    ¬ ((4104 : Word).toNat ≤ 4096 * partS base.cl.part) ∧ ¬ ((4104 : Word).toNat ≤ base.core.sp.toNat) ∧ (1 : Word).toNat % 2 ^ 16 ≠ 0 ∧
    ({ base.core with spbase := 4096 } : Core).xferBad base.core.sp = none ∧ ({ base.core with splim := 0 } : Core).xferBad base.core.sp = none := by decide
/-- The group still owes a CALL or a RET, which a bound would forbid. -/
theorem witness_syswr_transfer :
    ({ (standing (.call 0)).core with sp := 8, splim := 8 } : Core).xferBad 8 = some 0 ∧
    ({ (standing (.ret 0)).core with sp := 8, spbase := 8 } : Core).xferBad 8 = some 16 := by decide
/-- A test-flagged space: the launch's space is bound to a slot that kindle flagged. -/
def testing : State :=
  { off 0x4000000 with dev := { base.dev with
      slots := base.dev.slots.set 1 { KeySlot.reset with st := .kindled, test := true }
      spaces := [{ space := 7, mode := 10, root := 0, genWord := 0, slot := 1, slotGen := 0, valid := true, test := true, gen := 0 }] }
                       cl := { base.cl with bound := some binding } }
theorem witness_system :
    readyAll [.pgreq 15 none n1, .basinclr none, .basinclr (some n1), .brkpt 0xFFFF, .testinj n1 0] base = true ∧
    ready (.pgreq 15 none n1) (atLevel 1 base) = true ∧ (atLevel 1 base).core.level ≠ 0 ∧ base.farCheck 0x0000050004000000 = none ∧
    base.farCheck 0x0100000000000000 = some 0x07 ∧ ((off 0x1FFFF).src n1).toNat < 2 ^ 17 ∧ 2 ^ 17 ≤ ((off 0x20000).src n1).toNat ∧
    base.dev.debug = false ∧ base.testSpace = false ∧ base.liveNear ≤ 0x2000000 := by decide

theorem witness_testinj : let t := testing.setCore { testing.core with task := { testing.core.task with space := 7 } }
    ready (.testinj n1 0) t = true ∧ t.testSpace = true ∧ (t.localOff n1 0).toNat % 64 = 0 ∧ 0x4000000 ≤ (t.localOff n1 0).toNat ∧
    t.core.acquiring = false ∧ t.liveNear ≤ 0x2000000 ∧ (t.localOff n1 1).toNat % 64 ≠ 0 := by decide

-- The machine's own steps.
/-- A result of a kind that is due at a clk. -/
def pending (kind : PendKind) (due : Nat) : Pend := { id := 4, kind := kind, value := .scalar 9, flags := 1, due := due }
/-- The core owes it. -/
def owed (p : Pend) : State := base.setCore { base.core with bank0 := [.pending 4], owed := [(4, .n 6)], pend := [p] }
theorem witness_results :
    (owed (pending .fixed 100)).core.pend.find? (fun x => x.id == 4 && decide (x.due ≤ (owed (pending .fixed 100)).dev.clk)) =
      some (pending .fixed 100) ∧
    (owed (pending .idiv 100)).core.pend.find? (fun x => x.kind == .idiv && decide (x.due ≤ base.dev.clk)) = some (pending .idiv 100) ∧
    (owed (pending .fdiv 100)).core.pend.find? (fun x => x.kind == .fdiv && decide (x.due ≤ base.dev.clk)) = some (pending .fdiv 100) ∧
    (∀ c ∈ (owed (pending .fixed 101)).cores, ∀ x ∈ c.pend, x.id = 4 → base.dev.clk < x.due) := by decide

/-- A near-cache line of space 7. -/
def ncLine (dirty : Bool) (mode : BitVec 2) : NcLine :=
  { space := 7, line := 0x4000000, data := 1, dirty := dirty, poison := false, r := true, w := true, x := false, mode := mode
    grain := .g32, na := false, tag0 := 0, tag1 := 0, pa := 0x1000 }
/-- The near cache holds it. -/
def cached (n : NcLine) (s : State) : State := { s with cl := { s.cl with nc := [n] } }
theorem witness_code_lines : (∃ x ∈ ({ base with quad := { base.quad with icMiss := [(3, 0x40)] } } : State).quad.icMiss, x.2 = 0x40) ∧
    0 < 0x2000000 ∧ 0x1FFFFFF < 0x2000000 ∧ (cached (ncLine false 0) base).ncFind 7 0x4000000 = some (ncLine false 0) :=
  ⟨⟨(3, 0x40), by decide, rfl⟩, by decide, by decide, by decide⟩

/-- A space whose page at 0x4000000 has one leaf: tables at the carve-out of cluster 0, a 4 KiB page in its slice. -/
def mapped (leaf : Word) : State :=
  let d : SpaceDesc := { space := 7, mode := 10, root := BitVec.ofNat 44 (60 * 2 ^ 30 / 4096), genWord := 0, slot := 0, slotGen := 0
                         valid := true, test := false, gen := 0 }
  let table (k : Nat) : Nat := 60 * 2 ^ 30 + 4096 * k
  let next (k : Nat) : Word := BitVec.ofNat 64 (table k / 4096 * 2 ^ 10 + 1)
  let m := Mem.setWord base.mem (hbmKey (table 0)) (next 1)
  let m := Mem.setWord m (hbmKey (table 1)) (next 2)
  let m := Mem.setWord m (hbmKey (table 2)) (next 3)
  let m := Mem.setWord m (hbmKey (table 3 + 8 * 32)) (next 4)
  { base with mem := Mem.setWord m (hbmKey (table 4)) leaf, dev := { base.dev with spaces := [d] } }
/-- A leaf: R and W, accessed and dirty, frame 1. -/
def leafRW : Word := 0x4C7
/-- An access of the page, under a state. -/
def paged (held : Bool) (kind : AccKind) (s : State) : State :=
  s.setCore { s.core with acc := [{
    id := 9, firing := 0, space := 7, kind := kind, held := held, orphan := false, ret := 0, off := 0, due := 100, bad := none, known := none }] }
theorem witness_translation_outcomes :
    base.space? 8 = none ∧ ((mapped leafRW).space? 7).isSome = true ∧ (mapped leafRW).tlbHit 7 0x4000000 = none ∧
    walk (mapped leafRW).mem (some base.base) true 0x4000000 5 (60 * 2 ^ 30) = .leaf { pte := leafRW, frame := 0x1000, size := 4096 } ∧
    walk (mapped 0).mem (some base.base) true 0x4000000 5 (60 * 2 ^ 30) = .unmapped ∧
    walk (mapped 2).mem (some base.base) true 0x4000000 5 (60 * 2 ^ 30) = .notResident ∧
    leafRW.getLsbD 1 = true ∧ leafRW.getLsbD 3 = false ∧ (mapped leafRW).keyOk 0 0 = true ∧ (mapped leafRW).keyOk 5 0 = false := by decide
theorem witness_translation_access :
    let s := paged true (.ld 0x4000FF8 8 false) (mapped leafRW)
    let u := paged true (.ld 0x4000FF8 8 false) (mapped 0)
    s.core.acc.all (fun a => s.mayPerform s.core a && a.bad.isNone && a.known.isNone) = true ∧ s.missing 7 (.ld 0x4000FF8 8 false) = some 0x4000FC0 ∧
    (s.fetchLine 7 (s.lineVa 0x4000FC0) .load).2 = none ∧ (u.fetchLine 7 (u.lineVa 0x4000FC0) .load).2 = some .unmapped ∧
    u.missing 7 (.ld 0x4000FF8 8 false) = some 0x4000FC0 ∧ (AccKind.ld 0x4000FF8 8 false).cls ≠ .hint ∧ u.core.level < 2 ∧
    u.core.acc.all (fun a => u.mayPerform u.core a && a.held && !a.orphan) = true ∧ (∀ c ∈ base.cores, c.access 9 = none) := by decide

/-- An LLC line of space 7. -/
def llcLine (mode : BitVec 2) : LlcLine :=
  { space := 7, line := 0x4000000, r := true, w := true, x := false, mode := mode, grain := .g32, na := false, tag0 := 0, tag1 := 0
    pa := 0x1000 }
/-- A sealed space under slot 1, whose keys are installed and whose counter block is in the metadata cache. -/
def sealed : State :=
  { base with
    dev := { base.dev with
      spaces := [{ space := 7, mode := 10, root := 0, genWord := 0, slot := 1, slotGen := 1, valid := true, test := false, gen := 0 }]
      slots := (base.dev.slots.set 1 { KeySlot.reset with st := .kindled, gen := 1, kenc := some 1, kmac := some 2 }).set 63
        { KeySlot.reset with st := .kindled, kenc := some 3, kmac := some 4 } }
    cl := { base.cl with nc := [ncLine true 2], metaCache := [(pathKey 1 1, 0), (pathKey 1 2, 0), (pathKey 1 3, 0)] } }
/-- The path of a frame whose nodes are as they were placed. -/
def fresh : Path := { top := 0, mid := 0, cb := 0 }
theorem inv_sealed : Inv sealed := ⟨by decide, by decide, by decide⟩
theorem witness_sealed :
    (sealed.ncFind 7 0x4000000).isSome = true ∧ base.ncFind 7 0x4000000 = none ∧ base.llcFind 7 0x4000000 = none ∧
    ({ base with cl := { base.cl with llc := [llcLine 2] } } : State).llcFind 7 0x4000000 = some (llcLine 2) ∧
    (llcLine 2).mode = 2#2 ∧ base.keysOf (base.slotOf 7) = none ∧ (sealed.keysOf (sealed.slotOf 7)).isSome = true ∧
    sealed.ncFind 7 0x4000000 = some (ncLine true 2) ∧ sealed.base ≤ 0x1000 ∧ 0x1000 < sealed.base + reservedTop ∧ 0x1000 % 64 = 0 ∧
    (sealed.path (sealed.frameOf 0x1000)).2 = some fresh ∧ (sealed.path (sealed.frameOf 0x1000)).1.versionsOk (sealed.frameOf 0x1000) fresh = true ∧
    minorOf fresh.cb (0x1000 % 4096 / 64) ≠ 127#7 ∧
    (∀ n, base.ncFind 7 0x4000000 = some n → n.dirty = false) := by
  refine ⟨by decide, by decide, by decide, by decide, by decide, by decide, by decide, by decide, by decide, by decide, by decide, by decide, by decide,
    by decide, ?_⟩
  intro n h
  cases h
/-- The same without its metadata, under a root version that nothing in HBM meets. -/
def broken : State := { sealed with cl := { sealed.cl with metaCache := [], roots := [(0, 1)] } }
theorem witness_sealed_block : (broken.block 1).2 = none := by decide +kernel
theorem witness_sealed_path : (broken.path 1).2 = none := by decide +kernel

-- The joint array's commands.
/-- A command at the head of the queue. -/
def commanded (m : MCmd) : State := base.setCore { base.core with mq := [m], owed := [(4, .v 31)] }
/-- Rows of two commands of each kind at the ends of the accumulators and of the live window; `r` is a row as a read leaves it. -/
theorem witness_units :
    base.core.ownsRow 4 511 = false ∧ ([7, 8] : List VReg)[0]? = some 7 ∧ ([7, 8] : List VReg)[1]? = some 8 ∧
    (∀ k < 2, base.core.ownsRow 4 (510 + k) = false) ∧ (0xFFFFFFFFFF : Word).toNat < 2 ^ 40 ∧ Inv base ∧
    (0x1FFFF80 : BitVec 40).toNat + 0 * 128 + 8 * AFmt.bf16.fmt.bits ≤ 0x2000000 ∧ base.cl.sluice = [] :=
  ⟨by decide, by decide, by decide, by decide, by decide, inv_base, by decide, by decide⟩
/-- Commands with nothing left to do. -/
def finishedCmds : List MCmd :=
  [{ MCmd.new 4 (.azero 511 1) 100 with done := 1 }, { MCmd.new 4 (.awr 511 [7]) 100 with done := 1 },
   { MCmd.new 4 (.ard 0 1) 100 with got := [(5, 0, false)] }, MCmd.new 4 (.wldVec .mxf4 [7] (some 1) 63) 100,
   { MCmd.new 4 (.wldScratch .bf16 0 0x200 63 1) 100 with got := [(5, 0, false)] },
   { MCmd.new 4 (.ast .bf16 0x1FFFF80 511 1 128) 100 with done := 1 }]
theorem finishedCmds_due : ∀ m ∈ finishedCmds, MCmd.finished (commanded m).core (commanded m).dev.clk m = true := by decide +kernel
theorem witness_commands : (∀ m ∈ finishedCmds, (commanded m).cmdDue (commanded m).core = some m) ∧
    (commanded (MCmd.new 4 (.ard 0 1) 100)).core.owedTo 4 = [31].map Dest.v ∧ ([31] : List (Fin 32)).Nodup ∧
    ([(5, 0, false)] : List (VReg × BitVec 128 × Bool)).length = [31].length ∧
    (∀ x ∈ ([(5, 0, false)] : List (VReg × BitVec 128 × Bool)), x.2.2 = false) :=
  ⟨fun m hm => List.find?_cons_of_pos (finishedCmds_due m hm), by decide, by decide, rfl, by simp⟩
/-- The gang's MMA of `rows` rows is at every head, `done` rows entered, due at a clk; a pre-emption waits or not. -/
def running (rows done due : Nat) (ask : Bool) : State :=
  let f (c : Core) : Core := { c with
    mq := [MCmd.new 4 (.mma .bf16 0 rows 1 0 0 0x100 none true done 0) due], preempt := ask }
  let s := gang false
  { s with core := f s.core, mates := s.mates.map f }
theorem witness_mma_rows :
    (running 1 0 100 false).gangMma = some (MCmd.new 4 (.mma .bf16 0 1 1 0 0 0x100 none true 0 0) 100) ∧
    (running 1 0 100 false).core.enterMma = (running 1 0 100 false).gangMma ∧
    (∀ c ∈ (running 1 1 100 false).cores, (running 1 1 100 false).cmdDue c = none) ∧
    (running 1 1 100 false).mmaDue = true ∧ (running 1 1 101 false).mmaDue = false ∧
    (running 32 16 85 true).splitDue = true ∧ (running 16 0 100 true).splitDue = false ∧ base.gangMma = none ∧
    (MOp.mma .bf16 0 1 1 0 0 0x100 none true 0 0).entered = 0 ∧ (running 1 0 101 false).dev.clk < 101 :=
  ⟨by decide, by decide, by decide, by decide, by decide, by decide, by decide, by decide, by decide, by decide⟩

-- Lines that arrive: the last line of the window below the channel area.
/-- A line that has been asked for. -/
def askedLine : PullLine := { PullLine.new [0x0000050004000000] 28965824 with asked := [(0, 0)] }
/-- A copy of lines. -/
def copying (ls : List PullLine) : Transfer :=
  { xid := 0, cmd := 0, kind := .copy, cls := 1, lines := ls, fault := none, dstFault := none, gens := [], flags := 0, owner := 0, firing := 0
    lostHome := false, start := 0 }
/-- Channel 15 has it at its head. -/
def pulling (ls : List PullLine) : State :=
  { base with cl := { base.cl with chans := base.cl.chans.set 15 { Chan.zero with next := 1, xfers := [copying ls] } } }
theorem witness_pull_lines :
    base.xfer 15 0 = none ∧ (pulling [askedLine]).xfer 15 0 = some (copying [askedLine]) ∧ (copying [askedLine]).lines[0]? = some askedLine ∧
    askedLine.src.length = 1 ∧ askedLine.arrivals = [] ∧ askedLine.done = false ∧ askedLine.outstanding 0 = true ∧
    askedLine.outstanding 1 = false ∧ (pulling [askedLine]).cl.mig = none ∧ (pulling [askedLine]).cl.sluice = [] ∧
    1024 ≤ base.liveNear ∧ base.liveNear ≤ 0x2000000 ∧ askedLine.dst.toNat % 64 = 0 ∧ askedLine.dst.toNat + 64 ≤ base.liveNear - 1024 ∧
    ((pulling [askedLine, askedLine]).chan 15).xfers.head? = some (copying [askedLine, askedLine]) ∧
    ((pulling [askedLine]).chan 15).xfers = [copying [askedLine]] ∧ askedLine.src[0]? = some 0x0000050004000000 ∧
    homeOf 0x0000050004000000 ≠ base.home ∧ (homeOf 0x0000050004000000).extractLsb' 0 7 ≠ 126#7 ∧
    base.farCheck 0x0000050004000000 = none ∧ base.lostDev (devOf (homeOf 0x0000050004000000)) = false ∧
    base.logged (homeOf 0x0000050004000000) = false := by decide
/-- WAITP sleeps on transfer 0 past its promise. -/
def missed (sq : Bool) : State :=
  let s := pulling [askedLine]
  s.setCore { s.core with wait := [.waitp 100 0 15 sq false 7 0x40 3] }
theorem witness_promise : (∀ sq, (missed sq).core.wait.find? ((missed sq).waitpMissed (missed sq).core) = some (.waitp 100 0 15 sq false 7 0x40 3)) ∧
    (missed true).core.level < 2 ∧ (missed true).cl.sluice = [] := by decide

-- The scheduler.
/-- A firing at END, or in its commit. -/
def ending (w : Wait) (es : List Effect) : State :=
  base.setCore { base.core with ended := some 100, wait := [w], commit := es }
/-- A record. -/
def record : ContRec := { ContRec.none with code := 0x40, graph := 3, space := 7 }
theorem witness_commit :
    (ending .ending []).commitDue (ending .ending []).core = true ∧ (ending .ending []).core.wait = [.ending] ∧
    (ending .ending []).core.writeFault = none ∧ (ending .ending []).core.allFaults = [] ∧ (ending .ending []).core.oldestStruck = none ∧
    base.core.task.wide = false ∧ base.core.task.actor = false ∧ base.cl.overflow = [] ∧
    (∀ es ∈ ([[], [.spawn record none], [.spawn record none, .advance 0 1 0 false], [.advance 0x1FFFFF8 1 0 false]] : List (List Effect)),
      (ending .committing es).commitDue (ending .committing es).core = true) ∧
    record.join = 0 ∧ record.actor = false ∧ base.regionUse < 65536 ∧ (0x1FFFFF8 : BitVec 40).toNat + 8 ≤ 0x2000000 ∧
    base.cl.mig = none ∧ base.cl.sluice = [] ∧ base.cl.poison = [] ∧ (∀ c ∈ base.cores, base.commitDue c = false) := by decide
/-- A waiting record of two edges. -/
def waiter (join : Nat) : WaitRec := { id := 2, cr := { record with join := join }, acquires := [], firings := 0, desc := [], reading := true, ripe := false }
/-- The scheduler holds it, and a watch. -/
def waiting (join : Nat) (w : SchedWatch) : State :=
  { base with cl := { base.cl with waiting := [waiter join], watches := [w], nextId := 8 } }
/-- A watch for a use, refused before or not. -/
def watchFor (u : SchedUse) (refused : Nat) (retry : Option Nat) : SchedWatch :=
  { id := 5, order := 5, use := u, addr := 0x0000050004000000, thr := 3, refused := refused, sent := true, retryAt := retry }
theorem witness_scheduler :
    (waiting 2 (watchFor (.edge 2 0x0000050004000000) 0 none)).waitRec 2 = some (waiter 2) ∧ (waiter 2).desc = [] ∧ (waiter 2).cr.actor = false ∧
    pairs (([0x0000050004000000, 1, 8, 2] : List Word).take (2 * 2)) = [(0x0000050004000000, 1), (8, 2)] ∧
    base.edgeCheck 0x0000050004000000 = none ∧ base.edgeCheck 8 = none ∧
    (pairs (([0x0000050004000000, 1, 4, 2] : List Word).take (2 * 2))).find? (fun y => (base.edgeCheck y.1).isSome) = some (4, 2) ∧
    base.edgeCheck 4 = some 0x07 ∧
    (∀ u ∈ ([.edge 2 0x0000050004000000, .residency record] : List SchedUse),
      (waiting 1 (watchFor u 0 none)).schedWatch 5 = some (watchFor u 0 none)) ∧ (3 : Word).toNat ≤ (3 : Word).toNat ∧
    2 ≤ (waiter 2).cr.join ∧ (waiter 1).cr.join = 1 ∧
    (waiting 1 (watchFor (.edge 2 0) 15 (some 100))).schedWatch 5 = some (watchFor (.edge 2 0) 15 (some 100)) ∧
    homeOf (watchFor (.edge 2 0) 16 (some 100)).addr ≠ base.home ∧ base.lostDev (devOf (homeOf 0x0000050004000000)) = false := by decide
/-- A record waits in list 2, since a clk, for an idle quad. -/
def queued (r : ContRec) (since clk : Nat) : State :=
  { base with
    core := Core.idle 0
    cl := { base.cl with lists := base.cl.lists.set 2 [(r, since)] }
    dev := { base.dev with clk := clk } }
theorem witness_assignment :
    (queued record 0 100).assignable = some 2 ∧ (queued record 0 100).head 2 = some (record, 0) ∧ record.resumable = false ∧ record.wide = false ∧
    (queued record 0 100).idleCore = some (queued record 0 100).core.num ∧
    (∀ c ∈ (queued record 0 100).mates, c.num ≠ (queued record 0 100).core.num) ∧
    (queued { record with wide := true } 0 100).assignable = some 2 ∧ (queued { record with resumable := true, image := 5 } 0 100).assignable = some 2 ∧
    base.assignable = none ∧ (queued record 0 6000001).ageDue = some (2, record, 0) ∧ (queued record 0 6000000).ageDue = none ∧
    (queued { record with wide := true } 0 96000).reserveDue = false := by decide

-- Pre-emption.
/-- The firing in focus is of priority 3, asked to stop or not; a head of priority 0 waits; the mates run priority 0. -/
def contested (st : CoreStatus) (ask : Bool) : State :=
  { base with
    core := { base.core with status := st, preempt := ask, task := { record with prio := 3 } }
    mates := base.mates.map fun c => { c with status := .running, task := record }
    cl := { base.cl with lists := base.cl.lists.set 0 [(record, 0)] } }
/-- A saved firing. -/
def savedImage (held : Option (BitVec 16)) : Image := { id := 6, cores := [{ base.core with task := record, regs := { Regs.zero with n := Regs.zero.n.set 1 5 } }], held := held }
/-- The image stands, and its record has been taken by the stopped core. -/
def resuming (held : Option (BitVec 16)) : State :=
  { base with
    core := { base.core with status := .stopped, task := { record with resumable := true, image := 6 } }
    cl := { base.cl with images := [savedImage held] } }
theorem witness_preemption :
    base.core.task.wide = false ∧ base.preemptPick = none ∧ (contested .running false).preemptPick = some (contested .running false).core.num ∧
    (contested .stopped true).saveDue = true ∧ (contested .stopped true).core.task.wide = false ∧ (contested .stopped true).core.brk = none ∧
    ((contested .stopped true).setCore { (contested .stopped true).core with brk := some 7 }).saveDue = true ∧
    (∀ c ∈ base.cores, c.status ≠ .stopped) ∧
    (resuming none).cl.images.find? (fun x => x.id == 6) = some (savedImage none) ∧ (resuming none).core.status = .stopped ∧
    (resuming none).core.task.resumable = true ∧ (resuming none).core.task.image = 6 ∧ (resuming none).core.preempt = false ∧
    (resuming none).core.task.wide = false ∧ record.wide = false ∧ (∀ c ∈ (resuming none).mates, c.task.image ≠ 6) ∧
    (∀ c ∈ base.mates, c.num ≠ base.core.num) ∧ (base.core.prt.map PrtEntry.id).Nodup ∧ (∀ e ∈ base.core.prt, e.id < base.cl.nextId) ∧
    base.core.far = [] ∧ (∀ g ∈ base.cl.images, g.id ≠ 6) ∧
    (resuming (some 7)).cl.images.find? (fun x => x.held.isSome) = some (savedImage (some 7)) ∧ (∀ g ∈ base.cl.images, g.held = none) := by decide +kernel

/-- A debug unlock is in force. -/
def unlocked : State := { base with dev := { base.dev with debug := true } }
theorem witness_debug_agent : base.dev.debug = false ∧ unlocked.dev.debug = true ∧ unlocked.core.status ≠ .idle := by decide
/-- A core whose provisional table holds two entries under numbers that have been given out. -/
def twoEntries : Core := { base.core with prt := [struck, { struck with id := 3 }] }
theorem witness_resume_table : (twoEntries.prt.map PrtEntry.id).Nodup ∧
    (∀ e ∈ twoEntries.prt, e.id < ({ base with cl := { base.cl with nextId := 5 } } : State).cl.nextId) := by decide

-- Requests of others: the last word of the live window, and one byte into the reserved range.
/-- The values at which a sequence word has reached a threshold, and at which it has not. -/
def home (sluice : List SluiceEntry) : State := { base with cl := { base.cl with sluice := sluice } }
/-- A far read waits for home 5. -/
def reading : FarRead := { id := 9, req := 9, kind := .ldf, addr := 0x0000050004000008, w := 8, sext := false, sent := true, due := 0, reply := none }
/-- The core holds it. -/
def far : State := base.setCore { base.core with far := [reading], bank0 := [.pending 9], owed := [(9, .n 6)] }
/-- A provisional entry awaits its answer. -/
def validating : State := base.setCore { base.core with prt := [{ struck with struck := false }] }
/-- Page request 11 of slot 5. -/
def asking : State :=
  let s := slot5 .sent
  s.setCore { s.core with pgreqs := [(11, 5, 2, 0x0000050004000000)], bank0 := [.pending 11]
                          slots := s.core.slots.set 5 { s.core.slots[5] with page := some 11 } }
theorem served (off n : Nat) (h : off + n ≤ base.liveNear) : NearServed base 7 off n := ⟨by decide, by decide, h, by decide⟩
theorem witness_home :
    NearServed base 7 28966904 8 ∧ 28966904 / 32 * 32 + 32 ≤ base.liveNear ∧ (0x1FFFFF8 : BitVec 40).toNat < 0x4000000 ∧
    0x2000000 < (0x1FFFFF8 : BitVec 40).toNat + 9 ∧ base.badHeader (header 1 1 false) = true ∧
    far.core.far.find? (fun g => g.req == reading.req && g.sent) = some reading ∧ (∀ g ∈ far.core.far, g.sent = true) ∧ far.readsHere (homeOf reading.addr) = false ∧
    (0x09 : Byte) ≠ 0x08 ∧ (∀ c ∈ base.cores, ∀ f ∈ c.far, f.req ≠ 9) ∧ (5 : BitVec 17) ≠ base.home ∧
    (0 : Word).toNat ≤ (Mem.word base.mem 28966904).toNat ∧ (Mem.word base.mem 28966904).toNat < (1 : Word).toNat ∧
    (home []).cl.sluice.length < 4096 ∧
    4096 ≤ (home (List.replicate 4096 { off := 0, space := 7, thr := 1, who := .sched 5 1 })).cl.sluice.length := by
  refine ⟨served _ _ (by decide), by decide, by decide, by decide, by decide, by decide, by decide, by decide, by decide, by decide,
    by decide, by decide, by decide, by decide, ?_⟩
  show 4096 ≤ (List.replicate 4096 _).length
  rw [List.length_replicate]
/-- A read of the lane that names home 5, and one of bytes. -/
def laneRead : ReadReq := { space := 7, off := 28966904, bytes := 8, tag := 5, lane := some 5 }
theorem witness_lane_read : laneRead.lane = some 5 ∧ ({ laneRead with lane := none } : ReadReq).lane = none := by decide
theorem witness_answers :
    (slot5 .sent).core.slots[5].st = .sent ∧ (slot5 .armed).core.slots[5].st = .armed ∧ base.core.wait = [] ∧
    (∀ c ∈ base.cores, c.num = 0 → c.slots[5].tag ≠ 2) ∧ NearServed base 7 (28966880 : BitVec 40).toNat 32 ∧
    (∃ e ∈ validating.core.prt, e.id = 4 ∧ e.struck = false) ∧ 0xFFFFFFFF < 2 ^ 32 ∧
    (offOf 0x0000000001FFFFFF).toNat < 0x2000000 ∧
    asking.core.pgreqs.find? (fun y => y.2.1 == 5 && y.2.2.1 == 2) = some (11, 5, 2, 0x0000050004000000) ∧ asking.core.wait = [] ∧
    asking.core.slots[5].page = some 11 :=
  ⟨by decide, by decide, by decide, by decide, served _ _ (by decide), ⟨{ struck with struck := false }, List.mem_singleton.mpr rfl, rfl, rfl⟩, by decide, by decide, by decide, by decide,
    by decide⟩

-- Pages.
/-- A migration of the mapped page from GEN 1, in a pass. -/
def copied (passes : Nat) (ready : Bool) : Mig :=
  { space := 7, page := 0x4000000, g0 := 1, passes := passes, ready := ready, blocked := none }
/-- It goes on; lines of the page at the LLC are dirty: both grains of four, and one grain of the fifth or not. -/
def migrating (m : Mig) (fifth : BitVec 16) : State :=
  let line (k : Nat) (tag0 tag1 : BitVec 16) : LlcLine :=
    { space := 7, line := BitVec.ofNat 64 (0x4000000 + 64 * k), r := true, w := true, x := false, mode := 0, grain := .g32, na := false
      tag0 := tag0, tag1 := tag1, pa := 0x1000 + 64 * k }
  { mapped leafRW with cl := { base.cl with
      gen := 2, mig := some m, llc := ((List.range 4).map fun k => line k 1 1) ++ [line 4 fifth 0] } }
theorem witness_pages :
    ((mapped leafRW).dev.spaces.find? (fun x => x.space == 7)).isSome = true ∧ inCarveOut (64 * 2 ^ 30 - 8) 8 = true ∧
    (64 * 2 ^ 30 - 8) % 8 = 0 ∧ inCarveOut (64 * 2 ^ 30) 8 = false ∧ (60 * 2 ^ 30 + 4) % 8 ≠ 0 ∧
    base.frozen 0 = false ∧ ({ base with dev := { base.dev with tdisp := [(0, .run)] } } : State).frozen 0 = true ∧
    (0x4000000 : Word) &&& 0xFFF = 0 ∧ (mapped leafRW).leafAt 7 0x4000000 = some (60 * 2 ^ 30 + 4096 * 4, leafRW) ∧
    leafRW.getLsbD 0 = true ∧ leafRW.getLsbD 54 = false ∧ (mapped leafRW).cl.mig = none ∧ (mapped leafRW).cl.pendingRegs = [] ∧
    (mapped leafRW).cl.waiting = [] := by decide
theorem witness_migration_copy :
    ((mapped leafRW).checkLines 7 .load ((List.range 64).map fun k => (offOf 0x4000000).toNat + 64 * k)).2 = none := by decide +kernel
theorem inv_mapped : Inv (mapped leafRW) := ⟨by decide, by decide, by decide⟩
theorem witness_migration :
    (migrating (copied 0 false) 0).cl.mig = some (copied 0 false) ∧ (migrating (copied 0 false) 0).dirtyGrains (copied 0 false) (grainBytes (pteGrain leafRW)) = 8 ∧
    (migrating (copied 2 false) 1).dirtyGrains (copied 2 false) (grainBytes (pteGrain leafRW)) = 9 ∧ (copied 2 false).passes < 3 ∧
    3 ≤ (copied 3 false).passes ∧ (migrating (copied 3 false) 1).dirtyGrains (copied 3 false) (grainBytes (pteGrain leafRW)) = 9 ∧
    (copied 1 true).ready = true ∧ (migrating (copied 1 true) 0).leafAt 7 0x4000000 = some (60 * 2 ^ 30 + 4096 * 4, leafRW) := by decide
/-- The slot of clear pages has its keys. -/
def keyed (s : State) : State :=
  { s with dev := { s.dev with slots := s.dev.slots.set 63 { KeySlot.reset with st := .kindled, kenc := some 3, kmac := some 4 } } }
theorem witness_final_pass : ((keyed (migrating (copied 1 true) 0)).pageKey 7 0x4000000).isSome = true ∧
    (keyed (migrating (copied 1 true) 0)).pageInUse 7 0x4000000 = false ∧
    ((keyed (migrating (copied 1 true) 0)).checkLines 7 .load ((List.range 64).map fun k => (offOf 0x4000000).toNat + 64 * k)).2 = none := by
  decide +kernel
/-- A clear page that has left. -/
def gone : Trailer := { space := 7, page := 0x4000000, handle := 1, nonce := 0, leaf := 0xC6, tag := 0, poison := [], drive := none }
/-- Its leaf is not resident, and its trailer stands. -/
def away : State := let s := keyed (mapped 2); { s with dev := { s.dev with trailers := [gone] } }
theorem witness_page_in :
    away.dev.trailers.find? (fun t => t.space == 7 && t.page == 0x4000000) = some gone ∧
    away.leafAt 7 0x4000000 = some (60 * 2 ^ 30 + 4096 * 4, 2) ∧ (0x326C3F000 : Nat) % 4096 = 0 ∧ away.base ≤ 0x326C3F000 ∧
    0x326C3F000 + 4096 ≤ away.base + reservedTop ∧ away.frameMode 0x326C3F000 = none ∧ 0x326C3F000 + 4096 ≤ 60 * 2 ^ 30 + 4096 * 4 ∧
    away.cl.pendingRegs = [] ∧ away.cl.waiting = [] ∧ away.cl.sluice = [] ∧ pteMode gone.leaf = 0 ∧ away.pagePlain gone .failed = none ∧
    (mapped leafRW).dev.trailers.find? (fun t => t.space == 7 && t.page == (0x4000000 : Word) &&& ~~~0xFFF) = none := by decide
/-- Page data whose tag verifies, for any key: the tag is what R158's GCM gives of the ciphertext. -/
theorem witness_page_data (s : State) (t : Trailer) (ct : List Byte) (k : BitVec 256 × BitVec 128) (hd : t.drive = none)
    (hk : s.pageKey t.space t.page = some k) (hl : ct.length = 4096) (ht : gcmTag k.1 t.nonce k.2 77 256 ct = t.tag) :
    s.pagePlain t (.good ct) = some (gcmCrypt k.1 t.nonce 256 2 ct) := by
  unfold State.pagePlain
  simp [hd, hk, hl, ht]

-- The fabric: each timer at the clk it runs out, and one before.
/-- Device 5 is known, with what was last heard of it. -/
def peered (lost : Bool) : State :=
  { asked with dev := { asked.dev with peers := [{ dev := 5, lastMsg := 0, probed := 0, lost := lost }] } }
/-- The request is to be sent again at a clk. -/
def retrying (t : Nat) : State :=
  { asked with dev := { asked.dev with reqs := [{ id := 9, dev := 5, slot := 0, type := 1, oneWay := false, issued := 0, timeout := 50000, sent := 0, retryAt := some t }] } }
theorem witness_requests :
    (asked.outReq 9).isSome = true ∧ asked.badHeader (header 6 11 true) = true ∧ asked.badHeader (header 5 11 true) = false ∧
    asked.badHeader (header 0 11 true) = false ∧ (5 : BitVec 10) ≠ (header 0 11 true).src ∧ (5 : BitVec 10) = (header 5 11 true).src ∧
    (retrying 100).dev.reqs.all (fun r => r.retryAt == some 100) = true ∧ 100 ≤ (retrying 100).dev.clk ∧
    (retrying 101).dev.clk < 101 ∧ isPullReq 9 = false ∧ asked.dev.reqs.all (fun r => !r.oneWay) = true ∧ 9 < 2 ^ 67 ∧ 0 + 12000 ≤ (at' 12000 asked).dev.clk ∧ (at' 11999 asked).dev.clk < 0 + 12000 := by decide
theorem witness_peers :
    (5 : BitVec 10) ≠ (peered false).dev.id ∧ (peered false).lostDev 5 = false ∧ (peered false).member 5 = true ∧
    (peered true).lostDev 5 = true ∧ base.member 5 = false ∧
    (at' 12000 (peered false)).dev.reqs.all (fun r => r.dev == 5 && (at' 12000 (peered false)).probeDue r) = true ∧
    (∀ r ∈ (at' 11999 (peered false)).dev.reqs, r.dev = 5 → (at' 11999 (peered false)).probeDue r = false) ∧
    (at' 75000 (peered false)).dev.reqs.all (fun r => r.dev == 5 && (at' 75000 (peered false)).lossDue r) = true ∧
    (∀ r ∈ (at' 74999 (peered false)).dev.reqs, r.dev = 5 → (at' 74999 (peered false)).lossDue r = false) ∧
    (∀ x ∈ (peered false).dev.sessions, x.dev = 5 → x.sinceFlip < 2 ^ 48) ∧ (peered false).dev.members.any (fun m => m.dev == 5) = true ∧
    (∀ m ∈ base.dev.members, m.dev ≠ 5) := by decide
/-- A read of host memory waits. -/
def hostReading : State :=
  base.setCore { base.core with far := [{ reading with addr := 0x00007E0000000018 }], bank0 := [.pending 9], owed := [(9, .n 6)] }
theorem witness_host_read : hostReading.core.far.find? (fun g => g.req == 9 && g.sent) = some { reading with addr := 0x00007E0000000018 } ∧
    (∀ g ∈ hostReading.core.far, g.sent = true) ∧ 9 < 2 ^ 67 ∧
    (0x00007E0000000018 : Word).toNat % 32 + 8 ≤ 32 := by decide

-- Keys and trust.
/-- Slot `k` in a state. -/
def slotted (k : BitVec 6) (st : SlotState) : State := base.setSlotOf k { KeySlot.reset with st := st }
/-- Its interface in a state. -/
def locked (k : BitVec 6) (t : Tdisp) : State := let s := slotted k .kindled; { s with dev := { s.dev with tdisp := [(k, t)] } }
/-- Every hearth slot is in use. -/
def fullHouse : State := { base with dev := { base.dev with slots := Vector.replicate 64 { KeySlot.reset with st := .kindled } } }
theorem witness_kindle :
    base.dev.debug = false ∧ (∀ k : Fin 64, 1 ≤ k.val → k.val ≤ 62 → (fullHouse.slot k.val.cast).st ≠ .free) ∧
    1 ≤ (1#6).toNat ∧ (62#6).toNat ≤ 62 ∧ (base.slot 1).st = .free ∧ (slotted 1 .retired).slot 2 = KeySlot.reset ∧
    (∀ j : Fin 64, 1 ≤ j.val → j.val < 2 → ((slotted 1 .retired).slot j.val.cast).st ≠ .free) := by decide
theorem witness_quench :
    (base.slot 62).st ≠ .kindled ∧ ((slotted 62 .kindled).slot 62).st = .kindled ∧ ((slotted 62 .kindled).slot 62).st ≠ .quenching ∧
    ((slotted 62 .quenching).slot 62).st = .quenching ∧
    (∀ l ∈ (slotted 62 .quenching).dev.launches, l.live = true → l.space ∉ (slotted 62 .quenching).spacesOf 62) ∧
    ((locked 1 .configUnlocked).slot 1).st = .kindled ∧ (locked 1 .configUnlocked).interface 1 = .configUnlocked ∧
    (locked 1 .configLocked).interface 1 = .configLocked ∧ (locked 1 .run).interface 1 ≠ .configUnlocked ∧
    (locked 1 .run).interface 1 ≠ .configLocked := by decide
theorem witness_debug : (∀ k : Fin 64, 1 ≤ k.val → k.val ≤ 62 → (base.slot k.val.cast).st ≠ .kindled ∧ (base.slot k.val.cast).st ≠ .quenching) ∧
    ((slotted 1 .kindled).slot 1).st = .kindled := by decide
/-- A session with keys in its registers, its old phase erased or not, which flipped at 0. -/
def session (key0 key1 : Option (BitVec 512)) (erased : Bool) : State :=
  { base with dev := { base.dev with sessions := [{ Session.fresh 0 5 0 with key0 := key0, key1 := key1, erased := erased, flipAt := 0 }] } }
theorem witness_sessions :
    (session (some 1) (some 2) false).dev.sessions.all (fun x => x.key0.isSome && x.key1.isSome) = true ∧
    ((session (some 1) none true).session 5 0).all (fun x => (x.key (!x.phase)).isNone && x.erased) = true ∧
    ((session (some 1) none true).session 5 0).isSome = true ∧
    ((session (some 1) (some 2) true).session 5 0).all (fun x => (x.key (!x.phase)).isSome && x.erased) = true ∧
    ((session (some 1) (some 2) false).session 5 0).all (fun x => !x.erased && decide (x.flipAt + 300000 ≤ (at' 300000 base).dev.clk)) = true ∧
    (at' 299999 base).dev.clk < 0 + 300000 ∧ ((session none none true).dev.sessions.filter Session.cached).length < 4096 ∧
    base.session 5 0 = none := by decide
/-- A cached session with device 5, its key of phase 0 installed, that flipped at 0 and has sent a number of messages. -/
def aged (sent : Nat) : Session := { Session.fresh 0 5 0 with cached := true, key0 := some 1, erased := true, flipAt := 0, sinceFlip := sent }
theorem witness_rotation : base.rotateDue (aged (2 ^ 32)) = true ∧ base.rotateDue (aged (2 ^ 32 - 1)) = false ∧
    ({ base with dev := { base.dev with sessions := [aged (2 ^ 32)] } } : State).session 5 0 = some (aged (2 ^ 32)) := by decide
theorem witness_commands_refused : CmdSrc.vf ≠ .pf0 ∧ CmdSrc.vf ≠ .stokers ∧ (1 : BitVec 10) ≠ base.dev.id ∧
    (∀ names ∈ [none, some (base.dev.id, Config.fuseSerial)], names = none ∨ names = some (base.dev.id, Config.fuseSerial)) :=
  ⟨by decide, by decide, by decide, by simp⟩
/-- What the dies of a link exchange: nonces of 32 bytes, and their HMACs. -/
def exchanged (a b : Fin 9) : LinkProof :=
  let p : LinkProof := { nonceLow := List.replicate 32 0, nonceHigh := List.replicate 32 0, macLow := [], macHigh := [] }
  { p with macLow := linkMac a b p, macHigh := linkMac a b p }
theorem witness_links (a b : Fin 9) : (exchanged a b).nonceLow.length = 32 ∧ (exchanged a b).nonceHigh.length = 32 ∧
    (exchanged a b).macLow = linkMac a b (exchanged a b) ∧ (exchanged a b).macHigh = linkMac a b (exchanged a b) :=
  ⟨rfl, rfl, rfl, rfl⟩
/-- An HMAC with a byte more is none. -/
theorem witness_links_fail (a b : Fin 9) : let p := { exchanged a b with macLow := 0 :: linkMac a b (exchanged a b) }
    p.macLow ≠ linkMac a b p := by
  intro p
  have h : linkMac a b p = linkMac a b (exchanged a b) := by simp only [linkMac, p]
  rw [h]
  exact List.cons_ne_self _ _
/-- A challenge of certificate slot `k` is pending, with the slot's contents as they stood. -/
def challenged (k : Fin 8) (held : List HeldCert) : State :=
  { base with dev := { base.dev with challenges := [(k, [2])], heldCerts := held } }
theorem witness_certificates : (7 : Fin 8) ≠ 0 ∧ (challenged 7 []).challenged 7 = true ∧ base.challenged 7 = false ∧
    (challenged 7 []).dev.challenges = [(7, [2])] ∧ (challenged 7 []).dev.challenges.find? (fun x => x.1 == 7) = some (7, [2]) ∧
    (∀ h ∈ (challenged 7 []).dev.heldCerts, h.slot ≠ 7) ∧
    (challenged 7 [{ slot := 7, cert := [1] }]).dev.heldCerts = [{ slot := 7, cert := [1] }] ∧ 1 ≤ (5 : Byte).toNat ∧ (5 : Byte).toNat ≤ 5 ∧
    7 ≤ (7 : Byte).toNat := by decide

-- Launches.
/-- A launch of space 7 on cluster 0 with one root. -/
def launch (st : LaunchSt) : Launch :=
  { graph := 3, fn := 2, seqNo := 1, st := st, tvec := 0x1000, part := 0x10820, space := 7, queue := 1, capture := false, replay := false
    limit := 64, clusters := 1, roots := [(0x40, 0, 0, false)], exports := [], hwbase := 0, wlen := 0, mirror := 0, logAt := 0, logSize := 0
    prio := 0, timed := none, completion := 0, record := none, killing := none, elsewhere := [], sources := [] }
/-- The device after boot with a clear space 7, nothing bound; the launch at the head of a queue. -/
def offered (l : Launch) : State :=
  { State.reset with dev := { base.dev with
      spaces := (mapped 0).dev.spaces, queues := (Vector.replicate 4 []).set 1 [l] } }
/-- The launch is selected or bound, or has been asked to die. -/
def launched (l : Launch) : State := { State.reset with dev := { base.dev with launches := [l] } }
/-- The distributor reads the next record of ring 2. -/
def ringRead : RingRead := { fn := 2, timed := none, launch := none, roots := 0, exports := 0, want := 2, chunks := [], prio := 0 }
/-- A stream of function 62 has had a key, and none is in use. -/
def refusing : State := { base with dev := { base.dev with ide := [(62, false, 1)] } }
/-- An image alone. -/
def image : FwImage := { bytes := [], sig := [], version := 0 }
theorem witness_ide : refusing.ideKeyed 62 false = true ∧ refusing.ideKeyed 62 true = false := by decide
theorem witness_boot_notify :
    base.dev.booted = true ∧ State.reset.dev.booted = false ∧ State.reset.dev.inert = false ∧
    (0 : Word).toNat ≤ (base.ring 62).consumed ∧ (base.ring 62).consumed < (1 : Word).toNat ∧ base.dev.reads = [] ∧
    (127 : Word).toNat % 128 ≠ 0 ∧ (128 : Word).toNat % 128 = 0 ∧ (base.ring 0).notify ≤ (base.ring 0).consumed ∧
    (base.ring 0).heldEntries = none ∧ (base.ring 0).heldBase = none ∧ (65536 : Word).toNat = 2 ^ 16 ∧ (1 : Word).toNat = 2 ^ 0 ∧
    (∀ k ≤ 16, (3 : Word).toNat ≠ 2 ^ k) ∧ 0 < (base.ring 62).entries ∧ base.ideRefuses 62 = false ∧ refusing.ideRefuses 62 = true ∧
    capOk 0 0x00007F0010000000 = true ∧ capOk 0 0x00007F0010000001 = false ∧ base.dev.staged = none ∧
    imagesPass (base.bootImages []) = true ∧ imagesPass (base.bootImages [image]) = false := by decide
theorem witness_ring_read : let s : State := { base with dev := { base.dev with
      reads := [ringRead], rings := base.dev.rings.set 2 { Ring.reset with notify := 1, upTo := 1 } } }
    s.readOf (ringReq 2 none 0) = some (ringRead, 0) ∧ 2 ^ 130 ≤ ringReq 2 none 0 ∧ ringRead.timed = none ∧ ringRead.launch = none ∧
    (s.ring 2).upTo ≤ (s.ring 2).consumed + 1 ∧ (s.ring 2).consumed < (s.ring 2).upTo := by decide
theorem witness_selection :
    (offered (launch .queued)).selectable = some (1, launch .queued) ∧ (launch .queued).timed = none ∧ base.laneSources (launch .queued) = [] ∧
    (offered (launch .queued)).bindCheck (launch .queued) = none ∧
    (offered { launch .queued with part := 0x10821 }).selectable = some (1, { launch .queued with part := 0x10821 }) ∧
    ((offered (launch .queued)).bindCheck { launch .queued with part := 0x10821 }).isSome = true ∧
    base.clusterNo.toNat = 0 ∧ (launch .queued).clusters.getLsbD 0 = true ∧ ({ launch .queued with clusters := 2 } : Launch).clusters.getLsbD 0 = false ∧
    (launch .queued).exports = [] ∧ (launch .queued).roots[0]? = some (0x40, 0, 0, false) ∧
    base.selectable = none := by decide
/-- The launch is bound, and its roots are to be placed at a clk. -/
def placing (at' : Nat) : State :=
  { launched (launch .bound) with cl := { State.reset.cl with placing := some 3, zeroAt := at' } }
theorem witness_placing : (placing 100).cl.placing = some 3 ∧ (placing 101).dev.clk < (placing 101).cl.zeroAt ∧
    (placing 100).cl.zeroAt ≤ (placing 100).dev.clk ∧ (placing 100).launch 3 = some (launch .bound) ∧
    (placing 100).laneSources (launch .bound) = [] ∧ (launch .bound).roots[0]? = some (0x40, 0, 0, false) ∧
    (placing 100).clusterNo = 0 := by decide
/-- Entry 255 of the launch table. -/
def entry (policy pending : Bool) (skips : BitVec 32) : LaunchEntry :=
  { idx := 255, period := 1000000, phase := 0, template := 0x00007F0004000000, enable := true, policy := policy, prio := 0, pending := pending, skips := skips, next := 0 }
/-- The table holds it; an instance runs or not. -/
def timed (e : LaunchEntry) (runs : Bool) : State :=
  { base with dev := { base.dev with table := [e], launches := if runs then [{ launch .bound with timed := some 255 }] else [] } }
theorem witness_launch_table :
    (timed (entry false false 0) false).entry 255 = some (entry false false 0) ∧ (timed (entry false false 0) false).slotDue (entry false false 0) = true ∧
    (timed (entry false false 0) false).slotDue { entry false false 0 with next := 1 } = false ∧ (timed (entry false false 0) false).entryRuns 255 = false ∧
    (timed (entry true false 0) true).entryRuns 255 = true ∧ (entry true false 0).policy = true ∧ (entry true false 0).pending = false ∧
    (entry true true 0xFFFFFFFF).pending = true := by decide
theorem witness_launch_unread : ∀ bs,
    ((timed (entry false false 0) false).serviceBytes 0 (offOf (entry false false 0).template).toNat 128 .load).2 ≠ .ok (bs, false) := by
  intro bs h
  cases h
/-- Space 0 maps the template's page of home 127 to a page of the carve-out. -/
def templated : State :=
  let d : SpaceDesc := { clear7 with space := 0, root := BitVec.ofNat 44 (60 * 2 ^ 30 / 4096) }
  let table (k : Nat) : Nat := 60 * 2 ^ 30 + 4096 * k
  let ptr (k : Nat) : Word := BitVec.ofNat 64 (table k / 4096 * 2 ^ 10 + 1)
  let m := Mem.setWord base.mem (hbmKey (table 0)) (ptr 1)
  let m := Mem.setWord m (hbmKey (table 1 + 8 * 254)) (ptr 2)
  let m := Mem.setWord m (hbmKey (table 2)) (ptr 3)
  let m := Mem.setWord m (hbmKey (table 3 + 8 * 32)) (ptr 4)
  let m := Mem.setWord m (hbmKey (table 4)) (BitVec.ofNat 64 (table 5 / 4096 * 2 ^ 10 + 0xC3))
  let s := timed (entry false false 0) false
  { s with mem := m, dev := { s.dev with spaces := [clear7, d] } }
theorem witness_launch_template : (templated.serviceBytes 0 (offOf (entry false false 0).template).toNat 128 .load).2.toOption =
    some (List.replicate 128 0, false) := by decide +kernel
theorem witness_launch_end :
    (launched (launch .bound)).launch 3 = some (launch .bound) ∧ (launched (launch .bound)).launchQuiet (launch .bound) = true ∧
    (launched (launch .selected)).launchQuiet (launch .selected) = false := by decide
theorem witness_cancel :
    (launch .queued).fn = 2 ∧ (launch .queued).seqNo = (1 : Word).toNat ∧ (launch .queued).timed = none ∧ base.dev.reads = [] ∧
    (offered (launch .queued)).dev.queues = (Vector.replicate 4 []).set 1 [launch .queued] ∧
    (launched (launch .bound)).dev.queues = Vector.replicate 4 [] ∧ (launched (launch .bound)).dev.launches = [launch .bound] ∧
    (launch .bound).live = true ∧ (launch .selected).live = true := by decide

-- Kills, time, registers.
/-- A kill of the launch. -/
def killing : KillReq := { graph := 3, cause := 0x18, origin := 4, undelivered := 0, firing := 0, loc := 0, tval := 0, tval1 := 0, tval2 := 0, ret := 0 }
theorem witness_kill :
    base.launch 3 = none ∧ (launched (launch .bound)).launch 3 = some (launch .bound) ∧ (launch .done).live = false ∧ (launch .bound).live = true ∧
    (launch .bound).killing = none ∧ (base.cores.map fun c => c.num).Nodup ∧
    (launched { launch .bound with killing := some (killing, 100) }).launch 3 = some { launch .bound with killing := some (killing, 100) } ∧
    (launched { launch .bound with killing := some (killing, 100) }).killQuiet { launch .bound with killing := some (killing, 100) } = true ∧
    ({ launched { launch .bound with killing := some (killing, 100) } with
        core := { base.core with task := record } } : State).killQuiet { launch .bound with killing := some (killing, 100) } = false := by decide
/-- A log entry of the launch. -/
def logged : LogEntry := { graph := 3, place := 0, type := 1, key := 0, attempt := 0, ordinal := 0, data := [] }
/-- The launch's space is sealed under slot 1, and its log holds an entry. -/
def exporting : State :=
  { launched (launch .done) with dev := { base.dev with
      launches := [launch .done], spaces := [{ clear7 with slot := 1 }], log := [logged]
      slots := base.dev.slots.set 1 { KeySlot.reset with st := .kindled } } }
theorem witness_export :
    exporting.launch 3 = some (launch .done) ∧ (exporting.dev.log.filter fun e => e.graph == 3) ≠ [] ∧ exporting.slotOf 7 ≠ 0 ∧
    exporting.slotOf 7 ≠ 63 ∧ (exporting.slot (exporting.slotOf 7)).st = .kindled ∧ (1 : Fin 63).val = (exporting.slotOf 7).toNat ∧
    (launched (launch .done)).launch 3 = some (launch .done) ∧ (launched (launch .done)).slotOf 7 = 0 := by decide
theorem witness_entry_write :
    (timed (entry false false 0) false).entry 255 = some (entry false false 0) ∧
    (timed (entry false false 0) false).slotDue (entry false false 0) = true ∧
    (∀ e, (timed { entry false false 0 with next := 1 } false).entry 255 = some e →
      (timed { entry false false 0 with next := 1 } false).slotDue e = false) :=
  ⟨by decide, by decide, fun e h => by cases h; decide⟩
theorem witness_time : (1000000 : Int) < 1000001 ∧ (1000000 : Int) ≤ 1000000 ∧ base.dev.servo.lock = false ∧
    ({ base with dev := { base.dev with servo := { base.dev.servo with lock := true } } } : State).dev.servo.lock = true ∧ base.dev.servo.left = 0 ∧
    (∃ q, (0 : Fin 4) = q) ∧ (1 ≤ (1000 : Word).toNat ∧ (1000 : Word).toNat ≤ 1000) ∧ ¬ (1 ≤ (1001 : Word).toNat ∧ (1001 : Word).toNat ≤ 1000) :=
  ⟨by decide, by decide, by decide, by decide, by decide, ⟨0, rfl⟩, by decide, by decide⟩

-- Forms and clauses of the statements beside those above, each at a boundary value.
/-- A CALL or RET stands by in the group, and %sp is `v`. -/
def stackIn (x : Xfer) (v : Word) : State := (standing x).setCore { (standing x).core with sp := v }
theorem witness_spill_transfer :
    readyAll [.pushm 31 31, .popm 31 31, .spadj (-8), .spadj 8] (stackIn (.call 0) 16) = true ∧
    (stackIn (.call 0) 16).core.xferBad 8 = none ∧ (stackIn (.call 0) 8).core.xferBad 0 = some (-8) ∧
    (stackIn (.ret 0) 4080).core.xferBad 4088 = none ∧ (stackIn (.ret 0) 4088).core.xferBad 4096 = some 4104 := by decide
theorem witness_end_traps : readyAll [.endFiring, .yield] (atLevel 1 base) = true ∧ (atLevel 1 base).core.level ≠ 0 ∧
    ready (.spawn (.n 1) (.n 2) (some (.n 1)) false false 0 0) (regs 0x105 0 (owing 32)) = true ∧
    ((regs 0x105 0 (owing 32)).qn (.n 1)).setWidth 17 ∈ binding.exports := by decide
/-- A home of device 5, a member. -/
theorem witness_other_device : asked.farCheck 0x0002850004000008 = none ∧ devOf (homeOf 0x0002850004000008) = 5 ∧
    (5 : BitVec 10) ≠ asked.dev.id ∧ asked.lostDev 5 = false ∧ asked.served (homeOf 0x0002850004000008) = false ∧
    homeOf 0x0002850004000008 ≠ asked.service ∧ devOf (homeOf 0x0000050004000000) = base.dev.id ∧
    base.served (homeOf 0x0000050004000000) = false ∧ homeOf 0x0000050004000000 ≠ base.service := by decide
theorem witness_pull_traps :
    ¬ ((1 : Nat) < 2 → (64#24).toNat ≤ (63#24).toNat) ∧ ((1 : Nat) < 2 → (64#24).toNat ≤ (64#24).toNat) ∧
    ¬ ((0x000005FFFFFFFFC0 : Word).toNat % 2 ^ 40 + 1 * 0 + 128 ≤ 2 ^ 40 + 0) ∧ ¬ ((0x000005FFFFFFFFC0 : Word).toNat % 2 ^ 40 + 0 * 0 + 128 ≤ 2 ^ 40 + 0) ∧
    ((0x000005FFFFFFFFC0 : Word).toNat % 2 ^ 40 + 0 * 64 + 128 ≤ 2 ^ 40 + 64) ∧
    base.issueCheck 1 true (pullRows 28965824 1 0 128) = some (0x09, 28965888) ∧
    base.issueCheck 8 false [(0x1FFFFF8, 16)] = some (0x09, 0x1FFFFF8) ∧ base.core.ag[0] = [] ∧ grouped.core.ag[3] ≠ [] := by decide
theorem witness_ast_traps :
    readyAll [.ast .fp32 n1 0 1 0, .ast .bf16 n1 512 1 0] base = true ∧ 16 % 32 ≠ 0 ∧ 28965888 % 32 = 0 ∧
    base.liveNear - 1024 < 28965888 + 0 * AFmt.fp32.rowBytes + AFmt.fp32.rowBytes ∧
    64 * partA base.cl.part < (512#12).toNat + (1#12).toNat := by decide
/-- Core 3 of the gang reached its END a clk ago. -/
def left : State :=
  { gang true with mates := (gang true).mates.map fun c => if c.num = 3 then { c with ended := some 99 } else c }
theorem witness_mma_gone : ready oneMma left = true ∧ left.core.joinedWait = none ∧ left.core.level = 0 ∧ left.core.task.wide = true ∧
    (left.coreNo 3).ended = some 99 ∧ 99 < left.dev.clk := by decide
theorem witness_near_set : (((cached (ncLine false 0) base).ncRest (ncLine false 0)).filter
      fun x => ncSet x.line == ncSet 0x4000000).length < 16 ∧
    (base.cl.nc.filter fun x => ncSet x.line == ncSet 0x4000000).length < 16 ∧ (0x0C : Byte) = 0x0C := by decide
/-- Transfer 0 of channel 15 has completed. -/
def ended : State := { base with cl := { base.cl with chans := base.cl.chans.set 15 { Chan.zero with
  next := 1, ends := [{ xid := 0, cmd := 0, owner := 0, firing := 0, gens := [], flags := 0 }] } } }
/-- Its line has come, and has been written. -/
def comeLine (done : Bool) : PullLine := { askedLine with arrivals := [{ member := 0, failed := none }], done := done }
theorem witness_pull_ends :
    ended.xfer 15 0 = none ∧ (ended.pullEnd 15 0).isSome = true ∧ base.xfer 15 0 = none ∧ base.pullEnd 15 0 = none ∧
    (comeLine false).outstanding 0 = false ∧ (∀ a ∈ (comeLine false).arrivals, a.failed = none) ∧
    (pulling [comeLine false]).destEnd (copying [comeLine false]) (comeLine false) 0 = .write ∧
    (comeLine false).dst.toNat + 64 ≤ 0x2000000 ∧ ((pulling [comeLine true]).chan 15).xfers = [copying [comeLine true]] ∧
    (∀ l ∈ (copying [comeLine true]).lines, l.done = true) ∧ (copying [comeLine true]).failure = none := by decide
theorem inv_pulling : Inv (pulling [comeLine true]) ∧ Inv (missed true) := ⟨⟨by decide, by decide, by decide⟩, ⟨by decide, by decide, by decide⟩⟩
theorem witness_commit_slots :
    (ending .ending []).core.slotsFree = true ∧
    ((ending .ending []).setCore { (ending .ending []).core with slots := (slot5 .armed).core.slots }).core.slotsFree = false ∧
    (ending .committing []).advanceHeld 0x1FFFFF8 1 = false ∧ Inv (ending .committing []) :=
  ⟨by decide, by decide, by decide, ⟨by decide, by decide, by decide⟩⟩
theorem witness_late_read : far.readsHere (homeOf reading.addr) = false ∧ (9 ∉ base.cl.lateReads) ∧
    far.core.far.find? (fun g => g.req == reading.req && g.sent) = some reading ∧
    (9 ∈ ({ base with cl := { base.cl with lateReads := [9] } } : State).cl.lateReads) := by decide
theorem witness_registration : (∀ x ∈ base.cl.sluice ++ base.cl.pendingRegs, x.who ≠ .slot 5 0 0 2 3) ∧ devOf 5 = base.dev.id ∧
    (5 : BitVec 17) ≠ base.home ∧ homeOf 0x0000000001FFFFFF ≠ base.service := by decide
/-- A session with device 5 in which both keys are installed. -/
def inSession : State :=
  { peered false with dev := { (peered false).dev with sessions := [{ Session.fresh 0 5 0 with
      cached := true, key0 := some 1, key1 := some 2 }] } }
theorem witness_probe : inSession.badHeader { header 5 9 true with seqNo := 1 } = false ∧ inSession.lostDev 5 = false ∧
    (5 : BitVec 10) ≠ inSession.dev.id ∧ (inSession.session 5 0).all (fun x => x.cached && (x.key false).isSome && (x.receive 1).isSome) = true ∧
    (inSession.session 5 0).all (fun x => x.verifies (header 5 9 true)) = true ∧
    (inSession.session 5 0).isSome = true ∧ inSession.badHeader (header 6 9 true) = true := by decide
theorem witness_members : base.member 0 = true ∧ (0 : BitVec 10) = base.dev.id ∧ asked.member 5 = true ∧
    ({ asked with dev := { asked.dev with members := [member 0, { member 5 with member := false }] } } : State).member 5 = false ∧
    asked.lostDev 5 = false := by decide
/-- The host read is outstanding until a clk. -/
def hostWaiting (until' : Nat) : State := { hostReading with dev := { hostReading.dev with pcie := [(9, until')] } }
theorem witness_host_timeout : (hostWaiting 100).pcieOpen 9 = true ∧ hostReading.readsHere (homeOf 0x00007E0000000018) = false ∧
    (∃ x ∈ (hostWaiting 100).dev.pcie, x.1 = 9 ∧ x.2 ≤ (hostWaiting 100).dev.clk) ∧
    (∀ x ∈ (hostWaiting 101).dev.pcie, x.1 = 9 → (hostWaiting 101).dev.clk < x.2) :=
  ⟨by decide, by decide, ⟨(9, 100), by decide, rfl, by decide⟩, by decide⟩
theorem witness_ring_timeout : let y : Nat × Nat := (ringReq 2 none 0, 100)
    (∃ x ∈ [y], x.1 = ringReq 2 none 0 ∧ x.2 ≤ base.dev.clk) ∧ (∀ x ∈ [(ringReq 2 none 0, 101)], x.1 = ringReq 2 none 0 → base.dev.clk < x.2) :=
  ⟨⟨_, List.mem_singleton.mpr rfl, rfl, by decide⟩, by decide⟩
/-- The distributor reads the tables of the launch. -/
def tableRead : RingRead := { ringRead with launch := some (launch .queued), roots := 1, want := 1 }
theorem witness_cancel_read : ({ base with dev := { base.dev with reads := [tableRead] } } : State).dev.reads = [tableRead] ∧
    tableRead.timed = none ∧ tableRead.launch = some (launch .queued) := by decide
theorem witness_notify_held : (0 : Nat) < (1 : Word).toNat ∧ State.reset.dev.booted = false ∧ (State.reset.ring 0).consumed = 0 := by decide
theorem witness_kill_overflow : (∀ x ∈ base.cl.overflow, x.graph = 3) ∧ (launched (launch .bound)).cl.overflow = [] := by decide
/-- A launch-table entry's bytes 24-27: enable alone, and with a reserved bit. -/
theorem witness_entry_flags : (8#32).getLsbD 3 = true ∧ (∀ k < 32, 4 ≤ k → k ≠ 8 → (8#32).getLsbD k = false) ∧ (0x208#32).getLsbD 9 = true := by decide
theorem witness_reserve : ({ queued { record with wide := true } 0 96001 with core := base.core } : State).reserveDue = true := by decide
theorem witness_log : logged ∈ [logged] ∧ logged.graph = 3 ∧ (launched { launch .bound with killing := some (killing, 100) }).dev.reads = [] := by decide

end Sys2Proof.Tests
end

namespace Sys2Proof.Machine

/-! ## O6: the invariant and an update

The memory, the spill regions and the saved contexts of a step's result come from those of the state before it by a chain of
named operations. So there is one rule `Inv.f` for each operation `f` of the model: the invariant holds after `f` when it held
before. A rule's proof splits along the branches of `f` and chains the rules of what each branch does; those that the laws of
`Frame` cover enter by `Inv.frame`. In a chain `(by rfl)` says that an update keeps what the invariant speaks of, once the goal
has fixed the update; at the end of a chain `rfl` does. -/

section
variable {s t : State} {c : Core} {α : Type}

/-- What changes neither the memory, nor a core out of focus, nor a saved context keeps the invariant when it keeps the
spill region of the core in focus canonical. -/
theorem Inv.withCore (h : Inv s) (hc : Memory.wf s.core.spill = true → Memory.wf t.core.spill = true)
    (e : (t.mem, t.mates, t.cl.images) = (s.mem, s.mates, s.cl.images)) : Inv t := by
  obtain ⟨hm, hs, hi⟩ := h
  simp only [Prod.mk.injEq] at e
  obtain ⟨em, et, ei⟩ := e
  refine ⟨em ▸ hm, ?_, ei ▸ hi⟩
  have hs' : ∀ d ∈ s.core :: s.mates, Memory.wf d.spill = true := hs
  have ht : ∀ d ∈ t.core :: t.mates, Memory.wf d.spill = true := by
    rw [et]
    exact List.forall_mem_cons.2 ⟨hc (hs' _ (List.mem_cons_self ..)), fun d hd => hs' d (List.mem_cons_of_mem _ hd)⟩
  exact ht

/-- What changes nothing that the invariant speaks of. -/
theorem Inv.same (h : Inv s)
    (e : (t.mem, t.core.spill, t.mates, t.cl.images) = (s.mem, s.core.spill, s.mates, s.cl.images)) : Inv t := by
  simp only [Prod.mk.injEq] at e
  obtain ⟨em, ec, et, ei⟩ := e
  exact h.withCore (fun w => ec ▸ w) (by rw [em, et, ei])

theorem Inv.setCore (h : Inv s) (hc : c.spill = s.core.spill) : Inv (s.setCore c) := h.withCore (fun w => hc ▸ w) rfl

/-- A core whose spill region is canonical comes into focus. -/
theorem Inv.putCore (h : Inv s) (hc : Memory.wf c.spill = true) : Inv (s.setCore c) := h.withCore (fun _ => hc) rfl

/-- An operation that changes no core and no saved context, and keeps the memory canonical. -/
theorem Inv.frame (h : Inv s) (f : Frame s t) : Inv t :=
  ⟨f.mem h.mem, by unfold State.cores; rw [f.core, f.mates]; exact h.spill, by rw [f.images]; exact h.images⟩

theorem Inv.ite {p : Prop} [Decidable p] (h : Inv s) (g : Inv t) : Inv (if p then s else t) := by
  split <;> assumption

theorem Inv.setCl {x : Cluster} (h : Inv s) (hi : x.images = s.cl.images) : Inv (s.setCl x) :=
  h.withCore id (congrArg (s.mem, s.mates, ·) hi)

/-- No saved context joins the store. -/
theorem Inv.setClSub {x : Cluster} (h : Inv s) (hx : ∀ g ∈ x.images, g ∈ s.cl.images) : Inv (s.setCl x) :=
  ⟨h.mem, h.spill, fun g hg => h.images g (hx g hg)⟩

theorem Inv.setDev {d : Device} (h : Inv s) : Inv (s.setDev d) := h.same rfl
theorem Inv.send {m : Msg} (h : Inv s) : Inv (s.send m) := h.same rfl
theorem Inv.queue {i : Instr} (h : Inv s) : Inv (s.queue i) := h.same rfl
theorem Inv.count {k : Cnt} {n : Nat} (h : Inv s) : Inv (s.count k n) := h.same rfl
theorem Inv.setQuad {q : QuadUnits} {cs : List (Word × Line)} (h : Inv s) :
    Inv { s with icache := cs, quad := q } := h.same rfl
theorem Inv.takeId (h : Inv s) : Inv s.takeId := h.same rfl
theorem Inv.takeFree (h : Inv s) : Inv s.takeFree := h.same rfl

theorem Inv.setMem {m : List Host.Cell} (h : Inv s) (hm : Memory.wf s.mem = true → Memory.wf m = true) : Inv (s.setMem m) :=
  ⟨hm h.mem, h.spill, h.images⟩

/-- The state of a pair that has been taken apart. -/
theorem Inv.fst {p : State × α} {x : α} (h : Inv p.1) (e : p = (t, x)) : Inv t := by
  rw [e] at h; exact h

/-- The invariant holds of the state that an outcome leads to, if it leads to one. -/
def NextInv : Out → Prop
  | .next t => Inv t
  | .fault _ => True
  | .refused _ => True

theorem Inv.foldl {β : Type} {f : State → β → State} (hf : ∀ s x, Inv s → Inv (f s x)) (l : List β) :
    ∀ {s : State}, Inv s → Inv (l.foldl f s) := by
  induction l with
  | nil => exact id
  | cons x l ih => exact fun h => ih (hf _ x h)

theorem Inv.core (h : Inv s) : Memory.wf s.core.spill = true := h.spill _ (List.mem_cons_self ..)

theorem Inv.mates (h : Inv s) : ∀ c ∈ s.mates, Memory.wf c.spill = true := fun c hc => h.spill c (List.mem_cons_of_mem _ hc)

/-- A change of every core of the quad that keeps spill regions canonical. -/
theorem Inv.mapCores {f : Core → Core}
    (h : Inv s) (hf : ∀ c : Core, Memory.wf c.spill = true → Memory.wf (f c).spill = true) :
    Inv (s.mapCores f) := by
  refine ⟨h.mem, ?_, h.images⟩
  have : ∀ c ∈ f s.core :: s.mates.map f, Memory.wf c.spill = true :=
    List.forall_mem_cons.2 ⟨hf _ h.core, List.forall_mem_map.2 fun c hc => hf c (h.mates c hc)⟩
  exact this

theorem Inv.mapFiring {f : Core → Core}
    (h : Inv s) (hf : ∀ c : Core, Memory.wf c.spill = true → Memory.wf (f c).spill = true) :
    Inv (s.mapFiring f) := by
  unfold State.mapFiring
  split
  · exact h.mapCores hf
  · exact h.withCore (hf _) rfl

/-- The search takes its cores from those it is given. -/
theorem focusGo_perm {p : Core → Bool} {l : List Core} : ∀ {c d : Core} {seen ms : List Core},
    focusGo p c seen l = some (d, ms) → (d :: ms).Perm (c :: (seen ++ l)) := by
  induction l with
  | nil => intro c d seen ms h; cases h
  | cons e r ih =>
    intro c d seen ms h
    unfold focusGo at h
    split at h
    · cases h
      exact (List.Perm.swap ..).trans ((((seen.reverse_perm.append_right r).cons e).trans List.perm_middle.symm).cons c)
    · exact (ih h).trans (List.perm_middle.symm.cons c)

/-- Which core is in focus is no matter of the invariant. -/
theorem Inv.focus {p : Core → Bool} (h : Inv s) (e : s.focus p = some t) : Inv t := by
  unfold State.focus at e
  split at e
  · cases e; exact h
  · obtain ⟨x, hx, rfl⟩ := Option.map_eq_some_iff.1 e
    exact ⟨h.mem, fun c hc => h.spill c ((focusGo_perm hx).subset hc), h.images⟩

theorem Inv.onCore {p : Core → Bool} {f : State → State} (h : Inv s) (hf : ∀ t, Inv t → Inv (f t)) :
    Inv (s.onCore p f) := by
  unfold State.onCore
  split
  · exact hf _ (h.focus ‹_›)
  · exact h

/-! ### The model's updates of one part of the state -/

theorem Inv.setSvc {v : Service} (h : Inv s) : Inv (s.setSvc v) := h.setDev
theorem Inv.putLaunch {l : Launch} (h : Inv s) : Inv (s.putLaunch l) := h.setDev
theorem Inv.untrack {id : Nat} (h : Inv s) : Inv (s.untrack id) := h.setDev
theorem Inv.endPcie {id : Nat} (h : Inv s) : Inv (s.endPcie id) := h.setDev
theorem Inv.setSlotOf {k : BitVec 6} {x : KeySlot} (h : Inv s) : Inv (s.setSlotOf k x) := h.setDev
theorem Inv.setInterface {k : BitVec 6} {x : Tdisp} (h : Inv s) : Inv (s.setInterface k x) := h.setDev
theorem Inv.setMajorSource {k : BitVec 6} {v : Word} (h : Inv s) : Inv (s.setMajorSource k v) := h.setCl rfl
theorem Inv.holdBanks {es : List (Nat × Nat)} (h : Inv s) : Inv (s.holdBanks es) := h.setCl rfl
theorem Inv.useBanks {es : List (Nat × Nat)} (h : Inv s) : Inv (s.useBanks es) := h.setCl rfl
theorem Inv.rewind {key : Word} (h : Inv s) : Inv (s.rewind key) := h.setCl rfl
theorem Inv.popList {q : Fin 4} (h : Inv s) : Inv (s.popList q) := h.setCl rfl
theorem Inv.dropFar {id : Nat} (h : Inv s) : Inv (s.dropFar id) := h.setCore rfl
theorem Inv.arriving {id : Nat} {v : PVal} {due : Nat} (h : Inv s) : Inv (s.arriving id v due) := h.setCore rfl
theorem Inv.askKill {r : KillReq} (h : Inv s) : Inv (s.askKill r) := h.queue
theorem Inv.status {code : Byte} (h : Inv s) : Inv (s.status code) := h.send
theorem Inv.failCode {a : Word} {r : LineReply} (h : Inv s) : Inv (s.failCode a r) := h.same rfl
theorem Inv.putCode {a : Word} {l : Line} (h : Inv s) : Inv (s.putCode a l) := h.same rfl
theorem Inv.headWait {n : Nat} (h : Inv s) : Inv (s.headWait n) := h.same rfl

end
end Sys2Proof.Machine

namespace Sys2Proof.Machine

/-! ## What an update of a core leaves of its spill region -/

/-- A run of updates that each leave the spill region. -/
theorem Core.foldl_spill {β : Type} {f : Core → β → Core} (hf : ∀ c x, (f c x).spill = c.spill) (l : List β) (c : Core) :
    (l.foldl f c).spill = c.spill := by
  induction l generalizing c with
  | nil => rfl
  | cons x l ih => exact (ih _).trans (hf c x)

theorem Core.ite_spill {p : Prop} [Decidable p] {c d : Core} {m : List Host.Cell} (hc : c.spill = m) (hd : d.spill = m) :
    (if p then c else d).spill = m := by
  split <;> assumption

@[simp] theorem Core.setBank_spill (c : Core) (l : Nat) (b : List QEntry) : (c.setBank l b).spill = c.spill := by
  rw [Core.setBank_eq]

@[simp] theorem Core.push_spill (c : Core) (e : QEntry) : (c.push e).spill = c.spill := by rw [Core.push_eq]

@[simp] theorem Core.setDest_spill (c : Core) (d : Dest) (v : Word) : (c.setDest d v).spill = c.spill := by
  rw [Core.setDest_eq]

@[simp] theorem Core.setOpt_spill (c : Core) (d : Option Dest) (v : Word) : (c.setOpt d v).spill = c.spill := by
  rw [Core.setOpt_eq]

@[simp] theorem Core.outdate_spill (c : Core) (id : Nat) (ds : List Dest) : (c.outdate id ds).spill = c.spill := rfl
@[simp] theorem Core.markFault_spill (c : Core) (f : FaultInfo) : (c.markFault f).spill = c.spill := rfl
@[simp] theorem Core.mergeFlags_spill (c : Core) (f : BitVec 5) : (c.mergeFlags f).spill = c.spill := rfl
@[simp] theorem Core.takeBack_spill (c : Core) (k : Nat) : (c.takeBack k).spill = c.spill := rfl
@[simp] theorem Core.unhold_spill (c : Core) (k : Nat) : (c.unhold k).spill = c.spill := rfl
@[simp] theorem Core.setSlot_spill (c : Core) (k : Fin 16) (w : WSlot) : (c.setSlot k w).spill = c.spill := rfl
@[simp] theorem Core.setAcc_spill (c : Core) (x : AccRow) : (c.setAcc x).spill = c.spill := rfl
@[simp] theorem Core.unend_spill (c : Core) : c.unend.spill = c.spill := rfl

@[simp] theorem Core.setVs_spill (ds : List Dest) : ∀ (c : Core) (xs : List VReg), (c.setVs ds xs).spill = c.spill := by
  induction ds with
  | nil => intro c xs; rfl
  | cons d ds ih =>
    intro c xs
    cases xs with
    | nil => cases d <;> rfl
    | cons x xs => cases d <;> exact ih _ _

@[simp] theorem Core.deliver_spill (c : Core) (id : Nat) (v : PVal) : (c.deliver id v).spill = c.spill := by
  unfold Core.deliver; dsimp only
  split
  · exact Core.foldl_spill (fun c d => c.setDest_spill d _) ..
  · exact Core.setVs_spill ..
  · exact Core.foldl_spill (fun c d => by cases d <;> rfl) ..
  · exact Core.foldl_spill (fun c d => by cases d <;> rfl) ..

@[simp] theorem Core.noteVec_spill (c : Core) (clk : Nat) (p : Pend) : (c.noteVec clk p).spill = c.spill := by
  unfold Core.noteVec
  split <;> rfl

@[simp] theorem Core.arrive_spill (c : Core) (clk : Nat) (p : Pend) : (c.arrive clk p).spill = c.spill := by
  simp [Core.arrive]

@[simp] theorem Core.setTrapRegs_spill (c : Core) (l : Nat) (t : TrapRegs) : (c.setTrapRegs l t).spill = c.spill := by
  unfold Core.setTrapRegs
  split <;> rfl

@[simp] theorem Core.giveUp_spill (c : Core) (a : Access) : (c.giveUp a).spill = c.spill := by
  unfold Core.giveUp
  split <;> rfl

@[simp] theorem Core.finishMwait_spill (c : Core) (lo hi id : Nat) : (c.finishMwait lo hi id).spill = c.spill := by
  unfold Core.finishMwait; dsimp only
  refine Core.foldl_spill ?_ ..
  exact fun _ _ => rfl

@[simp] theorem Core.mmaRow_spill (c : Core) (clk : Nat) (a : ActRow) : (c.mmaRow clk a).spill = c.spill := by
  unfold Core.mmaRow
  split
  · split
    · dsimp only
      rw [Core.setAcc_spill]
    · rfl
  · rfl

@[simp] theorem Core.putRows_spill (id : Nat) (ds : List Dest) :
    ∀ (c : Core) (r : Nat) (xs : List (VReg × BitVec 128 × Bool)), (c.putRows id r ds xs).spill = c.spill := by
  induction ds with
  | nil => intro c r xs; rfl
  | cons d ds ih =>
    intro c r xs
    cases xs with
    | nil => rfl
    | cons x xs =>
      refine (ih _ _ _).trans ?_
      split
      · rfl
      · cases d <;> rfl

@[simp] theorem Core.endsAfter_spill (c : Core) (clk : Nat) : (c.endsAfter clk).spill = c.spill := by
  unfold Core.endsAfter
  split <;> rfl

@[simp] theorem Core.endMma_spill (c : Core) : c.endMma.spill = c.spill := by
  unfold Core.endMma
  split
  · split <;> rfl
  · rfl

@[simp] theorem Core.regroup_spill (c : Core) : c.regroup.spill = c.spill := by
  simp [Core.regroup]

@[simp] theorem Core.loadWords_spill (rs : List (Fin 32)) :
    ∀ (c : Core) (off : Word), (c.loadWords off rs).spill = c.spill := by
  induction rs with
  | nil => intro c off; rfl
  | cons r rs ih => intro c off; exact ih _ _

@[simp] theorem Core.putDests_spill (c : Core) (id : Nat) (ds : List Dest) (v : Word) : (c.putDests id ds v).spill = c.spill :=
  Core.foldl_spill (fun c d => c.setDest_spill d v) ..

@[simp] theorem Core.retry_spill (c : Core) : c.retry.spill = c.spill := by
  unfold Core.retry
  split <;> rfl

@[simp] theorem State.countPoison_core (s : State) (c : Byte) : (s.countPoison c).core = s.core := by
  unfold State.countPoison
  split <;> rfl

/-! ## Writes to the spill region -/

theorem Core.spillWords_wf (vs : List Word) :
    ∀ {c : Core} (off : Word), Memory.wf c.spill = true → Memory.wf (c.spillWords off vs).spill = true := by
  induction vs with
  | nil => intro c off h; exact h
  | cons v vs ih => intro c off h; exact ih _ (Mem.setWord_wf _ v h)

theorem Core.debugWrite_wf {c : Core} (r : DebugReg) (x : Word) (h : Memory.wf c.spill = true) :
    Memory.wf (c.debugWrite r x).spill = true := by
  cases r with
  | q bank k => rw [Core.debugWrite, Core.setBank_spill]; exact h
  | spill off => exact Mem.setWord_wf _ x h
  | n | v | m | lc | acc | pc | sp | spbase | splim | fstat => exact h

end Sys2Proof.Machine

namespace Sys2Proof.Machine
section
variable {s t : State}

/-! ## Operations on the state -/

theorem Inv.capture {type : Byte} {key : Word} {data : List Word} (h : Inv s) : Inv (s.capture type key data) := by
  unfold State.capture; dsimp only
  split
  · exact h
  · split
    · exact h
    · split
      · exact h.same rfl
      · exact h.same rfl

theorem Inv.result {d : NDst} {v : Word} (h : Inv s) : Inv (s.result d v) := h.setCore (by simp)

theorem Inv.owe {push : Bool} {ds : List Dest} (h : Inv s) : Inv (s.owe push ds) := by
  rw [State.owe_eq]
  exact h.same rfl

theorem Inv.resultAt {d : NDst} {kind : PendKind} {v : Word} {flags : BitVec 5} {due : Nat} (h : Inv s) :
    Inv (s.resultAt d kind v flags due) := (h.same (by rfl)).owe

theorem Inv.input {type : Byte} {key : Word} {data : List Word} (h : Inv s) : Inv (s.input type key data) := by
  unfold State.input; dsimp only
  split
  · exact h.capture
  · split
    · exact h.same rfl
    · exact h.same rfl

theorem Inv.enterLevel {l : Nat} {cause : Byte} {tval ret : Word} {off : Nat} {flags : Word} (h : Inv s) :
    Inv (enterLevel s l cause tval ret off flags) := (h.setCore (by simp)).input

theorem Inv.takeTrap {cause : Byte} {tval ret : Word} {off : Nat} {flags : Word} (h : Inv s) :
    Inv (takeTrap s cause tval ret off flags) := by
  unfold Machine.takeTrap
  split
  · exact h.enterLevel
  · exact h.enterLevel
  · exact h.same rfl

theorem Inv.countPoison {cause : Byte} (h : Inv s) : Inv (s.countPoison cause) := by
  unfold State.countPoison
  split
  · exact h.same rfl
  · exact h

theorem Inv.deferredTrap {f : FaultInfo} (h : Inv s) : Inv (s.deferredTrap f) := by
  unfold State.deferredTrap; dsimp only
  refine Inv.setCore (Inv.takeTrap (Inv.putCore (h.countPoison.ite h) ?_)) (Core.ite_spill rfl (Core.setTrapRegs_spill ..))
  refine (congrArg Memory.wf (Core.foldl_spill ?_ ..)).trans h.core
  intro c d
  cases d <;> rfl

/-! ## The gate -/

theorem Inv.gate {i : Instr} {k : Out} (h : Inv s) (hk : NextInv k) : NextInv (gate i s k) := by
  obtain ⟨c, v, -, e⟩ | ⟨-, -, e⟩ | ⟨f, -, -, -, e⟩ | ⟨-, e⟩ := gate_cases i s k <;> rw [e]
  · exact h.takeTrap
  · exact h.same rfl
  · exact h.deferredTrap
  · exact hk

/-! ## Integer and address instructions -/

theorem Inv.alu {i : Instr} {d : NDst} {v : Word} (h : Inv s) : NextInv (alu i s d v) := h.gate h.result

theorem Inv.divide {i : Instr} {w : Width} {d : NDst} {a b v : Word} (h : Inv s) :
    NextInv (divide i w d a b v s) := by
  unfold Machine.divide
  refine h.gate ?_
  split
  · exact h.takeTrap
  · split
    · exact h.same rfl
    · exact h.resultAt

theorem Inv.execLea {keep : Bool} {sh : BitVec 4} {d : NDst} {a : Src} {b : Option Src} {disp : BitVec 48} (h : Inv s) :
    NextInv (execLea keep sh d a b disp s) := by
  unfold Machine.execLea; dsimp only
  refine h.gate ?_
  split
  · split
    · exact h.result
    · exact h.takeTrap
  · exact h.result

theorem Inv.execFar {d : NDst} {a : Src} {b : SrcImm} (h : Inv s) : NextInv (execFar d a b s) := by
  unfold Machine.execFar; dsimp only
  refine h.gate ?_
  split
  · exact h.result
  · exact h.takeTrap

theorem Inv.execHomeof {sel : HomeSel} {d : NDst} {a : Src} (h : Inv s) : NextInv (execHomeof sel d a s) := by
  unfold Machine.execHomeof; dsimp only
  refine h.gate ?_
  split
  · exact h.result
  · exact h.takeTrap

/-! ## Nysil sessions -/

theorem Inv.respond {hdr : Option NysilHdr} {type : BitVec 7} {m : Msg} (h : Inv s) : Inv (s.respond hdr type m) := by
  unfold State.respond
  split
  · exact h.same rfl
  · exact h.frame (State.sendNysil_frame ..)

theorem Inv.askPcie {fn id : Nat} {addr : Word} (h : Inv s) : Inv (s.askPcie fn id addr) := by
  unfold State.askPcie; dsimp only
  split
  · exact h.same rfl
  · exact h.same rfl

theorem Inv.receive {hdr : Option NysilHdr} {request : Bool} {k : State → Out} {refusal : Option (BitVec 7 × Msg)} (h : Inv s)
    (hk : ∀ t, Inv t → NextInv (k t)) : NextInv (receive hdr request s k refusal) := by
  unfold Machine.receive
  split
  · exact hk _ h
  · split
    · exact h.frame (State.sendBare_frame ..)
    · rename_i y _ _
      have ha := h.frame (s.accepts_frame (some y) request)
      split
      · exact ha.fst ‹_›
      · rename_i e
        split
        · rename_i t e'
          have ht : NextInv (.next t) := by
            rw [← e']
            exact hk _ (ha.fst e).setDev
          exact Inv.setDev ht
        · trivial
        · trivial

theorem Inv.execSessionContextFetch {dev : BitVec 10} {slot : BitVec 6} (h : Inv s) :
    NextInv (execSessionContextFetch dev slot s) := by
  unfold Machine.execSessionContextFetch
  split
  · exact h
  · exact h.frame (State.cacheSession_frame ..)

/-! ## Code lines and transfers -/

theorem Inv.sendCode {a : Word} (h : Inv s) : Inv (s.sendCode a) := by
  unfold State.sendCode
  split
  · exact h.askPcie
  · split
    · exact h.same rfl
    · split
      · exact h.same rfl
      · exact h.frame (State.request_frame ..)

theorem Inv.askLine {a : Word} (h : Inv s) : Inv (s.askLine a) := by
  unfold State.askLine; dsimp only
  split
  · exact h
  · split
    · exact h.same rfl
    · split
      · exact h.same rfl
      · split
        · exact h.same rfl
        · exact (h.same (by rfl)).sendCode

theorem Inv.transfer {t : Word} {sp : Option (Byte × Word)} {x : Xfer} (h : Inv s) : NextInv (transfer s t sp x) := by
  unfold Machine.transfer
  split
  · exact h.takeTrap
  · split
    · exact h.takeTrap
    · split
      · split
        · exact h.same rfl
        · exact h.askLine.setCore rfl
      · split
        · exact h.same rfl
        · exact h.takeTrap

theorem Inv.execBc {w : Width} {c : ICond} {a : QN} {t : BitVec 48} (h : Inv s) : NextInv (execBc w c a t s) := by
  unfold Machine.execBc
  refine h.gate ?_
  split
  · exact h.transfer
  · exact h

theorem Inv.execRet (h : Inv s) : NextInv (execRet s) := by
  unfold Machine.execRet; dsimp only
  refine h.gate ?_
  split
  · exact h.takeTrap
  · exact h.transfer

/-! ## The sluice -/

theorem Inv.serviceTicket {sp : BitVec 16} {off : Nat} (h : Inv s) : Inv (s.serviceTicket sp off).1 := by
  unfold State.serviceTicket; dsimp only
  split
  · exact h
  · exact h.same rfl

theorem Inv.serviceRead {sp : BitVec 16} {off : Nat} (h : Inv s) : Inv (s.serviceRead sp off).1 := by
  unfold State.serviceRead
  split
  · exact (h.frame (State.serviceBytes_frame ..)).fst ‹_›
  · exact (h.frame (State.serviceBytes_frame ..)).fst ‹_›
  · exact (h.frame (State.serviceBytes_frame ..)).fst ‹_›
  · split
    exact ((h.frame (State.serviceBytes_frame ..)).fst ‹_›).serviceTicket.fst ‹_›

theorem Inv.serviceLine {sp : BitVec 16} {off : Nat} {need : Need} (h : Inv s) : Inv (s.serviceLine sp off need).1 := by
  unfold State.serviceLine
  split
  · exact (h.frame (State.serviceBytes_frame ..)).fst ‹_›
  · exact (h.frame (State.serviceBytes_frame ..)).fst ‹_›
  · exact (h.frame (State.serviceBytes_frame ..)).fst ‹_›
  · split
    exact ((h.frame (State.serviceBytes_frame ..)).fst ‹_›).serviceTicket.fst ‹_›

theorem Inv.serviceAnswers {es : List SluiceEntry} (h : Inv s) : Inv (s.serviceAnswers es) := by
  induction es generalizing s with
  | nil => exact h
  | cons e es ih =>
    unfold State.serviceAnswers
    have hw := h.frame (s.serviceWord_frame e)
    split
    · split
      · exact ih (((hw.fst ‹_›).same (by rfl)).frame (State.tell_frame ..))
      · exact ih (hw.fst ‹_›)
    · exact ih (hw.fst ‹_›)

theorem Inv.serviceNotify (h : Inv s) : Inv s.serviceNotify :=
  Inv.foldl (fun _ _ k => k.frame (State.serviceRegister_frame ..)) _ (h.same (by rfl)).serviceAnswers.setDev

/-! ## The life of a firing -/

theorem Inv.watchWord {sp : BitVec 16} {addr thr : Word} {who : Requester} (h : Inv s) :
    Inv (s.watchWord sp addr thr who) := by
  unfold State.watchWord
  split
  · exact h.frame (State.tell_frame ..)
  · exact h.frame (State.register_frame ..)

theorem Inv.spoil (h : Inv s) : Inv s.spoil := h.mapFiring fun _ w => w

theorem Inv.closeSlots {c : Core} (h : Inv s) : Inv (s.closeSlots c) :=
  Inv.foldl (fun _ _ k => (k.ite (k.frame (State.unregister_frame ..))).frame (State.untrack_frame ..)) _ h

theorem Inv.cancelSlots {c : Core} (h : Inv s) : Inv (s.cancelSlots c) :=
  (Inv.foldl (fun _ _ k => k.same (by rfl)) _ (Inv.foldl (fun _ _ k => k.same (by rfl)) _ h)).closeSlots

theorem Inv.leave (h : Inv s) : Inv s.leave := by
  unfold State.leave; dsimp only
  refine Inv.mapFiring ?_ fun _ _ => rfl
  split
  · exact Inv.foldl (fun _ _ k => k.cancelSlots) _ h
  · exact h.cancelSlots

theorem Inv.pump (h : Inv s) : Inv s.pump := by
  unfold State.pump; dsimp only
  split
  · exact h
  · split
    · exact h
    · exact (h.same (by rfl)).watchWord

theorem Inv.addWatch {order : Nat} {use : SchedUse} {addr thr : Word} (h : Inv s) :
    Inv (s.addWatch order use addr thr) := (h.same (by rfl)).pump

theorem Inv.dropWatch {id : Nat} (h : Inv s) : Inv (s.dropWatch id) := (h.same (by rfl)).pump

theorem Inv.homeBytes {sp : BitVec 16} {off n : Nat} (h : Inv s) : Inv (s.homeBytes sp off n).1 := by
  unfold State.homeBytes
  split
  · exact (h.frame (State.serveCheck_frame ..)).fst ‹_›
  · have hc := (h.frame (State.serveCheck_frame ..)).fst ‹_›
    split
    · exact (hc.frame (State.firstPoison_frame ..)).fst ‹_›
    · exact ((hc.frame (State.firstPoison_frame ..)).fst ‹_›).frame (State.readAt_frame ..)

theorem Inv.readHome {hom : BitVec 17} {sp : BitVec 16} {off n : Nat} (h : Inv s) : Inv (s.readHome hom sp off n).1 := by
  unfold State.readHome
  split
  · split
    · exact (h.frame (State.serviceBytes_frame ..)).fst ‹_›
    · exact (h.frame (State.serviceBytes_frame ..)).fst ‹_›
  · exact h.homeBytes

theorem Inv.listWords {r : ContRec} (h : Inv s) : Inv (s.listWords r).1 := by
  unfold State.listWords; dsimp only
  split
  · split
    · exact h.readHome.fst ‹_›
    · split
      · exact (h.readHome.fst ‹_›).readHome.fst ‹_›
      · exact (h.readHome.fst ‹_›).readHome.fst ‹_›
  · split
    · exact h.readHome.fst ‹_›
    · exact h.readHome.fst ‹_›

theorem Inv.readList {w : WaitRec} (h : Inv s) : Inv (s.readList w) := by
  unfold State.readList; dsimp only
  split
  · exact h.same rfl
  · split
    · exact h.frame (State.request_frame ..)
    · split
      · exact (h.listWords.fst ‹_›).queue
      · exact (h.listWords.fst ‹_›).queue
      · exact (h.listWords.fst ‹_›).queue
      · exact (h.listWords.fst ‹_›).send

theorem Inv.enlist {r : ContRec} (h : Inv s) : Inv (s.enlist r) := by
  unfold State.enlist; dsimp only
  split
  · exact h.same rfl
  · split
    · exact h.same rfl
    · exact (h.same (by rfl)).readList

theorem Inv.createRecord {r : ContRec} {byFiring : Bool} (h : Inv s) : Inv (s.createRecord r byFiring) := by
  unfold State.createRecord; dsimp only
  split
  · exact h.enlist
  · split
    · exact h.same rfl
    · exact h.same rfl

theorem Inv.refillGo {rs : List ContRec} (h : Inv s) : Inv (s.refillGo rs) := by
  induction rs generalizing s with
  | nil => exact h
  | cons r rs ih =>
    unfold State.refillGo
    split
    · exact ih (h.same (by rfl)).enlist
    · exact h

theorem Inv.restartRec {r : ContRec} (h : Inv s) : Inv (s.restartRec r) := by
  unfold State.restartRec; dsimp only
  split
  · exact h
  · split
    · exact h.same rfl
    · exact h

theorem Inv.abort {after : ContRec → State → State} (h : Inv s) (ha : ∀ r t, Inv t → Inv (after r t)) :
    Inv (s.abort after) := by
  unfold State.abort; dsimp only
  split
  · exact h.mapFiring fun _ w => w
  · split
    · exact h.askKill.mapFiring (by exact fun _ w => w)
    · exact ha _ _ h.leave.restartRec.rewind.count

theorem Inv.abortForPage {word thr : Word} (h : Inv s) : Inv (s.abortForPage word thr) :=
  h.abort fun _ _ k => k.addWatch

theorem Inv.abortUnmapped {addr : Word} (h : Inv s) : Inv (s.abortUnmapped addr) := (h.abort (fun _ _ k => k)).queue

/-! ## Local memory -/

theorem Inv.poisonIn {sp : BitVec 16} {es : List (Nat × Nat)} (h : Inv s) : Inv (s.poisonIn sp es).1 := by
  induction es generalizing s with
  | nil => exact h
  | cons e es ih =>
    unfold State.poisonIn
    have hp := h.frame (s.firstPoison_frame sp e.1 (granules e.1 e.2))
    split
    · exact hp.fst ‹_›
    · exact ih (hp.fst ‹_›)

theorem Inv.addAccess {kind : AccKind} {push : Bool} {ds : List Dest} {due : Nat} (h : Inv s) :
    Inv (s.addAccess kind push ds due) := h.owe.setCore rfl

theorem Inv.issueAccess {i : Instr} {align : Nat} {writes : Bool} {kind : AccKind} {push : Bool}
    {ds : List Dest} {due : Nat} (h : Inv s) :
    NextInv (issueAccess i s align writes kind push ds due) := by
  unfold Machine.issueAccess
  refine h.gate ?_
  split
  · exact h.takeTrap
  · split
    · exact h.same rfl
    · exact h.addAccess

theorem Inv.execPref {f : PrefFn} {a : Src} {disp : BitVec 48} (h : Inv s) : NextInv (execPref f a disp s) := by
  unfold Machine.execPref; dsimp only
  refine h.gate ?_
  split
  · exact h
  · split
    · exact h.same rfl
    · exact h.addAccess

theorem Inv.heldTrap {a : Access} {cause : Byte} {tval : Word} (h : Inv s) : Inv (s.heldTrap a cause tval) :=
  (h.countPoison.setCore (by simp)).takeTrap

theorem Inv.openFail {a : Access} {cause : Byte} {tval : Word} (h : Inv s) : Inv (s.openFail a cause tval) := by
  unfold State.openFail; dsimp only
  split
  · exact h.same rfl
  · exact h.setCore (by simp)

theorem Inv.failAccess {a : Access} {f : AccFail} {at' : Word} (h : Inv s) : Inv (s.failAccess a f at') := by
  unfold State.failAccess; dsimp only
  split
  · exact h.same rfl
  · split
    · split
      · exact (h.same (by rfl)).heldTrap
      · exact (h.same (by rfl)).openFail
    · split
      · exact (h.same (by rfl)).heldTrap
      · split
        · exact h.same rfl
        · split
          · exact (h.same (by rfl)).abortUnmapped
          · exact (h.same (by rfl)).openFail
    · split
      · exact (h.same (by rfl)).heldTrap
      · split
        · exact h.same rfl
        · split
          · exact (h.same (by rfl)).abortForPage
          · exact (h.same (by rfl)).openFail

theorem Inv.gather {sp : BitVec 16} {n : Nat} {es : List (Option (BitVec 40))} (h : Inv s) : Inv (s.gather sp n es).1 := by
  induction es generalizing s with
  | nil => exact h
  | cons e es ih =>
    cases e with
    | none => exact ih h
    | some o => exact ih (h.frame (State.readAt_frame ..))

theorem Inv.scatter {sp : BitVec 16} {es : List (BitVec 40 × List Byte)} (h : Inv s) : Inv (s.scatter sp es) := by
  induction es generalizing s with
  | nil => exact h
  | cons e es ih => exact ih (h.frame (State.store_frame ..))

theorem Inv.cleanAt {sp : BitVec 16} {off : Nat} (h : Inv s) : Inv (s.cleanAt sp off) := by
  unfold State.cleanAt; dsimp only
  split
  · exact h.same rfl
  · split
    · exact h.same rfl
    · split
      · split
        · exact ((h.frame (State.getLine_frame ..)).fst ‹_›).frame (State.portWrite_frame ..)
        · exact h
      · exact (h.frame (State.getLine_frame ..)).fst ‹_›

theorem Inv.clearPoison {sp : BitVec 16} {gs : List Nat} (h : Inv s) : Inv (s.clearPoison sp gs) :=
  Inv.foldl (fun _ _ k => k.cleanAt) _ h

theorem Inv.injectMac {sp : BitVec 16} {off : Nat} (h : Inv s) : Inv (s.injectMac sp off) := by
  unfold State.injectMac; dsimp only
  have hl := h.frame (s.getLine_frame sp (s.lineVa off) true)
  split
  · exact hl.fst ‹_›
  · have hd := fun l => (hl.fst ‹_›).frame (State.ncDrop_frame _ l)
    refine Inv.setMem ?_ (Mem.write_wf _ _)
    split
    · exact (((hd _).setCl (by rfl)).frame (State.raiseEvFloor_frame ..)).frame (State.raiseEvFloor_frame ..)
    · exact hd _

theorem Inv.performAccess {sp : BitVec 16} {a : Access} (h : Inv s) : Inv (s.performAccess sp a) := by
  unfold State.performAccess; dsimp only
  have hb : Inv (s.useBanks a.kind.ranges) := h.useBanks
  have hs := hb.spoil.ite (p := (a.kind.spoils && !a.orphan) = true) hb
  generalize (if (a.kind.spoils && !a.orphan) = true then _ else _ : State) = t at hs
  split
  · exact (hs.frame (State.readAt_frame ..)).arriving
  · exact hs.frame (State.store_frame ..)
  · exact (hs.frame (State.readAt_frame ..)).arriving
  · exact hs.frame (State.store_frame ..)
  · exact hs.gather.arriving
  · exact hs.scatter.clearPoison
  · exact ((hs.frame (State.readAt_frame ..)).frame (State.store_frame ..)).arriving
  · refine Inv.arriving ?_
    split
    · exact (hs.frame (State.readAt_frame ..)).frame (State.store_frame ..)
    · exact hs.frame (State.readAt_frame ..)
  · exact (hs.frame (State.advance_frame ..)).arriving
  · exact hs
  · exact (hs.frame (State.readAt_frame ..)).arriving
  · exact (hs.frame (State.readAt_frame ..)).arriving
  · exact hs.injectMac
  · exact hs.frame (State.getLine_frame ..)
  · split
    · exact hs.frame (State.ncLast_frame ..)
    · exact hs
  · split
    · exact hs.frame (State.writeBack_frame ..)
    · exact hs

theorem Inv.lateCheck {sp : BitVec 16} {a : Access} (h : Inv s) : Inv (s.lateCheck sp a).1 := by
  unfold State.lateCheck
  have hp : Inv (s.poisonIn sp a.kind.ranges).1 := h.poisonIn
  split
  · exact h
  · split
    · exact h
    · split
      · split <;> exact h
      · split
        · exact h.poisonIn.fst ‹_›
        · exact (h.poisonIn.fst ‹_›).frame (State.readAt_frame ..)
      all_goals
        split
        · exact h
        · split <;> exact h.poisonIn.fst ‹_›

theorem Inv.execLocalAccessPerformed {k : Nat} (h : Inv s) : NextInv (execLocalAccessPerformed k s) := by
  unfold Machine.execLocalAccessPerformed; dsimp only
  split
  · exact h
  · split
    · exact h.focus ‹_›
    · split
      · exact h.focus ‹_›
      · split
        · exact ((h.focus ‹_›).lateCheck.fst ‹_›).failAccess
        · split
          · exact ((h.focus ‹_›).lateCheck.fst ‹_›).setCore rfl
          · exact ((((h.focus ‹_›).lateCheck.fst ‹_›).setCore (by rfl)).setCore (by rfl)).performAccess

theorem Inv.execTranslation {k : Nat} (h : Inv s) : NextInv (execTranslation k s) := by
  unfold Machine.execTranslation; dsimp only
  split
  · exact h
  · have hs := h.focus ‹_›
    split
    · exact hs
    · split
      · split
        · exact hs
        · exact hs.failAccess
      · split
        · exact hs
        · split
          · exact hs
          · split
            · exact hs.frame (State.llcPut_frame ..)
            · split
              · exact (hs.frame (State.fetchLine_frame ..)).fst ‹_›
              · have hl := (hs.frame (State.fetchLine_frame ..)).fst ‹_›
                split
                · exact hl.failAccess
                · exact (hl.frame (State.withTicket_frame ..)).failAccess

theorem Inv.execSealedWriteBack {sp : BitVec 16} {line : Word} (h : Inv s) : NextInv (execSealedWriteBack sp line s) := by
  unfold Machine.execSealedWriteBack
  split
  · exact (h.frame (State.ncDrop_frame ..)).ite h
  · exact h

/-! ## Far reads -/

theorem Inv.takeCopy {f : FarRead} {c : Sector} (h : Inv s) : Inv (s.takeCopy f c) := by
  unfold State.takeCopy; dsimp only
  split
  · exact h.dropFar.setCore (Core.markFault_spill ..)
  · exact h.dropFar.arriving

theorem Inv.askHome {f : FarRead} (h : Inv s) : Inv (s.askHome f) := by
  unfold State.askHome
  split
  · exact h
  · split
    · exact h.same rfl
    · exact h.frame (State.request_frame ..)

theorem Inv.askHost {f : FarRead} (h : Inv s) : Inv (s.askHost f) := by
  unfold State.askHost
  split
  · exact h
  · exact h.askPcie

theorem Inv.askValid {e : PrtEntry} (h : Inv s) : Inv (s.askValid e) := by
  unfold State.askValid; dsimp only
  split
  · exact h.same rfl
  · exact h.frame (State.request_frame ..)

theorem Inv.provisional {f : FarRead} {c : Sector} (h : Inv s) :
    Inv (s.provisional f c) := (h.same (by rfl)).askValid.takeCopy

theorem Inv.staleCopy {f : FarRead} {c : Sector} (h : Inv s) : Inv (s.staleCopy f c) := by
  unfold State.staleCopy; dsimp only
  split
  · exact h.takeCopy
  · split
    · exact h.takeCopy
    · split
      · exact (h.same (by rfl)).askHome
      · exact h.provisional

theorem Inv.startFar {f : FarRead} (h : Inv s) : Inv (s.startFar f) := by
  unfold State.startFar; dsimp only
  split
  · exact h
  · split
    · split
      · exact h.same rfl
      · exact h.askHost
    · split
      · exact h.askHome
      · split
        · exact h.askHome
        · split
          · exact (h.same (by rfl)).takeCopy
          · split
            · exact (h.same (by rfl)).staleCopy
            · exact (h.same (by rfl)).askHome

theorem Inv.farLoad {i : Instr} {kind : FarKind} {w : Width} {sext : Bool} {d : NDst} {x : Word} (h : Inv s) :
    NextInv (farLoad i s kind w sext d x) := by
  unfold Machine.farLoad; dsimp only
  refine h.gate ?_
  split
  · exact h.takeTrap
  · split
    · exact h.takeTrap
    · split
      · exact h.same rfl
      · exact (h.owe.setCore (by rfl)).ite (h.owe.setCore (by rfl)).startFar

theorem Inv.execPchk {d : NDst} {t : BitVec 48} (h : Inv s) : NextInv (execPchk d t s) := by
  unfold Machine.execPchk; dsimp only
  refine h.gate ?_
  split
  · exact h.same rfl
  · split
    · exact h.result
    · split
      · exact h.askLine.setCore rfl
      · exact (h.same (by rfl)).result.transfer

theorem Inv.execPdrop {a : Option Src} (h : Inv s) : NextInv (execPdrop a s) := by
  unfold Machine.execPdrop; dsimp only
  refine h.gate ?_
  split
  · exact h.same rfl
  · exact h.same rfl

theorem Inv.wakeOne {x : Word} (h : Inv s) : Inv (s.wakeOne x) := by
  unfold State.wakeOne; dsimp only
  split
  · exact h
  · exact (h.same (by rfl)).startFar

theorem Inv.wakeFar {x : Word} (h : Inv s) : Inv (s.wakeFar x) := Inv.foldl (fun _ _ k => k.wakeOne) _ h

theorem Inv.captureRead {hom : BitVec 17} {key : Word} {data : List Word} (h : Inv s) :
    Inv (s.captureRead hom key data) := by
  unfold State.captureRead
  split
  · exact h
  · exact h.input

theorem Inv.farData {f : FarRead} {g : BitVec 48} {grain : Grain} {ds : List (BitVec 256 × Bool)} (h : Inv s) :
    Inv (s.farData f g grain ds) := by
  unfold State.farData; dsimp only
  have hb := h.ite (p := (homeOf f.addr = s.home || decide (72 ≤ ((homeOf f.addr).extractLsb' 0 7).toNat)) = true)
    (h.frame (s.basinFill_frame s.core.task.space f.addr g grain ds))
  have ha := (hb.frame (State.acquire_frame _ (homeOf f.addr) g)).ite (p := f.kind = .ldfa) hb
  split
  · exact ha.captureRead.setCore (by simp)
  · exact ha.captureRead.setCore (by simp)

theorem Inv.captureFault {f : FarRead} {r : Reply} (h : Inv s) : Inv (s.captureFault f r) := h.captureRead

theorem Inv.farFault {f : FarRead} {cause : Byte} (h : Inv s) : Inv (s.farFault f cause) := h.setCore (by simp)

theorem Inv.farAbort {f : FarRead} {r : Reply} {go : State → State} (h : Inv s) (hg : Inv (go s)) :
    Inv (s.farAbort f r go) := by
  unfold State.farAbort
  split
  · exact h.dropFar.captureFault.farFault.wakeFar
  · split
    · exact h.same rfl
    · exact hg

theorem Inv.lateReply {req : Nat} (h : Inv s) : Inv (s.lateReply req) := by
  unfold State.lateReply; dsimp only
  split
  · exact (h.untrack.endPcie.setCl (by rfl)).count
  · exact h.untrack.endPcie

theorem Inv.parkFar {f : FarRead} {r : Reply} (h : Inv s) :
    Inv (s.parkFar f r) := ((h.same (by rfl)).ite h).setCore (by rfl)

theorem Inv.readReply {req : Nat} {r : Reply} (h : Inv s) : NextInv (readReply req r s) := by
  unfold Machine.readReply; dsimp only
  split
  · exact h.lateReply
  · split
    · exact h.focus ‹_›
    · split
      · exact (h.focus ‹_›).parkFar
      · have k := ((h.focus ‹_›).untrack (id := req)).endPcie (id := req)
        split
        · exact k.dropFar.farData.wakeFar
        · exact k.dropFar.captureFault.farFault.wakeFar
        · split
          · exact k.farAbort k.abortUnmapped
          · exact k.dropFar.captureFault.farFault.wakeFar
        · exact k.farAbort k.abortForPage

theorem Inv.serveRead {sp : BitVec 16} {off n : Nat} (h : Inv s) : Inv (s.serveRead sp off n).1 := by
  have hc := h.frame (s.serveCheck_frame sp off n)
  unfold State.serveRead
  split
  · exact hc.fst ‹_›
  · exact hc.fst ‹_›
  · exact (hc.fst ‹_›).frame (State.ticket_frame ..)
  · refine Inv.frame ?_ (State.readAt_frame ..)
    split
    · exact hc.fst ‹_›
    · exact (hc.fst ‹_›).frame (State.checkLines_frame ..)

theorem Inv.answerFar {c : Core} {f : FarRead} (h : Inv s) : Inv (s.answerFar c f).1 := by
  unfold State.answerFar
  split
  · exact h.serveRead
  · exact h.serviceRead

/-! ## Sequence words, watches and fences -/

theorem Inv.advanceNow {d : NDst} {off : BitVec 40} {inc : Word} (h : Inv s) : NextInv (advanceNow d off inc s) := by
  unfold Machine.advanceNow
  split
  · exact h.same rfl
  · split
    · exact h.takeTrap
    · exact h.addAccess

theorem Inv.execSqadv {now : Bool} {d : NDst} {a : Src} {b : SrcImm} (h : Inv s) : NextInv (execSqadv now d a b s) := by
  unfold Machine.execSqadv; dsimp only
  refine h.gate ?_
  split
  · exact h.takeTrap
  · split
    · exact h.same rfl
    · split
      · exact h.advanceNow
      · split
        · exact h.takeTrap
        · exact (h.same (by rfl)).addAccess

theorem Inv.execSqwait {d : NDst} {a : Src} {b : SrcImm} (h : Inv s) : NextInv (execSqwait d a b s) := by
  unfold Machine.execSqwait; dsimp only
  refine h.gate ?_
  split
  · exact h.takeTrap
  · split
    · exact h.same rfl
    · exact h.addAccess.setCore rfl

theorem Inv.reportSlot {w : WSlot} (h : Inv s) : Inv (s.reportSlot w) := by
  unfold State.reportSlot
  split
  · exact h.frame (State.acquire_frame ..)
  · exact h

theorem Inv.closeSlot {k : Fin 16} (h : Inv s) : Inv (s.closeSlot k) := by
  unfold State.closeSlot; dsimp only
  split
  · exact (h.ite (h.frame (State.unregister_frame ..))).frame (State.untrack_frame ..)
  · exact h

theorem Inv.openSlot {k : Fin 16} {addr thr : Word} {page : Option Nat} (h : Inv s) : Inv (s.openSlot k addr thr page) :=
  h.setCore (Core.setSlot_spill ..)

theorem Inv.execWatch {k : Fin 16} {a : Src} {b : SrcImm} (h : Inv s) : NextInv (execWatch k a b s) := by
  unfold Machine.execWatch; dsimp only
  refine h.gate ?_
  split
  · exact h.takeTrap
  · split
    · exact h.takeTrap
    · split
      · exact h.same rfl
      · split
        · exact h.closeSlot.openSlot.setCore (Core.setSlot_spill ..)
        · exact h.closeSlot.openSlot.watchWord

theorem Inv.freeSlots {m : BitVec 16} (h : Inv s) : Inv (s.freeSlots m) :=
  Inv.foldl (fun _ _ k => k.closeSlot.setCore (by rfl)) _ h

theorem Inv.execWsleep {d : NDst} {m : MaskSrc} (h : Inv s) : NextInv (execWsleep d m s) := by
  unfold Machine.execWsleep; dsimp only
  refine h.gate ?_
  split
  · exact h.reportSlot.result
  · split
    · exact h.owe.setCore rfl
    · exact h.result

theorem Inv.wake {a : Wait} (h : Inv s) : Inv (s.wake a) := by
  unfold State.wake; dsimp only
  split
  · split
    · exact h
    · exact h.reportSlot.setCore (by simp)
  · exact h

theorem Inv.slotEnd {k : Fin 16} {e : WatchEnd} (h : Inv s) : Inv (s.slotEnd k e) := by
  unfold State.slotEnd; dsimp only
  split
  · split
    · exact h.same rfl
    · exact h
  · exact h.same rfl
  · exact h.same rfl
  · exact h.same rfl
  · exact (h.same (by rfl)).input

theorem Inv.observe {ch : Fin 16} {xid : Nat} (h : Inv s) : Inv (s.observe ch xid) := by
  unfold State.observe; dsimp only
  split
  · exact h
  · split
    · exact ((Inv.foldl (fun _ _ k => k.frame (State.acquire_frame ..)) _ h).setCl (by rfl)).setCore (by rfl)
    · exact Inv.foldl (fun _ _ k => k.frame (State.acquire_frame ..)) _ h

theorem Inv.observeOld {id : Nat} {x : Nat × Nat} (h : Inv s) : Inv (s.observeOld id x) := by
  unfold State.observeOld
  split
  · exact h.observe
  · exact h

theorem Inv.observeAll {id : Nat} (h : Inv s) : Inv (s.observeAll id) := by
  unfold State.observeAll; dsimp only
  refine Inv.setCore (Inv.foldl (fun _ _ k => k.observeOld) _ h) ?_
  exact Core.foldl_spill (f := fun (c : Core) (x : Nat × Nat × Nat × BitVec 5) => c.mergeFlags x.2.2.2) (fun _ _ => rfl) ..

theorem Inv.finishFence {sc : Scope} {id lost : Nat} (h : Inv s) : Inv (s.finishFence sc id lost) := by
  unfold State.finishFence; dsimp only
  split
  · exact h.same rfl
  · exact (h.same (by rfl)).observeAll
  · exact (h.same (by rfl)).observeAll.setCore (by simp)

/-! ## The scheduler -/

theorem Inv.ripen {w : WaitRec} (h : Inv s) : Inv (s.ripen w) := by
  unfold State.ripen; dsimp only
  have ha := Inv.foldl (f := fun s x => s.acquire x.1 x.2) (fun _ _ k => k.frame (State.acquire_frame ..)) w.acquires h
  refine Inv.setCl ?_ (by rfl)
  split
  · exact ha.setCl rfl
  · exact ha.setCl rfl

theorem Inv.satisfy {rid : Nat} {hom : BitVec 17} {g : BitVec 48} (h : Inv s) : Inv (s.satisfy rid hom g) := by
  unfold State.satisfy; dsimp only
  split
  · exact h
  · split
    · exact h.ripen
    · exact h.same rfl

theorem Inv.watchAll {w : WaitRec} {use : Word → SchedUse} {arms : List (Word × Word)} (h : Inv s) :
    Inv (s.watchAll w use arms) := by
  unfold State.watchAll
  split
  · exact h.same rfl
  · exact Inv.foldl (fun _ _ k => k.addWatch) _ h

theorem Inv.edges {w : WaitRec} {ws : List Word} (h : Inv s) : Inv (s.edges w ws) := (h.same (by rfl)).watchAll

theorem Inv.actorArms {sp : BitVec 16} {cs : List ActorChan} (h : Inv s) : Inv (s.actorArms sp cs).1 := by
  induction cs generalizing s with
  | nil => exact h
  | cons c cs ih =>
    unfold State.actorArms; dsimp only
    split
    · exact h.homeBytes.fst ‹_›
    · have hr := ih (h.homeBytes.fst ‹_›)
      split
      · exact hr.fst ‹_›
      · have ht := hr.fst ‹_›
        split
        · exact ht
        · split <;> exact ht

theorem Inv.armActor {w : WaitRec} {ws : List Word} (h : Inv s) : Inv (s.armActor w ws) := by
  unfold State.armActor; dsimp only
  split
  · exact h.same rfl
  · split
    · exact h.same rfl
    · split
      · exact ((h.actorArms.fst ‹_›).setCl (by rfl)).send
      · exact (h.actorArms.fst ‹_›).queue
      · exact (h.actorArms.fst ‹_›).queue
      · split
        · exact ((h.actorArms.fst ‹_›).setCl (by rfl)).ripen
        · exact ((h.actorArms.fst ‹_›).setCl (by rfl)).watchAll

theorem Inv.execEdgeListRead {rid : Nat} {r : ListRead} {hdr : Option NysilHdr} (h : Inv s) :
    NextInv (execEdgeListRead rid r s hdr) := by
  unfold Machine.execEdgeListRead; dsimp only
  refine h.receive fun t k => ?_
  split
  · exact k
  · split
    · exact k
    · split
      · exact k.same rfl
      · have ha := fun id hom g => (k.untrack (id := id)).frame (State.acquire_frame _ hom g)
        exact (ha ..).armActor.ite (ha ..).edges

theorem Inv.watchLane {hom : BitVec 17} (h : Inv s) : Inv (s.watchLane hom) := by
  unfold State.watchLane; dsimp only
  split
  · exact h
  · exact h.addWatch

theorem Inv.laneSpawn {hom : BitVec 17} {r : ContRec} (h : Inv s) : Inv (s.laneSpawn hom r) :=
  ((h.same (by rfl)).frame (State.notifyLane_frame ..)).watchLane

theorem Inv.laneConsumed {hom : BitVec 17} {v : Word} (h : Inv s) :
    Inv (s.laneConsumed hom v) := (h.same (by rfl)).watchLane

theorem Inv.laneTake {hom : BitVec 17} {n : Nat} (h : Inv s) : Inv (s.laneTake hom n) :=
  (h.same (by rfl)).frame (State.notifyLane_frame ..)

theorem Inv.readLane {w : SchedWatch} {hom : BitVec 17} (h : Inv s) : Inv (s.readLane w hom) :=
  h.frame (State.request_frame ..)

theorem Inv.watchDone {w : SchedWatch} {v : Word} {g : BitVec 48} {recs : List LaneRec} (h : Inv s) :
    Inv (s.watchDone w v g recs) := by
  unfold State.watchDone; dsimp only
  split
  · exact h.dropWatch.satisfy
  · exact h.dropWatch.satisfy
  · exact h.dropWatch.setCl rfl
  · exact h.dropWatch.laneConsumed
  · split
    · exact h.readLane
    · exact (Inv.foldl (fun _ _ k => k.createRecord) _ h.dropWatch).laneTake.addWatch

theorem Inv.execSchedulerWatchAnswer {id : Nat} {e : WatchEnd} {recs : List LaneRec} {hdr : Option NysilHdr} (h : Inv s) :
    NextInv (execSchedulerWatchAnswer id e recs s hdr) := by
  unfold Machine.execSchedulerWatchAnswer; dsimp only
  refine h.receive fun t k => ?_
  split
  · exact k
  · split
    · exact k.frame (State.endWatch_frame ..)
    · split
      · exact (k.frame (State.endWatch_frame ..)).setCl rfl
      · exact (k.frame (State.endWatch_frame ..)).watchDone
    · exact (k.frame (State.endWatch_frame ..)).setCl rfl
    · exact (k.frame (State.endWatch_frame ..)).queue.dropWatch
    · exact (k.frame (State.endWatch_frame ..)).queue.dropWatch

theorem Inv.readWatched {w : SchedWatch} (h : Inv s) : Inv (s.readWatched w) := by
  unfold State.readWatched; dsimp only
  split
  · exact h.same rfl
  · split
    · exact h.same rfl
    · split
      · exact h.frame (State.request_frame ..)
      · split
        · exact (h.readHome.fst ‹_›).queue
        · exact (h.readHome.fst ‹_›).queue
        · exact (h.readHome.fst ‹_›).queue
        · exact ((h.readHome.fst ‹_›).setCl (by rfl)).send

theorem Inv.execWatchRetry {id : Nat} (h : Inv s) : NextInv (execWatchRetry id s) := by
  unfold Machine.execWatchRetry; dsimp only
  split
  · exact h
  · split
    · exact h
    · split
      · exact (h.same (by rfl)).watchWord
      · exact (h.same (by rfl)).readWatched

theorem Inv.lapse (h : Inv s) : Inv s.lapse := by
  unfold State.lapse; dsimp only
  split
  · exact h.same rfl
  · exact h

theorem Inv.refill (h : Inv s) : Inv s.refill := h.refillGo

theorem Inv.execSchedulerAssignment (h : Inv s) : NextInv (execSchedulerAssignment s) := by
  unfold Machine.execSchedulerAssignment; dsimp only
  split
  · exact h
  · rename_i q _
    split
    · exact h
    · rename_i r joined _
      have hr := (h.popList (q := q)).lapse.refill
      have ht := (hr.setCl (x := { (s.popList q).lapse.refill.cl with reserved := false }) rfl).ite (p := r.wide = true) hr
      split
      · refine (Inv.mapCores ht fun c w => ?_).queue
        split <;> exact w
      · refine (Inv.mapCores ht fun c w => ?_).setCl rfl
        split
        · rfl
        · exact w

theorem Inv.execAging (h : Inv s) : NextInv (execAging s) := by
  unfold Machine.execAging; dsimp only
  split
  · exact h
  · exact (h.same (by rfl)).lapse.count

/-! ## The joint array -/

theorem Inv.takeRow {c : Core} {id r : Nat} (h : Inv s) : Inv (s.takeRow c id r).1 := by
  unfold State.takeRow; dsimp only
  split
  · exact h.same rfl
  · exact h

theorem Inv.pushCmd {op : MOp} {due : Nat} {range : Option (Nat × Nat × Bool)} {ds : List Dest} (h : Inv s) :
    Inv (s.pushCmd op due range ds) := (h.same (by rfl)).owe

theorem Inv.issueCmd {i : Instr} {check : Option (Byte × Word)} {op : MOp} {due : Nat}
    {range : Option (Nat × Nat × Bool)} {ds : List Dest} (h : Inv s) :
    NextInv (issueCmd i s check op due range ds) := by
  unfold Machine.issueCmd
  refine h.gate ?_
  split
  · exact h.takeTrap
  · split
    · exact h.same rfl
    · exact h.pushCmd

theorem Inv.execWld {f : MFmt} {src : WldSrc} {c0 : BitVec 6} {count : BitVec 7} (h : Inv s) :
    NextInv (execWld f src c0 count s) := by
  unfold Machine.execWld; dsimp only
  split
  · exact h.issueCmd
  · exact h.issueCmd

theorem Inv.execMwait {row0 rows : BitVec 12} (h : Inv s) : NextInv (execMwait row0 rows s) := by
  unfold Machine.execMwait; dsimp only
  refine h.gate ?_
  split
  · exact h.takeTrap
  · exact h.same rfl

theorem Inv.execTmapset {d : Fin 8} {a : Src} {disp : BitVec 48} (h : Inv s) : NextInv (execTmapset d a disp s) := by
  unfold Machine.execTmapset; dsimp only
  refine h.gate ?_
  split
  · exact h.takeTrap
  · split
    · exact h.same rfl
    · exact h.addAccess

theorem Inv.mmaJoin (h : Inv s) : Inv s.mmaJoin := by
  unfold State.mmaJoin; dsimp only
  split
  · exact h.mapCores fun _ w => w
  · exact (h.mapCores (by exact fun _ w => w)).count

theorem Inv.issueMma {op : MOp} (h : Inv s) : Inv (s.issueMma op) := (h.same (by rfl)).pushCmd

theorem Inv.execMma {f : MFmt} {src : MmaSrc} {gran : BitVec 2} {row0 rows : BitVec 12} (h : Inv s) :
    NextInv (execMma f src gran row0 rows s) := by
  unfold Machine.execMma; dsimp only
  refine h.gate ?_
  split
  · exact (h.same (by rfl)).takeTrap
  · exact h.issueMma
  · exact h
  · split
    · exact h.takeTrap
    · split
      · exact h.takeTrap
      · split
        · exact h.same rfl
        · split
          · exact (h.same (by rfl)).mmaJoin.setCore (by rfl)
          · exact h.same rfl

theorem Inv.putRow {id r : Nat} {v : VReg} (h : Inv s) : Inv (s.putRow id r v) := by
  unfold State.putRow; dsimp only
  split
  · exact h.same rfl
  · exact h.same rfl

theorem Inv.storeRow {f : AFmt} {id a r : Nat} (h : Inv s) : Inv (s.storeRow f id a r).1 := by
  unfold State.storeRow; dsimp only
  have hs := fun es sp b bs u v => (h.takeRow (c := s.core) (id := id) (r := r)).holdBanks (es := es) |>.frame
    (State.store_frame _ sp b bs u v)
  split
  · exact Inv.foldl (fun _ _ k => k.setCl (by rfl)) _ (hs ..)
  · exact hs ..

theorem Inv.readRows {id : Nat} {rs : List Nat} (h : Inv s) : Inv (s.readRows id rs).1 := by
  induction rs generalizing s with
  | nil => exact h
  | cons r rs ih => exact ih h.takeRow

theorem Inv.enterRow (h : Inv s) : Inv s.enterRow := by
  unfold State.enterRow; dsimp only
  split
  · exact h
  · exact ((h.same (by rfl)).mapCores fun _ w => by simpa using w).count

theorem Inv.performCmd {m : MCmd} (h : Inv s) : Inv (s.performCmd m) := by
  unfold State.performCmd; dsimp only
  split
  · exact h.same rfl
  · exact h.same rfl
  · exact h.setCore (by simp)
  · exact h.same rfl
  · exact h
  · exact h
  · exact h

theorem Inv.entersAfter {op : MOp} (h : Inv s) : Inv (s.entersAfter op) := by
  unfold State.entersAfter; dsimp only
  exact (h.setCore (Core.endsAfter_spill ..)).mapCores fun _ w => w

theorem Inv.execMatrixCommandCompletion (h : Inv s) : NextInv (execMatrixCommandCompletion s) := by
  unfold Machine.execMatrixCommandCompletion
  split
  · split
    · exact ((h.focus ‹_›).performCmd.setCore (by rfl)).entersAfter
    · exact h
  · exact (h.mapCores fun _ w => by simpa using w).ite h

/-! ## The pull engine -/

theorem Inv.setChanWord {ch : Fin 16} {k : Nat} {v : Word} (h : Inv s) : Inv (s.setChanWord ch k v) :=
  h.frame (State.store_frame ..)

theorem Inv.completeXfer {ch : Fin 16} {t : Transfer} (h : Inv s) : Inv (s.completeXfer ch t) := by
  unfold State.completeXfer; dsimp only
  refine (Inv.setCl ?_ (by rfl)).mapCores (by exact fun _ w => w)
  split
  · exact h
  · exact h.setChanWord.setChanWord.count

theorem Inv.advanceChan {ch : Fin 16} (h : Inv s) : Inv (s.advanceChan ch) := by
  unfold State.advanceChan; dsimp only
  split
  · exact h
  · exact (Inv.foldl (fun _ _ k => k.completeXfer) _ h).frame (State.advance_frame ..)

theorem Inv.settle {ch : Fin 16} {xid j k : Nat} (h : Inv s) : Inv (s.settle ch xid j k) := by
  unfold State.settle; dsimp only
  split
  · exact h
  · split
    · exact h
    · split
      · exact h
      · exact h.same rfl
      · exact h.same rfl
      · have hc := fun sp gs es => (h.frame (s.checkLines_frame sp .store gs)).holdBanks (es := es)
        split
        · exact ((((hc ..).frame (State.poisonAt_frame ..)).frame (State.stampAt_frame ..)).setCl (by rfl)).count
        · exact ((hc ..).frame (State.store_frame ..)).setCl (by rfl)

theorem Inv.askPull {ch : Fin 16} {xid j m : Nat} {x : Word} (h : Inv s) : Inv (s.askPull ch xid j m x) := by
  unfold State.askPull; dsimp only
  split
  · exact h.same rfl
  · split
    · exact h.same rfl
    · split
      · exact h
      · split
        · exact h.askPcie
        · split
          · split
            · exact h.same rfl
            · exact h
          · exact h.frame (State.request_frame ..)

theorem Inv.post {ch : Fin 16} {xid j m : Nat} (h : Inv s) : Inv (s.post ch xid j m) := by
  unfold State.post; dsimp only
  split
  · exact h
  · split
    · exact h
    · exact (h.same (by rfl)).askPull

theorem Inv.postNext {ch : Fin 16} {xid j m : Nat} (h : Inv s) : Inv (s.postNext ch xid j m) := (h.same (by rfl)).post

theorem Inv.capturePull {ch : Fin 16} {t : Transfer} {x : Word} {j m : Nat} {r : LineReply} (h : Inv s) :
    Inv (s.capturePull ch t x j m r) := by
  unfold State.capturePull; dsimp only
  split
  · exact h.captureRead.input
  · exact h.captureRead
  · exact h.captureRead

theorem Inv.pullLost {t : Transfer} (h : Inv s) : Inv (s.pullLost t) := by
  unfold State.pullLost
  split
  · exact h
  · refine h.mapCores fun c w => ?_
    split <;> exact w

theorem Inv.lineArrives {ch : Fin 16} {t : Transfer} {l : PullLine} {line member : Nat} {r : LineReply} (h : Inv s) :
    Inv (s.lineArrives ch t l line member r) := by
  unfold State.lineArrives; dsimp only
  split
  · exact h
  · exact (h.capturePull.setCl (by rfl)).pullLost
  · exact h.capturePull.setCl rfl
  · split
    · exact h.capturePull.setCl rfl
    · exact h.capturePull.setCl rfl

theorem Inv.execPullLineResponse {ch : Fin 16} {id line member : Nat} {r : LineReply} {hdr : Option NysilHdr} (h : Inv s) :
    NextInv (execPullLineResponse ch id line member r s hdr) := by
  unfold Machine.execPullLineResponse
  refine h.receive fun t k => ?_
  split
  · exact (k.same (by rfl)).ite k
  · split
    · exact k
    · split
      · exact k.same rfl
      · split
        · exact k
        · exact (k.same (by rfl)).lineArrives

theorem Inv.execLineRerequest {ch : Fin 16} {id line member : Nat} (h : Inv s) :
    NextInv (execLineRerequest ch id line member s) := by
  unfold Machine.execLineRerequest
  split
  · exact h.post.count.ite h
  · exact h

theorem Inv.startXfer {ch : Fin 16} {cls : BitVec 2} {d : NDst} {kind : XferKind} {lines : List PullLine}
    {fault : Option (Byte × Nat)} {homes : List (BitVec 17)} {ranges : List (Nat × Nat × Bool)} (h : Inv s) :
    Inv (s.startXfer ch cls d kind lines fault homes ranges) := (((h.same (by rfl)).setCore (by simp)).setCl (by rfl)).count

theorem Inv.execPull {cls : BitVec 2} {ch : Fin 16} {d : NDst} {a b : Src} {rows : Option (Fin 8)}
    {len pitch : BitVec 24} (h : Inv s) :
    NextInv (execPull cls ch d a b rows len pitch s) := by
  unfold Machine.execPull; dsimp only
  refine h.gate ?_
  split
  · exact h.takeTrap
  · split
    · split
      · exact h.same rfl
      · exact h.startXfer
    · split
      · exact h.same rfl
      · exact h.startXfer

theorem Inv.failRead {off : Nat} {f : AccFail} (h : Inv s) : NextInv (s.failRead off f) := by
  unfold State.failRead
  split
  · exact h.takeTrap
  · split
    · exact h.takeTrap
    · split
      · exact h.same rfl
      · exact h.abortUnmapped
  · split
    · exact h.takeTrap
    · split
      · exact h.same rfl
      · refine Inv.abortForPage ?_
        split
        · exact h
        · exact h.same rfl

theorem Inv.execPullg {cls : BitVec 2} {ch : Fin 16} {d : NDst} {a b : Src} {count : CountSrc} {len : BitVec 24}
    (h : Inv s) :
    NextInv (execPullg cls ch d a b count len s) := by
  unfold Machine.execPullg; dsimp only
  refine h.gate ?_
  have hc := fun gs => h.frame (s.checkLines_frame s.core.task.space .load gs)
  split
  · exact h.takeTrap
  · split <;> split
    all_goals
      split
      · exact h.same rfl
      · split
        · exact ((hc _).fst ‹_›).failRead
        · exact (((hc _).fst ‹_›).frame (State.readGo_frame ..)).startXfer

theorem Inv.execAgset {g : Fin 4} {a : Src} {count : AgCount} (h : Inv s) : NextInv (execAgset g a count s) := by
  unfold Machine.execAgset; dsimp only
  refine h.gate ?_
  split
  all_goals
    split
    · exact h.takeTrap
    · split
      · exact h.takeTrap
      · split
        · exact h.same rfl
        · split
          · exact ((h.frame (State.checkLines_frame ..)).fst ‹_›).failRead
          · have hc := (h.frame (State.checkLines_frame ..)).fst ‹_›
            split
            · exact ((hc.frame (State.firstPoison_frame ..)).fst ‹_›).takeTrap
            · have hp := (hc.frame (State.firstPoison_frame ..)).fst ‹_›
              split
              · exact (hp.frame (State.readGo_frame ..)).takeTrap
              · exact (hp.frame (State.readGo_frame ..)).setCore rfl

theorem Inv.execPullr {f : RFmt} {obf16 : Bool} {cls : BitVec 2} {ch : Fin 16} {d : NDst} {a b : Src}
    {n : BitVec 24} {g : Fin 4} (h : Inv s) :
    NextInv (execPullr f obf16 cls ch d a b n g s) := by
  unfold Machine.execPullr; dsimp only
  refine h.gate ?_
  split
  · exact h.takeTrap
  · split
    · split
      · exact h.same rfl
      · exact h.startXfer
    · split
      · exact h.same rfl
      · exact h.startXfer

theorem Inv.finishWaitp {w : Wait} (h : Inv s) : Inv (s.finishWaitp w) := by
  unfold State.finishWaitp; dsimp only
  split
  · exact h.observe.setCore (by simp)
  · exact h

theorem Inv.execWaitp {sq : Bool} {ch : Fin 16} {d : NDst} {a b : Src} (h : Inv s) :
    NextInv (execWaitp sq ch d a b s) := by
  unfold Machine.execWaitp; dsimp only
  refine h.gate ?_
  split
  · exact h.takeTrap
  · split
    · exact h.observe.result
    · exact h.owe.setCore rfl

theorem Inv.execWaitpPromiseExpiry (h : Inv s) : NextInv (execWaitpPromiseExpiry s) := by
  unfold Machine.execWaitpPromiseExpiry; dsimp only
  split
  · exact h
  · split
    · split
      · exact ((h.focus ‹_›).setChanWord.count.input.setCore (by rfl)).takeTrap
      · exact (h.focus ‹_›).setChanWord.count.input.setCore rfl
    · exact h.focus ‹_›

theorem Inv.execEquery {q : EqSel} {ch : Fin 16} {d : NDst} (h : Inv s) : NextInv (execEquery q ch d s) := by
  unfold Machine.execEquery; dsimp only
  refine h.gate ?_
  split
  · exact h.same rfl
  · exact (h.setChanWord.ite h).resultAt

/-! ## Scalar floating point -/

theorem Inv.fpLater {i : Instr} {d : NDst} {r : Nat × BitVec 5} {lat : Nat} (h : Inv s) : NextInv (fpLater i s d r lat) :=
  h.gate h.resultAt

theorem Inv.fpDivide {i : Instr} {d : NDst} {r : Nat × BitVec 5} {lat : Nat} (h : Inv s) :
    NextInv (fpDivide i s d r lat) := by
  unfold Machine.fpDivide
  refine h.gate ?_
  split
  · exact h.same rfl
  · exact h.resultAt

/-! ## The vector unit -/

theorem Inv.vecIssue {i : Instr} {xs : List Word} {push : Bool} (h : Inv s) : NextInv (vecIssue i s xs push) := by
  refine h.gate ?_
  split
  · exact (h.ite h.count).setCore rfl
  · exact (h.setCore (by rfl)).owe

theorem Inv.grantHead (h : Inv s) : Inv s.grantHead := by
  unfold State.grantHead; dsimp only
  split
  · exact h
  · split
    · exact h.setCore rfl
    · refine Inv.headWait (Inv.count (Inv.count (Inv.takeFree ?_)))
      exact h.same rfl

theorem Inv.execVectorGrant (h : Inv s) : NextInv (execVectorGrant s) := by
  unfold Machine.execVectorGrant
  split
  · exact h
  · exact h.onCore fun _ k => k.grantHead

/-! ## How a firing ends, is saved and resumes -/

theorem Inv.execEndFiring (h : Inv s) : NextInv (execEndFiring s) := by
  unfold Machine.execEndFiring
  refine h.gate ?_
  split
  · exact h.takeTrap
  · exact h.same rfl

theorem Inv.execSpawn {code frame : QN} {home : Option QN} {actor wide : Bool} {prio : BitVec 2} {join : BitVec 7}
    (h : Inv s) :
    NextInv (execSpawn code frame home actor wide prio join s) := by
  unfold Machine.execSpawn; dsimp only
  refine h.gate ?_
  split
  · exact h.takeTrap
  · split
    · exact h.takeTrap
    · exact h.same rfl

theorem Inv.execYield (h : Inv s) : NextInv (execYield s) := by
  unfold Machine.execYield
  refine h.gate ?_
  split
  · exact h.takeTrap
  · exact h.same rfl

theorem Inv.writeTrap {f : FaultInfo} {ret : Word} {off : Nat} (h : Inv s) : Inv (s.writeTrap f ret off) :=
  (h.countPoison.setCore (by simp)).takeTrap

theorem Inv.strike {x : Word} (h : Inv s) : Inv (s.strike x) := by
  unfold State.strike; dsimp only
  split
  · exact h.abort fun _ _ k => k.same rfl
  · exact (h.same (by rfl)).takeTrap

theorem Inv.commitKill {cause : Byte} {tval : Word} (h : Inv s) : Inv (s.commitKill cause tval) :=
  ((h.same (by rfl)).mapFiring (by exact fun _ w => w))

theorem Inv.startCommit (h : Inv s) : Inv s.startCommit := h.mapFiring fun _ w => w

theorem Inv.actorDone {sid : Nat} (h : Inv s) : Inv (s.actorDone sid) := by
  unfold State.actorDone; dsimp only
  split
  · exact h
  · split
    · exact h.same rfl
    · exact (h.same (by rfl)).armActor

theorem Inv.endFiring (h : Inv s) : Inv s.endFiring := by
  unfold State.endFiring; dsimp only
  split
  · exact h.leave.refillGo.actorDone
  · exact h.leave.refillGo

theorem Inv.yieldNow (h : Inv s) : Inv s.yieldNow := by
  unfold State.yieldNow; dsimp only
  split
  · exact (h.mapFiring (by exact fun _ w => w)).setCore (by rfl)
  · exact h.same rfl

theorem Inv.breakNow {tag : BitVec 16} (h : Inv s) : Inv (s.breakNow tag) := by
  unfold State.breakNow; dsimp only
  exact (h.mapFiring (by exact fun _ w => w)).setCore (by rfl)

theorem Inv.execPreemptionRequest {stokers : Bool} {core : BitVec 2} (h : Inv s) :
    NextInv (execPreemptionRequest stokers s core) := by
  unfold Machine.execPreemptionRequest
  split
  · exact h.onCore fun _ k => k.mapFiring fun _ w => w
  · split
    · exact h
    · exact h.onCore fun _ k => (k.mapFiring (by exact fun _ w => w)).ite k

theorem State.members_sub (s : State) : ∀ c ∈ s.members, c ∈ s.cores := by
  intro c hc
  unfold State.members at hc
  split at hc
  · obtain ⟨k, -, e⟩ := List.mem_filterMap.1 hc
    exact List.mem_of_find?_eq_some e
  · rw [List.mem_singleton.1 hc]; exact List.mem_cons_self ..

/-- A context that joins the store, its cores taken from the quad. -/
theorem Inv.addImage {g : Image} {l : List Nat} (h : Inv s) (hg : ∀ c ∈ g.cores, Memory.wf c.spill = true) :
    Inv (s.setCl { s.cl with images := s.cl.images ++ [g], lateReads := l }) := by
  refine ⟨h.mem, h.spill, fun x hx => ?_⟩
  obtain hx | hx := List.mem_append.1 hx
  · exact h.images x hx
  · rw [List.mem_singleton.1 hx]; exact hg

theorem Inv.join {r : ContRec} (h : Inv s) : Inv (s.join r) := h.setCl rfl

theorem Inv.save (h : Inv s) : Inv s.save := by
  unfold State.save; dsimp only
  have hi : ∀ c ∈ s.members.map imageOf, Memory.wf c.spill = true :=
    List.forall_mem_map.2 fun c hc => h.spill c (s.members_sub c hc)
  have hs := fun n => ((h.takeId.mapFiring (f := Core.dropWaits) fun _ w => w).count (k := .lateReplies) (n := n)).leave
  have ha := fun n l => (hs n).addImage (g := { id := s.id, cores := s.members.map imageOf, held := s.core.brk }) (l := l) hi
  split
  · exact (ha ..).count
  · exact (ha ..).count.count.join

theorem Inv.savePick (h : Inv s) (e : s.savePick = some t) : Inv t := by
  unfold State.savePick at e
  obtain ⟨k, -, e⟩ := List.exists_of_findSome?_eq_some e
  obtain ⟨u, hu, e⟩ := Option.bind_eq_some_iff.1 e
  split at e
  · cases e; exact h.focus hu
  · cases e

theorem Inv.execContextSave (h : Inv s) : NextInv (execContextSave s) := by
  unfold Machine.execContextSave
  split
  · exact h
  · exact (h.savePick ‹_›).save

theorem Inv.askPage {x : Word} {k : Fin 16} (h : Inv s) : Inv (s.askPage x k) := by
  unfold State.askPage; dsimp only
  split
  · exact h.same rfl
  · split
    · exact h.same rfl
    · split
      · exact h.same rfl
      · exact h.frame (State.request_frame ..)

theorem Inv.rewatch {k : Fin 16} (h : Inv s) : Inv (s.rewatch k) := by
  unfold State.rewatch; dsimp only
  split
  · exact h
  · split
    · exact (h.same (by rfl)).askPage
    · exact (h.same (by rfl)).watchWord

theorem Inv.revalidate {e : PrtEntry} (h : Inv s) : Inv (s.revalidate e) := by
  unfold State.revalidate; dsimp only
  split
  · exact h
  · exact (h.same (by rfl)).askValid

theorem Inv.refar {f : FarRead} (h : Inv s) : Inv (s.refar f) := by
  unfold State.refar; dsimp only
  split
  · exact h
  · exact (h.same (by rfl)).startFar.wakeFar

theorem Inv.revive (h : Inv s) : Inv s.revive := by
  unfold State.revive; dsimp only
  refine Inv.foldl (fun _ _ k => k.refar) _ (Inv.foldl (fun _ _ k => k.revalidate) _ ?_)
  exact Inv.foldl (fun _ _ k => k.rewatch) _ (h.same (by rfl))

theorem Image.memberFor_mem {g : Image} {wide : Bool} {c m : Core} (e : g.memberFor wide c = some m) : m ∈ g.cores := by
  unfold Image.memberFor at e
  split at e
  · exact List.mem_of_find?_eq_some e
  · exact List.mem_of_head? e

theorem Inv.execResume {image : Nat} (h : Inv s) : NextInv (execResume image s) := by
  unfold Machine.execResume; dsimp only
  split
  · exact h
  · rename_i g e
    have hg := h.images g (List.mem_of_find?_eq_some e)
    split
    · exact h
    · refine Inv.count (Inv.foldl (fun _ _ k => k.onCore fun _ k => k.revive) _ (Inv.setClSub ?_ ?_))
      case refine_2 => exact fun _ hx => List.mem_of_mem_filter hx
      refine Inv.mapCores (h.focus ‹_›) fun c w => ?_
      split
      · split
        · rename_i m e'
          exact hg m (Image.memberFor_mem e')
        · exact w
      · exact w

/-- What the debug agent writes to a core that it names. -/
theorem Core.debugWriteIf_wf {n : BitVec 32} {k : BitVec 2} {r : DebugReg}
    {x : Word} (c : Core) (w : Memory.wf c.spill = true) :
    Memory.wf (if c.holds n k then c.debugWrite r x else c).spill = true := by
  split
  · exact c.debugWrite_wf r x w
  · exact w

theorem Inv.debugAccess {a : DebugAccess} (h : Inv s) : Inv (s.debugAccess a) := by
  unfold State.debugAccess
  split
  · exact h
  · split
    · split
      · exact h.same rfl
      · exact h
    · refine Inv.mapCores ⟨h.mem, h.spill, ?_⟩ Core.debugWriteIf_wf
      exact List.forall_mem_map.2 fun g hg => List.forall_mem_map.2 fun c hc => Core.debugWriteIf_wf c (h.images g hg c hc)

/-- A hold of a saved context is lifted. -/
theorem Inv.unholdImage {n : Nat} (h : Inv s) :
    Inv (s.setCl { s.cl with images := s.cl.images.map fun x => if x.id = n then { x with held := none } else x }) := by
  refine ⟨h.mem, h.spill, List.forall_mem_map.2 fun x hx => ?_⟩
  split <;> exact h.images x hx

theorem Inv.execDebugResume {access : Option DebugAccess} (h : Inv s) : NextInv (execDebugResume s access) := by
  unfold Machine.execDebugResume
  split
  · exact h.debugAccess
  · split
    · exact h
    · split
      · exact h.unholdImage.same rfl
      · exact h.unholdImage

/-! ## The spill stack -/

theorem Inv.resultNM {d : Option NM} {v : Word} (h : Inv s) : Inv (s.resultNM d v) := h.setCore (by simp)

theorem Inv.moveSp {bad : Bool} {new : Word} {move : Core → Core} (h : Inv s)
    (hm : ∀ c : Core, Memory.wf c.spill = true → Memory.wf (move c).spill = true) : NextInv (s.moveSp bad new move) := by
  unfold State.moveSp
  split
  · exact h.takeTrap
  · split
    · exact h.takeTrap
    · exact h.putCore (c := { move s.core with sp := new }) (hm _ h.core)

theorem Inv.execPushm {first last : Fin 32} (h : Inv s) : NextInv (execPushm first last s) := by
  unfold Machine.execPushm; dsimp only
  exact h.gate (h.moveSp fun _ w => Core.spillWords_wf _ _ w)

theorem Inv.execPopm {first last : Fin 32} (h : Inv s) : NextInv (execPopm first last s) := by
  unfold Machine.execPopm; dsimp only
  exact h.gate (h.moveSp fun _ w => by simpa using w)

theorem Inv.execSpadj {adj : BitVec 48} (h : Inv s) : NextInv (execSpadj adj s) := by
  unfold Machine.execSpadj; dsimp only
  refine h.gate ?_
  split
  · exact h.takeTrap
  · refine h.moveSp fun c w => ?_
    split
    · exact Core.spillWords_wf _ _ w
    · exact w

/-! ## System instructions -/

theorem Inv.tretIssue {v : Option Word} (h : Inv s) : NextInv (tretIssue s v) := by
  unfold Machine.tretIssue; dsimp only
  split
  · exact h.transfer
  · exact h.same rfl

theorem Inv.execTret (h : Inv s) : NextInv (execTret s) := by
  unfold Machine.execTret
  refine h.gate ?_
  split
  · exact h.takeTrap
  · exact h.tretIssue

theorem Inv.execTretV {a : Src} (h : Inv s) : NextInv (execTretV a s) := by
  unfold Machine.execTretV
  refine h.gate ?_
  split
  · exact h.takeTrap
  · exact h.tretIssue

theorem Inv.supply {w : IWord} {v : Word} (h : Inv s) : Inv (s.supply w v) := by
  unfold State.supply; dsimp only
  refine h.setCore ?_
  have hp := Core.foldl_spill (f := fun (c : Core) (_ : Nat) => c.push (.arrived v)) (fun c _ => c.push_spill _)
  split
  · exact hp ..
  · rw [Core.putDests_spill]; exact hp ..

theorem Inv.replaceFaulted {t : TrapRegs} {off : Nat} {v : Word} (h : Inv s) : Inv (s.replaceFaulted t off v) := by
  unfold State.replaceFaulted
  refine h.setCore ?_
  rw [Core.putDests_spill]
  split
  · exact Core.setBank_spill ..
  · rfl

theorem Inv.tretWrite {t : TrapRegs} (h : Inv s) : Inv (s.tretWrite t) := by
  unfold State.tretWrite
  split
  · exact h.abort fun _ _ k => k.same rfl
  · exact (h.same (by rfl)).mapFiring (by exact fun _ w => w)

theorem Inv.recheck (h : Inv s) : Inv s.recheck := by
  unfold State.recheck
  split
  · exact h.takeTrap
  · exact h

theorem Inv.tretNow {v : Option Word} (h : Inv s) : Inv (s.tretNow v) := by
  unfold State.tretNow; dsimp only
  split
  · exact h.tretWrite
  · have k := fun g p e i => h.setCore (c := { s.core.setBank s.core.level zeroBank with
      level := s.core.level - 1, pc := p, entry := e, issueAt := i, grp := g }) (Core.setBank_spill ..)
    split
    · exact (k ..).recheck
    · split
      · exact (k ..).replaceFaulted.recheck
      · split
        · exact (k ..).recheck
        · refine (Inv.setCore ?_ (by rfl)).recheck
          split
          · exact (k ..).supply
          · exact k ..

theorem Inv.execSysrd {d : NDst} {num : BitVec 12} (h : Inv s) : NextInv (execSysrd d num s) := by
  unfold Machine.execSysrd; dsimp only
  refine h.gate ?_
  split
  · exact h.takeTrap
  · split
    · split
      · exact h.same rfl
      · exact h.resultAt
      · exact h.resultAt
    · split
      · exact h.same rfl
      · exact h.resultAt

theorem Inv.sysWrite {n : Nat} {v : Word} (h : Inv s) : Inv (s.sysWrite n v) := by
  unfold State.sysWrite; dsimp only
  split
  · exact h.same rfl
  · exact h.same rfl
  · exact h.same rfl
  · exact h.same rfl
  · exact h.same rfl
  · split
    · exact h.same rfl
    · exact h.takeTrap
  · split
    · exact h.same rfl
    · exact h.takeTrap
  · split
    · exact h.same rfl
    · exact h.takeTrap
  · exact h.same rfl
  · exact h.same rfl
  · exact h.same rfl
  · exact h

theorem Inv.execSyswr {a : Src} {num : BitVec 12} (h : Inv s) : NextInv (execSyswr a num s) := by
  unfold Machine.execSyswr; dsimp only
  refine h.gate ?_
  split
  · exact h.takeTrap
  · split
    · exact h.takeTrap
    · split
      · exact h.same rfl
      · exact h.sysWrite

theorem Inv.execPgreq {k : Fin 16} {d : NDst} {a : Src} (h : Inv s) : NextInv (execPgreq k d a s) := by
  unfold Machine.execPgreq; dsimp only
  refine h.gate ?_
  split
  · exact h.takeTrap
  · split
    · exact h.takeTrap
    · exact ((h.owe.closeSlot.setCore (by rfl)).setCore (by rfl)).askPage

theorem Inv.serviceWant {sp : BitVec 16} {off : Nat} (h : Inv s) : Inv (s.serviceWant sp off).1 := by
  unfold State.serviceWant; dsimp only
  split
  · exact h
  · have k := fun va => h.frame (s.serviceTranslate_frame sp va .load)
    split
    · exact (k _).fst ‹_›
    · exact (k _).fst ‹_›
    · exact ((k _).fst ‹_›).serviceTicket.send
    · exact (k _).fst ‹_›

theorem Inv.servePage {sp : BitVec 16} {x : Word} (h : Inv s) : Inv (s.servePage sp x).1 := by
  unfold State.servePage; dsimp only
  split
  · exact h.serviceWant
  · split
    · exact h
    · split
      · exact h
      · have k := fun va => h.frame (s.translate_frame sp va .load)
        split
        · exact (k _).fst ‹_›
        · exact (k _).fst ‹_›
        · exact (((k _).fst ‹_›).frame (State.ticket_frame ..)).send
        · exact (k _).fst ‹_›

theorem Inv.execPageRequest {sp : BitVec 16} {addr : Word} {tag : Nat} {hdr : Option NysilHdr} (h : Inv s) :
    NextInv (execPageRequest sp addr tag s hdr) := by
  refine h.receive fun t k => ?_
  dsimp only
  split
  · exact k.servePage.same rfl
  · exact k.servePage.respond

theorem Inv.pageSlot {k : Fin 16} {id : Nat} {r : PageReply} (h : Inv s) : Inv (s.pageSlot k id r) := by
  unfold State.pageSlot; dsimp only
  split
  · exact h
  · split
    · exact (h.same (by rfl)).watchWord
    · exact h.same rfl
    · exact h.same rfl

theorem Inv.execPageRequestReply {core : BitVec 2} {k : Fin 16} {tag : BitVec 4} {r : PageReply}
    {hdr : Option NysilHdr} (h : Inv s) :
    NextInv (execPageRequestReply core k tag r s hdr) := by
  unfold Machine.execPageRequestReply; dsimp only
  refine h.receive fun t k => ?_
  refine k.onCore fun t k => ?_
  split
  · exact k
  · exact Inv.foldl (fun _ _ k => k.wake) _ ((k.same (by rfl)).setCore (by simp)).pageSlot

theorem Inv.execBasinclr {a : Option Src} (h : Inv s) : NextInv (execBasinclr a s) := by
  unfold Machine.execBasinclr; dsimp only
  refine h.gate ?_
  split
  · exact h.same rfl
  · split
    · exact h.takeTrap
    · exact h.same rfl

theorem Inv.execTestinj {a : Src} {disp : BitVec 48} (h : Inv s) : NextInv (execTestinj a disp s) := by
  unfold Machine.execTestinj; dsimp only
  refine h.gate ?_
  split
  · exact h.takeTrap
  · split
    · exact h.takeTrap
    · split
      · exact h.takeTrap
      · split
        · exact h.same rfl
        · exact h.addAccess

/-! ## The quad's own units -/

theorem Inv.execResultArrival {id : Nat} (h : Inv s) : NextInv (execResultArrival id s) := by
  unfold Machine.execResultArrival; dsimp only
  refine h.onCore fun t k => ?_
  split
  · exact k.setCore (by simp)
  · exact k

theorem Inv.dividerArrives {k : PendKind} (h : Inv s) : Inv (s.dividerArrives k) := by
  unfold State.dividerArrives
  refine h.onCore fun t k => ?_
  split
  · exact k.setCore (by simp)
  · exact k

theorem Inv.execLineFetch {addr : Word} {r : LineReply} {hdr : Option NysilHdr} (h : Inv s) :
    NextInv (execLineFetch addr r s hdr) := by
  unfold Machine.execLineFetch; dsimp only
  refine h.receive fun t k => ?_
  have hu : Inv ((t.untrack (codeReq addr)).endPcie (codeReq addr)) := k.untrack.endPcie
  split
  · exact k
  · split
    · split
      · exact hu.failCode.setQuad
      · exact hu.putCode.setQuad
    · exact hu.failCode.setQuad
    · exact hu.failCode.setQuad
    · exact hu.failCode.setQuad

theorem Inv.serveCode {sp : BitVec 16} {off : Nat} (h : Inv s) : Inv (s.serveCode sp off).1 := by
  unfold State.serveCode; dsimp only
  have hr : ∀ {p q : Prop} [Decidable p] [Decidable q] {x y : Option AccFail},
      Inv (if p then (s, x) else if q then (s, y) else s.checkLines sp .fetch (granules off 64)).1 := by
    intros
    split
    · exact h
    · split
      · exact h
      · exact h.frame (State.checkLines_frame ..)
  split
  · exact hr.fst ‹_›
  · exact hr.fst ‹_›
  · exact (hr.fst ‹_›).frame (State.ticket_frame ..)
  · exact (hr.fst ‹_›).frame (State.readAt_frame ..)

theorem Inv.poisonCell {a : ErrAt} (h : Inv s) : Inv (s.poisonCell a) := by
  unfold State.poisonCell; dsimp only
  split
  · exact h.onCore fun _ k => k.same rfl
  · exact h.same rfl
  · exact h.same rfl
  · exact h
  · exact h

theorem Inv.execSoftError {place : ErrAt} {double : Bool} (h : Inv s) : NextInv (execSoftError place double s) := by
  unfold Machine.execSoftError
  split
  · split
    · exact h
    · exact (h.same (by rfl)).ite (h.same (by rfl))
  · split
    · exact h
    · exact (h.frame (State.ncPut_frame ..)).count.ite (h.same rfl)
  · exact h.poisonCell.count.ite (h.same rfl)
  · exact h.poisonCell.count.ite (h.same rfl)
  · exact h.poisonCell.count.ite (h.same rfl)

/-! ## Requests and pages from outside -/

theorem Inv.execReadRequest {hdr : Option NysilHdr} {r : ReadReq} (h : Inv s) : NextInv (execReadRequest hdr r s) := by
  refine h.receive fun t k => ?_
  split
  · exact k.respond
  · exact k.serveRead.respond

theorem Inv.advanceGen {sp : BitVec 16} (h : Inv s) : Inv (s.advanceGen sp) := by
  unfold State.advanceGen; dsimp only
  split
  · exact h
  · refine (Inv.queue ?_).serviceNotify
    split
    · exact (h.same (by rfl)).setMem (Mem.setWord_wf _ _)
    · exact h.same rfl

theorem Inv.execTlbGenerationAnswer {sp : BitVec 16} {e : WatchEnd} (h : Inv s) :
    NextInv (execTlbGenerationAnswer sp e s) := by
  unfold Machine.execTlbGenerationAnswer; dsimp only
  split
  · exact h.same rfl
  · exact h.same rfl
  · exact h
  · exact h
  · exact h

theorem Inv.serviceLists (h : Inv s) : Inv s.serviceLists := Inv.foldl (fun _ _ k => k.readList) _ h

theorem Inv.relist {w : WaitRec} (h : Inv s) : Inv (s.relist w) := by
  unfold State.relist
  split
  · exact h.armActor
  · split
    · exact h.readList
    · exact h

/-- Registrations that waited for a page are made, and lists are read again. -/
theorem Inv.comeAgain {rs : List SluiceEntry} {ws : List WaitRec} (h : Inv s) :
    Inv (ws.foldl State.relist (rs.foldl State.sluiceAgain s)) :=
  Inv.foldl (fun _ _ k => k.relist) _ (Inv.foldl (fun _ _ k => k.frame (State.sluiceAgain_frame ..)) _ h)

theorem Inv.pagesCame (h : Inv s) : Inv s.pagesCame := by
  unfold State.pagesCame; dsimp only
  refine Inv.comeAgain (Inv.setCl ?_ (by rfl))
  split
  · exact h
  · exact (h.setCl (by rfl)).frame (State.answerAll_frame ..)

theorem Inv.execPageTableChange {c : TableChange} (h : Inv s) : NextInv (execPageTableChange c s) := by
  unfold Machine.execPageTableChange; dsimp only
  split
  · split
    · exact (h.setMem (Mem.setWord_wf _ _)).advanceGen.serviceLists.pagesCame
    · exact h
  · exact (h.same (by rfl)).advanceGen
  · split
    · exact h
    · exact (h.same (by rfl)).advanceGen

theorem Inv.dropPage {sp : BitVec 16} {page : Word} (h : Inv s) : Inv (s.dropPage sp page) :=
  Inv.foldl (fun _ _ k => k.same (by rfl)) _ ((Inv.foldl (fun _ _ k => k.frame (State.ncDrop_frame ..)) _ h).setCl (by rfl))

theorem Inv.finalPass {m : Mig} {place : Nat} {leaf : Word} {tier : BitVec 2} {handle : BitVec 44} (h : Inv s) :
    Inv (s.finalPass m place leaf tier handle) := by
  unfold State.finalPass; dsimp only
  split
  · exact h
  · refine Inv.advanceGen (Inv.send (Inv.setCl ?_ (by rfl)))
    exact (h.frame (State.readGo_frame ..)).setDev.dropPage.setDev.setMem (Mem.setWord_wf _ _)

theorem Inv.execMigration {sp : BitVec 16} {addr : Word} {step : MigStep} {tier : BitVec 2} {handle : BitVec 44}
    (h : Inv s) :
    NextInv (execMigration sp addr step tier handle s) := by
  unfold Machine.execMigration; dsimp only
  split
  · exact h
  · split
    · exact h
    · split
      · split
        · exact h
        · exact (((h.frame (State.checkLines_frame ..)).fst ‹_›).frame (State.readAt_frame ..)).setCl rfl
      · split
        · exact h
        · split
          · exact h.same rfl
          · split
            · exact h.same rfl
            · exact h.same rfl
      · split
        · exact h
        · split
          · exact h
          · exact ((h.frame (State.checkLines_frame ..)).fst ‹_›).finalPass
      · exact h
      · exact h
      · exact h

theorem Inv.poisonLines {pa : Nat} {ks : List Nat} (h : Inv s) : Inv (s.poisonLines pa ks) :=
  Inv.foldl (fun _ _ k => k.same (by rfl)) _ h

theorem Inv.fillPage {sp : BitVec 16} {page : Word} {pa : Nat} {mode : BitVec 2} {n k : Nat} {bs : List Byte} (h : Inv s) :
    Inv (s.fillPage sp page pa mode n k bs) := by
  induction n generalizing s k bs with
  | zero => exact h
  | succ n ih => exact ih (h.frame (State.portWrite_frame ..))

theorem Inv.placePage {t : Trailer} {pa : Nat} {data : Option (List Byte)} (h : Inv s) : Inv (s.placePage t pa data) := by
  unfold State.placePage; dsimp only
  split
  · split
    · exact ((h.frame (State.sealedInit_frame ..)).fst ‹_›).poisonLines
    · exact ((h.frame (State.sealedInit_frame ..)).fst ‹_›).poisonLines
    · exact ((h.frame (State.sealedInit_frame ..)).fst ‹_›).poisonLines
    · exact ((h.frame (State.sealedInit_frame ..)).fst ‹_›).poisonLines
  · exact h.fillPage.poisonLines

theorem Inv.pageArrived {sp : BitVec 16} {page : Word} (h : Inv s) : Inv (s.pageArrived sp page) := by
  unfold State.pageArrived; dsimp only
  exact Inv.comeAgain (((h.setCl (by rfl)).frame (State.answerAll_frame ..)).setCl (by rfl))

theorem Inv.execPageIn {sp : BitVec 16} {addr : Word} {frame : Nat} {d : PageData} (h : Inv s) :
    NextInv (execPageIn sp addr frame d s) := by
  unfold Machine.execPageIn; dsimp only
  split
  · exact h
  · split
    · exact h
    · split
      · exact h
      · exact ((h.same (by rfl)).placePage.setMem (Mem.setWord_wf _ _)).setDev.advanceGen.pageArrived

/-! ## The fabric -/

theorem Inv.execRetry {hdr : NysilHdr} {req : Nat} (h : Inv s) : NextInv (execRetry hdr req s) := by
  unfold Machine.execRetry; dsimp only
  split
  · exact h.same rfl
  · split
    · exact h
    · split
      · exact h.frame (State.heard_frame ..)
      · split
        · exact (h.frame (State.heard_frame ..)).setDev
        · exact h.frame (State.heard_frame ..)

theorem Inv.sendAgain {r : OutReq} (h : Inv s) : Inv (s.sendAgain r) := by
  unfold State.sendAgain; dsimp only
  split
  · exact ((h.same (by rfl)).frame (State.sendNysil_frame ..)).count.count.count
  · exact ((h.same (by rfl)).frame (State.sendNysil_frame ..)).count

theorem Inv.execRepeatAfterRetry {req : Nat} (h : Inv s) : NextInv (execRepeatAfterRetry req s) := by
  unfold Machine.execRepeatAfterRetry
  split
  · exact h
  · split
    · exact h.sendAgain
    · exact h

theorem Inv.execRequestRepeat {req : Nat} (h : Inv s) : NextInv (execRequestRepeat req s) := by
  unfold Machine.execRequestRepeat
  split
  · exact h
  · split
    · exact h.sendAgain
    · exact h

theorem Inv.execProbeTimer {dev : BitVec 10} (h : Inv s) : NextInv (execProbeTimer dev s) := by
  unfold Machine.execProbeTimer; dsimp only
  split
  · exact (h.same (by rfl)).frame (State.sendNysil_frame ..)
  · exact h

/-- A run of events that join the agenda. -/
theorem Inv.queueAll {β : Type} {f : State → β → Instr} {l : List β} (h : Inv s) :
    Inv (l.foldl (fun s x => s.queue (f s x)) s) :=
  Inv.foldl (fun _ _ k => k.queue) l h

theorem Inv.loseCore {d : BitVec 10} {c : Core} (h : Inv s) : Inv (s.loseCore d c) := h.queueAll.queueAll.queueAll.queueAll

theorem Inv.losePulls {d : BitVec 10} (h : Inv s) : Inv (s.losePulls d) := h.queueAll

theorem Inv.loseSched {d : BitVec 10} (h : Inv s) : Inv (s.loseSched d) := h.queueAll.queueAll.queueAll

theorem Inv.losePeer {d : BitVec 10} (h : Inv s) : Inv (s.losePeer d) := by
  unfold State.losePeer; dsimp only
  refine Inv.foldl (fun _ _ k => k.queue) _ (Inv.loseSched (Inv.losePulls (Inv.foldl (fun _ _ k => k.loseCore) _ ?_)))
  exact h.same rfl

theorem Inv.execPeerLoss {dev : BitVec 10} (h : Inv s) : NextInv (execPeerLoss dev s) := by
  unfold Machine.execPeerLoss
  split
  · exact (h.same (by rfl)).losePeer
  · exact h

theorem Inv.execPeerReadmit {dev : BitVec 10} {epoch : BitVec 4} (h : Inv s) : NextInv (execPeerReadmit dev epoch s) := by
  unfold Machine.execPeerReadmit; dsimp only
  split
  · exact h
  · exact h.same rfl

theorem Inv.execMemberRemoval {dev : BitVec 10} (h : Inv s) : NextInv (execMemberRemoval dev s) := by
  unfold Machine.execMemberRemoval; dsimp only
  split
  · exact h
  · split
    · exact h.setDev.queueAll
    · exact h.setDev.queueAll.losePeer

theorem Inv.nextKey {x : Session} {key : BitVec 512} (h : Inv s) : Inv (s.nextKey x key) := by
  unfold State.nextKey; dsimp only
  split
  · exact h
  · exact h.same rfl

theorem Inv.execKeyRotation {dev : BitVec 10} {slot : BitVec 6} {r : RotStep} (h : Inv s) :
    NextInv (execKeyRotation dev slot r s) := by
  unfold Machine.execKeyRotation
  split
  · exact h
  · split
    · exact (h.same (by rfl)).ite h
    · exact h.nextKey
    · exact h.nextKey
    · split
      · exact h
      · exact h.same rfl

theorem Inv.execOldPhaseErase {dev : BitVec 10} {slot : BitVec 6} (h : Inv s) : NextInv (execOldPhaseErase dev slot s) := by
  unfold Machine.execOldPhaseErase; dsimp only
  split
  · exact h
  · split
    · exact h.same rfl
    · exact h

theorem Inv.hostRead {req : Nat} {line : LineReply} {far : Word → Reply} (h : Inv s) :
    NextInv (s.hostRead req line far) := by
  unfold State.hostRead; dsimp only
  split
  · split
    · exact h.execPullLineResponse
    · exact h.lateReply
  · split
    · exact (h.same (by rfl)).execLineFetch
    · split
      · exact (h.same (by rfl)).execPullLineResponse
      · exact (h.same (by rfl)).readReply

/-! ## Launches -/

theorem Inv.askChunks {fn : Fin 63} {timed : Option (Fin 256)} {a : Word} {k n : Nat} (h : Inv s) :
    Inv (s.askChunks fn timed a k n) := Inv.foldl (fun _ _ k => k.askPcie) _ h

theorem Inv.enterTimed {i : Fin 256} (h : Inv s) : Inv (s.enterTimed i) := by
  unfold State.enterTimed; dsimp only
  split
  · exact h
  · split
    · exact ((h.frame (State.serviceBytes_frame ..)).fst ‹_›).setDev
    · exact (h.frame (State.serviceBytes_frame ..)).fst ‹_›
    · exact (h.frame (State.serviceBytes_frame ..)).fst ‹_›

theorem Inv.timedEnd {timed : Option (Fin 256)} (h : Inv s) : Inv (s.timedEnd timed) := by
  unfold State.timedEnd
  split
  · exact h
  · split
    · exact (h.same (by rfl)).enterTimed
    · exact h

theorem State.recordMem_wf (s : State) (l : Launch) (bs : List Byte) (w : Memory.wf s.mem = true) :
    Memory.wf (s.recordMem l bs) = true := by
  unfold State.recordMem; dsimp only
  split
  · exact Mem.writeBytes_wf _ _ w
  · split
    · exact Mem.writeBytes_wf _ _ w
    · exact w

theorem Inv.publish {l : Launch} {r : KillReq} {clk : Word} (h : Inv s) : Inv (s.publish l r clk) := by
  unfold State.publish; dsimp only
  refine Inv.timedEnd (Inv.send (Inv.send (Inv.serviceNotify (Inv.setMem h.putLaunch.setSvc fun w => ?_))))
  exact State.recordMem_wf _ _ _ w

theorem Inv.openLog {l : Launch} {bs : List Byte} (h : Inv s) : Inv (s.openLog l bs) := by
  unfold State.openLog; dsimp only
  split
  · exact h
  · split
    · exact h.same rfl
    · exact h.same rfl

theorem Inv.ringGo {fn : Fin 63} (h : Inv s) : Inv (s.ringGo fn) := by
  unfold State.ringGo; dsimp only
  split
  · exact h
  · exact (h.same (by rfl)).askChunks

theorem Inv.consume {x : RingRead} {refused : Bool} (h : Inv s) : Inv (s.consume x refused) := by
  unfold State.consume; dsimp only
  split
  · exact h.same rfl
  · exact (h.same (by rfl)).ringGo

theorem Inv.recordRead {x : RingRead} (h : Inv s) : Inv (s.recordRead x) := by
  unfold State.recordRead; dsimp only
  split
  · exact h.consume
  · split
    · exact (h.same (by rfl)).consume.publish
    · exact (h.same (by rfl)).openLog.setDev.askChunks.askChunks

theorem Inv.tablesRead {x : RingRead} {l : Launch} (h : Inv s) : Inv (s.tablesRead x l) := by
  unfold State.tablesRead; dsimp only
  split
  · exact h.consume.publish
  · exact h.consume.publish
  · split
    · exact h.consume.publish
    · exact (h.same (by rfl)).consume

theorem Inv.chunk {req : Nat} {l : Line} (h : Inv s) : Inv (s.chunk req l) := by
  unfold State.chunk; dsimp only
  split
  · exact h
  · split
    · exact h.same rfl
    · split
      · exact h.recordRead
      · exact h.tablesRead

theorem Inv.chunkFails {req : Nat} (h : Inv s) : Inv (s.chunkFails req) := by
  unfold State.chunkFails
  split
  · exact h
  · split
    · exact h.consume.timedEnd
    · exact h.consume.publish

theorem Inv.execPcieCompletion {req : Nat} {e : PcieEnd} (h : Inv s) : NextInv (execPcieCompletion req e s) := by
  unfold Machine.execPcieCompletion; dsimp only
  split
  · split
    · exact (h.same (by rfl)).chunk
    · exact (h.same (by rfl)).chunkFails
    · exact (h.same (by rfl)).chunkFails
  · split
    · exact h.hostRead
    · exact h.hostRead
    · exact h.hostRead

theorem Inv.execCompletionTimeout {req : Nat} (h : Inv s) : NextInv (execCompletionTimeout req s) := by
  unfold Machine.execCompletionTimeout
  split
  · exact h
  · split
    · exact (h.same (by rfl)).chunkFails
    · exact h.hostRead

theorem Inv.execNotify {fn : Fin 63} {v : Word} (h : Inv s) : NextInv (execNotify fn v s) := by
  unfold Machine.execNotify; dsimp only
  split
  · exact h
  · exact (h.same (by rfl)).ringGo

theorem Inv.execRingBase {fn : Fin 63} {v : Word} (h : Inv s) : NextInv (execRingBase fn v s) := by
  unfold Machine.execRingBase; dsimp only
  split
  · exact h
  · exact h.same rfl

theorem Inv.execRingEntries {fn : Fin 63} {v : Word} (h : Inv s) : NextInv (execRingEntries fn v s) := by
  unfold Machine.execRingEntries; dsimp only
  split
  · exact h.same rfl
  · exact h

theorem Inv.zeroSram (h : Inv s) : Inv s.zeroSram := by
  unfold State.zeroSram; dsimp only
  exact Inv.mapCores (Inv.setCl (h.setMem fun w => Mem.filter_wf _ w) (by rfl)) fun _ w => w

theorem Inv.beginZero {part : BitVec 32} (h : Inv s) : Inv (s.beginZero part) := h.zeroSram.setCl rfl

theorem Inv.stopWatches {g : BitVec 32} (h : Inv s) : Inv (s.stopWatches g) :=
  ((Inv.foldl (fun _ _ k => ((k.frame (State.unregister_frame ..)).ite k).frame (State.untrack_frame ..)) _ h).setCl rfl)

theorem Inv.bindHere {l : Launch} (h : Inv s) : Inv (s.bindHere l) := by
  unfold State.bindHere; dsimp only
  exact (h.stopWatches.beginZero.setCl (by rfl)).setQuad

theorem Inv.placeRoots {g : BitVec 32} (h : Inv s) : Inv (s.placeRoots g) := by
  unfold State.placeRoots; dsimp only
  split
  · exact h.zeroSram.setCl rfl
  · exact Inv.foldl (fun _ _ k => k.addWatch) _ (Inv.foldl (fun _ _ k => k.same (by rfl)) _ (h.zeroSram.setCl (by rfl)))

theorem Inv.execLaunchSelection {elsewhere : List (BitVec 10)} {sources : List (BitVec 17)} (h : Inv s) :
    NextInv (execLaunchSelection s elsewhere sources) := by
  unfold Machine.execLaunchSelection; dsimp only
  split
  · exact h
  · split
    · exact (h.same (by rfl)).publish
    · exact (h.same (by rfl)).bindHere.ite (h.same (by rfl))

theorem Inv.execLaunchSlot {i : Fin 256} (h : Inv s) : NextInv (execLaunchSlot i s) := by
  unfold Machine.execLaunchSlot; dsimp only
  split
  · exact h
  · split
    · exact h
    · split
      · exact (h.same (by rfl)).enterTimed
      · split
        · exact h.same rfl
        · exact h.same rfl

theorem Inv.execLaunchCompletion {graph : BitVec 32} (h : Inv s) : NextInv (execLaunchCompletion graph s) := by
  unfold Machine.execLaunchCompletion
  split
  · exact h
  · split
    · exact h.stopWatches.publish
    · exact h

theorem Inv.cancelPulls {p : Transfer → Bool} (h : Inv s) : Inv (s.cancelPulls p) := by
  unfold State.cancelPulls; dsimp only
  exact ((h.setCl (by rfl)).mapCores (by exact fun _ w => w)).setDev

theorem Inv.dropCore (h : Inv s) : Inv s.dropCore := by
  unfold State.dropCore; dsimp only
  exact (h.cancelSlots.cancelPulls.putCore (by rfl)).setQuad

theorem Inv.stopCore {k : BitVec 2} (h : Inv s) : Inv (s.stopCore k) := h.onCore fun _ k => k.dropCore.ite (k.same rfl)

theorem Inv.execKillRecord {graph : BitVec 32} (h : Inv s) : NextInv (execKillRecord graph s) := by
  unfold Machine.execKillRecord
  split
  · exact h
  · split
    · exact h
    · split
      · exact h.publish
      · exact h

theorem Inv.execCancel {fn : Fin 63} {seqNo : Word} (h : Inv s) : NextInv (execCancel fn seqNo s) := by
  unfold Machine.execCancel; dsimp only
  split
  · split
    · exact h.consume.publish
    · exact h
  · split
    · exact (h.same (by rfl)).publish
    · split
      · exact h.same rfl
      · exact h

theorem Inv.storeLog {l : Launch} (h : Inv s) : Inv (s.storeLog l) := by
  unfold State.storeLog; dsimp only
  split
  · exact h
  · split
    · exact (h.same (by rfl)).frame (State.writeHbm_frame ..)
    · exact h.same rfl

theorem Inv.execLogExport {graph : BitVec 32} {key : BitVec 256} {addr : Word} {vf : Option (Fin 63)} (h : Inv s) :
    NextInv (execLogExport graph key addr s vf) := by
  unfold Machine.execLogExport; dsimp only
  split
  · exact h
  · split
    · exact h
    · exact h.same rfl

theorem Inv.execPtpCorrection {offset : Int} (h : Inv s) : NextInv (execPtpCorrection offset s) := by
  unfold Machine.execPtpCorrection; dsimp only
  split
  · exact h.same rfl
  · exact h.same rfl

theorem Inv.execLockLoss (h : Inv s) : NextInv (execLockLoss s) := by
  unfold Machine.execLockLoss; dsimp only
  split
  · exact h
  · exact h.same rfl

theorem Inv.reset : Inv State.reset := by
  refine ⟨rfl, ?_, by intro g hg; cases hg⟩
  decide

theorem Inv.packageReset : Inv s.packageReset := Inv.reset.same rfl

theorem Inv.publishCaps (h : Inv s) : Inv s.publishCaps := by
  unfold State.publishCaps
  split
  · exact h.frame (State.writeHbm_frame ..)
  · exact h

theorem Inv.bootNow {imagesOk linksOk : Bool} {deviceId : BitVec 10} {capbase : Word}
    {members : List (BitVec 10 × Bool × BitVec 4 × BitVec 16)} {images : List FwImage} {failed : Option (Fin 9 × Fin 9)}
    (h : Inv s) : Inv (s.bootNow imagesOk linksOk deviceId capbase members images failed) := by
  unfold State.bootNow; dsimp only
  split
  · exact h.same rfl
  · split
    · exact h.same rfl
    · exact Inv.foldl (fun _ _ k => k.ringGo) _ (h.same (by rfl)).publishCaps.setDev

theorem Inv.execBoot {imagesOk linksOk : Bool} {deviceId : BitVec 10} {capbase : Word}
    {members : List (BitVec 10 × Bool × BitVec 4 × BitVec 16)} {images : List FwImage} {failed : Option (Fin 9 × Fin 9)}
    (h : Inv s) : NextInv (execBoot imagesOk linksOk deviceId capbase members s images failed) := by
  unfold Machine.execBoot
  split
  · exact h
  · exact (Inv.packageReset.ite h).bootNow

/-! ## Trust -/

theorem Inv.execKindle {test : Bool} {clusters : BitVec 72} {src : CmdSrc} (h : Inv s) :
    NextInv (execKindle test clusters s src) := by
  unfold Machine.execKindle; dsimp only
  split
  · exact h
  · split
    · exact h.status
    · split
      · exact h.status
      · refine Inv.status ?_
        split
        · exact h.setSlotOf.setDev.setMajorSource.setInterface.beginZero
        · exact h.setSlotOf.setDev.setMajorSource.setInterface

theorem Inv.discardLines {sps : List (BitVec 16)} (h : Inv s) : Inv (s.discardLines sps) :=
  Inv.foldl (fun _ _ k => k.ite (k.same (by rfl))) _ (h.same (by rfl))

theorem Inv.execQuench {slot : BitVec 6} {who : QuenchBy} (h : Inv s) : NextInv (execQuench slot who s) := by
  unfold Machine.execQuench; dsimp only
  split
  · exact h.status
  · refine Inv.status (Inv.setDev (Inv.discardLines (Inv.setCl (Inv.foldl (fun _ _ k => k.askKill) _ ?_) (by rfl))))
    exact h.setSlotOf.setDev.ite h.setSlotOf.setDev.setInterface

theorem Inv.execQuenchRelease {slot : BitVec 6} (h : Inv s) : NextInv (execQuenchRelease slot s) := by
  unfold Machine.execQuenchRelease; dsimp only
  split
  · exact h
  · refine Inv.foldl (fun _ _ k => k.send) _ (Inv.setDev ?_)
    have hz := h.beginZero (part := s.cl.part) |>.ite (p := (s.slot slot).clusters.getLsbD s.clusterNo.toNat = true) h
    split
    · exact (hz.setDev.setCl (by rfl)).setSlotOf.setInterface
    · exact (hz.setDev.setCl (by rfl)).setSlotOf

theorem Inv.execDebugUnlock {sigOk : Bool} {names : Option (BitVec 10 × Word)} {src : CmdSrc} (h : Inv s) :
    NextInv (execDebugUnlock sigOk s names src) := by
  unfold Machine.execDebugUnlock; dsimp only
  split
  · exact h
  · split
    · exact h.same rfl
    · split
      · exact h.same rfl
      · exact h.same rfl

theorem Inv.execNysilInstall {dev : BitVec 10} {slot : BitVec 6} {phase : Bool} {key : BitVec 512} {src : CmdSrc}
    (h : Inv s) :
    NextInv (execNysilInstall dev slot phase key s src) := by
  unfold Machine.execNysilInstall; dsimp only
  split
  · exact h
  · split
    · exact h.same rfl
    · exact (h.frame (State.cacheSession_frame ..)).send

theorem Inv.execNysilErase {dev : BitVec 10} {slot : BitVec 6} {phase : Bool} {src : CmdSrc} (h : Inv s) :
    NextInv (execNysilErase dev slot phase s src) := by
  unfold Machine.execNysilErase
  split
  · exact h
  · split
    · exact h.same rfl
    · exact h.same rfl

theorem Inv.execIdeKey {stream : Fin 64} {set1 : Bool} {key : BitVec 256} {km : IdeKm} {src : CmdSrc} (h : Inv s) :
    NextInv (execIdeKey stream set1 key s km src) := by
  unfold Machine.execIdeKey; dsimp only
  split
  · exact h
  · split
    · exact h.same rfl
    · exact (h.same (by rfl)).ite (h.same (by rfl))
    · exact h.same rfl

theorem Inv.execCertWrite {slot : Fin 8} {cert : List Byte} {src : CmdSrc} (h : Inv s) :
    NextInv (execCertWrite slot cert s src) := by
  unfold Machine.execCertWrite; dsimp only
  split
  · exact h
  · split
    · exact h.same rfl
    · split
      · exact h.same rfl
      · exact h.same rfl

theorem Inv.endChallenge {slot : Fin 8} (h : Inv s) : Inv (s.endChallenge slot) := by
  unfold State.endChallenge; dsimp only
  split
  · exact h.same rfl
  · exact Inv.foldl (fun _ _ k => k.same (by rfl)) _ (h.same (by rfl))

theorem Inv.execChallenge {slot : Fin 8} {answer : Bool} (h : Inv s) : NextInv (execChallenge slot s answer) := by
  unfold Machine.execChallenge; dsimp only
  split
  · split
    · exact h
    · exact (h.same (by rfl)).endChallenge
  · exact h.same rfl

theorem Inv.execDeviceInterfaceReport {slot : BitVec 6} (h : Inv s) : NextInv (execDeviceInterfaceReport slot s) := by
  unfold Machine.execDeviceInterfaceReport; dsimp only
  split
  · exact h.same rfl
  · exact h.same rfl

theorem Inv.recordKill {g : BitVec 32} (h : Inv s) : Inv (s.recordKill g) := by
  unfold State.recordKill
  split
  · exact h
  · split
    · exact h
    · exact h.publish

theorem Inv.cancelWaiting (h : Inv s) : Inv s.cancelWaiting := Inv.foldl (fun _ _ k => k.publish) _ (h.same rfl)

/-! ## Issue -/

theorem Inv.entryFails {cause : Byte} (h : Inv s) : Inv (s.entryFails cause) := by
  unfold State.entryFails; dsimp only
  split
  · exact h.takeTrap
  · exact h.takeTrap
  · split
    · exact h.takeTrap
    · exact h.same rfl
  · exact h

theorem Inv.groupOff {l : Line} (h : Inv s) : Inv (s.groupOff l) := by
  unfold State.groupOff; dsimp only
  split
  · exact h.same rfl
  · exact h

theorem Inv.delivered (h : Inv s) : Inv s.delivered := by
  unfold State.delivered; dsimp only
  split
  · exact h.same rfl
  · exact h
  · exact h
  · exact h

end
end Sys2Proof.Machine

namespace Sys2Proof.Machine
section
variable {s t : State}

/-! ## Commands, commits and kills -/

theorem Inv.doUnit {m : MCmd} (h : Inv s) : Inv (s.doUnit m) := by
  unfold State.doUnit; dsimp only
  split
  · exact h.holdBanks.setCore rfl
  · exact h.putRow.setCore rfl
  · exact h.putRow.setCore rfl
  · exact h.readRows.setCore rfl
  · exact h.storeRow.setCore rfl
  · exact h
  · exact h

/-- The invariant holds of the state an effect leaves, performed or not. -/
def PerformedInv : Performed → Prop
  | .done t => Inv t
  | .stuck t => Inv t
  | .killed t => Inv t

theorem Inv.performSpawn {r : ContRec} {target : Option (BitVec 17)} (h : Inv s) :
    PerformedInv (s.performSpawn r target) := by
  unfold State.performSpawn; dsimp only
  split
  · exact (h.mapFiring (by exact fun _ w => w)).createRecord
  · split
    · exact (h.mapFiring (by exact fun _ w => w)).createRecord
    · split
      · exact h
      · exact (h.mapFiring (by exact fun _ w => w)).laneSpawn

theorem Inv.performAdvance {off : BitVec 40} {inc : Word} {asked : Bool} (h : Inv s) :
    PerformedInv (s.performAdvance off inc asked) := by
  unfold State.performAdvance; dsimp only
  split
  · exact h
  · have hc := h.frame (s.checkLines_frame s.core.task.space .store (granules off.toNat 8))
    split
    · exact (hc.fst ‹_›).commitKill
    · exact (hc.fst ‹_›).commitKill
    · have k := hc.fst ‹_›
      exact k.ite (k.setCore (by rfl)).send
    · have hp := (hc.fst ‹_›).poisonIn (sp := s.core.task.space) (es := [(off.toNat, 8)])
      split
      · exact (hp.fst ‹_›).commitKill
      · exact (hp.fst ‹_›).useBanks.frame (State.advance_frame ..)

theorem Inv.perform {e : Effect} (h : Inv s) : PerformedInv (s.perform e) := by
  cases e with
  | spawn r target => exact h.performSpawn
  | advance off inc now asked => exact h.performAdvance

theorem Inv.performNext (h : Inv s) : PerformedInv s.performNext := by
  unfold State.performNext
  split
  · exact h
  · rename_i e es _
    have hp := h.perform (e := e)
    split <;> rename_i u e' <;> rw [e'] at hp
    · exact Inv.setCore (s := u) hp (by rfl)
    · exact Inv.setCore (s := u) hp (by rfl)
    · exact hp

theorem Inv.commitFiring (h : Inv s) : Inv s.commitFiring := by
  unfold State.commitFiring
  split
  · exact h.endFiring
  · split
    · exact h.endFiring
    · have hp := (h.focus ‹_›).performNext
      split <;> rename_i u e <;> rw [e] at hp
      · exact hp
      · exact hp
      · exact Inv.ite (Inv.endFiring (s := u) hp) (Inv.mapFiring (s := u) hp (by exact fun _ w => w))

theorem Inv.execCommit (h : Inv s) : NextInv (execCommit s) := by
  unfold Machine.execCommit
  split
  · exact h
  · have k := h.focus ‹_›
    split
    · exact k.commitFiring
    · split
      · exact (k.setCore (Core.unend_spill ..)).writeTrap
      · split
        · exact (k.setCore (Core.regroup_spill ..)).deferredTrap
        · split
          · exact k.strike
          · split
            · exact k.startCommit
            · exact k.closeSlots.putCore k.core

theorem Inv.stopInstance {g : BitVec 32} (h : Inv s) : Inv (s.stopInstance g) := by
  unfold State.stopInstance; dsimp only
  have hc := Inv.foldl (f := State.stopCore) (fun _ _ k => k.stopCore) ((s.cores.filter fun c => c.serves g).map (·.num)) h
  have hs := hc.stopWatches (g := g)
  refine (Inv.setClSub ?_ fun _ hx => List.mem_of_mem_filter hx).lapse.refill
  exact hs.cancelPulls.ite hs

theorem Inv.killNow {r : KillReq} (h : Inv s) : Inv (s.killNow r) := by
  unfold State.killNow; dsimp only
  split
  · exact h
  · split
    · exact h.count
    · exact (h.putLaunch.count.ite h.putLaunch).stopInstance

theorem Inv.haltAll (h : Inv s) : Inv s.haltAll := by
  unfold State.haltAll; dsimp only
  refine (Inv.foldl (fun _ _ k => k.recordKill) _ ?_).cancelWaiting
  exact Inv.foldl (fun _ _ k => k.onCore fun _ k => k.dropCore) _ (Inv.foldl (fun _ _ k => k.killNow) _ h)

theorem Inv.execLinkTraining {dieA dieB : Fin 9} {authOk atBoot : Bool} {proof : Option LinkProof} (h : Inv s) :
    NextInv (execLinkTraining dieA dieB authOk atBoot s proof) := by
  unfold Machine.execLinkTraining; dsimp only
  split
  · exact h.setDev
  · split
    · exact h.setDev.setDev
    · exact h.setDev.haltAll.setDev

theorem Inv.execKill {r : KillReq} (h : Inv s) : NextInv (execKill r s) := h.killNow

theorem Inv.execCall {t : BitVec 48} (h : Inv s) : NextInv (execCall t s) := by
  unfold Machine.execCall; dsimp only
  exact h.gate h.transfer

theorem Inv.execWpoll {st : Bool} {k : Fin 16} {d : NDst} (h : Inv s) : NextInv (execWpoll st k d s) := by
  unfold Machine.execWpoll; dsimp only
  exact h.gate (Inv.result h.reportSlot)

theorem Inv.execBrkpt {tag : BitVec 16} (h : Inv s) : NextInv (execBrkpt tag s) := by
  unfold Machine.execBrkpt; dsimp only
  exact h.gate (Inv.ite (h.count.setCore (by rfl)) h.count)

theorem Inv.execValidationAnswer {hdr : Option NysilHdr} {id : Nat} {struck : Bool} (h : Inv s) :
    NextInv (execValidationAnswer hdr id struck s) := by
  unfold Machine.execValidationAnswer; dsimp only
  exact h.receive fun _ k => Inv.onCore (k.untrack (id := validReq id)) fun _ k => k.setCore rfl

theorem Inv.execWatchAnswer {core : BitVec 2} {k : Fin 16} {tag : BitVec 4} {e : WatchEnd} {hdr : Option NysilHdr} (h : Inv s) :
    NextInv (execWatchAnswer core k tag e s hdr) :=
  h.receive fun _ k => k.onCore fun _ k => Inv.foldl (fun _ _ k => k.wake) _ (k.slotEnd.frame (State.endWatch_frame ..))

theorem Inv.execRegisterWrite {r : StokerReg} {v : Word} (h : Inv s) : NextInv (execRegisterWrite r v s) := by
  unfold Machine.execRegisterWrite
  split
  · exact h.ite (h.setCl rfl)
  · exact h.setDev.ite h
  · exact h.setDev
  · exact h.setDev
  · exact h.same rfl
  · exact h.same rfl
  · split
    · rename_i i _ _ _ _ _
      have hl := h.execLaunchSlot (i := i)
      split <;> rename_i u e <;> rw [e] at hl
      · exact Inv.same (s := u) hl (by rfl)
      · trivial
      · trivial
    · exact h.setDev
  · exact h.setDev

/-! ## The dispatch -/

/-- Every instruction and every event keeps the invariant. -/
theorem Inv.exec (h : Inv s) (i : Instr) : NextInv (exec i s) := by
  unfold Machine.exec
  cases i with
  | nop | hint => exact h
  | br | jmpi => exact h.gate h.transfer
  | bc => exact h.execBc
  | call => exact h.execCall
  | ret => exact h.execRet
  | endFiring => exact h.execEndFiring
  | spawn => exact h.execSpawn
  | yield => exact h.execYield
  | add | sub | and | or | xor | andn | shl | shr | sar | rot | min | max | minu | maxu | clz | popc | ext | bitf | cmp
  | sel => exact h.alu
  | mul | mulh => exact h.gate h.resultAt
  | div | divu | rem | remu => exact h.divide
  | lea => exact h.execLea
  | far => exact h.execFar
  | homeof => exact h.execHomeof
  | mov | movi => exact h.gate h.resultNM
  | pushm => exact h.execPushm
  | popm => exact h.execPopm
  | spadj => exact h.execSpadj
  | fadd | fsub | fmul | ffma | fminmax | fcmp | fcvt => exact h.fpLater
  | fdiv | fsqrt => exact h.fpDivide
  | ld | st | ldv | stv | ldx | stx | amo | acas => exact h.issueAccess
  | pref => exact h.execPref
  | ldf | ldfa | ldfp => exact h.farLoad
  | pchk => exact h.execPchk
  | pdrop => exact h.execPdrop
  | sqadv => exact h.execSqadv
  | sqwait => exact h.execSqwait
  | watch => exact h.execWatch
  | wunwatch => exact h.gate h.freeSlots
  | wsleep => exact h.execWsleep
  | wpoll => exact h.execWpoll
  | fence => exact h.gate (h.owe.setCore rfl)
  | pull => exact h.execPull
  | pullg => exact h.execPullg
  | pullr => exact h.execPullr
  | agset => exact h.execAgset
  | waitp => exact h.execWaitp
  | lcset => exact h.gate (h.same rfl)
  | equery => exact h.execEquery
  | wld => exact h.execWld
  | mma => exact h.execMma
  | azero | ard | awr | ast => exact h.issueCmd
  | mwait => exact h.execMwait
  | tmapset => exact h.execTmapset
  | vadd | vsub | vmul | vfma | vmin | vmax | vabs | vneg | vexp2 | vlog2 | vrcp | vrsq | vcvt | vcmp | vsel | vand | vor
  | vxor | vshl | vshr | vred | vperm | vbcast | viota | vext | vins | vmxq | vmxd => exact h.vecIssue
  | trap => exact h.gate h.takeTrap
  | tret => exact h.execTret
  | tretV => exact h.execTretV
  | sysrd => exact h.execSysrd
  | syswr => exact h.execSyswr
  | pgreq => exact h.execPgreq
  | basinclr => exact h.execBasinclr
  | brkpt => exact h.execBrkpt
  | testinj => exact h.execTestinj
  | registerWrite => exact h.execRegisterWrite
  | lineFetch => exact h.execLineFetch
  | divisionResult | floatDivideResult => exact h.dividerArrives
  | localAccessPerformed => exact h.execLocalAccessPerformed
  | translation => exact h.execTranslation
  | sealedFill => exact h.frame (State.getLine_frame ..)
  | sealedWriteBack => exact h.execSealedWriteBack
  | softError => exact h.execSoftError
  | commit => exact h.execCommit
  | edgeListRead => exact h.execEdgeListRead
  | schedulerWatchAnswer => exact h.execSchedulerWatchAnswer
  | watchRetry => exact h.execWatchRetry
  | schedulerAssignment => exact h.execSchedulerAssignment
  | aging => exact h.execAging
  | quadReservation | migrationBlockEnd | lockInterfaceRequest | startInterfaceRequest => exact (h.same (by rfl)).ite h
  | preemptionRequest => exact h.execPreemptionRequest
  | contextSave => exact h.execContextSave
  | resume => exact h.execResume
  | debugResume => exact h.execDebugResume
  | vectorGrant => exact h.execVectorGrant
  | matrixCommandCompletion => exact h.execMatrixCommandCompletion
  | powerGovernor => exact (h.mapCores (by exact fun _ w => w)).setDev.count
  | pullLineResponse => exact h.execPullLineResponse
  | lineRerequest => exact h.execLineRerequest
  | waitpPromiseExpiry => exact h.execWaitpPromiseExpiry
  | readRequest => exact h.execReadRequest
  | readResponse => exact h.receive fun _ k => k.readReply
  | watchRegistration => exact h.receive fun _ k => k.frame (State.sluiceRegister_frame ..)
  | watchAnswer => exact h.execWatchAnswer
  | watchCancel => exact h.receive fun _ k => k.same rfl
  | tlbGenerationAnswer => exact h.execTlbGenerationAnswer
  | validationRequest => exact h.receive fun _ k => (k.same (by rfl)).respond
  | validationAnswer => exact h.execValidationAnswer
  | pageRequest => exact h.execPageRequest
  | pageRequestReply => exact h.execPageRequestReply
  | pageIn => exact h.execPageIn
  | migration => exact h.execMigration
  | retry => exact h.execRetry
  | repeatAfterRetry => exact h.execRepeatAfterRetry
  | requestRepeat => exact h.execRequestRepeat
  | probe => exact h.receive fun _ k => k.frame (State.sendNysil_frame ..)
  | probeAnswer => exact h.receive fun _ k => k
  | probeTimer => exact h.execProbeTimer
  | peerLoss => exact h.execPeerLoss
  | peerReadmit => exact h.execPeerReadmit
  | memberRemoval => exact h.execMemberRemoval
  | ualinkRequest | getMeasurements | driveFailure | pldmFirmwareUpdate | pldmPlatformMonitoring => exact h.same rfl
  | pcieCompletion => exact h.execPcieCompletion
  | keyRotation => exact h.execKeyRotation
  | oldPhaseErase => exact h.execOldPhaseErase
  | kindle => exact h.execKindle
  | quench | stopInterfaceRequest => exact h.execQuench
  | quenchRelease => exact h.execQuenchRelease
  | debugUnlock => exact h.execDebugUnlock
  | nysilInstall => exact h.execNysilInstall
  | nysilErase => exact h.execNysilErase
  | ideKey => exact h.execIdeKey
  | certWrite => exact h.execCertWrite
  | challenge => exact h.execChallenge
  | deviceInterfaceReport => exact h.execDeviceInterfaceReport
  | linkTraining => exact h.execLinkTraining
  | boot => exact h.execBoot
  | notify => exact h.execNotify
  | ringBase => exact h.execRingBase
  | ringEntries => exact h.execRingEntries
  | cancel => exact h.execCancel
  | launchSelection => exact h.execLaunchSelection
  | launchSlot => exact h.execLaunchSlot
  | launchCompletion => exact h.execLaunchCompletion
  | kill => exact h.execKill
  | killRecord => exact h.execKillRecord
  | ptpCorrection => exact h.execPtpCorrection
  | lockLoss => exact h.execLockLoss
  | logExport => exact h.execLogExport
  | ill => exact h.takeTrap
  | resultArrival => exact h.execResultArrival
  | splitGranuleBoundary => exact (h.mapCores (by exact fun _ w => w)).ite h
  | pageTableChange => exact h.execPageTableChange
  | completionTimeout => exact h.execCompletionTimeout
  | challengeTimeout => exact (h.same (by rfl)).endChallenge.ite h
  | sessionContextFetch => exact h.execSessionContextFetch
end
end Sys2Proof.Machine

namespace Sys2Proof.Machine
section
variable {s t : State} {α β : Type} {g : α → State}

/-! ## Issue -/

theorem Inv.continueAt {pc : Word} {n : Nat} (h : Inv s) : Inv (s.continueAt pc n) := h.setCore rfl

/-- CALL writes one word of the spill region. -/
theorem Inv.makeXfer {next : Word} (h : Inv s) : Inv (s.makeXfer next) := by
  unfold State.makeXfer; dsimp only
  split
  · exact h.continueAt
  · exact h.continueAt
  · exact (h.putCore (c := { s.core with spill := _, sp := _ }) (Mem.setWord_wf _ _ h.core)).continueAt
  · exact (h.setCore (by rfl)).continueAt
  · exact h.setCore rfl
  · exact h.continueAt.yieldNow
  · exact h.tretNow
  · exact h.continueAt.breakNow

theorem Inv.finishAt {n : Nat} {next : Word} (h : Inv s) : Inv (State.finishAt n s next) := by
  induction n generalizing s next with
  | zero => exact h.makeXfer
  | succ n ih =>
    unfold State.finishAt; dsimp only
    split
    · split
      · exact ih h.tretNow
      · exact h.tretNow
    · exact h.makeXfer

theorem Inv.advanceSlot {l : Line} (h : Inv s) : Inv (s.advanceSlot l) := by
  unfold State.advanceSlot; dsimp only
  split
  · exact h.setCore rfl
  · exact h.finishAt

theorem Inv.afterSlot {l : Line} {off : Nat} (h : Inv s) : Inv (s.afterSlot l off) := by
  unfold State.afterSlot; dsimp only
  split
  · exact h
  · split
    · split
      · exact h.setCore (Core.retry_spill _)
      · exact h
    · split
      · exact h
      · split
        · exact h.setCore rfl
        · exact h.advanceSlot

theorem Inv.issueSlot {l : Line} {i : Instr} (h : Inv s) : NextInv (s.issueSlot l i) := by
  have he := h.exec i
  unfold State.issueSlot
  split
  · rename_i u e
    rw [e] at he
    have hu : Inv u := he
    exact (hu.ite (hu.setCore (Core.outdate_spill ..))).afterSlot
  · trivial
  · trivial

theorem Inv.lineFailure {a : Word} {r : LineReply} (h : Inv s) : NextInv (s.lineFailure a r) := by
  unfold State.lineFailure; dsimp only
  have ht : Inv (s.dropBad a) := h.same rfl
  have ha : ∀ {k : State}, Inv k → NextInv (if !s.abortable then .next ((s.dropBad a).trap 0x08 a)
      else if s.core.anyUndecided then stall s else .next k) := by
    intro k hk
    split
    · exact ht.takeTrap
    · split
      · exact h.setCore rfl
      · exact hk
  split
  · split
    · exact ha ht.abortUnmapped
    · exact ht.takeTrap
  · exact ha ht.abortForPage
  · exact ht.takeTrap
  · exact ht.setCore rfl

theorem Inv.withLine {k : Line → Out} (h : Inv s) (hk : ∀ l, NextInv (k l)) : NextInv (s.withLine k) := by
  unfold State.withLine
  split
  · exact hk _
  · split
    · exact h.lineFailure
    · exact h.askLine.setCore rfl

theorem Inv.continueGroup (h : Inv s) : NextInv s.continueGroup := by
  unfold State.continueGroup; dsimp only
  have hg : ∀ l : Line, NextInv (if s.core.grp.issued then .next (s.advanceSlot l)
      else match instrOf l s.core.slot with
        | some i => s.issueSlot l i
        | none => .next s) := by
    intro l
    split
    · exact h.advanceSlot
    · split
      · exact h.issueSlot
      · exact h
  split
  · exact hg _
  · exact h.withLine hg

theorem Inv.beginGroup {l : Line} (h : Inv s) : Inv (s.beginGroup l) := h.setCore rfl

/-! ## What an option holds -/

/-- The invariant holds of the state in what an option holds, if it holds something. -/
def SomeInv (g : α → State) (o : Option α) : Prop := ∀ x, o = some x → Inv (g x)

theorem SomeInv.none : SomeInv g .none := by
  intro x e; cases e

theorem SomeInv.some {x : α} (h : Inv (g x)) : SomeInv g (.some x) := by
  intro y e; cases e; exact h

theorem SomeInv.or {a b : Option α} (ha : SomeInv g a) (hb : SomeInv g b) : SomeInv g (a <|> b) := by
  cases a with
  | none => exact hb
  | some x => exact ha

theorem SomeInv.map {o : Option β} {f : β → α} (hf : ∀ x, o = .some x → Inv (g (f x))) : SomeInv g (o.map f) := by
  cases o with
  | none => exact .none
  | some x => exact .some (hf x rfl)

theorem SomeInv.bind {o : Option β} {f : β → Option α} (hf : ∀ x, o = .some x → SomeInv g (f x)) :
    SomeInv g (o.bind f) := by
  cases o with
  | none => exact .none
  | some x => exact hf x rfl

theorem SomeInv.findSome {l : List β} {f : β → Option α} (hf : ∀ x, SomeInv g (f x)) : SomeInv g (l.findSome? f) := by
  intro y e
  obtain ⟨x, -, e⟩ := List.exists_of_findSome?_eq_some e
  exact hf x y e

theorem SomeInv.ite {p : Prop} [Decidable p] {a b : Option α} (ha : SomeInv g a) (hb : SomeInv g b) :
    SomeInv g (if p then a else b) := by
  split <;> assumption

/-! ## The start of a group -/

theorem Inv.lineTrap {l : Line} (h : Inv s) : SomeInv id (s.lineTrap l) := by
  unfold State.lineTrap
  split
  · exact .none
  · exact .some (h.entryFails.same rfl)
  · exact .ite .none (.some h.entryFails)
  · exact .some (Inv.same (s := s.trap _ _) h.takeTrap (by rfl))
  · exact .none

theorem Inv.badSlot {l : Line} {k : Nat} {o : Out} (h : Inv s) (e : s.badSlot l k = some o) : NextInv o := by
  unfold State.badSlot at e; dsimp only at e
  have ht : Inv (s.setCore { s.core with pc := s.core.slotPtr k }) := h.setCore rfl
  split at e
  · cases e
    exact ht.takeTrap
  · split at e
    · cases e
      exact ht.exec _
    · split at e
      · cases e
        exact ht.exec _
      · cases e

theorem Inv.trial {l : Line} {k : Nat} (h : Inv s) : SomeInv id (s.trial l k) := by
  unfold State.trial; dsimp only
  split
  · exact .none
  · rename_i i _
    have he := ((h.beginGroup (l := l)).setCore (c := { (s.beginGroup l).core with pc := s.core.slotPtr k }) rfl).exec i
    split
    · rename_i u e
      rw [e] at he
      have hu : Inv u := he
      exact .ite (.some (hu.setCore (Core.retry_spill _))) .none
    · exact .none
    · exact .none

theorem Inv.startGroup {l : Line} (h : Inv s) : NextInv (s.startGroup l) := by
  unfold State.startGroup; dsimp only
  split
  · exact h.deferredTrap
  · split
    · exact h.takeTrap
    · split
      · rename_i e
        obtain ⟨k, -, e⟩ := List.exists_of_findSome?_eq_some e
        exact h.badSlot e
      · split
        · exact (h.setCore rfl).setCore rfl
        · split
          · exact (h.setCore rfl).setCore rfl
          · split
            · exact h.deferredTrap
            · split
              · exact SomeInv.findSome (g := id) (fun _ => h.trial) _ ‹_›
              · split
                · exact h.beginGroup.issueSlot
                · exact h

theorem Inv.tryGroup (h : Inv s) : NextInv s.tryGroup := by
  unfold State.tryGroup; dsimp only
  split
  · exact (h.setCore (by rfl)).writeTrap
  · split
    · exact h.entryFails
    · have hs := h.setCore (c := { s.core with heldMma := none, grp := if s.core.slot = 0 then Grp.none else s.core.grp }) rfl
      refine hs.withLine fun l => ?_
      have hg := hs.groupOff (l := l)
      split
      · exact hg.lineTrap _ ‹_›
      · exact hg.delivered.startGroup

/-! ## The events that are due -/

theorem Inv.serveLine {hom : BitVec 17} {sp : BitVec 16} {off : Nat} (h : Inv s) :
    SomeInv Prod.fst (s.serveLine hom sp off) := by
  unfold State.serveLine
  split
  · have hl := h.serviceLine (sp := sp) (off := off) (need := .load)
    split
    · exact .none
    · exact .some hl
  · have hc := h.frame (s.serveCheck_frame sp off 64)
    split
    · exact .none
    · exact .some (hc.fst ‹_›)
    · exact .some (hc.fst ‹_›)
    · exact .some ((hc.fst ‹_›).useBanks.frame (State.readAt_frame ..))

theorem Inv.pullDue {p : Transfer → Bool} (h : Inv s) : SomeInv Prod.fst (s.pullDue p) := by
  unfold State.pullDue; dsimp only
  refine .findSome fun ch => .findSome fun t => .findSome fun l => .findSome fun m => .ite (.map fun r e => ?_) .none
  exact h.serveLine r e

theorem Inv.farDue {c : Core} (h : Inv s) : SomeInv Prod.fst (s.farDue c) := by
  unfold State.farDue; dsimp only
  refine .findSome fun f => .ite .none ?_
  split
  · exact .ite .none (.some h)
  · exact .ite (.some h.answerFar) .none

theorem Inv.codeDue (h : Inv s) : SomeInv Prod.fst s.codeDue := by
  unfold State.codeDue; dsimp only
  refine .map fun x _ => ?_
  split
  · exact h.serviceLine
  · exact h.serveCode

theorem Inv.resultDue (h : Inv s) : SomeInv Prod.fst s.resultDue := .findSome fun _ => .map fun _ _ => h

theorem Inv.accessDue (h : Inv s) : SomeInv Prod.fst s.accessDue := .findSome fun _ => .findSome fun _ => .map fun _ _ => h

theorem Inv.unitDue (h : Inv s) : SomeInv Prod.fst s.unitDue :=
  .ite (.some h) (.ite (.some h) (.ite (.some h) .none))

theorem Inv.engineDue (h : Inv s) : SomeInv Prod.fst s.engineDue :=
  .or h.pullDue (.or (.map fun _ _ => h) (.or (.map fun _ _ => h) (.ite (.some h) .none)))

theorem Inv.schedDue (h : Inv s) : SomeInv Prod.fst s.schedDue := by
  unfold State.schedDue
  split
  · exact .some h
  · exact .ite (.some h) (.ite (.some h) (.ite (.some h) (.ite (.some h) (.ite (.some h) .none))))

theorem Inv.fabricDue (h : Inv s) : SomeInv Prod.fst s.fabricDue := by
  unfold State.fabricDue; dsimp only
  have hm : ∀ {γ : Type} {o : Option γ} {f : γ → Instr}, SomeInv Prod.fst (o.map fun x => s.does (f x)) := .map fun _ _ => h
  exact .or hm (.or hm (.or hm (.or hm (.or hm (.or hm hm)))))

theorem Inv.launchDue (h : Inv s) : SomeInv Prod.fst s.launchDue :=
  .or (.ite (.some h) .none) (.or (.map fun _ _ => h) (.map fun _ _ => h))

theorem Inv.quenchDue (h : Inv s) : SomeInv Prod.fst s.quenchDue := .map fun _ _ => h

theorem Inv.due (h : Inv s) : SomeInv Prod.fst s.due :=
  .or h.resultDue <| .or h.pullDue <| .or h.accessDue <| .or (.findSome fun _ => h.farDue) <| .or h.codeDue <| .or h.unitDue <|
    .or h.engineDue <| .or (.ite (.some h) .none) <| .or h.fabricDue <| .or h.launchDue <| .or h.schedDue h.quenchDue

/-! ## The work of the units -/

theorem Inv.cmdUnit (h : Inv s) : SomeInv id s.cmdUnit := .bind fun _ e => .map fun _ _ => (h.focus e).doUnit

theorem Inv.settleWork (h : Inv s) : SomeInv id s.settleWork := .map fun _ _ => h.settle

theorem Inv.advanceWork (h : Inv s) : SomeInv id s.advanceWork := .map fun _ _ => h.advanceChan

theorem Inv.postWork (h : Inv s) : SomeInv id s.postWork := .map fun _ _ => h.postNext

theorem Inv.rowWork (h : Inv s) : SomeInv id s.rowWork := .ite (.some h.enterRow) .none

theorem Inv.dropWork (h : Inv s) : SomeInv id s.dropWork := .map fun _ e => (h.focus e).dropCore

theorem Inv.stopWork (h : Inv s) : SomeInv id s.stopWork := .map fun _ e => ((h.focus e).setCore rfl)

theorem Inv.placeWork (h : Inv s) : SomeInv id s.placeWork := .map fun _ _ => h.placeRoots

theorem Inv.urgentWork (h : Inv s) : SomeInv id s.urgentWork := .map fun _ _ => h.settle

theorem Inv.templateWork (h : Inv s) : SomeInv id s.templateWork := .map fun _ _ => h.recordRead

theorem Inv.logWork (h : Inv s) : SomeInv id s.logWork := .map fun _ _ => h.storeLog

theorem Inv.firstWork {ws : List (State → Option State)} (hw : ∀ w ∈ ws, SomeInv id (w s)) :
    SomeInv id (firstWork s ws) := by
  intro t e
  obtain ⟨w, hm, e⟩ := List.exists_of_findSome?_eq_some e
  exact hw w hm t e

theorem Inv.unitWork (h : Inv s) : SomeInv id s.unitWork := by
  refine Inv.firstWork ?_
  simp only [List.forall_mem_cons]
  exact ⟨h.placeWork, h.settleWork, h.advanceWork, h.postWork, h.cmdUnit, h.rowWork, h.dropWork, h.stopWork, h.templateWork,
    h.logWork, by simp⟩

/-! ## The end of a wait -/

theorem Inv.endWait {w : Wait} (h : Inv s) : SomeInv id (s.endWait w) := by
  unfold State.endWait
  refine .ite .none ?_
  split
  · exact .ite (.some h.finishFence) .none
  · exact .ite (.some (h.setCore (Core.finishMwait_spill ..))) .none
  · exact .ite (.some h.finishWaitp) .none
  · exact .ite (.some h.wake) .none
  · exact .ite (.some (h.setCore rfl)) .none
  · exact .ite .none (.some (h.setCore rfl))
  · exact .none
  · exact .none
  · exact .none
  · exact .none

theorem Inv.waitOver (h : Inv s) : SomeInv id s.waitOver := by
  refine .findSome fun k => .bind fun t e => .map fun u e' => ?_
  exact (SomeInv.findSome (g := id) (fun _ => (h.focus e).endWait) u e').setCore rfl

/-! ## The step -/

theorem Inv.clearMarks (h : Inv s) : Inv s.clearMarks := h.mapCores fun _ w => w

theorem Inv.tick (h : Inv s) : Inv s.tick := by
  unfold State.tick; dsimp only
  exact (h.ite h.count).clearMarks.setDev

theorem Inv.idleStep (h : Inv s) : NextInv s.idleStep := by
  unfold State.idleStep
  split
  · exact (h.urgentWork _ ‹_›).clearMarks
  · split
    · exact Inv.exec (Inv.clearMarks (h.due _ ‹_›)) _
    · split
      · exact (h.unitWork _ ‹_›).clearMarks
      · split
        · exact h.exec _
        · split
          · exact (h.waitOver _ ‹_›).clearMarks
          · split
            · exact (h.focus ‹_›).tryGroup
            · split
              · exact h.clearMarks.exec _
              · exact h.tick

theorem Inv.inertStep (h : Inv s) : NextInv s.inertStep := by
  unfold State.inertStep
  have ha : ∀ r, Inv { s with agenda := r } := fun r => (h.same rfl)
  split
  · exact (ha _).exec _
  · exact (ha _).exec _
  · trivial

theorem Inv.step (h : Inv s) : NextInv (step s) := by
  unfold Machine.step
  split
  · exact h.inertStep
  · split
    · exact (h.focus ‹_›).continueGroup
    · split
      · exact Inv.exec (Inv.clearMarks (h.same (by rfl))) _
      · exact h.idleStep

end

/-- Settles O6: each step is an instruction, an event or a piece of work that is due, or a tick of the clock, and each of them
keeps the invariant. -/
theorem everyStepKeepsCanonicalMemory : Obligations.EveryStepKeepsCanonicalMemory := by
  unfold Obligations.EveryStepKeepsCanonicalMemory
  intro s t h e
  have hn := h.step
  rw [e] at hn
  exact hn

end Sys2Proof.Machine

namespace Sys2Proof.Machine

/-! ## Accumulator rows (R268) -/

section
variable {x : AccRow} {l : List AccRow} {r : Nat}

/-- The row put in its place is the one found under its number. -/
theorem find_accInsert_self (h : ∀ y ∈ l, y.row ≠ x.row) : (accInsert x l).find? (fun y => y.row == x.row) = some x := by
  induction l with
  | nil => simp [accInsert]
  | cons y ys ih =>
    obtain ⟨hy, hys⟩ := List.forall_mem_cons.1 h
    unfold accInsert
    split
    · simpa [hy] using ih hys
    · simp

/-- Every other row is found as before. -/
theorem find_accInsert_other (h : r ≠ x.row) : (accInsert x l).find? (fun y => y.row == r) = l.find? fun y => y.row == r := by
  induction l with
  | nil => simp [accInsert, h.symm]
  | cons y ys ih =>
    unfold accInsert
    split
    · simp only [List.find?_cons, ih]
    · simp [List.find?_cons, h.symm]

/-- The rows kept beside a row written are found as before. -/
theorem find_otherRows (h : r ≠ x.row) :
    (l.filter fun y => y.row != x.row).find? (fun y => y.row == r) = l.find? fun y => y.row == r := by
  rw [List.find?_filter]
  congr 1
  funext y
  by_cases e : y.row = r <;> simp [e, h]

/-- A row written is read back, and every other row reads as before. -/
theorem Core.accRow_setAcc (c : Core) (x : AccRow) (r : Nat) :
    (c.setAcc x).accRow r = if r = x.row then x else c.accRow r := by
  unfold Core.accRow Core.setAcc
  by_cases hr : r = x.row
  · subst hr
    rw [if_pos rfl]
    dsimp only
    split
    · next hz =>
      obtain ⟨hd, hp⟩ := hz
      rw [List.find?_eq_none.2 (by simp)]
      obtain ⟨row, data, poison⟩ := x
      subst hd hp
      rfl
    · rw [find_accInsert_self (by simp)]
      rfl
  · rw [if_neg hr]
    dsimp only
    split
    · rw [find_otherRows hr]
    · rw [find_accInsert_other hr, find_otherRows hr]

end

/-! ## What each step of an MMA writes of a member -/

/-- A row that enters writes the accumulators and the command alone. -/
theorem Core.mmaRow_eq (c : Core) (clk : Nat) (a : ActRow) :
    c.mmaRow clk a = { c with accum := (c.mmaRow clk a).accum, mq := (c.mmaRow clk a).mq } := by
  unfold Core.mmaRow
  split
  · split
    · dsimp only [Core.setAcc]
    · rfl
  · rfl

@[simp] theorem Core.mmaRow_regs (c : Core) (clk : Nat) (a : ActRow) : (c.mmaRow clk a).regs = c.regs := by
  rw [Core.mmaRow_eq]

@[simp] theorem Core.mmaRow_slice (c : Core) (clk : Nat) (a : ActRow) : (c.mmaRow clk a).slice = c.slice := by
  rw [Core.mmaRow_eq]

/-- Row `r` with an activation row summed into it through the member's slice (R273). -/
def Core.summedRow (c : Core) (f : MFmt) (a : ActRow) (r : Nat) : AccRow :=
  { row := r, data := (rowSum f a c.slice (c.accRow r).data).1, poison := (c.accRow r).poison || a.poison || c.slice.poisoned }

/-- The accumulators after the next row of the member's MMA: its row is summed, the others stay. -/
theorem Core.mmaRow_accRow {c : Core} {x : MCmd} {f : MFmt} {row0 rows tiles : Nat} {gr : BitVec 2} {first second : Word}
    {mp : Option Line} {lead : Bool} {d : Nat} {fl : BitVec 5} (hx : c.enterMma = some x)
    (hop : x.op = .mma f row0 rows tiles gr first second mp lead d fl) (clk : Nat) (a : ActRow) (r : Nat) :
    (c.mmaRow clk a).accRow r = if r = row0 + d then c.summedRow f a (row0 + d) else c.accRow r := by
  have e : (c.mmaRow clk a).accRow r = (c.setAcc (c.summedRow f a (row0 + d))).accRow r := by
    unfold Core.mmaRow
    rw [hx]
    dsimp only
    rw [hop]
    dsimp only [Core.accRow, Core.summedRow]
  rw [e, Core.accRow_setAcc]
  rfl

/-- The oldest MMA of a member that completes leaves its queue, with its flags. -/
theorem Core.endMma_of_head {c : Core} {m : MCmd} (h : c.headMma = some m) :
    ∃ g, c.endMma = { c.popCmd m.id with mflags := c.mflags ++ [g] } := by
  have hm : m.isMma = true := List.find?_some h
  unfold Core.endMma
  rw [h]
  dsimp only
  split
  · exact ⟨_, rfl⟩
  · next hno =>
    unfold MCmd.isMma at hm
    split at hm
    · exact (hno _ _ _ _ _ _ _ _ _ _ _ ‹_›).elim
    · cases hm

theorem Core.endMma_of_no_head {c : Core} (h : c.headMma = none) : c.endMma = c := by
  unfold Core.endMma
  rw [h]

/-- The end of an MMA writes the queue, the scoreboard and the flags kept for the merge alone. -/
theorem Core.endMma_eq (c : Core) : c.endMma = { c with mq := c.endMma.mq, sb := c.endMma.sb, mflags := c.endMma.mflags } := by
  cases h : c.headMma with
  | none => rw [Core.endMma_of_no_head h]
  | some m =>
    obtain ⟨g, e⟩ := Core.endMma_of_head h
    rw [e]
    rfl

theorem Core.endMma_mq (c : Core) : c.endMma.mq = c.mq.filter fun y => some y.id != c.headMma.map fun z => z.id := by
  cases h : c.headMma with
  | none =>
    rw [Core.endMma_of_no_head h]
    exact (List.filter_eq_self.2 fun _ _ => rfl).symm
  | some m =>
    obtain ⟨g, e⟩ := Core.endMma_of_head h
    rw [e]
    simp [Core.popCmd, bne]

theorem Core.endsAfter_eq (c : Core) (clk : Nat) : c.endsAfter clk = { c with issueAt := (c.endsAfter clk).issueAt } := by
  unfold Core.endsAfter
  split <;> rfl

/-! ## The quad's steps of an MMA -/

/-- The search finds no core where none meets the condition. -/
theorem focusGo_eq_none {p : Core → Bool} {c : Core} {l : List Core} (h : ∀ d ∈ l, p d = false) :
    ∀ {seen : List Core}, focusGo p c seen l = none := by
  induction l with
  | nil => intro seen; rfl
  | cons d r ih =>
    intro seen
    obtain ⟨hd, hr⟩ := List.forall_mem_cons.1 h
    rw [focusGo, hd]
    exact ih hr

/-- No core comes into focus when none meets the condition. -/
theorem State.focus_eq_none {s : State} {p : Core → Bool} (h : ∀ c ∈ s.cores, p c = false) : s.focus p = none := by
  obtain ⟨hc, hm⟩ := List.forall_mem_cons.1 h
  unfold State.focus
  rw [hc, focusGo_eq_none hm]
  rfl

/-- What every member keeps stands in all cores as before. -/
theorem State.mapCores_cores_map {α : Type} {f : Core → Core} {g h : Core → α} (e : ∀ c, g (f c) = h c) (s : State) :
    (s.mapCores f).cores.map g = s.cores.map h := by
  simp [State.cores, State.mapCores, Function.comp_def, e]

/-- What holds of every member after a change of each holds of the cores of the quad. -/
theorem State.mapCores_forall {s : State} {f : Core → Core} {P : Core → Prop} (h : ∀ c, P (f c)) :
    ∀ c ∈ (s.mapCores f).cores, P c :=
  List.forall_mem_cons.2 ⟨h _, List.forall_mem_map.2 fun _ _ => h _⟩

/-- Memory, registers, slices and accumulators stand as before. -/
theorem State.mapCores_same {f : Core → Core}
    (h : ∀ c, (f c).regs = c.regs ∧ (f c).slice = c.slice ∧ (f c).accum = c.accum) (s : State) :
    (s.mapCores f).mem = s.mem ∧ (s.mapCores f).cores.map (fun c => c.regs) = s.cores.map (fun c => c.regs) ∧
      (s.mapCores f).cores.map (fun c => c.slice) = s.cores.map (fun c => c.slice) ∧
      (s.mapCores f).cores.map (fun c => c.accum) = s.cores.map fun c => c.accum :=
  ⟨rfl, State.mapCores_cores_map (fun c => (h c).1) s, State.mapCores_cores_map (fun c => (h c).2.1) s,
    State.mapCores_cores_map (fun c => (h c).2.2) s⟩

/-- While the gang's MMA runs, its next row enters every member. -/
theorem State.enterRow_eq {s : State} {m : MCmd} (h : s.gangMma = some m) :
    s.enterRow = ((s.holdBanks (m.op.actRanges m.op.entered)).mapCores fun c =>
      c.mmaRow s.dev.clk (s.actRow m.op m.op.entered)).count .mmaRows 1 := by
  unfold State.enterRow
  rw [h]

/-- With no other command due, a completion is that of the gang's oldest MMA. -/
theorem exec_matrixCommandCompletion {s : State} (h : ∀ c ∈ s.cores, s.cmdDue c = none) :
    exec .matrixCommandCompletion s =
      .next (if s.mmaDue then s.mapCores (fun c => c.endMma.endsAfter s.dev.clk) else s) := by
  show execMatrixCommandCompletion s = _
  unfold execMatrixCommandCompletion
  rw [State.focus_eq_none fun c hc => by rw [h c hc]; rfl]

/-- A command as a split at a granule boundary leaves it (R276). -/
def MCmd.splitHere (m : MCmd) : MCmd := if m.isMma then { m with cut := true } else m

/-- A member whose MMAs are split. -/
def Core.splitMmas (c : Core) : Core := { c with mq := c.mq.map MCmd.splitHere }

theorem exec_splitGranuleBoundary (s : State) :
    exec .splitGranuleBoundary s = .next (if s.splitDue then s.mapCores Core.splitMmas else s) := rfl

theorem MCmd.splitHere_cut {m : MCmd} (h : m.splitHere.isMma = true) : m.splitHere.cut = true := by
  unfold MCmd.splitHere at h ⊢
  split
  · rfl
  · next hm => exact absurd (by rwa [if_neg hm] at h) hm

/-- Every MMA of a split member is cut. -/
theorem Core.splitMmas_cut (c : Core) : ∀ y ∈ c.splitMmas.mq, y.isMma = true → y.cut = true :=
  List.forall_mem_map.2 fun _ _ => MCmd.splitHere_cut

/-- A withheld slot meets the gang's MMA: a row of it has entered, or its first is due (R278). -/
def State.slotsMeetMma (s : State) : Bool := s.gangMma.any fun m => decide (m.op.entered ≠ 0) || decide (m.due ≤ s.dev.clk)

/-- A command of a member, the gang's MMA later by the slots withheld from it. -/
def State.lateMma (s : State) (n : Nat) (c : Core) (y : MCmd) : MCmd :=
  if s.slotsMeetMma && some y.id == c.enterMma.map (fun z => z.id) then { y with due := max y.due s.dev.clk + n } else y

theorem exec_powerGovernor (s : State) (n : Nat) :
    exec (.powerGovernor n) s = .next (((s.mapCores fun c => { c with mq := c.mq.map (s.lateMma n c) }).setDev
      { s.dev with throttle := s.dev.throttle + n }).count .throttleSlots n) := rfl

theorem State.lateMma_of_no_meeting {s : State} (h : s.slotsMeetMma = false) (n : Nat) (c : Core) :
    s.lateMma n c = fun y => y := by
  funext y
  simp [State.lateMma, h]

theorem State.lateMma_of_meeting {s : State} (h : s.slotsMeetMma = true) (n : Nat) (c : Core) :
    s.lateMma n c = fun y =>
      if some y.id = c.enterMma.map (fun z => z.id) then { y with due := max y.due s.dev.clk + n } else y := by
  funext y
  simp only [State.lateMma, h, Bool.true_and, beq_iff_eq]

/-! ## O49 -/

/-- Settles O49: a row that enters goes through `Core.mmaRow` into each member, an end through `Core.endMma`; a split marks
the MMAs, and a withheld slot moves the due clk of the gang's MMA. -/
theorem mmaRowsAdvance : Obligations.MmaRowsAdvance := by
  unfold Obligations.MmaRowsAdvance
  refine ⟨?_, fun s => ⟨fun hc => ⟨?_, ?_⟩, ?_, ?_, fun n => ?_⟩⟩
  · intro s m x f row0 rows tiles gr a b mp l d fl hm hx hop
    dsimp only
    rw [State.enterRow_eq hm]
    refine ⟨rfl, State.mapCores_cores_map (fun c => c.mmaRow_regs ..) _,
      State.mapCores_cores_map (fun c => c.mmaRow_slice ..) _, fun r => (Core.mmaRow_accRow hx hop _ _ r).trans ?_⟩
    split
    · next hr => rw [hr]; rfl
    · rfl
  · intro hd
    rw [exec_matrixCommandCompletion hc, hd]
    rfl
  · intro hd
    refine ⟨s.mapCores fun c => c.endMma.endsAfter s.dev.clk, ?_, State.mapCores_same (fun c => ?_) s,
      State.mapCores_cores_map (fun c => ?_) s⟩
    · rw [exec_matrixCommandCompletion hc, hd]
      rfl
    · rw [Core.endsAfter_eq, Core.endMma_eq]
      exact ⟨rfl, rfl, rfl⟩
    · rw [Core.endsAfter_eq]
      exact c.endMma_mq
  · intro hd
    rw [exec_splitGranuleBoundary, hd]
    rfl
  · intro hd
    refine ⟨s.mapCores Core.splitMmas, ?_, State.mapCores_same (f := Core.splitMmas) (fun _ => ⟨rfl, rfl, rfl⟩) s,
      State.mapCores_forall Core.splitMmas_cut⟩
    rw [exec_splitGranuleBoundary, hd]
    rfl
  · have unmoved (h : s.slotsMeetMma = false) : s.core.mq.map (s.lateMma n s.core) = s.core.mq := by
      rw [State.lateMma_of_no_meeting h, List.map_id']
    refine ⟨_, exec_powerGovernor s n, rfl, rfl, rfl, rfl, rfl, fun hg => unmoved ?_,
      fun m hg => ⟨fun h0 hd => unmoved ?_, fun hw => ?_⟩⟩
    · simp [State.slotsMeetMma, hg]
    · simp [State.slotsMeetMma, hg, h0, hd]
    · have meets : s.slotsMeetMma = true := by simpa [State.slotsMeetMma, hg] using hw
      exact congrArg s.core.mq.map (State.lateMma_of_meeting meets n s.core)

end Sys2Proof.Machine

namespace Sys2Proof.Machine

/-! ## Writes to the registers of a core -/

/-- `d` is `c` but for its registers and the marks of the faulted ones. -/
def Core.OnlyRegs (c d : Core) : Prop := ∃ r f, d = { c with regs := r, faults := f }

theorem Core.OnlyRegs.rfl {c : Core} : c.OnlyRegs c := ⟨c.regs, c.faults, by rfl⟩

theorem Core.OnlyRegs.trans {c d e : Core} : c.OnlyRegs d → d.OnlyRegs e → c.OnlyRegs e := by
  rintro ⟨_, _, h⟩ ⟨r, f, g⟩
  subst h
  exact ⟨r, f, g⟩

theorem Core.OnlyRegs.foldl {β : Type} {f : Core → β → Core} (hf : ∀ (c : Core) x, c.OnlyRegs (f c x)) (l : List β) (c : Core) :
    c.OnlyRegs (l.foldl f c) := by
  induction l generalizing c with
  | nil => exact .rfl
  | cons x l ih => exact (hf c x).trans (ih _)

theorem Core.OnlyRegs.setDest (c : Core) (d : Dest) (v : Word) : c.OnlyRegs (c.setDest d v) := ⟨_, _, Core.setDest_eq c d v⟩

theorem Core.OnlyRegs.setVs (ds : List Dest) : ∀ (c : Core) (xs : List VReg), c.OnlyRegs (c.setVs ds xs) := by
  induction ds with
  | nil => exact fun c xs => .rfl
  | cons d ds ih =>
    intro c xs
    cases xs with
    | nil => cases d <;> exact .rfl
    | cons x xs =>
      cases d with
      | v r => exact .trans ⟨_, _, c.setV_eq r x⟩ (ih _ _)
      | n | m | tm | lc | gone => exact ih _ _

/-- A named register after a scalar write to a destination. -/
theorem Core.setDest_n (c : Core) (d : Dest) (v : Word) (k : Fin 32) :
    (c.setDest d v).regs.n[k] = if d = .n k then v else c.regs.n[k] := by
  cases d with
  | n r => simp [Core.setDest, Core.setN_eq, Vector.getElem_set, Fin.ext_iff]
  | m | v | tm | lc | gone => simp [Core.setDest, Core.setM_eq, Core.setLc_eq]

/-- The named registers after a scalar has been written to several destinations. -/
theorem Core.foldl_setDest_n (v : Word) (k : Fin 32) (ds : List Dest) (c : Core) :
    (ds.foldl (fun c d => c.setDest d v) c).regs.n[k] = if Dest.n k ∈ ds then v else c.regs.n[k] := by
  induction ds generalizing c with
  | nil => simp
  | cons d ds ih =>
    rw [List.foldl_cons, ih, Core.setDest_n]
    by_cases hd : d = .n k
    · simp [hd]
    · simp [hd, List.mem_cons, Ne.symm hd]

/-- A scalar reaches no vector register and no tensor map. -/
theorem Core.foldl_setDest_others (v : Word) (ds : List Dest) (c : Core) :
    (ds.foldl (fun c d => c.setDest d v) c).regs.v = c.regs.v ∧ (ds.foldl (fun c d => c.setDest d v) c).regs.tm = c.regs.tm := by
  induction ds generalizing c with
  | nil => exact ⟨rfl, rfl⟩
  | cons d ds ih =>
    obtain ⟨hv, ht⟩ := ih (c.setDest d v)
    exact ⟨hv.trans (by cases d <;> rfl), ht.trans (by cases d <;> rfl)⟩

@[simp] theorem Core.push_regs (c : Core) (e : QEntry) : (c.push e).regs = c.regs := by rw [Core.push_eq]

/-! ## O7 -/

/-- Settles O7: the invariant holds at reset, and every part of the reset state is as the statement has it. -/
theorem resetState : Obligations.ResetState := by
  unfold Obligations.ResetState
  exact ⟨Inv.reset, by decide⟩

/-! ## O16 -/

/-- A result of MOV or MOVI is exactly what `MoveResult` says. -/
theorem State.resultNM_spec (s : State) (d : Option NM) (v : Word) : MoveResult s (s.resultNM d v) d v := by
  have core : (s.resultNM d v).core = (s.core.setOpt (d.map NM.dest) v).push (.arrived v) := rfl
  have hp := Core.push_pushed (s.core.setOpt (d.map NM.dest) v) (.arrived v)
  have frame : s.resultNM d v = s.setCore { s.core with
      bank0 := (s.resultNM d v).core.bank0, bank1 := (s.resultNM d v).core.bank1, bank2 := (s.resultNM d v).core.bank2
      regs := (s.resultNM d v).core.regs, grp := (s.resultNM d v).core.grp
      faults := (s.core.setOpt (d.map NM.dest) v).faults } := by
    show s.setCore _ = _
    rw [core, Core.push_eq, Core.setOpt_eq]
  rcases d with _ | r | k
  · refine ⟨⟨hp.low, hp.mid, hp.high, hp.grp⟩, fun k => ?_, fun k => ?_, ?_, ?_⟩
    · simp [core, Core.setOpt]
    · simp [core, Core.setOpt]
    · simp [core, Core.setOpt]
    · rw [frame]
      simp [Core.setOpt, filter_none, State.setCore]
  · refine ⟨⟨hp.low, hp.mid, hp.high, hp.grp⟩, fun k => ?_, fun k => ?_, ?_, ?_⟩
    · simp [core, Core.setOpt, NM.dest, Core.setDest, Core.setN_eq, Vector.getElem_set, Fin.ext_iff]
    · simp [core, Core.setOpt, NM.dest, Core.setDest, Core.setN_eq]
    · simp [core, Core.setOpt, NM.dest, Core.setDest, Core.setN_eq]
    · rw [frame]
      simp [Core.setOpt, NM.dest, Core.setDest, Core.setN_eq, filter_some, State.setCore]
  · refine ⟨⟨hp.low, hp.mid, hp.high, hp.grp⟩, fun k => ?_, fun k => ?_, ?_, ?_⟩
    · simp [core, Core.setOpt, NM.dest, Core.setDest, Core.setM_eq]
    · simp [core, Core.setOpt, NM.dest, Core.setDest, Core.setM_eq, Vector.getElem_set, Fin.ext_iff]
    · simp [core, Core.setOpt, NM.dest, Core.setDest, Core.setM_eq]
    · rw [frame]
      simp [Core.setOpt, NM.dest, Core.setDest, Core.setM_eq, filter_some, State.setCore]

/-- Settles O16: past the gate, MOV and MOVI are one result each. -/
theorem movesPushAndWriteTheirOperand : Obligations.MovesPushAndWriteTheirOperand := by
  unfold Obligations.MovesPushAndWriteTheirOperand
  refine ⟨fun s d a h => ⟨_, gate_ready _ h, ?_⟩, fun s d v h => ⟨_, gate_ready _ h, s.resultNM_spec d v⟩⟩
  cases a with
  | scalar r => exact s.resultNM_spec d _
  | m k => exact s.resultNM_spec d _
  | lc k =>
    simp only [BitVec.ofNat_toNat]
    exact s.resultNM_spec d _

/-! ## O44 -/

theorem QEntry.settle_eq (id : Nat) (e' e : QEntry) : QEntry.settle id e' e = if e = .pending id then e' else e := by
  cases e <;> simp [QEntry.settle]

/-- A register that is owed to an id. -/
theorem Core.mem_owedTo {c : Core} {id : Nat} {d : Dest} : d ∈ c.owedTo id ↔ (id, d) ∈ c.owed := by
  simp [Core.owedTo]

/-- The results owed once that of `id` is settled: an older one no longer writes a register that `id` has written (R26). -/
def Core.owedPast (c : Core) (id : Nat) : List (Nat × Dest) :=
  (c.owed.filter fun x => x.1 != id).map fun x => if x.1 < id ∧ (id, x.2) ∈ c.owed then (x.1, .gone) else x

/-- A mask register takes the written bits of a mask result; another kind of register is left alone. -/
def Core.mergeMask (bits written : Word) (c : Core) (d : Dest) : Core :=
  match d with
  | .m k => c.setM k ((c.regs.m[k] &&& ~~~written) ||| (bits &&& written))
  | _ => c

/-- A tensor-map register takes a map; another kind of register is left alone. -/
def Core.putMap (x : BitVec 512) (c : Core) (d : Dest) : Core :=
  match d with
  | .tm k => c.setTm k x
  | _ => c

theorem Core.outdate_owedTo (c : Core) (id : Nat) :
    ({ c with owed := c.owed.filter fun x => x.1 != id } : Core).outdate id (c.owedTo id) =
      { c with owed := c.owedPast id } := by
  simp [Core.outdate, Core.owedPast, Core.mem_owedTo]

/-- What a result writes into the core that it has reached: the queue entries of a scalar, and the registers owed to it. -/
def Core.fill (c : Core) (id : Nat) (ds : List Dest) : PVal → Core
  | .scalar v => ds.foldl (fun c d => c.setDest d v) (c.mapBanks (QEntry.settle id (.arrived v)))
  | .vec vs => c.setVs ds vs
  | .mask bits written => ds.foldl (Core.mergeMask bits written) c
  | .tmap y => ds.foldl (Core.putMap y) c

theorem Core.deliver_eq (c : Core) (id : Nat) (x : PVal) :
    c.deliver id x = ({ c with owed := c.owedPast id } : Core).fill id (c.owedTo id) x := by
  unfold Core.deliver
  dsimp only
  rw [Core.outdate_owedTo]
  cases x <;> rfl

theorem Core.noteVec_eq (c : Core) (clk : Nat) (p : Pend) : c.noteVec clk p = { c with vecNew := (c.noteVec clk p).vecNew } := by
  unfold Core.noteVec
  split <;> rfl

/-- A core for which result `p` is no longer pending, before anything of it is written. -/
def Core.unowed (c : Core) (clk : Nat) (p : Pend) : Core :=
  { c with
    pend := c.pend.filter fun x => x.id != p.id, owed := c.owedPast p.id, vecNew := (c.noteVec clk p).vecNew }

theorem Core.arrive_eq (c : Core) (clk : Nat) (p : Pend) :
    c.arrive clk p = ((c.unowed clk p).fill p.id (c.owedTo p.id) p.value).mergeFlags p.flags := by
  unfold Core.arrive
  dsimp only
  rw [Core.deliver_eq, Core.noteVec_eq]
  rfl

/-- A result's arrival writes the banks, the registers and the marks of faulted ones alone. -/
theorem Core.fill_frame (c : Core) (id : Nat) (ds : List Dest) (x : PVal) : ∃ b0 b1 b2 r f,
    c.fill id ds x = { c with bank0 := b0, bank1 := b1, bank2 := b2, regs := r, faults := f } := by
  cases x with
  | scalar v =>
    obtain ⟨r, f, h⟩ := Core.OnlyRegs.foldl (fun c d => Core.OnlyRegs.setDest c d v) ds
      (c.mapBanks (QEntry.settle id (.arrived v)))
    exact ⟨_, _, _, r, f, h⟩
  | vec vs =>
    obtain ⟨r, f, h⟩ := Core.OnlyRegs.setVs ds c vs
    exact ⟨_, _, _, r, f, h⟩
  | mask bits written =>
    obtain ⟨r, f, h⟩ := Core.OnlyRegs.foldl (f := Core.mergeMask bits written)
      (fun c d => by cases d <;> exact ⟨_, _, rfl⟩) ds c
    exact ⟨_, _, _, r, f, h⟩
  | tmap y =>
    obtain ⟨r, f, h⟩ := Core.OnlyRegs.foldl (f := Core.putMap y)
      (fun c d => by cases d <;> exact ⟨_, _, rfl⟩) ds c
    exact ⟨_, _, _, r, f, h⟩

/-- A scalar's arrival leaves the entries that do not wait for it. -/
theorem Core.fill_scalar_banks (c : Core) (id : Nat) (ds : List Dest) (v : Word) :
    let put (b : List QEntry) : List QEntry := b.map fun e => if e = .pending id then .arrived v else e
    (c.fill id ds (.scalar v)).bank0 = put c.bank0 ∧ (c.fill id ds (.scalar v)).bank1 = put c.bank1 ∧
      (c.fill id ds (.scalar v)).bank2 = put c.bank2 := by
  obtain ⟨r, f, h⟩ := Core.OnlyRegs.foldl (fun c d => Core.OnlyRegs.setDest c d v) ds
    (c.mapBanks (QEntry.settle id (.arrived v)))
  dsimp only [Core.fill]
  rw [h]
  simp only [Core.mapBanks, ← QEntry.settle_eq, and_self]

/-- A mask's merge is done once: a second one to the same register finds the written bits as they are. -/
theorem merge_merge (m x w : Word) : (((m &&& ~~~w) ||| (x &&& w)) &&& ~~~w) ||| (x &&& w) = (m &&& ~~~w) ||| (x &&& w) := by
  ext i
  simp only [BitVec.getElem_or, BitVec.getElem_and, BitVec.getElem_not]
  cases w[i] <;> simp

/-- The mask registers after a mask result has been merged into several destinations. -/
theorem Core.foldl_mergeMask_m (bits written : Word) (k : Fin 8) (ds : List Dest) (c : Core) :
    (ds.foldl (Core.mergeMask bits written) c).regs.m[k] =
      if Dest.m k ∈ ds then (c.regs.m[k] &&& ~~~written) ||| (bits &&& written) else c.regs.m[k] := by
  induction ds generalizing c with
  | nil => simp
  | cons d ds ih =>
    have step : (Core.mergeMask bits written c d).regs.m[k] =
        if d = .m k then (c.regs.m[k] &&& ~~~written) ||| (bits &&& written) else c.regs.m[k] := by
      cases d with
      | m j =>
        by_cases h : j = k
        · subst h
          simp [Core.mergeMask, Core.setM_eq]
        · simp [Core.mergeMask, Core.setM_eq, h, Fin.val_ne_of_ne h]
      | n | v | tm | lc | gone => simp [Core.mergeMask]
    rw [List.foldl_cons, ih, step]
    by_cases hd : d = .m k
    · simp [hd, merge_merge]
    · simp [hd, List.mem_cons, Ne.symm hd]

/-- A mask result writes no register of another kind, and no queue entry. -/
theorem Core.foldl_mergeMask_others (bits written : Word) (ds : List Dest) (c : Core) :
    ∃ m f, ds.foldl (Core.mergeMask bits written) c = { c with regs := { c.regs with m := m }, faults := f } := by
  induction ds generalizing c with
  | nil => exact ⟨_, _, rfl⟩
  | cons d ds ih =>
    obtain ⟨m, f, h⟩ := ih (c.mergeMask bits written d)
    rw [List.foldl_cons, h]
    cases d <;> exact ⟨m, f, rfl⟩

/-- A due result that reaches its core is exactly what `ResultIn` says. -/
theorem State.arrive_spec (s : State) (p : Pend) : ResultIn s (s.setCore (s.core.arrive s.dev.clk p)) p := by
  rw [Core.arrive_eq]
  generalize hc : s.core.unowed s.dev.clk p = c
  have b0 : c.bank0 = s.core.bank0 := by rw [← hc]; rfl
  have b1 : c.bank1 = s.core.bank1 := by rw [← hc]; rfl
  have b2 : c.bank2 = s.core.bank2 := by rw [← hc]; rfl
  have regs : c.regs = s.core.regs := by rw [← hc]; rfl
  refine ⟨?_, fun v hv => ?_, fun x r hv ho => ?_, fun x w hv => ?_⟩
  · obtain ⟨b0, b1, b2, r, f, h⟩ := c.fill_frame p.id (s.core.owedTo p.id) p.value
    rw [h, ← hc]
    rfl
  · obtain ⟨h0, h1, h2⟩ := c.fill_scalar_banks p.id (s.core.owedTo p.id) v
    rw [hv, ← b0, ← b1, ← b2, ← regs]
    refine ⟨h0, h1, h2, fun k => ?_, Core.foldl_setDest_others v _ _⟩
    exact (Core.foldl_setDest_n v k _ _).trans (if_congr Core.mem_owedTo rfl rfl)
  · have one : s.core.owedTo p.id = [.v r] := by rw [Core.owedTo, ho]; rfl
    rw [hv, one, ← b0, ← b1, ← b2, ← regs]
    refine ⟨rfl, rfl, rfl, rfl, rfl, fun k => ?_⟩
    show (c.setV r x).regs.v[k] = _
    simp [Core.setV_eq, Vector.getElem_set, Fin.ext_iff, eq_comm]
  · obtain ⟨m, f, h⟩ := Core.foldl_mergeMask_others x w (s.core.owedTo p.id) c
    rw [hv, ← b0, ← b1, ← b2, ← regs]
    simp only [Core.fill]
    refine ⟨?_, ?_, ?_, ?_, ?_, fun k => ?_⟩
    · rw [h]; rfl
    · rw [h]; rfl
    · rw [h]; rfl
    · rw [h]; rfl
    · rw [h]; rfl
    · exact (Core.foldl_mergeMask_m x w k _ c).trans (if_congr Core.mem_owedTo rfl rfl)

/-- Settles O44: the core in focus has the due result, which arrives there; with no due result no core comes into focus. -/
theorem resultsArrive : Obligations.ResultsArrive := by
  unfold Obligations.ResultsArrive
  refine fun s => ⟨fun p h => ⟨_, ?_, s.arrive_spec p⟩, fun p h => ⟨_, ?_, s.arrive_spec p⟩, fun p h => ⟨_, ?_, s.arrive_spec p⟩,
    fun id h => ?_⟩
  · show execResultArrival p.id s = _
    unfold execResultArrival State.onCore
    dsimp only
    rw [State.focus_self (List.any_of_mem (List.mem_of_find?_eq_some h) (List.find?_some h))]
    dsimp only [State.pendDue]
    rw [h]
  · show Host.Outcome.next (s.dividerArrives .idiv) = _
    have e : s.kindDue .idiv s.core = some p := h
    unfold State.dividerArrives State.onCore
    rw [State.focus_self (by rw [e]; rfl)]
    dsimp only
    rw [e]
  · show Host.Outcome.next (s.dividerArrives .fdiv) = _
    have e : s.kindDue .fdiv s.core = some p := h
    unfold State.dividerArrives State.onCore
    rw [State.focus_self (by rw [e]; rfl)]
    dsimp only
    rw [e]
  · show execResultArrival id s = _
    unfold execResultArrival State.onCore
    dsimp only
    rw [State.focus_eq_none]
    intro c hc
    simp only [List.any_eq_false, Bool.and_eq_true, beq_iff_eq, not_and]
    intro x hx hid
    have := h c hc x hx hid
    simp [State.pendDue]
    omega

end Sys2Proof.Machine

namespace Sys2Proof.Machine

/-! ## O42 -/

/-- TVAL of trap 0x16 as the statements write it. -/
theorem tvalBits_eq (i : Instr) : tvalBits i = wordBits i := by
  unfold tvalBits wordBits
  cases encode i <;> rfl

/-- Bits [2:0] of a word are zero where it is a multiple of 8. -/
theorem lowBits_eq_zero_iff (v : Word) : v.extractLsb' 0 3 = 0#3 ↔ v.toNat % 8 = 0 := by
  rw [BitVec.toNat_eq]
  simp [BitVec.extractLsb'_toNat]

/-- The bounds of the spill stack, in numbers (R48). -/
theorem State.boundsOk_iff (s : State) (lim base : Word) : s.boundsOk lim base = true ↔
    lim.toNat % 8 = 0 ∧ base.toNat % 8 = 0 ∧ lim.toNat ≤ s.core.sp.toNat ∧ s.core.sp.toNat ≤ base.toNat ∧
      base.toNat ≤ 4096 * partS s.cl.part := by
  simp [State.boundsOk, lowBits_eq_zero_iff, and_assoc]

section
variable {s : State} {a : Src} {num : BitVec 12}

/-- A SYSWR of a register that none may write, or that a higher level alone may write, traps. -/
theorem exec_syswr_trapped (h : ready (.syswr a num) s = true) (hl : ∀ l, sysWriteLevel num.toNat = some l → s.core.level < l) :
    exec (.syswr a num) s = .next (takeTrap s 0x16 (wordBits (.syswr a num)) s.core.pc s.core.grp.off 0) := by
  refine (gate_ready _ h).trans ?_
  rw [← tvalBits_eq]
  split
  · rfl
  · next l e => rw [if_pos (hl l e)]; rfl

/-- A SYSWR at a level that may write its register. -/
theorem exec_syswr_writes {l : Nat} (h : ready (.syswr a num) s = true) (hw : sysWriteLevel num.toNat = some l)
    (hl : l ≤ s.core.level) (hf : num.toNat ≠ 8 ∨ s.core.fstatReady = true) :
    exec (.syswr a num) s = .next (s.sysWrite num.toNat (s.src a)) := by
  refine (gate_ready _ h).trans ?_
  have ready : (decide (num.toNat = 8) && !s.core.fstatReady) = false := by
    obtain hf | hf := hf <;> simp [hf]
  rw [hw]
  dsimp only
  rw [if_neg (by omega), ready]
  rfl

/-- A SYSWR of register `n`, which level `l` and those above it may write. -/
theorem exec_syswr_level (h : ready (.syswr a num) s = true) (n l : Nat) (done : Prop) (hw : sysWriteLevel n = some l)
    (hf : n ≠ 8 ∨ s.core.fstatReady = true)
    (hd : exec (.syswr a num) s = .next (s.sysWrite n (s.src a)) → done) (hn : num.toNat = n) :
    (l ≤ s.core.level → done) ∧ (s.core.level < l →
      exec (.syswr a num) s = .next (takeTrap s 0x16 (wordBits (.syswr a num)) s.core.pc s.core.grp.off 0)) := by
  subst hn
  exact ⟨fun hl => hd (exec_syswr_writes h hw hl hf),
    fun hl => exec_syswr_trapped h fun k e => by rw [hw] at e; cases e; exact hl⟩

end

/-- SPBASE is written where the bounds and a pending CALL or RET allow it. -/
theorem State.sysWrite_spbase (s : State) (v : Word) : s.sysWrite 0x09 v =
    if s.boundsOk s.core.splim v = true ∧ ({ s.core with spbase := v } : Core).xferBad s.core.sp = none then
      s.setCore { s.core with spbase := v } else s.trap 0x12 v := by
  simp [State.sysWrite]

/-- SPLIM is written where the bounds and a pending CALL or RET allow it. -/
theorem State.sysWrite_splim (s : State) (v : Word) : s.sysWrite 0x0A v =
    if s.boundsOk v s.core.spbase = true ∧ ({ s.core with splim := v } : Core).xferBad s.core.sp = none then
      s.setCore { s.core with splim := v } else s.trap 0x12 v := by
  simp [State.sysWrite]

/-- COMMITCNT takes 0 alone in its bits [15:0]. -/
theorem State.sysWrite_commitcnt (s : State) (v : Word) : s.sysWrite 0x0F v =
    if v.toNat % 2 ^ 16 = 0 then s.setCore { s.core with commit := [] } else s.trap 0x12 v := by
  simp [State.sysWrite, BitVec.toNat_eq, BitVec.extractLsb'_toNat]

/-- Settles O42, register by register: `exec_syswr_level` for those that some level may write. -/
theorem syswrWrites : Obligations.SyswrWrites := by
  unfold Obligations.SyswrWrites
  intro s a num h
  have level := exec_syswr_level h
  have never (n : Nat) (hn : sysWriteLevel n = none) (e : num.toNat = n) := exec_syswr_trapped h (by simp [e, hn])
  simp only [← State.boundsOk_iff]
  refine ⟨fun n hn => never n (by revert n; decide), fun hn => exec_syswr_trapped h ?_, level 0x02 1 _ rfl (.inl (by decide)) id,
    level 0x03 2 _ rfl (.inl (by decide)) id, level 0x04 1 _ rfl (.inl (by decide)) id, level 0x05 2 _ rfl (.inl (by decide)) id,
    fun hf => level 0x08 0 _ rfl (.inr hf) id, fun hb => level 0x09 1 _ rfl (.inl (by decide)) fun e => ?_,
    fun hb => level 0x09 1 _ rfl (.inl (by decide)) fun e => ?_, fun hb => level 0x0A 1 _ rfl (.inl (by decide)) fun e => ?_,
    fun hb => level 0x0A 1 _ rfl (.inl (by decide)) fun e => ?_, fun hv => level 0x0F 1 _ rfl (.inl (by decide)) fun e => ?_,
    fun hv => level 0x0F 1 _ rfl (.inl (by decide)) fun e => ?_, level 0x11 0 _ rfl (.inl (by decide)) id, fun k hk => ?_⟩
  · have none_of_high (n : Nat) (h : 0x100 ≤ n) : sysWriteLevel n = none := by
      unfold sysWriteLevel
      split <;> simp at h ⊢
    simp [none_of_high _ hn]
  · rw [e, State.sysWrite_spbase, if_pos hb]; rfl
  · rw [e, State.sysWrite_spbase, if_neg hb]; rfl
  · rw [e, State.sysWrite_splim, if_pos hb]; rfl
  · rw [e, State.sysWrite_splim, if_neg hb]; rfl
  · rw [e, State.sysWrite_commitcnt, if_pos (by simp [hv])]; rfl
  · rw [e, State.sysWrite_commitcnt, if_neg hv]; rfl
  · obtain rfl | rfl | rfl : k = 1 ∨ k = 2 ∨ k = 3 := by revert k; decide
    · exact level 0x12 2 _ rfl (.inl (by decide)) id
    · exact level 0x13 2 _ rfl (.inl (by decide)) id
    · exact level 0x14 2 _ rfl (.inl (by decide)) id

end Sys2Proof.Machine

namespace Sys2Proof.Machine

/-! ## Words of the spill region (R48) -/

/-- Bytes that read alike are read alike in a row. -/
theorem Mem.bytes_congr {m m' : List Host.Cell} (n : Nat) :
    ∀ {a : Nat}, (∀ b, a ≤ b → b < a + n → Mem.read m' b = Mem.read m b) → Mem.bytes m' a n = Mem.bytes m a n := by
  induction n with
  | zero => intro a _; rfl
  | succ n ih =>
    intro a h
    rw [Mem.bytes, Mem.bytes, h a (Nat.le_refl a) (by omega), ih fun b hb hn => h b (by omega) (by omega)]

/-- A word stands as before where its bytes do. -/
theorem Mem.word_congr {m m' : List Host.Cell} {a : Nat} (h : ∀ b, a ≤ b → b < a + 8 → Mem.read m' b = Mem.read m b) :
    Mem.word m' a = Mem.word m a := by
  rw [Mem.word, Mem.nat, Mem.bytes_congr 8 h]
  rfl

/-- A word written changes its 8 bytes alone. -/
theorem Mem.read_setWord_other {m : List Host.Cell} {a b : Nat} (v : Word) (w : Memory.wf m = true) (h : b < a ∨ a + 8 ≤ b) :
    Mem.read (Mem.setWord m a v) b = Mem.read m b :=
  Mem.read_writeBytes_other _ w (by rwa [leBytes_length])

/-- Two words whose spill offsets are 8 to 2^64 - 8 apart share no byte. -/
theorem word_apart (off : Word) {d b : Nat} (h : 8 ≤ d) (h' : d + 8 ≤ 2 ^ 64) (hb : off.toNat ≤ b) (hb' : b < off.toNat + 8) :
    b < (off + BitVec.ofNat 64 d).toNat ∨ (off + BitVec.ofNat 64 d).toNat + 8 ≤ b := by
  rw [BitVec.toNat_add, BitVec.toNat_ofNat]
  omega

/-- The spill offset of a later word, counted from the second. -/
theorem spillOffset_succ (off : Word) (k : Nat) : off + 8 + BitVec.ofNat 64 (8 * k) = off + BitVec.ofNat 64 (8 * (k + 1)) := by
  apply BitVec.eq_of_toNat_eq
  simp only [BitVec.toNat_add, BitVec.toNat_ofNat, BitVec.ofNat_eq_ofNat]
  omega

theorem Core.spillWords_eq (vs : List Word) :
    ∀ (c : Core) (off : Word), c.spillWords off vs = { c with spill := (c.spillWords off vs).spill } := by
  induction vs with
  | nil => intro c off; rfl
  | cons v vs ih => intro c off; exact ih _ _

/-- Words written to the spill region leave every byte outside them. -/
theorem Core.spillWords_kept (vs : List Word) :
    ∀ {c : Core} (off : Word), Memory.wf c.spill = true → SpillKept c.spill (c.spillWords off vs).spill off vs.length := by
  induction vs with
  | nil => exact fun _ _ _ _ => rfl
  | cons v vs ih =>
    intro c off w a ha
    have first : a < off.toNat ∨ off.toNat + 8 ≤ a := by simpa using ha 0 (by simp)
    have rest : ∀ k < vs.length, a < (off + 8 + BitVec.ofNat 64 (8 * k)).toNat ∨
        (off + 8 + BitVec.ofNat 64 (8 * k)).toNat + 8 ≤ a := fun k hk => by
      rw [spillOffset_succ]
      exact ha (k + 1) (by simpa using hk)
    exact (ih (c := c.setSpillWord off v) (off + 8) (Mem.setWord_wf _ v w) a rest).trans (Mem.read_setWord_other v w first)

/-- Words written to the spill region stand there: there are too few of them for one to reach another round the end of the
offsets. -/
theorem Core.spillWords_holds (vs : List Word) :
    ∀ {c : Core} (off : Word), Memory.wf c.spill = true → 8 * vs.length ≤ 2 ^ 64 →
      SpillHolds (c.spillWords off vs).spill off vs := by
  induction vs with
  | nil => intro c off _ _ k v h; simp at h
  | cons v vs ih =>
    intro c off w hl k x hx
    simp only [List.length_cons] at hl
    have wf : Memory.wf (c.setSpillWord off v).spill = true := Mem.setWord_wf _ v w
    cases k with
    | zero =>
      obtain rfl : v = x := by simpa using hx
      have kept := Core.spillWords_kept vs (off + 8) wf
      have here : (off + BitVec.ofNat 64 (8 * 0)).toNat = off.toNat := by simp
      rw [here]
      refine (Mem.word_congr fun b hb hb' => kept b fun k hk => ?_).trans (Mem.word_setWord off.toNat v w)
      rw [spillOffset_succ]
      exact word_apart off (by omega) (by omega) hb hb'
    | succ k =>
      rw [← spillOffset_succ]
      exact ih (off + 8) wf (by omega) k x (by simpa using hx)

/-! ## Named registers loaded from the spill region (R54) -/

theorem Core.loadWords_n_other {r : Fin 32} (rs : List (Fin 32)) :
    ∀ (c : Core) (off : Word), r ∉ rs → (c.loadWords off rs).regs.n[r] = c.regs.n[r] := by
  induction rs with
  | nil => intro c off _; rfl
  | cons q rs ih =>
    intro c off h
    rw [List.mem_cons, not_or] at h
    refine (ih _ _ h.2).trans ?_
    exact (c.setDest_n (.n q) _ r).trans (if_neg fun e => h.1 (Dest.n.inj e).symm)

/-- The `k`-th register of a list without doubles takes the `k`-th word. -/
theorem Core.loadWords_n {r : Fin 32} (rs : List (Fin 32)) :
    ∀ (c : Core) (off : Word) (k : Nat), rs.Nodup → rs[k]? = some r →
      (c.loadWords off rs).regs.n[r] = Mem.word c.spill (off + BitVec.ofNat 64 (8 * k)).toNat := by
  induction rs with
  | nil => intro c off k _ h; simp at h
  | cons q rs ih =>
    intro c off k hd hk
    obtain ⟨hq, hd⟩ := List.nodup_cons.1 hd
    cases k with
    | zero =>
      obtain rfl : q = r := by simpa using hk
      refine (Core.loadWords_n_other rs _ _ hq).trans ?_
      refine (c.setDest_n (.n q) _ q).trans ?_
      simp [Core.spillWord]
    | succ k =>
      rw [← spillOffset_succ]
      exact ih _ _ k hd (by simpa using hk)

theorem Core.loadWords_eq (rs : List (Fin 32)) :
    ∀ (c : Core) (off : Word), c.loadWords off rs =
      { c with
        regs := { c.regs with n := (c.loadWords off rs).regs.n }
        faults := c.faults.filter fun x => !(rs.map Dest.n).contains x.1 } := by
  induction rs with
  | nil => intro c off; simp [Core.loadWords]
  | cons r rs ih =>
    intro c off
    rw [Core.loadWords, ih, Core.setN_eq]
    simp only [List.filter_filter, List.map_cons, List.contains_cons, Bool.not_or, Bool.and_comm]
    rfl

theorem ngroup_getElem? {first last r : Fin 32} (h : first ≤ r) (h' : r ≤ last) :
    (ngroup first last)[r.val - first.val]? = some r := by
  have hf : first.val ≤ r.val := h
  have hl : r.val ≤ last.val := h'
  rw [ngroup, List.getElem?_map, List.getElem?_range (by omega)]
  simp [hf]

theorem mem_ngroup {first last r : Fin 32} : r ∈ ngroup first last ↔ first ≤ r ∧ r ≤ last := by
  constructor
  · intro h
    obtain ⟨i, hi, rfl⟩ := List.mem_map.1 h
    rw [List.mem_range] at hi
    simp only [Fin.le_def, Fin.val_ofNat]
    omega
  · exact fun ⟨h, h'⟩ => List.mem_of_getElem? (ngroup_getElem? h h')

theorem ngroup_nodup (first last : Fin 32) : (ngroup first last).Nodup := by
  refine List.Nodup.map_on (fun i hi j hj e => ?_) List.nodup_range
  rw [List.mem_range] at hi hj
  have := congrArg Fin.val e
  simp only [Fin.val_ofNat] at this
  omega

theorem ngroup_length_le (first last : Fin 32) : (ngroup first last).length ≤ 32 := by
  simp only [ngroup, List.length_map, List.length_range]
  omega

/-! ## O17 -/

section
variable {s : State} {bad : Bool} {new : Word} {move : Core → Core}

theorem State.moveSp_moves (hb : ¬ bad = true) (hx : s.core.xferBad new = none) :
    s.moveSp bad new move = .next (s.setCore { move s.core with sp := new }) := by
  rw [State.moveSp, if_neg hb, hx]

theorem State.moveSp_owed (hb : ¬ bad = true) {x : Word} (hx : s.core.xferBad new = some x) :
    s.moveSp bad new move = .next (s.trap 0x12 x) := by
  rw [State.moveSp, if_neg hb, hx]

theorem State.moveSp_refused (hb : bad = true) : s.moveSp bad new move = .next (s.trap 0x12 new) := by
  rw [State.moveSp, if_pos hb]

end

theorem Core.belowLim_iff {c : Core} {new : Word} : c.belowLim new = true ↔ new.toInt < c.splim.toInt := BitVec.slt_iff_toInt_lt

theorem Core.aboveBase_iff {c : Core} {new : Word} : c.aboveBase new = true ↔ c.spbase.toInt < new.toInt :=
  BitVec.slt_iff_toInt_lt

/-- An immediate is a multiple of 8 where its word's low bits are zero. -/
theorem simm_lowBits (adj : BitVec 48) : (simm adj).extractLsb' 0 3 = 0#3 ↔ adj.toNat % 8 = 0 := by
  rw [lowBits_eq_zero_iff, simm, BitVec.toNat_signExtend]
  have : adj.toNat < 2 ^ 48 := adj.isLt
  split <;> simp only [BitVec.toNat_setWidth] <;> omega

theorem simm_msb (adj : BitVec 48) : (simm adj).msb = true ↔ adj.toInt < 0 := by
  rw [BitVec.msb_eq_toInt, simm, BitVec.toInt_signExtend_of_le (by decide), decide_eq_true_iff]

/-- How far a negative immediate moves %sp down. -/
theorem toNat_sub_add_simm (sp : Word) {adj : BitVec 48} (h : adj.toInt < 0) :
    (sp - (sp + simm adj)).toNat = adj.toInt.natAbs := by
  have e : sp - (sp + simm adj) = - simm adj := by
    rw [BitVec.sub_eq_add_neg, BitVec.neg_add, BitVec.sub_eq_add_neg, ← BitVec.add_assoc, BitVec.add_right_neg, BitVec.zero_add]
  have i : (simm adj).toInt = adj.toInt := by rw [simm, BitVec.toInt_signExtend_of_le (by decide)]
  have := (simm adj).isLt
  rw [e, ← i, BitVec.toNat_neg]
  rw [← i] at h
  rw [BitVec.toInt_eq_toNat_cond] at h ⊢
  split at h <;> omega

/-- Settles O17: past the gate each of the three is `State.moveSp`, and its words stand where `Core.spillWords` and
`Core.loadWords` put or find them. -/
theorem spillStackMoves : Obligations.SpillStackMoves := by
  unfold Obligations.SpillStackMoves
  refine ⟨fun s first last hi h => ?_, fun s first last hle h => ?_, fun s adj hi h => ?_⟩
  · have run : exec (.pushm first last) s = _ := gate_ready _ h
    dsimp only
    rw [run, ← not_lt, ← Core.belowLim_iff]
    refine ⟨fun hb hx => ⟨_, State.moveSp_moves hb hx, ⟨?_⟩, ?_, ?_⟩, fun x hb hx => State.moveSp_owed hb hx,
      State.moveSp_refused⟩
    · rw [Core.spillWords_eq]; rfl
    · refine Core.spillWords_holds _ _ hi.core ?_
      have := ngroup_length_le first last
      rw [List.length_map]
      omega
    · have kept := Core.spillWords_kept ((ngroup first last).map fun r => s.core.view.n[r])
        (s.core.sp - BitVec.ofNat 64 (8 * (ngroup first last).length)) hi.core
      rwa [List.length_map] at kept
  · have run : exec (.popm first last) s = _ := gate_ready _ h
    dsimp only
    rw [run, ← not_lt, ← Core.aboveBase_iff]
    refine ⟨fun hb hx => ⟨_, State.moveSp_moves hb hx, fun r => ?_, ?_⟩, fun x hb hx => State.moveSp_owed hb hx,
      State.moveSp_refused⟩
    · split
      · next hr => exact Core.loadWords_n _ _ _ _ (ngroup_nodup first last) (ngroup_getElem? hr.1 hr.2)
      · next hr => exact Core.loadWords_n_other _ _ _ (mt mem_ngroup.1 hr)
    · rw [Core.loadWords_eq]; rfl
  · have run : exec (.spadj adj) s = _ := gate_ready _ h
    dsimp only
    rw [run, ← simm_lowBits]
    have bad : (s.core.belowLim (s.core.sp + simm adj) || s.core.aboveBase (s.core.sp + simm adj)) = true ↔
        (s.core.sp + simm adj).toInt < s.core.splim.toInt ∨ s.core.spbase.toInt < (s.core.sp + simm adj).toInt := by
      rw [Bool.or_eq_true, Core.belowLim_iff, Core.aboveBase_iff]
    refine ⟨fun ha hl hb hx => ⟨_, (if_neg (not_not.2 ha)).trans (State.moveSp_moves (mt bad.1 ?_) hx), fun hn => ?_, fun hn => ?_⟩,
      fun x ha hl hb hx => ?_, fun ha ho => ?_, fun ha => ?_⟩
    · omega
    · rw [← not_lt, ← simm_msb] at hn
      simp only [if_neg hn]
      exact ⟨⟨rfl⟩, rfl⟩
    · have few : 8 * (List.replicate (adj.toInt.natAbs / 8) (0 : Word)).length ≤ 2 ^ 64 := by
        have := BitVec.le_toInt adj
        rw [List.length_replicate]
        omega
      simp only [if_pos ((simm_msb adj).2 hn), Core.zeroFill, toNat_sub_add_simm s.core.sp hn]
      refine ⟨⟨?_⟩, Core.spillWords_holds _ _ hi.core few, ?_⟩
      · rw [Core.spillWords_eq]; rfl
      · have kept := Core.spillWords_kept (List.replicate (adj.toInt.natAbs / 8) 0) (s.core.sp + simm adj) hi.core
        rwa [List.length_replicate] at kept
    · exact (if_neg (not_not.2 ha)).trans (State.moveSp_owed (mt bad.1 (by omega)) hx)
    · exact (if_neg (not_not.2 ha)).trans (State.moveSp_refused (bad.2 ho))
    · exact if_pos (mt (simm_lowBits adj).1 ha)

end Sys2Proof.Machine

namespace Sys2Proof.Machine

/-! ## O33 -/

/-- A core at reset but for eight TMAPSETs on their way, one to each tensor-map register. -/
def eightMapsOwed : State :=
  State.reset.setCore { State.reset.core with owed := (List.finRange 8).map fun k => (k.val, Dest.tm k) }

/-- The eight TMAPSETs fill the command queue, so that an AZERO stalls (R270). -/
theorem exec_azero_eightMapsOwed : exec (.azero 0 0) eightMapsOwed = stall eightMapsOwed := by rfl

/-- Refutes O33: R270 counts the TMAPSETs that are on their way among the eight commands of a core, and the model stalls a
matrix command behind eight of them. `CommandRoom` counts the queue's own entries alone, so it holds with that queue empty,
and the AZERO does not take the place that the statement gives it. -/
theorem not_matrixCommandsQueue : ¬ Obligations.MatrixCommandsQueue := by
  unfold Obligations.MatrixCommandsQueue
  intro h
  obtain ⟨-, azero, -⟩ := h eightMapsOwed (.special .zero) (.special .zero) 0 0 0 0
  obtain ⟨t, run, queued⟩ := azero (by decide) (by decide) ⟨rfl, by decide, by decide⟩
  rw [exec_azero_eightMapsOwed, stall_eq] at run
  cases run
  have mq := congrArg (fun u : State => u.core.mq.length) queued.frame
  exact absurd mq (by decide)

end Sys2Proof.Machine

namespace Sys2Proof.Machine

/-! ## O40: TRET as it issues (R110, R319) -/

theorem transfer_badPointer {s : State} {p : Word} {c : Byte} (h : pointerCheck p = some c) (sp : Option (Byte × Word)) (x : Xfer) :
    transfer s p sp x = .next (s.trap c p) := by
  unfold transfer
  rw [h]

theorem transfer_good {s : State} {p : Word} (h : GoodTarget s p) (x : Xfer) : transfer s p none x = .next (s.setXfer x) := by
  obtain ⟨l, hl, target⟩ := h.line
  unfold transfer
  rw [h.pointer]
  dsimp only
  rw [hl]
  dsimp only
  rw [target, Bool.or_true, if_pos rfl]

/-- TRET of either form past the gate: at TL0 it traps; above, it stands by unless a RET that SYSWR wrote is a bad pointer. -/
theorem tret_stands {s : State} {i : Instr} {v : Option Word}
    (run : exec i s = if s.core.level = 0 then .next (s.privilege i) else tretIssue s v) :
    let r := s.core.trapRegs s.core.level
    (s.core.level = 0 → exec i s = .next (takeTrap s 0x16 (wordBits i) s.core.pc s.core.grp.off 0)) ∧
    (s.core.level ≠ 0 → r.written = false → ∃ t, exec i s = .next t ∧ TransferSet s t (.tret v)) ∧
    (s.core.level ≠ 0 → r.written = true → GoodTarget s r.ret → ∃ t, exec i s = .next t ∧ TransferSet s t (.tret v)) ∧
    (∀ c, s.core.level ≠ 0 → r.written = true → pointerCheck r.ret = some c →
      exec i s = .next (takeTrap s c r.ret s.core.pc s.core.grp.off 0)) := by
  rw [run, tretIssue]
  refine ⟨fun h => ?_, fun h hw => ⟨_, ?_, s.setXfer_spec _⟩, fun h hw hg => ⟨_, ?_, s.setXfer_spec _⟩, fun c h hw hc => ?_⟩
  · rw [if_pos h, State.privilege, tvalBits_eq]; rfl
  · rw [if_neg h, if_neg (by simp [hw])]
  · rw [if_neg h, if_pos hw, transfer_good hg]
  · rw [if_neg h, if_pos hw, transfer_badPointer hc]; rfl

/-! ## O40: the return (R319, R320) -/

/-- The state in which TRET has left its bank and its level: the firing is at RET, with its group offset and its group's
pending transfer. -/
def State.returned (s : State) : State :=
  let t := s.core.trapRegs s.core.level
  s.setCore
    { s.core.setBank s.core.level zeroBank with
      level := s.core.level - 1, pc := t.ret, entry := if t.cause.getLsbD 11 then some .retried else none
      issueAt := s.dev.clk + 4, grp := { Grp.none with off := (t.cause.extractLsb' 8 3).toNat, xfer := t.xfer } }

theorem State.tretNow_none {s : State} (h : (s.core.trapRegs s.core.level).cause.getLsbD 13 = false) :
    s.tretNow none = s.returned.recheck := by
  unfold State.tretNow
  dsimp only
  rw [h]
  rfl

/-- The state in which TRET.V has supplied its value to the instruction at RET, and the firing is at the slot after it. -/
def State.suppliedAt (s : State) (w : Option IWord) (v ret : Word) : State :=
  let u := match w with
    | some w => s.supply w v
    | none => s
  u.setCore { u.core with pc := nextPtr ret }

theorem State.tretNow_some {s : State} {v : Word} (h : (s.core.trapRegs s.core.level).cause.getLsbD 13 = false)
    (hd : (s.core.trapRegs s.core.level).cause.getLsbD 12 = false) (hs : (s.core.trapRegs s.core.level).cause.getLsbD 11 = false)
    (hc : ((s.core.trapRegs s.core.level).cause.extractLsb' 0 8).toNat < 0x80) :
    s.tretNow (some v) = (s.returned.suppliedAt (s.core.trapRegs s.core.level).word v (s.core.trapRegs s.core.level).ret).recheck := by
  have own : ((s.core.trapRegs s.core.level).cause.getLsbD 11 ||
      decide (0x80 ≤ ((s.core.trapRegs s.core.level).cause.extractLsb' 0 8).toNat)) = false := by
    rw [hs, Bool.false_or, decide_eq_false (by omega)]
  unfold State.tretNow
  dsimp only
  rw [h, hd, own]
  rfl

theorem State.recheck_of_none {s : State} (h : s.core.xferBad s.core.sp = none) : s.recheck = s := by
  rw [State.recheck, h]

theorem State.recheck_of_some {s : State} {x : Word} (h : s.core.xferBad s.core.sp = some x) : s.recheck = s.trap 0x12 x := by
  rw [State.recheck, h]

/-- What a pending CALL or RET may do rests on the transfer and the bounds alone. -/
theorem Core.xferBad_congr {c d : Core} (hx : d.grp.xfer = c.grp.xfer) (hl : d.splim = c.splim) (hb : d.spbase = c.spbase)
    (new : Word) : d.xferBad new = c.xferBad new := by
  unfold Core.xferBad Core.belowLim Core.aboveBase
  rw [hx, hl, hb]

/-- A value supplied is pushed and written; of the core nothing else changes. -/
theorem State.supply_frame (s : State) (w : IWord) (v : Word) : ∃ b0 b1 b2 r f o n, s.supply w v =
    s.setCore { s.core with
      bank0 := b0, bank1 := b1, bank2 := b2, regs := r, faults := f, owed := o, grp := { s.core.grp with off := n } } := by
  have pushed (l : List Nat) : ∀ c : Core, ∃ b0 b1 b2 n, l.foldl (fun c _ => c.push (.arrived v)) c =
      { c with bank0 := b0, bank1 := b1, bank2 := b2, grp := { c.grp with off := n } } := by
    induction l with
    | nil => exact fun c => ⟨_, _, _, _, rfl⟩
    | cons _ l ih =>
      intro c
      obtain ⟨b0, b1, b2, n, h⟩ := ih (c.push (.arrived v))
      rw [List.foldl_cons, h, Core.push_eq]
      exact ⟨b0, b1, b2, n, rfl⟩
  obtain ⟨b0, b1, b2, n, h⟩ := pushed (List.range (wordTakes w).1) s.core
  unfold State.supply
  dsimp only
  rw [h]
  split
  · exact ⟨b0, b1, b2, _, _, _, n, rfl⟩
  · obtain ⟨r, f, g⟩ := Core.OnlyRegs.foldl (fun c d => Core.OnlyRegs.setDest c d v) (wordTakes w).2 (Core.outdate _ s.id (wordTakes w).2)
    rw [Core.putDests, g]
    exact ⟨b0, b1, b2, r, f, _, n, rfl⟩

/-- The value of TRET.V for a word of one position. -/
theorem State.supply_one {s : State} {w : IWord} {ds : List Dest} (h : wordTakes w = (1, ds)) (v : Word) :
    s.supply w v = s.setCore ((s.core.push (.arrived v)).putDests s.id ds v) := by
  unfold State.supply
  rw [h]
  rfl

theorem Core.putDests_n (c : Core) (id : Nat) (ds : List Dest) (v : Word) (k : Fin 32) :
    (c.putDests id ds v).regs.n[k] = if Dest.n k ∈ ds then v else c.regs.n[k] := Core.foldl_setDest_n v k ds _

/-- What `putDests` leaves of the banks and the group. -/
theorem Core.putDests_frame (c : Core) (id : Nat) (ds : List Dest) (v : Word) :
    (c.putDests id ds v).grp = c.grp ∧ ∀ l, (c.putDests id ds v).bank l = c.bank l := by
  obtain ⟨r, f, g⟩ := Core.OnlyRegs.foldl (fun c d => Core.OnlyRegs.setDest c d v) ds (c.outdate id ds)
  rw [Core.putDests, g]
  exact ⟨rfl, fun l => by rcases l with _ | _ | l <;> rfl⟩

theorem Core.bank_setBank_pred (c : Core) {l : Nat} (hl : l = 1 ∨ l = 2) (b : List QEntry) :
    (c.setBank l b).bank (l - 1) = c.bank (l - 1) := by
  obtain rfl | rfl := hl <;> rfl

/-- The group's pending transfer is checked at the return as it stood when the trap was taken. -/
theorem State.returned_xferBad (s : State) : s.returned.core.xferBad s.returned.core.sp =
    ({ s.core with grp := { s.core.grp with xfer := (s.core.trapRegs s.core.level).xfer } } : Core).xferBad s.core.sp := by
  unfold State.returned
  rw [Core.setBank_eq]
  exact Core.xferBad_congr rfl rfl rfl _

/-- The end of a group whose TRET stands by. -/
theorem State.finishGroup_tret {s : State} {v : Option Word} (h : s.core.grp.xfer = some (.tret v))
    (hc : (s.core.trapRegs s.core.level).completes v = false) : s.finishGroup = s.tretNow v := by
  unfold State.finishGroup State.finishAt
  rw [h]
  dsimp only
  rw [hc]
  rfl

/-- The end of a group whose TRET.V completes the group that it returns to, with a jump pending there. -/
theorem State.finishGroup_completes {s : State} {v : Option Word} {p : Word} (h : s.core.grp.xfer = some (.tret v))
    (hc : (s.core.trapRegs s.core.level).completes v = true) (he : (s.tretNow v).core.entry = none)
    (hj : (s.tretNow v).core.grp.xfer = some (.jump p)) : s.finishGroup = (s.tretNow v).continueAt p 2 := by
  unfold State.finishGroup State.finishAt
  rw [h]
  dsimp only
  rw [hc, he]
  show State.finishAt 1 (s.tretNow v) _ = _
  unfold State.finishAt
  rw [hj]
  dsimp only
  rw [State.makeXfer, hj]

/-- The fields of the state that TRET returns to. -/
theorem State.returned_spec {s : State} (hl : s.core.level = 1 ∨ s.core.level = 2) :
    let l := s.core.level
    let r := s.core.trapRegs l
    let t := s.returned
    t.core.level = l - 1 ∧ t.core.pc = r.ret ∧ t.core.grp.off = (r.cause.extractLsb' 8 3).toNat ∧ t.core.grp.xfer = r.xfer ∧
      t.core.issueAt = s.dev.clk + 4 ∧ t.core.bank l = zeroBank ∧ t.core.bank (l - 1) = s.core.bank (l - 1) ∧
      t.core.regs = s.core.regs ∧ t.core.trap1 = s.core.trap1 ∧ t.core.trap2 = s.core.trap2 ∧ t.mem = s.mem := by
  have other := s.core.bank_setBank_pred hl zeroBank
  unfold State.returned
  refine ⟨rfl, rfl, rfl, rfl, rfl, s.core.bank_setBank s.core.level zeroBank, other, ?_, ?_, ?_, rfl⟩
  · rw [Core.setBank_eq]; rfl
  · rw [Core.setBank_eq]; rfl
  · rw [Core.setBank_eq]; rfl

/-- A pending CALL or RET that is refused at the return traps there: the firing is back in its handler's level. -/
theorem State.returned_refused {s : State} (hl : s.core.level = 1 ∨ s.core.level = 2) {x : Word}
    (hx : s.returned.core.xferBad s.returned.core.sp = some x) :
    let l := s.core.level
    let r := s.core.trapRegs l
    let t := s.returned.recheck
    t.core.level = l ∧ IsCause (t.core.trapRegs l).cause 0x12 (r.cause.extractLsb' 8 3).toNat ∧
      (t.core.trapRegs l).ret = r.ret ∧ (t.core.trapRegs l).tval = x ∧ t.core.bank (l - 1) = s.core.bank (l - 1) ∧
      t.core.regs = s.core.regs ∧ t.core.sp = s.core.sp ∧ t.core.spill = s.core.spill ∧ t.mem = s.mem := by
  obtain ⟨level, pc, off, -, -, -, bank, regs, -, -, mem⟩ := State.returned_spec hl
  have stack : s.returned.core.sp = s.core.sp ∧ s.returned.core.spill = s.core.spill := by
    unfold State.returned
    rw [Core.setBank_eq]
    exact ⟨rfl, rfl⟩
  have e := takeTrap_spec s.returned (by omega) 0x12 x s.returned.core.pc s.returned.core.grp.off
  rw [State.recheck_of_some hx]
  dsimp only
  rw [← off, ← pc, ← bank, ← regs, ← stack.1, ← stack.2, ← mem]
  have up : s.returned.core.level + 1 = s.core.level := by omega
  rw [← up, Nat.add_sub_cancel]
  refine ⟨e.level, e.cause, e.ret, e.tval, ?_, e.regs.1, e.regs.2.1, e.regs.2.2.1, e.mem⟩
  obtain h0 | h1 : s.returned.core.level = 0 ∨ s.returned.core.level = 1 := by omega
  · rw [h0]; exact (e.below.2 h0).1
  · rw [h1]; exact (e.below.1 h1).2.1

/-- The fields of the state that TRET.V leaves, with its value supplied to an instruction of one position. -/
theorem State.suppliedAt_spec {s : State} {w : IWord} {j : Instr} (hj : decode w = .ok j) (hp : pushes j = 1) (v ret : Word) :
    let t := s.suppliedAt (some w) v ret
    t.core.level = s.core.level ∧ t.core.pc = nextPtr ret ∧ t.core.grp.off = s.core.grp.off + 1 ∧ t.core.grp.xfer = s.core.grp.xfer ∧
      t.core.bank s.core.level = pushedBank (s.core.bank s.core.level) (.arrived v) ∧
      (∀ k : Fin 32, t.core.regs.n[k] = if Dest.n k ∈ dests j then v else s.core.regs.n[k]) ∧ t.mem = s.mem := by
  have takes : wordTakes w = (1, dests j) := by rw [wordTakes, hj, ← hp]
  obtain ⟨grp, bank⟩ := (s.core.push (.arrived v)).putDests_frame s.id (dests j) v
  have regs := (s.core.push (.arrived v)).putDests_n s.id (dests j) v
  have level : ((s.core.push (.arrived v)).putDests s.id (dests j) v).level = s.core.level := by
    obtain ⟨r, f, g⟩ := Core.OnlyRegs.foldl (fun c d => Core.OnlyRegs.setDest c d v) (dests j)
      ((s.core.push (.arrived v)).outdate s.id (dests j))
    rw [Core.putDests, g, Core.push_eq]
    rfl
  unfold State.suppliedAt
  dsimp only
  rw [State.supply_one takes]
  refine ⟨level, rfl, ?_, ?_, ?_, fun k => ?_, rfl⟩
  · exact (congrArg Grp.off grp).trans (congrArg Grp.off (Core.push_pushed s.core (.arrived v)).grp)
  · exact (congrArg Grp.xfer grp).trans (by rw [(Core.push_pushed s.core (.arrived v)).grp])
  · exact (bank _).trans (Core.push_bank s.core (.arrived v))
  · exact (regs k).trans (by rw [Core.push_regs])

/-- Whatever TRET.V supplies, its level, its entry, its group's transfer and its bounds are those of the return. -/
theorem State.suppliedAt_frame (s : State) (w : Option IWord) (v ret : Word) :
    let t := s.suppliedAt w v ret
    t.core.level = s.core.level ∧ t.core.entry = s.core.entry ∧ t.core.grp.xfer = s.core.grp.xfer ∧
      t.core.xferBad t.core.sp = s.core.xferBad s.core.sp := by
  cases w with
  | none => exact ⟨rfl, rfl, rfl, Core.xferBad_congr rfl rfl rfl _⟩
  | some w =>
    obtain ⟨b0, b1, b2, r, f, o, n, h⟩ := s.supply_frame w v
    unfold State.suppliedAt
    dsimp only
    rw [h]
    exact ⟨rfl, rfl, rfl, Core.xferBad_congr rfl rfl rfl _⟩

/-- Settles O40: TRET's issue is `tret_stands`, its return `State.returned`, and TRET.V's value `State.suppliedAt`. -/
theorem tretReturns : Obligations.TretReturns := by
  unfold Obligations.TretReturns
  intro s a
  refine ⟨fun h => tret_stands (gate_ready _ h), fun h => tret_stands (gate_ready _ h), fun hl h13 => ?_⟩
  rw [← s.returned_xferBad]
  obtain ⟨level, pc, off, xfer, rest⟩ := State.returned_spec hl
  refine ⟨fun x ht hx => ?_, fun ht hx => ?_, fun v w j ht h12 h11 hc hw hj hp hn hx => ?_, fun v p ht h12 h11 hc hlast hxf => ?_⟩
  · rw [State.finishGroup_tret ht rfl, State.tretNow_none h13]
    exact State.returned_refused hl hx
  · rw [State.finishGroup_tret ht rfl, State.tretNow_none h13, State.recheck_of_none hx]
    exact ⟨level, pc, off, xfer, rest⟩
  · have waits : (s.core.trapRegs s.core.level).completes (some v) = false := by
      obtain hn | hn := hn <;> simp [TrapRegs.completes, hn]
    obtain ⟨-, -, -, owed⟩ := s.returned.suppliedAt_frame (some w) v (s.core.trapRegs s.core.level).ret
    obtain ⟨level', pc', off', xfer', bank', regs', mem'⟩ :=
      s.returned.suppliedAt_spec hj hp v (s.core.trapRegs s.core.level).ret
    obtain ⟨-, -, bank, regs, -, -, mem⟩ := rest
    rw [level, bank] at bank'
    rw [State.finishGroup_tret ht waits, State.tretNow_some h13 h12 h11 hc, hw, State.recheck_of_none (owed.trans hx)]
    refine ⟨level'.trans level, pc', off'.trans (by rw [off]), xfer'.trans xfer, bank', fun k => ?_, mem'.trans mem⟩
    rw [regs', regs]
  · have completes : (s.core.trapRegs s.core.level).completes (some v) = true := by
      simp only [TrapRegs.completes, hlast, hxf, h11, h12, h13, hc]
      rfl
    obtain ⟨level', entry', xfer', owed⟩ :=
      s.returned.suppliedAt_frame (s.core.trapRegs s.core.level).word v (s.core.trapRegs s.core.level).ret
    have jump : s.returned.core.grp.xfer = some (.jump p) := xfer.trans hxf
    have fits : s.returned.core.xferBad s.returned.core.sp = none := by rw [Core.xferBad, jump]
    have entry : s.returned.core.entry = none := by
      show (if (s.core.trapRegs s.core.level).cause.getLsbD 11 then some Entry.retried else none) = none
      rw [h11]
      rfl
    have now := State.tretNow_some (v := v) h13 h12 h11 hc
    rw [State.recheck_of_none (owed.trans fits)] at now
    rw [State.finishGroup_completes ht completes (now ▸ entry'.trans entry) (now ▸ xfer'.trans jump), now]
    exact ⟨level'.trans level, rfl⟩

end Sys2Proof.Machine

namespace Sys2Proof.Machine

/-! ## What lies below the instructions -/

/-- A state without what translation, the memory port, the caches, the sluices, the catch basin and the Nysil sessions change:
the rest of it stands above them. -/
def State.above (s : State) : State :=
  { s with
    cl := { s.cl with
      poison := [], nearTags := [], evFloor := 0, nc := [], llc := [], tlb := [], tlbGens := [], tlbRefused := [], modes := []
      hbmPoison := [], basin := [], floors := [], sluice := [], pendingRegs := [], majors := [], roots := [], metaCache := []
      ticketNext := 0, tickets := [], counts := [] }
    dev := { s.dev with reqs := [], sessions := [], svc := Service.reset, pcie := [] }
    mem := [], outbox := [], agenda := [] }

/-- From `s` to `t` only what lies below the instructions changes, and of the agenda no step is lost. -/
structure Below (s t : State) : Prop where
  above : t.above = s.above
  agenda : s.agenda <+: t.agenda

theorem Below.rfl {s : State} : Below s s := ⟨.refl _, List.prefix_rfl⟩

theorem Below.trans {s t u : State} (h : Below s t) (g : Below t u) : Below s u :=
  ⟨g.above.trans h.above, h.agenda.trans g.agenda⟩

/-- The two branches of a choice. -/
theorem Below.ite {s t u : State} {p : Prop} [Decidable p] (h : Below s t) (g : Below s u) :
    Below s (if p then t else u) := by split <;> assumption

theorem State.send_below (s : State) (m : Msg) : Below s (s.send m) := ⟨rfl, List.prefix_rfl⟩
theorem State.queue_below (s : State) (i : Instr) : Below s (s.queue i) := ⟨rfl, List.prefix_append ..⟩
theorem State.count_below (s : State) (k : Cnt) (n : Nat) : Below s (s.count k n) := ⟨rfl, List.prefix_rfl⟩
theorem State.setMem_below (s : State) (m : List Host.Cell) : Below s (s.setMem m) := ⟨rfl, List.prefix_rfl⟩

theorem State.setCl_below {s : State} {c : Cluster} (h : (s.setCl c).above = s.above) : Below s (s.setCl c) :=
  ⟨h, List.prefix_rfl⟩

theorem State.setDev_below {s : State} {d : Device} (h : (s.setDev d).above = s.above) : Below s (s.setDev d) :=
  ⟨h, List.prefix_rfl⟩

/-! ## Translation -/

theorem State.watchSpace_below (s : State) (d : SpaceDesc) : Below s (s.watchSpace d) := by
  unfold State.watchSpace
  exact Below.ite .rfl (Below.ite (setCl_below rfl) (setCl_below rfl))

theorem State.tlbFill_below (s : State) (d : SpaceDesc) (va : Word) (l : Leaf) : Below s (s.tlbFill d va l) := by
  unfold State.tlbFill; dsimp only; split
  · exact s.watchSpace_below d
  · exact (s.watchSpace_below d).trans (setCl_below rfl)

theorem State.setFrameMode_below (s : State) (pa : Nat) (m : BitVec 2) : Below s (s.setFrameMode pa m) := setCl_below rfl

theorem State.leafFor_below (s : State) (d : SpaceDesc) (va : Word) : Below s (s.leafFor d va).1 := by
  unfold State.leafFor; split
  · exact .rfl
  · split
    · exact s.tlbFill_below ..
    · exact .rfl
    · exact .rfl

theorem State.translate_below (s : State) (sp : BitVec 16) (va : Word) (n : Need) : Below s (s.translate sp va n).1 := by
  unfold State.translate; split
  · exact .rfl
  · rename_i d _
    have h := s.leafFor_below d va
    split <;> rename_i e <;> rw [e] at h
    · exact h
    · exact h
    · exact h

/-! ## Sealed memory -/

theorem State.setRoot_below (s : State) (r v : Nat) : Below s (s.setRoot r v) := setCl_below rfl

theorem State.cacheNode_below (s : State) (k : MetaKey) (l : Line) : Below s (s.cacheNode k l) := setCl_below rfl

theorem State.setMajorSource_below (s : State) (k : BitVec 6) (v : Word) : Below s (s.setMajorSource k v) := setCl_below rfl

theorem State.setHbmPoison_below (s : State) (pa : Nat) (b : Bool) : Below s (s.setHbmPoison pa b) := setCl_below rfl

theorem State.writeHbm_below (s : State) (pa : Nat) (bs : List Byte) : Below s (s.writeHbm pa bs) :=
  setMem_below _ _

theorem State.obtain_below (s : State) (f l v : Nat) : Below s (s.obtain f l v).1 := by
  unfold State.obtain; dsimp only
  split
  · exact .rfl
  · split
    · exact s.cacheNode_below ..
    · split
      · exact s.cacheNode_below ..
      · exact s.count_below ..

theorem State.parents_below (s : State) (f : Nat) : Below s (s.parents f).1 := by
  unfold State.parents
  have h := s.obtain_below f 3 (s.rootOf (f / 64))
  split <;> rename_i e <;> rw [e] at h
  · exact h
  · rename_i s' n3
    have h2 := s'.obtain_below f 2 (versionIn n3 (f / 8 % 8))
    split <;> rename_i e2 <;> rw [e2] at h2 <;> exact h.trans h2

theorem State.block_below (s : State) (f : Nat) : Below s (s.block f).1 := by
  unfold State.block
  split
  · exact s.count_below ..
  · split
    · exact s.obtain_below ..
    · have h := s.parents_below f
      split <;> rename_i e <;> rw [e] at h
      · exact h
      · exact h.trans (obtain_below ..)

theorem State.path_below (s : State) (f : Nat) : Below s (s.path f).1 := by
  unfold State.path; dsimp only
  have h := s.parents_below f
  split <;> rename_i e <;> rw [e] at h
  · exact h
  · rename_i s' n3 n2
    have h2 := s'.obtain_below f 1 (versionIn n2 (f % 8))
    split <;> rename_i e2 <;> rw [e2] at h2
    · exact h.trans h2
    · split
      · exact (h.trans h2).trans (count_below ..)
      · exact h.trans h2

theorem State.updatePath_below (s : State) (f : Nat) (p : Path) (cb : Line) : Below s (s.updatePath f p cb) := by
  unfold State.updatePath; dsimp only
  exact (((((((((s.writeHbm_below ..).trans (writeHbm_below ..)).trans (writeHbm_below ..)).trans (writeHbm_below ..)).trans
    (setRoot_below ..)).trans (cacheNode_below ..)).trans (cacheNode_below ..)).trans (cacheNode_below ..)).trans (count_below ..))

theorem State.putSealed_below (s : State) (keys : BitVec 256 × BitVec 256) (f j : Nat) (va : Word) (major : BitVec 64)
    (minor : BitVec 7) (plain : List Byte) : Below s (s.putSealed keys f j va major minor plain) :=
  (s.writeHbm_below ..).trans (writeHbm_below ..)

theorem State.putPage_below (keys : BitVec 256 × BitVec 256) (f : Nat) (page : Word) (major : BitVec 64) (n : Nat) :
    ∀ (s : State) (j : Nat) (bs : List Byte), Below s (s.putPage keys f page major n j bs) := by
  induction n with
  | zero => intro s j bs; exact .rfl
  | succ n ih => intro s j bs; exact (s.putSealed_below ..).trans (ih ..)

theorem State.freshMajor_below {s : State} {k : BitVec 6} {x : Word × State} (h : s.freshMajor k = some x) : Below s x.2 := by
  unfold State.freshMajor at h; dsimp only at h
  split at h
  · cases h
  · cases h; exact s.setMajorSource_below ..

theorem State.sealedInit_below (s : State) (sp : BitVec 16) (f : Nat) (page : Word) (data : List Byte) :
    Below s (s.sealedInit sp f page data).1 := by
  unfold State.sealedInit
  split
  · exact .rfl
  · have h := s.path_below f
    split <;> rename_i e <;> rw [e] at h
    · exact h
    · split
      · exact h
      · split
        · exact h
        · rename_i hf
          exact ((h.trans (freshMajor_below hf)).trans (putPage_below ..)).trans ((updatePath_below ..).trans (count_below ..))

theorem State.recrypt_below (keys : BitVec 256 × BitVec 256) (f : Nat) (page : Word) (old : Line) (major : BitVec 64) (n : Nat) :
    ∀ (s : State) (j : Nat), Below s (s.recrypt keys f page old major n j) := by
  induction n with
  | zero => intro s j; exact .rfl
  | succ n ih =>
    intro s j
    unfold State.recrypt; dsimp only
    refine Below.trans ?_ (ih ..)
    split
    · exact s.putSealed_below ..
    · have h : Below s (if s.hbmPoisoned (s.base + 4096 * f + 64 * j) then s else s.count .macFailures 1) := Below.ite .rfl (s.count_below ..)
      exact h.trans ((putSealed_below ..).trans (setHbmPoison_below ..))

theorem State.overflow_below {s t : State} {slot : BitVec 6} {keys : BitVec 256 × BitVec 256} {f j : Nat} {page : Word}
    {plain : List Byte} {p : Path} (h : s.overflow slot keys f j page plain p = some t) : Below s t := by
  unfold State.overflow at h; dsimp only at h
  obtain ⟨x, hx, rfl⟩ := Option.map_eq_some_iff.1 h
  have hs : Below s x.2 := by
    split at hx
    · exact freshMajor_below hx
    · cases hx; exact .rfl
  exact (hs.trans (recrypt_below ..)).trans ((putSealed_below ..).trans ((updatePath_below ..).trans (count_below ..)))

theorem State.sealWrite_below (s : State) (sp : BitVec 16) (va : Word) (pa : Nat) (plain : List Byte) (p : Bool) :
    Below s (s.sealWrite sp va pa plain p) := by
  unfold State.sealWrite; dsimp only
  split
  · exact s.count_below ..
  · have h := s.path_below (s.frameOf pa)
    split <;> rename_i e <;> rw [e] at h
    · exact h.trans (setHbmPoison_below ..)
    · split
      · exact h.trans (setHbmPoison_below ..)
      · split
        · split
          · rename_i ho; exact (h.trans (overflow_below ho)).trans (setHbmPoison_below ..)
          · exact h.trans (setHbmPoison_below ..)
        · exact (h.trans (putSealed_below ..)).trans ((updatePath_below ..).trans (setHbmPoison_below ..))

theorem State.sealRead_below (s : State) (sp : BitVec 16) (va : Word) (pa : Nat) : Below s (s.sealRead sp va pa).1 := by
  unfold State.sealRead; dsimp only
  split
  · exact s.count_below ..
  · have h := s.block_below (s.frameOf pa)
    split <;> rename_i e <;> rw [e] at h
    · exact h
    · split
      · exact h
      · split
        · exact h
        · exact h.trans (count_below ..)

theorem State.portRead_below (s : State) (sp : BitVec 16) (va : Word) (pa : Nat) (m : BitVec 2) :
    Below s (s.portRead sp va pa m).1 := by
  unfold State.portRead; dsimp only
  split
  · exact .rfl
  · split
    · split
      · exact s.count_below ..
      · exact .rfl
    · have h := s.sealRead_below sp va pa
      split <;> rename_i e <;> rw [e] at h <;> exact h

theorem State.portWrite_below (s : State) (sp : BitVec 16) (va : Word) (pa : Nat) (m : BitVec 2) (plain : List Byte) (p : Bool) :
    Below s (s.portWrite sp va pa m plain p) := by
  unfold State.portWrite
  split
  · exact (s.writeHbm_below ..).trans (setHbmPoison_below ..)
  · split
    · split
      · exact s.count_below ..
      · exact (s.writeHbm_below ..).trans (setHbmPoison_below ..)
    · exact s.sealWrite_below ..

/-! ## The near cache and the LLC -/

theorem State.raiseEvFloor_below (s : State) (t : BitVec 16) : Below s (s.raiseEvFloor t) := setCl_below rfl

theorem State.ncFront_below (s : State) (n : NcLine) : Below s (s.ncFront n) := setCl_below rfl

theorem State.llcPut_below (s : State) (n : LlcLine) : Below s (s.llcPut n) := by
  unfold State.llcPut; dsimp only
  have h (l : List LlcLine) : Below s (s.setCl { s.cl with llc := l }) := setCl_below rfl
  split
  · exact h _
  · split
    · exact h _
    · exact (h _).trans ((raiseEvFloor_below ..).trans (raiseEvFloor_below ..))

theorem State.writeBack_below (s : State) (n : NcLine) : Below s (s.writeBack n) := by
  unfold State.writeBack; split
  · exact .rfl
  · exact (s.portWrite_below ..).trans ((llcPut_below ..).trans (ncFront_below ..))

theorem State.ncDrop_below (s : State) (n : NcLine) : Below s (s.ncDrop n) := by
  unfold State.ncDrop; dsimp only
  have h : Below s ((s.writeBack n).setCl
      { (s.writeBack n).cl with nc := (s.writeBack n).ncRest n }) :=
    (s.writeBack_below n).trans (setCl_below rfl)
  split
  · exact h
  · exact h.trans ((raiseEvFloor_below ..).trans (raiseEvFloor_below ..))

theorem State.ncPut_below (s : State) (n : NcLine) : Below s (s.ncPut n) := by
  unfold State.ncPut; split
  · exact s.ncFront_below n
  · exact (s.ncDrop_below _).trans (ncFront_below ..)

theorem State.fetchLine_below (s : State) (sp : BitVec 16) (va : Word) (n : Need) : Below s (s.fetchLine sp va n).1 := by
  have h := s.translate_below sp va n
  unfold State.fetchLine
  split <;> rename_i e <;> rw [e] at h
  · exact h
  · exact h
  · exact h
  · dsimp only
    split
    · split
      · exact h.trans (llcPut_below ..)
      · exact h
    · split
      · exact h.trans ((setFrameMode_below ..).trans (llcPut_below ..))
      · rename_i s' pa pte _ _ _
        have hi := (s'.setFrameMode pa (pteMode pte)).sealedInit_below sp ((s'.setFrameMode pa (pteMode pte)).frameOf pa)
          (va - BitVec.ofNat 64 (pa % 4096)) (List.replicate 4096 0)
        have hs : Below s (s'.setFrameMode pa (pteMode pte)) := h.trans (setFrameMode_below ..)
        split <;> rename_i e' <;> rw [e'] at hi
        · exact hs.trans hi
        · exact hs.trans (hi.trans (llcPut_below ..))
        · exact hs.trans (hi.trans ((setHbmPoison_below ..).trans (llcPut_below ..)))
        · exact hs.trans (llcPut_below ..)

theorem State.getLine_below (s : State) (sp : BitVec 16) (va : Word) (k : Bool) : Below s (s.getLine sp va k).1 := by
  unfold State.getLine
  split
  · exact s.ncFront_below _
  · split
    · exact .rfl
    · rename_i l _
      have h := s.portRead_below sp va l.pa l.mode
      dsimp only
      split
      · exact h.trans (ncPut_below ..)
      · exact h

theorem State.checkLines_below (sp : BitVec 16) (need : Need) (gs : List Nat) :
    ∀ s : State, Below s (s.checkLines sp need gs).1 := by
  induction gs with
  | nil => intro s; exact .rfl
  | cons g gs ih =>
    intro s
    unfold State.checkLines; dsimp only
    split
    · exact ih s
    · split
      · split
        · exact ih s
        · exact .rfl
      · have h := s.fetchLine_below sp (s.lineVa g) need
        split <;> rename_i e <;> rw [e] at h
        · exact h
        · exact h.trans (ih _)

theorem State.readIn_below (s : State) (sp : BitVec 16) (off n : Nat) (a : Bool) : Below s (s.readIn sp off n a).1 := by
  unfold State.readIn
  split
  · exact .rfl
  · dsimp only
    generalize (a || !((s.llcFind sp (s.lineVa off)).map (·.na)).getD false) = k
    have h := s.getLine_below sp (s.lineVa off) k
    split <;> rename_i e <;> rw [e] at h <;> exact h

theorem State.readGo_below (sp : BitVec 16) (off n : Nat) (a : Bool) (gs : List Nat) :
    ∀ s : State, Below s (s.readGo sp off n a gs).1 := by
  induction gs with
  | nil => intro s; exact .rfl
  | cons g gs ih => intro s; exact (s.readIn_below ..).trans (ih _)

theorem State.readAt_below (s : State) (sp : BitVec 16) (off n : Nat) (a : Bool) : Below s (s.readAt sp off n a).1 :=
  readGo_below ..

theorem State.setPoison_below (s : State) (off : Nat) (b : Bool) : Below s (s.setPoison off b) := setCl_below rfl

theorem State.stampNear_below (s : State) (off n : Nat) : Below s (s.stampNear off n) := setCl_below rfl

theorem State.stampPaged_below (s : State) (sp : BitVec 16) (lo n : Nat) : Below s (s.stampPaged sp lo n) := setCl_below rfl

theorem State.writeIn_below (s : State) (sp : BitVec 16) (off : Nat) (bs : List Byte) (a c : Bool) :
    Below s (s.writeIn sp off bs a c) := by
  unfold State.writeIn
  split
  · dsimp only
    have h : Below s ((s.setMem (Mem.writeBytes s.mem off bs)).stampNear off bs.length) :=
      (setMem_below _ _).trans (stampNear_below ..)
    split
    · exact h.trans (setPoison_below ..)
    · exact h
  · dsimp only
    generalize (a || (s.ncFind sp (s.lineVa off)).isSome || !((s.llcFind sp (s.lineVa off)).map (·.na)).getD false) = k
    have h := s.getLine_below sp (s.lineVa off) k
    split <;> rename_i e <;> rw [e] at h
    · exact h
    · split
      · exact h.trans ((ncPut_below ..).trans (stampPaged_below ..))
      · exact h.trans ((portWrite_below ..).trans (stampPaged_below ..))

theorem State.writeGo_below (sp : BitVec 16) (off : Nat) (bs : List Byte) (a c : Bool) (gs : List Nat) :
    ∀ s : State, Below s (s.writeGo sp off bs a c gs) := by
  induction gs with
  | nil => intro s; exact .rfl
  | cons g gs ih => intro s; exact (s.writeIn_below ..).trans (ih _)

theorem State.writeAt_below (s : State) (sp : BitVec 16) (off : Nat) (bs : List Byte) (a c : Bool) :
    Below s (s.writeAt sp off bs a c) := writeGo_below ..

theorem State.serveCheck_below (s : State) (sp : BitVec 16) (off n : Nat) : Below s (s.serveCheck sp off n).1 := by
  unfold State.serveCheck
  split
  · exact .rfl
  · split
    · exact .rfl
    · dsimp only
      split
      · exact .rfl
      · exact checkLines_below ..

/-! ## Nysil -/

theorem State.putSession_below (s : State) (x : Session) : Below s (s.putSession x) := setDev_below rfl

theorem State.evictSession_below (s : State) : Below s s.evictSession := by
  unfold State.evictSession; dsimp only
  split
  · exact .rfl
  · split
    · exact .rfl
    · exact (setDev_below (by rfl)).trans (count_below ..)

theorem State.cacheSession_below (s : State) (x : Session) : Below s (s.cacheSession x) :=
  (s.putSession_below _).trans (evictSession_below _)

theorem State.sendNysil_below (s : State) (d : BitVec 10) (k : BitVec 6) (t : BitVec 7) (a : Bool) (m : Msg) :
    Below s (s.sendNysil d k t a m) := (s.cacheSession_below _).trans (send_below ..)

theorem State.sendHome_below (s : State) (h : BitVec 17) (sp : BitVec 16) (t : BitVec 7) (m : Msg) :
    Below s (s.sendHome h sp t m) := Below.ite (s.send_below m) (s.sendNysil_below ..)

theorem State.request_below (s : State) (id : Nat) (h : BitVec 17) (sp : BitVec 16) (t : BitVec 7) (m : Msg) :
    Below s (s.request id h sp t m) :=
  Below.ite (s.send_below m) (Below.ite ((setDev_below (by rfl)).trans ((sendNysil_below ..).trans (count_below ..)))
    ((setDev_below (by rfl)).trans (sendNysil_below ..)))

theorem State.cancelTo_below (s : State) (id : Nat) (h : BitVec 17) (sp : BitVec 16) (m : Msg) :
    Below s (s.cancelTo id h sp m) := (setDev_below (by rfl)).trans (sendNysil_below ..)

theorem State.untrack_below (s : State) (id : Nat) : Below s (s.untrack id) := setDev_below rfl

/-! ## The sluice and the tickets -/

theorem State.tell_below (s : State) (sp : BitVec 16) (who : Requester) (e : WatchEnd) : Below s (s.tell sp who e) := by
  unfold State.tell; dsimp only
  split
  · exact Below.ite (s.queue_below _) (s.sendHome_below ..)
  · exact Below.ite (s.queue_below _) (s.sendHome_below ..)
  · exact s.sendHome_below ..

theorem State.answer_below (s : State) (e : SluiceEntry) (v : Word) : Below s (s.answer e v) :=
  (s.tell_below ..).trans (count_below ..)

theorem State.watchedWord_below (s : State) (e : SluiceEntry) : Below s (s.watchedWord e).1 := by
  unfold State.watchedWord
  split
  · exact .rfl
  · split
    · exact .rfl
    · exact s.readAt_below ..

theorem State.sluiceTake_below (s : State) (e : SluiceEntry) : Below s (s.sluiceTake e) := by
  have h := s.watchedWord_below e
  unfold State.sluiceTake; dsimp only
  split
  · exact h.trans ((answer_below ..).trans (count_below ..))
  · split
    · exact h.trans ((tell_below ..).trans (count_below ..))
    · exact h.trans ((setCl_below (by rfl)).trans ((count_below ..).trans (tell_below ..)))

theorem State.askTicket_below (s : State) (t : Word) : Below s (s.askTicket t) := by
  unfold State.askTicket
  split
  · exact s.send_below ..
  · exact .rfl

theorem State.sluiceRegister_below (s : State) (e : SluiceEntry) : Below s (s.sluiceRegister e) := by
  unfold State.sluiceRegister
  refine Below.ite (s.tell_below ..) (Below.ite .rfl (Below.ite
    ((Below.ite .rfl (s.askTicket_below _)).trans (sluiceTake_below ..)) (Below.ite (s.sluiceTake_below e) ?_)))
  have h := s.serveCheck_below e.space e.off.toNat 8
  split <;> rename_i x <;> rw [x] at h
  · exact h.trans (sluiceTake_below ..)
  · exact h.trans (tell_below ..)
  · exact h.trans (tell_below ..)
  · exact h.trans ((setCl_below (by rfl)).trans (send_below ..))

theorem State.sluiceCancel_below (s : State) (who : Requester) : Below s (s.sluiceCancel who) := setCl_below rfl

theorem State.answerAll_below (es : List SluiceEntry) : ∀ s : State, Below s (s.answerAll es) := by
  induction es with
  | nil => intro s; exact .rfl
  | cons e es ih =>
    intro s
    have h := s.watchedWord_below e
    unfold State.answerAll; dsimp only
    split
    · exact h.trans ((setCl_below (by rfl)).trans ((answer_below ..).trans (ih _)))
    · exact h.trans (ih _)

theorem State.notify_below (s : State) (sp : BitVec 16) (off n : Nat) : Below s (s.notify sp off n) := answerAll_below ..

theorem State.store_below (s : State) (sp : BitVec 16) (off : Nat) (bs : List Byte) (a c : Bool) :
    Below s (s.store sp off bs a c) := (s.writeAt_below ..).trans (notify_below ..)

/-! ## Home 127 -/

theorem State.setSvc_below (s : State) (v : Service) : Below s (s.setSvc v) := setDev_below rfl

theorem State.serviceWatch_below (s : State) (d : SpaceDesc) : Below s (s.serviceWatch d) :=
  Below.ite .rfl (Below.ite (s.setSvc_below _) (s.setSvc_below _))

theorem State.serviceFill_below (s : State) (d : SpaceDesc) (va : Word) (l : Leaf) : Below s (s.serviceFill d va l) := by
  unfold State.serviceFill; dsimp only; split
  · exact s.serviceWatch_below d
  · exact (s.serviceWatch_below d).trans (setSvc_below ..)

theorem State.askServiceTicket_below (s : State) (e : SluiceEntry) : Below s (s.askServiceTicket e) := by
  unfold State.askServiceTicket; split
  · split
    · exact s.send_below _
    · exact .rfl
  · exact .rfl

theorem State.serviceTranslate_below (s : State) (sp : BitVec 16) (va : Word) (n : Need) :
    Below s (s.serviceTranslate sp va n).1 := by
  unfold State.serviceTranslate; split
  · exact .rfl
  · split
    · exact .rfl
    · split
      · exact .rfl
      · exact .rfl
      · exact s.serviceFill_below ..

theorem State.serviceAt_below (s : State) (sp : BitVec 16) (off n : Nat) (need : Need) :
    Below s (s.serviceAt sp off n need).1 := by
  unfold State.serviceAt; dsimp only; split
  · exact .rfl
  · have h := s.serviceTranslate_below sp (farAddr s.service (BitVec.ofNat 40 off)) need
    split <;> rename_i e <;> rw [e] at h <;> exact h

theorem State.serviceGo_below (sp : BitVec 16) (off n : Nat) (need : Need) (gs : List Nat) :
    ∀ s : State, Below s (s.serviceGo sp off n need gs).1 := by
  induction gs with
  | nil => intro s; exact .rfl
  | cons g gs ih =>
    intro s
    unfold State.serviceGo; dsimp only
    have h := s.serviceAt_below sp (max g off) (min (g + 64) (off + n) - max g off) need
    split <;> rename_i e <;> rw [e] at h
    · exact h
    · rename_i t _
      have k := ih t
      split <;> rename_i e' <;> rw [e'] at k <;> exact h.trans k

theorem State.serviceBytes_below (s : State) (sp : BitVec 16) (off n : Nat) (need : Need) :
    Below s (s.serviceBytes sp off n need).1 := serviceGo_below ..

theorem State.serviceWord_below (s : State) (e : SluiceEntry) : Below s (s.serviceWord e).1 := by
  unfold State.serviceWord; split
  · exact .rfl
  · have h := s.serviceBytes_below e.space e.off.toNat 8 .load
    split <;> rename_i x <;> rw [x] at h <;> exact h

theorem State.serviceRegister_below (s : State) (e : SluiceEntry) : Below s (s.serviceRegister e) := by
  unfold State.serviceRegister
  refine Below.ite (s.tell_below ..) (Below.ite .rfl ((s.askServiceTicket_below e).trans ?_))
  generalize s.askServiceTicket e = t
  have h := t.serviceWord_below e
  dsimp only
  split <;> rename_i x <;> rw [x] at h
  · exact h.trans (tell_below ..)
  · exact h.trans (tell_below ..)
  · exact h.trans ((setSvc_below ..).trans (send_below ..))
  · exact h.trans (Below.ite (tell_below ..) (Below.ite (tell_below ..) ((setSvc_below ..).trans (tell_below ..))))

theorem State.serviceCancel_below (s : State) (who : Requester) : Below s (s.serviceCancel who) := s.setSvc_below _

theorem State.register_below (s : State) (id : Nat) (sp : BitVec 16) (a t : Word) (who : Requester) :
    Below s (s.register id sp a t who) :=
  Below.ite (s.sluiceRegister_below _) (Below.ite (s.serviceRegister_below _) ((s.untrack_below _).trans (request_below ..)))

theorem State.unregister_below (s : State) (sp : BitVec 16) (a : Word) (who : Requester) :
    Below s (s.unregister sp a who) :=
  Below.ite (s.sluiceCancel_below _) (Below.ite (s.serviceCancel_below _) (Below.ite (s.send_below _) (s.cancelTo_below ..)))

/-! ## The basin -/

theorem State.dropHome_below (s : State) (h : BitVec 17) : Below s (s.dropHome h) := setCl_below rfl

theorem State.useFloor_below (s : State) (h : BitVec 17) (g : BitVec 48) (r : Bool) : Below s (s.useFloor h g r) := by
  unfold State.useFloor; dsimp only
  split
  · exact setCl_below rfl
  · split
    · exact (setCl_below (by rfl)).trans ((dropHome_below ..).trans (count_below ..))
    · exact setCl_below rfl

theorem State.acquire_below (s : State) (h : BitVec 17) (g : BitVec 48) : Below s (s.acquire h g) :=
  Below.ite .rfl (s.useFloor_below ..)

end Sys2Proof.Machine

namespace Sys2Proof.Machine

/-! ## What stands above stays -/

section
variable {s t : State} (h : Below s t)
include h

theorem Below.lists : t.cl.lists = s.cl.lists := congrArg (fun x => x.cl.lists) h.above
theorem Below.waiting : t.cl.waiting = s.cl.waiting := congrArg (fun x => x.cl.waiting) h.above
theorem Below.watches : t.cl.watches = s.cl.watches := congrArg (fun x => x.cl.watches) h.above
theorem Below.overflow : t.cl.overflow = s.cl.overflow := congrArg (fun x => x.cl.overflow) h.above
theorem Below.gen : t.cl.gen = s.cl.gen := congrArg (fun x => x.cl.gen) h.above
theorem Below.clk : t.dev.clk = s.dev.clk := congrArg (fun x => x.dev.clk) h.above
theorem Below.id : t.dev.id = s.dev.id := congrArg (fun x => x.dev.id) h.above
theorem Below.members : t.dev.members = s.dev.members := congrArg (fun x => x.dev.members) h.above
theorem Below.cores : CoresKept s t := ⟨congrArg (fun x => x.core) h.above, congrArg (fun x => x.mates) h.above⟩

end

theorem Below.foldl {β : Type} {f : State → β → State} (hf : ∀ s x, Below s (f s x)) (l : List β) (s : State) :
    Below s (l.foldl f s) := by
  induction l generalizing s with
  | nil => exact .rfl
  | cons x l ih => exact (hf s x).trans (ih _)

/-! ## Messages and cancels leave the memory -/

@[simp] theorem State.evictSession_mem (s : State) : s.evictSession.mem = s.mem := by
  unfold State.evictSession
  dsimp only
  split
  · rfl
  · split <;> rfl

@[simp] theorem State.sendNysil_mem (s : State) (d : BitVec 10) (k : BitVec 6) (t : BitVec 7) (a : Bool) (m : Msg) :
    (s.sendNysil d k t a m).mem = s.mem := State.evictSession_mem _

@[simp] theorem State.unregister_mem (s : State) (sp : BitVec 16) (a : Word) (who : Requester) :
    (s.unregister sp a who).mem = s.mem := by
  unfold State.unregister
  split
  · rfl
  · split
    · rfl
    · split
      · rfl
      · exact State.sendNysil_mem ..

/-- From `s` to `t` only what lies below the instructions changes, and no byte of memory. -/
structure Quiet (s t : State) : Prop where
  below : Below s t
  mem : t.mem = s.mem

theorem Quiet.rfl {s : State} : Quiet s s := ⟨.rfl, .refl _⟩

theorem Quiet.trans {s t u : State} (h : Quiet s t) (g : Quiet t u) : Quiet s u := ⟨h.below.trans g.below, g.mem.trans h.mem⟩

theorem Quiet.foldl {β : Type} {f : State → β → State} (hf : ∀ s x, Quiet s (f s x)) (l : List β) (s : State) :
    Quiet s (l.foldl f s) := by
  induction l generalizing s with
  | nil => exact .rfl
  | cons x l ih => exact (hf s x).trans (ih _)

theorem State.untrack_quiet (s : State) (id : Nat) : Quiet s (s.untrack id) := ⟨s.untrack_below id, rfl⟩

theorem State.endPcie_quiet (s : State) (id : Nat) : Quiet s (s.endPcie id) := ⟨setDev_below rfl, rfl⟩

theorem State.unregister_quiet (s : State) (sp : BitVec 16) (a : Word) (who : Requester) : Quiet s (s.unregister sp a who) :=
  ⟨s.unregister_below .., s.unregister_mem ..⟩

theorem State.closeSlots_quiet (s : State) (c : Core) : Quiet s (s.closeSlots c) := by
  refine Quiet.foldl (fun s k => ?_) ..
  dsimp only
  split
  · exact s.untrack_quiet _
  · exact (s.unregister_quiet ..).trans (State.untrack_quiet ..)

theorem State.cancelSlots_quiet (s : State) (c : Core) : Quiet s (s.cancelSlots c) :=
  (Quiet.foldl (fun s _ => (s.untrack_quiet _).trans (State.endPcie_quiet ..)) ..).trans
    ((Quiet.foldl (fun s _ => s.untrack_quiet _) ..).trans (State.closeSlots_quiet ..))

/-! ## O51: END's wait (R132) -/

theorem State.mapFiring_narrow {s : State} (h : s.core.task.wide = false) (f : Core → Core) :
    s.mapFiring f = s.setCore (f s.core) := by
  rw [State.mapFiring, h]
  rfl

theorem State.members_narrow {s : State} (h : s.core.task.wide = false) : s.members = [s.core] := by
  rw [State.members, h]
  rfl

theorem State.undone_narrow {s : State} (h : s.core.task.wide = false) :
    s.undone = if s.core.commit = [] then [] else [s.core.num] := by
  rw [State.undone, State.members_narrow h]
  cases e : s.core.commit <;> simp [e]

/-- An END whose waits are over, with nothing to trap or abort for, releases its slots, and then begins to commit. -/
theorem exec_commit_ending {s : State} (hd : s.commitDue s.core = true) (hw : s.core.wait = [.ending]) (hf : s.core.writeFault = none)
    (ha : s.core.allFaults = []) (ho : s.core.oldestStruck = none) :
    exec .commit s =
      .next (if s.core.slotsFree then s.startCommit else (s.closeSlots s.core).setCore s.core.freeSlots) := by
  have ending : s.core.committing = false := by rw [Core.committing, hw]; rfl
  show execCommit s = _
  unfold execCommit
  rw [State.focus_self hd]
  dsimp only
  rw [ending, hf, ha, oldest, ho]
  exact (apply_ite Host.Outcome.next _ _ _).symm

theorem State.startCommit_narrow {s : State} (h : s.core.task.wide = false) : s.startCommit = s.setCore { s.core with
    wait := [.committing], issueAt := if s.core.commit = [] then s.core.issueAt else s.dev.clk + 1 } := by
  unfold State.startCommit
  dsimp only
  rw [State.mapFiring_narrow h, State.undone_narrow h, State.members_narrow h]
  by_cases e : s.core.commit = [] <;> simp [e]

/-! ## O51: the deferred effects (R128, R129, R132) -/

theorem exec_commit_committing {s : State} (hd : s.commitDue s.core = true) (hw : s.core.wait = [.committing]) :
    exec .commit s = .next s.commitFiring := by
  have committing : s.core.committing = true := by rw [Core.committing, hw]; rfl
  show execCommit s = _
  unfold execCommit
  rw [State.focus_self hd]
  dsimp only
  rw [committing]
  rfl

theorem State.refill_of_nil {s : State} (h : s.cl.overflow = []) : s.refill = s := by
  rw [State.refill, h, State.refillGo]

/-- The end of a firing of width 1 that is no actor's: its slots and reads are cancelled, and its core is released. -/
theorem State.endFiring_narrow {s : State} (h : s.core.task.wide = false) (ha : s.core.task.actor = false)
    (ho : s.cl.overflow = []) : s.endFiring = (s.cancelSlots s.core).setCore (s.core.release s.dev.clk) := by
  have q := (s.cancelSlots_quiet s.core).below
  have leave : s.leave = (s.cancelSlots s.core).setCore (s.core.release s.dev.clk) := by
    unfold State.leave
    dsimp only
    rw [if_neg (by simp [h]), State.mapFiring_narrow (by rw [q.cores.1, h]), q.cores.1, q.clk]
  have refill : ((s.cancelSlots s.core).setCore (s.core.release s.dev.clk)).refill = _ := State.refill_of_nil (q.overflow.trans ho)
  unfold State.endFiring
  dsimp only
  rw [leave, refill, if_neg (by simp [ha])]

theorem State.endFiring_leftIdle {s : State} (h : s.core.task.wide = false) (ha : s.core.task.actor = false)
    (ho : s.cl.overflow = []) : LeftIdle s s.endFiring := by
  rw [State.endFiring_narrow h ha ho]
  exact ⟨rfl, rfl, rfl, rfl, ⟨rfl, rfl, rfl⟩, (s.cancelSlots_quiet s.core).below.cores.2⟩

/-- What the end of a firing leaves beside its core. -/
theorem State.endFiring_quiet {s : State} (h : s.core.task.wide = false) (ha : s.core.task.actor = false)
    (ho : s.cl.overflow = []) : s.endFiring.mem = s.mem ∧ s.endFiring.cl.lists = s.cl.lists ∧ s.endFiring.cl.gen = s.cl.gen := by
  have q := s.cancelSlots_quiet s.core
  rw [State.endFiring_narrow h ha ho]
  exact ⟨q.mem, q.below.lists, q.below.gen⟩

theorem State.commitFiring_nil {s : State} (h : s.core.task.wide = false) (hc : s.core.commit = []) :
    s.commitFiring = s.endFiring := by
  unfold State.commitFiring
  rw [State.undone_narrow h, if_pos hc]

/-- One effect of a firing of width 1, performed. -/
theorem State.commitFiring_performed {s u : State} {e : Effect} {es : List Effect} (h : s.core.task.wide = false)
    (hc : s.core.commit = e :: es) (hp : s.perform e = .done u) (hu : u.core.task = s.core.task) :
    s.commitFiring =
      if es = [] then (u.setCore { u.core with commit := es }).endFiring
      else u.setCore { u.core with commit := es, issueAt := u.dev.clk + 1 } := by
  have next : s.performNext = .done (u.setCore { u.core with commit := es }) := by
    rw [State.performNext, hc]
    dsimp only
    rw [hp]
  have wide : u.core.task.wide = false := by rw [hu, h]
  unfold State.commitFiring
  rw [State.undone_narrow h, if_neg (by simp [hc])]
  dsimp only
  rw [State.focus_self (by simp)]
  dsimp only
  rw [next]
  dsimp only
  rw [State.undone_narrow (by exact wide), State.mapFiring_narrow (by exact wide)]
  by_cases e : es = [] <;> simp [e]

/-- A record that joins its list is exactly what `Joined` says. -/
theorem State.join_joined (s : State) (r : ContRec) : Joined s (s.join r) r := by
  intro q
  unfold State.join State.joinAt
  simp only [State.setCl_cl]
  by_cases e : q.val = r.prio.toNat
  · simp [e]
  · simp [e, Ne.symm e]

/-- A record without edges that finds room joins its list. -/
theorem State.createRecord_joins {s : State} {r : ContRec} (hj : r.join = 0) (ha : r.actor = false) (hr : s.regionUse < 65536)
    (byFiring : Bool) : s.createRecord r byFiring = s.join r := by
  unfold State.createRecord State.enlist
  rw [if_pos hr, if_pos (by simp [hj, ha])]

/-- A spawn performed for this cluster: it is counted, and its record joins its list under its task key (R129, R400). -/
theorem State.perform_spawn {s : State} {r : ContRec} (h : s.core.task.wide = false) (hj : r.join = 0) (ha : r.actor = false)
    (hr : s.regionUse < 65536) : s.perform (.spawn r none) =
      .done ((s.setCore { s.core with spawned := s.core.spawned + 1 }).join { r with key := taskKey s.core.task.key s.core.spawned }) := by
  show s.performSpawn r none = _
  unfold State.performSpawn
  dsimp only
  rw [State.mapFiring_narrow h, State.createRecord_joins (by exact hj) (by exact ha) (by exact hr)]

/-- No line of the near window fails check 4 of R166. -/
theorem State.checkLines_near (s : State) (sp : BitVec 16) (need : Need) {gs : List Nat} (h : ∀ g ∈ gs, g < 0x2000000) :
    s.checkLines sp need gs = (s, none) := by
  induction gs with
  | nil => rfl
  | cons g gs ih =>
    obtain ⟨hg, hgs⟩ := List.forall_mem_cons.1 h
    unfold State.checkLines
    dsimp only
    rw [if_pos (by simpa [isNear] using hg)]
    exact ih hgs

/-- An advance at a word of the near window that nothing watches: the home's next GEN, and the word moved on (R187, R188). -/
theorem State.advance_near {s : State} (sp : BitVec 16) {off : Nat} (inc : Word) (hw : Memory.wf s.mem = true)
    (hn : off + 8 ≤ 0x2000000) (hs : s.cl.sluice = []) :
    Below s.release (s.advance sp off inc).1 ∧ (s.advance sp off inc).1.mem = Mem.setWord s.mem off (Mem.word s.mem off + inc) := by
  unfold State.advance
  rw [State.readAt_near s sp off 8 true hn]
  refine ⟨State.store_below .., ?_⟩
  exact (State.store_near s.release sp off _ true false hw (by simpa using hn) (by simp [State.release, hs])).1

/-- A deferred advance at a word of the near window: the home's next GEN, and the word moved on by the increment. -/
theorem State.perform_advance {s : State} {off : BitVec 40} {inc : Word} (check : Nat) (asked : Bool) (hw : Memory.wf s.mem = true)
    (hn : off.toNat + 8 ≤ 0x2000000) (hh : s.advanceHeld off inc = false) (hs : s.cl.sluice = []) (hp : s.cl.poison = []) :
    ∃ u, s.perform (.advance off inc check asked) = .done u ∧ Below (s.useBanks [(off.toNat, 8)]).release u ∧
      u.mem = Mem.setWord s.mem off.toNat (Mem.word s.mem off.toNat + inc) := by
  have near := granules_near hn
  refine ⟨_, ?_, (s.useBanks [(off.toNat, 8)]).advance_near s.core.task.space inc hw hn hs⟩
  show s.performAdvance off inc asked = _
  unfold State.performAdvance
  dsimp only
  rw [hh, if_neg (by decide), State.checkLines_near s _ _ near]
  dsimp only
  rw [State.poisonIn_near s _ _ (by simpa using near) (by simp [hp])]

theorem LeftIdle.of_eq {s u t : State} (h : LeftIdle u t) (num : u.core.num = s.core.num) (accum : u.core.accum = s.core.accum)
    (mates : u.mates = s.mates) : LeftIdle s t :=
  ⟨h.status, h.num.trans num, h.regs, h.accum.trans accum, h.waits, h.mates.trans mates⟩

section
variable {s : State} (hd : s.commitDue s.core = true) (hw : s.core.wait = [.committing]) (hn : s.core.task.wide = false)
include hd hw hn

theorem commit_nothing (ha : s.core.task.actor = false) (ho : s.cl.overflow = []) (hc : s.core.commit = []) :
    ∃ t, (exec .commit s = .next t ∧ LeftIdle s t) ∧ t.mem = s.mem ∧ t.cl.lists = s.cl.lists := by
  obtain ⟨mem, lists, -⟩ := State.endFiring_quiet hn ha ho
  refine ⟨_, ⟨?_, State.endFiring_leftIdle hn ha ho⟩, mem, lists⟩
  rw [exec_commit_committing hd hw, State.commitFiring_nil hn hc]

/-- The last effect of a firing, performed: with it the firing ends. -/
theorem commit_last {u : State} {e : Effect} (hc : s.core.commit = [e]) (run : s.perform e = .done u)
    (task : u.core.task = s.core.task) (num : u.core.num = s.core.num) (accum : u.core.accum = s.core.accum)
    (mates : u.mates = s.mates) (ha : s.core.task.actor = false) (ho : u.cl.overflow = []) :
    ∃ t, (exec .commit s = .next t ∧ LeftIdle s t) ∧ t.mem = u.mem ∧ t.cl.lists = u.cl.lists ∧ t.cl.gen = u.cl.gen := by
  let v := u.setCore { u.core with commit := [] }
  have narrow : v.core.task.wide = false := by rw [← hn, ← task]; rfl
  have noActor : v.core.task.actor = false := by rw [← ha, ← task]; rfl
  refine ⟨v.endFiring, ⟨?_, (State.endFiring_leftIdle narrow noActor ho).of_eq num accum mates⟩,
    State.endFiring_quiet narrow noActor ho⟩
  rw [exec_commit_committing hd hw, State.commitFiring_performed hn hc run task, if_pos rfl]

/-- A spawn that is the last effect of its firing: its record joins its list, and the firing ends. -/
theorem commit_lastSpawn (ha : s.core.task.actor = false) (ho : s.cl.overflow = []) {r : ContRec}
    (hc : s.core.commit = [.spawn r none]) (hj : r.join = 0) (hra : r.actor = false) (hr : s.regionUse < 65536) :
    ∃ t, (exec .commit s = .next t ∧ LeftIdle s t) ∧ t.mem = s.mem ∧
      Joined s t { r with key := taskKey s.core.task.key s.core.spawned } := by
  obtain ⟨t, done, mem, lists, -⟩ := commit_last hd hw hn hc (State.perform_spawn hn hj hra hr) rfl rfl rfl rfl ha ho
  refine ⟨t, done, mem, fun q => ?_⟩
  rw [lists]
  exact (s.setCore { s.core with spawned := s.core.spawned + 1 }).join_joined _ q

/-- A spawn with further effects behind it: its record joins its list, and the next effect is performed a clk later. -/
theorem commit_spawn {r : ContRec} {e : Effect} {es : List Effect} (hc : s.core.commit = .spawn r none :: e :: es)
    (hj : r.join = 0) (hra : r.actor = false) (hr : s.regionUse < 65536) :
    ∃ t, exec .commit s = .next t ∧ t.mem = s.mem ∧ t.mates = s.mates ∧
      Joined s t { r with key := taskKey s.core.task.key s.core.spawned } ∧
      t.core = { s.core with commit := e :: es, issueAt := s.dev.clk + 1, spawned := s.core.spawned + 1 } := by
  rw [exec_commit_committing hd hw, State.commitFiring_performed hn hc (State.perform_spawn hn hj hra hr) rfl,
    if_neg (List.cons_ne_nil e es)]
  exact ⟨_, rfl, rfl, rfl, (s.setCore { s.core with spawned := s.core.spawned + 1 }).join_joined _, rfl⟩

/-- An advance that is the last effect of its firing: its word moves on, and the firing ends. -/
theorem commit_lastAdvance (hm : Memory.wf s.mem = true) (ha : s.core.task.actor = false) (ho : s.cl.overflow = [])
    {off : BitVec 40} {inc : Word} {check : Nat} {asked : Bool} (hc : s.core.commit = [.advance off inc check asked])
    (hf : off.toNat + 8 ≤ 0x2000000) (hh : s.advanceHeld off inc = false) (hs : s.cl.sluice = []) (hp : s.cl.poison = []) :
    ∃ t, (exec .commit s = .next t ∧ LeftIdle s t) ∧ t.cl.lists = s.cl.lists ∧ t.cl.gen = s.cl.gen + 1 ∧
      Mem.word t.mem off.toNat = Mem.word s.mem off.toNat + inc ∧
      ∀ a : Nat, a < off.toNat ∨ off.toNat + 8 ≤ a → Mem.read t.mem a = Mem.read s.mem a := by
  obtain ⟨u, run, below, mem⟩ := State.perform_advance check asked hm hf hh hs hp
  obtain ⟨core, mates⟩ := below.cores
  have same : u.core = s.core := core
  obtain ⟨t, done, mem', lists, gen⟩ :=
    commit_last hd hw hn hc run (by rw [same]) (by rw [same]) (by rw [same]) mates ha (below.overflow.trans ho)
  refine ⟨t, done, lists.trans below.lists, gen.trans below.gen, ?_, fun a h => ?_⟩
  · rw [mem', mem, Mem.word_setWord _ _ hm]
  · rw [mem', mem, Mem.read_setWord_other _ hm h]

end

end Sys2Proof.Machine

namespace Sys2Proof.Machine

/-! ## O51: scheduler watches (R123) -/

theorem State.watchWord_below (s : State) (sp : BitVec 16) (addr thr : Word) (who : Requester) :
    Below s (s.watchWord sp addr thr who) := Below.ite (s.tell_below ..) (s.register_below ..)

/-- A scheduler watch that is sent: of it nothing else changes. -/
def SchedWatch.mark (id : Nat) (x : SchedWatch) : SchedWatch := if x.id = id then { x with sent := true } else x

theorem SchedWatch.mark_spec (id : Nat) (x : SchedWatch) :
    (x.mark id).id = x.id ∧ (x.mark id).use = x.use ∧ (x.mark id).addr = x.addr ∧ (x.mark id).thr = x.thr := by
  unfold SchedWatch.mark
  split <;> exact ⟨rfl, rfl, rfl, rfl⟩

/-- A watch may be sent: beside what lies below, its mark alone changes. -/
theorem State.pump_cases (s : State) : s.pump = s ∨
    ∃ id, Below (s.setCl { s.cl with watches := s.cl.watches.map (SchedWatch.mark id) }) s.pump := by
  unfold State.pump
  split
  · exact .inl rfl
  · split
    · exact .inl rfl
    · exact .inr ⟨_, State.watchWord_below ..⟩

/-- What sending a watch leaves. -/
structure Sent (s t : State) : Prop where
  cores : CoresKept s t
  lists : t.cl.lists = s.cl.lists
  waiting : t.cl.waiting = s.cl.waiting
  clk : t.dev.clk = s.dev.clk
  agenda : s.agenda <+: t.agenda

theorem Sent.rfl {s : State} : Sent s s := ⟨⟨.refl _, .refl _⟩, .refl _, .refl _, .refl _, List.prefix_rfl⟩

theorem Sent.trans {s t u : State} (h : Sent s t) (g : Sent t u) : Sent s u :=
  ⟨⟨g.cores.1.trans h.cores.1, g.cores.2.trans h.cores.2⟩, g.lists.trans h.lists, g.waiting.trans h.waiting, g.clk.trans h.clk,
    h.agenda.trans g.agenda⟩

theorem Below.sent {s t : State} (h : Below s t) : Sent s t := ⟨h.cores, h.lists, h.waiting, h.clk, h.agenda⟩

theorem State.pump_sent (s : State) : Sent s s.pump := by
  obtain h | ⟨id, h⟩ := s.pump_cases
  · rw [h]; exact .rfl
  · exact ⟨h.cores, h.lists, h.waiting, h.clk, h.agenda⟩

/-- A watch of the state after another has been sent is one from before. -/
theorem State.pump_ids {s : State} {x : SchedWatch} (h : x ∈ s.pump.cl.watches) : ∃ y ∈ s.cl.watches, y.id = x.id := by
  obtain e | ⟨id, b⟩ := s.pump_cases
  · exact ⟨x, by rwa [e] at h, rfl⟩
  · rw [b.watches] at h
    obtain ⟨y, hy, rfl⟩ := List.mem_map.1 h
    exact ⟨y, hy, (y.mark_spec id).1.symm⟩

/-- A scheduler watch of a use is registered on a word. -/
def State.HasWatch (s : State) (use : SchedUse) (addr thr : Word) : Prop :=
  ∃ x ∈ s.cl.watches, x.use = use ∧ x.addr = addr ∧ x.thr = thr

theorem State.HasWatch.pump {s : State} {use : SchedUse} {addr thr : Word} (h : s.HasWatch use addr thr) :
    s.pump.HasWatch use addr thr := by
  obtain e | ⟨id, b⟩ := s.pump_cases
  · rwa [e]
  · obtain ⟨x, hx, hu, ha, ht⟩ := h
    obtain ⟨-, mu, ma, mt⟩ := x.mark_spec id
    refine ⟨x.mark id, ?_, mu.trans hu, ma.trans ha, mt.trans ht⟩
    rw [b.watches]
    exact List.mem_map_of_mem hx

theorem State.addWatch_cores (s : State) (order : Nat) (use : SchedUse) (addr thr : Word) :
    CoresKept s (s.addWatch order use addr thr) := (State.pump_sent _).cores

theorem State.addWatch_has (s : State) (order : Nat) (use : SchedUse) (addr thr : Word) :
    (s.addWatch order use addr thr).HasWatch use addr thr :=
  State.HasWatch.pump ⟨_, List.mem_append_right _ (List.mem_singleton.2 rfl), rfl, rfl, rfl⟩

theorem State.HasWatch.addWatch {s : State} {use : SchedUse} {addr thr : Word} (h : s.HasWatch use addr thr) (order : Nat)
    (use' : SchedUse) (addr' thr' : Word) : (s.addWatch order use' addr' thr').HasWatch use addr thr := by
  obtain ⟨x, hx, hs⟩ := h
  exact State.HasWatch.pump ⟨x, List.mem_append_left _ hx, hs⟩

/-- Watches added one after another are all registered. -/
theorem State.addWatches_spec (order : Nat) (use : Word → SchedUse) (arms : List (Word × Word)) :
    ∀ s : State, let t := arms.foldl (fun s a => s.addWatch order (use a.1) a.1 a.2) s
      CoresKept s t ∧ (∀ u a h, s.HasWatch u a h → t.HasWatch u a h) ∧ ∀ e ∈ arms, t.HasWatch (use e.1) e.1 e.2 := by
  induction arms with
  | nil => exact fun s => ⟨⟨rfl, rfl⟩, fun _ _ _ h => h, by simp⟩
  | cons e arms ih =>
    intro s
    obtain ⟨cores, kept, all⟩ := ih (s.addWatch order (use e.1) e.1 e.2)
    obtain ⟨core, mates⟩ := s.addWatch_cores order (use e.1) e.1 e.2
    refine ⟨⟨cores.1.trans core, cores.2.trans mates⟩, fun u a h hw => kept u a h (hw.addWatch ..), fun x hx => ?_⟩
    obtain rfl | hx := List.mem_cons.1 hx
    · exact kept _ _ _ (s.addWatch_has ..)
    · exact all x hx

/-! ## O51: a record's list has been read (R123) -/

theorem State.edgeCheck_congr {s t : State} (hm : t.dev.members = s.dev.members) (hi : t.dev.id = s.dev.id) (x : Word) :
    t.edgeCheck x = s.edgeCheck x := by
  unfold State.edgeCheck State.farCheck State.member
  rw [hm, hi]

theorem State.putWait_edgeCheck (s : State) (w : WaitRec) (x : Word) : (s.putWait w).edgeCheck x = s.edgeCheck x :=
  State.edgeCheck_congr rfl rfl x

theorem State.acquire_mem (s : State) (h : BitVec 17) (g : BitVec 48) : (s.acquire h g).mem = s.mem := by
  unfold State.acquire State.useFloor
  dsimp only
  split
  · rfl
  · split
    · rfl
    · split <;> rfl

theorem State.acquire_agenda (s : State) (h : BitVec 17) (g : BitVec 48) : (s.acquire h g).agenda = s.agenda := by
  unfold State.acquire State.useFloor
  dsimp only
  split
  · rfl
  · split
    · rfl
    · split <;> rfl

section
variable {s : State} {w : WaitRec} (hw : s.waitRec w.id = some w) (hr : w.reading = true) (hd : w.desc = [])
include hw hr hd

/-- A list whose read has failed kills the launch. -/
theorem exec_edgeListRead_fail (c : Byte) :
    exec (.edgeListRead w.id (.fail c)) s = .next ((s.untrack w.id).schedKill w.cr.graph c w.cr.frame) := by
  show execEdgeListRead w.id (.fail c) s none = _
  unfold execEdgeListRead receive
  dsimp only
  rw [hw]
  dsimp only
  rw [hr, hd]
  rfl

/-- A record's edges are registered when its list has been read. -/
theorem exec_edgeListRead_words (ha : w.cr.actor = false) (g : BitVec 48) (ws : List Word) :
    exec (.edgeListRead w.id (.words g ws)) s =
      .next (((s.untrack w.id).acquire (homeOf w.cr.frame) g).edges w ws) := by
  show execEdgeListRead w.id (.words g ws) s none = _
  unfold execEdgeListRead receive
  dsimp only
  rw [hw]
  dsimp only
  rw [hr, hd, ha]
  rfl

end

/-- The state in which a record's edges are registered: its list is no longer asked for, and its home is acquired. -/
theorem State.acquired_quiet (s : State) (id : Nat) (h : BitVec 17) (g : BitVec 48) : Quiet s ((s.untrack id).acquire h g) :=
  (s.untrack_quiet id).trans ⟨State.acquire_below .., State.acquire_mem ..⟩

/-- Edges that are all good are all watched. -/
theorem State.edges_good {s : State} {w : WaitRec} {ws : List Word}
    (h : ∀ e ∈ pairs (ws.take (2 * w.cr.join)), s.edgeCheck e.1 = none) :
    CoresKept s (s.edges w ws) ∧ ∀ e ∈ pairs (ws.take (2 * w.cr.join)), (s.edges w ws).HasWatch (.edge w.id e.1) e.1 e.2 := by
  unfold State.edges State.watchAll
  rw [List.find?_eq_none.2 fun e he => by rw [State.putWait_edgeCheck, h e he]; simp]
  obtain ⟨cores, -, all⟩ := State.addWatches_spec w.id (fun x => .edge w.id x) (pairs (ws.take (2 * w.cr.join)))
    (s.putWait { w with desc := ws, reading := false })
  dsimp only
  exact ⟨cores, all⟩

/-- The first bad edge kills the launch. -/
theorem State.edges_bad {s : State} {w : WaitRec} {ws : List Word} {e : Word × Word} {c : Byte}
    (h : (pairs (ws.take (2 * w.cr.join))).find? (fun y => (s.edgeCheck y.1).isSome) = some e) (hc : s.edgeCheck e.1 = some c) :
    Kept s (s.edges w ws) ∧ ∃ k : KillReq, (s.edges w ws).agenda = s.agenda ++ [.kill k] ∧ k.cause = c ∧ k.tval = e.1 ∧
      k.graph = w.cr.graph := by
  have run : s.edges w ws = (s.putWait { w with desc := ws, reading := false }).schedKill w.cr.graph c e.1 := by
    unfold State.edges State.watchAll
    simp only [State.putWait_edgeCheck, h, hc]
    rfl
  rw [run]
  exact ⟨⟨rfl, rfl, rfl⟩, _, rfl, rfl, rfl, rfl⟩

/-- Edges read into a state: all watched, or the launch killed by the first bad one. -/
theorem edgeListRead_words {s : State} {w : WaitRec} (hw : s.waitRec w.id = some w) (hr : w.reading = true) (hd : w.desc = [])
    (ha : w.cr.actor = false) (g : BitVec 48) (ws : List Word) :
    let edges := pairs (ws.take (2 * w.cr.join))
    ((∀ e ∈ edges, s.edgeCheck e.1 = none) → ∃ t, exec (.edgeListRead w.id (.words g ws)) s = .next t ∧ CoresKept s t ∧
      ∀ e ∈ edges, ∃ x ∈ t.cl.watches, x.use = .edge w.id e.1 ∧ x.addr = e.1 ∧ x.thr = e.2) ∧
    (∀ e c, edges.find? (fun y => (s.edgeCheck y.1).isSome) = some e → s.edgeCheck e.1 = some c →
      ∃ t k, exec (.edgeListRead w.id (.words g ws)) s = .next t ∧ Kept s t ∧ t.agenda = s.agenda ++ [.kill k] ∧ k.cause = c ∧
        k.tval = e.1 ∧ k.graph = w.cr.graph) := by
  dsimp only
  rw [exec_edgeListRead_words hw hr hd ha]
  have q := s.acquired_quiet w.id (homeOf w.cr.frame) g
  have agenda : ((s.untrack w.id).acquire (homeOf w.cr.frame) g).agenda = s.agenda := State.acquire_agenda ..
  obtain ⟨core, mates⟩ := q.below.cores
  have check := State.edgeCheck_congr q.below.members q.below.id
  simp only [← check]
  refine ⟨fun h => ?_, fun e c h hc => ?_⟩
  · obtain ⟨cores, all⟩ := State.edges_good h
    exact ⟨_, rfl, ⟨cores.1.trans core, cores.2.trans mates⟩, all⟩
  · obtain ⟨⟨core', mates', mem'⟩, k, killed, why⟩ := State.edges_bad h hc
    exact ⟨_, k, rfl, ⟨core'.trans core, mates'.trans mates, mem'.trans q.mem⟩, by rw [killed, agenda], why⟩

end Sys2Proof.Machine

namespace Sys2Proof.Machine

/-! ## O51: a scheduler watch has ended (R120, R123) -/

/-- A watch that leaves: beside what lies below, the watches alone change, and none of its number is left. -/
theorem State.dropWatch_spec (s : State) (id : Nat) :
    Sent s (s.dropWatch id) ∧ ∀ x ∈ (s.dropWatch id).cl.watches, x.id ≠ id := by
  let u := s.setCl { s.cl with watches := s.cl.watches.filter fun w => w.id != id }
  have left : Sent s u := ⟨⟨rfl, rfl⟩, rfl, rfl, rfl, List.prefix_rfl⟩
  refine ⟨left.trans u.pump_sent, fun x hx => ?_⟩
  obtain ⟨y, hy, e⟩ := State.pump_ids (s := u) hx
  rw [← e]
  simpa using (List.mem_filter.1 hy).2

/-- A record that joins its list after steps that left the lists. -/
theorem Joined.of_eq {s u t : State} {r : ContRec} (h : Joined u t r) (hl : u.cl.lists = s.cl.lists) (hc : u.dev.clk = s.dev.clk) :
    Joined s t r := by
  intro q
  rw [h q, hl, hc]

/-- A waiting record that is replaced is found under its number. -/
theorem State.waitRec_putWait {s : State} {w a : WaitRec} (h : s.waitRec w.id = some a) : (s.putWait w).waitRec w.id = some w := by
  have ids : (fun x : WaitRec => x.id == w.id) ∘ (fun x => if x.id = w.id then w else x) = fun x => x.id == w.id := by
    funext x
    by_cases e : x.id = w.id <;> simp [e]
  have here : a.id = w.id := by simpa using List.find?_some h
  unfold State.waitRec at h ⊢
  unfold State.putWait
  rw [State.setCl_cl, List.find?_map, ids, h, Option.map_some, if_pos here]

/-- A record with two edges or more left counts one off. -/
theorem State.satisfy_counts {s : State} {r : Nat} {a : WaitRec} (h : s.waitRec r = some a) (hj : 2 ≤ a.cr.join)
    (hom : BitVec 17) (g : BitVec 48) :
    ∃ b : WaitRec, s.satisfy r hom g = s.putWait b ∧ (s.putWait b).waitRec r = some b ∧ b.cr.join = a.cr.join - 1 := by
  have here : a.id = r := by simpa using List.find?_some h
  refine ⟨{ a with cr := { a.cr with join := a.cr.join - 1 }, acquires := newestGen hom g a.acquires }, ?_, ?_, rfl⟩
  · unfold State.satisfy
    rw [h]
    dsimp only
    rw [if_neg (by omega)]
  · subst here
    exact State.waitRec_putWait h

/-- The last edge of a record that is no actor's: it leaves the waiting list for its run list. -/
theorem State.satisfy_last {s : State} {r : Nat} {a : WaitRec} (h : s.waitRec r = some a) (hj : a.cr.join = 1)
    (ha : a.cr.actor = false) (hom : BitVec 17) (g : BitVec 48) :
    CoresKept s (s.satisfy r hom g) ∧ Joined s (s.satisfy r hom g) { a.cr with join := 0 } ∧
      ∀ y ∈ (s.satisfy r hom g).cl.waiting, y.id ≠ r := by
  have here : a.id = r := by simpa using List.find?_some h
  let l := newestGen hom g a.acquires
  have acquired : Below s (l.foldl (fun s x => s.acquire x.1 x.2) s) := Below.foldl (fun s x => s.acquire_below ..) ..
  have e : s.satisfy r hom g = ((l.foldl (fun s x => s.acquire x.1 x.2) s).dropWait r).join { a.cr with join := 0 } := by
    unfold State.satisfy
    rw [h]
    dsimp only
    rw [hj, if_pos (by rfl), State.ripen]
    dsimp only
    rw [ha, here]
    rfl
  rw [e]
  refine ⟨acquired.cores, (State.join_joined _ _).of_eq acquired.lists acquired.clk, fun y hy => ?_⟩
  simpa using (List.mem_filter.1 hy).2


/-- The state in which an ended watch has left: its registration is no longer asked for. -/
theorem State.watchEnded_spec (s : State) (w : SchedWatch) :
    Sent s ((s.untrack (watchReq (.sched s.home w.id))).dropWatch w.id) ∧
    ∀ x ∈ ((s.untrack (watchReq (.sched s.home w.id))).dropWatch w.id).cl.watches, x.id ≠ w.id := by
  obtain ⟨sent, none⟩ := (s.untrack (watchReq (.sched s.home w.id))).dropWatch_spec w.id
  exact ⟨(s.untrack_below _).sent.trans sent, none⟩

section
variable {s : State} {w : SchedWatch} (hw : s.schedWatch w.id = some w) (recs : List LaneRec)
include hw

/-- An acknowledgment changes nothing (R123). -/
theorem exec_watchAnswer_armed : exec (.schedulerWatchAnswer w.id .armed recs) s = .next s := by
  show execSchedulerWatchAnswer w.id .armed recs s none = _
  unfold execSchedulerWatchAnswer receive
  dsimp only
  rw [hw]
  rfl

/-- A full sluice refuses the watch, which is tried again later (R123). -/
theorem exec_watchAnswer_full : exec (.schedulerWatchAnswer w.id .full recs) s =
    .next ((s.untrack (watchReq (.sched s.home w.id))).putWatch
      { w with refused := w.refused + 1, retryAt := some (s.dev.clk + retryAfter (w.refused + 1)) }) := by
  show execSchedulerWatchAnswer w.id .full recs s none = _
  unfold execSchedulerWatchAnswer receive
  dsimp only
  rw [hw]
  rfl

/-- A watch that fails kills its launch, and leaves (R123). -/
theorem exec_watchAnswer_fault (c : Byte) : ∃ g, exec (.schedulerWatchAnswer w.id (.fault c) recs) s =
    .next (((s.untrack (watchReq (.sched s.home w.id))).schedKill g c w.addr).dropWatch w.id) := by
  refine ⟨(s.untrack (watchReq (.sched s.home w.id))).watchGraph w, ?_⟩
  show execSchedulerWatchAnswer w.id (.fault c) recs s none = _
  unfold execSchedulerWatchAnswer receive
  dsimp only
  rw [hw]
  rfl

/-- An answer at the threshold ends the watch (R120). -/
theorem exec_watchAnswer_met {v : Word} (hv : w.thr.toNat ≤ v.toNat) (g : BitVec 48) :
    exec (.schedulerWatchAnswer w.id (.answer v g) recs) s =
      .next ((s.untrack (watchReq (.sched s.home w.id))).watchDone w v g recs) := by
  show execSchedulerWatchAnswer w.id (.answer v g) recs s none = _
  unfold execSchedulerWatchAnswer receive
  dsimp only
  rw [hw]
  exact if_neg (by omega)

/-- A residency watch that is met: its record joins its list (R152). -/
theorem watchAnswer_residency {v : Word} {r : ContRec} (hu : w.use = .residency r) (hv : w.thr.toNat ≤ v.toNat) (g : BitVec 48) :
    ∃ t, (exec (.schedulerWatchAnswer w.id (.answer v g) recs) s = .next t ∧ CoresKept s t) ∧ Joined s t r ∧
      ∀ x ∈ t.cl.watches, x.id ≠ w.id := by
  obtain ⟨sent, none⟩ := s.watchEnded_spec w
  rw [exec_watchAnswer_met hw recs hv, State.watchDone, hu]
  exact ⟨_, ⟨rfl, sent.cores⟩, (State.join_joined _ r).of_eq sent.lists sent.clk, none⟩

/-- An edge that is met, with others left: its record counts it (R120). -/
theorem watchAnswer_edge {v x : Word} {r : Nat} {a : WaitRec} (hu : w.use = .edge r x) (hv : w.thr.toNat ≤ v.toNat)
    (ha : s.waitRec r = some a) (hj : 2 ≤ a.cr.join) (g : BitVec 48) :
    ∃ t b, (exec (.schedulerWatchAnswer w.id (.answer v g) recs) s = .next t ∧ CoresKept s t) ∧ t.waitRec r = some b ∧
      b.cr.join = a.cr.join - 1 ∧ t.cl.lists = s.cl.lists := by
  obtain ⟨sent, -⟩ := s.watchEnded_spec w
  have there : State.waitRec ((s.untrack (watchReq (.sched s.home w.id))).dropWatch w.id) r = some a := by
    rw [← ha, State.waitRec, sent.waiting]
    rfl
  obtain ⟨b, run, found, count⟩ := State.satisfy_counts there hj (homeOf x) g
  rw [exec_watchAnswer_met hw recs hv, State.watchDone, hu]
  dsimp only
  rw [run]
  exact ⟨_, b, ⟨rfl, sent.cores⟩, found, count, sent.lists⟩

/-- The last edge of a record: it joins its list (R120). -/
theorem watchAnswer_lastEdge {v x : Word} {r : Nat} {a : WaitRec} (hu : w.use = .edge r x) (hv : w.thr.toNat ≤ v.toNat)
    (ha : s.waitRec r = some a) (hj : a.cr.join = 1) (hact : a.cr.actor = false) (g : BitVec 48) :
    ∃ t, (exec (.schedulerWatchAnswer w.id (.answer v g) recs) s = .next t ∧ CoresKept s t) ∧
      Joined s t { a.cr with join := 0 } ∧ ∀ y ∈ t.cl.waiting, y.id ≠ r := by
  obtain ⟨sent, -⟩ := s.watchEnded_spec w
  have there : State.waitRec ((s.untrack (watchReq (.sched s.home w.id))).dropWatch w.id) r = some a := by
    rw [← ha, State.waitRec, sent.waiting]
    rfl
  obtain ⟨cores, joined, gone⟩ := State.satisfy_last there hj hact (homeOf x) g
  rw [exec_watchAnswer_met hw recs hv, State.watchDone, hu]
  exact ⟨_, ⟨rfl, cores.1.trans sent.cores.1, cores.2.trans sent.cores.2⟩, joined.of_eq sent.lists sent.clk, gone⟩

/-- A failed watch: the launch's kill stands on the agenda. -/
theorem watchAnswer_fault (c : Byte) : ∃ t k, (exec (.schedulerWatchAnswer w.id (.fault c) recs) s = .next t ∧ CoresKept s t) ∧
    k.cause = c ∧ k.tval = w.addr ∧ .kill k ∈ t.agenda ∧ ∀ x ∈ t.cl.watches, x.id ≠ w.id := by
  obtain ⟨g, run⟩ := exec_watchAnswer_fault hw recs c
  let u := (s.untrack (watchReq (.sched s.home w.id))).schedKill g c w.addr
  obtain ⟨sent, none⟩ := u.dropWatch_spec w.id
  exact ⟨_, s.plainKill g 3 c false w.addr, ⟨run, sent.cores⟩, rfl, rfl,
    sent.agenda.subset (List.mem_append_right _ (List.mem_singleton.2 rfl)), none⟩

end

/-! ## O51: a watch is tried again (R123) -/

theorem State.evictSession_outbox (s : State) : s.evictSession.outbox = s.outbox := by
  unfold State.evictSession
  dsimp only
  split
  · rfl
  · split <;> rfl

/-- A message to another device goes out under a header. -/
theorem State.sendNysil_outbox (s : State) (d : BitVec 10) (k : BitVec 6) (t : BitVec 7) (a : Bool) (m : Msg) :
    ∃ hdr port, (s.sendNysil d k t a m).outbox = s.outbox ++ [.nysil hdr port m] :=
  ⟨_, _, congrArg (· ++ _) (State.evictSession_outbox _)⟩

/-- A request to a home goes out as it is within the device, and under a header to another one (R343). -/
theorem State.request_sends (s : State) (id : Nat) (h : BitVec 17) (sp : BitVec 16) (type : BitVec 7) (m : Msg) :
    Quiet s (s.request id h sp type m) ∧ (devOf h = s.dev.id → (s.request id h sp type m).outbox = s.outbox ++ [m]) ∧
      (devOf h ≠ s.dev.id → ∃ hdr port, (s.request id h sp type m).outbox = s.outbox ++ [.nysil hdr port m]) := by
  refine ⟨⟨s.request_below .., ?_⟩, fun e => ?_, fun e => ?_⟩
  · unfold State.request
    split
    · rfl
    · split
      · exact State.sendNysil_mem _ _ _ type true m
      · exact State.sendNysil_mem _ _ _ type false m
  · rw [State.request, if_pos e]
    rfl
  · rw [State.request, if_neg e]
    split <;> exact State.sendNysil_outbox ..

/-- The message that a retry sends: the registration again, or after 16 refusals a read of the word (R123). -/
def State.retryMsg (s : State) (w : SchedWatch) : Msg :=
  if w.refused < 16 then Msg.register w.addr w.thr (.sched s.home w.id)
  else Msg.readReq (watchReq (.sched s.home w.id)) w.addr ((s.cl.bound.map Binding.space).getD 0)

/-- A retry at a home that the model does not serve is one request to that home. -/
theorem exec_watchRetry_request {s : State} {w : SchedWatch} (hw : s.schedWatch w.id = some w) (hr : w.retryAt.isSome = true)
    (hs : s.served (homeOf w.addr) = false) (hl : s.lostDev (devOf (homeOf w.addr)) = false) :
    ∃ u id sp type, Quiet (s.putWatch { w with retryAt := none }) u ∧ u.outbox = s.outbox ∧
      exec (.watchRetry w.id) s = .next (u.request id (homeOf w.addr) sp type (s.retryMsg w)) := by
  let v := s.putWatch { w with retryAt := none }
  have served : v.served (homeOf w.addr) = false := hs
  have lost : v.lostDev (devOf (homeOf w.addr)) = false := hl
  have run : exec (.watchRetry w.id) s = .next (if w.refused < 16 then
      v.watchWord ((v.cl.bound.map (·.space)).getD 0) w.addr w.thr (.sched v.home w.id) else v.readWatched { w with retryAt := none }) := by
    show execWatchRetry w.id s = _
    unfold execWatchRetry
    rw [hw]
    dsimp only
    rw [if_neg (by simpa using Option.isSome_iff_ne_none.1 hr)]
    exact (apply_ite Host.Outcome.next _ _ _).symm
  rw [run, State.retryMsg]
  by_cases h16 : w.refused < 16
  · rw [if_pos h16, if_pos h16]
    obtain ⟨home, service⟩ : homeOf w.addr ≠ v.home ∧ homeOf w.addr ≠ v.service := by
      simpa [State.served] using served
    refine ⟨v.untrack (cancelReq (.sched v.home w.id)), watchReq (.sched v.home w.id), (v.cl.bound.map (·.space)).getD 0, 0x03,
      v.untrack_quiet _, rfl, ?_⟩
    rw [State.watchWord, lost, if_neg (by decide), State.register, if_neg home, if_neg service]
    rfl
  · rw [if_neg h16, if_neg h16]
    refine ⟨v, watchReq (.sched v.home w.id), (v.cl.bound.map (·.space)).getD 0, 0x01, .rfl, rfl, ?_⟩
    unfold State.readWatched
    dsimp only
    rw [lost, served, if_neg (by decide), if_neg (by simp)]
    rfl

/-- A watch that is tried again at such a home. -/
theorem watchRetry_spec {s : State} {w : SchedWatch} (hw : s.schedWatch w.id = some w) (hr : w.retryAt.isSome = true)
    (hs : s.served (homeOf w.addr) = false) (hl : s.lostDev (devOf (homeOf w.addr)) = false) :
    ∃ t, exec (.watchRetry w.id) s = .next t ∧ Kept s t ∧
      t.cl.watches = s.cl.watches.map (fun x => if x.id = w.id then { w with retryAt := none } else x) ∧
      (devOf (homeOf w.addr) = s.dev.id → t.outbox = s.outbox ++ [s.retryMsg w]) ∧
      (devOf (homeOf w.addr) ≠ s.dev.id → ∃ hdr port, t.outbox = s.outbox ++ [.nysil hdr port (s.retryMsg w)]) := by
  obtain ⟨u, id, sp, type, quiet, outbox, run⟩ := exec_watchRetry_request hw hr hs hl
  obtain ⟨sent, within', across⟩ := u.request_sends id (homeOf w.addr) sp type (s.retryMsg w)
  have all := quiet.trans sent
  have self : u.dev.id = s.dev.id := quiet.below.id
  rw [self, outbox] at within' across
  exact ⟨_, run, ⟨all.below.cores.1, all.below.cores.2, all.mem⟩, all.below.watches, within', across⟩

end Sys2Proof.Machine

namespace Sys2Proof.Machine

/-! ## O51: assignment (R120, R122) -/

/-- Of a state whose reservation may have lapsed nothing else changes. -/
theorem State.lapse_eq (s : State) : ∃ r, s.lapse = s.setCl { s.cl with reserved := r } := by
  unfold State.lapse
  split
  · exact ⟨_, rfl⟩
  · exact ⟨s.cl.reserved, rfl⟩

/-- The cores that a record takes: the quad, or the lowest-numbered idle core (R120, R122). -/
def State.takes (s : State) (r : ContRec) (c : Core) : Bool := r.wide || some c.num == s.idleCore

/-- The state in which the head of list `q` has left it: of the rest the reservation alone may change. -/
def State.headless (s : State) (q : Fin 4) (reserved : Bool) : State :=
  s.setCl { s.cl with lists := s.cl.lists.set q (s.cl.lists[q].drop 1), reserved := reserved }

theorem State.popList_headless {s : State} (ho : s.cl.overflow = []) (q : Fin 4) :
    ∃ b, (s.popList q).lapse.refill = s.headless q b := by
  obtain ⟨b, lapse⟩ := (s.popList q).lapse_eq
  refine ⟨b, ?_⟩
  rw [State.refill_of_nil (by rw [lapse]; exact ho), lapse]
  rfl

/-- The list that a head has left. -/
theorem lists_pop (l : Vector (List (ContRec × Nat)) 4) (q p : Fin 4) :
    (l.set q (l[q].drop 1))[p] = if p = q then l[p].tail else l[p] := by
  by_cases e : p = q
  · subst e; simp
  · have : q.val ≠ p.val := fun h => e (Fin.ext h.symm)
    simp [e, this]

/-- A core as the assignment of record `r` leaves it: held for the resume of a saved firing, or at the start of a new one. -/
def State.assigned (s : State) (r : ContRec) (at' : Nat) (c : Core) : Core :=
  if s.takes r c then
    if r.resumable then c.reserve r s.dev.clk
    else c.start { r with key := s.firingKey r } s.cl.nextFiring s.cl.part s.dev.clk at'
  else c

theorem State.assigned_start {s : State} {r : ContRec} {c : Core} (hr : r.resumable = false) (ht : s.takes r c = true) (at' : Nat) :
    s.assigned r at' c = c.start { r with key := s.firingKey r } s.cl.nextFiring s.cl.part s.dev.clk at' := by
  rw [State.assigned, ht, hr]
  rfl

theorem State.assigned_other {s : State} {r : ContRec} {c : Core} (ht : s.takes r c = false) (at' : Nat) :
    s.assigned r at' c = c := by
  rw [State.assigned, ht]
  rfl

/-- A core at the start of a firing is what R37, R48 and R111 say. -/
theorem FiringStarted.of_core {s t : State} {r : ContRec} {at' : Nat}
    (h : t.core = s.core.start { r with key := s.firingKey r } s.cl.nextFiring s.cl.part s.dev.clk at') : FiringStarted s t r := by
  constructor <;> rw [h]
  · exact ⟨rfl, rfl⟩
  · exact ⟨rfl, rfl⟩
  · exact ⟨rfl, rfl, rfl⟩
  · exact ⟨rfl, rfl, rfl⟩
  · exact ⟨rfl, rfl, rfl, rfl⟩
  · exact ⟨rfl, rfl, rfl⟩
  · rfl

section
variable {s : State} {q : Fin 4} {r : ContRec} {joined : Nat} (hq : s.assignable = some q) (hh : s.head q = some (r, joined))
  (ho : s.cl.overflow = [])
include hq hh ho

/-- The assignment of a head: its cores are taken, and a saved firing's resume is asked for, or a firing number given out. -/
theorem exec_assignment : ∃ b at', exec .schedulerAssignment s = .next (
    let u := (s.headless q b).mapCores (s.assigned r at')
    if r.resumable then u.queue (.resume r.image) else u.setCl { u.cl with nextFiring := nextNumber s.cl.nextFiring }) := by
  obtain ⟨b, left⟩ := State.popList_headless ho q
  refine ⟨if r.wide then false else b,
    (s.cores.filter (s.takes r)).foldl (fun n c => max n c.started) joined + max 8 (partN s.cl.part), ?_⟩
  show execSchedulerAssignment s = _
  unfold execSchedulerAssignment
  rw [hq]
  dsimp only
  rw [hh]
  dsimp only
  rw [left]
  unfold State.assigned State.takes
  cases r.wide <;> cases r.resumable <;> rfl

/-- One head is assigned: it leaves its list, and starts its firing or has its resume asked for. -/
theorem assignment_spec : ∃ t, exec .schedulerAssignment s = .next t ∧ t.mem = s.mem ∧
    (∀ p : Fin 4, t.cl.lists[p] = if p = q then s.cl.lists[p].tail else s.cl.lists[p]) ∧
    (r.resumable = false → r.wide = true → FiringStarted s t r ∧ ∀ c ∈ t.mates, c.status = .running ∧ c.pc = r.code) ∧
    (r.resumable = false → r.wide = false → s.idleCore = some s.core.num → (∀ c ∈ s.mates, c.num ≠ s.core.num) →
      FiringStarted s t r ∧ t.mates = s.mates ∧
      t.cl.nextFiring = if s.cl.nextFiring = 0xFFFFFFFF then 1 else s.cl.nextFiring + 1) ∧
    (r.resumable = true → t.agenda = s.agenda ++ [.resume r.image]) := by
  obtain ⟨b, at', run⟩ := exec_assignment hq hh ho
  have lists (p : Fin 4) := lists_pop s.cl.lists q p
  rw [run]
  cases hr : r.resumable
  case true => exact ⟨_, rfl, rfl, lists, nofun, nofun, fun _ => rfl⟩
  case false =>
    refine ⟨_, rfl, rfl, lists, fun _ wide => ?_, fun _ narrow idle other => ?_, nofun⟩
    · have all (c : Core) : s.takes r c = true := by rw [State.takes, wide]; rfl
      refine ⟨.of_core (State.assigned_start hr (all _) at'), fun c hc => ?_⟩
      obtain ⟨m, -, rfl⟩ := List.mem_map.1 hc
      rw [State.assigned_start hr (all _)]
      exact ⟨rfl, rfl⟩
    · have takes (c : Core) : s.takes r c = (c.num == s.core.num) := by rw [State.takes, narrow, idle]; rfl
      refine ⟨.of_core (State.assigned_start hr ((takes _).trans (beq_self_eq_true s.core.num)) at'), ?_, rfl⟩
      exact (List.map_congr_left fun c hc => State.assigned_other (by simpa [takes] using other c hc) at').trans (List.map_id _)

end

/-! ## O51: aging (R121) -/

/-- A record that is due for promotion does not stand in the highest list. -/
theorem State.ageDue_pos {s : State} {q : Fin 4} {x : ContRec × Nat} (h : s.ageDue = some (q, x)) : 0 < q.val := by
  obtain ⟨p, -, hp⟩ := List.exists_of_findSome?_eq_some h
  obtain ⟨y, hy, e⟩ := Option.map_eq_some_iff.1 hp
  obtain ⟨rfl, rfl⟩ := Prod.mk.inj e
  have aged := List.find?_some hy
  simp only [State.aged, Bool.and_eq_true, decide_eq_true_eq] at aged
  omega

/-- A record that leaves list `q` for the tail of the list before it. -/
theorem lists_promote (l : Vector (List (ContRec × Nat)) 4) {q : Fin 4} {k : Nat} (hk : k < 4) (h : k + 1 = q.val) (p : Fin 4)
    (x y : ContRec × Nat) :
    ((l.set q (l[q].erase x)).set k ((l.set q (l[q].erase x))[k] ++ [y]))[p] =
      if p = q then l[p].erase x else if p.val + 1 = q.val then l[p] ++ [y] else l[p] := by
  by_cases e : p = q
  · have : k ≠ p.val := by omega
    subst e
    simp [this]
  · have other : q.val ≠ p.val := fun h => e (Fin.ext h.symm)
    by_cases next : k = p.val
    · subst next
      simp [e, other, h]
    · have : p.val + 1 ≠ q.val := by omega
      simp [e, other, next, this]

/-- AGING moves the record that is due to the list before its own, and the reservation may lapse. -/
theorem exec_aging {s : State} {q : Fin 4} {x : ContRec × Nat} (h : s.ageDue = some (q, x)) :
    ∃ k : BitVec 2, k.toNat + 1 = q.val ∧ exec .aging s =
      .next (((s.setCl { s.cl with lists := s.cl.lists.set q (s.cl.lists[q].erase x) }).joinAt k x.1).lapse.count .promotions 1) := by
  have pos := State.ageDue_pos h
  refine ⟨BitVec.ofNat 2 (q.val - 1), by rw [BitVec.toNat_ofNat]; omega, ?_⟩
  show execAging s = _
  unfold execAging
  rw [h]

/-- A reservation that may lapse, and a count, leave the cores, the memory and the lists. -/
theorem State.lapse_count_kept (s : State) (k : Cnt) (n : Nat) :
    Kept s (s.lapse.count k n) ∧ (s.lapse.count k n).cl.lists = s.cl.lists := by
  obtain ⟨b, lapse⟩ := s.lapse_eq
  rw [lapse]
  exact ⟨⟨rfl, rfl, rfl⟩, rfl⟩

/-- A promotion: the record leaves its list for the tail of the next one. -/
theorem aging_spec {s : State} {q : Fin 4} {x : ContRec × Nat} (h : s.ageDue = some (q, x)) :
    ∃ t, exec .aging s = .next t ∧ Kept s t ∧ ∀ p : Fin 4, t.cl.lists[p] =
      if p = q then s.cl.lists[p].erase x else if p.val + 1 = q.val then s.cl.lists[p] ++ [(x.1, s.dev.clk)] else s.cl.lists[p] := by
  obtain ⟨k, next, run⟩ := exec_aging h
  obtain ⟨⟨core, mates, mem⟩, lists⟩ := State.lapse_count_kept _ .promotions 1
  refine ⟨_, run, ⟨core, mates, mem⟩, fun p => ?_⟩
  rw [lists]
  exact lists_promote s.cl.lists k.isLt next p x (x.1, s.dev.clk)

/-! ## O51: the clauses together -/

theorem exec_quadReservation (s : State) : exec .quadReservation s =
    .next (if s.reserveDue then { s with cl := { s.cl with reserved := true } } else s) := rfl

theorem exec_commit_none {s : State} (h : ∀ c ∈ s.cores, s.commitDue c = false) : exec .commit s = .next s := by
  show execCommit s = _
  unfold execCommit
  rw [State.focus_eq_none h]

theorem exec_assignment_none {s : State} (h : s.assignable = none) : exec .schedulerAssignment s = .next s := by
  show execSchedulerAssignment s = _
  unfold execSchedulerAssignment
  rw [h]

/-- A watch that waits for no retry is not tried again. -/
theorem exec_watchRetry_none {s : State} {w : SchedWatch} (hw : s.schedWatch w.id = some w) (hr : w.retryAt = none) :
    exec (.watchRetry w.id) s = .next s := by
  show execWatchRetry w.id s = _
  unfold execWatchRetry
  rw [hw]
  dsimp only
  rw [hr]
  rfl

/-- A list whose read has failed: the launch's kill stands on the agenda. -/
theorem edgeListRead_fail {s : State} {w : WaitRec} (hw : s.waitRec w.id = some w) (hr : w.reading = true) (hd : w.desc = [])
    (c : Byte) : ∃ t k, exec (.edgeListRead w.id (.fail c)) s = .next t ∧ Kept s t ∧ t.agenda = s.agenda ++ [.kill k] ∧
      k.cause = c ∧ k.tval = w.cr.frame ∧ k.graph = w.cr.graph :=
  ⟨_, _, exec_edgeListRead_fail hw hr hd c, ⟨rfl, rfl, rfl⟩, rfl, rfl, rfl, rfl⟩

/-- A watch that a full sluice has refused is tried again after 1 to 64 us (R123). -/
theorem watchAnswer_full {s : State} {w : SchedWatch} (hw : s.schedWatch w.id = some w) (recs : List LaneRec) :
    ∃ t, (exec (.schedulerWatchAnswer w.id .full recs) s = .next t ∧ CoresKept s t) ∧
      t.cl = { s.cl with watches := s.cl.watches.map fun x =>
        if x.id = w.id then { w with refused := w.refused + 1, retryAt := some (s.dev.clk +
          (if 16 ≤ w.refused + 1 then 64 else min (2 ^ w.refused) 64) * 1500) } else x } :=
  ⟨_, ⟨exec_watchAnswer_full hw recs, rfl, rfl⟩, rfl⟩

/-- An END whose waits are over releases its slots, and where it holds none it begins to commit. -/
theorem commit_ending {s : State} (hd : s.commitDue s.core = true) (hw : s.core.wait = [.ending]) (hf : s.core.writeFault = none)
    (ha : s.core.allFaults = []) (ho : s.core.oldestStruck = none) (hn : s.core.task.wide = false) :
    (s.core.slotsFree = true → exec .commit s = .next { s with core := { s.core with
      wait := [.committing], issueAt := if s.core.commit = [] then s.core.issueAt else s.dev.clk + 1 } }) ∧
    (s.core.slotsFree = false → ∃ t, exec .commit s = .next t ∧ t.mates = s.mates ∧ t.mem = s.mem ∧
      t.core = { s.core with slots := s.core.slots.map fun w => { WSlot.free with tag := w.tag } }) := by
  rw [exec_commit_ending hd hw hf ha ho]
  refine ⟨fun free => ?_, fun held => ?_⟩
  · rw [if_pos free, State.startCommit_narrow hn]
    rfl
  · have quiet := s.closeSlots_quiet s.core
    rw [held]
    exact ⟨_, rfl, quiet.below.cores.2, quiet.mem, rfl⟩

/-- Settles O51, clause by clause: the deferred effects, the scheduler's reads, watches and answers, the assignment of a head,
and the promotions. -/
theorem schedulerSteps : Obligations.SchedulerSteps := by
  unfold Obligations.SchedulerSteps
  refine ⟨fun s => commit_ending, fun s inv hd hw hn ha ho => ?_, fun s => exec_commit_none, fun s w g ws hw hr hd ha => ?_,
    fun s w recs hw => ?_, fun s w hw => ?_, fun s q r joined => assignment_spec, fun s => exec_assignment_none,
    fun s q x => aging_spec, exec_quadReservation⟩
  · exact ⟨commit_nothing hd hw hn ha ho, fun r => commit_lastSpawn hd hw hn ha ho, fun r e es => commit_spawn hd hw hn,
      fun off inc check asked => commit_lastAdvance hd hw hn inv.mem ha ho⟩
  · obtain ⟨good, bad⟩ := edgeListRead_words hw hr hd ha g ws
    exact ⟨good, bad, edgeListRead_fail hw hr hd⟩
  · exact ⟨⟨s, ⟨exec_watchAnswer_armed hw recs, rfl, rfl⟩, rfl⟩,
      fun v g r hu hv => watchAnswer_residency hw recs hu hv g,
      fun v g r x a hu hv hx hj => watchAnswer_edge hw recs hu hv hx hj g,
      fun v g r x a hu hv hx hj hact => watchAnswer_lastEdge hw recs hu hv hx hj hact g,
      watchAnswer_full hw recs, watchAnswer_fault hw recs⟩
  · exact ⟨exec_watchRetry_none hw, watchRetry_spec hw⟩

end Sys2Proof.Machine

namespace Sys2Proof.Machine

/-! ## The readings of a word at a width (R57)

The statements read a word's low `w` bits by `lowU` and `lowS`. Here stand, once, that the model's readings are these, in what
range they lie, and what SX and ZX of a word and of an exact integer are in them. -/

theorem wbits_pos (w : Width) : 0 < wbits w := by cases w <;> decide
theorem wbits_le (w : Width) : wbits w ≤ 64 := by cases w <;> decide

section
variable {w : Nat}

theorem two_pow_half (hw : 0 < w) : 2 ^ w = 2 * 2 ^ (w - 1) := by
  rw [← Nat.pow_succ', Nat.succ_eq_add_one, Nat.sub_add_cancel hw]

/-- `signedOf` and the balanced remainder are one reading. -/
theorem sval'_eq (hw : 0 < w) (x : Word) : sval' w x = lowS w x := by
  have half := two_pow_half hw
  unfold sval' lowS signedOf
  rw [Int.bmod_def]
  push_cast
  norm_cast
  split <;> split <;> omega

theorem uval_eq (w : Nat) (x : Word) : uval w x = lowU w x := rfl

theorem lowU_lt (w : Nat) (x : Word) : lowU w x < 2 ^ w := Nat.mod_lt _ (Nat.two_pow_pos w)

theorem bmod_of_range (hw : 0 < w) {i : Int} (lo : -2 ^ (w - 1) ≤ i) (hi : i < 2 ^ (w - 1)) : i.bmod (2 ^ w) = i := by
  rw [two_pow_half hw]
  apply Int.bmod_eq_of_le_mul_two
  all_goals
    push_cast
    omega

theorem lowS_range (hw : 0 < w) (x : Word) : -2 ^ (w - 1) ≤ lowS w x ∧ lowS w x < 2 ^ (w - 1) := by
  have lo := Int.le_bmod (x := x.toNat) (Nat.two_pow_pos w)
  have hi := Int.bmod_lt (x := x.toNat) (Nat.two_pow_pos w)
  rw [two_pow_half hw] at lo hi
  unfold lowS
  rw [two_pow_half hw]
  push_cast at lo hi
  omega

/-- The low bits of a word in two's complement are those of its signed reading. -/
theorem lowS_eq_toInt_bmod (hw : w ≤ 64) (x : Word) : lowS w x = x.toInt.bmod (2 ^ w) := by
  rw [BitVec.toInt_eq_toNat_bmod, Int.bmod_bmod_of_dvd (Nat.pow_dvd_pow 2 hw), lowS]

/-- SX reads as the low bits in two's complement. -/
theorem sx_toInt (hw : w ≤ 64) (x : Word) : (sx w x).toInt = lowS w x := by
  rw [sx, BitVec.toInt_signExtend_of_le hw, BitVec.toInt_setWidth, lowS]

/-- ZX reads as the low bits, unsigned. -/
theorem zx_toNat (hw : w ≤ 64) (x : Word) : (zx w x).toNat = lowU w x := by
  rw [zx, BitVec.toNat_setWidth_of_le hw, BitVec.toNat_setWidth, lowU]

theorem zx_getLsbD (hw : w ≤ 64) (x : Word) (j : Nat) : (zx w x).getLsbD j = (decide (j < w) && x.getLsbD j) := by
  rw [zx, BitVec.getLsbD_setWidth, BitVec.getLsbD_setWidth]
  by_cases hj : j < w
  · simp [hj, hj.trans_le hw]
  · simp [hj]

/-- SX of a word that wraps an exact integer is SX of that integer. -/
theorem sx_isSx (hw : w ≤ 64) {x : Word} {i : Int} (h : x.toInt = i.bmod (2 ^ 64)) : IsSx w (sx w x) i := by
  rw [IsSx, sx_toInt hw, lowS_eq_toInt_bmod hw, h, Int.bmod_bmod_of_dvd (Nat.pow_dvd_pow 2 hw)]

theorem sxInt_isSx (hw : w ≤ 64) (i : Int) : IsSx w (sxInt w i) i := sx_isSx hw (BitVec.toInt_ofInt ..)

/-- ZX of a word with the low bits of an exact integer is ZX of that integer. -/
theorem zxInt_isZx (hw : w ≤ 64) (i : Int) : IsZx w (zxInt w i) i := by
  have nonneg : 0 ≤ i % 2 ^ 64 := Int.emod_nonneg _ (by decide)
  have h : (((BitVec.ofInt 64 i).toNat : Nat) : Int) = i % 2 ^ 64 := by
    rw [BitVec.toNat_ofInt]
    exact Int.toNat_of_nonneg nonneg
  rw [IsZx, zxInt, zx_toNat hw, lowU]
  push_cast
  rw [h, Int.emod_emod_of_dvd _ (pow_dvd_pow 2 hw)]

/-- An SX value in range of its width is the exact integer. -/
theorem IsSx.toInt_eq (hw : 0 < w) {v : Word} {i : Int} (h : IsSx w v i) (lo : -2 ^ (w - 1) ≤ i) (hi : i < 2 ^ (w - 1)) :
    v.toInt = i := h.trans (bmod_of_range hw lo hi)

end

/-- An instruction of the integer unit that is ready leaves its result, of which `is` holds, and nothing else. -/
theorem alu_spec {i : Instr} {s : State} {d : NDst} {v : Word} {is : Word → Prop} (e : exec i s = alu i s d v) (hv : is v)
    (h : ready i s = true) : ∃ v t, exec i s = .next t ∧ ScalarResult s t d v ∧ is v :=
  ⟨v, _, e.trans (gate_ready _ h), s.result_spec d v, hv⟩

/-! ## O9 -/

theorem addResult_spec (f : AddFn) (w : Width) (a b : Word) :
    AddSpec f (wbits w) (addResult f (wbits w) a b) (a.toInt + b.toInt) (lowS (wbits w) a + lowS (wbits w) b)
      (lowU (wbits w) a + lowU (wbits w) b) (decide (2 ^ wbits w ≤ lowU (wbits w) a + lowU (wbits w) b)) := by
  cases f with
  | wrap => exact sx_isSx (wbits_le w) (BitVec.toInt_add ..)
  | sat =>
    rw [← sval'_eq (wbits_pos w), ← sval'_eq (wbits_pos w)]
    exact sxInt_isSx (wbits_le w) _
  | satu => exact zxInt_isZx (wbits_le w) _
  | carry => rfl

theorem subResult_spec (f : AddFn) (w : Width) (a b : Word) :
    AddSpec f (wbits w) (subResult f (wbits w) a b) (a.toInt - b.toInt) (lowS (wbits w) a - lowS (wbits w) b)
      ((lowU (wbits w) a : Int) - lowU (wbits w) b) (decide (lowU (wbits w) a < lowU (wbits w) b)) := by
  cases f with
  | wrap => exact sx_isSx (wbits_le w) (BitVec.toInt_sub ..)
  | sat =>
    rw [← sval'_eq (wbits_pos w), ← sval'_eq (wbits_pos w)]
    exact sxInt_isSx (wbits_le w) _
  | satu => exact zxInt_isZx (wbits_le w) _
  | carry => rfl

/-- Settles O9, by the value of each FN. -/
theorem addAndSubPushTheirSums : Obligations.AddAndSubPushTheirSums := by
  unfold Obligations.AddAndSubPushTheirSums
  exact ⟨fun s f w d a b => alu_spec rfl (addResult_spec f w _ _), fun s f w d a b => alu_spec rfl (subResult_spec f w _ _)⟩

/-! ## O10 -/

theorem mulhResult_spec (f : MulhFn) (w : Width) (a b : Word) :
    let v := mulhResult f (wbits w) a b
    match f with
    | .ss => IsSx (wbits w) v (lowS (wbits w) a * lowS (wbits w) b / 2 ^ wbits w)
    | .uu => IsZx (wbits w) v (lowU (wbits w) a * lowU (wbits w) b / 2 ^ wbits w)
    | .su => IsSx (wbits w) v (lowS (wbits w) a * lowU (wbits w) b / 2 ^ wbits w) := by
  cases f with
  | ss =>
    rw [← sval'_eq (wbits_pos w), ← sval'_eq (wbits_pos w)]
    exact sxInt_isSx (wbits_le w) _
  | uu =>
    have h := zxInt_isZx (wbits_le w) (((uval (wbits w) a * uval (wbits w) b : Nat) : Int) / 2 ^ wbits w)
    push_cast at h
    exact h
  | su =>
    rw [← sval'_eq (wbits_pos w)]
    exact sxInt_isSx (wbits_le w) _

/-- Settles O10: SX of the product, and the high half as `mulhResult_spec` has it for each FN. -/
theorem multiplicationsArriveAfterThreeClk : Obligations.MultiplicationsArriveAfterThreeClk := by
  unfold Obligations.MultiplicationsArriveAfterThreeClk
  refine ⟨fun s w d a b h => ⟨_, _, gate_ready _ h, s.resultAt_spec .., sx_isSx (wbits_le w) (BitVec.toInt_mul ..)⟩,
    fun s f w d a b h => ⟨_, _, gate_ready _ h, s.resultAt_spec .., ?_⟩⟩
  have hv := mulhResult_spec f w (s.src a) (s.srcImm b)
  cases f <;> exact hv

/-! ## O11 -/

theorem divide_spec {i : Instr} {s : State} {w : Width} {d : NDst} {a b v : Word} {is : Word → Prop} (h : ready i s = true)
    (he : exec i s = divide i w d a b v s) (hv : is v) : DivSpec s i w d a b is := by
  unfold DivSpec
  rw [he, divide, gate_ready _ h, uval_eq]
  refine ⟨fun hb room => ⟨v, _, ?_, s.resultAt_spec .., hv⟩, fun hb => if_pos hb⟩
  rw [if_neg hb, if_neg (by omega)]
  cases w <;> rfl

/-- Settles O11: `divide_spec` is the guard and the latency; the value is SX or ZX of the exact quotient or remainder. -/
theorem divisionsTruncateTowardZero : Obligations.DivisionsTruncateTowardZero := by
  unfold Obligations.DivisionsTruncateTowardZero
  intro s w d a b
  refine ⟨fun h => divide_spec h rfl ?_, fun h => divide_spec h rfl ?_, fun h => divide_spec h rfl ?_, fun h => divide_spec h rfl ?_⟩
  · rw [← sval'_eq (wbits_pos w), ← sval'_eq (wbits_pos w)]
    exact sxInt_isSx (wbits_le w) _
  · rw [← sval'_eq (wbits_pos w), ← sval'_eq (wbits_pos w)]
    exact sxInt_isSx (wbits_le w) _
  · exact zxInt_isZx (wbits_le w) _
  · exact zxInt_isZx (wbits_le w) _

/-! ## O12 -/

section
variable {w : Nat}

theorem shlResult_toNat (hw : w ≤ 64) (a c : Word) :
    (shlResult w a c).toNat = if c.toNat < w then lowU w a * 2 ^ c.toNat % 2 ^ w else 0 := by
  unfold shlResult
  split
  · rw [zx_toNat hw, lowU, BitVec.toNat_shiftLeft, Nat.shiftLeft_eq, Nat.mod_mod_of_dvd _ (Nat.pow_dvd_pow 2 hw), lowU,
      Nat.mod_mul_mod]
  · rfl

theorem shrResult_toNat (hw : w ≤ 64) (a c : Word) :
    (shrResult w a c).toNat = if c.toNat < w then lowU w a / 2 ^ c.toNat else 0 := by
  unfold shrResult
  split
  · rw [BitVec.toNat_ushiftRight, Nat.shiftRight_eq_div_pow, zx_toNat hw]
  · rfl

theorem uval_testBit (w : Nat) (x : Word) (j : Nat) : (uval w x).testBit j = (decide (j < w) && x.getLsbD j) :=
  Nat.testBit_mod_two_pow ..

/-- Floor division by a power of two keeps the range; by the whole range it leaves the sign. -/
theorem sarResult_toInt (hw : 0 < w) (hw' : w ≤ 64) (a c : Word) :
    (sarResult w a c).toInt = if c.toNat < w then lowS w a / 2 ^ c.toNat else if lowS w a < 0 then -1 else 0 := by
  obtain ⟨lo, hi⟩ := lowS_range hw a
  have fits (k : Nat) : -2 ^ (w - 1) ≤ lowS w a / 2 ^ k ∧ lowS w a / 2 ^ k < 2 ^ (w - 1) := by
    have hk : (1 : Int) ≤ 2 ^ k := one_le_pow₀ (by decide)
    rw [Int.le_ediv_iff_mul_le (by omega), Int.ediv_lt_iff_lt_mul (by omega)]
    constructor <;> nlinarith
  have value : (sarResult w a c).toInt = lowS w a / 2 ^ min c.toNat w := by
    have h := sxInt_isSx hw' (lowS w a / 2 ^ min c.toNat w)
    rw [← h.toInt_eq hw (fits _).1 (fits _).2, sarResult, sval'_eq hw]
  rw [value]
  split
  · rw [min_eq_left (by omega)]
  · have half := two_pow_half hw
    have half' : (2 : Int) ^ w = 2 * 2 ^ (w - 1) := by exact_mod_cast half
    rw [min_eq_right (by omega)]
    split
    · exact Int.ediv_eq_neg_one_of_neg_of_le ‹_› (by omega)
    · exact Int.ediv_eq_zero_of_lt (by omega) (by omega)

theorem rotResult_getLsbD (hw : 0 < w) (hw' : w ≤ 64) (a c : Word) (j : Nat) :
    (rotResult w a c).getLsbD j = (decide (j < w) && a.getLsbD ((j + w - c.toNat % w) % w)) := by
  have hk : c.toNat % w < w := Nat.mod_lt _ hw
  unfold rotResult
  generalize c.toNat % w = k at *
  have split' : 2 ^ w = 2 ^ (w - k) * 2 ^ k := by rw [← pow_add, Nat.sub_add_cancel hk.le]
  have top : uval w a / 2 ^ (w - k) < 2 ^ k := by
    rw [Nat.div_lt_iff_lt_mul (Nat.two_pow_pos _), Nat.mul_comm, ← split']
    exact lowU_lt w a
  rw [BitVec.getLsbD_ofNat, split', Nat.mul_mod_mul_right, Nat.mul_comm, Nat.testBit_two_pow_mul_add _ top,
    Nat.testBit_div_two_pow, Nat.testBit_mod_two_pow, uval_testBit, uval_testBit]
  rcases lt_or_ge j w with hj | hj
  · by_cases hjk : j < k
    · rw [if_pos hjk, Nat.mod_eq_of_lt (show j + w - k < w by omega), show j + (w - k) = j + w - k by omega]
      simp [hj, hj.trans_le hw', show j + w - k < w by omega]
    · rw [if_neg hjk, show j + w - k = (j - k) + w by omega, Nat.add_mod_right, Nat.mod_eq_of_lt (show j - k < w by omega)]
      simp [hj, hj.trans_le hw', show j - k < w - k by omega, show j - k < w by omega]
  · rw [if_neg (by omega)]
    simp [show ¬ j < w by omega, show ¬ j - k < w - k by omega]

end

/-- Settles O12: bit by bit for the logic, and a lemma on the value of each shift. -/
theorem logicAndShifts : Obligations.LogicAndShifts := by
  unfold Obligations.LogicAndShifts
  intro s w d a b
  have bits (x : Word) (j : Nat) := zx_getLsbD (wbits_le w) x j
  refine ⟨alu_spec rfl fun j => ?_, alu_spec rfl fun j => ?_, alu_spec rfl fun j => ?_, alu_spec rfl fun j => ?_,
    alu_spec rfl (shlResult_toNat (wbits_le w) _ _), alu_spec rfl (shrResult_toNat (wbits_le w) _ _),
    alu_spec rfl (sarResult_toInt (wbits_pos w) (wbits_le w) _ _), alu_spec rfl (rotResult_getLsbD (wbits_pos w) (wbits_le w) _ _)⟩
  · rw [bits, BitVec.getLsbD_and]
  · rw [bits, BitVec.getLsbD_or]
  · rw [bits, BitVec.getLsbD_xor]
  · rw [bits, BitVec.getLsbD_and, BitVec.getLsbD_not]
    by_cases hj : j < wbits w
    · simp [hj.trans_le (wbits_le w)]
    · simp [hj]

/-! ## O13 -/

section
variable {w : Nat}

theorem minResult_toInt (hw : 0 < w) (hw' : w ≤ 64) (a b : Word) : (minResult w a b).toInt = min (lowS w a) (lowS w b) := by
  rw [minResult, sx_toInt hw', sval'_eq hw, sval'_eq hw, apply_ite (lowS w)]
  split <;> omega

theorem maxResult_toInt (hw : 0 < w) (hw' : w ≤ 64) (a b : Word) : (maxResult w a b).toInt = max (lowS w a) (lowS w b) := by
  rw [maxResult, sx_toInt hw', sval'_eq hw, sval'_eq hw, apply_ite (lowS w)]
  split <;> omega

theorem minuResult_toNat (hw : w ≤ 64) (a b : Word) : (minuResult w a b).toNat = min (lowU w a) (lowU w b) := by
  rw [minuResult, zx_toNat hw, uval_eq, uval_eq, apply_ite (lowU w)]
  split <;> omega

theorem maxuResult_toNat (hw : w ≤ 64) (a b : Word) : (maxuResult w a b).toNat = max (lowU w a) (lowU w b) := by
  rw [maxuResult, zx_toNat hw, uval_eq, uval_eq, apply_ite (lowU w)]
  split <;> omega

/-- The model's conditions are those of R69 on the exact operands. -/
theorem icond_iff (hw : 0 < w) (c : ICond) (a b : Word) : icond c w a b = true ↔ CondHolds c w a b := by
  cases c <;> rw [icond, decide_eq_true_eq, CondHolds] <;> simp only [uval_eq, sval'_eq hw]

end

theorem ofBool_spec {b : Bool} {p : Prop} (h : b = true ↔ p) : (p → ofBool b = 1) ∧ (¬ p → ofBool b = 0) :=
  ⟨fun hp => if_pos (h.2 hp), fun hp => if_neg (mt h.1 hp)⟩

/-- Settles O13: each pick is the minimum or maximum of the operands' readings, and each condition that of the readings. -/
theorem orderAndSelection : Obligations.OrderAndSelection := by
  unfold Obligations.OrderAndSelection
  refine ⟨fun s w d a b => ?_, fun s c w d a b => alu_spec rfl (ofBool_spec (icond_iff (wbits_pos w) c _ _)),
    fun s d a b c h => ⟨_, gate_ready _ h, ?_⟩⟩
  · exact ⟨alu_spec rfl (minResult_toInt (wbits_pos w) (wbits_le w) _ _), alu_spec rfl (maxResult_toInt (wbits_pos w) (wbits_le w) _ _),
      alu_spec rfl (minuResult_toNat (wbits_le w) _ _), alu_spec rfl (maxuResult_toNat (wbits_le w) _ _)⟩
  · have pick : (if s.src a = 0 then s.srcImm c else s.src b) = if s.src a ≠ 0 then s.src b else s.srcImm c := by
      rw [ite_not]
    rw [pick]
    exact s.result_spec d _

/-! ## O14 -/

/-- CLZ: above the highest set bit every bit of the width is clear. -/
theorem clzResult_spec (w : Nat) (a : Word) : ∃ n, clzResult w a = BitVec.ofNat 64 n ∧ n ≤ w ∧
    (∀ j, w - n ≤ j → j < w → a.getLsbD j = false) ∧ (n < w → a.getLsbD (w - n - 1) = true) := by
  refine ⟨_, rfl, ?_⟩
  have low (j : Nat) (hj : j < w) : a.getLsbD j = (uval w a).testBit j := by
    rw [uval_testBit, decide_eq_true hj, Bool.true_and]
  split
  case isTrue h =>
    refine ⟨le_rfl, fun j _ hj => ?_, fun hn => absurd hn (lt_irrefl _)⟩
    rw [low j hj, h, Nat.zero_testBit]
  case isFalse h =>
    have top : (uval w a).log2 < w := (Nat.log2_lt h).2 (lowU_lt w a)
    refine ⟨by omega, fun j hlo hj => ?_, fun hn => ?_⟩
    · rw [low j hj]
      exact Nat.testBit_lt_two_pow ((Nat.log2_lt h).1 (by omega))
    · rw [show w - (w - 1 - (uval w a).log2) - 1 = (uval w a).log2 by omega, low _ top]
      exact Nat.testBit_log2 h

theorem popCount_eq (x w : Nat) : popCount x w = ((List.range w).filter fun j => x.testBit j).length := by
  induction w with
  | zero => rfl
  | succ w ih =>
    rw [popCount, ih, List.range_succ, List.filter_append, List.length_append, Nat.add_comm]
    cases h : x.testBit w <;> simp [h]

/-- Bits of SX: above the width the sign. -/
theorem sx_getLsbD {n : Nat} (hn : 1 ≤ n) (hn' : n ≤ 64) (x : Word) {j : Nat} (hj : j < 64) :
    (sx n x).getLsbD j = x.getLsbD (min j (n - 1)) := by
  rw [sx, BitVec.getLsbD_signExtend, decide_eq_true hj, Bool.true_and]
  split
  · rw [BitVec.getLsbD_setWidth, min_eq_left (by omega)]
    simp [*]
  · rw [BitVec.msb_eq_getLsbD_last, BitVec.getLsbD_setWidth, min_eq_right (by omega)]
    simp [show n - 1 < n by omega]

theorem zx_isZx {n : Nat} (hn : n ≤ 64) (x : Word) : IsZx n (zx n x) x.toNat := by
  rw [IsZx, zx_toNat hn, lowU]
  push_cast
  rfl

theorem extResult_of_width {n : Nat} (hn : 1 ≤ n) (hn' : n ≤ 64) (z : Bool) (x : Word) :
    if z then IsZx n (extResult z n x) x.toNat else IsSx n (extResult z n x) x.toInt := by
  have value : extResult z n x = if z then zx n x else sx n x := by
    rw [extResult, if_neg (by omega)]
    split
    · obtain rfl : n = 64 := by omega
      cases z <;> simp [zx, sx]
    · rfl
  rw [value]
  cases z with
  | true => exact zx_isZx hn' x
  | false => exact sx_isSx hn' (BitVec.toInt_bmod_cancel x).symm

theorem extResult_spec (z : Bool) (n : Nat) (x : Word) :
    if n = 0 then extResult z n x = 0
    else if 64 ≤ n then extResult z n x = x
    else if z then IsZx n (extResult z n x) x.toNat else IsSx n (extResult z n x) x.toInt := by
  split
  · exact if_pos ‹_›
  · split
    · rw [extResult, if_neg ‹_›, if_pos ‹_›]
    · exact extResult_of_width (by omega) (by omega) z x

theorem bitfResult_x (x y : Word) (p l j : Nat) (hl : l ≤ 64) :
    (bitfResult .x x y p l).getLsbD j = (decide (j < l) && x.getLsbD (p + j)) := by
  rw [bitfResult, zx_getLsbD hl, BitVec.getLsbD_ushiftRight]

theorem bitfResult_xs (x y : Word) {p l : Nat} (h1 : 1 ≤ l) (hl : p + l ≤ 64) {j : Nat} (hj : j < 64) :
    (bitfResult .xs x y p l).getLsbD j = x.getLsbD (p + min j (l - 1)) := by
  rw [bitfResult, sx_getLsbD h1 (by omega) _ hj, BitVec.getLsbD_ushiftRight]

theorem bitfResult_ins (b : Src) (x y : Word) (p l : Nat) (hl : p + l ≤ 64) (j : Nat) :
    (bitfResult (.ins b) x y p l).getLsbD j = if p ≤ j ∧ j < p + l then y.getLsbD (j - p) else x.getLsbD j := by
  have field (v : Word) : (zx l v <<< p).getLsbD j = (decide (p ≤ j ∧ j < p + l) && v.getLsbD (j - p)) := by
    rw [BitVec.getLsbD_shiftLeft, zx_getLsbD (by omega)]
    by_cases hp : p ≤ j ∧ j < p + l
    · simp [hp, show j < 64 by omega, show j - p < l by omega]
    · by_cases hp' : p ≤ j
      · simp [show ¬ j - p < l by omega, show ¬ j < p + l by omega]
      · simp [hp', show j < p by omega]
  dsimp only [bitfResult]
  rw [BitVec.getLsbD_or, BitVec.getLsbD_and, BitVec.getLsbD_not, field, field]
  by_cases hp : p ≤ j ∧ j < p + l
  · have ones : (BitVec.allOnes 64).getLsbD (j - p) = true := by
      rw [BitVec.getLsbD_allOnes]
      exact decide_eq_true (by omega)
    rw [ones, decide_eq_true hp, if_pos hp]
    simp
  · by_cases hj : j < 64
    · simp [hp, hj]
    · simp [hp, hj, BitVec.getLsbD_of_ge x j (by omega)]

/-- Settles O14: CLZ by its highest set bit, POPC by the count, EXT and BITF bit by bit. -/
theorem countsExtensionsAndFields : Obligations.CountsExtensionsAndFields := by
  unfold Obligations.CountsExtensionsAndFields
  refine ⟨fun s w d a h => ?_, fun s w d a h => ⟨_, gate_ready _ h, ?_⟩, fun s z w d a => alu_spec rfl ?_,
    fun s z b d a => alu_spec rfl (extResult_spec z _ _), fun s d a p l h1 hl => ⟨alu_spec rfl fun j => ?_, alu_spec rfl fun j hj => ?_,
      fun y => alu_spec rfl fun j => ?_⟩⟩
  · obtain ⟨n, hn, spec⟩ := clzResult_spec (wbits w) (s.src a)
    exact ⟨n, _, gate_ready _ h, hn ▸ s.result_spec d _, spec⟩
  · rw [popcResult, popCount_eq]
    exact s.result_spec d _
  · exact extResult_of_width (wbits_pos w) (wbits_le w) z _
  · exact bitfResult_x _ _ _ _ _ (by omega)
  · exact bitfResult_xs _ _ h1 hl hj
  · exact bitfResult_ins y _ _ _ _ hl j

/-! ## O15 -/

theorem leaOff_toNat (base idx : Word) (sh : Nat) (disp : BitVec 48) :
    ((leaOff base idx sh disp).toNat : Int) = (base.toNat + idx.toNat * 2 ^ sh + disp.toInt) % 2 ^ 40 := by
  have hd : (simm disp).toNat = (disp.toInt % 2 ^ 64).toNat := BitVec.toNat_ofInt ..
  rw [leaOff, BitVec.toNat_setWidth, BitVec.toNat_add, BitVec.toNat_add, BitVec.toNat_shiftLeft, Nat.shiftLeft_eq, hd]
  norm_cast
  generalize idx.toNat * 2 ^ sh = m
  omega

/-- The bits above a base's offset stay when another offset takes its place. -/
theorem keepHome_toNat (x : Word) (off : BitVec 40) :
    (x.extractLsb' 40 24 ++ off).toNat % 2 ^ 40 = off.toNat ∧ (x.extractLsb' 40 24 ++ off).toNat / 2 ^ 40 = x.toNat / 2 ^ 40 := by
  have hoff := off.isLt
  rw [BitVec.toNat_append, BitVec.extractLsb'_toNat, Nat.shiftLeft_eq, Nat.shiftRight_eq_div_pow, Nat.mul_comm,
    ← Nat.two_pow_add_eq_or_of_lt hoff]
  omega

/-- A far address is its home above its offset, the top bit of the home repeated. -/
theorem farAddr_getLsbD (h : BitVec 17) (o : BitVec 40) {j : Nat} (hj : j < 64) :
    (farAddr h o).getLsbD j = if j < 40 then o.getLsbD j else h.getLsbD (min j 56 - 40) := by
  rw [farAddr, BitVec.getLsbD_signExtend, decide_eq_true hj, Bool.true_and, BitVec.msb_eq_getLsbD_last, BitVec.getLsbD_append,
    BitVec.getLsbD_append]
  by_cases h40 : j < 40
  · simp [h40, show j < 57 by omega]
  · by_cases h57 : j < 57
    · simp [h40, h57, show min j 56 = j by omega]
    · simp [h40, h57, show min j 56 = 56 by omega]

theorem farAddr_canonical (h : BitVec 17) (o : BitVec 40) : canonical (farAddr h o) = true := by
  rw [canonical, beq_iff_eq, farAddr_getLsbD h o (by decide)]
  apply BitVec.eq_of_getLsbD_eq
  intro k hk
  rw [BitVec.getLsbD_extractLsb', decide_eq_true hk, farAddr_getLsbD h o (by omega), if_neg (by omega), min_eq_right (by omega)]
  have top : (if 56 < 40 then o.getLsbD 56 else h.getLsbD (min 56 56 - 40)) = h.getLsbD (56 - 40) := rfl
  rw [top]
  cases h.getLsbD (56 - 40)
  · simp
  · interval_cases k <;> rfl

theorem homeOf_farAddr (h : BitVec 17) (o : BitVec 40) : homeOf (farAddr h o) = h := by
  apply BitVec.eq_of_getLsbD_eq
  intro k hk
  rw [homeOf, BitVec.getLsbD_extractLsb', decide_eq_true hk, farAddr_getLsbD h o (by omega), if_neg (by omega),
    min_eq_left (by omega), Nat.add_sub_cancel_left, Bool.true_and]

theorem offOf_farAddr (h : BitVec 17) (o : BitVec 40) : offOf (farAddr h o) = o := by
  apply BitVec.eq_of_getLsbD_eq
  intro k hk
  rw [offOf, BitVec.getLsbD_extractLsb', decide_eq_true hk, farAddr_getLsbD h o (by omega), if_pos (by omega), Nat.zero_add,
    Bool.true_and]

theorem extractLsb'_setWidth_toNat (x : Word) (lo : Nat) {n : Nat} (hn : n ≤ 64) :
    ((x.extractLsb' lo n).setWidth 64).toNat = x.toNat / 2 ^ lo % 2 ^ n := by
  rw [BitVec.toNat_setWidth_of_le hn, BitVec.extractLsb'_toNat, Nat.shiftRight_eq_div_pow]

/-- Settles O15: the base that is kept, the far address's two fields, and the fields that HOMEOF takes out. -/
theorem addressArithmetic : Obligations.AddressArithmetic := by
  unfold Obligations.AddressArithmetic
  refine ⟨fun s keep sh d a b disp h => ?_, fun s d a b h => ?_, fun s sel d a h => ?_⟩
  · have lea : exec (.lea keep sh d a b disp) s = _ := gate_ready _ h
    have off := leaOff_toNat (s.src a) (s.optSrc b) sh.toNat disp
    refine ⟨fun hk => ?_, fun hk hc => ?_, fun hk hc => ?_⟩
    · rw [lea, if_neg (by simp [hk])]
      refine ⟨_, _, rfl, s.result_spec d _, ?_⟩
      rw [BitVec.toNat_setWidth_of_le (by decide), off]
    · rw [lea, if_pos hk, if_pos hc]
      obtain ⟨low, high⟩ := keepHome_toNat (s.src a) (leaOff (s.src a) (s.optSrc b) sh.toNat disp)
      exact ⟨_, _, rfl, s.result_spec d _, by rw [low, off], high⟩
    · rw [lea, if_pos hk, if_neg (by simp [hc])]
      rfl
  · have far : exec (.far d a b) s = _ := gate_ready _ h
    refine ⟨fun hh => ?_, fun hh => ?_⟩
    · rw [far, if_pos hh]
      refine ⟨_, _, rfl, s.result_spec d _, farAddr_canonical .., ?_, ?_⟩
      · rw [homeOf_farAddr, BitVec.toNat_setWidth, Nat.mod_eq_of_lt hh]
      · rw [offOf_farAddr, BitVec.toNat_setWidth]
    · rw [far, if_neg (by omega)]
      rfl
  · have homeof : exec (.homeof sel d a) s = _ := gate_ready _ h
    refine ⟨fun hc => ?_, fun hc => ?_⟩
    · rw [homeof, if_pos hc]
      refine ⟨_, _, rfl, s.result_spec d _, ?_⟩
      cases sel with
      | home => exact extractLsb'_setWidth_toNat _ 40 (by decide)
      | off => exact (extractLsb'_setWidth_toNat _ 0 (by decide)).trans (by rw [pow_zero, Nat.div_one])
      | dev => exact extractLsb'_setWidth_toNat _ 47 (by decide)
      | cl => exact extractLsb'_setWidth_toNat _ 40 (by decide)
      | isLocal => simp [homeofResult, ofBool]
    · rw [homeof, if_neg (by simp [hc])]
      rfl

end Sys2Proof.Machine

namespace Sys2Proof.Machine

/-! ## O59: results, code lines, soft errors and accesses -/

/-- A result that has arrived is no longer owed. -/
theorem ResultIn.leaves {s t : State} {p : Pend} (h : ResultIn s t p) : ∀ x ∈ t.core.pend, x.id ≠ p.id := by
  intro x hx
  rw [h.frame] at hx
  simpa using (List.mem_filter.1 hx).2

/-- A code line's answer leaves no miss of its address. -/
theorem lineFetch_answers {s : State} {a : Word} {r : LineReply} (h : ∃ x ∈ s.quad.icMiss, x.2 = a) :
    ∃ t, exec (.lineFetch a r) s = .next t ∧ ∀ x ∈ t.quad.icMiss, x.2 ≠ a := by
  have missed : (s.quad.icMiss.any fun x => x.2 == a) = true := by simpa using h
  show ∃ t, execLineFetch a r s none = .next t ∧ _
  unfold execLineFetch receive
  dsimp only
  rw [missed, if_neg (by decide)]
  exact ⟨_, rfl, fun x hx => by simpa using (List.mem_filter.1 hx).2⟩

/-- A double-bit error of the pool poisons its 64 bytes. -/
theorem softError_poisons {s : State} {off : Nat} (h : off < 0x2000000) :
    ∃ t, exec (.softError (.pool off) true) s = .next t ∧ off / 64 ∈ t.cl.poison := by
  have near : isNear off = true := by simpa [isNear] using h
  show ∃ t, execSoftError (.pool off) true s = .next t ∧ _
  unfold execSoftError
  dsimp only
  rw [near]
  exact ⟨_, rfl, List.mem_cons_self⟩

/-- A load of the near window whose turn it is leaves the access list and the memory alone. -/
theorem localAccessPerformed_ld {s : State} {k : Nat} {a : Access} {off : BitVec 40} {w : Nat} {sext : Bool}
    (h : NearTurn s k a) (hk : a.kind = .ld off w sext) :
    ∃ t, exec (.localAccessPerformed k) s = .next t ∧ t.core.access k = none ∧ t.mem = s.mem := by
  have fits : off.toNat + w ≤ 0x2000000 := h.near (off.toNat, w) (by rw [hk]; exact List.mem_singleton.2 rfl)
  refine ⟨_, h.performed (by rw [hk]; trivial), ?_⟩
  have spoils : (a.kind.spoils && !a.orphan) = false := by rw [hk]; rfl
  unfold State.performAccess
  dsimp only
  rw [spoils, if_neg (by decide), hk]
  dsimp only
  rw [State.readAt_near _ _ _ _ _ fits]
  refine ⟨List.find?_eq_none.2 fun x hx => ?_, rfl⟩
  simpa using (List.mem_filter.1 hx).2

/-! ## O59: lines that come and go (R151, R172) -/

theorem State.llcPut_llc (s : State) (n : LlcLine) :
    (s.llcPut n).cl.llc = (n :: s.cl.llc.filter fun x => !(x.space == n.space && x.line == n.line)).take llcLines := by
  unfold State.llcPut
  dsimp only
  split
  · rfl
  · split <;> rfl

/-- The line put is found. -/
theorem State.llcFind_llcPut (s : State) (n : LlcLine) : (s.llcPut n).llcFind n.space n.line = some n := by
  rw [State.llcFind, State.llcPut_llc, llcLines, show 2 ^ 21 = 2097151 + 1 from rfl, List.take_succ_cons,
    List.find?_cons_of_pos (by simp)]

theorem State.lineHere_llcPut (s : State) (n : LlcLine) : (s.llcPut n).lineHere n.space n.line = true := by
  rw [State.lineHere, State.llcFind_llcPut, Option.isSome_some, Bool.or_true]

/-- A line that is fetched without a failure is here. -/
theorem State.fetchLine_here {s : State} {sp : BitVec 16} {va : Word} {need : Need} (h : (s.fetchLine sp va need).2 = none) :
    (s.fetchLine sp va need).1.lineHere sp va = true := by
  have put (u t : State) (pa : Nat) (pte : Word) : (t.llcPut (u.freshLine sp va pa pte)).lineHere sp va = true :=
    t.lineHere_llcPut (u.freshLine sp va pa pte)
  unfold State.fetchLine at h ⊢
  split <;> rename_i e <;> rw [e] at h
  · cases h
  · cases h
  · cases h
  · dsimp only at h ⊢
    split <;> rename_i e' <;> rw [e'] at h <;> dsimp only at h
    · split
      · exact put ..
      · next hm => rw [if_neg hm] at h; cases h
    · split
      · exact put ..
      · next hm =>
        rw [if_neg hm] at h
        split <;> rename_i e'' <;> rw [e''] at h
        · cases h
        · exact put ..
        · exact put ..
        · exact put ..

/-- A missing line that translation fetches is here. -/
theorem translation_fetches {s : State} {k g : Nat} {a : Access} (mine : s.core.access k = some a) (good : a.bad = none)
    (turn : s.mayPerform s.core a = true) (unknown : a.known = none) (hm : s.missing a.space a.kind = some g)
    (hf : (s.fetchLine a.space (s.lineVa g) a.kind.need).2 = none) :
    ∃ t, exec (.translation k) s = .next t ∧ t.lineHere a.space (s.lineVa g) = true := by
  refine ⟨_, ?_, State.fetchLine_here hf⟩
  show execTranslation k s = _
  unfold execTranslation
  rw [State.focus_self (by rw [mine]; rfl)]
  dsimp only
  rw [mine]
  dsimp only
  rw [good]
  dsimp only
  rw [turn, hm, unknown]
  dsimp only [Bool.not_true]
  rw [if_neg (by decide)]
  dsimp only [Option.bind_none]
  split
  · next e => rw [e]
  · next e => rw [e] at hf; cases hf

/-- A line of the near cache that comes to the front is found. -/
theorem State.ncFind_ncFront (s : State) (n : NcLine) : (s.ncFront n).ncFind n.space n.line = some n := by
  rw [State.ncFind, State.ncFront, State.setCl_cl, List.find?_cons_of_pos (by simp)]

theorem State.ncFind_ncPut (s : State) (n : NcLine) : (s.ncPut n).ncFind n.space n.line = some n := by
  unfold State.ncPut
  split <;> exact State.ncFind_ncFront ..

/-- A line of the LLC is brought into the near cache. -/
theorem sealedFill_fills {s : State} {sp : BitVec 16} {line : Word} {l : LlcLine} (hn : s.ncFind sp line = none)
    (hl : s.llcFind sp line = some l) :
    ∃ t, exec (.sealedFill sp line) s = .next t ∧ (t.ncFind sp line).isSome = true := by
  refine ⟨_, rfl, ?_⟩
  unfold State.getLine
  rw [hn]
  dsimp only
  rw [hl]
  dsimp only
  rw [if_pos rfl, State.ncFind_ncPut, Option.isSome_some]

/-- A line that is dropped is no longer found. -/
theorem State.ncFind_ncDrop (s : State) (n : NcLine) : (s.ncDrop n).ncFind n.space n.line = none := by
  have none (u : State) (h : u.cl.nc = (s.writeBack n).ncRest n) : u.ncFind n.space n.line = none := by
    rw [State.ncFind, h]
    exact List.find?_eq_none.2 fun x hx => by simpa only [Bool.not_eq_true', Bool.not_eq_true] using (List.mem_filter.1 hx).2
  unfold State.ncDrop
  dsimp only
  split <;> exact none _ rfl

/-- A dirty line that is written back and dropped is no longer found. -/
theorem sealedWriteBack_drops {s : State} {sp : BitVec 16} {line : Word} {n : NcLine} (h : s.ncFind sp line = some n)
    (hd : n.dirty = true) : ∃ t, exec (.sealedWriteBack sp line) s = .next t ∧ t.ncFind sp line = none := by
  have mine := List.find?_some h
  simp only [Bool.and_eq_true, beq_iff_eq] at mine
  obtain ⟨rfl, rfl⟩ := mine
  refine ⟨s.ncDrop n, ?_, s.ncFind_ncDrop n⟩
  show execSealedWriteBack n.space n.line s = _
  unfold execSealedWriteBack
  rw [h]
  dsimp only
  rw [hd, if_pos rfl]

/-! ## O59: preemption, saves and the debug agent's resume (R126, R331) -/

theorem onCore_self {s : State} {p : Core → Bool} (h : p s.core = true) (k : State → State) : s.onCore p k = k s := by
  unfold State.onCore
  rw [State.focus_self h]

/-- A running firing of width 1 that stokers preempt carries the mark. -/
theorem preemptionRequest_marks {s : State} (hn : s.core.task.wide = false) (hr : s.core.status = .running) :
    ∃ t, exec (.preemptionRequest true s.core.num) s = .next t ∧ t.core.preempt = true := by
  refine ⟨s.setCore { s.core with preempt := true }, ?_, rfl⟩
  show execPreemptionRequest true s s.core.num = _
  unfold execPreemptionRequest
  rw [if_pos rfl, onCore_self (by simp [hr]), State.mapFiring_narrow hn]

/-- The save picks the core in focus where it is due. -/
theorem State.savePick_self {s : State} (h : s.saveDue = true) : s.savePick = some s := by
  unfold State.savePick State.cores
  rw [List.map_cons, List.findSome?_cons, State.focus_self (by simp), Option.bind_some, if_pos h]

/-- The end of a firing of width 1: its slots and reads are cancelled, and its core is released. -/
theorem State.leave_narrow {s : State} (h : s.core.task.wide = false) :
    s.leave = (s.cancelSlots s.core).setCore (s.core.release s.dev.clk) := by
  have q := (s.cancelSlots_quiet s.core).below
  unfold State.leave
  dsimp only
  rw [if_neg (by simp [h]), State.mapFiring_narrow (by rw [q.cores.1, h]), q.cores.1, q.clk]

theorem State.leave_leftIdle {s : State} (h : s.core.task.wide = false) : LeftIdle s s.leave := by
  rw [State.leave_narrow h]
  exact ⟨rfl, rfl, rfl, rfl, ⟨rfl, rfl, rfl⟩, (s.cancelSlots_quiet s.core).below.cores.2⟩

/-- What is done beside an idle core and its mates leaves it idle. -/
theorem LeftIdle.of_core {s t u : State} (h : LeftIdle s t) (core : u.core = t.core) (mates : u.mates = t.mates) :
    LeftIdle s u := by
  obtain ⟨status, num, regs, accum, waits, mates'⟩ := h
  rw [← core] at status num regs accum waits
  exact ⟨status, num, regs, accum, waits, mates.trans mates'⟩

/-- The state in which a saved firing's image and the reads that it left behind are kept. -/
def State.keepImage (s : State) (g : Image) (late : List Nat) : State :=
  (s.setCl { s.cl with images := s.cl.images ++ [g], lateReads := late ++ s.cl.lateReads }).count .contextsSaved 1

theorem LeftIdle.keepImage {s v : State} (h : LeftIdle s v) {g : Image} {late : List Nat} : LeftIdle s (v.keepImage g late) :=
  h.of_core rfl rfl

theorem LeftIdle.join {s v : State} (h : LeftIdle s v) {r : ContRec} : LeftIdle s ((v.count .preemptions 1).join r) :=
  h.of_core rfl rfl

/-- A firing that is saved leaves its cores; its image is kept, and its record joins its list unless the debug agent holds it. -/
theorem State.save_eq (s : State) : ∃ n g late r,
    let u := (((s.takeId.mapFiring Core.dropWaits).count .lateReplies n).leave).keepImage g late
    s.save = if s.core.brk.isSome then u else (u.count .preemptions 1).join r :=
  ⟨_, _, _, _, rfl⟩

/-- A firing of width 1 that is saved leaves its core idle (R331). -/
theorem State.save_leftIdle {s : State} (h : s.core.task.wide = false) : LeftIdle s s.save := by
  obtain ⟨n, g, late, r, e⟩ := s.save_eq
  rw [State.mapFiring_narrow (s := s.takeId) h] at e
  have idle : LeftIdle s ((s.takeId.setCore s.takeId.core.dropWaits).count .lateReplies n).leave :=
    (State.leave_leftIdle (by exact h)).of_eq rfl rfl rfl
  rw [e]
  split
  · exact idle.keepImage
  · exact idle.keepImage.join

/-- A save that is due of a firing of width 1 leaves its core idle. -/
theorem contextSave_leftIdle {s : State} (hd : s.saveDue = true) (h : s.core.task.wide = false) :
    ∃ t, exec .contextSave s = .next t ∧ LeftIdle s t := by
  refine ⟨s.save, ?_, State.save_leftIdle h⟩
  show execContextSave s = _
  unfold execContextSave
  rw [State.savePick_self hd]

/-- A debug agent's resume of an image that it holds: the firing's record joins its list. -/
theorem debugResume_joins {s : State} {g : Image} {m : Core} {ms : List Core}
    (hg : s.cl.images.find? (fun x => x.held.isSome) = some g) (hc : g.cores = m :: ms) :
    ∃ t, exec .debugResume s = .next t ∧ Joined s t { m.task with resumable := true, image := g.id } := by
  show ∃ t, execDebugResume s none = .next t ∧ _
  unfold execDebugResume
  dsimp only
  rw [hg]
  dsimp only
  rw [hc]
  exact ⟨_, rfl, (State.join_joined _ _).of_eq rfl rfl⟩

end Sys2Proof.Machine

namespace Sys2Proof.Machine

/-! ## O59: the resume of a saved firing (R331) -/

/-- What changes below the instructions leaves the core free to change. -/
theorem Below.setCore {s t : State} (h : Below s t) (c : Core) : Below (s.setCore c) (t.setCore c) :=
  ⟨congrArg (fun x => State.setCore x c) h.above, h.agenda⟩

theorem Below.nextId {s t : State} (h : Below s t) : t.cl.nextId = s.cl.nextId := congrArg (fun x => x.cl.nextId) h.above

/-- A slot whose watch is asked for again: it is sent, under the next tag. -/
def WSlot.resent (w : WSlot) : WSlot :=
  if w.st.open then { w with st := .sent, tag := w.tag + 1, value := 0, gen := 0, cause := 0 } else w

theorem State.askPage_below (s : State) (x : Word) (k : Fin 16) : Below s (s.askPage x k) := by
  unfold State.askPage
  exact Below.ite (s.queue_below _) (Below.ite (s.queue_below _) (Below.ite (s.queue_below _) (s.request_below ..)))

theorem State.askValid_below (s : State) (e : PrtEntry) : Below s (s.askValid e) := by
  unfold State.askValid
  exact Below.ite (s.queue_below _) (s.request_below ..)

/-- The core with the slots and the page requests of a resume. -/
def Core.withSlots (c : Core) (slots : Vector WSlot 16) (pages : List (Nat × Fin 16 × BitVec 4 × Word)) : Core :=
  { c with slots := slots, pgreqs := pages }

/-- One slot of a resumed firing is sent again. -/
theorem State.rewatch_below (s : State) (k : Fin 16) : ∃ pages,
    Below (s.setCore (s.core.withSlots (s.core.slots.set k s.core.slots[k].resent) pages)) (s.rewatch k) := by
  unfold State.rewatch
  dsimp only
  cases hw : s.core.slots[k].st.open
  case false =>
    refine ⟨s.core.pgreqs, ?_⟩
    have same : s.core.slots.set k s.core.slots[k].resent = s.core.slots := by
      rw [WSlot.resent, hw]
      simp
    rw [same]
    exact .rfl
  case true =>
    have sent : s.core.slots[k].resent =
        { st := .sent, addr := s.core.slots[k].addr, thr := s.core.slots[k].thr, tag := s.core.slots[k].tag + 1, value := 0,
          gen := 0, cause := 0, page := s.core.slots[k].page } := by
      rw [WSlot.resent, hw]
      rfl
    rw [sent, if_neg (by decide)]
    split
    · exact ⟨_, State.askPage_below ..⟩
    · exact ⟨s.core.pgreqs, State.watchWord_below ..⟩

/-- The slots of a list, each once, are sent again; the others stay. -/
theorem State.rewatches_below (ks : List (Fin 16)) : ∀ s : State, ks.Nodup → ∃ slots pages,
    Below (s.setCore (s.core.withSlots slots pages)) (ks.foldl State.rewatch s) ∧
    ∀ j : Fin 16, slots[j] = if j ∈ ks then s.core.slots[j].resent else s.core.slots[j] := by
  induction ks with
  | nil => exact fun s _ => ⟨s.core.slots, s.core.pgreqs, .rfl, fun j => by simp⟩
  | cons k ks ih =>
    intro s h
    obtain ⟨hk, hks⟩ := List.nodup_cons.1 h
    obtain ⟨pages, first⟩ := s.rewatch_below k
    obtain ⟨slots, pages', rest, each⟩ := ih (s.rewatch k) hks
    have core := first.cores.1
    rw [core] at rest each
    refine ⟨slots, pages', (first.setCore _).trans rest, fun j => ?_⟩
    rw [each]
    by_cases e : j = k
    · subst e
      simp [hk, Core.withSlots]
    · have : k.val ≠ j.val := fun x => e (Fin.ext x.symm)
      simp [e, this, Core.withSlots]

/-- The core with the promises of a resume. -/
def Core.withPromises (c : Core) (prt : List PrtEntry) : Core := { c with prt := prt }

/-- The state with the ids up to `n` given out. -/
def State.withNextId (s : State) (n : Nat) : State := { s with cl := { s.cl with nextId := n } }

/-- The promises, with `e` under the id `n` unless it is struck. -/
def reidentified (e : PrtEntry) (n : Nat) (prt : List PrtEntry) : List PrtEntry :=
  if e.struck then prt else prt.map fun x => if x.id = e.id then { e with id := n } else x

/-- What the promises hold beside their ids stays. -/
theorem reidentified_held {e : PrtEntry} {n : Nat} {prt : List PrtEntry} (h : ∀ x ∈ prt, x.id = e.id → x.held = e.held) :
    (reidentified e n prt).map PrtEntry.held = prt.map PrtEntry.held := by
  unfold reidentified
  split
  · rfl
  · rw [List.map_map]
    refine List.map_congr_left fun x hx => ?_
    show (if x.id = e.id then _ else _ : PrtEntry).held = x.held
    split
    · next hid => exact (h x hx hid).symm
    · rfl

/-- A promise is one from before, or it stands under the new id. -/
theorem mem_reidentified {e x : PrtEntry} {n : Nat} {prt : List PrtEntry} (h : x ∈ reidentified e n prt) : x ∈ prt ∨ x.id = n := by
  unfold reidentified at h
  split at h
  · exact .inl h
  · obtain ⟨y, hy, rfl⟩ := List.mem_map.1 h
    split
    · exact .inr rfl
    · exact .inl hy

/-- A promise that is validated again stands under the next id. -/
theorem State.revalidate_below (s : State) (e : PrtEntry) : ∃ n, s.cl.nextId ≤ n ∧
    Below ((s.withNextId n).setCore (s.core.withPromises (reidentified e s.id s.core.prt))) (s.revalidate e) := by
  unfold State.revalidate reidentified
  split
  · exact ⟨s.cl.nextId, le_rfl, .rfl⟩
  · exact ⟨s.cl.nextId + 1, Nat.le_succ _, State.askValid_below ..⟩

/-- The promises of a list are validated again, in turn: what they hold beside their ids stays. -/
theorem State.revalidates_below (l : List PrtEntry) : ∀ s : State,
    (∀ e ∈ l, e.id < s.cl.nextId ∧ ∀ x ∈ s.core.prt, x.id = e.id → x.held = e.held) → ∃ prt n,
      Below ((s.withNextId n).setCore (s.core.withPromises prt)) (l.foldl State.revalidate s) ∧
        prt.map PrtEntry.held = s.core.prt.map PrtEntry.held := by
  induction l with
  | nil => exact fun s _ => ⟨s.core.prt, s.cl.nextId, .rfl, rfl⟩
  | cons e l ih =>
    intro s h
    obtain ⟨⟨-, he⟩, hl⟩ := List.forall_mem_cons.1 h
    obtain ⟨n, hn, first⟩ := s.revalidate_below e
    have core := first.cores.1
    have next : (s.revalidate e).cl.nextId = n := first.nextId
    obtain ⟨prt, n', rest, held⟩ := ih (s.revalidate e) fun y hy => by
      obtain ⟨young, same⟩ := hl y hy
      rw [core, next]
      refine ⟨by omega, fun x hx hid => ?_⟩
      obtain old | new := mem_reidentified hx
      · exact same x old hid
      · rw [State.id] at new
        omega
    rw [core] at rest held
    have renumbered : Below ((s.withNextId n').setCore (s.core.withPromises prt))
        (((s.revalidate e).withNextId n').setCore (s.core.withPromises prt)) :=
      ⟨congrArg (fun x => (x.withNextId n').setCore (s.core.withPromises prt)) first.above, first.agenda⟩
    exact ⟨prt, n', renumbered.trans rest, held.trans (reidentified_held he)⟩

/-- The slice that a resume latches again from the weights that its loads name. -/
def State.relatched (s : State) (m : Core) : Slice := m.slice.hist.foldl (fun w r => s.latch w r) Slice.zero

/-- The promises of the core in focus are all validated again. -/
def State.revalidates (s : State) : State := s.core.prt.foldl State.revalidate s

/-- The far reads of the core in focus are all sent again. -/
def State.refars (s : State) : State := s.core.far.foldl State.refar s

/-- The core with the slice, the slots, the page requests and the promises of a resume. -/
def Core.revived (c : Core) (w : Slice) (slots : Vector WSlot 16) (pages : List (Nat × Fin 16 × BitVec 4 × Word))
    (prt : List PrtEntry) : Core := { c with slice := w, slots := slots, pgreqs := pages, prt := prt }

/-- A core as its resume leaves it, but for the slots, the pages, the promises and the ids given out. -/
theorem State.revive_core {s : State} (far : s.core.far = []) (nodup : (s.core.prt.map PrtEntry.id).Nodup)
    (young : ∀ e ∈ s.core.prt, e.id < s.cl.nextId) : ∃ slots pages prt,
      s.revive.core = s.core.revived (s.relatched s.core) slots pages prt ∧
      (∀ j : Fin 16, slots[j] = s.core.slots[j].resent) ∧ prt.map PrtEntry.held = s.core.prt.map PrtEntry.held := by
  let c : Core := { s.core with slice := s.relatched s.core }
  obtain ⟨slots, pages, watched, each⟩ := (s.setCore c).rewatches_below (List.finRange 16) (List.nodup_finRange 16)
  have run : s.revive = State.refars (State.revalidates (List.foldl State.rewatch (s.setCore c) (List.finRange 16))) := by
    unfold State.revive State.refars State.revalidates
    dsimp only [c, State.relatched]
  rw [run]
  generalize List.foldl State.rewatch (s.setCore c) (List.finRange 16) = v at watched ⊢
  have core : v.core = c.withSlots slots pages := watched.cores.1
  have next : v.cl.nextId = s.cl.nextId := watched.nextId
  have mine : v.core.prt = s.core.prt := by rw [core]; rfl
  obtain ⟨prt, n, valid, held⟩ := State.revalidates_below v.core.prt v fun e he => by
    rw [mine] at he ⊢
    rw [next]
    exact ⟨young e he, fun x hx hid => by rw [List.inj_on_of_nodup_map nodup hx he hid]⟩
  rw [State.revalidates]
  generalize v.core.prt.foldl State.revalidate v = w at valid ⊢
  have core' : w.core = v.core.withPromises prt := valid.cores.1
  have reads : w.core.far = [] := by rw [core', core]; exact far
  rw [State.refars, reads, List.foldl_nil]
  refine ⟨slots, pages, prt, by rw [core', core]; rfl, fun j => ?_, held.trans (by rw [mine])⟩
  exact (each j).trans (if_pos (List.mem_finRange j))

/-- A change that keeps every mate is one of the core in focus. -/
theorem State.mapCores_self {s : State} {f : Core → Core} {r : Core} (core : f s.core = r) (mates : ∀ c ∈ s.mates, f c = c) :
    s.mapCores f = s.setCore r := by
  unfold State.mapCores
  rw [core, List.map_congr_left mates, List.map_id']
  rfl

/-- A saved firing of width 1 stands again on the core that waited for it. -/
theorem resume_restores {s : State} {g : Image} {m : Core} {ms : List Core}
    (hg : s.cl.images.find? (fun x => x.id == g.id) = some g) (hc : g.cores = m :: ms) (stopped : s.core.status = .stopped)
    (resumable : s.core.task.resumable = true) (image : s.core.task.image = g.id) (hp : s.core.preempt = false)
    (narrow : s.core.task.wide = false) (hm : m.task.wide = false) (mates : ∀ c ∈ s.mates, c.task.image ≠ g.id)
    (far : m.far = []) (nodup : (m.prt.map PrtEntry.id).Nodup) (young : ∀ e ∈ m.prt, e.id < s.cl.nextId) :
    ∃ t, exec (.resume g.id) s = .next t ∧ Restored s t m := by
  let here (c : Core) : Bool := c.status == .stopped && c.task.resumable && c.task.image == g.id && !c.preempt
  let at' := s.dev.clk + max 8 (partN s.cl.part)
  have me : here s.core = true := by simp [here, stopped, resumable, image, hp]
  have notMate (c : Core) (h : c ∈ s.mates) : here c = false := by simp [here, mates c h]
  let r := s.core.restore m s.dev.clk at'
  let u := (s.setCore r).setCl { s.cl with images := s.cl.images.filter fun x => x.id != g.id }
  have run : exec (.resume g.id) s = .next (u.revive.count .contextsResumed 1) := by
    have member : g.memberFor s.core.task.wide s.core = some m := by rw [Image.memberFor, narrow, hc]; rfl
    have single : u.members = [u.core] := State.members_narrow hm
    show execResume g.id s = _
    unfold execResume
    dsimp only
    rw [hg]
    dsimp only
    rw [State.focus_self me]
    dsimp only
    rw [State.mapCores_self (r := r) (by rw [if_pos (by exact me), member]) fun c h => by rw [if_neg (by simpa [here] using notMate c h)]]
    show Host.Outcome.next ((((u.members.map fun c => c.num).foldl _ u).count _ _)) = _
    rw [single, List.map_singleton, List.foldl_cons, List.foldl_nil, onCore_self (by simp)]
  obtain ⟨slots, pages, prt, core, each, held⟩ := State.revive_core (s := u) far nodup young
  have mine : u.core = r := rfl
  rw [mine] at core each held
  refine ⟨_, run, ?_⟩
  constructor <;> rw [State.count_core, core]
  case running => rfl
  case task => exact ⟨rfl, rfl⟩
  case flow => exact ⟨rfl, rfl, rfl⟩
  case banks => exact ⟨rfl, rfl, rfl⟩
  case regs => exact ⟨rfl, rfl, rfl, rfl⟩
  case stack => exact ⟨rfl, rfl, rfl, rfl⟩
  case traps => exact ⟨rfl, rfl⟩
  case commit => exact ⟨rfl, rfl, rfl⟩
  case owed => exact ⟨rfl, rfl, rfl, rfl, rfl⟩
  case table => exact ⟨held, rfl⟩
  case pulls => exact ⟨rfl, rfl⟩
  case matrix => exact ⟨rfl, rfl, rfl, rfl⟩
  case slice => rfl
  case accesses => rfl
  case slots =>
    intro k
    refine (each k).trans ?_
    have saved : r.slots[k] = { m.slots[k] with tag := s.core.slots[k].tag } := Vector.getElem_ofFn ..
    rw [saved, WSlot.resent]
  case waits =>
    show _ ++ (if m.pulls.isEmpty = true then [] else [Wait.transfers]) = _
    simp only [List.isEmpty_iff]

end Sys2Proof.Machine

namespace Sys2Proof.Machine

/-! ## O59: grants and matrix commands (R189, R289) -/

/-- A grant whose result is computed takes the head from the queue. -/
theorem vectorGrant_grants {s : State} {x : VCmd} {rest : List VCmd} {r : PVal × BitVec 5} (hq : s.core.vq = x :: rest)
    (hg : s.grantTo = some s.core.num)
    (hr : vecResult { regs := s.core.regs, caps := x.caps, scalars := x.scalars } (Config.freeRow s.free) x.instr = some r) :
    ∃ t, exec .vectorGrant s = .next t ∧ t.core.vq.map VCmd.id = rest.map VCmd.id := by
  show ∃ t, execVectorGrant s = .next t ∧ _
  unfold execVectorGrant
  rw [hg]
  dsimp only
  rw [onCore_self (by simp)]
  refine ⟨_, rfl, ?_⟩
  unfold State.grantHead
  rw [hq]
  dsimp only
  rw [hr]
  exact List.map_map.trans rfl

/-- An AZERO that is finished leaves its queue, with no other effect left. -/
theorem matrixCommandCompletion_azero {s : State} {m : MCmd} {row0 n : Nat} (hd : s.cmdDue s.core = some m)
    (hop : m.op = .azero row0 n) : ∃ t, exec .matrixCommandCompletion s = .next t ∧ t = s.popped m := by
  refine ⟨_, ?_, rfl⟩
  have performed : s.performCmd m = s := by rw [State.performCmd, hop]
  show execMatrixCommandCompletion s = _
  unfold execMatrixCommandCompletion
  rw [State.focus_self (by rw [hd]; rfl)]
  dsimp only
  rw [hd]
  dsimp only
  rw [performed]
  rfl

/-- A split that is due leaves every MMA cut. -/
theorem splitGranuleBoundary_cuts {s : State} (hd : s.splitDue = true) :
    ∃ t, exec .splitGranuleBoundary s = .next t ∧ ∀ c ∈ t.cores, ∀ y ∈ c.mq, y.isMma = true → y.cut = true := by
  rw [exec_splitGranuleBoundary, hd]
  exact ⟨_, rfl, State.mapCores_forall Core.splitMmas_cut⟩

/-! ## O59: the lines of a pull (R242) -/

/-- What a channel's transfers are after one has been put in its place. -/
theorem State.xfer_putXfer {s : State} {ch : Fin 16} {id : Nat} {t : Transfer} (h : s.xfer ch id = some t) (u : Transfer)
    (hid : u.xid = t.xid) : (s.putXfer ch u).xfer ch id = some u := by
  have mine : t.xid = id := by simpa using List.find?_some h
  have ids : (fun x : Transfer => x.xid == id) ∘ (fun x => if x.xid = u.xid then u else x) = fun x => x.xid == id := by
    funext x
    by_cases e : x.xid = u.xid <;> simp [e]
  unfold State.xfer at h ⊢
  unfold State.putXfer State.chan State.setChan
  rw [State.setCl_cl]
  dsimp only
  rw [Fin.getElem_fin, Vector.getElem_set_self, List.find?_map, ids]
  dsimp only [State.chan] at h
  rw [h, Option.map_some, if_pos hid.symm]

theorem State.input_chans (s : State) (y : Byte) (k : Word) (d : List Word) : (s.input y k d).cl.chans = s.cl.chans := by
  unfold State.input
  split
  · rw [(s.capture_frame y k d).2.2.1]
  · dsimp only
    split <;> rfl

theorem State.captureRead_chans (s : State) (h : BitVec 17) (k : Word) (d : List Word) :
    (s.captureRead h k d).cl.chans = s.cl.chans := by
  unfold State.captureRead
  split
  · rfl
  · exact State.input_chans ..

/-- A line of a copy that arrives is kept with its data. -/
theorem pullLineResponse_copy {s : State} {ch : Fin 16} {id line member : Nat} {t : Transfer} {l : PullLine}
    (ht : s.xfer ch id = some t) (hl : t.lines[line]? = some l) (ho : l.outstanding member = true) (hk : t.kind = .copy)
    (g : BitVec 48) (d : Line) :
    ∃ u, exec (.pullLineResponse ch id line member (.data g d false)) s = .next u ∧
      (u.xfer ch id).map (fun y => y.lines) = some ((t.putLine line { l with
        arrivals := l.arrivals ++ [{ member := member, failed := none }], partialSum := d }).lines) := by
  have turn : s.replayTurn ch t line member = true := by rw [State.replayTurn, hk]
  let v := (s.untrack (pullReq ch id line member)).endPcie (pullReq ch id line member)
  let x := l.src.getD member 0
  let u : Transfer := { t.putLine line (l.take t.kind member d).1 with
    gens := newestGen (homeOf x) g t.gens, flags := t.flags ||| (l.take t.kind member d).2 }
  have captured : (v.capturePull ch t x line member (.data g d false)).xfer ch id = some t := by
    have chans : (v.capturePull ch t x line member (.data g d false)).cl.chans = s.cl.chans := by
      unfold State.capturePull
      rw [hk]
      exact State.captureRead_chans ..
    unfold State.xfer State.chan at ht ⊢
    rw [chans, ht]
  refine ⟨(v.capturePull ch t x line member (.data g d false)).putXfer ch u, ?_, ?_⟩
  · show execPullLineResponse ch id line member (.data g d false) s none = _
    unfold execPullLineResponse receive
    dsimp only
    rw [ht]
    dsimp only
    rw [hl]
    dsimp only
    rw [ho, turn]
    rfl
  · rw [State.xfer_putXfer captured u rfl]
    show some (t.lines.set line (l.take t.kind member d).1) = _
    rw [hk]
    rfl

/-- A request that goes out adds to the outbox. -/
theorem State.request_outbox_ne (s : State) (id : Nat) (h : BitVec 17) (sp : BitVec 16) (y : BitVec 7) (m : Msg) :
    (s.request id h sp y m).outbox ≠ s.outbox := by
  obtain ⟨-, within', across⟩ := s.request_sends id h sp y m
  by_cases e : devOf h = s.dev.id
  · rw [within' e]
    simp
  · obtain ⟨hdr, port, out⟩ := across e
    rw [out]
    simp

/-- A line of another device's home is asked for once more. -/
theorem lineRerequest_asks {s : State} {ch : Fin 16} {id line member : Nat} {t : Transfer} {l : PullLine} {x : Word}
    (ht : s.xfer ch id = some t) (hl : t.lines[line]? = some l) (hx : l.src[member]? = some x) (ho : l.outstanding member = true)
    (served : s.served (homeOf x) = false) (cluster : (homeOf x).extractLsb' 0 7 ≠ 126#7) (far : s.farCheck x = none)
    (lost : s.lostDev (devOf (homeOf x)) = false) (logged : s.logged (homeOf x) = false) :
    ∃ u, exec (.lineRerequest ch id line member) s = .next u ∧ u.outbox ≠ s.outbox := by
  have checked : (s.farCheck x <|> s.hostCheck x 64) = none := by
    rw [far, State.hostCheck, if_pos cluster]
    rfl
  have asks (u : State) (h1 : u.lostDev (devOf (homeOf x)) = s.lostDev (devOf (homeOf x)))
      (h2 : u.logged (homeOf x) = s.logged (homeOf x)) (h3 : u.served (homeOf x) = s.served (homeOf x))
      (h4 : (u.farCheck x <|> u.hostCheck x 64) = (s.farCheck x <|> s.hostCheck x 64)) :
      u.askPull ch id line member x = u.request (pullReq ch id line member) (homeOf x) u.engineSpace 0x01
        (.pullReq ch id line member x) := by
    unfold State.askPull
    dsimp only
    rw [h1, lost, h2, logged, h3, served, h4, checked]
    dsimp only
    rw [if_neg (by decide), if_neg (by decide), if_neg cluster, if_neg (by decide)]
  let l' : PullLine := { l with asked := (member, s.dev.clk) :: l.asked.filter fun a => a.1 != member }
  let v := (s.putXfer ch (t.putLine line l')).count .pullLines 1
  have posted : s.post ch id line member = v.askPull ch id line member x := by
    unfold State.post
    rw [ht]
    dsimp only
    rw [hl]
    dsimp only
    rw [List.getD_eq_getElem?_getD, hx, Option.getD_some]
  refine ⟨(s.post ch id line member).count .pullRepeats 1, ?_, ?_⟩
  · show execLineRerequest ch id line member s = _
    unfold execLineRerequest
    rw [ht, Option.bind_some, hl]
    dsimp only
    rw [ho, if_pos rfl]
  · rw [State.count_outbox, posted, asks v rfl rfl rfl rfl]
    exact v.request_outbox_ne _ _ _ _ _

end Sys2Proof.Machine

namespace Sys2Proof.Machine

/-! ## O59: WAITP's promise and the replies to reads (R107, R218) -/

/-- A core that waits under WAITP past its promise is told that it is missed. -/
theorem waitpPromiseExpiry_misses {s : State} {p xid : Word} {ch : Fin 16} {id off : Nat} {ret : Word}
    (h : s.core.wait.find? (s.waitpMissed s.core) = some (.waitp p xid ch false false id ret off)) :
    ∃ t, exec .waitpPromiseExpiry s = .next t ∧ t.core.wait = s.core.wait.map fun w =>
      if w = .waitp p xid ch false false id ret off then .waitp p xid ch false true id ret off else w := by
  let u := (s.setChanWord ch 3 (s.chanWord ch 3 + 1)).count .promiseMisses 1
  have core : (u.input 0x06 s.core.task.key [xid]).core = s.core :=
    (u.input_frame ..).1.trans (s.store_below ..).cores.1
  refine ⟨(u.input 0x06 s.core.task.key [xid]).setCore { (u.input 0x06 s.core.task.key [xid]).core with
    wait := (u.input 0x06 s.core.task.key [xid]).core.wait.map fun w =>
      if w = .waitp p xid ch false false id ret off then .waitp p xid ch false true id ret off else w }, ?_, ?_⟩
  · show execWaitpPromiseExpiry s = _
    unfold execWaitpPromiseExpiry
    rw [State.focus_self (List.any_of_mem (List.mem_of_find?_eq_some h) (List.find?_some h))]
    dsimp only
    rw [h]
    rfl
  · rw [core]
    rfl

/-- A byte range of the near window that a home serves. -/
theorem State.serveCheck_near {s : State} {sp : BitVec 16} {off n : Nat} (h : NearServed s sp off n) (hoff : off < 0x2000000) :
    s.serveCheck sp off n = (s, none) := by
  obtain ⟨valid, space, live, window⟩ := h
  have reserved : meetsReserved off n = false := by
    have : ¬ 0x2000000 < off + n := by omega
    simp [meetsReserved, this]
  have near : isNear off = true := by simpa [isNear] using hoff
  obtain ⟨b, bound, bspace⟩ := Option.map_eq_some_iff.1 space
  have ok : s.nearOk sp off n = true := by
    unfold State.nearOk
    rw [valid, bound]
    simpa [bspace] using live
  unfold State.serveCheck
  dsimp only
  rw [reserved, near, ok]
  rfl

/-- A read of the near window is served with its data, and changes nothing. -/
theorem State.serveRead_near {s : State} {sp : BitVec 16} {off n : Nat} (h : NearServed s sp off n)
    (hs : off / 32 * 32 + 32 ≤ s.liveNear) : (s.serveRead sp off n).1 = s := by
  have window := h.window
  have low : off < 0x2000000 := by omega
  have near : isNear off = true := by simpa [isNear] using low
  unfold State.serveRead
  rw [State.serveCheck_near h low]
  dsimp only
  rw [if_pos near, if_pos near]
  dsimp only [grainBytes]
  rw [State.readAt_near _ _ _ _ _ (by omega)]

/-- A read of this home's near window is answered. -/
theorem readRequest_answers {s : State} {r : ReadReq} (lane : r.lane = none) (h : NearServed s r.space r.off.toNat r.bytes)
    (hs : r.off.toNat / 32 * 32 + 32 ≤ s.liveNear) :
    ∃ t, exec (.readRequest none r) s = .next t ∧ ∃ reply, t.outbox = s.outbox ++ [.readReply r.tag reply] := by
  refine ⟨s.send (.readReply r.tag (s.serveRead r.space r.off.toNat r.bytes).2), ?_, _, rfl⟩
  show execReadRequest none r s = _
  unfold execReadRequest receive
  dsimp only
  rw [lane]
  dsimp only
  rw [State.serveRead_near h hs]
  rfl

/-- With every far read sent, none is woken. -/
theorem State.wakeFar_sent {s : State} (h : ∀ g ∈ s.core.far, g.sent = true) (x : Word) : s.wakeFar x = s := by
  have still : s.wakeOne x = s := by
    unfold State.wakeOne
    rw [List.find?_eq_none.2 fun g hg => by simp [h g hg]]
  unfold State.wakeFar
  induction List.range s.core.far.length with
  | nil => rfl
  | cons k ks ih => rw [List.foldl_cons, still, ih]

/-- A read that a reply fails leaves the far reads alone. -/
theorem readResponse_fault {s : State} {f : FarRead} {c : Byte} (hf : s.core.far.find? (fun g => g.req == f.req && g.sent) = some f)
    (sent : ∀ g ∈ s.core.far, g.sent = true) (away : s.readsHere (homeOf f.addr) = false) (hc : c ≠ 0x08) :
    ∃ t, exec (.readResponse none f.req (.fault c)) s = .next t ∧ t.core.far = s.core.far.filter fun x => x.id != f.id := by
  let u := ((s.untrack f.req).endPcie f.req).dropFar f.id
  have left : ((u.captureFault f (.fault c)).farFault f c).core.far = s.core.far.filter fun x => x.id != f.id := by
    have core : (u.captureFault f (.fault c)).core = u.core := by
      unfold State.captureFault State.captureRead
      split
      · rfl
      · exact (State.input_frame ..).1
    show (u.captureFault f (.fault c)).core.far = _
    rw [core]
    rfl
  refine ⟨(u.captureFault f (.fault c)).farFault f c, ?_, left⟩
  show readReply f.req (.fault c) s = _
  unfold readReply
  rw [State.focus_self (List.any_of_mem (List.mem_of_find?_eq_some hf) (List.find?_some hf))]
  dsimp only
  rw [hf]
  dsimp only
  rw [away, Bool.false_and, if_neg (by decide), if_neg (by exact hc), State.wakeFar_sent]
  intro g hg
  rw [left] at hg
  exact sent g (List.mem_filter.1 hg).1

/-! ## O59: watches, and what the home is asked (R189, R212) -/

/-- A watch of another home of this device whose threshold the word has reached is answered at once. -/
theorem watchRegistration_answers {s : State} {sp : BitVec 16} {off : BitVec 40} {thr : Word} {h : BitVec 17} {q : BitVec 3}
    {c : BitVec 2} {k : Fin 16} {tag : BitVec 4} (served : NearServed s sp off.toNat 8) (away : h ≠ s.home)
    (dev : devOf h = s.dev.id) (fresh : ∀ x ∈ s.cl.sluice ++ s.cl.pendingRegs, x.who ≠ .slot h q c k tag)
    (met : thr.toNat ≤ (Mem.word s.mem off.toNat).toNat) :
    ∃ t, exec (.watchRegistration sp off thr (.slot h q c k tag)) s = .next t ∧
      t.outbox = s.outbox ++ [.watchEnd (.slot h q c k tag) (.answer (Mem.word s.mem off.toNat) s.cl.gen)] := by
  let e : SluiceEntry := { off := off, space := sp, thr := thr, who := .slot h q c k tag }
  have low : off.toNat + 8 ≤ 0x2000000 := by have := served.live; have := served.window; omega
  have notPage : e.off ≠ pageWordOff := by
    intro x
    have : off.toNat = 0x2000000 := congrArg BitVec.toNat x
    omega
  have noLane : ¬ e.onLane = true := by rintro ⟨⟩
  obtain ⟨inSluice, inPending⟩ := List.forall_mem_append.1 fresh
  have word : s.watchedWord e = (s, Mem.word s.mem off.toNat) := by
    unfold State.watchedWord
    rw [if_neg notPage, if_neg noLane, State.readAt_near _ _ _ _ _ low]
    rfl
  have told : s.tell sp (.slot h q c k tag) (.answer (Mem.word s.mem off.toNat) s.cl.gen) =
      s.send (.watchEnd (.slot h q c k tag) (.answer (Mem.word s.mem off.toNat) s.cl.gen)) := by
    unfold State.tell
    dsimp only
    rw [if_neg (fun x => away x.1)]
    exact if_pos dev
  refine ⟨((s.send (.watchEnd (.slot h q c k tag) (.answer (Mem.word s.mem off.toNat) s.cl.gen))).count .sluiceAnswers 1).count
    .sluiceImmediate 1, ?_, rfl⟩
  show Host.Outcome.next (s.sluiceRegister e) = _
  unfold State.sluiceRegister
  rw [if_neg (by simpa [e] using inSluice), if_neg (by simpa [e] using inPending), if_neg notPage, if_neg noLane,
    State.serveCheck_near served (by omega)]
  dsimp only
  unfold State.sluiceTake
  rw [word]
  dsimp only
  rw [if_pos met, State.answer, told]

/-- A watch slot whose registration is acknowledged is armed. -/
theorem watchAnswer_arms {s : State} {k : Fin 16} (sent : s.core.slots[k].st = .sent) (hw : s.core.wait = []) :
    ∃ t, exec (.watchAnswer s.core.num k s.core.slots[k].tag .armed) s = .next t ∧ t.core.slots[k].st = .armed := by
  refine ⟨s.setCore (s.core.setSlot k { s.core.slots[k] with st := .armed }), ?_, ?_⟩
  · show execWatchAnswer s.core.num k s.core.slots[k].tag .armed s none = _
    unfold execWatchAnswer receive
    dsimp only
    rw [onCore_self (by rw [sent]; simp [WState.open])]
    dsimp only [State.slotEnd]
    rw [if_pos sent, State.endWatch, if_pos rfl]
    show Host.Outcome.next (s.core.wait.foldl State.wake _) = _
    rw [hw]
    rfl
  · simp [Core.setSlot]

/-- A watch that is cancelled leaves the sluice. -/
theorem watchCancel_cancels (s : State) (who : Requester) :
    ∃ t, exec (.watchCancel who) s = .next t ∧ ∀ e ∈ t.cl.sluice, e.who ≠ who :=
  ⟨_, rfl, fun e he => by simpa using (List.mem_filter.1 he).2⟩

/-- An answer of a space's generation word leaves no older translation of the space. -/
theorem tlbGenerationAnswer_drops (s : State) (sp : BitVec 16) (v : Word) (g : BitVec 48) :
    ∃ t, exec (.tlbGenerationAnswer sp (.answer v g)) s = .next t ∧ ∀ e ∈ t.cl.tlb, e.space = sp → v.toNat ≤ e.gen.toNat := by
  refine ⟨_, rfl, fun e he hsp => ?_⟩
  have kept := (List.mem_filter.1 he).2
  simpa [hsp] using kept

/-- A validation is answered. -/
theorem validationRequest_answers (s : State) (sp : BitVec 16) (off : BitVec 40) (fill : BitVec 48) (tag : Nat) :
    ∃ t, exec (.validationRequest sp off fill tag) s = .next t ∧ ∃ b, t.outbox = s.outbox ++ [.validationAnswer tag b] :=
  ⟨_, rfl, _, rfl⟩

/-- A promise that is found unbroken leaves the table. -/
theorem validationAnswer_removes {s : State} {e : PrtEntry} (he : e ∈ s.core.prt) (live : e.struck = false) :
    ∃ t, exec (.validationAnswer none e.id false) s = .next t ∧ e ∉ t.core.prt := by
  have hit : (e.id == e.id && !e.struck) = true := by simp [live]
  refine ⟨(s.untrack (validReq e.id)).setCore
    { s.core with prt := s.core.prt.filter fun x => !(x.id == e.id && !x.struck) }, ?_, fun h => ?_⟩
  · show execValidationAnswer none e.id false s = _
    unfold execValidationAnswer receive
    dsimp only
    rw [onCore_self (List.any_eq_true.2 ⟨e, he, hit⟩), if_neg (by decide)]
    rfl
  · have := (List.mem_filter.1 h).2
    rw [hit] at this
    cases this

end Sys2Proof.Machine

namespace Sys2Proof.Machine

/-! ## O59: what a page change leaves (R152, R153)

A page that comes in, and a frame that is freed, set off answers, registrations and list reads. Of these the trailers and the
frames' modes stand apart: most of the steps change only what lies below the instructions, and the rest keep the two as well. -/

theorem Below.fst {α : Type} {s t : State} {x : State × α} {a : α} (h : Below s x.1) (e : x = (t, a)) : Below s t := by
  rwa [e] at h

theorem Below.trailers {s t : State} (h : Below s t) : t.dev.trailers = s.dev.trailers :=
  congrArg (fun x => x.dev.trailers) h.above

/-! ### Reads of a list -/

theorem State.granulePoison_below (s : State) (sp : BitVec 16) (g : Nat) : Below s (s.granulePoison sp g).1 := by
  unfold State.granulePoison
  split
  · exact .rfl
  · dsimp only
    split
    · exact Below.ite ((s.getLine_below ..).fst ‹_›) .rfl
    · exact (s.getLine_below ..).fst ‹_›

theorem State.firstPoison_below (sp : BitVec 16) (off : Nat) (gs : List Nat) : ∀ s : State,
    Below s (s.firstPoison sp off gs).1 := by
  induction gs with
  | nil => exact fun s => .rfl
  | cons g gs ih =>
    intro s
    unfold State.firstPoison
    split
    · exact (s.granulePoison_below ..).fst ‹_›
    · exact ((s.granulePoison_below ..).fst ‹_›).trans (ih _)

theorem State.homeBytes_below (s : State) (sp : BitVec 16) (off n : Nat) : Below s (s.homeBytes sp off n).1 := by
  have h := s.serveCheck_below sp off n
  unfold State.homeBytes
  split <;> rename_i e <;> rw [e] at h
  · exact h
  · split
    · exact h.trans ((State.firstPoison_below ..).fst ‹_›)
    · exact (h.trans ((State.firstPoison_below ..).fst ‹_›)).trans (State.readAt_below ..)

theorem State.readHome_below (s : State) (h : BitVec 17) (sp : BitVec 16) (off n : Nat) : Below s (s.readHome h sp off n).1 := by
  unfold State.readHome
  split
  · split <;> exact (s.serviceBytes_below ..).fst ‹_›
  · exact s.homeBytes_below ..

theorem State.listWords_below (s : State) (r : ContRec) : Below s (s.listWords r).1 := by
  unfold State.listWords
  dsimp only
  split
  · split
    · exact (s.readHome_below ..).fst ‹_›
    · next e =>
      have first := (s.readHome_below ..).fst e
      split <;> exact first.trans ((State.readHome_below ..).fst ‹_›)
  · split <;> exact (s.readHome_below ..).fst ‹_›

theorem State.actorArms_below (sp : BitVec 16) (cs : List ActorChan) : ∀ s : State, Below s (s.actorArms sp cs).1 := by
  induction cs with
  | nil => exact fun s => .rfl
  | cons c cs ih =>
    intro s
    unfold State.actorArms
    dsimp only
    split
    · exact (s.homeBytes_below ..).fst ‹_›
    · next e =>
      have first := (s.homeBytes_below ..).fst e
      split
      · exact first.trans ((ih _).fst ‹_›)
      · have rest := first.trans ((ih _).fst ‹_›)
        split
        · exact rest
        · split <;> exact rest

theorem State.readList_below (s : State) (w : WaitRec) : Below s (s.readList w) := by
  unfold State.readList
  dsimp only
  split
  · exact s.queue_below _
  · split
    · exact s.request_below ..
    · split
      · exact ((s.listWords_below _).fst ‹_›).trans (State.queue_below ..)
      · exact ((s.listWords_below _).fst ‹_›).trans (State.queue_below ..)
      · exact ((s.listWords_below _).fst ‹_›).trans (State.queue_below ..)
      · exact ((s.listWords_below _).fst ‹_›).trans (State.send_below ..)

/-! ### The trailers -/

theorem State.pump_trailers (s : State) : s.pump.dev.trailers = s.dev.trailers := by
  obtain h | ⟨id, h⟩ := s.pump_cases
  · rw [h]
  · exact h.trailers

/-- A fold of steps that keep the trailers keeps them. -/
theorem foldl_trailers {β : Type} {f : State → β → State} (hf : ∀ s x, (f s x).dev.trailers = s.dev.trailers) (l : List β)
    (s : State) : (l.foldl f s).dev.trailers = s.dev.trailers := by
  induction l generalizing s with
  | nil => rfl
  | cons x l ih => exact (ih _).trans (hf s x)

theorem State.watchAll_trailers (s : State) (w : WaitRec) (use : Word → SchedUse) (arms : List (Word × Word)) :
    (s.watchAll w use arms).dev.trailers = s.dev.trailers := by
  unfold State.watchAll
  split
  · rfl
  · exact foldl_trailers (fun s (a : Word × Word) => (State.pump_trailers _ : (s.addWatch w.id (use a.1) a.1 a.2).dev.trailers = _)) ..

theorem State.ripen_trailers (s : State) (w : WaitRec) : (s.ripen w).dev.trailers = s.dev.trailers := by
  have acquired := Below.foldl (fun s (x : BitVec 17 × BitVec 48) => s.acquire_below x.1 x.2) w.acquires s
  unfold State.ripen
  dsimp only
  split <;> exact acquired.trailers

theorem State.armActor_trailers (s : State) (w : WaitRec) (ws : List Word) :
    (s.armActor w ws).dev.trailers = s.dev.trailers := by
  unfold State.armActor
  dsimp only
  split
  · rfl
  · split
    · rfl
    · split <;> rename_i e <;> have armed := ((State.actorArms_below _ _ s).fst e).trailers
      · exact armed
      · exact armed
      · exact armed
      · split
        · exact (State.ripen_trailers ..).trans armed
        · exact (State.watchAll_trailers ..).trans armed

theorem State.relist_trailers (s : State) (w : WaitRec) : (s.relist w).dev.trailers = s.dev.trailers := by
  unfold State.relist
  split
  · exact s.armActor_trailers ..
  · split
    · exact (s.readList_below w).trailers
    · rfl

theorem State.sluiceAgain_trailers (s : State) (e : SluiceEntry) : (s.sluiceAgain e).dev.trailers = s.dev.trailers :=
  (State.sluiceRegister_below _ _).trailers

theorem State.pageArrived_trailers (s : State) (sp : BitVec 16) (page : Word) :
    (s.pageArrived sp page).dev.trailers = s.dev.trailers := by
  unfold State.pageArrived
  dsimp only
  refine (foldl_trailers State.relist_trailers ..).trans ((foldl_trailers State.sluiceAgain_trailers ..).trans ?_)
  exact (State.answerAll_below _ _).trailers

/-! ### The page that is placed -/

theorem State.poisonLines_below (s : State) (pa : Nat) (ks : List Nat) : Below s (s.poisonLines pa ks) :=
  Below.foldl (fun s _ => s.setHbmPoison_below ..) ks s

theorem State.fillPage_below (sp : BitVec 16) (page : Word) (pa : Nat) (mode : BitVec 2) (n : Nat) :
    ∀ (s : State) (k : Nat) (bs : List Byte), Below s (s.fillPage sp page pa mode n k bs) := by
  induction n with
  | zero => exact fun s k bs => .rfl
  | succ n ih => exact fun s k bs => (s.portWrite_below ..).trans (ih ..)

theorem State.placePage_below (s : State) (t : Trailer) (pa : Nat) (data : Option (List Byte)) : Below s (s.placePage t pa data) := by
  unfold State.placePage
  dsimp only
  split
  · split <;> exact ((s.sealedInit_below ..).fst ‹_›).trans (State.poisonLines_below ..)
  · exact (State.fillPage_below ..).trans (State.poisonLines_below ..)

/-! ### The next generation of a space -/

theorem State.serviceAnswers_below (es : List SluiceEntry) : ∀ s : State, Below s (s.serviceAnswers es) := by
  induction es with
  | nil => exact fun s => .rfl
  | cons e es ih =>
    intro s
    unfold State.serviceAnswers
    split
    · have word := (s.serviceWord_below e).fst ‹_›
      split
      · exact (word.trans ((State.setSvc_below ..).trans (State.tell_below ..))).trans (ih _)
      · exact word.trans (ih _)
    · exact ((s.serviceWord_below e).fst ‹_›).trans (ih _)

theorem State.serviceNotify_below (s : State) : Below s s.serviceNotify := by
  unfold State.serviceNotify
  dsimp only
  exact ((s.setSvc_below _).trans (State.serviceAnswers_below ..)).trans
    ((State.setSvc_below ..).trans (Below.foldl (fun s _ => s.serviceRegister_below _) ..))

theorem State.advanceGen_trailers (s : State) (sp : BitVec 16) : (s.advanceGen sp).dev.trailers = s.dev.trailers := by
  unfold State.advanceGen
  split
  · rfl
  · dsimp only
    refine (State.serviceNotify_below _).trailers.trans ?_
    split <;> rfl

/-- An address of a page's first byte is its page. -/
theorem page_of_aligned {x : Word} (h : x &&& 0xFFF = 0) : x &&& ~~~0xFFF = x := by
  have parts : x &&& ~~~0xFFF ||| x &&& 0xFFF = x := by
    rw [← BitVec.and_or_distrib_left, show (~~~0xFFF ||| 0xFFF : Word) = BitVec.allOnes 64 by decide, BitVec.and_allOnes]
  rw [h] at parts
  exact BitVec.or_zero.symm.trans parts

/-- A page that comes in takes its trailer away. -/
theorem pageIn_takesTrailer {s : State} {sp : BitVec 16} {page : Word} {frame place : Nat} {leaf : Word} {x : Trailer}
    (d : PageData) (aligned : page &&& 0xFFF = 0)
    (hx : s.dev.trailers.find? (fun t => t.space == sp && t.page == page) = some x) (hl : s.leafAt sp page = some (place, leaf))
    (hf : frame % 4096 = 0) (low : s.base ≤ frame) (high : frame + 4096 ≤ s.base + reservedTop) (free : s.frameMode frame = none) :
    ∃ t, exec (.pageIn sp page frame d) s = .next t ∧ x ∉ t.dev.trailers := by
  have whole : page &&& ~~~0xFFF = page := page_of_aligned aligned
  have pa : frame / 4096 * 4096 = frame := by omega
  let v := (s.setFrameMode frame (pteMode x.leaf)).placePage x frame (s.pagePlain x d)
  let u := (v.setMem (Mem.setWord v.mem (hbmKey place) (x.leaf ||| (BitVec.ofNat 64 (frame / 4096) <<< 10) ||| 1))).setDev
    { v.dev with trailers := v.dev.trailers.filter fun y => y != x }
  refine ⟨(u.advanceGen sp).pageArrived sp page, ?_, fun h => ?_⟩
  · show execPageIn sp page frame d s = _
    unfold execPageIn
    dsimp only
    rw [whole, hx]
    dsimp only
    rw [hl, pa]
    dsimp only
    rw [free, if_neg (by simpa using ⟨low, high⟩)]
    rfl
  · rw [State.pageArrived_trailers, State.advanceGen_trailers] at h
    simpa using (List.mem_filter.1 h).2

end Sys2Proof.Machine

namespace Sys2Proof.Machine

/-! ## O59: page requests and migrations (R152 to R158) -/

/-- A page request at a near offset, or a reserved one, changes nothing. -/
theorem State.servePage_low {s : State} {x : Word} (away : homeOf x ≠ s.service) (low : (offOf x).toNat < 0x2000000)
    (sp : BitVec 16) : (s.servePage sp x).1 = s := by
  have near : isNear (offOf x).toNat = true := by simpa [isNear] using low
  unfold State.servePage
  dsimp only
  rw [if_neg away, near]
  split <;> rfl

/-- A page request of another core is answered. -/
theorem pageRequest_answers {s : State} {addr : Word} {tag : Nat} (sp : BitVec 16) (other : tag < 2 ^ 32)
    (away : homeOf addr ≠ s.service) (low : (offOf addr).toNat < 0x2000000) :
    ∃ t, exec (.pageRequest sp addr tag) s = .next t ∧ ∃ r, t.outbox = s.outbox ++ [.pageReply tag r] := by
  refine ⟨s.send (.pageReply tag (s.servePage sp addr).2), ?_, _, rfl⟩
  show execPageRequest sp addr tag s none = _
  unfold execPageRequest receive
  dsimp only
  rw [State.servePage_low away low, if_neg (by simpa using other)]
  rfl

/-- What a scalar result that reaches its core leaves of it. -/
theorem Core.deliver_frame (c : Core) (id : Nat) (v : PVal) :
    (c.deliver id v).pgreqs = c.pgreqs ∧ (c.deliver id v).wait = c.wait := by
  obtain ⟨b0, b1, b2, r, f, h⟩ := ({ c with owed := c.owedPast id } : Core).fill_frame id (c.owedTo id) v
  rw [Core.deliver_eq, h]
  exact ⟨rfl, rfl⟩

/-- The slot of a page request takes its answer; the requests that stand, and an empty list of waits, stay. -/
theorem State.pageSlot_frame (s : State) (k : Fin 16) (id : Nat) (r : PageReply) :
    (s.pageSlot k id r).core.pgreqs = s.core.pgreqs ∧ (s.core.wait = [] → (s.pageSlot k id r).core.wait = []) := by
  unfold State.pageSlot
  dsimp only
  split
  · exact ⟨rfl, fun h => h⟩
  · split
    · rw [(State.watchWord_below ..).cores.1]
      exact ⟨rfl, fun h => h⟩
    · exact ⟨rfl, fun h => h⟩
    · exact ⟨rfl, fun h => congrArg (List.map Wait.addLost) h⟩

/-- A page request that is answered no longer stands. -/
theorem pageRequestReply_ends {s : State} {id : Nat} {k : Fin 16} {tag : BitVec 4} {x : Word} (r : PageReply)
    (h : s.core.pgreqs.find? (fun y => y.2.1 == k && y.2.2.1 == tag) = some (id, k, tag, x)) (hw : s.core.wait = []) :
    ∃ t, exec (.pageRequestReply s.core.num k tag r) s = .next t ∧ t.core.pgreqs = s.core.pgreqs.filter fun y => y.1 != id := by
  let u := s.untrack (watchReq (.slot s.home s.quadNo s.core.num k tag))
  let c := s.core.deliver id (.scalar (pageReplyValue r))
  let v := u.setCore { c with pgreqs := c.pgreqs.filter fun y => y.1 != id }
  obtain ⟨requests, waits⟩ := s.core.deliver_frame id (.scalar (pageReplyValue r))
  obtain ⟨requests', waits'⟩ := v.pageSlot_frame k id r
  refine ⟨v.pageSlot k id r, ?_, requests'.trans (congrArg (List.filter _) requests)⟩
  show execPageRequestReply s.core.num k tag r s none = _
  unfold execPageRequestReply receive
  dsimp only
  rw [onCore_self (by rw [List.any_of_mem (List.mem_of_find?_eq_some h) (List.find?_some h)]; simp), h]
  show Host.Outcome.next ((v.pageSlot k id r).core.wait.foldl State.wake _) = _
  rw [waits' (waits.trans hw)]
  rfl

/-- The first pass of a migration begins it. -/
theorem migration_begins {s : State} {sp : BitVec 16} {page : Word} {place : Nat} {leaf : Word} (tier : BitVec 2)
    (handle : BitVec 44) (aligned : page &&& 0xFFF = 0) (hl : s.leafAt sp page = some (place, leaf))
    (valid : leaf.getLsbD 0 = true) (loose : leaf.getLsbD 54 = false) (idle : s.cl.mig = none)
    (good : (s.checkLines sp .load ((List.range 64).map fun k => (offOf page).toNat + 64 * k)).2 = none) :
    ∃ t, exec (.migration sp page .copy tier handle) s = .next t ∧ t.cl.mig.map (fun m => (m.space, m.page)) = some (sp, page) := by
  show ∃ t, execMigration sp page .copy tier handle s = .next t ∧ _
  unfold execMigration
  dsimp only
  rw [page_of_aligned aligned, hl]
  dsimp only
  rw [valid, loose, idle, if_neg (by decide)]
  dsimp only
  split
  · next e => rw [e] at good; cases good
  · exact ⟨_, rfl, rfl⟩

/-- A block that has lasted its time ends its migration. -/
theorem migrationBlockEnd_ends {s : State} (h : (s.cl.mig.any fun m => m.blocked.any fun c => decide (c + 200 ≤ s.dev.clk)) = true) :
    ∃ t, exec .migrationBlockEnd s = .next t ∧ t.cl.mig = none := by
  refine ⟨s.setCl { s.cl with mig := none }, ?_, rfl⟩
  show execMigrationBlockEnd s = _
  unfold execMigrationBlockEnd
  rw [if_pos (by exact h)]

/-! ### The frames' modes -/

/-- Of the cluster the counts alone change. -/
def Counted (s t : State) : Prop := ∃ n, t.cl = { s.cl with counts := n }

theorem Counted.of_eq {s t : State} (h : t.cl = s.cl) : Counted s t := ⟨s.cl.counts, h⟩

theorem Counted.trans {s t u : State} (h : Counted s t) (g : Counted t u) : Counted s u := by
  obtain ⟨m, h⟩ := h
  obtain ⟨n, g⟩ := g
  exact ⟨n, by rw [g, h]⟩

theorem Counted.fst {α : Type} {s t : State} {x : State × α} {a : α} (h : Counted s x.1) (e : x = (t, a)) : Counted s t := by
  rwa [e] at h

theorem Counted.modes {s t : State} (h : Counted s t) : t.cl.modes = s.cl.modes := by
  obtain ⟨n, h⟩ := h
  rw [h]

theorem State.setSvc_counted (s : State) (v : Service) : Counted s (s.setSvc v) := .of_eq rfl

theorem State.evictSession_counted (s : State) : Counted s s.evictSession := by
  unfold State.evictSession
  dsimp only
  split
  · exact .of_eq rfl
  · split
    · exact .of_eq rfl
    · exact ⟨_, rfl⟩

theorem State.sendNysil_counted (s : State) (d : BitVec 10) (k : BitVec 6) (t : BitVec 7) (a : Bool) (m : Msg) :
    Counted s (s.sendNysil d k t a m) := State.evictSession_counted _

theorem State.sendHome_counted (s : State) (h : BitVec 17) (sp : BitVec 16) (t : BitVec 7) (m : Msg) :
    Counted s (s.sendHome h sp t m) := by
  unfold State.sendHome
  split
  · exact .of_eq rfl
  · exact s.sendNysil_counted ..

theorem State.tell_counted (s : State) (sp : BitVec 16) (who : Requester) (e : WatchEnd) : Counted s (s.tell sp who e) := by
  unfold State.tell
  dsimp only
  split
  · split
    · exact .of_eq rfl
    · exact s.sendHome_counted ..
  · split
    · exact .of_eq rfl
    · exact s.sendHome_counted ..
  · exact s.sendHome_counted ..

theorem State.serviceFill_counted (s : State) (d : SpaceDesc) (va : Word) (l : Leaf) : Counted s (s.serviceFill d va l) := by
  have watched : Counted s (s.serviceWatch d) := by
    unfold State.serviceWatch
    dsimp only
    split
    · exact .of_eq rfl
    · split <;> exact .of_eq rfl
  unfold State.serviceFill
  dsimp only
  split
  · exact watched
  · exact watched.trans (.of_eq rfl)

theorem State.serviceTranslate_counted (s : State) (sp : BitVec 16) (va : Word) (n : Need) :
    Counted s (s.serviceTranslate sp va n).1 := by
  unfold State.serviceTranslate
  split
  · exact .of_eq rfl
  · split
    · exact .of_eq rfl
    · split
      · exact .of_eq rfl
      · exact .of_eq rfl
      · exact s.serviceFill_counted ..

theorem State.serviceAt_counted (s : State) (sp : BitVec 16) (off n : Nat) (need : Need) :
    Counted s (s.serviceAt sp off n need).1 := by
  unfold State.serviceAt
  dsimp only
  split
  · exact .of_eq rfl
  · split <;> exact (s.serviceTranslate_counted ..).fst ‹_›

theorem State.serviceGo_counted (sp : BitVec 16) (off n : Nat) (need : Need) (gs : List Nat) :
    ∀ s : State, Counted s (s.serviceGo sp off n need gs).1 := by
  induction gs with
  | nil => exact fun s => .of_eq rfl
  | cons g gs ih =>
    intro s
    unfold State.serviceGo
    dsimp only
    split
    · exact (s.serviceAt_counted ..).fst ‹_›
    · have first := (s.serviceAt_counted ..).fst ‹_›
      split <;> exact first.trans ((ih _).fst ‹_›)

theorem State.serviceWord_counted (s : State) (e : SluiceEntry) : Counted s (s.serviceWord e).1 := by
  unfold State.serviceWord
  split
  · exact .of_eq rfl
  · split <;> exact (State.serviceGo_counted _ _ _ _ _ s).fst ‹_›

theorem State.serviceRegister_counted (s : State) (e : SluiceEntry) : Counted s (s.serviceRegister e) := by
  have asked : Counted s (s.askServiceTicket e) := by
    unfold State.askServiceTicket
    split
    · split <;> exact .of_eq rfl
    · exact .of_eq rfl
  unfold State.serviceRegister
  split
  · exact s.tell_counted ..
  · split
    · exact .of_eq rfl
    · refine asked.trans ?_
      generalize s.askServiceTicket e = t
      dsimp only
      split
      · exact ((t.serviceWord_counted e).fst ‹_›).trans (State.tell_counted ..)
      · exact ((t.serviceWord_counted e).fst ‹_›).trans (State.tell_counted ..)
      · next he => exact ((t.serviceWord_counted e).fst he).trans (.of_eq rfl)
      · have word := (t.serviceWord_counted e).fst ‹_›
        split
        · exact word.trans (State.tell_counted ..)
        · split
          · exact word.trans (State.tell_counted ..)
          · exact word.trans (State.tell_counted ..)

theorem Counted.foldl {β : Type} {f : State → β → State} (hf : ∀ s x, Counted s (f s x)) (l : List β) (s : State) :
    Counted s (l.foldl f s) := by
  induction l generalizing s with
  | nil => exact .of_eq rfl
  | cons x l ih => exact (hf s x).trans (ih _)

theorem State.serviceAnswers_counted (es : List SluiceEntry) : ∀ s : State, Counted s (s.serviceAnswers es) := by
  induction es with
  | nil => exact fun s => .of_eq rfl
  | cons e es ih =>
    intro s
    unfold State.serviceAnswers
    split
    · next he =>
      have word := (s.serviceWord_counted e).fst he
      split
      · exact word.trans (((State.setSvc_counted _ _).trans (State.tell_counted ..)).trans (ih _))
      · exact word.trans (ih _)
    · next he => exact ((s.serviceWord_counted e).fst he).trans (ih _)

theorem State.serviceNotify_counted (s : State) : Counted s s.serviceNotify := by
  have answered : Counted s (s.serviceTickets.serviceAnswers s.serviceTickets.dev.svc.sluice) :=
    (State.setSvc_counted s _).trans (State.serviceAnswers_counted ..)
  exact answered.trans ((State.setSvc_counted _ _).trans (Counted.foldl State.serviceRegister_counted _ _))

theorem State.advanceGen_modes (s : State) (sp : BitVec 16) : (s.advanceGen sp).cl.modes = s.cl.modes := by
  unfold State.advanceGen
  split
  · rfl
  · dsimp only
    refine (State.serviceNotify_counted _).modes.trans ?_
    split <;> rfl

/-- A frame that is freed keeps no mode. -/
theorem pageTableChange_frees (s : State) (sp : BitVec 16) (frame : Nat) :
    ∃ t, exec (.pageTableChange (.freeFrame sp frame)) s = .next t ∧ ∀ x ∈ t.cl.modes, x.1 ≠ frame / 4096 := by
  refine ⟨_, rfl, fun x hx => ?_⟩
  rw [State.advanceGen_modes] at hx
  simpa using (List.mem_filter.1 hx).2

end Sys2Proof.Machine

namespace Sys2Proof.Machine

/-! ## O59: the clauses together -/

/-- Settles O59, clause by clause: each event runs past its guards to the state that has its first effect. Those of results,
matrix commands and the scheduler rest on the lemmas for O44, O49 and O51. -/
theorem quadAndHomeEventsComplete : Obligations.QuadAndHomeEventsComplete := by
  unfold Obligations.QuadAndHomeEventsComplete
  dsimp only
  refine ⟨fun s p _ => ?results, fun s a r => lineFetch_answers, fun s off => softError_poisons,
    fun s k a off w sext => localAccessPerformed_ld, fun s k g a => translation_fetches,
    fun s sp line => ⟨fun l hn hl _ => sealedFill_fills hn hl, fun n => sealedWriteBack_drops⟩, fun s hd hw hc hn ha ho => ?commit,
    fun s w g ws hw hr hd ha good => ?edges, fun s w hw => ⟨fun v g r hu hv => ?watch, fun hr hs hl => ?retry⟩,
    fun s => ⟨fun q x hq hx ho => ?assignment, fun q x hx => ?aging, fun hr => ?reservation,
      fun hn hr _ => preemptionRequest_marks hn hr, contextSave_leftIdle, fun g m ms => debugResume_joins⟩,
    fun s g m ms => resume_restores, fun s x rest r => vectorGrant_grants,
    fun s => ⟨fun m row0 n => matrixCommandCompletion_azero, splitGranuleBoundary_cuts,
      fun n => ⟨_, exec_powerGovernor s n, rfl⟩⟩,
    fun s ch id line member t l x ht hl hx ho => ⟨fun g d hk => pullLineResponse_copy ht hl ho hk g d,
      lineRerequest_asks ht hl hx ho⟩,
    fun s p xid ch id ret off h _ => waitpPromiseExpiry_misses h, fun s r => readRequest_answers,
    fun s f c => readResponse_fault, fun s sp off thr h q c k tag => watchRegistration_answers, fun s k => watchAnswer_arms,
    watchCancel_cancels, tlbGenerationAnswer_drops, fun s sp off fill tag _ => validationRequest_answers s sp off fill tag,
    fun s e => validationAnswer_removes, fun s sp addr tag => pageRequest_answers sp, fun s id k tag x r => pageRequestReply_ends r,
    fun s sp page frame place leaf x d => pageIn_takesTrailer d,
    fun s sp page place leaf tier handle => migration_begins tier handle, fun s => migrationBlockEnd_ends,
    fun s sp d frame _ => pageTableChange_frees s sp frame⟩
  case results =>
    obtain ⟨byId, idiv, fdiv, -⟩ := resultsArrive s
    have leaves {i : Instr} : (∃ t, exec i s = .next t ∧ ResultIn s t p) →
        ∃ t, exec i s = .next t ∧ ∀ x ∈ t.core.pend, x.id ≠ p.id := fun ⟨t, run, arrived⟩ => ⟨t, run, arrived.leaves⟩
    exact ⟨fun h => leaves (byId p h), fun h => leaves (idiv p h), fun h => leaves (fdiv p h)⟩
  case commit =>
    obtain ⟨t, done, -⟩ := commit_nothing hd hw hn ha ho hc
    exact ⟨t, done⟩
  case edges =>
    obtain ⟨t, run, -, watched⟩ := (edgeListRead_words hw hr hd ha g ws).1 good
    exact ⟨t, run, fun e he => (watched e he).imp fun x hx => ⟨hx.1, hx.2.1⟩⟩
  case watch =>
    obtain ⟨t, ⟨run, -⟩, joined, -⟩ := watchAnswer_residency hw [] hu hv g
    exact ⟨t, run, joined⟩
  case retry =>
    obtain ⟨u, id, sp, type, -, outbox, run⟩ := exec_watchRetry_request hw hr hs hl
    exact ⟨_, run, outbox ▸ u.request_outbox_ne _ _ _ _ _⟩
  case assignment =>
    obtain ⟨t, run, -, lists, -⟩ := assignment_spec hq hx ho
    exact ⟨t, run, (lists q).trans (if_pos rfl)⟩
  case aging =>
    obtain ⟨t, run, -, lists⟩ := aging_spec hx
    exact ⟨t, run, (lists q).trans (if_pos rfl)⟩
  case reservation =>
    rw [exec_quadReservation, hr]
    exact ⟨_, rfl, rfl⟩

end Sys2Proof.Machine

namespace Sys2Proof.Machine

/-! ## What a floating-point code stands for (R77)

The tests of a code's fields and of its exact value are the same tests. -/

section
variable {p : FloatShape} {code : Nat}

/-- The sign bit of a code, above its exponent and fraction. -/
def signBit (p : FloatShape) (code : Nat) : Bool := decide (code / 2 ^ (p.fb + p.eb) % 2 = 1)

theorem floatVal_nan (ieee : p.ieee = true) (ones : code / 2 ^ p.fb % 2 ^ p.eb = 2 ^ p.eb - 1) (frac : code % 2 ^ p.fb ≠ 0) :
    floatVal p code = .nan := by
  simp [floatVal, ieee, ones, frac]

theorem floatVal_inf (ieee : p.ieee = true) (ones : code / 2 ^ p.fb % 2 ^ p.eb = 2 ^ p.eb - 1) (frac : code % 2 ^ p.fb = 0) :
    floatVal p code = .inf (signBit p code) := by
  simp [floatVal, signBit, ieee, ones, frac]

/-- A code whose exponent is not all ones is finite, and is a zero where all its bits below the sign are. -/
theorem floatVal_finite (finite : code / 2 ^ p.fb % 2 ^ p.eb ≠ 2 ^ p.eb - 1) :
    ∃ m e, floatVal p code = .fin (signBit p code) m e ∧ (m = 0 ↔ code % 2 ^ (p.fb + p.eb) = 0) := by
  have fields : code % 2 ^ (p.fb + p.eb) = code % 2 ^ p.fb + 2 ^ p.fb * (code / 2 ^ p.fb % 2 ^ p.eb) := by
    rw [pow_add, Nat.mod_mul]
  have unit := Nat.two_pow_pos p.fb
  rw [fields]
  by_cases subnormal : code / 2 ^ p.fb % 2 ^ p.eb = 0
  · refine ⟨code % 2 ^ p.fb, 1 - p.bias - p.fb, ?_, by simp [subnormal]⟩
    rw [subnormal] at finite
    simp [floatVal, signBit, subnormal, finite]
  · refine ⟨code % 2 ^ p.fb + 2 ^ p.fb, (code / 2 ^ p.fb % 2 ^ p.eb : Nat) - p.bias - p.fb, ?_, by simp [subnormal]⟩
    simp [floatVal, signBit, subnormal, finite]

end

/-! ## Special values of the exact operations (R101-R103) -/

namespace Val
variable {x y : Val}

theorem add_nan (h : x = .nan ∨ y = .nan) : x.add y = (.nan, 0) := by
  rcases h with rfl | rfl
  · cases y <;> rfl
  · cases x <;> rfl

theorem mul_nan (h : x = .nan ∨ y = .nan) : x.mul y = (.nan, 0) := by
  rcases h with rfl | rfl
  · cases y <;> rfl
  · cases x <;> rfl

theorem div_nan (h : x = .nan ∨ y = .nan) : x.div y = (.nan, 0) := by
  rcases h with rfl | rfl
  · cases y <;> rfl
  · cases x <;> rfl

theorem neg_nan_iff : x.neg = .nan ↔ x = .nan := by
  cases x <;> simp [Val.neg]

theorem isNan_iff : x.isNan = true ↔ x = .nan := by
  cases x <;> simp [Val.isNan]

theorem isNan_eq_false (h : x ≠ .nan) : x.isNan = false := Bool.eq_false_iff.2 fun nan => h (isNan_iff.1 nan)

/-- A finite value that is not zero, divided by a zero. -/
theorem div_zero {s t : Bool} {m : Nat} {e f : Int} (h : m ≠ 0) : (Val.fin s m e).div (.fin t 0 f) = (.inf (s != t), fDZ) := by
  simp [Val.div, h]

theorem sqrt_neg {m : Nat} {e : Int} (h : m ≠ 0) : (Val.fin true m e).sqrt = (.nan, fNV) := by
  simp [Val.sqrt, h]

theorem sqrt_zero (s : Bool) (e : Int) : (Val.fin s 0 e).sqrt = (.fin s 0 0, 0) := rfl

end Val

/-! ## FMINMAX and its NaN operands (R103) -/

section
variable {x y : Nat}

/-- Without `num`, any NaN operand gives the format's default NaN. -/
theorem fpMinMax_nan (f : Fmt) (mx : Bool) (h : codeVal f false x = .nan ∨ codeVal f false y = .nan) :
    fpMinMax f mx false x y = (roundTo f false .nan).1 := by
  rcases h with h | h
  · cases hy : (codeVal f false y).isNan <;> simp [fpMinMax, Val.isNan_iff.2 h, hy]
  · cases hx : (codeVal f false x).isNan <;> simp [fpMinMax, Val.isNan_iff.2 h, hx]

/-- With `num`, a single NaN is passed over. -/
theorem fpMinMax_num_nan_left (f : Fmt) (mx : Bool) (hx : codeVal f false x = .nan) (hy : codeVal f false y ≠ .nan) :
    fpMinMax f mx true x y = y := by
  simp [fpMinMax, Val.isNan_iff.2 hx, Val.isNan_eq_false hy]

theorem fpMinMax_num_nan_right (f : Fmt) (mx : Bool) (hx : codeVal f false x ≠ .nan) (hy : codeVal f false y = .nan) :
    fpMinMax f mx true x y = x := by
  simp [fpMinMax, Val.isNan_iff.2 hy, Val.isNan_eq_false hx]

end

/-! ## The special cases in FP32 -/

theorem rounded_fp32_nan (flags : BitVec 5) : rounded .fp32 (.nan, flags) = (0x7FC00000, flags) :=
  Prod.ext rfl (BitVec.or_zero (x := flags))

theorem rounded_fp32_inf (neg : Bool) (flags : BitVec 5) :
    rounded .fp32 (.inf neg, flags) = (0x7F800000 + if neg then 0x80000000 else 0, flags) :=
  Prod.ext (by cases neg <;> rfl) (BitVec.or_zero (x := flags))

theorem rounded_fp32_zero (neg : Bool) (flags : BitVec 5) :
    rounded .fp32 (.fin neg 0 0, flags) = (if neg then 0x80000000 else 0, flags) :=
  Prod.ext (by cases neg <;> rfl) (BitVec.or_zero (x := flags))

/-- A NaN operand gives the default NaN and no flag (R101), an FMINMAX without `num` gives it as well (R103), and the pair is
unordered (R104). -/
theorem fp32_nan_operand {x y : Nat} (h : codeVal .fp32 false x = .nan ∨ codeVal .fp32 false y = .nan) :
    fpAdd .fp32 x y = (0x7FC00000, 0) ∧ fpSub .fp32 x y = (0x7FC00000, 0) ∧ fpMul .fp32 x y = (0x7FC00000, 0) ∧
      fpDiv .fp32 x y = (0x7FC00000, 0) ∧ (∀ mx, fpMinMax .fp32 mx false x y = 0x7FC00000) ∧
      (fpCond .fp32 .un x y).1 = true := by
  refine ⟨?add, ?sub, ?mul, ?div, fun mx => ?minmax, ?un⟩
  case add => rw [fpAdd, Val.add_nan h, rounded_fp32_nan]
  case sub => rw [fpSub, Val.add_nan (h.imp_right Val.neg_nan_iff.2), rounded_fp32_nan]
  case mul => rw [fpMul, Val.mul_nan h, rounded_fp32_nan]
  case div => rw [fpDiv, Val.div_nan h, rounded_fp32_nan]
  case minmax => exact fpMinMax_nan .fp32 mx h
  case un => simpa [fpCond, Val.isNan_iff] using h

/-! ## O19 -/

section
variable {a : BitVec 32}

theorem signBit_fp32 (a : BitVec 32) : signBit shFp32 a.toNat = a.msb := by
  have h := a.isLt
  rw [BitVec.msb_eq_decide, signBit, decide_eq_decide]
  show a.toNat / 2 ^ 31 % 2 = 1 ↔ 2 ^ 31 ≤ a.toNat
  omega

theorem codeVal_fp32_finite (finite : a.toNat / 2 ^ 23 % 2 ^ 8 ≠ 255) :
    ∃ m e, codeVal .fp32 false a.toNat = .fin a.msb m e ∧ (m = 0 ↔ a.toNat % 2 ^ 31 = 0) :=
  signBit_fp32 a ▸ floatVal_finite (p := shFp32) finite

theorem codeVal_fp32_inf (ones : a.toNat / 2 ^ 23 % 2 ^ 8 = 255) (frac : a.toNat % 2 ^ 23 = 0) :
    codeVal .fp32 false a.toNat = .inf a.msb := signBit_fp32 a ▸ floatVal_inf (p := shFp32) rfl ones frac

theorem codeVal_fp32_nan_iff :
    codeVal .fp32 false a.toNat = .nan ↔ a.toNat / 2 ^ 23 % 2 ^ 8 = 255 ∧ a.toNat % 2 ^ 23 ≠ 0 := by
  constructor
  · intro nan
    by_cases ones : a.toNat / 2 ^ 23 % 2 ^ 8 = 255
    · refine ⟨ones, fun frac => ?_⟩
      rw [codeVal_fp32_inf ones frac] at nan
      cases nan
    · obtain ⟨m, e, fin, -⟩ := codeVal_fp32_finite ones
      rw [fin] at nan
      cases nan
  · exact fun ⟨ones, frac⟩ => floatVal_nan (p := shFp32) rfl ones frac

theorem codeVal_fp32_zero (zero : a.toNat % 2 ^ 31 = 0) : ∃ e, codeVal .fp32 false a.toNat = .fin a.msb 0 e := by
  have finite : a.toNat / 2 ^ 23 % 2 ^ 8 ≠ 255 := by omega
  obtain ⟨m, e, fin, mag⟩ := codeVal_fp32_finite finite
  exact ⟨e, mag.2 zero ▸ fin⟩

theorem fpDiv_fp32_zero {b : BitVec 32} (finite : a.toNat / 2 ^ 23 % 2 ^ 8 ≠ 255) (nonzero : a.toNat % 2 ^ 31 ≠ 0)
    (zero : b.toNat % 2 ^ 31 = 0) :
    fpDiv .fp32 a.toNat b.toNat = (0x7F800000 + if a.msb = b.msb then 0 else 0x80000000, 2) := by
  obtain ⟨m, e, ha, mag⟩ := codeVal_fp32_finite finite
  obtain ⟨f, hb⟩ := codeVal_fp32_zero zero
  rw [fpDiv, ha, hb, Val.div_zero (mag.not.2 nonzero), rounded_fp32_inf]
  cases a.msb <;> cases b.msb <;> rfl

theorem fpSqrt_fp32_neg (neg : a.msb = true) (nonzero : a.toNat % 2 ^ 31 ≠ 0)
    (number : ¬ (a.toNat / 2 ^ 23 % 2 ^ 8 = 255 ∧ a.toNat % 2 ^ 23 ≠ 0)) : fpSqrt .fp32 a.toNat = (0x7FC00000, 1) := by
  have root : (codeVal .fp32 false a.toNat).sqrt = (.nan, fNV) := by
    by_cases ones : a.toNat / 2 ^ 23 % 2 ^ 8 = 255
    · have frac : a.toNat % 2 ^ 23 = 0 := by_contra fun h => number ⟨ones, h⟩
      rw [codeVal_fp32_inf ones frac, neg]
      rfl
    · obtain ⟨m, e, fin, mag⟩ := codeVal_fp32_finite ones
      rw [fin, neg, Val.sqrt_neg (mag.not.2 nonzero)]
  rw [fpSqrt, root, rounded_fp32_nan]
  rfl

theorem fpSqrt_fp32_zero (zero : a.toNat % 2 ^ 31 = 0) : fpSqrt .fp32 a.toNat = (a.toNat, 0) := by
  obtain ⟨e, fin⟩ := codeVal_fp32_zero zero
  have code : (if a.msb then 0x80000000 else 0) = a.toNat := by
    have h := a.isLt
    simp only [BitVec.msb_eq_decide, decide_eq_true_eq]
    split <;> omega
  rw [fpSqrt, fin, Val.sqrt_zero, rounded_fp32_zero, code]

end

/-- Settles O19: the fields of a code say which exact value it stands for, and each operation has its rule for that value. -/
theorem floatSpecialCases : Obligations.FloatSpecialCases := by
  unfold Obligations.FloatSpecialCases
  intro a b nan finite zero
  have nan_iff {x : BitVec 32} : codeVal .fp32 false x.toNat = .nan ↔ nan x := codeVal_fp32_nan_iff
  refine ⟨fun h => fp32_nan_operand (h.imp nan_iff.2 nan_iff.2), fun ha hb mx => ?_, fun hb ha mx => ?_, fpDiv_fp32_zero,
    fpSqrt_fp32_neg, fpSqrt_fp32_zero⟩
  · exact fpMinMax_num_nan_left .fp32 mx (nan_iff.2 ha) (nan_iff.not.2 hb)
  · exact fpMinMax_num_nan_right .fp32 mx (nan_iff.not.2 ha) (nan_iff.2 hb)

/-! ## O18 -/

/-- An instruction of the floating-point unit that is ready owes its result and flags `lat` clk from issue. -/
theorem fpLater_spec {i : Instr} {s : State} {d : NDst} {r : Nat × BitVec 5} {lat : Nat} (run : exec i s = fpLater i s d r lat)
    (h : ready i s = true) :
    ∃ t, exec i s = .next t ∧ LaterResult s t d .fp (BitVec.ofNat 64 r.1) r.2 (s.dev.clk + lat) :=
  ⟨_, run.trans (gate_ready _ h), s.resultAt_spec ..⟩

/-- A division or root that is ready and finds room on the divider owes its result in its turn. -/
theorem fpDivide_spec {i : Instr} {s : State} {d : NDst} {r : Nat × BitVec 5} {lat : Nat} (run : exec i s = fpDivide i s d r lat)
    (h : ready i s = true) (room : (s.core.onDivider .fdiv).length < 2) :
    ∃ t, exec i s = .next t ∧ LaterResult s t d .fdiv (BitVec.ofNat 64 r.1) r.2 (s.core.divDue .fdiv s.dev.clk lat) := by
  rw [run, fpDivide, gate_ready _ h, if_neg (by omega)]
  exact ⟨_, rfl, s.resultAt_spec ..⟩

/-- Settles O18: each instruction is its unit's shared operation on the low bits of its operands, with its latency (R98, R99). -/
theorem floatResultsArriveAtTheirTimes : Obligations.FloatResultsArriveAtTheirTimes := by
  unfold Obligations.FloatResultsArriveAtTheirTimes
  refine ⟨fun s f d a b => ?_, fun s dst src dstU srcU d a h => fpLater_spec rfl h⟩
  refine ⟨fpLater_spec rfl, fpLater_spec rfl, fpLater_spec rfl, fun b' => fpLater_spec rfl, fun mx num => fpLater_spec rfl,
    fun c => fpLater_spec rfl, ?div, ?sqrt⟩
  case div => cases f <;> exact fpDivide_spec rfl
  case sqrt => cases f <;> exact fpDivide_spec rfl

end Sys2Proof.Machine

namespace Sys2Proof.Machine

/-! ## O26 -/

/-- Check 1 of R166 fails first. -/
theorem State.issueCheck_misaligned (s : State) {align off n : Nat} {writes : Bool} (h : off % align ≠ 0) :
    s.issueCheck align writes [(off, n)] = some (0x06, BitVec.ofNat 64 off) := by
  simp [State.issueCheck, firstBad, h]

section
variable {s : State} {d : NDst} {a : Src} {b : SrcImm}

/-- SQADV past its gate and its checks at issue: the form decides. -/
theorem execSqadv_checked {now : Bool} {kind : AccKind} (hr : ready (.sqadv now d a b) s = true)
    (ranges : kind.ranges = [(((s.src a).setWidth 40).toNat, 8)]) (ok : IssueOk s 8 true kind) :
    exec (.sqadv now d a b) s =
      if now then advanceNow d ((s.src a).setWidth 40) (s.srcImm b) s
      else if s.core.commitFull then .next (s.trap 0x11 32)
      else .next ((s.defer (.advance ((s.src a).setWidth 40) (s.srcImm b) s.id false)).addAccess
        (.advCheck ((s.src a).setWidth 40)) false [] (s.dev.clk + (s.accessTime ((s.src a).setWidth 40).toNat - 1))) := by
  have checked := State.issueCheck_ok ok
  rw [ranges] at checked
  change execSqadv now d a b s = _
  rw [execSqadv]
  simp only [gate_ready _ hr, checked, ok.acquire, Bool.false_eq_true, if_false]

/-- SQADV of a misaligned word traps, whatever its form (R166 check 1). -/
theorem execSqadv_misaligned {now : Bool} (hr : ready (.sqadv now d a b) s = true)
    (off : ((s.src a).setWidth 40).toNat % 8 ≠ 0) :
    exec (.sqadv now d a b) s = .next (s.trap 0x06 (BitVec.ofNat 64 ((s.src a).setWidth 40).toNat)) := by
  change execSqadv now d a b s = _
  rw [execSqadv]
  simp only [gate_ready _ hr, s.issueCheck_misaligned off]

/-- With an empty provisional table and nothing left to wait for, SQADV.NOW issues its access. -/
theorem advanceNow_empty {off : BitVec 40} {inc : Word} (stores : s.core.storesLeft = false)
    (engine : s.core.wait.any Wait.awaitsEngine = false) (table : s.core.prt = []) :
    advanceNow d off inc s =
      .next (s.addAccess (.advance off inc) true (dstOf d).toList (s.dev.clk + s.accessTime off.toNat)) := by
  simp [advanceNow, stores, engine, Core.prtResolved, Core.oldestStruck, table]

/-- With every entry of the provisional table struck, SQADV.NOW traps on the oldest. -/
theorem advanceNow_struck {off : BitVec 40} {inc : Word} {e : PrtEntry} {r : List PrtEntry} (stores : s.core.storesLeft = false)
    (engine : s.core.wait.any Wait.awaitsEngine = false) (table : s.core.prt = e :: r) (struck : ∀ x ∈ s.core.prt, x.struck = true) :
    advanceNow d off inc s = .next (s.trap 0x10 (e.sector ++ 0#5)) := by
  have resolved : s.core.prtResolved = true := List.all_eq_true.2 struck
  have oldest : s.core.oldestStruck = some (e.sector ++ 0#5) := by
    simp [Core.oldestStruck, table, struck e (table ▸ List.mem_cons_self)]
  simp [advanceNow, stores, engine, resolved, oldest]

theorem dstOf_toList (d : NDst) : (dstOf d).toList = d.toList.map Dest.n := by
  cases d <;> rfl

/-- SQWAIT past its gate and its checks at issue: its access joins the list, and the later groups wait for it. -/
theorem execSqwait_checked (hr : ready (.sqwait d a b) s = true)
    (ok : IssueOk s 8 false (.sqwait ((s.src a).setWidth 40) (s.srcImm b))) :
    let u := s.addAccess (.sqwait ((s.src a).setWidth 40) (s.srcImm b)) true (dstOf d).toList
      (s.dev.clk + s.accessTime ((s.src a).setWidth 40).toNat)
    exec (.sqwait d a b) s = .next (u.setCore { u.core with wait := u.core.wait ++ [.sqwait s.cl.nextId] }) := by
  have checked : s.issueCheck 8 false [(((s.src a).setWidth 40).toNat, 8)] = none := State.issueCheck_ok ok
  change execSqwait d a b s = _
  rw [execSqwait]
  simp only [gate_ready _ hr, checked, ok.acquire, Bool.false_eq_true, if_false]
  rfl

end

/-- Settles O26: past its gate and its checks each form is `State.addAccess` or its trap. -/
theorem sequenceInstructions : Obligations.SequenceInstructions := by
  unfold Obligations.SequenceInstructions
  intro s d a b
  refine ⟨fun hr ok => ⟨fun room => ?deferred, fun full => ?full⟩,
    fun hr ok stores engine => ⟨fun table => ?now, fun e r table struck => ?struck⟩,
    fun now hr off => execSqadv_misaligned hr off, fun hr ok => ?wait⟩
  case deferred =>
    rw [execSqadv_checked hr rfl ok, if_neg Bool.false_ne_true, if_neg (by simp [Core.commitFull]; omega)]
    exact ⟨_, rfl, State.addAccess_spec (s.defer _) ..⟩
  case full =>
    rw [execSqadv_checked hr rfl ok, if_neg Bool.false_ne_true, if_pos (show s.core.commitFull = true from decide_eq_true full)]
    rfl
  case now =>
    rw [execSqadv_checked hr rfl ok, if_pos rfl, advanceNow_empty stores engine table, dstOf_toList]
    exact ⟨_, rfl, State.addAccess_spec ..⟩
  case struck =>
    rw [execSqadv_checked hr rfl ok, if_pos rfl, advanceNow_struck stores engine table struck]
    rfl
  case wait => exact ⟨_, _, execSqwait_checked hr ok, dstOf_toList d ▸ State.addAccess_spec .., rfl⟩

end Sys2Proof.Machine

namespace Sys2Proof.Machine

/-! ## O38 -/

/-- Refutes O38: behind eight TMAPSETs that are on their way an AZERO stalls (R270), though `CommandRoom` holds, which counts
the command queue's own entries alone; the queue stays empty, where the statement has the AZERO in it. It is the state that
refutes O33. -/
theorem not_groupEndsPullsAndMatrixFormsComplete : ¬ Obligations.GroupEndsPullsAndMatrixFormsComplete := by
  unfold Obligations.GroupEndsPullsAndMatrixFormsComplete
  intro h
  obtain ⟨-, -, -, matrix⟩ := h
  obtain ⟨commands, -⟩ := matrix eightMapsOwed (.special .zero) (.special .zero) 0 0 0 0
  obtain ⟨azero, -⟩ := commands ⟨rfl, by decide, by decide⟩
  obtain ⟨t, op, due, run, queued, -⟩ := azero (by decide) (by decide)
  rw [exec_azero_eightMapsOwed, stall_eq] at run
  cases run
  simp at queued

end Sys2Proof.Machine

namespace Sys2Proof.Machine

/-! ## What stands above stays: the device's launches -/

section
variable {s t : State} (h : Below s t)
include h

theorem Below.launches : t.dev.launches = s.dev.launches := congrArg (fun x => x.dev.launches) h.above
theorem Below.queues : t.dev.queues = s.dev.queues := congrArg (fun x => x.dev.queues) h.above
theorem Below.reads : t.dev.reads = s.dev.reads := congrArg (fun x => x.dev.reads) h.above
theorem Below.slots : t.dev.slots = s.dev.slots := congrArg (fun x => x.dev.slots) h.above
theorem Below.zeroAt : t.cl.zeroAt = s.cl.zeroAt := congrArg (fun x => x.cl.zeroAt) h.above

theorem Below.launch (g : BitVec 32) : t.launch g = s.launch g := by
  unfold State.launch
  rw [h.launches]

end

/-! ## Reads of home 127 change its own state alone -/

theorem State.serviceWatch_svc (s : State) (d : SpaceDesc) : ∃ v, s.serviceWatch d = s.setSvc v := by
  unfold State.serviceWatch
  dsimp only
  split
  · exact ⟨s.dev.svc, rfl⟩
  · split <;> exact ⟨_, rfl⟩

theorem State.serviceFill_svc (s : State) (d : SpaceDesc) (va : Word) (l : Leaf) : ∃ v, s.serviceFill d va l = s.setSvc v := by
  obtain ⟨v, h⟩ := s.serviceWatch_svc d
  unfold State.serviceFill
  rw [h]
  dsimp only
  split
  · exact ⟨v, rfl⟩
  · exact ⟨_, rfl⟩

theorem State.serviceTranslate_svc (s : State) (sp : BitVec 16) (va : Word) (n : Need) :
    ∃ v, (s.serviceTranslate sp va n).1 = s.setSvc v := by
  unfold State.serviceTranslate
  split
  · exact ⟨s.dev.svc, rfl⟩
  · split
    · exact ⟨s.dev.svc, rfl⟩
    · split
      · exact ⟨s.dev.svc, rfl⟩
      · exact ⟨s.dev.svc, rfl⟩
      · exact s.serviceFill_svc ..

theorem State.serviceAt_svc (s : State) (sp : BitVec 16) (off n : Nat) (need : Need) :
    ∃ v, (s.serviceAt sp off n need).1 = s.setSvc v := by
  unfold State.serviceAt
  dsimp only
  split
  · exact ⟨s.dev.svc, rfl⟩
  · obtain ⟨v, h⟩ := s.serviceTranslate_svc sp (farAddr s.service (BitVec.ofNat 40 off)) need
    split <;> rename_i e <;> rw [e] at h <;> exact ⟨v, h⟩

theorem State.serviceGo_svc (sp : BitVec 16) (off n : Nat) (need : Need) (gs : List Nat) :
    ∀ s : State, ∃ v, (s.serviceGo sp off n need gs).1 = s.setSvc v := by
  induction gs with
  | nil => exact fun s => ⟨s.dev.svc, rfl⟩
  | cons g gs ih =>
    intro s
    obtain ⟨v, first⟩ := s.serviceAt_svc sp (max g off) (min (g + 64) (off + n) - max g off) need
    unfold State.serviceGo
    dsimp only
    split <;> rename_i e <;> rw [e] at first
    · exact ⟨v, first⟩
    · next u pa =>
      obtain ⟨w, rest⟩ := ih u
      have both : u.setSvc w = s.setSvc w := by rw [show u = s.setSvc v from first]; rfl
      split <;> rename_i e' <;> rw [e'] at rest <;> exact ⟨w, rest.trans both⟩

theorem State.serviceBytes_svc (s : State) (sp : BitVec 16) (off n : Nat) (need : Need) :
    ∃ v, (s.serviceBytes sp off n need).1 = s.setSvc v := State.serviceGo_svc ..

/-! ## What the launch table holds does not matter to a read of home 127 -/

section
variable (s : State) (e : LaunchEntry)

theorem State.serviceWatch_putEntry (d : SpaceDesc) : (s.putEntry e).serviceWatch d = (s.serviceWatch d).putEntry e := by
  unfold State.serviceWatch
  dsimp only
  rw [apply_ite (State.putEntry · e), apply_ite (State.putEntry · e)]
  rfl

theorem State.serviceFill_putEntry (d : SpaceDesc) (va : Word) (l : Leaf) :
    (s.putEntry e).serviceFill d va l = (s.serviceFill d va l).putEntry e := by
  have svc (u : State) : (u.putEntry e).dev.svc = u.dev.svc := rfl
  unfold State.serviceFill
  rw [s.serviceWatch_putEntry e]
  dsimp only
  rw [svc]
  cases (s.serviceWatch d).dev.svc.tlbGens.find? fun x => x.1 == d.space <;> rfl

theorem State.serviceTranslate_putEntry (sp : BitVec 16) (va : Word) (n : Need) :
    (s.putEntry e).serviceTranslate sp va n = ((s.serviceTranslate sp va n).1.putEntry e, (s.serviceTranslate sp va n).2) := by
  have space : (s.putEntry e).space? sp = s.space? sp := rfl
  have hit : (s.putEntry e).serviceHit sp va = s.serviceHit sp va := rfl
  have mem : (s.putEntry e).mem = s.mem := rfl
  unfold State.serviceTranslate
  rw [space, hit, mem]
  cases s.space? sp with
  | none => rfl
  | some d =>
    dsimp only
    cases s.serviceHit sp va with
    | some x => rfl
    | none =>
      dsimp only
      cases walk s.mem none (d.slot == 0) va 5 (d.root.toNat * 4096) with
      | unmapped => rfl
      | notResident => rfl
      | leaf l => exact congrArg (·, _) (s.serviceFill_putEntry e d va l)

theorem State.serviceAt_putEntry (sp : BitVec 16) (off n : Nat) (need : Need) :
    (s.putEntry e).serviceAt sp off n need = ((s.serviceAt sp off n need).1.putEntry e, (s.serviceAt sp off n need).2) := by
  have home : (s.putEntry e).service = s.service := rfl
  unfold State.serviceAt
  dsimp only
  rw [home, s.serviceTranslate_putEntry e]
  split
  · rfl
  · rcases s.serviceTranslate sp (farAddr s.service (BitVec.ofNat 40 off)) need with ⟨t, _ | _ | _ | _⟩ <;> rfl

theorem State.serviceGo_putEntry (sp : BitVec 16) (off n : Nat) (need : Need) (gs : List Nat) : ∀ s : State,
    (s.putEntry e).serviceGo sp off n need gs = ((s.serviceGo sp off n need gs).1.putEntry e, (s.serviceGo sp off n need gs).2) := by
  induction gs with
  | nil => exact fun s => rfl
  | cons g gs ih =>
    intro s
    unfold State.serviceGo
    dsimp only
    rw [s.serviceAt_putEntry e]
    rcases s.serviceAt sp (max g off) (min (g + 64) (off + n) - max g off) need with ⟨t, _ | pa⟩
    · rfl
    · dsimp only
      rw [ih t]
      rcases t.serviceGo sp off n need gs with ⟨u, _ | _⟩ <;> rfl

theorem State.serviceBytes_putEntry (sp : BitVec 16) (off n : Nat) (need : Need) :
    (s.putEntry e).serviceBytes sp off n need = ((s.serviceBytes sp off n need).1.putEntry e, (s.serviceBytes sp off n need).2) :=
  State.serviceGo_putEntry ..

end

/-! ## Where a record of a launch stands depends on the memory and the tables of home 127 alone -/

/-- `s` and `t` agree on all that the place of a byte of home 127 depends on. -/
structure SamePlaces (s t : State) : Prop where
  mem : t.mem = s.mem
  id : t.dev.id = s.dev.id
  spaces : t.dev.spaces = s.dev.spaces
  slots : t.dev.slots = s.dev.slots
  tlb : t.dev.svc.tlb = s.dev.svc.tlb

theorem SamePlaces.rfl {s : State} : SamePlaces s s := ⟨.refl _, .refl _, .refl _, .refl _, .refl _⟩

theorem SamePlaces.trans {s t u : State} (h : SamePlaces s t) (g : SamePlaces t u) : SamePlaces s u :=
  ⟨g.mem.trans h.mem, g.id.trans h.id, g.spaces.trans h.spaces, g.slots.trans h.slots, g.tlb.trans h.tlb⟩

theorem SamePlaces.serviceAt {s t : State} (h : SamePlaces s t) (sp : BitVec 16) (off n : Nat) (need : Need) :
    (t.serviceAt sp off n need).2 = (s.serviceAt sp off n need).2 := by
  have home : t.service = s.service := by rw [State.service, h.id]; rfl
  have space (sp : BitVec 16) : t.space? sp = s.space? sp := by rw [State.space?, h.spaces]; rfl
  have hit (va : Word) : t.serviceHit sp va = s.serviceHit sp va := by rw [State.serviceHit, h.tlb]; rfl
  have key (k : BitVec 6) (g : BitVec 16) : t.keyOk k g = s.keyOk k g := by simp only [State.keyOk, h.slots]
  have leaf (va : Word) (l : Leaf) (k : BitVec 6) (g : BitVec 16) : t.leafOut va need l k g = s.leafOut va need l k g := by
    simp only [State.leafOut, key]
  have out (va : Word) : (t.serviceTranslate sp va need).2 = (s.serviceTranslate sp va need).2 := by
    unfold State.serviceTranslate
    rw [space, hit, h.mem]
    split
    · rfl
    · split
      · exact leaf ..
      · split
        · rfl
        · rfl
        · exact leaf ..
  have := out (farAddr s.service (BitVec.ofNat 40 off))
  unfold State.serviceAt
  dsimp only
  rw [home]
  split
  · rfl
  · generalize t.serviceTranslate sp (farAddr s.service (BitVec.ofNat 40 off)) need = x at this
    generalize s.serviceTranslate sp (farAddr s.service (BitVec.ofNat 40 off)) need = y at this
    obtain ⟨x, a⟩ := x
    obtain ⟨y, b⟩ := y
    cases this
    cases a <;> rfl

theorem SamePlaces.recordMem {s t : State} (h : SamePlaces s t) (l : Launch) (bs : List Byte) :
    t.recordMem l bs = s.recordMem l bs := by
  simp only [State.recordMem, h.serviceAt, h.mem]

/-! ## What home 127 is told leaves the memory -/

theorem Quiet.fst {α : Type} {s t : State} {x : State × α} {a : α} (h : Quiet s x.1) (e : x = (t, a)) : Quiet s t := by
  rwa [e] at h

theorem State.send_quiet (s : State) (m : Msg) : Quiet s (s.send m) := ⟨s.send_below m, rfl⟩

theorem State.setSvc_quiet (s : State) (v : Service) : Quiet s (s.setSvc v) := ⟨s.setSvc_below v, rfl⟩

theorem State.sendHome_mem (s : State) (h : BitVec 17) (sp : BitVec 16) (t : BitVec 7) (m : Msg) :
    (s.sendHome h sp t m).mem = s.mem := by
  unfold State.sendHome
  split
  · rfl
  · exact s.sendNysil_mem ..

theorem State.tell_quiet (s : State) (sp : BitVec 16) (who : Requester) (e : WatchEnd) : Quiet s (s.tell sp who e) := by
  refine ⟨s.tell_below .., ?_⟩
  have out := s.sendHome_mem (whoHome who) sp 0x04 (.watchEnd who e)
  unfold State.tell
  cases who with
  | slot h q c k t => dsimp only; split; rfl; exact out
  | sched h id => dsimp only; split; rfl; exact out
  | tlb h id => exact out

theorem State.serviceBytes_quiet (s : State) (sp : BitVec 16) (off n : Nat) (need : Need) :
    Quiet s (s.serviceBytes sp off n need).1 := by
  obtain ⟨v, h⟩ := s.serviceBytes_svc sp off n need
  exact h ▸ s.setSvc_quiet v

theorem State.serviceWord_quiet (s : State) (e : SluiceEntry) : Quiet s (s.serviceWord e).1 := by
  unfold State.serviceWord
  split
  · exact .rfl
  · split <;> exact (s.serviceBytes_quiet ..).fst ‹_›

theorem State.serviceAnswers_quiet (es : List SluiceEntry) : ∀ s : State, Quiet s (s.serviceAnswers es) := by
  induction es with
  | nil => exact fun s => .rfl
  | cons e es ih =>
    intro s
    unfold State.serviceAnswers
    split
    · have word := (s.serviceWord_quiet e).fst ‹_›
      split
      · exact (word.trans ((State.setSvc_quiet ..).trans (State.tell_quiet ..))).trans (ih _)
      · exact word.trans (ih _)
    · exact ((s.serviceWord_quiet e).fst ‹_›).trans (ih _)

theorem State.askServiceTicket_quiet (s : State) (e : SluiceEntry) : Quiet s (s.askServiceTicket e) := by
  unfold State.askServiceTicket
  split
  · split
    · exact s.send_quiet _
    · exact .rfl
  · exact .rfl

theorem State.serviceRegister_quiet (s : State) (e : SluiceEntry) : Quiet s (s.serviceRegister e) := by
  unfold State.serviceRegister
  split
  · exact s.tell_quiet ..
  · split
    · exact .rfl
    · refine (s.askServiceTicket_quiet e).trans ?_
      generalize s.askServiceTicket e = t
      dsimp only
      split <;> have word := (t.serviceWord_quiet e).fst ‹_›
      · exact word.trans (State.tell_quiet ..)
      · exact word.trans (State.tell_quiet ..)
      · exact word.trans ((State.setSvc_quiet ..).trans (State.send_quiet ..))
      · split
        · exact word.trans (State.tell_quiet ..)
        · split
          · exact word.trans (State.tell_quiet ..)
          · exact word.trans ((State.setSvc_quiet ..).trans (State.tell_quiet ..))

theorem State.serviceNotify_quiet (s : State) : Quiet s s.serviceNotify := by
  unfold State.serviceNotify
  dsimp only
  exact ((s.setSvc_quiet _).trans (State.serviceAnswers_quiet ..)).trans
    ((State.setSvc_quiet ..).trans (Quiet.foldl (fun s _ => s.serviceRegister_quiet _) ..))

/-! ## Updates of a launch, of an entry and of a ring -/

theorem State.entry_idx {s : State} {i : Fin 256} {e : LaunchEntry} (h : s.entry i = some e) : e.idx = i := by
  simpa using List.find?_some h

theorem State.putLaunch_launch (s : State) {l : Launch} {g : BitVec 32} (h : l.graph = g) : (s.putLaunch l).launch g = some l := by
  simp [State.putLaunch, State.launch, h]

theorem State.putEntry_entry (s : State) {e : LaunchEntry} {i : Fin 256} (h : e.idx = i) : (s.putEntry e).entry i = some e := by
  simp [State.putEntry, State.entry, h]

/-! ## The end of a launch (R334, R394) -/

/-- What the entry of a timed launch's next run changes: the distributor's reads, and what home 127 keeps of its own. -/
theorem State.enterTimed_eq (s : State) (i : Fin 256) : ∃ v rs, s.enterTimed i = s.setDev { s.dev with svc := v, reads := rs } := by
  unfold State.enterTimed
  split
  · exact ⟨s.dev.svc, s.dev.reads, rfl⟩
  · next e _ =>
    obtain ⟨v, h⟩ := s.serviceBytes_svc 0 (offOf e.template).toNat 128 .load
    split <;> rename_i x <;> rw [x] at h <;> dsimp only at h <;> subst h
    · exact ⟨v, _, rfl⟩
    · exact ⟨v, s.dev.reads, rfl⟩
    · exact ⟨v, s.dev.reads, rfl⟩

/-- What the end of a timed launch changes: the table's entry, the distributor's reads, and what home 127 keeps of its own. -/
theorem State.timedEnd_eq (s : State) (i : Option (Fin 256)) :
    ∃ v rs tab, s.timedEnd i = s.setDev { s.dev with svc := v, reads := rs, table := tab } := by
  unfold State.timedEnd
  split
  · exact ⟨s.dev.svc, s.dev.reads, s.dev.table, rfl⟩
  · next e _ =>
    split
    · obtain ⟨v, rs, h⟩ := (s.putEntry { e with pending := false }).enterTimed_eq e.idx
      exact ⟨v, rs, _, h⟩
    · exact ⟨s.dev.svc, s.dev.reads, s.dev.table, rfl⟩

theorem State.timedEnd_cores (s : State) (i : Option (Fin 256)) : CoresKept s (s.timedEnd i) := by
  obtain ⟨v, rs, tab, h⟩ := s.timedEnd_eq i
  exact h ▸ ⟨rfl, rfl⟩

theorem State.timedEnd_mem (s : State) (i : Option (Fin 256)) : (s.timedEnd i).mem = s.mem := by
  obtain ⟨v, rs, tab, h⟩ := s.timedEnd_eq i
  rw [h]
  rfl

theorem State.timedEnd_outbox (s : State) (i : Option (Fin 256)) : (s.timedEnd i).outbox = s.outbox := by
  obtain ⟨v, rs, tab, h⟩ := s.timedEnd_eq i
  rw [h]
  rfl

theorem State.timedEnd_launch (s : State) (i : Option (Fin 256)) (g : BitVec 32) : (s.timedEnd i).launch g = s.launch g := by
  obtain ⟨v, rs, tab, h⟩ := s.timedEnd_eq i
  rw [h]
  rfl

theorem State.timedEnd_queues (s : State) (i : Option (Fin 256)) : (s.timedEnd i).dev.queues = s.dev.queues := by
  obtain ⟨v, rs, tab, h⟩ := s.timedEnd_eq i
  rw [h]
  rfl

@[simp] theorem State.timedEnd_none (s : State) : s.timedEnd none = s := rfl

/-- A launch as its end leaves it, with its record. -/
def Launch.ended (l : Launch) (bs : List Byte) : Launch := { l with st := .done, completion := l.completion + 1, record := some bs }

/-- The record that the end of a launch publishes. -/
def State.recordOf (s : State) (l : Launch) (r : KillReq) (clk : Word) : List Byte :=
  recordBytes (l.completion + 1) r (if l.capture && s.dev.logFull.contains l.logAt then 1 else 0) clk

/-- A launch has ended, its record `bs` stands in its completion area, and home 127 has compared the words that are watched. -/
def State.recorded (s : State) (l : Launch) (bs : List Byte) : State :=
  (((s.putLaunch (l.ended bs)).setSvc { s.dev.svc with gen := s.dev.svc.gen + 1 }).setMem
    ((s.putLaunch (l.ended bs)).recordMem l bs)).serviceNotify

/-- Then the mirror is written and the function's interrupt raised. -/
def State.announced (s : State) (l : Launch) (bs : List Byte) : State :=
  ((s.recorded l bs).send (.mirror l.mirror bs)).send (.msix l.fn)

theorem State.publish_eq (s : State) (l : Launch) (r : KillReq) (clk : Word) :
    s.publish l r clk = (s.announced l (s.recordOf l r clk)).timedEnd l.timed := rfl

theorem State.recorded_below (s : State) (l : Launch) (bs : List Byte) : Below (s.putLaunch (l.ended bs)) (s.recorded l bs) :=
  ((State.setSvc_below ..).trans (State.setMem_below ..)).trans (State.serviceNotify_below _)

theorem State.announced_below (s : State) (l : Launch) (bs : List Byte) : Below (s.putLaunch (l.ended bs)) (s.announced l bs) :=
  (s.recorded_below l bs).trans ((State.send_below ..).trans (State.send_below ..))

theorem State.recorded_mem (s : State) (l : Launch) (bs : List Byte) : (s.recorded l bs).mem = s.recordMem l bs :=
  (State.serviceNotify_quiet _).mem.trans
    (SamePlaces.recordMem (s := s) (t := s.putLaunch (l.ended bs)) ⟨rfl, rfl, rfl, rfl, rfl⟩ l bs)

section
variable (s : State) (l : Launch) (r : KillReq) (clk : Word)

theorem State.publish_cores : CoresKept s (s.publish l r clk) := by
  have ended := (s.announced_below l (s.recordOf l r clk)).cores
  have timed := (s.announced l (s.recordOf l r clk)).timedEnd_cores l.timed
  exact ⟨timed.1.trans ended.1, timed.2.trans ended.2⟩

theorem State.publish_mem : (s.publish l r clk).mem = s.recordMem l (s.recordOf l r clk) :=
  (State.timedEnd_mem (s.announced l (s.recordOf l r clk)) l.timed).trans (s.recorded_mem l (s.recordOf l r clk))

theorem State.publish_launch : (s.publish l r clk).launch l.graph = some (l.ended (s.recordOf l r clk)) := by
  rw [s.publish_eq, State.timedEnd_launch, (s.announced_below ..).launch]
  exact s.putLaunch_launch rfl

theorem State.publish_queues : (s.publish l r clk).dev.queues = s.dev.queues := by
  rw [s.publish_eq, State.timedEnd_queues, (s.announced_below ..).queues]
  rfl

theorem State.publish_outbox : .mirror l.mirror (s.recordOf l r clk) ∈ (s.publish l r clk).outbox ∧
    .msix l.fn ∈ (s.publish l r clk).outbox := by
  rw [s.publish_eq, State.timedEnd_outbox]
  simp [State.announced]

theorem State.publish_reads (h : l.timed = none) : (s.publish l r clk).dev.reads = s.dev.reads := by
  rw [s.publish_eq, h, State.timedEnd_none, (s.announced_below ..).reads]
  rfl

end

theorem recordBytes_isRecord (completion : Word) (r : KillReq) (b : Byte) (clk : Word) :
    IsRecord (recordBytes completion r b clk) completion r.cause r.origin r.graph r.tval clk := by
  constructor <;>
    simp [recordBytes, recField, List.drop_append, List.drop_eq_nil_of_le, List.take_of_length_le, Mem.leNat_leBytes] <;> omega

/-- The end of a launch is published from a state with the cores of `s` and in which the launch's record stands in the same place. -/
theorem State.publish_published {s t : State} {l : Launch} {r : KillReq} (clk : Word) (cores : CoresKept s t) (places : SamePlaces s t)
    (hg : r.graph = l.graph) : Published s (t.publish l r clk) l r.cause r.origin r.tval clk := by
  obtain ⟨mirror, msix⟩ := t.publish_outbox l r clk
  obtain ⟨core, mates⟩ := t.publish_cores l r clk
  refine ⟨⟨core.trans cores.1, mates.trans cores.2⟩, t.recordOf l r clk, _, hg ▸ recordBytes_isRecord ..,
    (t.publish_mem ..).trans (places.recordMem ..), t.publish_launch .., rfl, rfl, rfl, mirror, msix⟩

/-- A refusal, likewise. -/
theorem State.refuse_published {s t : State} {l : Launch} (cause : Byte) (tval : Word) (cores : CoresKept s t)
    (places : SamePlaces s t) (hc : t.dev.clk = s.dev.clk) :
    Published s (t.refuse l cause tval) l cause 5 tval (BitVec.ofNat 64 s.dev.clk) :=
  hc ▸ State.publish_published t.clk cores places rfl

end Sys2Proof.Machine

namespace Sys2Proof.Machine

/-! ## The scheduler's watches of a launch are cancelled -/

theorem SamePlaces.foldl {β : Type} {f : State → β → State} (hf : ∀ s x, SamePlaces s (f s x)) (l : List β) (s : State) :
    SamePlaces s (l.foldl f s) := by
  induction l generalizing s with
  | nil => exact .rfl
  | cons x l ih => exact (hf s x).trans (ih _)

theorem State.setDev_places {s : State} {d : Device}
    (h : (d.id, d.spaces, d.slots, d.svc.tlb) = (s.dev.id, s.dev.spaces, s.dev.slots, s.dev.svc.tlb)) : SamePlaces s (s.setDev d) := by
  simp only [Prod.mk.injEq] at h
  obtain ⟨id, spaces, slots, tlb⟩ := h
  exact ⟨rfl, id, spaces, slots, tlb⟩

theorem State.untrack_places (s : State) (id : Nat) : SamePlaces s (s.untrack id) := setDev_places rfl

theorem State.evictSession_places (s : State) : SamePlaces s s.evictSession := by
  unfold State.evictSession
  dsimp only
  split
  · exact .rfl
  · split <;> exact ⟨rfl, rfl, rfl, rfl, rfl⟩

theorem State.sendNysil_places (s : State) (d : BitVec 10) (k : BitVec 6) (t : BitVec 7) (a : Bool) (m : Msg) :
    SamePlaces s (s.sendNysil d k t a m) := by
  have evicted := (s.putSession { s.outSession d k with
    sendSeq := (s.outSession d k).sendSeq + 1, sinceFlip := (s.outSession d k).sinceFlip + 1, cached := true }).evictSession_places
  exact ⟨evicted.mem, evicted.id, evicted.spaces, evicted.slots, evicted.tlb⟩

theorem State.unregister_places (s : State) (sp : BitVec 16) (a : Word) (who : Requester) : SamePlaces s (s.unregister sp a who) := by
  unfold State.unregister
  split
  · exact ⟨rfl, rfl, rfl, rfl, rfl⟩
  · split
    · exact ⟨rfl, rfl, rfl, rfl, rfl⟩
    · split
      · exact ⟨rfl, rfl, rfl, rfl, rfl⟩
      · exact (setDev_places (by rfl)).trans (State.sendNysil_places ..)

/-- What is left of the scheduler's watches after a launch's are cancelled; beside them only what lies below changes, and
no place of home 127. -/
theorem State.stopWatches_eq (s : State) (g : BitVec 32) : ∃ u ws, Quiet s u ∧ SamePlaces s u ∧
    s.stopWatches g = u.setCl { u.cl with watches := ws } := by
  unfold State.stopWatches
  refine ⟨_, _, Quiet.foldl (fun s w => ?_) .., SamePlaces.foldl (fun s w => ?_) .., rfl⟩
  · refine Quiet.trans ?_ (State.untrack_quiet ..)
    split
    · exact s.unregister_quiet ..
    · exact .rfl
  · refine SamePlaces.trans ?_ (State.untrack_places ..)
    split
    · exact s.unregister_places ..
    · exact .rfl

theorem State.stopWatches_cores (s : State) (g : BitVec 32) : CoresKept s (s.stopWatches g) := by
  obtain ⟨u, ws, quiet, -, h⟩ := s.stopWatches_eq g
  rw [h]
  exact quiet.below.cores

theorem State.stopWatches_places (s : State) (g : BitVec 32) : SamePlaces s (s.stopWatches g) := by
  obtain ⟨u, ws, -, places, h⟩ := s.stopWatches_eq g
  rw [h]
  exact ⟨places.mem, places.id, places.spaces, places.slots, places.tlb⟩

/-! ## The distributor's reads -/

theorem State.askPcie_quiet (s : State) (fn id : Nat) (a : Word) : Quiet s (s.askPcie fn id a) := by
  unfold State.askPcie
  dsimp only
  split
  · exact ⟨(setDev_below (by rfl)).trans (queue_below ..), rfl⟩
  · exact ⟨(setDev_below (by rfl)).trans (send_below ..), rfl⟩

theorem State.askPcie_places (s : State) (fn id : Nat) (a : Word) : SamePlaces s (s.askPcie fn id a) := by
  unfold State.askPcie
  dsimp only
  split <;> exact ⟨rfl, rfl, rfl, rfl, rfl⟩

theorem State.askChunks_quiet (s : State) (fn : Fin 63) (timed : Option (Fin 256)) (a : Word) (k n : Nat) :
    Quiet s (s.askChunks fn timed a k n) := Quiet.foldl (fun s _ => s.askPcie_quiet ..) ..

theorem State.askChunks_places (s : State) (fn : Fin 63) (timed : Option (Fin 256)) (a : Word) (k n : Nat) :
    SamePlaces s (s.askChunks fn timed a k n) := SamePlaces.foldl (fun s _ => s.askPcie_places ..) ..

/-- From `s` to `t` the distributor has begun reads of records, of which no launch is known yet; beside that only what lies below
changes, and no place of home 127. -/
structure ReadsBegun (s t : State) : Prop where
  quiet : ∃ rs, Quiet (s.setDev { s.dev with reads := s.dev.reads ++ rs }) t ∧ ∀ x ∈ rs, x.launch = none
  places : SamePlaces s t

theorem ReadsBegun.rfl {s : State} : ReadsBegun s s := ⟨⟨[], by rw [List.append_nil]; exact .rfl, by simp⟩, .rfl⟩

theorem ReadsBegun.trans {s t u : State} (h : ReadsBegun s t) (g : ReadsBegun t u) : ReadsBegun s u := by
  obtain ⟨⟨rs, hq, hr⟩, hp⟩ := h
  obtain ⟨⟨qs, gq, gr⟩, gp⟩ := g
  have reads : t.dev.reads = s.dev.reads ++ rs := hq.below.reads
  refine ⟨⟨rs ++ qs, ⟨⟨?_, hq.below.agenda.trans gq.below.agenda⟩, gq.mem.trans hq.mem⟩, ?_⟩, hp.trans gp⟩
  · have step := congrArg (fun x : State => x.setDev { x.dev with reads := t.dev.reads ++ qs }) hq.below.above
    rw [← List.append_assoc, ← reads]
    exact gq.below.above.trans step
  · exact fun x hx => (List.mem_append.1 hx).elim (hr x) (gr x)

theorem ReadsBegun.cores {s t : State} (h : ReadsBegun s t) : CoresKept s t := by
  obtain ⟨⟨rs, quiet, -⟩, -⟩ := h
  exact quiet.below.cores

theorem State.ringGo_begins (s : State) (fn : Fin 63) : ReadsBegun s (s.ringGo fn) := by
  unfold State.ringGo
  dsimp only
  split
  · exact .rfl
  · exact ⟨⟨_, State.askChunks_quiet .., by simp⟩, (setDev_places (by rfl)).trans (State.askChunks_places ..)⟩

end Sys2Proof.Machine

namespace Sys2Proof.Machine

/-! ## O57: boot (R396) -/

theorem ReadsBegun.foldl {β : Type} {f : State → β → State} (hf : ∀ s x, ReadsBegun s (f s x)) (l : List β) (s : State) :
    ReadsBegun s (l.foldl f s) := by
  induction l generalizing s with
  | nil => exact .rfl
  | cons x l ih => exact (hf s x).trans (ih _)

theorem State.firstReads (s : State) : ReadsBegun s ((List.finRange 63).foldl State.ringGo s) :=
  ReadsBegun.foldl State.ringGo_begins ..

/-- What the publication of the capability chain changes: the chain's bytes, where a table maps them. -/
theorem State.publishCaps_eq (s : State) : ∃ m, s.publishCaps = s.setMem m ∧
    (m = s.mem ∨ ∃ pa, m = Mem.writeBytes s.mem (hbmKey pa) s.capChain) := by
  unfold State.publishCaps
  split
  · exact ⟨_, rfl, .inr ⟨_, rfl⟩⟩
  · exact ⟨s.mem, rfl, .inl rfl⟩

theorem joined_members {own : BitVec 10} {ms : List (BitVec 10 × Bool × BitVec 4 × BitVec 16)}
    {m : BitVec 10 × Bool × BitVec 4 × BitVec 16} (h : m ∈ ms) : { dev := m.1, member := true, ethernet := m.2.1, epoch := m.2.2.1, pathBound := m.2.2.2 } ∈ joined own ms := by
  have listed : { dev := m.1, member := true, ethernet := m.2.1, epoch := m.2.2.1, pathBound := m.2.2.2 } ∈ ms.map
      fun m => ({ dev := m.1, member := true, ethernet := m.2.1, epoch := m.2.2.1, pathBound := m.2.2.2 } : Member) :=
    List.mem_map.2 ⟨m, h, rfl⟩
  unfold joined
  dsimp only
  split
  · exact listed
  · exact List.mem_cons_of_mem _ listed

theorem joined_own (own : BitVec 10) (ms : List (BitVec 10 × Bool × BitVec 4 × BitVec 16)) : ∃ m ∈ joined own ms, m.dev = own := by
  unfold joined
  dsimp only
  split
  · next h => simpa using List.any_eq_true.1 h
  · exact ⟨_, List.mem_cons_self, rfl⟩

section
variable {s : State} {id : BitVec 10} {cap : Word} {ms : List (BitVec 10 × Bool × BitVec 4 × BitVec 16)} {images links : Bool}
  {imgs : List FwImage} {failed : Option (Fin 9 × Fin 9)}

theorem exec_boot_refused (h : capOk id cap = false) : exec (.boot images links id cap ms imgs failed) s = .next s := by
  change execBoot images links id cap ms s imgs failed = _
  unfold execBoot
  rw [h]
  rfl

theorem exec_boot_fresh (h : capOk id cap = true) (hb : s.dev.booted = false) (hi : s.dev.inert = false) :
    exec (.boot images links id cap ms imgs failed) s = .next (s.bootNow images links id cap ms imgs failed) := by
  change execBoot images links id cap ms s imgs failed = _
  unfold execBoot
  rw [h, hb, hi]
  rfl

theorem exec_boot_again (h : capOk id cap = true) (hr : s.dev.booted = true ∨ s.dev.inert = true) :
    exec (.boot images links id cap ms imgs failed) s = exec (.boot images links id cap ms imgs failed) s.packageReset := by
  rw [exec_boot_fresh (s := s.packageReset) h rfl rfl]
  change execBoot images links id cap ms s imgs failed = _
  unfold execBoot
  rw [h, if_neg (by simp), if_pos (by simpa using hr)]

theorem State.bootNow_badImages (h : images = false ∨ imagesPass (s.bootImages imgs) = false) :
    s.bootNow images links id cap ms imgs failed = s.setDev { s.dev with inert := true } := by
  unfold State.bootNow
  exact if_pos (by simpa using h)

theorem State.bootNow_badLinks (h : imagesPass (s.bootImages imgs) = true) : s.bootNow true false id cap ms imgs failed =
    s.setDev { s.dev with inert := true, bootLog := s.dev.bootLog ++ failed.toList } := by
  unfold State.bootNow
  dsimp only
  rw [h]
  rfl

/-- The device of a boot whose images and links are right: measured, its keys derived and drawn, a member of the pod. -/
def State.joinedPod (s : State) (id : BitVec 10) (cap : Word) (ms : List (BitVec 10 × Bool × BitVec 4 × BitVec 16))
    (images : List FwImage) : State :=
  let own := Config.deviceIdKey Config.fusedSecret
  let u := s.setDev { s.dev with
    measured := images.map fun x => keyOf (sm3 x.bytes), versions := images.map (·.version), staged := none }
  let second := Config.aliasKey own (u.measure 2) (u.measure 3)
  u.setDev { u.dev with
    deviceKey := some own, aliasKey := some second, certs := u.dev.certs.set 0 (Config.kolrothChain own second)
    booted := true, id := id, capbase := cap, members := joined id ms
    slots := u.dev.slots.set 63 { s.dev.slots[63] with
      kenc := some (Config.freeKey s.dev.drawn), kmac := some (Config.freeKey (s.dev.drawn + 1)) }
    drawn := u.dev.drawn + 2 }

/-- Its rings act on the newest NOTIFY that they hold. -/
def State.ringsBound (s : State) : State := s.setDev { s.dev with rings := s.dev.rings.map Ring.bounded }

theorem State.bootNow_runs (h : imagesPass (s.bootImages imgs) = true) : s.bootNow true true id cap ms imgs failed =
    (List.finRange 63).foldl State.ringGo (s.joinedPod id cap ms (s.bootImages imgs)).publishCaps.ringsBound := by
  unfold State.bootNow
  dsimp only
  rw [h]
  rfl

/-- Of all that stands above, the boot's first reads change the distributor's reads alone. -/
theorem State.bootNow_above (h : imagesPass (s.bootImages imgs) = true) : ∃ rs,
    let v := (s.joinedPod id cap ms (s.bootImages imgs)).ringsBound
    (s.bootNow true true id cap ms imgs failed).above = (v.setDev { v.dev with reads := rs }).above := by
  obtain ⟨m, published, -⟩ := (s.joinedPod id cap ms (s.bootImages imgs)).publishCaps_eq
  obtain ⟨⟨rs, quiet, -⟩, -⟩ := State.firstReads (s.joinedPod id cap ms (s.bootImages imgs)).publishCaps.ringsBound
  refine ⟨s.dev.reads ++ rs, ?_⟩
  rw [State.bootNow_runs h, quiet.below.above, published]
  rfl

theorem State.bootNow_cores (h : imagesPass (s.bootImages imgs) = true) : CoresKept s (s.bootNow true true id cap ms imgs failed) := by
  obtain ⟨m, published, -⟩ := (s.joinedPod id cap ms (s.bootImages imgs)).publishCaps_eq
  obtain ⟨core, mates⟩ := (State.firstReads (s.joinedPod id cap ms (s.bootImages imgs)).publishCaps.ringsBound).cores
  have joined : CoresKept s (s.joinedPod id cap ms (s.bootImages imgs)) := by
    unfold State.joinedPod
    exact ⟨by simp only [State.setDev_core], by simp only [State.setDev_mates]⟩
  rw [State.bootNow_runs h]
  refine ⟨core.trans ?_, mates.trans ?_⟩
  · rw [State.ringsBound, State.setDev_core, published, State.setMem_core, joined.1]
  · rw [State.ringsBound, State.setDev_mates, published, State.setMem_mates, joined.2]

theorem State.bootNow_mem (h : imagesPass (s.bootImages imgs) = true) :
    let t := s.bootNow true true id cap ms imgs failed
    t.mem = s.mem ∨ ∃ pa, t.mem = Mem.writeBytes s.mem (hbmKey pa) t.capChain := by
  obtain ⟨m, published, place⟩ := (s.joinedPod id cap ms (s.bootImages imgs)).publishCaps_eq
  have reads := (State.firstReads (s.joinedPod id cap ms (s.bootImages imgs)).publishCaps.ringsBound).places
  have mem : (s.bootNow true true id cap ms imgs failed).mem = m := by
    rw [State.bootNow_runs h, reads.mem, published]
    rfl
  have chain : (s.bootNow true true id cap ms imgs failed).capChain = (s.joinedPod id cap ms (s.bootImages imgs)).capChain := by
    rw [State.bootNow_runs h, State.capChain, reads.id, published]
    rfl
  dsimp only
  rw [mem, chain]
  exact place

end

/-! ## O57: rings (R391, R392) -/

@[simp] theorem State.setRing_ring (s : State) (fn : Fin 63) (r : Ring) : (s.setRing fn r).ring fn = r := by
  simp [State.setRing, State.ring]

@[simp] theorem Ring.settled_consumed (r : Ring) : r.settled.consumed = r.consumed := by
  unfold Ring.settled
  split <;> rfl

@[simp] theorem Ring.settled_upTo (r : Ring) : r.settled.upTo = r.upTo := by
  unfold Ring.settled
  split <;> rfl

@[simp] theorem Ring.settled_refused (r : Ring) : r.settled.refused = r.refused := by
  unfold Ring.settled
  split <;> rfl

/-- A ring whose last record that may be read is taken stays as it is. -/
theorem State.ringGo_idle {s : State} {fn : Fin 63} (h : (s.ring fn).upTo ≤ (s.ring fn).consumed) : s.ringGo fn = s := by
  unfold State.ringGo
  exact if_pos (by simp [h])

theorem State.ringGo_unbooted {s : State} (fn : Fin 63) (h : s.dev.booted = false) : s.ringGo fn = s := by
  unfold State.ringGo
  exact if_pos (by simp [h])

theorem State.askPcie_ideRefuses (s : State) (fn id : Nat) (a : Word) (f : Nat) :
    (s.askPcie fn id a).ideRefuses f = s.ideRefuses f := by
  unfold State.askPcie
  dsimp only
  split <;> rfl

theorem State.askPcie_sends {s : State} {fn : Nat} (h : s.ideRefuses fn = false) (id : Nat) (a : Word) :
    (s.askPcie fn id a).outbox = s.outbox ++ [.pcieRead id a] := by
  unfold State.askPcie
  dsimp only
  exact congrArg State.outbox (if_neg (Bool.eq_false_iff.1 h))

/-- The two chunks of a record are asked for. -/
theorem State.askChunks_two {s : State} {fn : Fin 63} (hi : s.ideRefuses fn.val = false) (timed : Option (Fin 256)) (a : Word) :
    (s.askChunks fn timed a 0 2).outbox =
      s.outbox ++ [.pcieRead (ringReq fn timed 0) a, .pcieRead (ringReq fn timed 1) (a + 64)] := by
  change ((s.askPcie fn.val _ _).askPcie fn.val _ _).outbox = _
  rw [State.askPcie_sends ((State.askPcie_ideRefuses ..).trans hi), State.askPcie_sends hi]
  simp

/-- The distributor asks for the two chunks of a ring's next record. -/
theorem State.ringGo_reads {s : State} {fn : Fin 63} (hi : s.ideRefuses fn.val = false) (hb : s.dev.booted = true)
    (hu : (s.ring fn).consumed < (s.ring fn).upTo) (hr : ∀ x ∈ s.dev.reads, x.fn = fn → x.timed ≠ none) :
    let a := (s.ring fn).base + BitVec.ofNat 64 (((s.ring fn).consumed + 1) % (s.ring fn).entries * 128)
    (s.ringGo fn).outbox = s.outbox ++ [.pcieRead (ringReq fn none 0) a, .pcieRead (ringReq fn none 1) (a + 64)] := by
  have free : (s.dev.reads.any fun x => x.fn == fn && x.timed.isNone) = false := by
    simpa [List.any_eq_false, Option.isNone_iff_eq_none] using hr
  unfold State.ringGo
  dsimp only
  rw [if_neg (by simp [hb, hu, free])]
  refine (State.askChunks_two ?_ none _).trans ?_
  · exact hi
  · rfl

section
variable {s : State} {fn : Fin 63} {v : Word}

theorem exec_notify (hi : s.ideRefuses fn.val = false) (h : (s.ring fn).consumed < v.toNat) : exec (.notify fn v) s =
    .next ((s.setRing fn (if s.dev.booted then Ring.bounded { s.ring fn with notify := v.toNat } else
      { s.ring fn with notify := v.toNat })).ringGo fn) := by
  change execNotify fn v s = _
  unfold execNotify
  dsimp only
  rw [if_neg (by simp [hi, h])]

theorem exec_notify_old (h : v.toNat ≤ (s.ring fn).consumed) : exec (.notify fn v) s = .next s := by
  change execNotify fn v s = _
  unfold execNotify
  exact if_pos (by simp [h])

theorem low7_eq_zero_iff : v.extractLsb' 0 7 = 0#7 ↔ v.toNat % 128 = 0 := by
  rw [← BitVec.toNat_inj]
  simp

theorem exec_ringBase (hi : s.ideRefuses fn.val = false) (h : v.toNat % 128 = 0) :
    exec (.ringBase fn v) s = .next (s.setRing fn (Ring.settled { s.ring fn with heldBase := some v })) := by
  change execRingBase fn v s = _
  unfold execRingBase
  dsimp only
  rw [if_neg (by simp [hi, low7_eq_zero_iff.2 h])]

theorem exec_ringBase_refused (h : s.ideRefuses fn.val = true ∨ v.toNat % 128 ≠ 0) : exec (.ringBase fn v) s = .next s := by
  change execRingBase fn v s = _
  unfold execRingBase
  exact if_pos (by simpa [← low7_eq_zero_iff] using h)

theorem powers_contains {n : Nat} : ((List.range 17).map fun k => 2 ^ k).contains n = true ↔ ∃ k ≤ 16, n = 2 ^ k := by
  simp [Nat.lt_succ_iff, eq_comm]

theorem exec_ringEntries (hi : s.ideRefuses fn.val = false) {k : Nat} (hk : k ≤ 16) (h : v.toNat = 2 ^ k) :
    exec (.ringEntries fn v) s = .next (s.setRing fn (Ring.settled { s.ring fn with heldEntries := some v.toNat })) := by
  change execRingEntries fn v s = _
  unfold execRingEntries
  exact if_pos (by rw [hi, powers_contains.2 ⟨k, hk, h⟩]; rfl)

theorem exec_ringEntries_refused (h : s.ideRefuses fn.val = true ∨ ∀ k ≤ 16, v.toNat ≠ 2 ^ k) :
    exec (.ringEntries fn v) s = .next s := by
  have refused : ¬ (!s.ideRefuses fn.val && ((List.range 17).map fun k => 2 ^ k).contains v.toNat) = true := by
    rw [Bool.and_eq_true, powers_contains]
    rintro ⟨hi, k, hk, e⟩
    exact h.elim (fun r => by simp [r] at hi) fun n => n k hk e
  change execRingEntries fn v s = _
  unfold execRingEntries
  exact if_neg refused

/-- A NOTIFY that makes the distributor read the ring's next record. -/
theorem notify_reads (hi : s.ideRefuses fn.val = false) (h : (s.ring fn).consumed < v.toNat) (hb : s.dev.booted = true)
    (he : 0 < (s.ring fn).entries) (hr : ∀ x ∈ s.dev.reads, x.fn = fn → x.timed ≠ none) :
    let r := s.ring fn
    let a := r.base + BitVec.ofNat 64 ((r.consumed + 1) % r.entries * 128)
    ∃ t, exec (.notify fn v) s = .next t ∧ Kept s t ∧
      t.ring fn = { r with notify := v.toNat, upTo := min v.toNat (r.consumed + r.entries) } ∧
      t.outbox = s.outbox ++ [.pcieRead (ringReq fn none 0) a, .pcieRead (ringReq fn none 1) (a + 64)] := by
  let u := s.setRing fn (Ring.bounded { s.ring fn with notify := v.toNat })
  have ring : u.ring fn = Ring.bounded { s.ring fn with notify := v.toNat } := s.setRing_ring ..
  have more : (u.ring fn).consumed < (u.ring fn).upTo := by
    rw [ring]
    exact lt_min h (Nat.lt_add_of_pos_right he)
  have out := State.ringGo_reads (s := u) hi hb more hr
  obtain ⟨⟨rs, quiet, -⟩, -⟩ := u.ringGo_begins fn
  have rings : (u.ringGo fn).dev.rings = u.dev.rings := congrArg (fun x => x.dev.rings) quiet.below.above
  refine ⟨u.ringGo fn, ?_, ⟨quiet.below.cores.1, quiet.below.cores.2, quiet.mem⟩, ?_, ?_⟩
  · rw [exec_notify hi h, if_pos hb]
  · exact (congrArg (fun x => x[fn]) rings).trans ring
  · rw [ring] at out
    exact out

end

/-! ## O57: a record that cannot be read (R348, R392) -/

section
variable {s : State} {req k : Nat} {x : RingRead}

/-- A record that is not launched, after which the ring has nothing more to read: CONSUMED and the refused records rise. -/
theorem State.chunkFails_skips (h : s.readOf req = some (x, k)) (timed : x.timed = none) (launch : x.launch = none)
    (last : (s.ring x.fn).upTo ≤ (s.ring x.fn).consumed + 1) :
    let t := s.chunkFails req
    Kept s t ∧ (t.ring x.fn).consumed = (s.ring x.fn).consumed + 1 ∧
      (t.ring x.fn).refused = ((s.ring x.fn).refused + 1) % 2 ^ 32 ∧ t.dev.launches = s.dev.launches ∧ t.outbox = s.outbox := by
  let r : Ring := { s.ring x.fn with consumed := (s.ring x.fn).consumed + 1, refused := ((s.ring x.fn).refused + 1) % 2 ^ 32 }
  let u := (s.dropRead x).setRing x.fn r.settled
  have idle : (u.ring x.fn).upTo ≤ (u.ring x.fn).consumed := by simpa [u, r] using last
  have run : s.chunkFails req = (s.dropRead x).setRing x.fn r.settled := by
    unfold State.chunkFails
    rw [h]
    dsimp only
    rw [launch]
    dsimp only
    rw [timed, State.timedEnd_none, State.consume]
    dsimp only
    rw [if_neg (by simp [timed])]
    exact State.ringGo_idle idle
  dsimp only
  rw [run]
  exact ⟨⟨rfl, rfl, rfl⟩, by simp [r], by simp [r], rfl, rfl⟩

end

end Sys2Proof.Machine

namespace Sys2Proof.Machine

/-! ## O57: selection and binding (R136, R164) -/

/-- The head of a queue leaves it. -/
def State.dequeued (s : State) (q : Fin 4) : State :=
  s.setDev { s.dev with queues := s.dev.queues.set q (s.dev.queues[q].drop 1) }

theorem State.dequeued_queue (s : State) (q : Fin 4) : (s.dequeued q).dev.queues[q] = s.dev.queues[q].tail := by
  simp [State.dequeued]

/-- A launch as its selection leaves it: bound. -/
def State.selected (s : State) (q : Fin 4) (l : Launch) (elsewhere : List (BitVec 10)) (sources : List (BitVec 17)) : Launch :=
  { l with st := .bound, prio := s.headPrio q l, elsewhere := elsewhere, sources := sources }

section
variable {s : State} {elsewhere : List (BitVec 10)} {sources : List (BitVec 17)} {q : Fin 4} {l : Launch}

theorem exec_launchSelection_none (h : s.selectable = none) : exec (.launchSelection elsewhere sources) s = .next s := by
  change execLaunchSelection s elsewhere sources = _
  unfold execLaunchSelection
  rw [h]

theorem exec_launchSelection_refused (h : s.selectable = some (q, l)) {c : Byte} {v : Word} (hb : s.bindCheck l = some (c, v)) :
    exec (.launchSelection elsewhere sources) s = .next ((s.dequeued q).refuse l c v) := by
  have refused : (s.dequeued q).bindCheck l = some (c, v) := hb
  change execLaunchSelection s elsewhere sources = _
  unfold execLaunchSelection
  rw [h]
  dsimp only
  rw [← State.dequeued, refused]

theorem exec_launchSelection_bound (h : s.selectable = some (q, l)) (hb : s.bindCheck l = none) :
    let b := s.selected q l elsewhere sources
    let u := (s.dequeued q).putLaunch b
    exec (.launchSelection elsewhere sources) s = .next (if l.clusters.getLsbD s.clusterNo.toNat then u.bindHere b else u) := by
  have free : (s.dequeued q).bindCheck l = none := hb
  change execLaunchSelection s elsewhere sources = _
  unfold execLaunchSelection
  rw [h]
  dsimp only
  rw [← State.dequeued, free]
  rfl

end

/-- Where every listed key is at or above a bound, the bytes below it read as unlisted ones. -/
theorem Mem.read_unlisted {m : List Host.Cell} {lo a : Nat} (h : ∀ c ∈ m, lo ≤ c.1) (ha : a < lo) : Mem.read m a = unlisted := by
  cases m with
  | nil => rfl
  | cons c r => exact if_pos (ha.trans_le (h c List.mem_cons_self))

/-- The cluster that a launch is bound to (R164): its binding, its memories zeroed, the zeroing still under way. -/
theorem State.bindHere_binds (s : State) (l : Launch) :
    let t := s.bindHere l
    t.cl.bound.map (fun b => (b.graph, b.space, b.tvec)) = some (l.graph, l.space, l.tvec) ∧ t.cl.part = l.part ∧
      (∀ c ∈ t.cores, c.accum = []) ∧ t.icache = [] ∧ (∀ a < 0x2000000, Mem.read t.mem a = 0) ∧ t.cl.lists = s.cl.lists ∧
      t.cl.placing = some l.graph ∧ t.cl.zeroAt = max s.dev.clk s.cl.zeroAt + (partP l.part + 16384 * partA l.part) / 256 := by
  obtain ⟨u, ws, quiet, -, stopped⟩ := s.stopWatches_eq ((s.cl.bound.map Binding.graph).getD 0)
  unfold State.bindHere
  dsimp only
  rw [stopped]
  refine ⟨rfl, rfl, ?_, rfl, fun a ha => ?_, quiet.below.lists, rfl, ?_⟩
  · exact List.forall_mem_cons.2 ⟨rfl, by simp [State.beginZero, State.zeroSram, State.mapCores]⟩
  · refine Mem.read_unlisted (fun c hc => ?_) ha
    simpa using (List.mem_filter.1 hc).2
  · change max u.dev.clk u.cl.zeroAt + _ = _
    rw [quiet.below.clk, quiet.below.zeroAt]
    rfl

theorem State.bindHere_dev (s : State) (l : Launch) :
    (s.bindHere l).dev.queues = s.dev.queues ∧ ∀ g, (s.bindHere l).launch g = s.launch g := by
  obtain ⟨u, ws, quiet, -, stopped⟩ := s.stopWatches_eq ((s.cl.bound.map Binding.graph).getD 0)
  unfold State.bindHere
  dsimp only
  rw [stopped]
  exact ⟨quiet.below.queues, quiet.below.launch⟩

/-! ## O57: the root records (R164, R393) -/

/-- Records that join one list after another's are all in it. -/
theorem State.joinRoots_lists (l : Launch) (p : Fin 4) (hp : p.val = l.prio.toNat) (rs : List ((Word × Word × BitVec 7 × Bool) × Nat)) :
    ∀ s : State, let t := rs.foldl (fun s r => s.join (rootRecord l l.prio r.2 r.1)) s
      (∀ x ∈ s.cl.lists[p], x ∈ t.cl.lists[p]) ∧ ∀ r ∈ rs, (rootRecord l l.prio r.2 r.1, s.dev.clk) ∈ t.cl.lists[p] := by
  induction rs with
  | nil => exact fun s => ⟨fun x h => h, by simp⟩
  | cons r rs ih =>
    intro s
    obtain ⟨kept, all⟩ := ih (s.join (rootRecord l l.prio r.2 r.1))
    have joined := s.join_joined (rootRecord l l.prio r.2 r.1) p
    rw [if_pos (show p.val = (rootRecord l l.prio r.2 r.1).prio.toNat from hp)] at joined
    refine ⟨fun x h => kept x (joined ▸ List.mem_append_left _ h), List.forall_mem_cons.2 ⟨?_, all⟩⟩
    exact kept _ (joined ▸ List.mem_append_right _ (List.mem_singleton.2 rfl))

/-- Records that join their lists change nothing but the lists. -/
theorem State.joinRoots_eq (l : Launch) (rs : List ((Word × Word × BitVec 7 × Bool) × Nat)) : ∀ s : State,
    ∃ ls, rs.foldl (fun s r => s.join (rootRecord l l.prio r.2 r.1)) s = s.setCl { s.cl with lists := ls } := by
  induction rs with
  | nil => exact fun s => ⟨s.cl.lists, rfl⟩
  | cons r rs ih =>
    intro s
    obtain ⟨ls, h⟩ := ih (s.join (rootRecord l l.prio r.2 r.1))
    exact ⟨ls, h⟩

/-- The roots of a launch whose lanes nothing names are placed. -/
theorem State.placeRoots_places {s : State} {g : BitVec 32} {l : Launch} (h : s.launch g = some l) (hl : s.laneSources l = []) :
    (s.placeRoots g).cl.placing = none ∧ ∀ i r, l.roots[i]? = some r → r.2.2.1 = s.clusterNo →
      ∃ p : Fin 4, p.val = l.prio.toNat ∧ (rootRecord l l.prio i r, s.dev.clk) ∈ (s.placeRoots g).cl.lists[p] := by
  let u := s.zeroSram.setCl { s.zeroSram.cl with placing := none }
  let rs := l.roots.zipIdx.filter fun r => r.1.2.2.1 == s.clusterNo
  have found : u.launch g = some l := h
  obtain ⟨ls, joined⟩ := State.joinRoots_eq l rs u
  have run : s.placeRoots g = rs.foldl (fun s r => s.join (rootRecord l l.prio r.2 r.1)) u := by
    have lanes : (rs.foldl (fun s r => s.join (rootRecord l l.prio r.2 r.1)) u).laneSources l = [] := by
      rw [joined]
      exact hl
    unfold State.placeRoots
    dsimp only
    rw [found]
    change (State.laneSources (rs.foldl _ u) l).foldl _ (rs.foldl _ u) = _
    rw [lanes]
    rfl
  refine ⟨by rw [run, joined]; rfl, fun i r hr hc => ⟨l.prio.toFin, rfl, ?_⟩⟩
  rw [run]
  refine (State.joinRoots_lists l l.prio.toFin rfl rs u).2 (r, i) (List.mem_filter.2 ⟨?_, by simp [hc]⟩)
  exact List.mk_mem_zipIdx_iff_getElem?.2 hr

/-! ## O57: the launch table (R389, R390) -/

section
variable {s : State} {i : Fin 256} {e : LaunchEntry}

theorem exec_launchSlot_early (h : s.entry i = some e) (hd : s.slotDue e = false) : exec (.launchSlot i) s = .next s := by
  change execLaunchSlot i s = _
  unfold execLaunchSlot
  rw [h]
  dsimp only
  rw [hd]
  rfl

theorem exec_launchSlot_enters (h : s.entry i = some e) (hd : s.slotDue e = true) (hr : s.entryRuns i = false) :
    exec (.launchSlot i) s = .next ((s.putEntry { e with next := e.next + 1 }).enterTimed i) := by
  change execLaunchSlot i s = _
  unfold execLaunchSlot
  rw [h]
  dsimp only
  rw [hd, hr]
  rfl

theorem exec_launchSlot_pends (h : s.entry i = some e) (hd : s.slotDue e = true) (hr : s.entryRuns i = true) (hp : e.policy = true)
    (hn : e.pending = false) : exec (.launchSlot i) s = .next (s.putEntry { e with next := e.next + 1, pending := true }) := by
  change execLaunchSlot i s = _
  unfold execLaunchSlot
  rw [h]
  dsimp only
  rw [hd, hr, hp, hn]
  rfl

theorem exec_launchSlot_skips (h : s.entry i = some e) (hd : s.slotDue e = true) (hr : s.entryRuns i = true)
    (hp : e.policy = false ∨ e.pending = true) : exec (.launchSlot i) s = .next (s.putEntry { e with
      next := e.next + 1, skips := if e.skips = 0xFFFFFFFF then e.skips else e.skips + 1 }) := by
  have wait : ¬ (e.policy && !e.pending) = true := by
    rintro h
    rcases hp with hp | hp <;> simp [hp] at h
  change execLaunchSlot i s = _
  unfold execLaunchSlot
  rw [h]
  dsimp only
  rw [hd, hr, if_neg (by decide), if_neg (by decide), if_neg wait]
  rfl

/-- The chunks of a template that the distributor has read. -/
def LaunchEntry.templateRead (e : LaunchEntry) (i : Fin 256) (bs : List Byte) : RingRead :=
  { fn := 0, timed := some i, launch := none, roots := 0, exports := 0, want := 2, prio := e.prio
    chunks := [(0, lineOfBytes (bs.take 64)), (1, lineOfBytes (bs.drop 64))] }

theorem State.enterTimed_reads {bs : List Byte} (h : s.entry i = some e)
    (hr : (s.serviceBytes 0 (offOf e.template).toNat 128 .load).2 = .ok (bs, false)) :
    ∃ v, s.enterTimed i = s.setDev { s.dev with svc := v, reads := s.dev.reads ++ [e.templateRead i bs] } := by
  obtain ⟨v, kept⟩ := s.serviceBytes_svc 0 (offOf e.template).toNat 128 .load
  have read : s.serviceBytes 0 (offOf e.template).toNat 128 .load = (s.setSvc v, .ok (bs, false)) := Prod.ext kept hr
  unfold State.enterTimed
  rw [h]
  dsimp only
  rw [read]
  exact ⟨v, rfl⟩

theorem State.enterTimed_fails (h : s.entry i = some e)
    (hr : ∀ bs, (s.serviceBytes 0 (offOf e.template).toNat 128 .load).2 ≠ .ok (bs, false)) : ∃ v, s.enterTimed i = s.setSvc v := by
  obtain ⟨v, kept⟩ := s.serviceBytes_svc 0 (offOf e.template).toNat 128 .load
  refine ⟨v, ?_⟩
  unfold State.enterTimed
  rw [h]
  dsimp only
  split <;> rename_i x <;> rw [x] at kept hr
  · exact absurd rfl (hr _)
  · exact kept
  · exact kept

/-- A slot whose entry has no launch running: the reads that the distributor begins with. -/
theorem launchSlot_enters (h : s.entry i = some e) (hd : s.slotDue e = true) (hr : s.entryRuns i = false) :
    let e' := { e with next := e.next + 1 }
    let read := (s.serviceBytes 0 (offOf e.template).toNat 128 .load).2
    let enters (reads : List RingRead) : Prop := ∃ t, exec (.launchSlot i) s = .next t ∧ Kept s t ∧ t.entry i = some e' ∧
      t.dev.reads = s.dev.reads ++ reads
    (∀ bs, read = .ok (bs, false) → enters [e.templateRead i bs]) ∧ ((∀ bs, read ≠ .ok (bs, false)) → enters []) := by
  let e' : LaunchEntry := { e with next := e.next + 1 }
  have put : (s.putEntry e').entry i = some e' := s.putEntry_entry (show e.idx = i from State.entry_idx h)
  have same : ((s.putEntry e').serviceBytes 0 (offOf e'.template).toNat 128 .load).2 =
      (s.serviceBytes 0 (offOf e.template).toNat 128 .load).2 := by
    rw [s.serviceBytes_putEntry e']
  refine ⟨fun bs read => ?_, fun read => ?_⟩
  · obtain ⟨v, entered⟩ := State.enterTimed_reads put (same.trans read)
    exact ⟨_, (exec_launchSlot_enters h hd hr).trans (congrArg _ entered), ⟨rfl, rfl, rfl⟩, put, rfl⟩
  · obtain ⟨v, entered⟩ := State.enterTimed_fails put fun bs x => read bs (same.symm.trans x)
    exact ⟨_, (exec_launchSlot_enters h hd hr).trans (congrArg _ entered), ⟨rfl, rfl, rfl⟩, put, (List.append_nil _).symm⟩

end

/-! ## O57: completion and cancel (R394, R395) -/

section
variable {s : State} {l : Launch}

theorem exec_launchCompletion (h : s.launch l.graph = some l) : exec (.launchCompletion l.graph) s =
    .next (if s.launchQuiet l then (s.stopWatches l.graph).publish l (normalEnd l.graph) s.clk else s) := by
  change execLaunchCompletion l.graph s = _
  unfold execLaunchCompletion
  rw [h]
  exact (apply_ite Host.Outcome.next _ _ _).symm

/-- A launch that a cancel names. -/
def Launch.named (fn : Fin 63) (n : Word) (l : Launch) : Bool := l.fn == fn && l.seqNo == n.toNat && l.timed.isNone

variable {fn : Fin 63} {n : Word}

theorem Launch.named_iff : l.named fn n = true ↔ l.fn = fn ∧ l.seqNo = n.toNat ∧ l.timed = none := by
  simp [Launch.named, and_assoc]

/-- A cancel of a launch whose tables are being read. -/
theorem exec_cancel_reading {x : RingRead} (hx : s.dev.reads = [x]) (timed : x.timed = none) (launch : x.launch = some l)
    (named : l.named fn n = true) : exec (.cancel fn n) s = .next ((s.consume x false).refuse l 0x18 0) := by
  have found : (s.dev.reads.find? fun x => x.timed.isNone && x.launch.any fun l =>
      l.fn == fn && l.seqNo == n.toNat && l.timed.isNone) = some x := by
    rw [hx]
    exact List.find?_cons_of_pos (by simpa [timed, launch, Launch.named] using named)
  change execCancel fn n s = _
  unfold execCancel
  dsimp only
  rw [found]
  dsimp only
  rw [launch]

/-- With no launch's tables being read, a cancel looks into the queues. -/
theorem exec_cancel_queued (hr : ∀ x ∈ s.dev.reads, x.launch = none)
    (hq : s.dev.queues.toList.flatten.find? (Launch.named fn n) = some l) : exec (.cancel fn n) s =
      .next ((s.setDev { s.dev with queues := s.dev.queues.map fun q => q.filter fun x => x.graph != l.graph }).refuse l 0x18 0) := by
  have reads : (s.dev.reads.find? fun x => x.timed.isNone && x.launch.any fun l =>
      l.fn == fn && l.seqNo == n.toNat && l.timed.isNone) = none := List.find?_eq_none.2 fun x hx => by simp [hr x hx]
  have queued : (s.dev.queues.toList.flatten.find? fun l => l.fn == fn && l.seqNo == n.toNat && l.timed.isNone) = some l := hq
  change execCancel fn n s = _
  unfold execCancel
  dsimp only
  rw [reads, queued]

/-- With nothing in the queues either, a cancel asks for the kill of a launch that is bound. -/
theorem exec_cancel_bound (hr : ∀ x ∈ s.dev.reads, x.launch = none) (hq : s.dev.queues = Vector.replicate 4 []) :
    exec (.cancel fn n) s = .next (((s.dev.launches.find? fun l => l.named fn n && l.live).map fun l =>
      s.askKill (s.plainKill l.graph 4 0x18 false 0)).getD s) := by
  have reads : (s.dev.reads.find? fun x => x.timed.isNone && x.launch.any fun l =>
      l.fn == fn && l.seqNo == n.toNat && l.timed.isNone) = none := List.find?_eq_none.2 fun x hx => by simp [hr x hx]
  have queued : (s.dev.queues.toList.flatten.find? fun l => l.fn == fn && l.seqNo == n.toNat && l.timed.isNone) = none := by
    rw [hq]
    rfl
  change execCancel fn n s = _
  unfold execCancel
  dsimp only
  rw [reads, queued]
  dsimp only [Launch.named]
  cases s.dev.launches.find? fun l => l.fn == fn && l.seqNo == n.toNat && l.timed.isNone && l.live <;> rfl

/-- The one queue that holds anything holds all that is queued. -/
theorem flatten_set {α : Type} (q : Fin 4) (xs : List α) : ((Vector.replicate 4 ([] : List α)).set q xs).toList.flatten = xs := by
  fin_cases q <;> simp [Vector.toList, Vector.set, Vector.replicate, Array.replicate]

/-- What the distributor does with a record that it has taken: of the device the rings and the reads change. -/
theorem State.consume_begins (s : State) {x : RingRead} (timed : x.timed = none) (refused : Bool) :
    ∃ r, ReadsBegun ((s.dropRead x).setRing x.fn r) (s.consume x refused) := by
  unfold State.consume
  dsimp only
  rw [if_neg (by simp [timed])]
  exact ⟨_, State.ringGo_begins ..⟩

/-- A cancelled launch whose tables were being read: its record is published, and its read is gone. -/
theorem cancel_reading {x : RingRead} (hx : s.dev.reads = [x]) (timed : x.timed = none) (launch : x.launch = some l)
    (named : l.named fn n = true) : ∃ t, exec (.cancel fn n) s = .next t ∧
      Published s t l 0x18 5 0 (BitVec.ofNat 64 s.dev.clk) ∧ ∀ y ∈ t.dev.reads, y.launch = none := by
  obtain ⟨r, begun⟩ := s.consume_begins timed false
  have cores : CoresKept s (s.consume x false) := ⟨begun.cores.1.trans rfl, begun.cores.2.trans rfl⟩
  obtain ⟨⟨rs, quiet, fresh⟩, places⟩ := begun
  have dropped : ((s.dropRead x).setRing x.fn r).dev.reads = [] := by
    change s.dev.reads.filter _ = _
    rw [hx]
    simp
  have reads : (s.consume x false).dev.reads = rs := by
    refine quiet.below.reads.trans ?_
    change ((s.dropRead x).setRing x.fn r).dev.reads ++ rs = rs
    rw [dropped, List.nil_append]
  have taken : SamePlaces s ((s.dropRead x).setRing x.fn r) := ⟨rfl, rfl, rfl, rfl, rfl⟩
  have clk : (s.consume x false).dev.clk = s.dev.clk := quiet.below.clk.trans (by rw [State.setDev_dev]; rfl)
  refine ⟨_, exec_cancel_reading hx timed launch named, State.refuse_published _ _ cores (taken.trans places) clk, ?_⟩
  rw [State.refuse, State.publish_reads _ _ _ _ (Launch.named_iff.1 named).2.2, reads]
  exact fresh

/-- A cancelled launch that waits in a queue: its record is published, and it has left the queue. -/
theorem cancel_queued (hr : ∀ x ∈ s.dev.reads, x.launch = none) {q : Fin 4} {ls : List Launch}
    (hq : s.dev.queues = (Vector.replicate 4 []).set q (l :: ls)) (named : l.named fn n = true) :
    ∃ t, exec (.cancel fn n) s = .next t ∧ Published s t l 0x18 5 0 (BitVec.ofNat 64 s.dev.clk) ∧
      ∀ p : Fin 4, ∀ x ∈ t.dev.queues[p], x.graph ≠ l.graph := by
  have found : s.dev.queues.toList.flatten.find? (Launch.named fn n) = some l := by
    rw [hq, flatten_set]
    exact List.find?_cons_of_pos named
  refine ⟨_, exec_cancel_queued hr found, State.refuse_published _ _ ⟨rfl, rfl⟩ ⟨rfl, rfl, rfl, rfl, rfl⟩ rfl, fun p x hx => ?_⟩
  rw [State.refuse, State.publish_queues] at hx
  simp only [State.setDev_dev, Fin.getElem_fin, Vector.getElem_map, List.mem_filter, bne_iff_ne] at hx
  exact hx.2

end

/-! ## O57: its clauses, put together -/

section
variable {s : State}

/-- What boot leaves: a device measured, keyed and a member of the pod, its capability chain published, its rings bound. -/
theorem exec_boot_runs {id : BitVec 10} {cap : Word} {ms : List (BitVec 10 × Bool × BitVec 4 × BitVec 16)} {imgs : List FwImage}
    {failed : Option (Fin 9 × Fin 9)} (hc : capOk id cap = true) (hb : s.dev.booted = false) (hi : s.dev.inert = false)
    (hp : imagesPass (s.bootImages imgs) = true) :
    ∃ t rs, exec (.boot true true id cap ms imgs failed) s = .next t ∧ CoresKept s t ∧
      (t.mem = s.mem ∨ ∃ pa, t.mem = Mem.writeBytes s.mem (hbmKey pa) t.capChain) ∧
      let v := (s.joinedPod id cap ms (s.bootImages imgs)).ringsBound
      t.above = (v.setDev { v.dev with reads := rs }).above := by
  obtain ⟨rs, above⟩ := State.bootNow_above (id := id) (cap := cap) (ms := ms) (failed := failed) hp
  exact ⟨_, rs, exec_boot_fresh hc hb hi, State.bootNow_cores hp, State.bootNow_mem hp, above⟩

/-- A ring with records left to take keeps its base and size until they are taken (R391). -/
theorem Ring.settled_busy {r : Ring} (h : r.consumed < r.notify) : r.settled = r := if_pos h

theorem Ring.settled_idle {r : Ring} (h : r.notify ≤ r.consumed) : r.settled =
    { r with base := r.heldBase.getD r.base, entries := r.heldEntries.getD r.entries, heldBase := none, heldEntries := none } :=
  if_neg h.not_gt

theorem exec_notify_unbooted {fn : Fin 63} {v : Word} (hi : s.ideRefuses fn.val = false) (h : (s.ring fn).consumed < v.toNat)
    (hb : s.dev.booted = false) : exec (.notify fn v) s = .next (s.setRing fn { s.ring fn with notify := v.toNat }) := by
  rw [exec_notify hi h, hb]
  exact congrArg _ (State.ringGo_unbooted fn hb)

theorem exec_rings_refused {fn : Fin 63} (v : Word) (h : s.ideRefuses fn.val = true) :
    ∀ i ∈ [Instr.notify fn v, .ringBase fn v, .ringEntries fn v], exec i s = .next s := by
  have notify : exec (.notify fn v) s = .next s := by
    change execNotify fn v s = _
    unfold execNotify
    exact if_pos (by simp [h])
  simp [notify, exec_ringBase_refused (.inl h), exec_ringEntries_refused (.inl h)]

/-- The read of a record fails: the host aborts it or sends it poisoned. -/
theorem exec_pcieCompletion_fails {req : Nat} (h : 2 ^ 130 ≤ req) :
    exec (.pcieCompletion req .abort) s = .next ((s.endPcie req).chunkFails req) ∧
      exec (.pcieCompletion req .poisoned) s = .next ((s.endPcie req).chunkFails req) :=
  ⟨if_pos h, if_pos h⟩

theorem exec_completionTimeout_due {req : Nat} (h : 2 ^ 130 ≤ req) (hd : ∃ y ∈ s.dev.pcie, y.1 = req ∧ y.2 ≤ s.dev.clk) :
    exec (.completionTimeout req) s = .next ((s.endPcie req).chunkFails req) := by
  have due : (s.dev.pcie.any fun x => x.1 == req && s.pcieDue x) = true := by simpa [State.pcieDue] using hd
  change execCompletionTimeout req s = _
  unfold execCompletionTimeout
  rw [due, if_neg (by decide), if_pos h]

theorem exec_completionTimeout_early {req : Nat} (h : ∀ y ∈ s.dev.pcie, y.1 = req → s.dev.clk < y.2) :
    exec (.completionTimeout req) s = .next s := by
  have early : (s.dev.pcie.any fun x => x.1 == req && s.pcieDue x) = false := by simpa [State.pcieDue] using h
  change execCompletionTimeout req s = _
  unfold execCompletionTimeout
  rw [early]
  rfl

/-- A launch that is bound: the queue's head has left it; in a cluster that the launch names, its binding (R164). -/
theorem launchSelection_binds {elsewhere : List (BitVec 10)} {sources : List (BitVec 17)} {q : Fin 4} {l : Launch}
    (h : s.selectable = some (q, l)) (hb : s.bindCheck l = none) :
    ∃ t, exec (.launchSelection elsewhere sources) s = .next t ∧ t.dev.queues[q] = s.dev.queues[q].tail ∧
      (∃ e, t.launch l.graph = some e ∧ e.st = .bound ∧ e.elsewhere = elsewhere ∧ e.sources = sources ∧ e.prio = s.headPrio q l) ∧
      (l.clusters.getLsbD s.clusterNo.toNat = false → Kept s t ∧ t.cl = s.cl) ∧
      (l.clusters.getLsbD s.clusterNo.toNat = true →
        t.cl.bound.map (fun b => (b.graph, b.space, b.tvec)) = some (l.graph, l.space, l.tvec) ∧ t.cl.part = l.part ∧
        (∀ c ∈ t.cores, c.accum = []) ∧ t.icache = [] ∧ (∀ a < 0x2000000, Mem.read t.mem a = 0) ∧
        t.cl.lists = s.cl.lists ∧ t.cl.placing = some l.graph ∧
        t.cl.zeroAt = max s.dev.clk s.cl.zeroAt + (partP l.part + 16384 * partA l.part) / 256) := by
  let b := s.selected q l elsewhere sources
  let u := (s.dequeued q).putLaunch b
  have chosen : u.launch l.graph = some b := (s.dequeued q).putLaunch_launch rfl
  obtain ⟨queues, launch⟩ := u.bindHere_dev b
  refine ⟨_, exec_launchSelection_bound h hb, ?_⟩
  cases here : l.clusters.getLsbD s.clusterNo.toNat with
  | false => exact ⟨s.dequeued_queue q, ⟨b, chosen, rfl, rfl, rfl, rfl⟩, fun _ => ⟨⟨rfl, rfl, rfl⟩, rfl⟩, nofun⟩
  | true =>
    refine ⟨?_, ⟨b, (launch _).trans chosen, rfl, rfl, rfl, rfl⟩, nofun, fun _ => u.bindHere_binds b⟩
    exact (congrArg (·[q]) queues).trans (s.dequeued_queue q)

theorem launchCompletion_published {l : Launch} (h : s.launch l.graph = some l) (hq : s.launchQuiet l = true) :
    ∃ t, exec (.launchCompletion l.graph) s = .next t ∧ Published s t l 0 5 0 (BitVec.ofNat 64 s.dev.clk) := by
  refine ⟨_, (exec_launchCompletion h).trans (by rw [if_pos hq]), ?_⟩
  exact State.publish_published (r := normalEnd l.graph) s.clk (s.stopWatches_cores _) (s.stopWatches_places _) rfl

/-- The kill that a cancel asks for, of a bound launch. -/
theorem cancel_kills {fn : Fin 63} {n : Word} {l : Launch} {ls : List Launch} (hr : ∀ x ∈ s.dev.reads, x.launch = none)
    (hq : s.dev.queues = Vector.replicate 4 []) (hl : s.dev.launches = l :: ls) (named : l.named fn n = true) (live : l.live = true) :
    exec (.cancel fn n) s = .next (s.askKill (s.plainKill l.graph 4 0x18 false 0)) := by
  rw [exec_cancel_bound hr hq, hl, List.find?_cons_of_pos (by simp [named, live])]
  rfl

theorem cancel_none {fn : Fin 63} {n : Word} (hr : ∀ x ∈ s.dev.reads, x.launch = none) (hq : s.dev.queues = Vector.replicate 4 [])
    (hl : ∀ l ∈ s.dev.launches, l.named fn n = false) : exec (.cancel fn n) s = .next s := by
  rw [exec_cancel_bound hr hq, List.find?_eq_none.2 fun l hm => by simp [hl l hm]]
  rfl

end

/-- Settles O57, clause by clause: boot, the rings, a read that fails, selection, the root records, the launch table, completion
and cancel. -/
theorem launchesEnterAndEnd : Obligations.LaunchesEnterAndEnd := by
  unfold Obligations.LaunchesEnterAndEnd
  refine ⟨fun s id cap ms images links imgs failed => ⟨exec_boot_refused, exec_boot_again, fun hc hb hi => ⟨fun h => ?images,
    fun hm hp hl => ?links, fun hp => ?boot⟩⟩, fun s fn v => ⟨exec_rings_refused v, exec_notify_old, fun hi => ?rings,
    fun h => exec_ringBase_refused (.inr h), fun h => exec_ringEntries_refused (.inr h)⟩,
    fun s req k x found host timed launch last => ?fails, fun s elsewhere sources q l h timed => ⟨fun c v hb => ?refused,
      launchSelection_binds h⟩, fun s g l placing => ?roots, fun s elsewhere h => exec_launchSelection_none h,
    fun s i e h => ⟨exec_launchSlot_early h, launchSlot_enters h, exec_launchSlot_pends h, exec_launchSlot_skips h⟩,
    fun s l h => ⟨launchCompletion_published h, fun busy => (exec_launchCompletion h).trans (by rw [if_neg (by simp [busy])])⟩,
    fun s fn n => ?cancel⟩
  case images => exact (exec_boot_fresh hc hb hi).trans (congrArg _ (State.bootNow_badImages h))
  case links =>
    subst hm hl
    exact (exec_boot_fresh hc hb hi).trans (congrArg _ (State.bootNow_badLinks hp))
  case boot =>
    obtain ⟨t, rs, run, cores, mem, above⟩ := exec_boot_runs (ms := ms) (failed := failed) hc hb hi hp
    have dev {α : Type} (f : Device → α) := congrArg (fun x : State => f x.dev) above
    have slots : t.dev.slots = s.dev.slots.set 63 { s.dev.slots[63] with
      kenc := some (Config.freeKey s.dev.drawn), kmac := some (Config.freeKey (s.dev.drawn + 1)) } := dev (·.slots)
    have rings : t.dev.rings = s.dev.rings.map Ring.bounded := dev (·.rings)
    have members : t.dev.members = joined id ms := dev (·.members)
    refine ⟨t, run, cores, mem, dev (·.booted), dev (·.id), dev (·.capbase), dev (·.staged), dev (·.measured), dev (·.versions),
      fun m h => members ▸ joined_members h, members ▸ joined_own id ms, ?_, ?_, ?_, ?_, dev (·.drawn), fun fn => ?_⟩
    · exact dev (·.deviceKey.isSome)
    · exact dev (·.aliasKey.isSome)
    · simp [slots]
    · simp [slots]
    · simp [State.ring, rings]
  case rings =>
    have put {i : Instr} {r : Ring} (run : exec i s = .next (s.setRing fn r.settled)) {q : Ring} (h : r.settled = q) :
        exec i s = .next (s.setRing fn q) := h ▸ run
    refine ⟨exec_notify_unbooted hi, notify_reads hi, fun hv more => put (exec_ringBase hi hv) (Ring.settled_busy more),
      fun hv done held => put (exec_ringBase hi hv) ?_, fun k hk hv more => put (exec_ringEntries hi hk hv) (Ring.settled_busy more),
      fun k hk hv done held => put (exec_ringEntries hi hk hv) ?_⟩
    · rw [Ring.settled_idle (by exact done), held]
      rfl
    · rw [Ring.settled_idle (by exact done), held]
      rfl
  case fails =>
    obtain ⟨kept, skips⟩ := (s.endPcie req).chunkFails_skips (req := req) (k := k) found timed launch last
    have skip (i : Instr) (run : exec i s = .next ((s.endPcie req).chunkFails req)) : ∃ t, exec i s = .next t ∧ Kept s t ∧
        (t.ring x.fn).consumed = (s.ring x.fn).consumed + 1 ∧ (t.ring x.fn).refused = ((s.ring x.fn).refused + 1) % 2 ^ 32 ∧
        t.dev.launches = s.dev.launches ∧ t.outbox = s.outbox := ⟨_, run, ⟨kept.core, kept.mates, kept.mem⟩, skips⟩
    obtain ⟨abort, poisoned⟩ := exec_pcieCompletion_fails (s := s) host
    exact ⟨skip _ abort, skip _ poisoned, fun due => skip _ (exec_completionTimeout_due host due), exec_completionTimeout_early⟩
  case refused =>
    refine ⟨_, exec_launchSelection_refused h hb, State.refuse_published _ _ ⟨rfl, rfl⟩ ⟨rfl, rfl, rfl, rfl, rfl⟩ rfl, ?_⟩
    exact (congrArg (·[q]) (State.publish_queues ..)).trans (s.dequeued_queue q)
  case roots =>
    refine ⟨fun early => if_neg early.not_ge, fun due => (if_pos due).trans placing, State.placeRoots_places⟩
  case cancel =>
    refine ⟨fun x l hx timed launch named => cancel_reading hx timed launch (Launch.named_iff.2 named), fun hr =>
      ⟨fun q l ls hq named => cancel_queued hr hq (Launch.named_iff.2 named), fun hq =>
        ⟨fun l ls hl named live => ?_, fun hl => ?_⟩⟩⟩
    · exact ⟨_, _, cancel_kills hr hq hl (Launch.named_iff.2 named) live, ⟨rfl, rfl, rfl⟩, rfl, rfl, rfl, rfl⟩
    · exact cancel_none hr hq fun l hm => Bool.eq_false_iff.2 fun named => hl l hm (Launch.named_iff.1 named)

end Sys2Proof.Machine

namespace Sys2Proof.Machine

/-! ## O60: requests, retries and probes (R342, R343, R345) -/

section
variable {s : State}

theorem State.outReq_id {r : OutReq} {id : Nat} (h : s.outReq id = some r) : r.id = id := by
  simpa using List.find?_some h

/-- A request that is replaced stands in the table in its new form. -/
theorem State.putReq_outReq {r q : OutReq} (h : s.outReq q.id = some r) : (s.putReq q).outReq q.id = some q := by
  have same : ((fun x : OutReq => x.id == q.id) ∘ fun x => if x.id = q.id then q else x) = fun x => x.id == q.id := by
    funext x
    by_cases e : x.id = q.id <;> simp [e]
  have found : s.dev.reqs.find? (fun x => x.id == q.id) = some r := h
  change (s.dev.reqs.map fun x => if x.id = q.id then q else x).find? (fun x => x.id == q.id) = some q
  rw [List.find?_map, same, found]
  exact congrArg some (if_pos (State.outReq_id h))

theorem State.heard_outReq (d : BitVec 10) (id : Nat) : (s.heard d).outReq id = s.outReq id := by
  unfold State.heard
  split <;> rfl

theorem State.heard_clk (d : BitVec 10) : (s.heard d).dev.clk = s.dev.clk := by
  unfold State.heard
  split <;> rfl

/-- A retry is answered two microseconds later (R342). -/
theorem retry_waits {h : NysilHdr} {r : OutReq} (hr : s.outReq r.id = some r) (hb : s.badHeader h = false)
    (hl : s.lostDev h.src = false) (hd : r.dev = h.src) :
    ∃ t, exec (.retry h r.id) s = .next t ∧ (t.outReq r.id).bind (fun x => x.retryAt) = some (s.dev.clk + 3000) := by
  have known : (s.heard h.src).outReq r.id = some r := (State.heard_outReq ..).trans hr
  let q : OutReq := { r with retryAt := some ((s.heard h.src).dev.clk + 2 * clkPerUs) }
  have waits : ((s.heard h.src).putReq q).outReq r.id = some q := State.putReq_outReq (q := q) known
  refine ⟨(s.heard h.src).putReq q, ?_, ?_⟩
  · change execRetry h r.id s = _
    unfold execRetry
    rw [hb, hl]
    dsimp only
    rw [known]
    exact if_pos hd
  · rw [waits, ← State.heard_clk h.src]
    rfl

/-- A request that is sent again goes out under a header. -/
theorem State.sendAgain_outbox (s : State) (r : OutReq) :
    ∃ hdr port, (s.sendAgain r).outbox = s.outbox ++ [.nysil hdr port (.again r.id)] := by
  let u := s.putReq { r with sent := s.dev.clk, retryAt := none }
  obtain ⟨hdr, port, out⟩ := u.sendNysil_outbox r.dev r.slot r.type true (.again r.id)
  refine ⟨hdr, port, ?_⟩
  unfold State.sendAgain
  dsimp only
  split <;> exact out

theorem repeatAfterRetry_repeats {r : OutReq} (hr : s.outReq r.id = some r) (due : ∃ c, r.retryAt = some c ∧ c ≤ s.dev.clk) :
    ∃ t, exec (.repeatAfterRetry r.id) s = .next t ∧ ∃ hdr port, t.outbox = s.outbox ++ [.nysil hdr port (.again r.id)] := by
  obtain ⟨c, at', passed⟩ := due
  refine ⟨s.sendAgain r, ?_, s.sendAgain_outbox r⟩
  change execRepeatAfterRetry r.id s = _
  unfold execRepeatAfterRetry
  rw [hr]
  exact if_pos (by simpa [State.retryDue, at'] using passed)

theorem requestRepeat_repeats {r : OutReq} (hr : s.outReq r.id = some r) (pull : isPullReq r.id = false) (answered : r.oneWay = false)
    (due : r.sent + 12000 ≤ s.dev.clk) :
    ∃ t, exec (.requestRepeat r.id) s = .next t ∧ ∃ hdr port, t.outbox = s.outbox ++ [.nysil hdr port (.again r.id)] := by
  have late : s.repeatReq r = true := by
    have us : 8 * clkPerUs = 12000 := rfl
    unfold State.repeatReq
    rw [pull, answered, us, Bool.not_false, Bool.true_and, Bool.true_and]
    exact decide_eq_true due
  refine ⟨s.sendAgain r, ?_, s.sendAgain_outbox r⟩
  change execRequestRepeat r.id s = _
  unfold execRequestRepeat
  rw [hr]
  exact if_pos late

theorem State.cacheSession_outbox (x : Session) : (s.cacheSession x).outbox = s.outbox := State.evictSession_outbox _

/-- A message that its session takes: nothing is sent, and it is the last that was heard of its peer. -/
theorem State.accepts_takes {h : NysilHdr} {x y : Session} (request : Bool) (hb : s.badHeader h = false) (hl : s.lostDev h.src = false)
    (away : h.src ≠ s.dev.id) (hx : s.session h.src h.slot = some x) (cached : x.cached = true) (verifies : x.verifies h = true)
    (hy : x.receive h.seqNo.toNat = some y) :
    ∃ u, s.accepts (some h) request = (u, true) ∧ u.outbox = s.outbox ∧ (u.peer h.src).lastMsg = s.dev.clk := by
  let y' := if (h.echo && !request) = true then y.echoed else y
  have held : (s.session h.src h.slot).filter (·.cached) = some x := by rw [hx]; simp [Option.filter, cached]
  let u := (s.cacheSession y').heard h.src
  have below := s.cacheSession_below y'
  have other : h.src ≠ (s.cacheSession y').dev.id := below.id ▸ away
  have last : (u.peer h.src).lastMsg = s.dev.clk := by
    dsimp only [u]
    unfold State.heard State.peer
    rw [if_neg other]
    simpa using below.clk
  have out : u.outbox = s.outbox := by
    dsimp only [u]
    unfold State.heard
    rw [if_neg other]
    exact State.cacheSession_outbox _
  refine ⟨if (h.echo && !request) = true then u.count .congestionSteps 1 else u, ?_, ?_, ?_⟩
  · unfold State.accepts
    dsimp only
    rw [hb, hl, held, if_neg (by decide), if_neg (by decide)]
    dsimp only
    rw [verifies, if_neg (by decide), hy]
  · split <;> exact out
  · split <;> exact last

/-- A message that is taken is acted on. -/
theorem receive_takes {h : NysilHdr} {request : Bool} {k : State → Out} {u t : State} (hu : s.accepts (some h) request = (u, true))
    (hk : k (u.setDev { u.dev with marked := if request && h.congested then some h.src else none }) = .next t) :
    receive (some h) request s k = .next (t.setDev { t.dev with marked := none }) := by
  have refusal : (if request && s.quenched h then (none : Option (BitVec 7 × Msg)) else none) = none := ite_self _
  unfold receive
  dsimp only
  rw [refusal, hu]
  dsimp only
  rw [hk]

/-- A probe is answered, and its answer is heard. -/
theorem probes_take {h : NysilHdr} {x y : Session} (hb : s.badHeader h = false) (hl : s.lostDev h.src = false) (away : h.src ≠ s.dev.id)
    (hx : s.session h.src h.slot = some x) (cached : x.cached = true) (verifies : x.verifies h = true)
    (hy : x.receive h.seqNo.toNat = some y) :
    (∃ t, exec (.probe h) s = .next t ∧ ∃ hdr port, t.outbox = s.outbox ++ [.nysil hdr port (.probeAnswer h.src)]) ∧
      ∃ t, exec (.probeAnswer h) s = .next t ∧ (t.peer h.src).lastMsg = s.dev.clk := by
  constructor
  · obtain ⟨u, taken, out, -⟩ := State.accepts_takes true hb hl away hx cached verifies hy
    obtain ⟨hdr, port, sent⟩ := (u.setDev { u.dev with marked := if true && h.congested then some h.src else none }).sendNysil_outbox
      h.src h.slot 0x0A false (.probeAnswer h.src)
    refine ⟨_, receive_takes (k := fun s => .next (s.sendNysil h.src h.slot 0x0A false (.probeAnswer h.src))) taken rfl, hdr, port, ?_⟩
    exact sent.trans (congrArg (· ++ _) out)
  · obtain ⟨u, taken, -, last⟩ := State.accepts_takes false hb hl away hx cached verifies hy
    exact ⟨_, receive_takes taken rfl, last⟩

/-! ## O60: peers and members (R338, R345, R346) -/

theorem probeTimer_probes {d : BitVec 10} (h : ∃ r ∈ s.dev.reqs, r.dev = d ∧ s.probeDue r = true) :
    ∃ t, exec (.probeTimer d) s = .next t ∧ ∃ hdr port, t.outbox = s.outbox ++ [.nysil hdr port (.probe d)] := by
  have due : ∃ r, s.dev.reqs.find? (fun r => r.dev == d && s.probeDue r) = some r := by
    rw [← Option.isSome_iff_exists, List.find?_isSome]
    simpa [and_assoc] using h
  obtain ⟨r, due⟩ := due
  refine ⟨_, ?_, State.sendNysil_outbox (s.putPeer { s.peer d with probed := s.dev.clk }) d r.slot 0x09 false (.probe d)⟩
  change execProbeTimer d s = _
  unfold execProbeTimer
  rw [due]

theorem State.askKill_below (r : KillReq) : Below s (s.askKill r) := s.queue_below _

theorem State.loseCore_below (s : State) (d : BitVec 10) (c : Core) : Below s (s.loseCore d c) :=
  (Below.foldl (fun s _ => s.queue_below _) ..).trans ((Below.foldl (fun s _ => s.queue_below _) ..).trans
    ((Below.foldl (fun s _ => s.queue_below _) ..).trans (Below.foldl (fun s _ => s.queue_below _) ..)))

theorem State.loseSched_below (s : State) (d : BitVec 10) : Below s (s.loseSched d) :=
  (Below.foldl (fun s _ => s.queue_below _) ..).trans
    ((Below.foldl (fun s _ => s.queue_below _) ..).trans (Below.foldl (fun s _ => s.queue_below _) ..))

/-- Of what stands above, the loss of a peer changes only what the device knows of its peers. -/
theorem State.losePeer_below (s : State) (d : BitVec 10) : Below (s.putPeer { s.peer d with lost := true }) (s.losePeer d) := by
  unfold State.losePeer
  dsimp only
  refine (Below.trans ?_ (State.loseSched_below ..)).trans (Below.foldl (fun s _ => State.askKill_below _) ..)
  refine Below.trans ?_ (Below.foldl (fun s _ => s.queue_below _) ..)
  exact ((setDev_below (by rfl)).trans (setCl_below (by rfl))).trans (Below.foldl (fun s c => s.loseCore_below d c) ..)

theorem Below.peers {t : State} (h : Below s t) : t.dev.peers = s.dev.peers := congrArg (fun x => x.dev.peers) h.above

theorem State.peer_dev (d : BitVec 10) : (s.peer d).dev = d := by
  unfold State.peer
  cases found : s.dev.peers.find? fun p => p.dev == d with
  | none => rfl
  | some p => simpa using List.find?_some found

theorem State.losePeer_lost (s : State) (d : BitVec 10) : (s.losePeer d).lostDev d = true := by
  unfold State.lostDev
  rw [(s.losePeer_below d).peers]
  exact List.any_eq_true.2 ⟨_, List.mem_cons_self, by simp [State.peer_dev]⟩

theorem State.losePeer_members (s : State) (d : BitVec 10) : (s.losePeer d).dev.members = s.dev.members :=
  (s.losePeer_below d).members

theorem peerLoss_loses {d : BitVec 10} (h : ∃ r ∈ s.dev.reqs, r.dev = d ∧ s.lossDue r = true) :
    ∃ t, exec (.peerLoss d) s = .next t ∧ t.lostDev d = true := by
  have due : s.dev.reqs.any (fun r => r.dev == d && s.lossDue r) = true := by simpa [and_assoc] using h
  refine ⟨_, ?_, State.losePeer_lost (s.count .peersLost 1) d⟩
  change execPeerLoss d s = _
  unfold execPeerLoss
  rw [due]
  rfl

theorem State.admitted_dev (d : BitVec 10) (epoch : BitVec 4) : (s.admitted d epoch).dev = d := by
  unfold State.admitted
  cases found : s.memberEntry d with
  | none => rfl
  | some m => simpa using List.find?_some found

theorem peerReadmit_admits {d : BitVec 10} (epoch : BitVec 4) (h : s.lostDev d = true ∨ s.member d = false) :
    ∃ t, exec (.peerReadmit d epoch) s = .next t ∧ t.member d = true := by
  refine ⟨_, if_neg ?_, List.any_eq_true.2 ⟨s.admitted d epoch, List.mem_cons_self, ?_⟩⟩
  · rcases h with h | h <;> simp [h]
  · rw [State.admitted_dev]
    simp [State.admitted]

theorem memberRemoval_removes {d : BitVec 10} (h : s.member d = true) :
    ∃ t, exec (.memberRemoval d) s = .next t ∧ t.member d = false := by
  let ms := s.dev.members.map fun m => if m.dev = d then { m with member := false } else m
  have gone (u : State) (hu : u.dev.members = ms) : u.member d = false := by
    unfold State.member
    rw [hu, List.any_map, List.any_eq_false]
    intro m _
    by_cases e : m.dev = d <;> simp [e]
  let ls := s.dev.launches.filter fun l => l.live && (d == s.dev.id || l.onDev d)
  let u := ls.foldl (fun s l => s.askKill (s.plainKill l.graph 4 0x18 false 0)) (s.setDev { s.dev with members := ms })
  have told : u.dev.members = ms := (Below.foldl (fun s l => s.askKill_below _) ls (s.setDev { s.dev with members := ms })).members
  refine ⟨if d = u.dev.id then u else u.losePeer d, ?_, ?_⟩
  · change execMemberRemoval d s = _
    unfold execMemberRemoval
    rw [h]
    rfl
  · split
    · exact gone u told
    · exact gone _ ((u.losePeer_members d).trans told)

end

end Sys2Proof.Machine

namespace Sys2Proof.Machine

/-! ## O60: reads of host memory (R348) -/

section
variable {s : State}

/-- A far read of host memory that ends without its data is a read that a reply fails. -/
theorem State.hostRead_far {req : Nat} (line : LineReply) (c : Byte) (low : req < 2 ^ 67) (opened : s.pcieOpen req = true) :
    s.hostRead req line (fun _ => .fault c) = exec (.readResponse none req (.fault c)) (s.endPcie req) := by
  have code : ¬ 2 ^ 120 ≤ req := by omega
  have pull : isPullReq req = false := Bool.and_eq_false_imp.2 fun h => absurd (of_decide_eq_true h) low.not_ge
  unfold State.hostRead
  rw [opened, pull, if_neg (by decide)]
  dsimp only
  rw [if_neg code, if_neg (by decide)]
  rfl

/-- A far read that the host aborts, or that runs out, leaves its core. -/
theorem hostReads_leave {f : FarRead} (hf : s.core.far.find? (fun g => g.req == f.req && g.sent) = some f)
    (sent : ∀ g ∈ s.core.far, g.sent = true) (low : f.req < 2 ^ 67) (away : s.readsHere (homeOf f.addr) = false)
    (opened : s.pcieOpen f.req = true) :
    let leaves (t : State) : Prop := t.core.far = s.core.far.filter fun x => x.id != f.id
    (∃ t, exec (.pcieCompletion f.req .abort) s = .next t ∧ leaves t) ∧
      ((∃ x ∈ s.dev.pcie, x.1 = f.req ∧ x.2 ≤ s.dev.clk) → ∃ t, exec (.completionTimeout f.req) s = .next t ∧ leaves t) := by
  have far : ¬ 2 ^ 130 ≤ f.req := by omega
  have fails (line : LineReply) (c : Byte) (hc : c ≠ 0x08) : ∃ t, s.hostRead f.req line (fun _ => .fault c) = .next t ∧
      t.core.far = s.core.far.filter fun x => x.id != f.id := by
    rw [State.hostRead_far line c low opened]
    exact readResponse_fault (s := s.endPcie f.req) hf sent away hc
  refine ⟨?_, fun due => ?_⟩
  · have run : exec (.pcieCompletion f.req .abort) s = s.hostRead f.req (.fault 0x09) fun _ => .fault 0x09 := if_neg far
    rw [run]
    exact fails _ _ (by decide)
  · have ended : (s.dev.pcie.any fun x => x.1 == f.req && s.pcieDue x) = true := by simpa [State.pcieDue] using due
    have run : exec (.completionTimeout f.req) s = s.hostRead f.req (.fault 0x14) fun _ => .fault 0x14 := by
      change execCompletionTimeout f.req s = _
      unfold execCompletionTimeout
      rw [ended, if_neg (by decide), if_neg far]
    rw [run]
    exact fails _ _ (by decide)

/-! ## O60: sessions and their keys (R342, R375, R376) -/

theorem State.session_names {d : BitVec 10} {k : BitVec 6} {x : Session} (h : s.session d k = some x) : x.dev = d ∧ x.slot = k := by
  simpa using List.find?_some h

/-- A session that is replaced is found in its new form. -/
theorem State.putSession_session {d : BitVec 10} {k : BitVec 6} {x : Session} (hd : x.dev = d) (hk : x.slot = k) :
    (s.putSession x).session d k = some x := by
  subst hd hk
  exact List.find?_cons_of_pos (by simp)

theorem Session.setKey_names (x : Session) (phase : Bool) (key : Option (BitVec 512)) :
    (x.setKey phase key).dev = x.dev ∧ (x.setKey phase key).slot = x.slot ∧ (x.setKey phase key).phase = x.phase := by
  cases phase <;> exact ⟨rfl, rfl, rfl⟩

theorem Session.setKey_key (x : Session) (phase : Bool) (key : Option (BitVec 512)) : (x.setKey phase key).key phase = key := by
  cases phase <;> rfl

theorem nysilInstall_status {d : BitVec 10} {k : BitVec 6} (phase : Bool) (key : BitVec 512) (h : s.session d k = none) :
    ∃ t, exec (.nysilInstall d k phase key) s = .next t ∧ t.outbox = s.outbox ++ [.status 0] := by
  refine ⟨(s.cacheSession (Session.setKey { Session.fresh s.dev.id d k with flipAt := s.dev.clk } phase (some key))).status 0, ?_,
    congrArg (· ++ _) (State.cacheSession_outbox _)⟩
  change execNysilInstall d k phase key s = _
  unfold execNysilInstall
  rw [h]
  rfl

theorem nysilErase_status (d : BitVec 10) (k : BitVec 6) (phase : Bool) :
    ∃ t, exec (.nysilErase d k phase) s = .next t ∧ t.outbox = s.outbox ++ [.status 0] := by
  change ∃ t, execNysilErase d k phase s = .next t ∧ _
  unfold execNysilErase
  rw [if_neg (by simp)]
  cases s.session d k with
  | none => exact ⟨_, rfl, rfl⟩
  | some x => exact ⟨_, rfl, rfl⟩

variable {d : BitVec 10} {k : BitVec 6} {x : Session}

theorem keyRotation_installs (key : BitVec 512) (hx : s.session d k = some x) (idle : x.key (!x.phase) = none)
    (erased : x.erased = true) : ∃ t, exec (.keyRotation d k (.install key)) s = .next t ∧
      (t.session d k).bind (fun y => y.key (!x.phase)) = some key := by
  let y : Session := { x.setKey (!x.phase) (some key) with idleAcked := false }
  obtain ⟨hd, hk⟩ := State.session_names hx
  obtain ⟨dev, slot, -⟩ := x.setKey_names (!x.phase) (some key)
  have found : (s.putSession y).session d k = some y := State.putSession_session (dev.trans hd) (slot.trans hk)
  refine ⟨(s.putSession y).send (.keyAck x.dev x.slot), ?_, ?_⟩
  · change execKeyRotation d k (.install key) s = _
    unfold execKeyRotation
    rw [hx]
    dsimp only
    unfold State.nextKey
    rw [idle, erased]
    rfl
  · change ((s.putSession y).session d k).bind _ = _
    rw [found]
    exact x.setKey_key (!x.phase) (some key)

theorem oldPhaseErase_erases (hx : s.session d k = some x) (kept : x.erased = false) (due : x.flipAt + 300000 ≤ s.dev.clk) :
    ∃ t, exec (.oldPhaseErase d k) s = .next t ∧ (t.session d k).map (fun y => y.erased) = some true := by
  let y : Session := { x.setKey (!x.phase) none with erased := true, idleAcked := false }
  obtain ⟨hd, hk⟩ := State.session_names hx
  obtain ⟨dev, slot, -⟩ := x.setKey_names (!x.phase) none
  have found : (s.putSession y).session d k = some y := State.putSession_session (dev.trans hd) (slot.trans hk)
  have late : s.eraseDue x = true := by
    have us : 200 * clkPerUs = 300000 := rfl
    unfold State.eraseDue
    rw [kept, us, Bool.not_false, Bool.true_and]
    exact decide_eq_true due
  refine ⟨s.putSession y, ?_, by rw [found]; rfl⟩
  change execOldPhaseErase d k s = _
  unfold execOldPhaseErase
  rw [hx]
  exact if_pos late

/-- With room on chip a context is fetched and none leaves. -/
theorem State.cacheSession_room (h : (s.dev.sessions.filter Session.cached).length < 4096) (x : Session) :
    s.cacheSession x = s.putSession { x with cached := true } := by
  have fits : ((s.putSession { x with cached := true }).dev.sessions.filter (·.cached)).length ≤ 4096 := by
    have fewer := ((List.filter_sublist (p := fun y => !(y.dev == x.dev && y.slot == x.slot)) (l := s.dev.sessions)).filter
      Session.cached).length_le
    refine (List.length_cons ..).trans_le (?_ : _ + 1 ≤ _)
    exact fewer.trans_lt h
  exact if_pos fits

theorem sessionContextFetch_caches (hx : s.session d k = some x) (room : (s.dev.sessions.filter Session.cached).length < 4096) :
    ∃ t, exec (.sessionContextFetch d k) s = .next t ∧ (t.session d k).map (fun y => y.cached) = some true := by
  obtain ⟨hd, hk⟩ := State.session_names hx
  refine ⟨s.cacheSession x, ?_, ?_⟩
  · change execSessionContextFetch d k s = _
    unfold execSessionContextFetch
    rw [hx]
  · rw [State.cacheSession_room room, State.putSession_session (by exact hd) (by exact hk)]
    rfl

end

/-! ## O60: hearths and interfaces (R352 to R356, R384) -/

section
variable {s : State} {k : BitVec 6}

@[simp] theorem State.setSlotOf_slot (x : KeySlot) : (s.setSlotOf k x).slot k = x := by
  simp [State.setSlotOf, State.slot]

@[simp] theorem State.beginZero_dev (s : State) (part : BitVec 32) : (s.beginZero part).dev = s.dev := rfl

theorem State.slot_congr {t : State} (h : t.dev.slots = s.dev.slots) : t.slot k = s.slot k := by
  unfold State.slot
  rw [h]

theorem State.slot_st {t : State} {x : KeySlot} (h : t.dev.slots = (s.setSlotOf k x).dev.slots) : (t.slot k).st = x.st := by
  rw [State.slot_congr h, State.setSlotOf_slot]

@[simp] theorem State.setInterface_interface (x : Tdisp) : (s.setInterface k x).interface k = x := by
  simp [State.setInterface, State.interface]

/-- The lowest slot of a hearth that is free. -/
theorem hearthSlots_first {p : BitVec 6 → Bool} (low : 1 ≤ k.toNat) (high : k.toNat ≤ 62) (hk : p k = true)
    (below : ∀ j : BitVec 6, 1 ≤ j.toNat → j.toNat < k.toNat → p j = false) : hearthSlots.find? p = some k := by
  have num : ∀ j < 62, (BitVec.ofNat 6 (j + 1)).toNat = j + 1 := fun j hj => by rw [BitVec.toNat_ofNat]; omega
  have last : BitVec.ofNat 6 (k.toNat - 1 + 1) = k := by rw [Nat.sub_add_cancel low, BitVec.ofNat_toNat, BitVec.setWidth_eq]
  have found : (List.range 62).find? (p ∘ fun j => BitVec.ofNat 6 (j + 1)) = some (k.toNat - 1) := by
    refine List.find?_range_eq_some.2 ⟨by rwa [Function.comp_apply, last], List.mem_range.2 (by omega), fun j hj => ?_⟩
    have := num j (by omega)
    simp [below (BitVec.ofNat 6 (j + 1)) (by omega) (by omega)]
  rw [hearthSlots, List.find?_map, found, Option.map_some, last]

theorem kindle_kindles (test : Bool) (clusters : BitVec 72) (locked : s.dev.debug = false) (low : 1 ≤ k.toNat) (high : k.toNat ≤ 62)
    (free : (s.slot k).st = .free) (first : ∀ j : BitVec 6, 1 ≤ j.toNat → j.toNat < k.toNat → (s.slot j).st ≠ .free) :
    ∃ t, exec (.kindle test clusters) s = .next t ∧ (t.slot k).st = .kindled := by
  have found : hearthSlots.find? (fun j => (s.slot j).st == .free) = some k :=
    hearthSlots_first low high (by simp [free]) fun j hj hlt => by simpa using first j hj hlt
  change ∃ t, execKindle test clusters s = .next t ∧ _
  unfold execKindle
  rw [if_neg (by simp), locked, if_neg (by decide), found]
  dsimp only
  refine ⟨_, rfl, ?_⟩
  split <;> simp [State.slot, State.status, State.setInterface, State.setMajorSource, State.setSlotOf]

theorem State.discardLines_below (s : State) (sps : List (BitVec 16)) :
    Below (s.setCl { s.cl with nc := s.cl.nc.filter fun n => !sps.contains n.space }) (s.discardLines sps) := by
  refine Below.foldl (fun s n => ?_) ..
  split
  · exact .rfl
  · exact (s.raiseEvFloor_below _).trans (State.raiseEvFloor_below ..)

/-- A kindled slot that is quenched is quenching. -/
theorem quench_quenches (who : QuenchBy) (h : (s.slot k).st = .kindled) :
    ∃ t, exec (.quench k who) s = .next t ∧ (t.slot k).st = .quenching := by
  change ∃ t, execQuench k who s = .next t ∧ _
  unfold execQuench
  rw [if_neg (not_not.2 h)]
  refine ⟨_, rfl, State.slot_st (s := s) (x := { s.slot k with st := .quenching, kenc := none, kmac := none }) ?_⟩
  simp only [State.status, State.send_dev, State.setDev_dev, (State.discardLines_below _ _).slots, State.setCl_dev,
    (Below.foldl (fun s _ => s.askKill_below _) _ _).slots]
  split <;> rfl

theorem lockInterface_locks (h : (s.slot k).st = .kindled) (open' : s.interface k = .configUnlocked) :
    ∃ t, exec (.lockInterfaceRequest k) s = .next t ∧ t.interface k = .configLocked :=
  ⟨_, congrArg Host.Outcome.next (if_pos ⟨h, open'⟩), State.setInterface_interface _⟩

theorem startInterface_runs (h : (s.slot k).st = .kindled) (locked : s.interface k = .configLocked) :
    ∃ t, exec (.startInterfaceRequest k) s = .next t ∧ t.interface k = .run :=
  ⟨_, congrArg Host.Outcome.next (if_pos ⟨h, locked⟩), State.setInterface_interface _⟩

theorem deviceInterfaceReport_reports (h : (s.slot k).st = .kindled) :
    ∃ t, exec (.deviceInterfaceReport k) s = .next t ∧ ∃ ws, t.outbox = s.outbox ++ [.report ws] := by
  refine ⟨s.report k, ?_, _, rfl⟩
  exact if_neg (by rw [h]; decide)

theorem State.report_below (s : State) (k : BitVec 6) : Below s (s.report k) := s.send_below _

theorem quenchRelease_releases (h : (s.slot k).st = .quenching)
    (none' : ∀ l ∈ s.dev.launches, l.live = true → l.space ∉ s.spacesOf k) :
    ∃ t, exec (.quenchRelease k) s = .next t ∧ ((t.slot k).st = .free ∨ (t.slot k).st = .retired) := by
  change ∃ t, execQuenchRelease k s = .next t ∧ _
  unfold execQuenchRelease
  dsimp only
  rw [if_neg (by simpa [h] using none')]
  refine ⟨_, rfl, ?_⟩
  let x : KeySlot := { s.slot k with
    st := if (s.slot k).gen = 0xFFFF#16 then .retired else .free, clusters := 0, test := false }
  have ended : x.st = .free ∨ x.st = .retired := by
    dsimp only [x]
    split
    · exact .inr rfl
    · exact .inl rfl
  have zeroed (p : Prop) [Decidable p] : (if p then s.beginZero s.cl.part else s).dev = s.dev := by
    split <;> simp
  have settled (p : Prop) [Decidable p] (u : State) : (if p then u.setInterface k .configUnlocked else u).dev.slots = u.dev.slots := by
    split <;> rfl
  rw [State.slot_st (s := s) (x := x) ?_]
  · exact ended
  · simp only [(Below.foldl State.report_below _ _).slots, State.setDev_dev, settled, State.setSlotOf, State.setCl_dev, zeroed, x]

theorem debugUnlock_unlocks
    (h : ∀ k : BitVec 6, 1 ≤ k.toNat → k.toNat ≤ 62 → (s.slot k).st ≠ .kindled ∧ (s.slot k).st ≠ .quenching) :
    ∃ t, exec (.debugUnlock true) s = .next t ∧ t.dev.debug = true := by
  have idle : hearthSlots.any (fun k => (s.slot k).st == .kindled || (s.slot k).st == .quenching) = false := by
    simp only [hearthSlots, List.any_map, List.any_eq_false]
    intro j hj
    have := List.mem_range.1 hj
    have num : (BitVec.ofNat 6 (j + 1)).toNat = j + 1 := by rw [BitVec.toNat_ofNat]; omega
    obtain ⟨kindled, quenching⟩ := h (BitVec.ofNat 6 (j + 1)) (by omega) (by omega)
    simp [kindled, quenching]
  refine ⟨(s.setDev { s.dev with debug := true }).status 0, ?_, rfl⟩
  change execDebugUnlock true s = _
  unfold execDebugUnlock
  rw [idle]
  rfl

end

/-! ## O60: certificates (R382, R383) -/

section
variable {s : State} {k : Fin 8}

theorem certWrite_writes (cert : List Byte) (hk : k ≠ 0) (free : s.challenged k = false) :
    ∃ t, exec (.certWrite k cert) s = .next t ∧ t.dev.certs[k] = cert := by
  refine ⟨(s.writeCert k cert).status 0, ?_, by simp [State.writeCert, State.status, State.send]⟩
  change execCertWrite k cert s = _
  unfold execCertWrite
  rw [if_neg (by simp), if_neg hk, free, if_neg (by decide)]

theorem challenge_pends (s : State) (k : Fin 8) : ∃ t, exec (.challenge k) s = .next t ∧ (k, s.dev.certs[k]) ∈ t.dev.challenges :=
  ⟨_, rfl, List.mem_append_right _ (List.mem_singleton.2 rfl)⟩

/-- The writes that are held are performed; no challenge changes. -/
theorem State.writeCerts_challenges (hs : List HeldCert) : ∀ s : State,
    (hs.foldl (fun s h => (s.writeCert h.slot h.cert).status 0) s).dev.challenges = s.dev.challenges := by
  induction hs with
  | nil => exact fun s => rfl
  | cons h hs ih => exact fun s => ih _

theorem State.endChallenge_challenges (s : State) (k : Fin 8) :
    (s.endChallenge k).dev.challenges = s.dev.challenges.eraseP fun c => c.1 == k := by
  unfold State.endChallenge
  dsimp only
  split
  · rfl
  · exact State.writeCerts_challenges ..

/-- The only challenge that is pending is over with its answer, and with its time. -/
theorem challenges_end {c : List Byte} (h : s.dev.challenges = [(k, c)]) :
    (∃ t, exec (.challenge k true) s = .next t ∧ t.dev.challenges = []) ∧
      ∃ t, exec (.challengeTimeout k) s = .next t ∧ t.dev.challenges = [] := by
  have ended : s.dev.challenges.eraseP (fun c => c.1 == k) = [] := by rw [h]; simp
  have found : s.dev.challenges.find? (fun c => c.1 == k) = some (k, c) := by rw [h]; simp
  have pending : s.challenged k = true := by simp [State.challenged, h]
  refine ⟨⟨(s.send (.challengeAnswer k c)).endChallenge k, ?_, (State.endChallenge_challenges ..).trans ended⟩,
    ⟨_, congrArg Host.Outcome.next (if_pos pending), (State.endChallenge_challenges ..).trans ended⟩⟩
  change execChallenge k s true = _
  unfold execChallenge
  rw [if_pos rfl, found]

end

end Sys2Proof.Machine

namespace Sys2Proof.Machine

/-! ## O60: rings, selection and the launch table (R136, R389, R391) -/

section
variable {s : State}

theorem State.ringGo_ring (s : State) (fn : Fin 63) : (s.ringGo fn).ring fn = s.ring fn := by
  obtain ⟨⟨rs, quiet, -⟩, -⟩ := s.ringGo_begins fn
  exact congrArg (fun x => x.dev.rings[fn]) quiet.below.above

theorem notify_notes {fn : Fin 63} {v : Word} (hi : s.ideRefuses fn.val = false) (h : (s.ring fn).consumed < v.toNat) :
    ∃ t, exec (.notify fn v) s = .next t ∧ (t.ring fn).notify = v.toNat := by
  refine ⟨_, exec_notify hi h, ?_⟩
  rw [State.ringGo_ring, State.setRing_ring]
  split <;> rfl

theorem ringBase_moves {fn : Fin 63} {v : Word} (hi : s.ideRefuses fn.val = false) (done : (s.ring fn).notify ≤ (s.ring fn).consumed)
    (hv : v.toNat % 128 = 0) : ∃ t, exec (.ringBase fn v) s = .next t ∧ (t.ring fn).base = v := by
  refine ⟨_, exec_ringBase hi hv, ?_⟩
  rw [State.setRing_ring, Ring.settled_idle (by exact done)]
  rfl

theorem ringEntries_resizes {fn : Fin 63} {v : Word} (hi : s.ideRefuses fn.val = false) {k : Nat} (hk : k ≤ 16)
    (done : (s.ring fn).notify ≤ (s.ring fn).consumed) (hv : v.toNat = 2 ^ k) :
    ∃ t, exec (.ringEntries fn v) s = .next t ∧ (t.ring fn).entries = v.toNat := by
  refine ⟨_, exec_ringEntries hi hk hv, ?_⟩
  rw [State.setRing_ring, Ring.settled_idle (by exact done)]
  rfl

/-- The head that is selected leaves its queue, bound or refused. -/
theorem launchSelection_dequeues {q : Fin 4} {l : Launch} (elsewhere : List (BitVec 10)) (h : s.selectable = some (q, l)) :
    ∃ t, exec (.launchSelection elsewhere) s = .next t ∧ t.dev.queues[q] = s.dev.queues[q].tail := by
  cases hb : s.bindCheck l with
  | none =>
    obtain ⟨t, run, queue, -⟩ := launchSelection_binds (elsewhere := elsewhere) (sources := []) h hb
    exact ⟨t, run, queue⟩
  | some x =>
    refine ⟨_, exec_launchSelection_refused h hb, ?_⟩
    exact (congrArg (·[q]) (State.publish_queues ..)).trans (s.dequeued_queue q)

/-- A slot that is due is decided: the entry's next slot is the one after it. -/
theorem launchSlot_advances {i : Fin 256} {e : LaunchEntry} (h : s.entry i = some e) (hd : s.slotDue e = true) :
    ∃ t, exec (.launchSlot i) s = .next t ∧ (t.entry i).map (fun x => x.next) = some (e.next + 1) := by
  have idx : e.idx = i := State.entry_idx h
  have put {x : LaunchEntry} (hx : x.idx = i) (hn : x.next = e.next + 1) :
      ((s.putEntry x).entry i).map (fun x => x.next) = some (e.next + 1) := by
    rw [State.putEntry_entry s hx, Option.map_some, hn]
  cases hr : s.entryRuns i with
  | false =>
    obtain ⟨read, fails⟩ := launchSlot_enters h hd hr
    by_cases hb : ∃ bs, (s.serviceBytes 0 (offOf e.template).toNat 128 .load).2 = .ok (bs, false)
    · obtain ⟨bs, hb⟩ := hb
      obtain ⟨t, run, -, entry, -⟩ := read bs hb
      exact ⟨t, run, by rw [entry]; rfl⟩
    · obtain ⟨t, run, -, entry, -⟩ := fails fun bs x => hb ⟨bs, x⟩
      exact ⟨t, run, by rw [entry]; rfl⟩
  | true =>
    by_cases hp : e.policy = true ∧ e.pending = false
    · exact ⟨_, exec_launchSlot_pends h hd hr hp.1 hp.2, put idx rfl⟩
    · refine ⟨_, exec_launchSlot_skips h hd hr ?_, put idx rfl⟩
      cases hpol : e.policy <;> simp_all

/-! ## O60: the ends of a launch (R334, R394, R395) -/

variable {l : Launch}

theorem State.publish_done (s : State) (l : Launch) (r : KillReq) (clk : Word) :
    ((s.publish l r clk).launch l.graph).map (fun x => x.st) = some .done := by
  rw [State.publish_launch]
  rfl

theorem launchCompletion_ends (h : s.launch l.graph = some l) (hq : s.launchQuiet l = true) :
    ∃ t, exec (.launchCompletion l.graph) s = .next t ∧ (t.launch l.graph).map (fun x => x.st) = some .done :=
  ⟨_, (exec_launchCompletion h).trans (by rw [if_pos hq]), State.publish_done ..⟩

theorem killRecord_ends (h : s.launch l.graph = some l) (hq : s.killQuiet l = true) :
    ∃ t, exec (.killRecord l.graph) s = .next t ∧ (t.launch l.graph).map (fun x => x.st) = some .done := by
  have asked : l.killing.isSome = true := by
    simp only [State.killQuiet, Bool.and_eq_true] at hq
    exact hq.1.2
  obtain ⟨⟨r, clk⟩, killing⟩ := Option.isSome_iff_exists.1 asked
  refine ⟨s.publish l r clk, ?_, State.publish_done ..⟩
  change execKillRecord l.graph s = _
  unfold execKillRecord
  rw [h]
  dsimp only
  rw [killing]
  exact if_pos hq

/-! A kill stops the launch's firings and takes its records; of the launches themselves it changes nothing more. -/

theorem State.focus_dev {p : Core → Bool} {t : State} (h : s.focus p = some t) : t.dev = s.dev := by
  unfold State.focus at h
  split at h
  · cases h
    rfl
  · obtain ⟨x, -, rfl⟩ := Option.map_eq_some_iff.1 h
    rfl

theorem State.dropCore_launches (s : State) : s.dropCore.dev.launches = s.dev.launches :=
  (s.cancelSlots_quiet s.core).below.launches

theorem State.stopCore_launches (s : State) (k : BitVec 2) : (s.stopCore k).dev.launches = s.dev.launches := by
  unfold State.stopCore State.onCore
  split
  · next t focused =>
    rw [← State.focus_dev focused]
    dsimp only
    split
    · exact t.dropCore_launches
    · rfl
  · rfl

theorem State.stopCores_launches (ks : List (BitVec 2)) : ∀ s : State, (ks.foldl State.stopCore s).dev.launches = s.dev.launches := by
  induction ks with
  | nil => exact fun s => rfl
  | cons k ks ih => exact fun s => (ih _).trans (s.stopCore_launches k)

theorem State.stopWatches_launches (s : State) (g : BitVec 32) : (s.stopWatches g).dev.launches = s.dev.launches := by
  obtain ⟨u, ws, quiet, -, h⟩ := s.stopWatches_eq g
  rw [h]
  exact quiet.below.launches

theorem State.enlist_launches (s : State) (r : ContRec) : (s.enlist r).dev.launches = s.dev.launches := by
  unfold State.enlist
  split
  · rfl
  · split
    · rfl
    · exact (State.readList_below ..).launches

theorem State.refillGo_launches (rs : List ContRec) : ∀ s : State, (s.refillGo rs).dev.launches = s.dev.launches := by
  induction rs with
  | nil => exact fun s => rfl
  | cons r rs ih =>
    intro s
    unfold State.refillGo
    split
    · exact (ih _).trans (State.enlist_launches ..)
    · rfl

theorem State.lapse_launches (s : State) : s.lapse.dev.launches = s.dev.launches := by
  obtain ⟨r, h⟩ := s.lapse_eq
  rw [h]
  rfl

theorem State.stopInstance_launches (s : State) (g : BitVec 32) : (s.stopInstance g).dev.launches = s.dev.launches := by
  have pulls (p : Prop) [Decidable p] (u : State) : (if p then u.cancelPulls fun _ => true else u).dev.launches = u.dev.launches := by
    split <;> rfl
  unfold State.stopInstance
  refine (State.refillGo_launches ..).trans ((State.lapse_launches _).trans ?_)
  exact (pulls _ _).trans ((State.stopWatches_launches ..).trans (State.stopCores_launches ..))

theorem kill_asks {r : KillReq} (h : s.launch l.graph = some l) (hr : r.graph = l.graph) (live : l.live = true) (first : l.killing = none) :
    ∃ t, exec (.kill r) s = .next t ∧ (t.launch l.graph).map (fun x => x.killing.map fun y => y.1) = some (some r) := by
  let k : Launch := { l with killing := some (r, s.clk) }
  let u := s.putLaunch k
  have found : (if u.boundHere l.graph then u.count .kills 1 else u).launch l.graph = some k := by
    split <;> exact s.putLaunch_launch rfl
  refine ⟨(if u.boundHere l.graph then u.count .kills 1 else u).stopInstance r.graph, ?_, ?_⟩
  · change Host.Outcome.next (s.killNow r) = _
    unfold State.killNow
    rw [hr, h]
    dsimp only
    rw [live, first, if_neg (by decide)]
  · rw [State.launch, State.stopInstance_launches, ← State.launch, found]
    rfl

/-! ## O60: logs (R399) -/

theorem logExport_exports {e : LogEntry} (key : BitVec 256) (addr : Word) (h : s.launch l.graph = some l) (logged : e ∈ s.dev.log)
    (he : e.graph = l.graph) (own : s.slotOf l.space ≠ 0) (pod : s.slotOf l.space ≠ 63)
    (kindled : (s.slot (s.slotOf l.space)).st = .kindled) :
    ∃ t, exec (.logExport l.graph key addr) s = .next t ∧ ∃ nonce ct tag, t.outbox = s.outbox ++ [.log addr nonce ct tag] := by
  have some' : (s.dev.log.filter fun e => e.graph == l.graph).isEmpty = false :=
    List.isEmpty_eq_false_iff_exists_mem.2 ⟨e, List.mem_filter.2 ⟨logged, by simp [he]⟩⟩
  have stands : (s.dev.slots[(s.slotOf l.space).toNat]'((s.slotOf l.space).isLt)).st = .kindled := kindled
  change ∃ t, execLogExport l.graph key addr s = .next t ∧ _
  unfold execLogExport
  rw [h]
  dsimp only
  rw [if_neg (by simpa [some', stands] using ⟨own, pod⟩)]
  exact ⟨_, rfl, _, _, _, rfl⟩

end

/-! ## O60: the clauses together -/

/-- Settles O60, clause by clause: each event runs past its guards to the state that has its first effect. -/
theorem deviceEventsComplete : Obligations.DeviceEventsComplete := by
  unfold Obligations.DeviceEventsComplete
  refine ⟨fun s h r hr => ⟨retry_waits hr, repeatAfterRetry_repeats hr, requestRepeat_repeats hr⟩,
    fun s h x y hb hl away hx cached verifies hy => probes_take hb hl away hx cached verifies hy,
    fun s d => ⟨probeTimer_probes, peerLoss_loses, peerReadmit_admits, memberRemoval_removes⟩,
    fun s => ⟨_, rfl, rfl⟩, fun s f => hostReads_leave,
    fun s d k phase key => ⟨nysilInstall_status phase key, nysilErase_status d k phase, fun x hx =>
      ⟨keyRotation_installs key hx, oldPhaseErase_erases hx, sessionContextFetch_caches hx⟩⟩,
    fun s k test clusters => ⟨kindle_kindles test clusters, fun h => ⟨fun who => quench_quenches who h, quench_quenches .interface h,
      lockInterface_locks h, startInterface_runs h, deviceInterfaceReport_reports h⟩, quenchRelease_releases⟩,
    fun s => debugUnlock_unlocks, fun s stream set1 key => ⟨_, rfl, List.mem_cons_self⟩,
    fun s k cert => ⟨certWrite_writes cert, challenge_pends s k, fun c => challenges_end⟩,
    fun s idx => ⟨_, rfl, _, rfl⟩, fun s a b atBoot => ⟨_, rfl, List.mem_cons_self⟩, fun s id cap ms hb hi hc hs => ?boot,
    fun s fn v hi => ⟨notify_notes hi, ringBase_moves hi, fun k hk => ringEntries_resizes hi hk⟩,
    fun s elsewhere q l => launchSelection_dequeues elsewhere, fun s i e => launchSlot_advances,
    fun s l h => ⟨launchCompletion_ends h, killRecord_ends h, fun r => kill_asks h,
      fun fn n reads queues launches live hf hn ht => ?cancel⟩,
    fun s offset => ⟨?ptp, ?lock⟩, fun s l key addr e => logExport_exports key addr, fun s drive => ⟨_, rfl, List.mem_cons_self⟩,
    fun s image => ⟨⟨_, rfl, rfl⟩, _, rfl, _, rfl⟩, fun s q v => ⟨_, rfl, by simp⟩⟩
  case boot =>
    have pass : imagesPass (s.bootImages []) = true := by rw [State.bootImages, hs]; rfl
    obtain ⟨t, rs, run, -, -, above⟩ := exec_boot_runs (ms := ms) (failed := none) hc hb hi pass
    have dev {α : Type} (f : Device → α) := congrArg (fun x : State => f x.dev) above
    exact ⟨t, run, dev (·.booted), dev (·.id)⟩
  case cancel =>
    have named : l.named fn n = true := Launch.named_iff.2 ⟨hf, hn, ht⟩
    exact ⟨_, cancel_kills (by simp [reads]) queues launches named live, _, rfl, rfl⟩
  case ptp =>
    change ∃ t, execPtpCorrection offset s = .next t ∧ _
    unfold execPtpCorrection
    split <;> exact ⟨_, rfl, rfl⟩
  case lock =>
    change ∃ t, execLockLoss s = .next t ∧ _
    unfold execLockLoss
    dsimp only
    split
    · next unlocked => exact ⟨s, rfl, by simpa using unlocked⟩
    · exact ⟨_, rfl, rfl⟩

end Sys2Proof.Machine
